-- ==== Sys2Proof/Word.lean ====
section
/-! DEFINITION. The bit-vector types of the model: bytes, 32-bit words, 64-bit addresses (spec 00 R4, R5). -/

namespace Sys2Proof

/-- A byte of memory, scratch, descriptors and records (R5). -/
abbrev Byte := BitVec 8

/-- A 32-bit register, predicate or instruction word (R37, R50). -/
abbrev Word := BitVec 32

/-- A 64-bit virtual address, program counter or scalar pair (R37, R96). -/
abbrev Addr := BitVec 64

end Sys2Proof
end

