-- ==== Sys2Proof/Syntax.lean ====
section
/-! DEFINITION. The instructions, events and commands of spec/opcode_table.json: one constructor of Instr per row, each
with the fields its encoding or its rule names. -/

namespace Sys2Proof

/-- Compact instruction (R48): Y, Vs, Vd. -/
structure CompactF where
  y : BitVec 1
  vs : BitVec 5
  vd : BitVec 5
  deriving DecidableEq, Repr

/-- TRIO base format (R51): Vb, or S0-S127 when `bs` is 1. -/
structure TrioF where
  stall : BitVec 3
  vd : BitVec 7
  va : BitVec 7
  vb : BitVec 7
  bs : BitVec 1
  deriving DecidableEq, Repr

/-- DUOI base format (R51). -/
structure DuoiF where
  stall : BitVec 3
  vd : BitVec 7
  va : BitVec 7
  imm : BitVec 8
  deriving DecidableEq, Repr

/-- MOVI base format (R51). -/
structure MoviF where
  stall : BitVec 3
  vd : BitVec 7
  imm : BitVec 15
  deriving DecidableEq, Repr

/-- SS base format (R51); the minor is the constructor. -/
structure SsF where
  stall : BitVec 3
  sd : BitVec 8
  sa : BitVec 8
  deriving DecidableEq, Repr

/-- SI base format (R51). -/
structure SiF where
  stall : BitVec 3
  sd : BitVec 8
  imm : BitVec 14
  deriving DecidableEq, Repr

/-- BR base format (R51). -/
structure BrF where
  stall : BitVec 3
  off : BitVec 22
  deriving DecidableEq, Repr

/-- BP base format (R51). -/
structure BpF where
  stall : BitVec 3
  p : BitVec 3
  mode : BitVec 2
  off : BitVec 17
  deriving DecidableEq, Repr

/-- MEM base format (R51). -/
structure MemF where
  stall : BitVec 3
  vt : BitVec 7
  sbase : BitVec 8
  imm : BitVec 7
  deriving DecidableEq, Repr

/-- GMOV base format (R51). -/
structure GmovF where
  stall : BitVec 3
  d : BitVec 8
  a : BitVec 8
  dIsS : BitVec 1
  aIsS : BitVec 1
  deriving DecidableEq, Repr

/-- STALL base format (R51). -/
structure StallF where
  stall : BitVec 3
  n : BitVec 8
  deriving DecidableEq, Repr

/-- An unassigned encoding (R60): its length in bytes (2, 4 or 8) and its words. -/
structure UnassignedF where
  len : Nat
  w0 : Word
  w1 : Word
  deriving DecidableEq, Repr

/-- The guard field of an extension word (R55). -/
structure Guard where
  ge : BitVec 1
  gp : BitVec 3
  gn : BitVec 1
  deriving DecidableEq, Repr

/-- The standard frame of XALU, XPRED and XLANE (R57). With `imm` 1 the 16-bit immediate is `c ++ b`. -/
structure XF where
  stall : BitVec 3
  d : BitVec 8
  a : BitVec 8
  cl : BitVec 4
  imm : BitVec 1
  g : Guard
  b : BitVec 8
  c : BitVec 8
  rm : BitVec 2
  sat : BitVec 1
  deriving DecidableEq, Repr

/-- The scalar frame of XSCALAR minors 0-16 (R325). -/
structure ScalarF where
  stall : BitVec 3
  sd : BitVec 8
  sa : BitVec 8
  imm : BitVec 1
  g : Guard
  b : BitVec 8
  c : BitVec 8
  deriving DecidableEq, Repr

/-- BR (R339). -/
structure BrXF where
  stall : BitVec 3
  sb : BitVec 8
  sa : BitVec 8
  imm : BitVec 1
  cond : BitVec 4
  g : Guard
  off : BitVec 19
  deriving DecidableEq, Repr

/-- JMP and RET (R365, R398). -/
structure JmpF where
  stall : BitVec 3
  sa : BitVec 8
  l : BitVec 1
  g : Guard
  deriving DecidableEq, Repr

/-- SRD (R406). -/
structure SrdF where
  stall : BitVec 3
  d : BitVec 8
  vd : BitVec 1
  g : Guard
  num : BitVec 10
  deriving DecidableEq, Repr

/-- SWR (R406). -/
structure SwrF where
  stall : BitVec 3
  sa : BitVec 8
  g : Guard
  num : BitVec 10
  deriving DecidableEq, Repr

/-- The frame of LD, ST, LDS, STS and SLD (R366). -/
structure MemXF where
  stall : BitVec 3
  vt : BitVec 8
  sa : BitVec 8
  vi : BitVec 1
  ord : BitVec 1
  ty : BitVec 4
  g : Guard
  off : BitVec 13
  few : BitVec 1
  fec : BitVec 1
  fes : BitVec 1
  scope : BitVec 3
  deriving DecidableEq, Repr

/-- ATOM (R332). -/
structure AtomF where
  stall : BitVec 3
  vd : BitVec 8
  sa : BitVec 8
  scope : BitVec 3
  op : BitVec 3
  g : Guard
  vb : BitVec 8
  vi : BitVec 7
  w : BitVec 1
  order : BitVec 2
  deriving DecidableEq, Repr

/-- MRED (R379). -/
structure MredF where
  stall : BitVec 3
  sa : BitVec 8
  scope : BitVec 3
  op : BitVec 3
  g : Guard
  vb : BitVec 8
  vi : BitVec 7
  fmt : BitVec 2
  order : BitVec 2
  deriving DecidableEq, Repr

/-- CCTL, PF, ICINV and FE (R344, R361, R364, R390): an operation over a range. -/
structure RangeF where
  stall : BitVec 3
  sa : BitVec 8
  op : BitVec 2
  g : Guard
  sb : BitVec 8
  deriving DecidableEq, Repr

/-- FENCE, FBEG and FWAIT (R136). -/
structure FenceF where
  stall : BitVec 3
  sd : BitVec 8
  sa : BitVec 8
  scope : BitVec 3
  kind : BitVec 2
  g : Guard
  deriving DecidableEq, Repr

/-- BAR (R221). -/
structure BarF where
  stall : BitVec 3
  sd : BitVec 8
  sa : BitVec 8
  mode : BitVec 2
  hs : BitVec 1
  nd : BitVec 1
  g : Guard
  handle : BitVec 12
  deriving DecidableEq, Repr

/-- MONW (R217). -/
structure MonwF where
  stall : BitVec 3
  sd : BitVec 8
  sa : BitVec 8
  scope : BitVec 3
  cmp : BitVec 2
  w : BitVec 1
  g : Guard
  sb : BitVec 8
  sc : BitVec 8
  sg : BitVec 1
  deriving DecidableEq, Repr

/-- YIELD (R420). -/
structure YieldF where
  stall : BitVec 3
  n : BitVec 8
  g : Guard
  deriving DecidableEq, Repr

/-- EPUSH and EPOP (R227): `sb` is Sv of EPUSH and Sc of EPOP. -/
structure EdgeF where
  stall : BitVec 3
  sd : BitVec 8
  se : BitVec 8
  nb : BitVec 1
  g : Guard
  sb : BitVec 8
  deriving DecidableEq, Repr

/-- COPY (R207). -/
structure CopyF where
  stall : BitVec 3
  ss : BitVec 8
  sa : BitVec 8
  dir : BitVec 2
  dg : BitVec 1
  g : Guard
  sr : BitVec 8
  sh : BitVec 8
  deriving DecidableEq, Repr

/-- COBJ and CPWAIT (R207); Sd is 0 in COBJ. -/
structure ObjF where
  stall : BitVec 3
  sd : BitVec 8
  sa : BitVec 8
  g : Guard
  deriving DecidableEq, Repr

/-- LEASE (R179). -/
structure LeaseF where
  stall : BitVec 3
  sd : BitVec 8
  cls : BitVec 3
  nb : BitVec 1
  g : Guard
  unit : BitVec 8
  deriving DecidableEq, Repr

/-- LREL (R179). -/
structure LrelF where
  stall : BitVec 3
  sa : BitVec 8
  ret : BitVec 1
  g : Guard
  deriving DecidableEq, Repr

/-- Forms with Sd and Sa only: LSTAT, EWAIT, MWAIT, MBAT, TALLOC (with MAP), TFREE, PROG (R179, R192, R394). -/
structure ScalarPairF where
  stall : BitVec 3
  sd : BitVec 8
  sa : BitVec 8
  map : BitVec 1
  g : Guard
  deriving DecidableEq, Repr

/-- ENG (R179). -/
structure EngF where
  stall : BitVec 3
  sd : BitVec 8
  sa : BitVec 8
  g : Guard
  sb : BitVec 8
  deriving DecidableEq, Repr

/-- BLD, MMA, MV and TDRN (R192): `mods` is base [31:26], `d` base [17:10]. -/
structure MatF where
  stall : BitVec 3
  d : BitVec 8
  a : BitVec 8
  mods : BitVec 6
  g : Guard
  b : BitVec 8
  c : BitVec 8
  deriving DecidableEq, Repr

/-- TZERO and TMOV (R192). -/
structure TileF where
  stall : BitVec 3
  d : BitVec 4
  a : BitVec 4
  g : Guard
  deriving DecidableEq, Repr

/-- TRAP, BKPT (16-bit code) and SYS (15-bit code) (R337, R413, R416). -/
structure CodeF where
  stall : BitVec 3
  g : Guard
  code : BitVec 16
  deriving DecidableEq, Repr

/-- TRET and EXIT (R260, R358). -/
structure GuardF where
  stall : BitVec 3
  g : Guard
  deriving DecidableEq, Repr

/-- REGSET (R396). -/
structure RegsetF where
  stall : BitVec 3
  sd : BitVec 8
  sa : BitVec 8
  imm : BitVec 1
  nb : BitVec 1
  g : Guard
  n : BitVec 8
  deriving DecidableEq, Repr

/-- RCHK (R164). -/
structure RchkF where
  stall : BitVec 3
  sd : BitVec 8
  mode : BitVec 2
  g : Guard
  deriving DecidableEq, Repr

/-- ENQ (R236). -/
structure EnqF where
  stall : BitVec 3
  sd : BitVec 8
  sa : BitVec 8
  nb : BitVec 1
  g : Guard
  sq : BitVec 8
  deriving DecidableEq, Repr

/-- RELAUNCH (R290). -/
structure RelaunchF where
  stall : BitVec 3
  sd : BitVec 8
  sa : BitVec 8
  mode : BitVec 2
  g : Guard
  sb : BitVec 8
  deriving DecidableEq, Repr

/-- A Belino word's fields beside its operation (R246). -/
structure BelinoF where
  d : BitVec 4
  a : BitVec 4
  imm : BitVec 16
  deriving DecidableEq, Repr

/-- A management command's words beside OP and SUB (R299, R301, R302): the tag, the word at 0x04 and the six
double words from 0x08 to 0x37. -/
structure Cmd where
  tag : BitVec 16
  head : Word
  a08 : Addr
  a10 : Addr
  a18 : Addr
  a20 : Addr
  a28 : Addr
  a30 : Addr
  deriving DecidableEq, Repr

/-- Where an uncorrectable error falls (R120). -/
inductive EccSite where
  /-- Scratch granule of a core: 16-byte granule number. -/
  | scratch (core granule : Nat)
  /-- A vector, scalar or predicate register, path table, stack or checker state of the group in a slot. -/
  | group (slot : Nat)
  /-- A physical accumulator tile of a core. -/
  | tile (core tile : Nat)
  /-- A B slot of a core. -/
  | bslot (core slot : Nat)
  /-- An L1 Shared line (data) of a core. -/
  | l1Shared (core line : Nat)
  /-- An instruction cache line of a core. -/
  | icache (core line : Nat)
  /-- An L1 Update-only line of a core. -/
  | partials (core line : Nat)
  /-- An L2 line or HBM data: a physical 32-byte granule; `hbm` tells the counter. -/
  | granule (die : Nat) (hbm : Bool) (granule : Nat)
  /-- An L2 directory entry holding a line. -/
  | directory (die line : Nat)
  /-- The request-table entry of a synchronous access of the group in a slot. -/
  | syncRequest (slot : Nat)
  /-- The request-table entry of an asynchronous operation: copy, engine order entry or ENG operation. -/
  | asyncCopy (copy : Nat)
  | asyncOrder (core op : Nat)
  | asyncEng (op : Nat)
  /-- A mark of a global granule. -/
  | mark (die granule : Nat)
  /-- A mark of a scratch granule (32 bytes) of a core. -/
  | scratchMark (core granule : Nat)
  /-- The mailbox of a die. -/
  | mailbox (die : Nat)
  deriving DecidableEq, Repr

/-- A firmware image as the security controller finds it at package reset (R314): its digest and whether its
signature verifies. -/
structure FirmwareImage where
  digest : BitVec 256
  valid : Bool
  deriving DecidableEq, Repr

/-- The instructions, events and commands, one constructor per row of spec/opcode_table.json: program instructions,
Belino operations and management commands in the table's order, then the hardware events. -/
inductive Instr where
  /-- MOV_COMPACT (R48): Compact move Vd := Vs in every active lane, copying the source tag. -/
  | movCompact (f : CompactF)
  /-- ADD_COMPACT (R48): Compact tag-generic addition Vd := Vd + Vs, rounded RNE. -/
  | addCompact (f : CompactF)
  /-- SUB_COMPACT (R48): Compact subtraction Vd := Vd - Vs. -/
  | subCompact (f : CompactF)
  /-- MUL_COMPACT (R49): Compact multiplication Vd := Vd × Vs; integer tags keep the low element width. -/
  | mulCompact (f : CompactF)
  /-- AND_COMPACT (R48): Compact bitwise AND of Vd and Vs. -/
  | andCompact (f : CompactF)
  /-- OR_COMPACT (R48): Compact bitwise OR of Vd and Vs. -/
  | orCompact (f : CompactF)
  /-- XOR_COMPACT (R48): Compact bitwise exclusive OR of Vd and Vs. -/
  | xorCompact (f : CompactF)
  /-- NOT_COMPACT (R386): Compact bitwise complement Vd := NOT Vs. -/
  | notCompact (f : CompactF)
  /-- SHL_COMPACT (R49): Compact left shift of each element of Vd by the matching element of Vs modulo its width. -/
  | shlCompact (f : CompactF)
  /-- SHR_COMPACT (R49): Compact right shift of each element of Vd, arithmetic on signed tags and logical otherwise. -/
  | shrCompact (f : CompactF)
  /-- MIN_COMPACT (R373): Compact element minimum of Vd and Vs. -/
  | minCompact (f : CompactF)
  /-- MAX_COMPACT (R373): Compact element maximum of Vd and Vs. -/
  | maxCompact (f : CompactF)
  /-- ABS_COMPACT (R327): Compact absolute value of each element of Vs into Vd. -/
  | absCompact (f : CompactF)
  /-- NEG_COMPACT (R385): Compact negation of each element of Vs into Vd. -/
  | negCompact (f : CompactF)
  /-- POPC_COMPACT (R393): Compact population count of Vs into Vd with tag N32. -/
  | popcCompact (f : CompactF)
  /-- SEL_COMPACT (R49): Compact select Vd := P0 bit of the lane ? Vs : Vd. -/
  | selCompact (f : CompactF)
  /-- STALL (R410): Holds the path for n clk beyond its stall field; n = 0 with stall 0 is the no-operation. -/
  | stall (f : StallF)
  /-- ADD_BASE (R329): Base TRIO lane addition of Va and Vb or a scalar, rounded RNE. -/
  | addBase (f : TrioF)
  /-- SUB_BASE (R412): Base TRIO lane subtraction Va - Vb. -/
  | subBase (f : TrioF)
  /-- MUL_BASE (R381): Base TRIO lane multiplication. -/
  | mulBase (f : TrioF)
  /-- FMA_BASE (R363): Base fused multiply-add Vd := Va × Vb + Vd, rounded once RNE. -/
  | fmaBase (f : TrioF)
  /-- MIN_BASE (R373): Base TRIO lane minimum. -/
  | minBase (f : TrioF)
  /-- MAX_BASE (R373): Base TRIO lane maximum. -/
  | maxBase (f : TrioF)
  /-- AND_BASE (R331): Base TRIO bitwise AND. -/
  | andBase (f : TrioF)
  /-- OR_BASE (R387): Base TRIO bitwise OR. -/
  | orBase (f : TrioF)
  /-- XOR_BASE (R387): Base TRIO bitwise exclusive OR. -/
  | xorBase (f : TrioF)
  /-- SHL_BASE (R402): Base TRIO element left shift. -/
  | shlBase (f : TrioF)
  /-- SHR_BASE (R402): Base TRIO element right shift. -/
  | shrBase (f : TrioF)
  /-- SEL_BASE (R400): Base select Vd := P0 ? Va : Vb in every active lane. -/
  | selBase (f : TrioF)
  /-- ADDI (R329): Base addition of a sign-extended 8-bit immediate. -/
  | addi (f : DuoiF)
  /-- ANDI (R331): Base AND with a zero-extended 8-bit immediate. -/
  | andi (f : DuoiF)
  /-- ORI (R387): Base OR with a zero-extended 8-bit immediate. -/
  | ori (f : DuoiF)
  /-- SHLI (R402): Base left shift by an immediate 0-31. -/
  | shli (f : DuoiF)
  /-- SHRI (R402): Base right shift by an immediate 0-31. -/
  | shri (f : DuoiF)
  /-- MOVI_BASE (R378): Writes a sign-extended 15-bit immediate with tag I32 in every active lane. -/
  | moviBase (f : MoviF)
  /-- ADD_SALU (R330): Scalar Sd := Sd + Sa modulo 2^32. -/
  | addSalu (f : SsF)
  /-- SUB_SALU (R412): Scalar Sd := Sd - Sa. -/
  | subSalu (f : SsF)
  /-- MUL_SALU (R381): Scalar low 32 bits of Sd × Sa. -/
  | mulSalu (f : SsF)
  /-- AND_SALU (R331): Scalar bitwise AND. -/
  | andSalu (f : SsF)
  /-- OR_SALU (R387): Scalar bitwise OR. -/
  | orSalu (f : SsF)
  /-- XOR_SALU (R387): Scalar bitwise exclusive OR. -/
  | xorSalu (f : SsF)
  /-- SHL_SALU (R403): Scalar left shift by Sa[4:0]. -/
  | shlSalu (f : SsF)
  /-- SHR_SALU (R403): Scalar logical right shift by Sa[4:0]. -/
  | shrSalu (f : SsF)
  /-- SRA_SALU (R403): Scalar arithmetic right shift by Sa[4:0]. -/
  | sraSalu (f : SsF)
  /-- MIN_SALU (R373): Scalar signed minimum. -/
  | minSalu (f : SsF)
  /-- MAX_SALU (R373): Scalar signed maximum. -/
  | maxSalu (f : SsF)
  /-- MOV_SALU (R377): Scalar move Sd := Sa. -/
  | movSalu (f : SsF)
  /-- NOT_SALU (R386): Scalar complement Sd := NOT Sa. -/
  | notSalu (f : SsF)
  /-- NEG_SALU (R385): Scalar negation Sd := 0 - Sa. -/
  | negSalu (f : SsF)
  /-- MULHI_SALU (R382): Scalar high 32 bits of the signed 64-bit product. -/
  | mulhiSalu (f : SsF)
  /-- CLZ_SALU (R345): Scalar count of leading zeros of Sa. -/
  | clzSalu (f : SsF)
  /-- POPC_SALU (R393): Scalar population count of Sa. -/
  | popcSalu (f : SsF)
  /-- SLI (R405): Writes a sign-extended 14-bit immediate to Sd. -/
  | sli (f : SiF)
  /-- BRA (R340): Moves the whole path by a signed 22-bit halfword offset. -/
  | bra (f : BrF)
  /-- CALL (R343): Writes the return address to S158:S159 and branches by a halfword offset. -/
  | call (f : BrF)
  /-- BRP (R342): Branches on predicate P under mode any, all, none or uniform, the last splitting the path per lane. -/
  | brp (f : BpF)
  /-- LD_BASE (R52): Base relaxed .b32 global load of contiguous lanes at base + offset + 4i, tag RAW. -/
  | ldBase (f : MemF)
  /-- ST_BASE (R408): Base relaxed .b32 global store of contiguous lanes. -/
  | stBase (f : MemF)
  /-- LDS_BASE (R52): Base relaxed .b32 scratch load. -/
  | ldsBase (f : MemF)
  /-- STS_BASE (R411): Base relaxed .b32 scratch store. -/
  | stsBase (f : MemF)
  /-- SLD_BASE (R404): Base relaxed .b32 scalar load once for the group into S0-S127. -/
  | sldBase (f : MemF)
  /-- DOT_BASE (R353): Base dot product accumulated into Vd, rounded RNE. -/
  | dotBase (f : TrioF)
  /-- MOV_GENERAL (R377): General move between vector and scalar registers in any direction. -/
  | movGeneral (f : GmovF)
  /-- UNASSIGNED_ENCODING (R60): An unassigned or reserved encoding traps ILLEGAL to the user emulation handler, filling the EMU block. -/
  | unassignedEncoding (f : UnassignedF)
  /-- ADD_X (R329): X-form lane addition with guard, rounding mode and saturation. -/
  | addX (f : XF)
  /-- SUB_X (R412): X-form lane subtraction. -/
  | subX (f : XF)
  /-- MUL_X (R381): X-form lane multiplication. -/
  | mulX (f : XF)
  /-- MULHI_X (R382): X-form high half of the exact integer product per element. -/
  | mulhiX (f : XF)
  /-- FMA_X (R363): X-form fused multiply-add Vd := Va × Vb + Vc. -/
  | fmaX (f : XF)
  /-- MIN_X (R373): X-form lane minimum. -/
  | minX (f : XF)
  /-- MAX_X (R373): X-form lane maximum. -/
  | maxX (f : XF)
  /-- ABS_X (R327): X-form absolute value with optional saturation. -/
  | absX (f : XF)
  /-- NEG_X (R385): X-form negation with optional saturation. -/
  | negX (f : XF)
  /-- AND_X (R331): X-form bitwise AND. -/
  | andX (f : XF)
  /-- OR_X (R387): X-form bitwise OR. -/
  | orX (f : XF)
  /-- XOR_X (R387): X-form bitwise exclusive OR. -/
  | xorX (f : XF)
  /-- NOT_X (R386): X-form bitwise complement. -/
  | notX (f : XF)
  /-- SHL_X (R402): X-form element left shift. -/
  | shlX (f : XF)
  /-- SHR_X (R402): X-form element right shift. -/
  | shrX (f : XF)
  /-- SEL_X (R400): X-form select between A and B by a possibly negated predicate. -/
  | selX (f : XF)
  /-- MOV_X (R377): X-form guarded move from a vector or scalar. -/
  | movX (f : XF)
  /-- MOVI_X (R378): X-form 16-bit immediate move with result tag, into the low or (with .hi) upper half. -/
  | moviX (f : XF)
  /-- DOT_X (R353): X-form dot product with rounding mode and saturation. -/
  | dotX (f : XF)
  /-- ACS (R328): Add-compare-select of two path metrics, storing the survivor bit in bit 0. -/
  | acs (f : XF)
  /-- POPC_X (R393): X-form population count. -/
  | popcX (f : XF)
  /-- CLZ_X (R345): X-form count of leading zeros, tag N32. -/
  | clzX (f : XF)
  /-- BREV (R341): Reverses the 32 bits of the source. -/
  | brev (f : XF)
  /-- BFE (R336): Extracts a bit field, sign-extending on I32. -/
  | bfe (f : XF)
  /-- BFI (R336): Inserts a bit field of Va into Vc. -/
  | bfi (f : XF)
  /-- CMP (R346): Compares per lane and writes predicate bits of the lanes taking effect. -/
  | cmp (f : XF)
  /-- PLOP (R391): Combines two predicates through a 4-bit truth table. -/
  | plop (f : XF)
  /-- PMOV (R392): Copies a mask between predicate and scalar registers. -/
  | pmov (f : XF)
  /-- VOTE (R417): Reduces a predicate or vector uniformity over the lanes to one value. -/
  | vote (f : XF)
  /-- SHFL (R401): Exchanges values between lanes by index, up, down or xor. -/
  | shfl (f : XF)
  /-- XRED (R418): Reduces a vector over the lanes by a fixed pairwise tree, optionally returning the index. -/
  | xred (f : XF)
  /-- LGET (R372): Copies one lane's register into a scalar register. -/
  | lget (f : XF)
  /-- LPUT (R372): Copies a scalar into one lane's register with tag I32. -/
  | lput (f : XF)
  /-- PACK (R389): Converts every element of two registers into one register of half-width elements. -/
  | pack (f : XF)
  /-- UNPACK (R389): Widens the low or high half of a register exactly. -/
  | unpack (f : XF)
  /-- CVT (R352): Converts one selected element into one element position of the destination. -/
  | cvt (f : XF)
  /-- RETAG (R399): Copies the bits and writes a new tag. -/
  | retag (f : XF)
  /-- RCP (R395): Reciprocal rounded once. -/
  | rcp (f : XF)
  /-- RSQ (R395): Reciprocal square root rounded once. -/
  | rsq (f : XF)
  /-- EXP2 (R359): Base-2 exponential rounded once. -/
  | exp2 (f : XF)
  /-- LOG2 (R359): Base-2 logarithm rounded once. -/
  | log2 (f : XF)
  /-- SIN (R395): sin(pi x) rounded once. -/
  | sin (f : XF)
  /-- COS (R349): cos(pi x) rounded once. -/
  | cos (f : XF)
  /-- ADD_XSCALAR (R330): Three-address scalar addition with guard or immediate. -/
  | addXscalar (f : ScalarF)
  /-- SUB_XSCALAR (R412): Three-address scalar subtraction. -/
  | subXscalar (f : ScalarF)
  /-- MUL_XSCALAR (R381): Three-address scalar multiplication. -/
  | mulXscalar (f : ScalarF)
  /-- AND_XSCALAR (R331): Three-address scalar AND. -/
  | andXscalar (f : ScalarF)
  /-- OR_XSCALAR (R387): Three-address scalar OR. -/
  | orXscalar (f : ScalarF)
  /-- XOR_XSCALAR (R387): Three-address scalar exclusive OR. -/
  | xorXscalar (f : ScalarF)
  /-- SHL_XSCALAR (R403): Three-address scalar left shift. -/
  | shlXscalar (f : ScalarF)
  /-- SHR_XSCALAR (R403): Three-address scalar logical right shift. -/
  | shrXscalar (f : ScalarF)
  /-- SRA_XSCALAR (R403): Three-address scalar arithmetic right shift. -/
  | sraXscalar (f : ScalarF)
  /-- MIN_XSCALAR (R373): Three-address scalar signed minimum. -/
  | minXscalar (f : ScalarF)
  /-- MAX_XSCALAR (R373): Three-address scalar signed maximum. -/
  | maxXscalar (f : ScalarF)
  /-- MOV_XSCALAR (R377): Guarded scalar move. -/
  | movXscalar (f : ScalarF)
  /-- NOT_XSCALAR (R386): Guarded scalar complement. -/
  | notXscalar (f : ScalarF)
  /-- NEG_XSCALAR (R385): Guarded scalar negation. -/
  | negXscalar (f : ScalarF)
  /-- MULHI_XSCALAR (R382): Guarded scalar signed high product. -/
  | mulhiXscalar (f : ScalarF)
  /-- CLZ_XSCALAR (R345): Guarded scalar count of leading zeros. -/
  | clzXscalar (f : ScalarF)
  /-- POPC_XSCALAR (R393): Guarded scalar population count. -/
  | popcXscalar (f : ScalarF)
  /-- BR (R339): Compares two scalar values once and moves the whole path on the condition. -/
  | br (f : BrXF)
  /-- JMP (R365): Moves the path to a 64-bit register address, optionally writing the link. -/
  | jmp (f : JmpF)
  /-- RET (R398): Returns through a register pair, S158 by default. -/
  | ret (f : JmpF)
  /-- SRD (R407): Reads a special register into a scalar or vector register. -/
  | srd (f : SrdF)
  /-- SWR (R407): Writes FPCTL or EMUNEXT; other registers trap PRIV. -/
  | swr (f : SwrF)
  /-- LD (R368): Typed, ordered global or OPM load per lane. -/
  | ld (f : MemXF)
  /-- ST (R409): Typed, ordered global or OPM store per lane, retiring into the store queue. -/
  | st (f : MemXF)
  /-- LDS (R370): Scratch load with optional full/empty wait and clear. -/
  | lds (f : MemXF)
  /-- STS (R411): Scratch store with optional full-bit set. -/
  | sts (f : MemXF)
  /-- SLD (R404): Scalar load once for the group, optionally acquiring. -/
  | sld (f : MemXF)
  /-- ATOM (R333): Atomic read-modify-write at the line's home returning the prior value. -/
  | atom (f : AtomF)
  /-- MRED (R380): Reduction into Update-only partials without a returned value. -/
  | mred (f : MredF)
  /-- PF (R390): Prefetch hint into L1 or L2 over up to 1 MiB. -/
  | pf (f : RangeF)
  /-- CCTL (R344): Cache control hint: L1 evict, L2 evict or low priority. -/
  | cctl (f : RangeF)
  /-- ICINV (R364): Invalidates instruction-cache lines of the issuing core after its stores perform. -/
  | icinv (f : RangeF)
  /-- FE (R362): Sets or clears the full bits of a scratch range. -/
  | fe (f : RangeF)
  /-- FENCE (R135): Fused fence: marks a point and parks until the covered accesses perform. -/
  | fence (f : FenceF)
  /-- FBEG (R135): Begins a split fence and writes its token. -/
  | fbeg (f : FenceF)
  /-- FWAIT (R135): Parks until the fence named by the token completes, if outstanding. -/
  | fwait (f : FenceF)
  /-- BAR (R335): Arrives at and/or waits on a team or level barrier. -/
  | bar (f : BarF)
  /-- MONW (R376): Compares a global location at its home and parks on a monitor until satisfied or timed out. -/
  | monw (f : MonwF)
  /-- YIELD (R420): Swaps with the lowest-PC stack entry and counts as parked for n clk. -/
  | yield (f : YieldF)
  /-- EPUSH (R356): Pushes a 64-bit value into an edge, parking when full. -/
  | epush (f : EdgeF)
  /-- EPOP (R356): Pops a 64-bit value from an edge, parking when empty. -/
  | epop (f : EdgeF)
  /-- COPY (R348): Contributes a slice to a copy slice set and posts the set when complete. -/
  | copy (f : CopyF)
  /-- COBJ (R347): Zeroes a completion object indivisibly. -/
  | cobj (f : ObjF)
  /-- CPWAIT (R350): Parks until a completion object is complete and returns its STATUS. -/
  | cpwait (f : ObjF)
  /-- LEASE (R179): Enqueues a lease request for an engine class and optionally parks until HELD. -/
  | lease (f : LeaseF)
  /-- LREL (R175): Releases a lease, parking until its operations complete, optionally retaining the MX. -/
  | lrel (f : LrelF)
  /-- LSTAT (R174): Returns a lease's state word. -/
  | lstat (f : ScalarPairF)
  /-- ENG (R354): Queues one operation on a held specialised engine and returns a token. -/
  | eng (f : EngF)
  /-- EWAIT (R357): Parks until an engine operation completes and returns its status. -/
  | ewait (f : ScalarPairF)
  /-- BLD (R338): Accepts a slot load from scratch into the engine order. -/
  | bld (f : MatF)
  /-- MMA (R375): Accepts a matrix multiply-accumulate into the engine order. -/
  | mma (f : MatF)
  /-- MV (R383): Accepts a matrix-vector stream against a vector slot into the engine order. -/
  | mv (f : MatF)
  /-- MBAT (R374): Closes the group's open set as a numbered batch. -/
  | mbat (f : ScalarPairF)
  /-- MWAIT (R384): Parks until a batch completes and returns its status. -/
  | mwait (f : ScalarPairF)
  /-- TZERO (R414): Accepts a zeroing of masked tile rows into the engine order. -/
  | tzero (f : TileF)
  /-- TDRN (R415): Accepts a fused tile drain to scratch or registers. -/
  | tdrn (f : MatF)
  /-- TMOV (R414): Accepts a copy of masked rows between tiles. -/
  | tmov (f : TileF)
  /-- TALLOC (R191): Grows the team's tile count, or with .map returns the tile map. -/
  | talloc (f : ScalarPairF)
  /-- TFREE (R191): Frees tiles at and above Sa once no operation names them. -/
  | tfree (f : ScalarPairF)
  /-- TRAP (R416): Traps USER with a code, resuming at the next instruction. -/
  | trap (f : CodeF)
  /-- TRET (R260): Returns from a handler, replaying queued entries and resuming at RPC or EMUNEXT. -/
  | tret (f : GuardF)
  /-- BKPT (R337): Traps BKPT to the supervisor, or holds the path when DBG is set. -/
  | bkpt (f : CodeF)
  /-- SYS (R413): Calls the supervisor by trapping PRIV with cause data 0x8000 + code. -/
  | sys (f : CodeF)
  /-- EXIT (R358): Removes the lanes taking effect from every mask for good. -/
  | exit (f : GuardF)
  /-- REGSET (R397): Changes the group's vector register allocation, waiting for blocks to grow. -/
  | regset (f : RegsetF)
  /-- PROG (R394): Sets or clears the team's progress hint. -/
  | prog (f : ScalarPairF)
  /-- RCHK (R164): Changes the team's race mode and returns the old one. -/
  | rchk (f : RchkF)
  /-- ENQ (R236): Appends a launch record from device code to a DEV queue. -/
  | enq (f : EnqF)
  /-- RELAUNCH (R291): Snapshots and clears a watch set and starts a relaunch run of the selected teams, or frees the handle. -/
  | relaunch (f : RelaunchF)
  /-- BELINO_LDI (R246): Belino: Gd := sign-extended imm16. -/
  | belinoLdi (f : BelinoF)
  /-- BELINO_MOV (R246): Belino: Gd := Ga. -/
  | belinoMov (f : BelinoF)
  /-- BELINO_ADD (R246): Belino: Gd := Ga + Gb modulo 2^64. -/
  | belinoAdd (f : BelinoF)
  /-- BELINO_SUB (R246): Belino: Gd := Ga - Gb. -/
  | belinoSub (f : BelinoF)
  /-- BELINO_AND (R246): Belino bitwise AND. -/
  | belinoAnd (f : BelinoF)
  /-- BELINO_OR (R246): Belino bitwise OR. -/
  | belinoOr (f : BelinoF)
  /-- BELINO_XOR (R246): Belino bitwise exclusive OR. -/
  | belinoXor (f : BelinoF)
  /-- BELINO_SHL (R246): Belino left shift by Gb[5:0]. -/
  | belinoShl (f : BelinoF)
  /-- BELINO_SHR (R246): Belino logical right shift by Gb[5:0]. -/
  | belinoShr (f : BelinoF)
  /-- BELINO_MIN (R246): Belino unsigned minimum. -/
  | belinoMin (f : BelinoF)
  /-- BELINO_MAX (R246): Belino unsigned maximum. -/
  | belinoMax (f : BelinoF)
  /-- BELINO_SEL (R246): Belino: if Ga is not 0 then Gd := Gb. -/
  | belinoSel (f : BelinoF)
  /-- BELINO_CMPLT (R246): Belino unsigned less-than comparison to 0 or 1. -/
  | belinoCmplt (f : BelinoF)
  /-- BELINO_CMPEQ (R246): Belino equality comparison to 0 or 1. -/
  | belinoCmpeq (f : BelinoF)
  /-- BELINO_LDC (R247): Belino: reads an architected counter from the phase snapshot. -/
  | belinoLdc (f : BelinoF)
  /-- BELINO_LDM (R246): Belino: loads a word from routine scratch or the mailbox window. -/
  | belinoLdm (f : BelinoF)
  /-- BELINO_STM (R246): Belino: stores a word to routine scratch or the mailbox window. -/
  | belinoStm (f : BelinoF)
  /-- BELINO_LOOP (R246): Belino bounded loop on a hidden counter. -/
  | belinoLoop (f : BelinoF)
  /-- BELINO_BRF (R246): Belino forward branch when Ga is not 0. -/
  | belinoBrf (f : BelinoF)
  /-- BELINO_BRF_Z (R246): Belino forward branch when Ga is 0. -/
  | belinoBrfZ (f : BelinoF)
  /-- BELINO_DEC (R244): Belino: records a decision register value for commit. -/
  | belinoDec (f : BelinoF)
  /-- BELINO_EXIT (R246): Belino: ends the phase and commits its decisions. -/
  | belinoExit (f : BelinoF)
  /-- PARTCFG (R305): Management command writing a partition's configuration record. -/
  | partcfg (c : Cmd)
  /-- PARTRESET (R308): Management command draining and resetting a partition. -/
  | partreset (c : Cmd)
  /-- CTXBIND (R307): Management command binding a FREE context to a partition. -/
  | ctxbind (c : Cmd)
  /-- CTXFREE (R307): Management command freeing a context. -/
  | ctxfree (c : Cmd)
  /-- PREEMPT (R265): Management command pre-empting a context's units. -/
  | preempt (c : Cmd)
  /-- QREG (R230): Management command registering a queue. -/
  | qreg (c : Cmd)
  /-- QSTATE (R302): Management command setting a queue's state or unregistering it. -/
  | qstate (c : Cmd)
  /-- TRAPAREA (R255): Management command registering a context's trap area. -/
  | traparea (c : Cmd)
  /-- SAVEPOOL (R270): Management command registering a context's save pool. -/
  | savepool (c : Cmd)
  /-- ROOT (R111): Management command setting a context's translation root. -/
  | root (c : Cmd)
  /-- XLINV (R112): Management command invalidating translations. -/
  | xlinv (c : Cmd)
  /-- REPLAY (R114): Management command replaying parked requests and held stores of a page. -/
  | replay (c : Cmd)
  /-- CANCEL (R114): Management command cancelling parked requests and held stores of a page. -/
  | cancel (c : Cmd)
  /-- BARINIT (R225): Management command writing and re-initialising a barrier entry. -/
  | barinit (c : Cmd)
  /-- BARINV (R225): Management command invalidating a barrier entry. -/
  | barinv (c : Cmd)
  /-- WATCHREG (R287): Management command registering a watch set. -/
  | watchreg (c : Cmd)
  /-- RTNLOAD (R250): Management command loading a Belino routine onto the partition's signal boxes. -/
  | rtnload (c : Cmd)
  /-- HOLD (R276): Management command holding a path or group for the debugger. -/
  | hold (c : Cmd)
  /-- RESUME (R276): Management command resuming a held path as TRET does. -/
  | resume (c : Cmd)
  /-- CODEINV (R277): Management command invalidating instruction caches of the partition. -/
  | codeinv (c : Cmd)
  /-- SAMPLE (R278): Management command starting or stopping sampling. -/
  | sample (c : Cmd)
  /-- VPSMAP (R309): Management command writing a partition's virtual P-state map. -/
  | vpsmap (c : Cmd)
  /-- VPSREQ (R310): Management command recording a context's requested P-state. -/
  | vpsreq (c : Cmd)
  /-- VPSQUERY (R309): Management command returning the eight REL values. -/
  | vpsquery (c : Cmd)
  /-- SENSCLR (R311): Management command restoring voted-out sensors. -/
  | sensclr (c : Cmd)
  /-- ENERGY (R313): Management command returning an energy account. -/
  | energy (c : Cmd)
  /-- ATTEST (R315): Management command writing a signed attestation report. -/
  | attest (c : Cmd)
  /-- RESYNC (R316): Management command writing the 4 KiB device summary. -/
  | resync (c : Cmd)
  /-- WSDEF (R319): Management command defining a weight set. -/
  | wsdef (c : Cmd)
  /-- WSNEW (R319): Management command allocating a weight-set version's storage. -/
  | wsnew (c : Cmd)
  /-- WSCOMMIT (R320): Management command committing a shard for digest, optionally making the version CURRENT. -/
  | wscommit (c : Cmd)
  /-- WSDROP (R319): Management command retiring an unbound version. -/
  | wsdrop (c : Cmd)
  /-- EVRING (R304): Management command registering the host event ring. -/
  | evring (c : Cmd)
  /-- UNLISTED_COMMAND (R300): A command with an unlisted OP or SUB completes with BADCMD. -/
  | unlistedCommand (op sub : BitVec 8) (c : Cmd)
  /-- PATH_HOLD_EXEMPT (R22): A path held for 4 096 clk without interruption becomes exempt. -/
  | pathHoldExempt (g p : Nat)
  /-- SIDE_RELEASE_SWAP (R22): A running side that has run 4 096 clk swaps with its lowest-PC stack entry, which becomes shielded. -/
  | sideReleaseSwap (g p : Nat)
  /-- GROUP_SLOT_FREE (R36): A group whose lanes have exited frees its slot and blocks once no register-writing operation remains. -/
  | groupSlotFree (g : Nat)
  /-- TEAM_COMPLETE (R36): A team completes once its groups, stores, copies and operations are done, releasing leases and resources. -/
  | teamComplete (t : Nat)
  /-- LAUNCH_COMPLETE (R36): A launch completes: partials are recalled, the filter checked, a watch set assigned and the completion object written. -/
  | launchComplete (r : Nat)
  /-- REGSET_GROWTH_GRANT (R397): A waiting REGSET growth is granted whole when blocks free, in issue order. -/
  | regsetGrowthGrant (core part : Nat)
  /-- REGSET_DEADLOCK (R274): When every resident group of a core waits on growth, the core saves a unit or traps BOUND 0x0009. -/
  | regsetDeadlock (core : Nat)
  /-- STORE_PERFORM (R127): A store in the store queue performs at its home, checked, marked and made visible. -/
  | storePerform (op : Nat)
  /-- LOAD_DATA_RETURN (R368): A load's data returns and writes its interlocked destination. -/
  | loadDataReturn (op : Nat)
  /-- ATOM_HOME_PERFORM (R118): An ATOM performs its lanes at the home in lane order and returns prior values. -/
  | atomHomePerform (op : Nat)
  /-- MRED_COMBINE (R116): An MRED contribution combines into its core's Update-only partial once the line is granted. -/
  | mredCombine (op lane : Nat)
  /-- L1_LINE_EVICT (R117): An L1 line leaves the cache, sending Update-only partials home. -/
  | l1LineEvict (core line : Nat)
  /-- L2_LINE_EVICT (R166): A line leaving L2 folds its marks into its page summary. -/
  | l2LineEvict (line : Nat)
  /-- STORE_WALK_FAULT (R262): A retired store's translation walk faults and the store is held in the queue. -/
  | storeWalkFault (op : Nat)
  /-- STORE_LATE_REPORT (R262): A held late store is reported as a STORE_LATE trap at the path's next issue or as a fault record. -/
  | storeLateReport (op : Nat)
  /-- ASYNC_PAGE_FAULT (R114): An asynchronous request faults, parks in its entry and sends a PAGE report. -/
  | asyncPageFault (req : Nat)
  /-- FEW_FILL_OBTAINED (R104): A waiting FEW read finds its granules full, reads and optionally clears them in one step. -/
  | fewFillObtained (g p : Nat)
  /-- FENCE_COMPLETE (R135): An outstanding fence completes when its covered accesses have performed, releasing FWAIT. -/
  | fenceComplete (g serial : Nat)
  /-- ECC_CORRECTED (R120): A single-bit error is corrected and counted. -/
  | eccCorrected (die grp : Nat)
  /-- ECC_UNCORRECTABLE (R120): An uncorrectable error kills, poisons, fails or counts by structure. -/
  | eccUncorrectable (e : EccSite)
  /-- PATROL_SCRUB (R122): Patrol scrubbing corrects single-bit errors in L2 and HBM. -/
  | patrolScrub (die grp : Nat)
  /-- SLOT_CLOCK_AGING (R154): When a slot clock crosses a multiple of 2^14, its old marks are set AGED. -/
  | slotClockAging (g : Nat)
  /-- EPOCH_AGING (R156): When LE reaches a multiple of 64, marks in the reused epoch half are set AGED. -/
  | epochAging (r : Nat)
  /-- LEASE_GRANT (R176): A free unit is granted to the highest-ranked eligible entry, which enters WAKING. -/
  | leaseGrant (q e unit : Nat)
  /-- LEASE_WAKE_COMPLETE (R175): The wake timer expires and the lease becomes HELD. -/
  | leaseWakeComplete (q e : Nat)
  /-- LEASE_ENTRY_AGED (R176): A queue entry waiting 16 × LBOUND × 4 096 clk ranks as priority 8. -/
  | leaseEntryAged (q e : Nat)
  /-- LEASE_NOTICE (R185): A forcing cause moves a HELD lease to NOTICE and starts its 2 000-clk grace. -/
  | leaseNotice (q e : Nat)
  /-- LEASE_REVOKE (R185): Grace expiry revokes the lease, evicting or aborting operations. -/
  | leaseRevoke (q e : Nat)
  /-- CQ_GRANT (R184): The cluster arbiter grants waiting current reservations that fit. -/
  | cqGrant (cl : Nat)
  /-- CQ_REQUEST_AGED (R184): A request waiting 65 536 clk ranks above every priority and holds back lower ones. -/
  | cqRequestAged (cl req : Nat)
  /-- CQ_OVER_BUDGET (R184): After 4 096 clk over budget the arbiter sends NOTICE to leases until the sum fits. -/
  | cqOverBudget (cl : Nat)
  /-- CQ_BUDGET_CHANGE (R183): The die power manager sets a cluster's CQ budget. -/
  | cqBudgetChange (cl budget share : Nat)
  /-- ENG_OP_START (R354): A specialised engine starts the next operation of its lease after its reservation. -/
  | engOpStart (op : Nat)
  /-- ENG_OP_COMPLETE (R181): An engine operation completes with its status. -/
  | engOpComplete (op : Nat)
  /-- ISLAND_ENTER (R187): A neighbour pair's island enters near-threshold mode after an MV starts. -/
  | islandEnter (core : Nat)
  /-- ISLAND_EXIT (R187): The island leaves near-threshold mode 256 clk after the last MV ends. -/
  | islandExit (core : Nat)
  /-- BLD_START (R194): A BLD starts, making its slot EMPTY and reading its rows. -/
  | bldStart (core op : Nat)
  /-- BLD_COMPLETE (R194): A BLD completes and the slot takes its load or a failure status. -/
  | bldComplete (core op : Nat)
  /-- MMA_START (R195): An MMA starts after slot and shape checks and reads its A rows. -/
  | mmaStart (core op : Nat)
  /-- MMA_COMPLETE (R196): An MMA writes its tile 24 clk after its occupancy and completes. -/
  | mmaComplete (core op : Nat)
  /-- MMA_PAIR_READY (R199): A side of an MMA.p posts ready at its CLOCK over the pair link. -/
  | mmaPairReady (core op : Nat)
  /-- MMA_PAIR_START (R199): Both sides start when CLOCK reaches the later ready time plus 8. -/
  | mmaPairStart (core op : Nat)
  /-- MV_START (R201): An MV starts, reads its descriptor and streams weights. -/
  | mvStart (core op : Nat)
  /-- MV_COMPLETE (R201): An MV stream completes and writes its tile rows. -/
  | mvComplete (core op : Nat)
  /-- TDRN_START (R203): A TDRN starts, checking RESREC and its descriptor. -/
  | tdrnStart (core op : Nat)
  /-- TDRN_COMPLETE (R204): A TDRN finishes writing its output elements. -/
  | tdrnComplete (core op : Nat)
  /-- TZERO_START (R205): A TZERO starts on the tile drain unit. -/
  | tzeroStart (core op : Nat)
  /-- TZERO_COMPLETE (R205): A TZERO completes 8 clk after its start. -/
  | tzeroComplete (core op : Nat)
  /-- TMOV_START (R205): A TMOV starts on the tile drain unit. -/
  | tmovStart (core op : Nat)
  /-- TMOV_COMPLETE (R205): A TMOV completes 8 clk after its start. -/
  | tmovComplete (core op : Nat)
  /-- COPY_SECTOR_START (R210): A posted copy starts a 128-byte sector. -/
  | copySectorStart (cp : Nat)
  /-- COPY_SECTOR_COMPLETE (R210): A sector's writes perform, full bits set and ARRIVED rises, or it fails and writes STATUS. -/
  | copySectorComplete (cp sector : Nat)
  /-- COPY_DIGEST_CHECK (R212): A .dg copy's stream digest is compared and B added to ARRIVED or BADDIGEST written. -/
  | copyDigestCheck (cp : Nat)
  /-- MONW_TIMEOUT (R218): A monitor's timeout expires; it evaluates once more and returns SATISFIED or TIMEOUT. -/
  | monwTimeout (g p : Nat)
  /-- MONITOR_OVERFLOW_EVAL (R219): The slice evaluates each overflow entry every 4 096 clk. -/
  | monitorOverflowEval (g p : Nat)
  /-- BARRIER_ARRIVAL_MESSAGE (R224): A level counts a child's arrival message toward the handle's domain. -/
  | barrierArrivalMessage (key : Nat)
  /-- BARRIER_RELEASE (R224): A barrier phase releases, resuming plain BARs and advancing LE for level barriers. -/
  | barrierRelease (key : Nat)
  /-- EDGE_PARK_RETRY (R228): A parked EPUSH or EPOP retries at the home when a slot or fill frees or CLOSED sets. -/
  | edgeParkRetry (g p : Nat)
  /-- ENQ_PARK_RETRY (R236): A parked ENQ repeats from its STATE test when a ring slot frees. -/
  | enqParkRetry (g p : Nat)
  /-- QUEUE_RECORD_ACCEPT (R231): The distributor observes a queue tail, reads, validates and accepts the next record. -/
  | queueRecordAccept (q : Nat)
  /-- LAUNCH_HEAD (R238): A launch becomes head and its units are split into die and cluster ranges. -/
  | launchHead (q : Nat)
  /-- HOOK_ENQ (R242): The ENQ hook runs its phases when a launch is accepted. -/
  | hookEnq (r : Nat)
  /-- HOOK_PICK (R245): The PICK hook runs when capacity frees and commits a placement or restore. -/
  | hookPick (cl : Nat)
  /-- HOOK_TICK (R242): Every 4 096 clk the TICK hook runs on every cluster. -/
  | hookTick (cl : Nat)
  /-- HOOK_BLOCK (R245): The BLOCK hook runs when every group of a team is parked and may save it. -/
  | hookBlock (t : Nat)
  /-- HOOK_WAKE (R242): The WAKE hook runs when a monitor or edge releases a parked path. -/
  | hookWake (t : Nat)
  /-- AGE_GUARD_TRIGGER (R252): A candidate whose AGE reaches SBOUND × 4 096 clk becomes guarded. -/
  | ageGuardTrigger (cand : Nat)
  /-- AGE_GUARD_PREEMPT (R252): A guarded candidate not fitted within 4 096 clk causes pre-emption of resident units. -/
  | ageGuardPreempt (cand cl : Nat)
  /-- DRAIN_TIMEOUT (R268): A drained unit not complete 20 µs after the choice is saved. -/
  | drainTimeout (t : Nat)
  /-- SAVE_COMPLETE (R269): Once in-flight work has drained, save records are written and resources freed. -/
  | saveComplete (t : Nat)
  /-- SAVE_BOUND_EXPIRY (R269): A save passing 200 µs drains and resets its partition and marks the context LOST. -/
  | saveBoundExpiry (t : Nat)
  /-- UNIT_RESTORE (R271): A saved team is restored on new slots, re-issuing recorded waits and held stores. -/
  | unitRestore (sv cl : Nat)
  /-- WATCHDOG_FIRST_EXPIRY (R275): The queue watchdog's first expiry pre-empts its resident teams. -/
  | watchdogFirstExpiry (q : Nat)
  /-- WATCHDOG_SECOND_EXPIRY (R275): The second expiry drains and resets the partition, kills non-yielding teams and stops the queue. -/
  | watchdogSecondExpiry (q : Nat)
  /-- PATH_HOLD_STOP (R276): A debugger-held path stops at its next issue boundary and writes a HOLD frame and record. -/
  | pathHoldStop (g p : Nat)
  /-- STALL_SAMPLE (R278): Every SPER clk a partition writes a stall sample of one resident path. -/
  | stallSample (cx core part : Nat)
  /-- MEMORY_SAMPLE (R278): Every MEMN-th memory instruction writes a memory sample once it completes. -/
  | memorySample (g p : Nat)
  /-- RELAUNCH_SELECT (R291): A parked RELAUNCH's team selection is made and the relaunch run queued. -/
  | relaunchSelect (g p : Nat)
  /-- TVL_COMPANION_WRITE (R297): A companion or host write over TVL performs at its home and clears its mark. -/
  | tvlCompanionWrite (addr : Nat) (bytes : List Byte)
  /-- TVL_COMPANION_READ (R160): A companion or host read over TVL is served coherently. -/
  | tvlCompanionRead (addr len : Nat)
  /-- TVL_FLIT_CRC_FAIL (R298): A flit failing its CRC is replayed; eight failures retrain the link. -/
  | tvlFlitCrcFail
  /-- TVL_RETRAIN_COMPLETE (R298): Link retraining completes and waiting accesses resume. -/
  | tvlRetrainComplete
  /-- TVL_LINKDOWN (R298): Retraining not complete in 10 ms puts the package in LINKDOWN. -/
  | tvlLinkdown
  /-- PACKAGE_RESET (R314): Package reset loads, verifies and measures firmware images. -/
  | packageReset (images : List FirmwareImage)
  /-- CONFIG_DECLARE (R314): The hypervisor declares configuration into MR4-MR7 before its first PARTCFG. -/
  | configDeclare (mr : Nat) (value : BitVec 256)
  /-- CLUSTER_VPS_CHANGE (R310): A cluster moves to a new P-state entry within 1 ms. -/
  | clusterVpsChange (cl : Nat)
  /-- POWER_CAP_CHANGE (R310): The die power manager caps a cluster to a higher-numbered entry. -/
  | powerCapChange (cl entry : Nat)
  /-- SENSOR_VOTE_OUT (R311): A domain's health monitor votes out a stuck, out-of-range or disagreeing sensor. -/
  | sensorVoteOut (domain sensor : Nat)
  /-- CORE_TEST_FAIL (R317): A failing core has its teams killed and is replaced by a spare during a partition reset. -/
  | coreTestFail (core : Nat)
  /-- CHANNEL_GROUP_SPARE (R318): A channel group passing its error threshold moves to the spare group at a reset. -/
  | channelGroupSpare (group : Nat) (base len : Nat)
  /-- SIGNAL_BOX_FAIL (R318): A failed signal box or mailbox leaves its cluster on hook defaults and raises HEALTH. -/
  | signalBoxFail (mailbox : Bool) (unit : Nat)
  /-- SHARD_DIGEST_COMPLETE (R320): The weight-set manager's digest makes a CHECKING shard VALID or CORRUPT. -/
  | shardDigestComplete (ws ver shard : Nat)
  /-- WEIGHT_PATROL (R320): Patrol re-digests every VALID and TIERED shard within each PPER seconds. -/
  | weightPatrol (ws ver shard : Nat)
  /-- MARK_AGING_FINISH (R154): Background aging of marks, whether for a slot clock crossing a multiple of 2^14 or for LE reaching a multiple of 64, finishes, and a release or barrier release stalled on it proceeds. -/
  | markAgingFinish (epoch : Bool) (id : Nat)
  deriving DecidableEq, Repr

end Sys2Proof
end

