-- ==== Sys2Proof/WellFormed.lean ====
section
/-! DEFINITION. Which instructions are well formed: the field limits and reserved values that make every other encoding
an unassigned one (R52, R57, R58, R60, R131 and the reference entries). -/

namespace Sys2Proof.WellFormed

/-- A scalar index lies in 0-159 (R57). -/
def sOk (x : BitVec 8) : Bool := x.toNat ≤ 159

/-- An even scalar index that names a pair lies in 0-158 (R52). -/
def pairOk (x : BitVec 8) : Bool := x.toNat ≤ 158 && x.toNat % 2 == 0

/-- A vector index lies in 0-127 (R57). -/
def vOk (x : BitVec 8) : Bool := x.toNat ≤ 127

/-- An even vector index that names a pair lies in 0-126. -/
def vPairOk (x : BitVec 8) : Bool := x.toNat ≤ 126 && x.toNat % 2 == 0

/-- With GE 0, GP and GN are both 0 (R56). -/
def guardOk (g : Guard) : Bool := g.ge == 1 || (g.gp == 0 && g.gn == 0)

/-- How an entry uses one operand position of the standard frame (R57). -/
inductive Use where
  /-- A vector register. -/
  | vec
  /-- A vector register, or a scalar by its CL bit. -/
  | either
  /-- A scalar register only: its CL bit is 1. -/
  | scal
  /-- Raw bits that the entry limits: its CL bit is 0. -/
  | raw
  /-- Unused: the field and its CL bit are 0. -/
  | none
  /-- A predicate, or a scalar by its CL bit. -/
  | predOrScal
  deriving DecidableEq, Repr

/-- One operand position holds what its use allows. -/
def useOk (u : Use) (cl : Bool) (x : BitVec 8) : Bool :=
  match u with
  | .vec => !cl && vOk x
  | .either => if cl then sOk x else vOk x
  | .scal => cl && sOk x
  | .raw => !cl
  | .none => !cl && x == 0
  | .predOrScal => if cl then sOk x else x.toNat < 8

/-- Whether an entry takes an immediate in place of B and C (R57, R58). -/
inductive ImmUse where
  | no
  | may
  | must
  deriving DecidableEq, Repr

/-- The standard frame under the uses of D, A, B and C, the immediate, .sat and RM (R57, R58). -/
def frameOk (d a b c : Use) (i : ImmUse) (sat rm : Bool) (f : XF) : Bool :=
  guardOk f.g
  && (match i with | .no => f.imm == 0 | .may => true | .must => f.imm == 1)
  && useOk d (f.cl.getLsbD 0) f.d
  && useOk a (f.cl.getLsbD 1) f.a
  && (if f.imm == 1 then !f.cl.getLsbD 2 && !f.cl.getLsbD 3
      else useOk b (f.cl.getLsbD 2) f.b && useOk c (f.cl.getLsbD 3) f.c)
  && (sat || f.sat == 0) && (rm || f.rm == 0)

/-- The 16-bit immediate of the standard frame as a natural number (R57). -/
def imm16 (f : XF) : Nat := f.c.toNat * 256 + f.b.toNat

/-- ADD, SUB, MUL, DOT in the lane X form (R329, R353, R381, R412). -/
def arithOk (f : XF) : Bool := frameOk .vec .either .either .none .may true true f
/-- MULHI and the logic, shift and BFE forms: no .sat and no RM (R331, R336, R382, R387, R402). -/
def plainBinOk (f : XF) : Bool := frameOk .vec .either .either .none .may false false f
/-- MIN and MAX: SAT is reserved, RM has no effect (R373). -/
def minmaxOk (f : XF) : Bool := frameOk .vec .either .either .none .may false true f
/-- ABS and NEG: RM reserved (R327, R385). -/
def absnegOk (f : XF) : Bool := frameOk .vec .either .none .none .no true false f
/-- NOT, MOV, POPC, CLZ, BREV (R341, R345, R377, R386, R393). -/
def unaryOk (f : XF) : Bool := frameOk .vec .either .none .none .no false false f
/-- RCP, RSQ, EXP2, LOG2, SIN, COS: SAT reserved (R349). -/
def transOk (f : XF) : Bool := frameOk .vec .either .none .none .no false true f
/-- An immediate lane index lies in 0-31 (R372, R401). -/
def laneImmOk (f : XF) : Bool := f.imm == 0 || imm16 f < 32

/-- The elements a CVT destination tag holds; 0 for a reserved code (R351). -/
def cvtCount (dt : Nat) : Nat :=
  if dt = 1 ∨ dt = 2 ∨ dt = 3 then 1
  else if dt = 4 ∨ dt = 5 ∨ dt = 6 ∨ dt = 7 then 2
  else if dt = 8 ∨ dt = 9 ∨ dt = 10 ∨ dt = 11 ∨ dt = 13 then 4
  else 0

/-- The scalar frame; unary minors use neither B nor the immediate (R325). -/
def scalarOk (unary : Bool) (f : ScalarF) : Bool :=
  guardOk f.g && sOk f.sd && sOk f.sa
  && (if f.imm == 1 then !unary else f.c == 0 && (if unary then f.b == 0 else sOk f.b))

/-- The SS base format's limits (R52). -/
def ssOk (f : SsF) : Bool := sOk f.sd && sOk f.sa

/-- The special registers below 0x200 (R44, R61). -/
def srListed (n : Nat) : Bool :=
  n ≤ 0x10 || n == 0x12 || n == 0x13 || n == 0x14 || n == 0x18 || n == 0x20 || n == 0x22
  || n == 0x30 || n == 0x31 || n == 0x32 || n == 0x34 || (0x36 ≤ n && n ≤ 0x3A)
  || n == 0x40 || n == 0x41 || n == 0x48 || n == 0x4C

/-- The 64-bit special registers below 0x200 (R44, R61). -/
def sr64 (n : Nat) : Bool := n == 0x10 || n == 0x22 || n == 0x32 || n == 0x34 || n == 0x41

/-- A number below 0x200 is listed, and a 64-bit register takes an even scalar pair (R406). -/
def srOk (num : BitVec 10) (reg : BitVec 8) (vd : Bool) : Bool :=
  let n := num.toNat
  (n ≥ 0x200 || srListed n) && (!sr64 n || (!vd && pairOk reg))

/-- Orders and scopes of LD, ST, SLD (scopes up to .sy) and of LDS, STS (.gp and .tm) (R131). -/
def ordScopeOk (local_ : Bool) (f : MemXF) : Bool :=
  if f.ord == 0 then f.scope == 0
  else 1 ≤ f.scope.toNat && f.scope.toNat ≤ (if local_ then 2 else 7)

/-- The vector operand of the LD frame: aligned for .b64 and .b128 (R366). -/
def vtOk (f : MemXF) : Bool :=
  vOk f.vt && (f.ty != 3 || f.vt.toNat % 2 == 0) && (f.ty != 4 || f.vt.toNat % 4 == 0)

/-- What LD, ST, LDS and STS share (R366). -/
def memFrameOk (local_ : Bool) (f : MemXF) : Bool :=
  guardOk f.g && pairOk f.sa && f.ty.toNat ≤ 13 && ordScopeOk local_ f && vtOk f
  && (f.vi == 0 || f.off.toNat < 128)

/-- The engine count of a lease class (R170). -/
def engineCount (cls : Nat) : Nat :=
  if cls = 0 then 1 else if cls = 1 then 2 else if cls = 2 then 2 else if cls = 3 then 4
  else if cls = 4 then 4 else if cls = 5 then 2 else 0

/-- The fields a Belino word requires to be 0 (R246): LDI has no a, MOV no immediate, the b form four bits of it. -/
def belinoBOk (f : BelinoF) : Bool := f.imm.toNat < 16

end Sys2Proof.WellFormed

namespace Sys2Proof
open WellFormed

/-- The instruction is one its encoding admits; every other combination of field values is an unassigned encoding
(R60). Events and commands carry no reserved encodings of their own: their rules answer for every argument. -/
def Instr.wf (i : Instr) : Bool :=
  match i with
  | .movCompact _ | .addCompact _ | .subCompact _ | .mulCompact _ | .andCompact _ | .orCompact _ | .xorCompact _
  | .notCompact _ | .shlCompact _ | .shrCompact _ | .minCompact _ | .maxCompact _ | .absCompact _ | .negCompact _
  | .popcCompact _ | .selCompact _ => true
  | .stall _ => true
  | .addBase _ | .subBase _ | .mulBase _ | .fmaBase _ | .minBase _ | .maxBase _ | .andBase _ | .orBase _ | .xorBase _
  | .shlBase _ | .shrBase _ | .selBase _ | .dotBase _ => true
  | .addi _ | .andi _ | .ori _ => true
  | .shli f | .shri f => f.imm.toNat < 32
  | .moviBase _ => true
  | .addSalu f | .subSalu f | .mulSalu f | .andSalu f | .orSalu f | .xorSalu f | .shlSalu f | .shrSalu f | .sraSalu f
  | .minSalu f | .maxSalu f | .movSalu f | .notSalu f | .negSalu f | .mulhiSalu f | .clzSalu f | .popcSalu f => ssOk f
  | .sli f => sOk f.sd
  | .bra _ | .call _ | .brp _ => true
  | .ldBase f | .stBase f | .ldsBase f | .stsBase f | .sldBase f => pairOk f.sbase
  | .movGeneral f =>
    (if f.dIsS == 1 then sOk f.d else vOk f.d) && (if f.aIsS == 1 then sOk f.a else vOk f.a)
  | .unassignedEncoding _ => true
  | .addX f | .subX f | .mulX f | .dotX f => arithOk f
  | .mulhiX f | .andX f | .orX f | .xorX f | .shlX f | .shrX f | .bfe f => plainBinOk f
  | .fmaX f => frameOk .vec .either .either .either .no true true f
  | .minX f | .maxX f => minmaxOk f
  | .absX f | .negX f => absnegOk f
  | .notX f | .movX f | .popcX f | .clzX f | .brev f => unaryOk f
  | .selX f => frameOk .vec .either .either .raw .no false false f && f.c.toNat < 16
  | .moviX f =>
    frameOk .vec .raw .none .none .must false false f
    && f.a.toNat < 32 && (f.a.toNat % 16 ≤ 4 || (8 ≤ f.a.toNat % 16 && f.a.toNat % 16 ≤ 12))
  | .acs f => frameOk .vec .either .either .either .no true false f
  | .bfi f => frameOk .vec .either .either .either .no false false f
  | .cmp f => frameOk .raw .either .either .none .may false false f && f.d.toNat < 64
  | .plop f =>
    frameOk .raw .raw .raw .raw .no false false f
    && f.d.toNat < 8 && f.a.toNat < 8 && f.b.toNat < 8 && f.c.toNat < 16
  | .pmov f =>
    frameOk .predOrScal .predOrScal .none .none .no false false f && !(f.cl.getLsbD 0 && f.cl.getLsbD 1)
  | .vote f =>
    frameOk .predOrScal .raw .none .raw .no false false f && f.c.toNat < 5
    && (f.cl.getLsbD 0 || f.c.toNat != 3) && (if f.c.toNat < 4 then f.a.toNat < 8 else vOk f.a)
  | .shfl f => frameOk .vec .vec .either .none .may false true f && laneImmOk f
  | .xred f =>
    frameOk .either .vec .none .raw .no true true f && f.c.toNat < 8
    && (f.c.toNat < 6 || (if f.cl.getLsbD 0 then pairOk f.d else vPairOk f.d))
  | .lget f => frameOk .scal .vec .scal .none .may false false f && laneImmOk f
  | .lput f => frameOk .vec .scal .scal .none .may false false f && laneImmOk f
  | .pack f => frameOk .vec .either .either .raw .no true true f && 4 ≤ f.c.toNat && f.c.toNat ≤ 11
  | .unpack f =>
    frameOk .vec .either .none .raw .no false false f && f.c.toNat < 32
    && (let dt := f.c.toNat % 16
        (1 ≤ dt && dt ≤ 7) || dt == 10)
  | .cvt f =>
    frameOk .vec .either .none .none .must true true f
    && imm16 f < 1024 && imm16 f / 128 < cvtCount (imm16 f % 16)
  | .retag f => frameOk .vec .either .none .none .must false false f && imm16 f < 15
  | .rcp f | .rsq f | .exp2 f | .log2 f | .sin f | .cos f => transOk f
  | .addXscalar f | .subXscalar f | .mulXscalar f | .andXscalar f | .orXscalar f | .xorXscalar f | .shlXscalar f
  | .shrXscalar f | .sraXscalar f | .minXscalar f | .maxXscalar f | .mulhiXscalar f => scalarOk false f
  | .movXscalar f | .notXscalar f | .negXscalar f | .clzXscalar f | .popcXscalar f => scalarOk true f
  | .br f => guardOk f.g && sOk f.sa && f.cond.toNat < 6 && (f.imm == 1 || sOk f.sb)
  | .jmp f => guardOk f.g && pairOk f.sa
  | .ret f => guardOk f.g && pairOk f.sa && f.l == 0
  | .srd f => guardOk f.g && (if f.vd == 1 then vOk f.d else sOk f.d) && srOk f.num f.d (f.vd == 1)
  | .swr f => guardOk f.g && sOk f.sa && srOk f.num f.sa false
  | .ld f | .st f => memFrameOk false f && f.few == 0 && f.fec == 0 && f.fes == 0
  | .lds f => memFrameOk true f && f.fes == 0
  | .sts f => memFrameOk true f && f.few == 0 && f.fec == 0
  | .sld f =>
    guardOk f.g && pairOk f.sa && ordScopeOk false f && f.few == 0 && f.fec == 0 && f.fes == 0 && f.vi == 0
    && ((f.ty == 2 && sOk f.vt) || (f.ty == 3 && pairOk f.vt))
  | .atom f =>
    guardOk f.g && pairOk f.sa
    && (if f.w == 1 then (f.op == 0 || f.op == 6 || f.op == 7) && vPairOk f.vd && vPairOk f.vb
        else vOk f.vd && vOk f.vb)
  | .mred f =>
    guardOk f.g && pairOk f.sa && f.op.toNat ≤ 5 && (f.order == 0 || f.order == 2)
    && !(f.fmt == 2 && f.op.toNat ≥ 3) && (if f.fmt == 3 then vPairOk f.vb else vOk f.vb)
  | .pf f => guardOk f.g && pairOk f.sa && sOk f.sb && f.op.toNat ≤ 1
  | .cctl f => guardOk f.g && pairOk f.sa && sOk f.sb && f.op.toNat ≤ 2
  | .icinv f => guardOk f.g && pairOk f.sa && sOk f.sb && f.op == 0
  | .fe f => guardOk f.g && sOk f.sa && sOk f.sb && f.op.toNat ≤ 1
  | .fence f => guardOk f.g && f.kind.toNat ≤ 1 && f.scope != 0 && f.sa == 0 && f.sd == 0
  | .fbeg f => guardOk f.g && f.kind.toNat ≤ 1 && f.scope != 0 && f.sa == 0 && sOk f.sd
  | .fwait f => guardOk f.g && f.kind == 0 && f.scope == 0 && sOk f.sa && f.sd == 0
  | .bar f =>
    guardOk f.g && f.mode.toNat ≤ 2 && (if f.hs == 1 then sOk f.sa && f.handle == 0 else f.sa == 0)
    && (if f.nd == 1 then f.sd == 0 else sOk f.sd)
  | .monw f =>
    guardOk f.g && pairOk f.sa && sOk f.sd && sOk f.sc && (if f.w == 1 then pairOk f.sb else sOk f.sb)
  | .yield f => guardOk f.g
  | .epush f => guardOk f.g && pairOk f.se && sOk f.sd && pairOk f.sb
  | .epop f => guardOk f.g && pairOk f.se && pairOk f.sd && sOk f.sb
  | .copy f =>
    guardOk f.g && f.dir.toNat ≤ 2 && pairOk f.sa && sOk f.ss
    && (if f.dir == 2 then f.sr == 0 else pairOk f.sr) && (if f.dg == 1 then sOk f.sh else f.sh == 0)
  | .cobj f => guardOk f.g && pairOk f.sa && f.sd == 0
  | .cpwait f => guardOk f.g && pairOk f.sa && sOk f.sd
  | .lease f =>
    guardOk f.g && sOk f.sd && f.cls.toNat ≤ 5 && (f.unit == 255 || f.unit.toNat < engineCount f.cls.toNat)
  | .lrel f => guardOk f.g && sOk f.sa
  | .lstat f | .ewait f | .mwait f => guardOk f.g && sOk f.sd && sOk f.sa && f.map == 0
  | .mbat f => guardOk f.g && sOk f.sd && f.sa == 0 && f.map == 0
  | .talloc f => guardOk f.g && (if f.map == 1 then pairOk f.sd && f.sa == 0 else sOk f.sd && sOk f.sa)
  | .tfree f | .prog f => guardOk f.g && sOk f.sa && f.sd == 0 && f.map == 0
  | .eng f => guardOk f.g && sOk f.sd && sOk f.sa && pairOk f.sb
  | .bld f =>
    guardOk f.g && f.mods.toNat < 8 && !(f.mods.getLsbD 0 && f.mods.toNat / 2 % 4 != 0)
    && pairOk f.a && f.d.toNat < 4 && f.b == 0 && f.c == 0
  | .mma f =>
    guardOk f.g && pairOk f.a && f.d.toNat < 16
    && (if f.mods.getLsbD 3 then pairOk f.b && vOk f.c else f.b == 0 && f.c == 0)
  | .mv f =>
    guardOk f.g && pairOk f.a && f.d.toNat < 16 && f.mods.toNat / 2 % 4 == 0 && sOk f.b
    && (if f.mods.getLsbD 3 then vOk f.c else f.c == 0)
  | .tdrn f =>
    guardOk f.g && f.d.toNat < 16 && f.mods.toNat < 16 && pairOk f.b && f.c == 0
    && (if f.mods.getLsbD 0 then vOk f.a else pairOk f.a && f.mods.toNat / 2 % 4 == 0)
  | .tzero f => guardOk f.g && f.a == 0
  | .tmov f => guardOk f.g
  | .trap f | .bkpt f => guardOk f.g
  | .sys f => guardOk f.g && f.code.toNat < 32768
  | .tret f | .exit f => guardOk f.g
  | .regset f =>
    guardOk f.g && sOk f.sd
    && (if f.imm == 1 then f.sa == 0 && 8 ≤ f.n.toNat && f.n.toNat ≤ 128 && f.n.toNat % 8 == 0
        else f.n == 0 && sOk f.sa)
  | .rchk f => guardOk f.g && sOk f.sd && f.mode.toNat ≤ 2
  | .enq f => guardOk f.g && sOk f.sd && pairOk f.sa && sOk f.sq
  | .relaunch f =>
    guardOk f.g && pairOk f.sd && sOk f.sa && pairOk f.sb && f.mode.toNat ≤ 2 && (f.mode != 2 || f.sb == 0)
  | .belinoLdi f => f.a == 0
  | .belinoMov f => f.imm == 0
  | .belinoAdd f | .belinoSub f | .belinoAnd f | .belinoOr f | .belinoXor f | .belinoShl f | .belinoShr f
  | .belinoMin f | .belinoMax f | .belinoSel f | .belinoCmplt f | .belinoCmpeq f => belinoBOk f
  | .belinoLdc _ | .belinoLdm _ | .belinoStm _ => true
  | .belinoLoop f => f.d == 0 && f.a == 0 && f.imm.toNat % 256 != 0 && f.imm.toNat / 256 != 0
  | .belinoBrf f | .belinoBrfZ f => f.d == 0
  | .belinoDec f => f.d == 0 && f.imm.toNat ≤ 4
  | .belinoExit f => f.d == 0 && f.a == 0 && f.imm == 0
  | .pathHoldExempt _ _ | .sideReleaseSwap _ _ | .groupSlotFree _ | .teamComplete _ | .launchComplete _
  | .regsetGrowthGrant _ _ | .regsetDeadlock _ | .storePerform _ | .loadDataReturn _ | .atomHomePerform _
  | .mredCombine _ _ | .l1LineEvict _ _ | .l2LineEvict _ | .storeWalkFault _ | .storeLateReport _
  | .asyncPageFault _ | .fewFillObtained _ _ | .fenceComplete _ _ | .eccCorrected _ _ | .eccUncorrectable _
  | .patrolScrub _ _ | .slotClockAging _ | .epochAging _ | .leaseGrant _ _ _ | .leaseWakeComplete _ _
  | .leaseEntryAged _ _ | .leaseNotice _ _ | .leaseRevoke _ _ | .cqGrant _ | .cqRequestAged _ _
  | .cqOverBudget _ | .cqBudgetChange _ _ _ | .engOpStart _ | .engOpComplete _ | .islandEnter _
  | .islandExit _ | .bldStart _ _ | .bldComplete _ _ | .mmaStart _ _ | .mmaComplete _ _ | .mmaPairReady _ _
  | .mmaPairStart _ _ | .mvStart _ _ | .mvComplete _ _ | .tdrnStart _ _ | .tdrnComplete _ _ | .tzeroStart _ _
  | .tzeroComplete _ _ | .tmovStart _ _ | .tmovComplete _ _ | .copySectorStart _ | .copySectorComplete _ _
  | .copyDigestCheck _ | .monwTimeout _ _ | .monitorOverflowEval _ _ | .barrierArrivalMessage _
  | .barrierRelease _ | .edgeParkRetry _ _ | .enqParkRetry _ _ | .queueRecordAccept _ | .launchHead _
  | .hookEnq _ | .hookPick _ | .hookTick _ | .hookBlock _ | .hookWake _ | .ageGuardTrigger _
  | .ageGuardPreempt _ _ | .drainTimeout _ | .saveComplete _ | .saveBoundExpiry _ | .unitRestore _ _
  | .watchdogFirstExpiry _ | .watchdogSecondExpiry _ | .pathHoldStop _ _ | .stallSample _ _ _
  | .memorySample _ _ | .relaunchSelect _ _ | .partcfg _ | .partreset _ | .ctxbind _ | .ctxfree _ | .preempt _
  | .qreg _ | .qstate _ | .traparea _ | .savepool _ | .root _ | .xlinv _ | .replay _ | .cancel _ | .barinit _
  | .barinv _ | .watchreg _ | .rtnload _ | .hold _ | .resume _ | .codeinv _ | .sample _ | .vpsmap _
  | .vpsreq _ | .vpsquery _ | .sensclr _ | .energy _ | .attest _ | .resync _ | .wsdef _ | .wsnew _
  | .wscommit _ | .wsdrop _ | .evring _ | .unlistedCommand _ _ _ | .tvlCompanionWrite _ _
  | .tvlCompanionRead _ _ | .tvlFlitCrcFail | .tvlRetrainComplete | .tvlLinkdown | .packageReset _
  | .configDeclare _ _ | .clusterVpsChange _ | .powerCapChange _ _ | .sensorVoteOut _ _ | .coreTestFail _
  | .channelGroupSpare _ _ _ | .signalBoxFail _ _ | .shardDigestComplete _ _ _ | .weightPatrol _ _ _
  | .markAgingFinish _ _ => true

end Sys2Proof
end

