-- ==== Sys2Proof/Decode.lean ====
section
/-! DEFINITION. The decoder of program words, Belino words and management commands, total, and the encoder (R47-R62,
R136, R164, R179, R192, R207, R217, R221, R227, R236, R246, R290, R299-R302 and the reference entries). A word's bits are
a natural number; field `lo, n` is its bits [lo+n-1:lo]; an extension word's bit k is bit 32 + k. -/

namespace Sys2Proof

/-- Bits [lo+n-1:lo] of the word `w` (R4). -/
def fld (w lo n : Nat) : BitVec n := BitVec.ofNat n (w / 2 ^ lo)

/-- The length in bytes that the first halfword gives: bit 0 clear is compact; majors 48-63 are X forms (R47). -/
def wordLength (w : Nat) : Nat :=
  if w % 2 = 0 then 2 else if 48 ≤ w / 2 % 64 then 8 else 4

namespace Dec

def guard (w : Nat) : Guard := ⟨fld w 40 1, fld w 41 3, fld w 44 1⟩
def compact (w : Nat) : CompactF := ⟨fld w 15 1, fld w 10 5, fld w 5 5⟩
def trio (w : Nat) : TrioF := ⟨fld w 7 3, fld w 10 7, fld w 17 7, fld w 24 7, fld w 31 1⟩
def duoi (w : Nat) : DuoiF := ⟨fld w 7 3, fld w 10 7, fld w 17 7, fld w 24 8⟩
def movi (w : Nat) : MoviF := ⟨fld w 7 3, fld w 10 7, fld w 17 15⟩
def ss (w : Nat) : SsF := ⟨fld w 7 3, fld w 10 8, fld w 18 8⟩
def si (w : Nat) : SiF := ⟨fld w 7 3, fld w 10 8, fld w 18 14⟩
def br (w : Nat) : BrF := ⟨fld w 7 3, fld w 10 22⟩
def bp (w : Nat) : BpF := ⟨fld w 7 3, fld w 10 3, fld w 13 2, fld w 15 17⟩
def mem (w : Nat) : MemF := ⟨fld w 7 3, fld w 10 7, fld w 17 8, fld w 25 7⟩
def gmov (w : Nat) : GmovF := ⟨fld w 7 3, fld w 10 8, fld w 18 8, fld w 26 1, fld w 27 1⟩
def stallF (w : Nat) : StallF := ⟨fld w 7 3, fld w 10 8⟩
def x (w : Nat) : XF :=
  ⟨fld w 7 3, fld w 10 8, fld w 18 8, fld w 26 4, fld w 30 1, guard w, fld w 45 8, fld w 53 8, fld w 61 2, fld w 63 1⟩
def scalar (w : Nat) : ScalarF := ⟨fld w 7 3, fld w 10 8, fld w 18 8, fld w 30 1, guard w, fld w 45 8, fld w 53 8⟩
def brX (w : Nat) : BrXF := ⟨fld w 7 3, fld w 10 8, fld w 18 8, fld w 27 1, fld w 28 4, guard w, fld w 45 19⟩
def jmp (w : Nat) : JmpF := ⟨fld w 7 3, fld w 18 8, fld w 26 1, guard w⟩
def srd (w : Nat) : SrdF := ⟨fld w 7 3, fld w 10 8, fld w 27 1, guard w, fld w 45 10⟩
def swr (w : Nat) : SwrF := ⟨fld w 7 3, fld w 18 8, guard w, fld w 45 10⟩
def memX (w : Nat) : MemXF :=
  ⟨fld w 7 3, fld w 10 8, fld w 18 8, fld w 26 1, fld w 27 1, fld w 28 4, guard w, fld w 45 13, fld w 58 1, fld w 59 1,
    fld w 60 1, fld w 61 3⟩
def atom (w : Nat) : AtomF :=
  ⟨fld w 7 3, fld w 10 8, fld w 18 8, fld w 26 3, fld w 29 3, guard w, fld w 45 8, fld w 53 7, fld w 61 1, fld w 62 2⟩
def mred (w : Nat) : MredF :=
  ⟨fld w 7 3, fld w 18 8, fld w 26 3, fld w 29 3, guard w, fld w 45 8, fld w 53 7, fld w 60 2, fld w 62 2⟩
def range (w : Nat) : RangeF := ⟨fld w 7 3, fld w 18 8, fld w 26 2, guard w, fld w 45 8⟩
def fence (w : Nat) : FenceF := ⟨fld w 7 3, fld w 10 8, fld w 18 8, fld w 26 3, fld w 29 2, guard w⟩
def bar (w : Nat) : BarF :=
  ⟨fld w 7 3, fld w 10 8, fld w 18 8, fld w 26 2, fld w 28 1, fld w 29 1, guard w, fld w 45 12⟩
def monw (w : Nat) : MonwF :=
  ⟨fld w 7 3, fld w 10 8, fld w 18 8, fld w 26 3, fld w 29 2, fld w 31 1, guard w, fld w 45 8, fld w 53 8, fld w 61 1⟩
def yield (w : Nat) : YieldF := ⟨fld w 7 3, fld w 10 8, guard w⟩
def edge (w : Nat) : EdgeF := ⟨fld w 7 3, fld w 10 8, fld w 18 8, fld w 26 1, guard w, fld w 45 8⟩
def copy (w : Nat) : CopyF :=
  ⟨fld w 7 3, fld w 10 8, fld w 18 8, fld w 26 2, fld w 29 1, guard w, fld w 45 8, fld w 53 8⟩
def obj (w : Nat) : ObjF := ⟨fld w 7 3, fld w 10 8, fld w 18 8, guard w⟩
def lease (w : Nat) : LeaseF := ⟨fld w 7 3, fld w 10 8, fld w 26 3, fld w 29 1, guard w, fld w 45 8⟩
def lrel (w : Nat) : LrelF := ⟨fld w 7 3, fld w 18 8, fld w 26 1, guard w⟩
def scalarPair (w : Nat) : ScalarPairF := ⟨fld w 7 3, fld w 10 8, fld w 18 8, fld w 26 1, guard w⟩
def eng (w : Nat) : EngF := ⟨fld w 7 3, fld w 10 8, fld w 18 8, guard w, fld w 45 8⟩
def mat (w : Nat) : MatF := ⟨fld w 7 3, fld w 10 8, fld w 18 8, fld w 26 6, guard w, fld w 45 8, fld w 53 8⟩
def tile (w : Nat) : TileF := ⟨fld w 7 3, fld w 10 4, fld w 18 4, guard w⟩
def code (w : Nat) : CodeF := ⟨fld w 7 3, guard w, fld w 45 16⟩
def guardF (w : Nat) : GuardF := ⟨fld w 7 3, guard w⟩
def regset (w : Nat) : RegsetF := ⟨fld w 7 3, fld w 10 8, fld w 18 8, fld w 26 1, fld w 27 1, guard w, fld w 45 8⟩
def rchk (w : Nat) : RchkF := ⟨fld w 7 3, fld w 10 8, fld w 26 2, guard w⟩
def enq (w : Nat) : EnqF := ⟨fld w 7 3, fld w 10 8, fld w 18 8, fld w 26 1, guard w, fld w 45 8⟩
def relaunch (w : Nat) : RelaunchF := ⟨fld w 7 3, fld w 10 8, fld w 18 8, fld w 26 2, guard w, fld w 45 8⟩
def belino (w : Nat) : BelinoF := ⟨fld w 8 4, fld w 12 4, fld w 16 16⟩
def cmd (w : Nat) : Cmd :=
  ⟨fld w 16 16, fld w 32 32, fld w 64 64, fld w 128 64, fld w 192 64, fld w 256 64, fld w 320 64, fld w 384 64⟩

end Dec

namespace Enc

/-- Compact word (R48). -/
def compact (op : Nat) (f : CompactF) : Nat :=
  op * 2 + f.vd.toNat * 2 ^ 5 + f.vs.toNat * 2 ^ 10 + f.y.toNat * 2 ^ 15
/-- Base word marker, major and stall (R50). -/
def base (major : Nat) (stall : BitVec 3) : Nat := 1 + major * 2 + stall.toNat * 2 ^ 7
def trio (major : Nat) (f : TrioF) : Nat :=
  base major f.stall + f.vd.toNat * 2 ^ 10 + f.va.toNat * 2 ^ 17 + f.vb.toNat * 2 ^ 24 + f.bs.toNat * 2 ^ 31
def duoi (major : Nat) (f : DuoiF) : Nat :=
  base major f.stall + f.vd.toNat * 2 ^ 10 + f.va.toNat * 2 ^ 17 + f.imm.toNat * 2 ^ 24
def movi (f : MoviF) : Nat := base 18 f.stall + f.vd.toNat * 2 ^ 10 + f.imm.toNat * 2 ^ 17
def ss (minor : Nat) (f : SsF) : Nat :=
  base 19 f.stall + f.sd.toNat * 2 ^ 10 + f.sa.toNat * 2 ^ 18 + minor * 2 ^ 26
def si (f : SiF) : Nat := base 20 f.stall + f.sd.toNat * 2 ^ 10 + f.imm.toNat * 2 ^ 18
def br (major : Nat) (f : BrF) : Nat := base major f.stall + f.off.toNat * 2 ^ 10
def bp (f : BpF) : Nat :=
  base 23 f.stall + f.p.toNat * 2 ^ 10 + f.mode.toNat * 2 ^ 13 + f.off.toNat * 2 ^ 15
def mem (major : Nat) (f : MemF) : Nat :=
  base major f.stall + f.vt.toNat * 2 ^ 10 + f.sbase.toNat * 2 ^ 17 + f.imm.toNat * 2 ^ 25
def gmov (f : GmovF) : Nat :=
  base 30 f.stall + f.d.toNat * 2 ^ 10 + f.a.toNat * 2 ^ 18 + f.dIsS.toNat * 2 ^ 26 + f.aIsS.toNat * 2 ^ 27
def stallF (f : StallF) : Nat := base 0 f.stall + f.n.toNat * 2 ^ 10
/-- Base word, minor and guard of an X form (R50, R55). -/
def xb (major minor : Nat) (stall : BitVec 3) (g : Guard) : Nat :=
  base major stall + minor * 2 ^ 32 + g.ge.toNat * 2 ^ 40 + g.gp.toNat * 2 ^ 41 + g.gn.toNat * 2 ^ 44
def x (major minor : Nat) (f : XF) : Nat :=
  xb major minor f.stall f.g + f.d.toNat * 2 ^ 10 + f.a.toNat * 2 ^ 18 + f.cl.toNat * 2 ^ 26 + f.imm.toNat * 2 ^ 30
    + f.b.toNat * 2 ^ 45 + f.c.toNat * 2 ^ 53 + f.rm.toNat * 2 ^ 61 + f.sat.toNat * 2 ^ 63
def scalar (minor : Nat) (f : ScalarF) : Nat :=
  xb 51 minor f.stall f.g + f.sd.toNat * 2 ^ 10 + f.sa.toNat * 2 ^ 18 + f.imm.toNat * 2 ^ 30
    + f.b.toNat * 2 ^ 45 + f.c.toNat * 2 ^ 53
def brX (f : BrXF) : Nat :=
  xb 51 17 f.stall f.g + f.sb.toNat * 2 ^ 10 + f.sa.toNat * 2 ^ 18 + f.imm.toNat * 2 ^ 27 + f.cond.toNat * 2 ^ 28
    + f.off.toNat * 2 ^ 45
def jmp (minor : Nat) (f : JmpF) : Nat := xb 51 minor f.stall f.g + f.sa.toNat * 2 ^ 18 + f.l.toNat * 2 ^ 26
def srd (f : SrdF) : Nat :=
  xb 51 20 f.stall f.g + f.d.toNat * 2 ^ 10 + f.vd.toNat * 2 ^ 27 + f.num.toNat * 2 ^ 45
def swr (f : SwrF) : Nat := xb 51 21 f.stall f.g + f.sa.toNat * 2 ^ 18 + f.num.toNat * 2 ^ 45
def memX (minor : Nat) (f : MemXF) : Nat :=
  xb 52 minor f.stall f.g + f.vt.toNat * 2 ^ 10 + f.sa.toNat * 2 ^ 18 + f.vi.toNat * 2 ^ 26 + f.ord.toNat * 2 ^ 27
    + f.ty.toNat * 2 ^ 28 + f.off.toNat * 2 ^ 45 + f.few.toNat * 2 ^ 58 + f.fec.toNat * 2 ^ 59 + f.fes.toNat * 2 ^ 60
    + f.scope.toNat * 2 ^ 61
def atom (f : AtomF) : Nat :=
  xb 52 5 f.stall f.g + f.vd.toNat * 2 ^ 10 + f.sa.toNat * 2 ^ 18 + f.scope.toNat * 2 ^ 26 + f.op.toNat * 2 ^ 29
    + f.vb.toNat * 2 ^ 45 + f.vi.toNat * 2 ^ 53 + f.w.toNat * 2 ^ 61 + f.order.toNat * 2 ^ 62
def mred (f : MredF) : Nat :=
  xb 52 6 f.stall f.g + f.sa.toNat * 2 ^ 18 + f.scope.toNat * 2 ^ 26 + f.op.toNat * 2 ^ 29
    + f.vb.toNat * 2 ^ 45 + f.vi.toNat * 2 ^ 53 + f.fmt.toNat * 2 ^ 60 + f.order.toNat * 2 ^ 62
def range (minor : Nat) (f : RangeF) : Nat :=
  xb 52 minor f.stall f.g + f.sa.toNat * 2 ^ 18 + f.op.toNat * 2 ^ 26 + f.sb.toNat * 2 ^ 45
def fence (minor : Nat) (f : FenceF) : Nat :=
  xb 53 minor f.stall f.g + f.sd.toNat * 2 ^ 10 + f.sa.toNat * 2 ^ 18 + f.scope.toNat * 2 ^ 26 + f.kind.toNat * 2 ^ 29
def bar (f : BarF) : Nat :=
  xb 53 3 f.stall f.g + f.sd.toNat * 2 ^ 10 + f.sa.toNat * 2 ^ 18 + f.mode.toNat * 2 ^ 26 + f.hs.toNat * 2 ^ 28
    + f.nd.toNat * 2 ^ 29 + f.handle.toNat * 2 ^ 45
def monw (f : MonwF) : Nat :=
  xb 53 4 f.stall f.g + f.sd.toNat * 2 ^ 10 + f.sa.toNat * 2 ^ 18 + f.scope.toNat * 2 ^ 26 + f.cmp.toNat * 2 ^ 29
    + f.w.toNat * 2 ^ 31 + f.sb.toNat * 2 ^ 45 + f.sc.toNat * 2 ^ 53 + f.sg.toNat * 2 ^ 61
def yield (f : YieldF) : Nat := xb 53 5 f.stall f.g + f.n.toNat * 2 ^ 10
def edge (minor : Nat) (f : EdgeF) : Nat :=
  xb 53 minor f.stall f.g + f.sd.toNat * 2 ^ 10 + f.se.toNat * 2 ^ 18 + f.nb.toNat * 2 ^ 26 + f.sb.toNat * 2 ^ 45
def copy (f : CopyF) : Nat :=
  xb 54 0 f.stall f.g + f.ss.toNat * 2 ^ 10 + f.sa.toNat * 2 ^ 18 + f.dir.toNat * 2 ^ 26 + f.dg.toNat * 2 ^ 29
    + f.sr.toNat * 2 ^ 45 + f.sh.toNat * 2 ^ 53
def obj (minor : Nat) (f : ObjF) : Nat := xb 54 minor f.stall f.g + f.sd.toNat * 2 ^ 10 + f.sa.toNat * 2 ^ 18
def lease (f : LeaseF) : Nat :=
  xb 54 3 f.stall f.g + f.sd.toNat * 2 ^ 10 + f.cls.toNat * 2 ^ 26 + f.nb.toNat * 2 ^ 29 + f.unit.toNat * 2 ^ 45
def lrel (f : LrelF) : Nat := xb 54 4 f.stall f.g + f.sa.toNat * 2 ^ 18 + f.ret.toNat * 2 ^ 26
def scalarPair (major minor : Nat) (f : ScalarPairF) : Nat :=
  xb major minor f.stall f.g + f.sd.toNat * 2 ^ 10 + f.sa.toNat * 2 ^ 18 + f.map.toNat * 2 ^ 26
def eng (f : EngF) : Nat :=
  xb 54 6 f.stall f.g + f.sd.toNat * 2 ^ 10 + f.sa.toNat * 2 ^ 18 + f.sb.toNat * 2 ^ 45
def mat (minor : Nat) (f : MatF) : Nat :=
  xb 55 minor f.stall f.g + f.d.toNat * 2 ^ 10 + f.a.toNat * 2 ^ 18 + f.mods.toNat * 2 ^ 26
    + f.b.toNat * 2 ^ 45 + f.c.toNat * 2 ^ 53
def tile (minor : Nat) (f : TileF) : Nat := xb 55 minor f.stall f.g + f.d.toNat * 2 ^ 10 + f.a.toNat * 2 ^ 18
def code (minor : Nat) (f : CodeF) : Nat := xb 56 minor f.stall f.g + f.code.toNat * 2 ^ 45
def guardF (minor : Nat) (f : GuardF) : Nat := xb 56 minor f.stall f.g
def regset (f : RegsetF) : Nat :=
  xb 56 5 f.stall f.g + f.sd.toNat * 2 ^ 10 + f.sa.toNat * 2 ^ 18 + f.imm.toNat * 2 ^ 26 + f.nb.toNat * 2 ^ 27
    + f.n.toNat * 2 ^ 45
def rchk (f : RchkF) : Nat := xb 56 7 f.stall f.g + f.sd.toNat * 2 ^ 10 + f.mode.toNat * 2 ^ 26
def enq (f : EnqF) : Nat :=
  xb 56 8 f.stall f.g + f.sd.toNat * 2 ^ 10 + f.sa.toNat * 2 ^ 18 + f.nb.toNat * 2 ^ 26 + f.sq.toNat * 2 ^ 45
def relaunch (f : RelaunchF) : Nat :=
  xb 56 9 f.stall f.g + f.sd.toNat * 2 ^ 10 + f.sa.toNat * 2 ^ 18 + f.mode.toNat * 2 ^ 26 + f.sb.toNat * 2 ^ 45
/-- A Belino word (R246). -/
def belino (op : Nat) (f : BelinoF) : Nat := op + f.d.toNat * 2 ^ 8 + f.a.toNat * 2 ^ 12 + f.imm.toNat * 2 ^ 16
/-- The first 56 bytes of a command (R299). -/
def cmd (op sub : Nat) (c : Cmd) : Nat :=
  op + sub * 2 ^ 8 + c.tag.toNat * 2 ^ 16 + c.head.toNat * 2 ^ 32 + c.a08.toNat * 2 ^ 64 + c.a10.toNat * 2 ^ 128
    + c.a18.toNat * 2 ^ 192 + c.a20.toNat * 2 ^ 256 + c.a28.toNat * 2 ^ 320 + c.a30.toNat * 2 ^ 384

end Enc

/-- The bytes and the word of an instruction: 2, 4 or 8 bytes for a program instruction, 4 for a Belino word, 56 for
a management command (the words that its issuer writes, 0x00-0x37), none for a hardware event. -/
def Instr.enc (i : Instr) : Option (Nat × Nat) :=
  match i with
  | .movCompact f => some (2, Enc.compact 0 f)
  | .addCompact f => some (2, Enc.compact 1 f)
  | .subCompact f => some (2, Enc.compact 2 f)
  | .mulCompact f => some (2, Enc.compact 3 f)
  | .andCompact f => some (2, Enc.compact 4 f)
  | .orCompact f => some (2, Enc.compact 5 f)
  | .xorCompact f => some (2, Enc.compact 6 f)
  | .notCompact f => some (2, Enc.compact 7 f)
  | .shlCompact f => some (2, Enc.compact 8 f)
  | .shrCompact f => some (2, Enc.compact 9 f)
  | .minCompact f => some (2, Enc.compact 10 f)
  | .maxCompact f => some (2, Enc.compact 11 f)
  | .absCompact f => some (2, Enc.compact 12 f)
  | .negCompact f => some (2, Enc.compact 13 f)
  | .popcCompact f => some (2, Enc.compact 14 f)
  | .selCompact f => some (2, Enc.compact 15 f)
  | .stall f => some (4, Enc.stallF f)
  | .addBase f => some (4, Enc.trio 1 f)
  | .subBase f => some (4, Enc.trio 2 f)
  | .mulBase f => some (4, Enc.trio 3 f)
  | .fmaBase f => some (4, Enc.trio 4 f)
  | .minBase f => some (4, Enc.trio 5 f)
  | .maxBase f => some (4, Enc.trio 6 f)
  | .andBase f => some (4, Enc.trio 7 f)
  | .orBase f => some (4, Enc.trio 8 f)
  | .xorBase f => some (4, Enc.trio 9 f)
  | .shlBase f => some (4, Enc.trio 10 f)
  | .shrBase f => some (4, Enc.trio 11 f)
  | .selBase f => some (4, Enc.trio 12 f)
  | .addi f => some (4, Enc.duoi 13 f)
  | .andi f => some (4, Enc.duoi 14 f)
  | .ori f => some (4, Enc.duoi 15 f)
  | .shli f => some (4, Enc.duoi 16 f)
  | .shri f => some (4, Enc.duoi 17 f)
  | .moviBase f => some (4, Enc.movi f)
  | .sli f => some (4, Enc.si f)
  | .bra f => some (4, Enc.br 21 f)
  | .call f => some (4, Enc.br 22 f)
  | .brp f => some (4, Enc.bp f)
  | .ldBase f => some (4, Enc.mem 24 f)
  | .stBase f => some (4, Enc.mem 25 f)
  | .ldsBase f => some (4, Enc.mem 26 f)
  | .stsBase f => some (4, Enc.mem 27 f)
  | .sldBase f => some (4, Enc.mem 28 f)
  | .dotBase f => some (4, Enc.trio 29 f)
  | .movGeneral f => some (4, Enc.gmov f)
  | .addSalu f => some (4, Enc.ss 0 f)
  | .subSalu f => some (4, Enc.ss 1 f)
  | .mulSalu f => some (4, Enc.ss 2 f)
  | .andSalu f => some (4, Enc.ss 3 f)
  | .orSalu f => some (4, Enc.ss 4 f)
  | .xorSalu f => some (4, Enc.ss 5 f)
  | .shlSalu f => some (4, Enc.ss 6 f)
  | .shrSalu f => some (4, Enc.ss 7 f)
  | .sraSalu f => some (4, Enc.ss 8 f)
  | .minSalu f => some (4, Enc.ss 9 f)
  | .maxSalu f => some (4, Enc.ss 10 f)
  | .movSalu f => some (4, Enc.ss 11 f)
  | .notSalu f => some (4, Enc.ss 12 f)
  | .negSalu f => some (4, Enc.ss 13 f)
  | .mulhiSalu f => some (4, Enc.ss 14 f)
  | .clzSalu f => some (4, Enc.ss 15 f)
  | .popcSalu f => some (4, Enc.ss 16 f)
  | .addX f => some (8, Enc.x 48 0 f)
  | .subX f => some (8, Enc.x 48 1 f)
  | .mulX f => some (8, Enc.x 48 2 f)
  | .mulhiX f => some (8, Enc.x 48 3 f)
  | .fmaX f => some (8, Enc.x 48 4 f)
  | .minX f => some (8, Enc.x 48 5 f)
  | .maxX f => some (8, Enc.x 48 6 f)
  | .absX f => some (8, Enc.x 48 7 f)
  | .negX f => some (8, Enc.x 48 8 f)
  | .andX f => some (8, Enc.x 48 9 f)
  | .orX f => some (8, Enc.x 48 10 f)
  | .xorX f => some (8, Enc.x 48 11 f)
  | .notX f => some (8, Enc.x 48 12 f)
  | .shlX f => some (8, Enc.x 48 13 f)
  | .shrX f => some (8, Enc.x 48 14 f)
  | .selX f => some (8, Enc.x 48 15 f)
  | .movX f => some (8, Enc.x 48 16 f)
  | .moviX f => some (8, Enc.x 48 17 f)
  | .dotX f => some (8, Enc.x 48 18 f)
  | .acs f => some (8, Enc.x 48 19 f)
  | .popcX f => some (8, Enc.x 48 20 f)
  | .clzX f => some (8, Enc.x 48 21 f)
  | .brev f => some (8, Enc.x 48 22 f)
  | .bfe f => some (8, Enc.x 48 23 f)
  | .bfi f => some (8, Enc.x 48 24 f)
  | .cmp f => some (8, Enc.x 49 0 f)
  | .plop f => some (8, Enc.x 49 1 f)
  | .pmov f => some (8, Enc.x 49 2 f)
  | .vote f => some (8, Enc.x 49 3 f)
  | .shfl f => some (8, Enc.x 50 0 f)
  | .xred f => some (8, Enc.x 50 1 f)
  | .lget f => some (8, Enc.x 50 2 f)
  | .lput f => some (8, Enc.x 50 3 f)
  | .pack f => some (8, Enc.x 50 4 f)
  | .unpack f => some (8, Enc.x 50 5 f)
  | .cvt f => some (8, Enc.x 50 6 f)
  | .retag f => some (8, Enc.x 50 7 f)
  | .rcp f => some (8, Enc.x 50 8 f)
  | .rsq f => some (8, Enc.x 50 9 f)
  | .exp2 f => some (8, Enc.x 50 10 f)
  | .log2 f => some (8, Enc.x 50 11 f)
  | .sin f => some (8, Enc.x 50 12 f)
  | .cos f => some (8, Enc.x 50 13 f)
  | .addXscalar f => some (8, Enc.scalar 0 f)
  | .subXscalar f => some (8, Enc.scalar 1 f)
  | .mulXscalar f => some (8, Enc.scalar 2 f)
  | .andXscalar f => some (8, Enc.scalar 3 f)
  | .orXscalar f => some (8, Enc.scalar 4 f)
  | .xorXscalar f => some (8, Enc.scalar 5 f)
  | .shlXscalar f => some (8, Enc.scalar 6 f)
  | .shrXscalar f => some (8, Enc.scalar 7 f)
  | .sraXscalar f => some (8, Enc.scalar 8 f)
  | .minXscalar f => some (8, Enc.scalar 9 f)
  | .maxXscalar f => some (8, Enc.scalar 10 f)
  | .movXscalar f => some (8, Enc.scalar 11 f)
  | .notXscalar f => some (8, Enc.scalar 12 f)
  | .negXscalar f => some (8, Enc.scalar 13 f)
  | .mulhiXscalar f => some (8, Enc.scalar 14 f)
  | .clzXscalar f => some (8, Enc.scalar 15 f)
  | .popcXscalar f => some (8, Enc.scalar 16 f)
  | .br f => some (8, Enc.brX f)
  | .jmp f => some (8, Enc.jmp 18 f)
  | .ret f => some (8, Enc.jmp 19 f)
  | .srd f => some (8, Enc.srd f)
  | .swr f => some (8, Enc.swr f)
  | .ld f => some (8, Enc.memX 0 f)
  | .st f => some (8, Enc.memX 1 f)
  | .lds f => some (8, Enc.memX 2 f)
  | .sts f => some (8, Enc.memX 3 f)
  | .sld f => some (8, Enc.memX 4 f)
  | .atom f => some (8, Enc.atom f)
  | .mred f => some (8, Enc.mred f)
  | .pf f => some (8, Enc.range 7 f)
  | .cctl f => some (8, Enc.range 8 f)
  | .icinv f => some (8, Enc.range 9 f)
  | .fe f => some (8, Enc.range 10 f)
  | .fence f => some (8, Enc.fence 0 f)
  | .fbeg f => some (8, Enc.fence 1 f)
  | .fwait f => some (8, Enc.fence 2 f)
  | .bar f => some (8, Enc.bar f)
  | .monw f => some (8, Enc.monw f)
  | .yield f => some (8, Enc.yield f)
  | .epush f => some (8, Enc.edge 6 f)
  | .epop f => some (8, Enc.edge 7 f)
  | .copy f => some (8, Enc.copy f)
  | .cobj f => some (8, Enc.obj 1 f)
  | .cpwait f => some (8, Enc.obj 2 f)
  | .lease f => some (8, Enc.lease f)
  | .lrel f => some (8, Enc.lrel f)
  | .lstat f => some (8, Enc.scalarPair 54 5 f)
  | .eng f => some (8, Enc.eng f)
  | .ewait f => some (8, Enc.scalarPair 54 7 f)
  | .bld f => some (8, Enc.mat 0 f)
  | .mma f => some (8, Enc.mat 1 f)
  | .mv f => some (8, Enc.mat 2 f)
  | .mbat f => some (8, Enc.scalarPair 55 3 f)
  | .mwait f => some (8, Enc.scalarPair 55 4 f)
  | .tzero f => some (8, Enc.tile 5 f)
  | .tdrn f => some (8, Enc.mat 6 f)
  | .tmov f => some (8, Enc.tile 7 f)
  | .talloc f => some (8, Enc.scalarPair 55 8 f)
  | .tfree f => some (8, Enc.scalarPair 55 9 f)
  | .trap f => some (8, Enc.code 0 f)
  | .tret f => some (8, Enc.guardF 1 f)
  | .bkpt f => some (8, Enc.code 2 f)
  | .sys f => some (8, Enc.code 3 f)
  | .exit f => some (8, Enc.guardF 4 f)
  | .regset f => some (8, Enc.regset f)
  | .prog f => some (8, Enc.scalarPair 56 6 f)
  | .rchk f => some (8, Enc.rchk f)
  | .enq f => some (8, Enc.enq f)
  | .relaunch f => some (8, Enc.relaunch f)
  | .belinoLdi f => some (4, Enc.belino 0 f)
  | .belinoMov f => some (4, Enc.belino 1 f)
  | .belinoAdd f => some (4, Enc.belino 2 f)
  | .belinoSub f => some (4, Enc.belino 3 f)
  | .belinoAnd f => some (4, Enc.belino 4 f)
  | .belinoOr f => some (4, Enc.belino 5 f)
  | .belinoXor f => some (4, Enc.belino 6 f)
  | .belinoShl f => some (4, Enc.belino 7 f)
  | .belinoShr f => some (4, Enc.belino 8 f)
  | .belinoMin f => some (4, Enc.belino 9 f)
  | .belinoMax f => some (4, Enc.belino 10 f)
  | .belinoSel f => some (4, Enc.belino 11 f)
  | .belinoCmplt f => some (4, Enc.belino 12 f)
  | .belinoCmpeq f => some (4, Enc.belino 13 f)
  | .belinoLdc f => some (4, Enc.belino 14 f)
  | .belinoLdm f => some (4, Enc.belino 15 f)
  | .belinoStm f => some (4, Enc.belino 16 f)
  | .belinoLoop f => some (4, Enc.belino 17 f)
  | .belinoBrf f => some (4, Enc.belino 18 f)
  | .belinoBrfZ f => some (4, Enc.belino 18 f + 2 ^ 8)
  | .belinoDec f => some (4, Enc.belino 19 f)
  | .belinoExit f => some (4, Enc.belino 20 f)
  | .partcfg c => some (56, Enc.cmd 1 0 c)
  | .partreset c => some (56, Enc.cmd 2 0 c)
  | .ctxbind c => some (56, Enc.cmd 3 0 c)
  | .ctxfree c => some (56, Enc.cmd 3 1 c)
  | .preempt c => some (56, Enc.cmd 4 0 c)
  | .qreg c => some (56, Enc.cmd 5 0 c)
  | .qstate c => some (56, Enc.cmd 5 1 c)
  | .traparea c => some (56, Enc.cmd 6 0 c)
  | .savepool c => some (56, Enc.cmd 6 1 c)
  | .root c => some (56, Enc.cmd 7 0 c)
  | .xlinv c => some (56, Enc.cmd 7 1 c)
  | .replay c => some (56, Enc.cmd 8 0 c)
  | .cancel c => some (56, Enc.cmd 8 1 c)
  | .barinit c => some (56, Enc.cmd 9 0 c)
  | .barinv c => some (56, Enc.cmd 9 1 c)
  | .watchreg c => some (56, Enc.cmd 10 0 c)
  | .rtnload c => some (56, Enc.cmd 11 0 c)
  | .hold c => some (56, Enc.cmd 12 0 c)
  | .resume c => some (56, Enc.cmd 12 1 c)
  | .codeinv c => some (56, Enc.cmd 12 2 c)
  | .sample c => some (56, Enc.cmd 12 3 c)
  | .vpsmap c => some (56, Enc.cmd 13 0 c)
  | .vpsreq c => some (56, Enc.cmd 14 0 c)
  | .vpsquery c => some (56, Enc.cmd 14 1 c)
  | .sensclr c => some (56, Enc.cmd 15 0 c)
  | .energy c => some (56, Enc.cmd 16 0 c)
  | .attest c => some (56, Enc.cmd 17 0 c)
  | .resync c => some (56, Enc.cmd 18 0 c)
  | .wsdef c => some (56, Enc.cmd 19 0 c)
  | .wsnew c => some (56, Enc.cmd 19 1 c)
  | .wscommit c => some (56, Enc.cmd 19 2 c)
  | .wsdrop c => some (56, Enc.cmd 19 3 c)
  | .evring c => some (56, Enc.cmd 20 0 c)
  | .unlistedCommand op sub c => some (56, Enc.cmd op.toNat sub.toNat c)
  | .unassignedEncoding f => some (f.len, f.w0.toNat + f.w1.toNat * 2 ^ 32)
  | .pathHoldExempt _ _ | .sideReleaseSwap _ _ | .groupSlotFree _ | .teamComplete _ | .launchComplete _
  | .regsetGrowthGrant _ _ | .regsetDeadlock _ | .storePerform _ | .loadDataReturn _ | .atomHomePerform _
  | .mredCombine _ _ | .l1LineEvict _ _ | .l2LineEvict _ | .storeWalkFault _ | .storeLateReport _
  | .asyncPageFault _ | .fewFillObtained _ _ | .fenceComplete _ _ | .eccCorrected _ _ | .eccUncorrectable _
  | .patrolScrub _ _ | .slotClockAging _ | .epochAging _ | .leaseGrant _ _ _ | .leaseWakeComplete _ _
  | .leaseEntryAged _ _ | .leaseNotice _ _ | .leaseRevoke _ _ | .cqGrant _ | .cqRequestAged _ _
  | .cqOverBudget _ | .cqBudgetChange _ _ _ | .engOpStart _ | .engOpComplete _ | .islandEnter _
  | .islandExit _ | .bldStart _ _ | .bldComplete _ _ | .mmaStart _ _ | .mmaComplete _ _ | .mmaPairReady _ _
  | .mmaPairStart _ _ | .mvStart _ _ | .mvComplete _ _ | .tdrnStart _ _ | .tdrnComplete _ _ | .tzeroStart _ _
  | .tzeroComplete _ _ | .tmovStart _ _ | .tmovComplete _ _ | .copySectorStart _ | .copySectorComplete _ _
  | .copyDigestCheck _ | .monwTimeout _ _ | .monitorOverflowEval _ _ | .barrierArrivalMessage _
  | .barrierRelease _ | .edgeParkRetry _ _ | .enqParkRetry _ _ | .queueRecordAccept _ | .launchHead _
  | .hookEnq _ | .hookPick _ | .hookTick _ | .hookBlock _ | .hookWake _ | .ageGuardTrigger _
  | .ageGuardPreempt _ _ | .drainTimeout _ | .saveComplete _ | .saveBoundExpiry _ | .unitRestore _ _
  | .watchdogFirstExpiry _ | .watchdogSecondExpiry _ | .pathHoldStop _ _ | .stallSample _ _ _
  | .memorySample _ _ | .relaunchSelect _ _ | .tvlCompanionWrite _ _ | .tvlCompanionRead _ _ | .tvlFlitCrcFail
  | .tvlRetrainComplete | .tvlLinkdown | .packageReset _ | .configDeclare _ _ | .clusterVpsChange _
  | .powerCapChange _ _ | .sensorVoteOut _ _ | .coreTestFail _ | .channelGroupSpare _ _ _ | .signalBoxFail _ _
  | .shardDigestComplete _ _ _ | .weightPatrol _ _ _ | .markAgingFinish _ _ => none

namespace Dec

/-- Compact operations (R49). -/
def compactOps (w : Nat) : Nat → Option Instr
  | 0 => some (.movCompact (compact w))
  | 1 => some (.addCompact (compact w))
  | 2 => some (.subCompact (compact w))
  | 3 => some (.mulCompact (compact w))
  | 4 => some (.andCompact (compact w))
  | 5 => some (.orCompact (compact w))
  | 6 => some (.xorCompact (compact w))
  | 7 => some (.notCompact (compact w))
  | 8 => some (.shlCompact (compact w))
  | 9 => some (.shrCompact (compact w))
  | 10 => some (.minCompact (compact w))
  | 11 => some (.maxCompact (compact w))
  | 12 => some (.absCompact (compact w))
  | 13 => some (.negCompact (compact w))
  | 14 => some (.popcCompact (compact w))
  | 15 => some (.selCompact (compact w))
  | _ => none

/-- SALU minors (R54). -/
def saluOps (w : Nat) : Nat → Option Instr
  | 0 => some (.addSalu (ss w))
  | 1 => some (.subSalu (ss w))
  | 2 => some (.mulSalu (ss w))
  | 3 => some (.andSalu (ss w))
  | 4 => some (.orSalu (ss w))
  | 5 => some (.xorSalu (ss w))
  | 6 => some (.shlSalu (ss w))
  | 7 => some (.shrSalu (ss w))
  | 8 => some (.sraSalu (ss w))
  | 9 => some (.minSalu (ss w))
  | 10 => some (.maxSalu (ss w))
  | 11 => some (.movSalu (ss w))
  | 12 => some (.notSalu (ss w))
  | 13 => some (.negSalu (ss w))
  | 14 => some (.mulhiSalu (ss w))
  | 15 => some (.clzSalu (ss w))
  | 16 => some (.popcSalu (ss w))
  | _ => none

/-- Base majors 0-30 (R53). -/
def baseOps (w : Nat) : Nat → Option Instr
  | 0 => some (.stall (stallF w))
  | 1 => some (.addBase (trio w))
  | 2 => some (.subBase (trio w))
  | 3 => some (.mulBase (trio w))
  | 4 => some (.fmaBase (trio w))
  | 5 => some (.minBase (trio w))
  | 6 => some (.maxBase (trio w))
  | 7 => some (.andBase (trio w))
  | 8 => some (.orBase (trio w))
  | 9 => some (.xorBase (trio w))
  | 10 => some (.shlBase (trio w))
  | 11 => some (.shrBase (trio w))
  | 12 => some (.selBase (trio w))
  | 13 => some (.addi (duoi w))
  | 14 => some (.andi (duoi w))
  | 15 => some (.ori (duoi w))
  | 16 => some (.shli (duoi w))
  | 17 => some (.shri (duoi w))
  | 18 => some (.moviBase (movi w))
  | 19 => saluOps w (w / 2 ^ 26 % 64)
  | 20 => some (.sli (si w))
  | 21 => some (.bra (br w))
  | 22 => some (.call (br w))
  | 23 => some (.brp (bp w))
  | 24 => some (.ldBase (mem w))
  | 25 => some (.stBase (mem w))
  | 26 => some (.ldsBase (mem w))
  | 27 => some (.stsBase (mem w))
  | 28 => some (.sldBase (mem w))
  | 29 => some (.dotBase (trio w))
  | 30 => some (.movGeneral (gmov w))
  | _ => none

/-- XALU minors (R59). -/
def xaluOps (w : Nat) : Nat → Option Instr
  | 0 => some (.addX (x w))
  | 1 => some (.subX (x w))
  | 2 => some (.mulX (x w))
  | 3 => some (.mulhiX (x w))
  | 4 => some (.fmaX (x w))
  | 5 => some (.minX (x w))
  | 6 => some (.maxX (x w))
  | 7 => some (.absX (x w))
  | 8 => some (.negX (x w))
  | 9 => some (.andX (x w))
  | 10 => some (.orX (x w))
  | 11 => some (.xorX (x w))
  | 12 => some (.notX (x w))
  | 13 => some (.shlX (x w))
  | 14 => some (.shrX (x w))
  | 15 => some (.selX (x w))
  | 16 => some (.movX (x w))
  | 17 => some (.moviX (x w))
  | 18 => some (.dotX (x w))
  | 19 => some (.acs (x w))
  | 20 => some (.popcX (x w))
  | 21 => some (.clzX (x w))
  | 22 => some (.brev (x w))
  | 23 => some (.bfe (x w))
  | 24 => some (.bfi (x w))
  | _ => none

/-- XPRED minors (R59). -/
def xpredOps (w : Nat) : Nat → Option Instr
  | 0 => some (.cmp (x w))
  | 1 => some (.plop (x w))
  | 2 => some (.pmov (x w))
  | 3 => some (.vote (x w))
  | _ => none

/-- XLANE minors (R59). -/
def xlaneOps (w : Nat) : Nat → Option Instr
  | 0 => some (.shfl (x w))
  | 1 => some (.xred (x w))
  | 2 => some (.lget (x w))
  | 3 => some (.lput (x w))
  | 4 => some (.pack (x w))
  | 5 => some (.unpack (x w))
  | 6 => some (.cvt (x w))
  | 7 => some (.retag (x w))
  | 8 => some (.rcp (x w))
  | 9 => some (.rsq (x w))
  | 10 => some (.exp2 (x w))
  | 11 => some (.log2 (x w))
  | 12 => some (.sin (x w))
  | 13 => some (.cos (x w))
  | _ => none

/-- XSCALAR minors (R59). -/
def xscalarOps (w : Nat) : Nat → Option Instr
  | 0 => some (.addXscalar (scalar w))
  | 1 => some (.subXscalar (scalar w))
  | 2 => some (.mulXscalar (scalar w))
  | 3 => some (.andXscalar (scalar w))
  | 4 => some (.orXscalar (scalar w))
  | 5 => some (.xorXscalar (scalar w))
  | 6 => some (.shlXscalar (scalar w))
  | 7 => some (.shrXscalar (scalar w))
  | 8 => some (.sraXscalar (scalar w))
  | 9 => some (.minXscalar (scalar w))
  | 10 => some (.maxXscalar (scalar w))
  | 11 => some (.movXscalar (scalar w))
  | 12 => some (.notXscalar (scalar w))
  | 13 => some (.negXscalar (scalar w))
  | 14 => some (.mulhiXscalar (scalar w))
  | 15 => some (.clzXscalar (scalar w))
  | 16 => some (.popcXscalar (scalar w))
  | 17 => some (.br (brX w))
  | 18 => some (.jmp (jmp w))
  | 19 => some (.ret (jmp w))
  | 20 => some (.srd (srd w))
  | 21 => some (.swr (swr w))
  | _ => none

/-- XMEM minors (R59). -/
def xmemOps (w : Nat) : Nat → Option Instr
  | 0 => some (.ld (memX w))
  | 1 => some (.st (memX w))
  | 2 => some (.lds (memX w))
  | 3 => some (.sts (memX w))
  | 4 => some (.sld (memX w))
  | 5 => some (.atom (atom w))
  | 6 => some (.mred (mred w))
  | 7 => some (.pf (range w))
  | 8 => some (.cctl (range w))
  | 9 => some (.icinv (range w))
  | 10 => some (.fe (range w))
  | _ => none

/-- XSYNC minors (R59). -/
def xsyncOps (w : Nat) : Nat → Option Instr
  | 0 => some (.fence (fence w))
  | 1 => some (.fbeg (fence w))
  | 2 => some (.fwait (fence w))
  | 3 => some (.bar (bar w))
  | 4 => some (.monw (monw w))
  | 5 => some (.yield (yield w))
  | 6 => some (.epush (edge w))
  | 7 => some (.epop (edge w))
  | _ => none

/-- XASYNC minors (R59). -/
def xasyncOps (w : Nat) : Nat → Option Instr
  | 0 => some (.copy (copy w))
  | 1 => some (.cobj (obj w))
  | 2 => some (.cpwait (obj w))
  | 3 => some (.lease (lease w))
  | 4 => some (.lrel (lrel w))
  | 5 => some (.lstat (scalarPair w))
  | 6 => some (.eng (eng w))
  | 7 => some (.ewait (scalarPair w))
  | _ => none

/-- XMAT minors (R59). -/
def xmatOps (w : Nat) : Nat → Option Instr
  | 0 => some (.bld (mat w))
  | 1 => some (.mma (mat w))
  | 2 => some (.mv (mat w))
  | 3 => some (.mbat (scalarPair w))
  | 4 => some (.mwait (scalarPair w))
  | 5 => some (.tzero (tile w))
  | 6 => some (.tdrn (mat w))
  | 7 => some (.tmov (tile w))
  | 8 => some (.talloc (scalarPair w))
  | 9 => some (.tfree (scalarPair w))
  | _ => none

/-- XSYS minors (R59). -/
def xsysOps (w : Nat) : Nat → Option Instr
  | 0 => some (.trap (code w))
  | 1 => some (.tret (guardF w))
  | 2 => some (.bkpt (code w))
  | 3 => some (.sys (code w))
  | 4 => some (.exit (guardF w))
  | 5 => some (.regset (regset w))
  | 6 => some (.prog (scalarPair w))
  | 7 => some (.rchk (rchk w))
  | 8 => some (.enq (enq w))
  | 9 => some (.relaunch (relaunch w))
  | _ => none

/-- X majors 48-56 by minor (R59). -/
def xOps (w : Nat) : Nat → Option Instr
  | 48 => xaluOps w (w / 2 ^ 32 % 256)
  | 49 => xpredOps w (w / 2 ^ 32 % 256)
  | 50 => xlaneOps w (w / 2 ^ 32 % 256)
  | 51 => xscalarOps w (w / 2 ^ 32 % 256)
  | 52 => xmemOps w (w / 2 ^ 32 % 256)
  | 53 => xsyncOps w (w / 2 ^ 32 % 256)
  | 54 => xasyncOps w (w / 2 ^ 32 % 256)
  | 55 => xmatOps w (w / 2 ^ 32 % 256)
  | 56 => xsysOps w (w / 2 ^ 32 % 256)
  | _ => none

/-- Belino operations (R246); BRF and BRF.z share code 18 and differ in d. -/
def belinoOps (w : Nat) : Nat → Option Instr
  | 0 => some (.belinoLdi (belino w))
  | 1 => some (.belinoMov (belino w))
  | 2 => some (.belinoAdd (belino w))
  | 3 => some (.belinoSub (belino w))
  | 4 => some (.belinoAnd (belino w))
  | 5 => some (.belinoOr (belino w))
  | 6 => some (.belinoXor (belino w))
  | 7 => some (.belinoShl (belino w))
  | 8 => some (.belinoShr (belino w))
  | 9 => some (.belinoMin (belino w))
  | 10 => some (.belinoMax (belino w))
  | 11 => some (.belinoSel (belino w))
  | 12 => some (.belinoCmplt (belino w))
  | 13 => some (.belinoCmpeq (belino w))
  | 14 => some (.belinoLdc (belino w))
  | 15 => some (.belinoLdm (belino w))
  | 16 => some (.belinoStm (belino w))
  | 17 => some (.belinoLoop (belino w))
  | 18 =>
    if (belino w).d = 1 then some (.belinoBrfZ (BelinoF.mk 0 (belino w).a (belino w).imm)) else some (.belinoBrf (belino w))
  | 19 => some (.belinoDec (belino w))
  | 20 => some (.belinoExit (belino w))
  | _ => none

/-- Management commands by OP and SUB (R300). -/
def cmdOps (w : Nat) : Nat → Nat → Instr
  | 1, 0 => .partcfg (cmd w)
  | 2, 0 => .partreset (cmd w)
  | 3, 0 => .ctxbind (cmd w)
  | 3, 1 => .ctxfree (cmd w)
  | 4, 0 => .preempt (cmd w)
  | 5, 0 => .qreg (cmd w)
  | 5, 1 => .qstate (cmd w)
  | 6, 0 => .traparea (cmd w)
  | 6, 1 => .savepool (cmd w)
  | 7, 0 => .root (cmd w)
  | 7, 1 => .xlinv (cmd w)
  | 8, 0 => .replay (cmd w)
  | 8, 1 => .cancel (cmd w)
  | 9, 0 => .barinit (cmd w)
  | 9, 1 => .barinv (cmd w)
  | 10, 0 => .watchreg (cmd w)
  | 11, 0 => .rtnload (cmd w)
  | 12, 0 => .hold (cmd w)
  | 12, 1 => .resume (cmd w)
  | 12, 2 => .codeinv (cmd w)
  | 12, 3 => .sample (cmd w)
  | 13, 0 => .vpsmap (cmd w)
  | 14, 0 => .vpsreq (cmd w)
  | 14, 1 => .vpsquery (cmd w)
  | 15, 0 => .sensclr (cmd w)
  | 16, 0 => .energy (cmd w)
  | 17, 0 => .attest (cmd w)
  | 18, 0 => .resync (cmd w)
  | 19, 0 => .wsdef (cmd w)
  | 19, 1 => .wsnew (cmd w)
  | 19, 2 => .wscommit (cmd w)
  | 19, 3 => .wsdrop (cmd w)
  | 20, 0 => .evring (cmd w)
  | _, _ => .unlistedCommand (fld w 0 8) (fld w 8 8) (cmd w)

end Dec

/-- The unassigned encoding that stands at a word (R60). -/
def unassigned (w : Nat) : Instr :=
  .unassignedEncoding
    ⟨wordLength w, if wordLength w = 2 then fld (w % 2 ^ 16) 0 32 else fld w 0 32,
      if wordLength w = 8 then fld w 32 32 else 0⟩

/-- What the majors and minors name, before the field checks (R49, R53, R54, R59). -/
def candidate (w : Nat) : Option Instr :=
  if w % 2 = 0 then Dec.compactOps w (w / 2 % 16)
  else if 48 ≤ w / 2 % 64 then Dec.xOps w (w / 2 % 64)
  else Dec.baseOps w (w / 2 % 64)

/-- The bits of the instruction that starts at a word: 16, 32 or 64 of them (R47). -/
def trimWord (w : Nat) : Nat := w % 2 ^ (8 * wordLength w)

/-- Decode the program instruction whose bits are the low bits of `w`. A candidate stands when it is well formed and
its own encoding gives back every bit, so that each field the formats require to be 0 is 0 (R60). -/
def decodeWord (w : Nat) : Instr :=
  let t := trimWord w
  match candidate t with
  | some i => if i.wf && i.enc == some (wordLength t, t) then i else unassigned t
  | none => unassigned t

/-- The little-endian number of a list of bytes (R5). -/
def leNat : List Byte → Nat
  | [] => 0
  | b :: bs => b.toNat + 256 * leNat bs

/-- The bytes of a number, least significant first (R5). -/
def leBytes : Nat → Nat → List Byte
  | 0, _ => []
  | n + 1, w => BitVec.ofNat 8 w :: leBytes n (w / 256)

/-- Decode a program instruction from a list of bytes: the instruction and the rest, or none when the bytes end inside
it (R47). -/
def decode (bs : List Byte) : Option (Instr × List Byte) :=
  match bs with
  | b0 :: _ :: _ =>
    let n := wordLength (leNat (bs.take 2))
    if b0.toNat % 2 = 0 ∨ n ≤ bs.length then some (decodeWord (leNat (bs.take n)), bs.drop n) else none
  | _ => none

/-- The bytes of an instruction as they stand in memory (R5). -/
def Instr.bytes (i : Instr) : List Byte :=
  match i.enc with
  | some (n, w) => leBytes n w
  | none => []

/-- The words of an instruction: the first, and the extension or 0 (R258). -/
def Instr.words (i : Instr) : Word × Word :=
  match i.enc with
  | some (_, w) => (BitVec.ofNat 32 w, BitVec.ofNat 32 (w / 2 ^ 32))
  | none => (0, 0)

/-- Decode a Belino word; none for a word the load check rejects (R246, R250). -/
def decodeBelino (w : Nat) : Option Instr :=
  match Dec.belinoOps w (w % 256) with
  | some i => if i.wf && i.enc == some (4, w) then some i else none
  | none => none

/-- Decode the first 56 bytes of a management command (R299, R300). -/
def decodeCommand (w : Nat) : Instr := Dec.cmdOps w (w % 256) (w / 2 ^ 8 % 256)

/-- The instruction the decoder reads from a table word: `nbits` bits of `w`, the bits above them 0. The table gives
words to program instructions and to Belino operations; a 32-bit word that no program instruction claims is read as a
Belino word, since a Belino word stands in a routine image and never in a program (R47, R246). -/
def decodeTableWord (nbits w : Nat) : Option Instr :=
  let t := w % 2 ^ nbits
  let i := decode (leBytes 8 t)
  match i with
  | some (.unassignedEncoding f, _) =>
    match decodeBelino t with
    | some b => some b
    | none => some (.unassignedEncoding f)
  | some (j, _) =>
    if nbits = 32 ∧ t % 2 = 0 then
      match decodeBelino t with
      | some b => some b
      | none => some j
    else some j
  | none => none

end Sys2Proof
end

