-- ==== Sys2Proof/Config.lean ====
section
/-! DEFINITION. What the spec leaves to the implementation: free values with no body, which nothing can evaluate. -/

namespace Sys2Proof.Config

/-- A value the spec leaves open, applied to the free-value counter of State (assumption 2). -/
opaque freeWord : Nat → BitVec 64

/-- A byte of an opaque field of a record, by free-value counter and offset (R257, R258, R270; assumption 2). -/
opaque opaqueByte : Nat → Nat → Byte

/-- The channel group, 0 to 127, whose memory a line of HBM stands in (R305; assumption 7). -/
opaque channelOf : (line : Nat) → Nat

/-- The hash of physical address bits [51:7] that picks a line's home among `n` slices (R108, R306; assumption 7). -/
opaque homeHash : (n line : Nat) → Nat

/-- The RSA-3072 signature over bytes 0x000-0x13F of a report, by the device key (R315; assumption 8). -/
opaque signature : List Byte → Nat → Byte

/-- The 128-bit device identity from fuses (R315; assumption 8). -/
opaque deviceId : BitVec 128

/-- ENG outputs the spec does not fix when a started operation is aborted: how many bytes of the output are written
(R185; assumption 2). -/
opaque abortPrefix : Nat → Nat

/-- The processor-dependent last bit of a transcendental whose interval did not settle at the model's working
precision (R86; assumption 10). -/
opaque roundUpTie : Nat → Bool

/-- What a sensor of a domain reads at a clk: a temperature in thousandths of a degree, or a current in mA (R311; assumption
96). -/
opaque sensorReading : (domain sensor clk : Nat) → Int

/-- The calibrated range of a sensor (R311; assumption 96). -/
opaque sensorRange : (domain sensor : Nat) → Int × Int

/-- The stepping field of ARCHVER, which the spec does not number (R44; assumption 2). -/
opaque stepping : BitVec 8

end Sys2Proof.Config
end

