-- ==== Sys2Proof/Machine/Flags.lean ====
section
/-! DEFINITION. Number formats, exact values, the single rounding of R78, exception flags, special values, integer
wrapping and clamping, and conversions (spec 03, R74-R86). -/

namespace Sys2Proof.Machine

/-! ## Format tags (R40, R324) -/

def tagRAW : BitVec 4 := 0
def tagI32 : BitVec 4 := 1
def tagN32 : BitVec 4 := 2
def tagF32 : BitVec 4 := 3
def tagBF16 : BitVec 4 := 4
def tagF16 : BitVec 4 := 5
def tagI16 : BitVec 4 := 6
def tagN16 : BitVec 4 := 7
def tagF8A : BitVec 4 := 8
def tagF8B : BitVec 4 := 9
def tagI8 : BitVec 4 := 10
def tagN8 : BitVec 4 := 11
def tagQC4 : BitVec 4 := 12
def tagE8 : BitVec 4 := 13
def tagADDR : BitVec 4 := 14

/-- Element width in bits of a tag (R324). -/
def tagWidth (t : BitVec 4) : Nat :=
  if t = tagBF16 ∨ t = tagF16 ∨ t = tagI16 ∨ t = tagN16 then 16
  else if t = tagF8A ∨ t = tagF8B ∨ t = tagI8 ∨ t = tagN8 ∨ t = tagE8 then 8
  else if t = tagQC4 then 4
  else 32

/-- count(t) (R324). -/
def tagCount (t : BitVec 4) : Nat := 32 / tagWidth t

def tagIsFloat (t : BitVec 4) : Bool := t = tagF32 || t = tagBF16 || t = tagF16 || t = tagF8A || t = tagF8B
def tagIsSigned (t : BitVec 4) : Bool := t = tagI32 || t = tagI16 || t = tagI8
def tagIsNatural (t : BitVec 4) : Bool := t = tagN32 || t = tagN16 || t = tagN8
def tagIsInt (t : BitVec 4) : Bool := tagIsSigned t || tagIsNatural t

/-- elem(v, e, t) for width `w` (R40). -/
def elem (w e v : Nat) : Nat := v / 2 ^ (w * e) % 2 ^ w

/-- The 32 bits whose elements are `xs`, element 0 lowest (R40). -/
def packElems (w : Nat) : List Nat → Nat
  | [] => 0
  | x :: xs => x % 2 ^ w + 2 ^ w * packElems w xs

/-- `v` with element `e` of width `w` replaced by `x`. -/
def setElem (w e v x : Nat) : Nat := v - elem w e v * 2 ^ (w * e) + x % 2 ^ w * 2 ^ (w * e)

/-! ## Exception flags: the bit order of FPCTL [10:6] (R46, R80) -/

abbrev FpFlags := BitVec 5

def flagInvalid : FpFlags := 1
def flagDiv : FpFlags := 2
def flagOverflow : FpFlags := 4
def flagUnderflow : FpFlags := 8
def flagInexact : FpFlags := 16

/-- Rounding modes of RM (R57, R78): 0 RNE, 1 RZ, 2 RU, 3 RD. -/
abbrev Rm := BitVec 2

def rmRne : Rm := 0

/-! ## Formats and exact values -/

/-- A floating-point format (R74): exponent and fraction widths, bias, and whether it is F8A. -/
structure Fmt where
  eb : Nat
  fb : Nat
  bias : Nat
  e4m3 : Bool
  deriving DecidableEq, Repr

def fmtF32 : Fmt := ⟨8, 23, 127, false⟩
def fmtF16 : Fmt := ⟨5, 10, 15, false⟩
def fmtBF16 : Fmt := ⟨8, 7, 127, false⟩
def fmtF8A : Fmt := ⟨4, 3, 7, true⟩
def fmtF8B : Fmt := ⟨5, 2, 15, false⟩

/-- The format of a floating tag's elements. -/
def tagFmt (t : BitVec 4) : Fmt :=
  if t = tagBF16 then fmtBF16 else if t = tagF16 then fmtF16 else if t = tagF8A then fmtF8A
  else if t = tagF8B then fmtF8B else fmtF32

def Fmt.top (f : Fmt) : Nat := 2 ^ f.eb - 1
def Fmt.signBit (f : Fmt) : Nat := 2 ^ (f.eb + f.fb)
/-- The bits of the largest finite value (R74). -/
def Fmt.largest (f : Fmt) : Nat := if f.e4m3 then 0x7E else f.top * 2 ^ f.fb - 1
/-- The canonical NaN (R74). -/
def Fmt.canonNaN (f : Fmt) : Nat :=
  if f.e4m3 then 0x7F else if f.eb = 5 ∧ f.fb = 2 then 0x7E else f.top * 2 ^ f.fb + 2 ^ (f.fb - 1)
/-- FTZ touches F32 and F16 only (R79). -/
def Fmt.ftz (f : Fmt) : Bool := f = fmtF32 || f = fmtF16
def Fmt.emin (f : Fmt) : Int := 1 - f.bias

/-- An exact value: sign, magnitude `m × 2^e`, plus a positive part less than `2^e` when `sticky` is set. -/
structure Exact where
  neg : Bool
  m : Nat
  e : Int
  sticky : Bool
  deriving DecidableEq, Repr

/-- A value of lane arithmetic: a NaN (signalling or made invalid), an infinity, or a finite exact value (R81). -/
inductive Val where
  | nan (invalid : Bool)
  | inf (neg : Bool)
  | fin (x : Exact)
  deriving DecidableEq, Repr

def Exact.zero (neg : Bool) : Exact := ⟨neg, 0, 0, false⟩
def Val.zero (neg : Bool) : Val := .fin (Exact.zero neg)
def Val.isZero : Val → Bool
  | .fin x => x.m = 0 && !x.sticky
  | _ => false
def Exact.ofInt (i : Int) : Exact := ⟨decide (i < 0), i.natAbs, 0, false⟩

/-- The value of a bit pattern (R74); with `ftz`, a subnormal F32 or F16 reads as zero of its sign (R79). -/
def Fmt.decode (f : Fmt) (ftz : Bool) (b : Nat) : Val :=
  let s : Bool := b / f.signBit % 2 = 1
  let e := b / 2 ^ f.fb % 2 ^ f.eb
  let m := b % 2 ^ f.fb
  if f.e4m3 then
    if e = 15 ∧ m = 7 then .nan false
    else if e = 0 then .fin ⟨s, m, f.emin - f.fb, false⟩
    else .fin ⟨s, m + 2 ^ f.fb, e - f.bias - f.fb, false⟩
  else if e = f.top then
    if m = 0 then .inf s else .nan (f.fb > 2 ∧ m < 2 ^ (f.fb - 1))
  else if e = 0 then
    if ftz && f.ftz then .zero s else .fin ⟨s, m, f.emin - f.fb, false⟩
  else .fin ⟨s, m + 2 ^ f.fb, e - f.bias - f.fb, false⟩

/-- The magnitude rounded to a multiple of `2^q`: the multiple, and whether it differs (R78). A sticky magnitude must
reach below `q`. -/
def Exact.roundAt (x : Exact) (rm : Rm) (q : Int) : Nat × Bool :=
  let t := (q - x.e).toNat
  if q ≤ x.e then (x.m * 2 ^ (x.e - q).toNat + (if x.sticky ∧ ((rm = 2 ∧ ¬ x.neg) ∨ (rm = 3 ∧ x.neg)) then 1 else 0),
    x.sticky)
  else
    let n := x.m / 2 ^ t
    let r := x.m % 2 ^ t
    let inexact : Bool := r ≠ 0 || x.sticky
    let half := 2 ^ (t - 1)
    let up : Bool :=
      if rm = 0 then decide (r > half) || (r = half && (x.sticky || n % 2 = 1))
      else if rm = 1 then false
      else if rm = 2 then inexact && !x.neg
      else inexact && x.neg
    (n + (if up then 1 else 0), inexact)

/-- The single rounding of R78 of a finite value to a format, with .sat and FTZ (R79): bits and flags. -/
def Fmt.round (f : Fmt) (rm : Rm) (sat ftz : Bool) (x : Exact) : Nat × FpFlags :=
  let s := if x.neg then f.signBit else 0
  if x.m = 0 ∧ ¬ x.sticky then (s, 0)
  else
    let q : Int := x.e + (Nat.log2 x.m : Int) - f.fb
    let (n0, inx) := x.roundAt rm q
    let carry : Bool := n0 = 2 ^ (f.fb + 1)
    let n := if carry then 2 ^ f.fb else n0
    let lead : Int := q + f.fb + (if carry then 1 else 0)
    let big := f.largest
    let maxLead : Int := (big / 2 ^ f.fb : Nat) - (f.bias : Int)
    let maxN := big % 2 ^ f.fb + 2 ^ f.fb
    if lead > maxLead ∨ (lead = maxLead ∧ n > maxN) then
      let fl := flagOverflow ||| flagInexact
      if sat then (s + big, fl)
      else if f.e4m3 then (s + 0x7F, fl)
      else if rm = 0 ∨ (rm = 2 ∧ ¬ x.neg) ∨ (rm = 3 ∧ x.neg) then (s + f.top * 2 ^ f.fb, fl)
      else (s + big, fl)
    else if lead < f.emin then
      let (g, ginx) := x.roundAt rm (f.emin - f.fb)
      if ftz ∧ f.ftz ∧ g < 2 ^ f.fb then (s, flagUnderflow ||| flagInexact)
      else (s + g, if ginx then flagUnderflow ||| flagInexact else 0)
    else (s + (lead + f.bias).toNat * 2 ^ f.fb + (n - 2 ^ f.fb), if inx then flagInexact else 0)

/-- The bits of a value in a format: canonical NaN with invalid where the value is one, infinities, else R78. -/
def Fmt.encode (f : Fmt) (rm : Rm) (sat ftz : Bool) : Val → Nat × FpFlags
  | .nan inv => (f.canonNaN, if inv then flagInvalid else 0)
  | .inf neg => ((if neg then f.signBit else 0) + (if f.e4m3 then 0x7F else f.top * 2 ^ f.fb), 0)
  | .fin x => f.round rm sat ftz x

/-! ## Exact arithmetic on values (R81, R84, R85) -/

/-- The exact product; 0 × ∞ is an invalid NaN (R81). -/
def Val.mul : Val → Val → Val
  | .nan i, .nan j => .nan (i || j)
  | .nan i, _ => .nan i
  | _, .nan j => .nan j
  | .inf s, .inf t => .inf (s != t)
  | .inf s, .fin y => if y.m = 0 then .nan true else .inf (s != y.neg)
  | .fin x, .inf t => if x.m = 0 then .nan true else .inf (x.neg != t)
  | .fin x, .fin y => .fin ⟨x.neg != y.neg, x.m * y.m, x.e + y.e, false⟩

/-- The exact sum of two finite values without sticky parts; the sign of an exact zero follows R78, and of a sum of
zeros assumption 75. -/
def Exact.add (rm : Rm) (x y : Exact) : Exact :=
  let e := min x.e y.e
  let a : Int := (x.m * 2 ^ (x.e - e).toNat : Nat)
  let b : Int := (y.m * 2 ^ (y.e - e).toNat : Nat)
  let s := (if x.neg then -a else a) + (if y.neg then -b else b)
  if s = 0 then
    Exact.zero (if x.m = 0 ∧ y.m = 0 ∧ x.neg = y.neg then x.neg else rm = 3)
  else ⟨decide (s < 0), s.natAbs, e, false⟩

/-- The exact sum: ∞ − ∞ is an invalid NaN (R81). -/
def Val.add (rm : Rm) : Val → Val → Val
  | .nan i, .nan j => .nan (i || j)
  | .nan i, _ => .nan i
  | _, .nan j => .nan j
  | .inf s, .inf t => if s = t then .inf s else .nan true
  | .inf s, .fin _ => .inf s
  | .fin _, .inf t => .inf t
  | .fin x, .fin y => .fin (Exact.add rm x y)

def Val.negate : Val → Val
  | .nan i => .nan i
  | .inf s => .inf (!s)
  | .fin x => .fin { x with neg := !x.neg }

def Val.isNaN : Val → Bool
  | .nan _ => true
  | _ => false

def Val.invalid : Val → Bool
  | .nan i => i
  | _ => false

/-- The exact sum of a list: a NaN term gives NaN; infinities of both signs give NaN with invalid, beside a NaN term too (R85,
R89). -/
def Val.sum (rm : Rm) (vs : List Val) : Val :=
  let clash := vs.contains (.inf true) && vs.contains (.inf false)
  if vs.any Val.isNaN || clash then .nan (vs.any Val.invalid || clash) else sumFrom rm vs
where
  sumFrom (rm : Rm) : List Val → Val
    | [] => .zero false
    | [v] => v
    | v :: vs => v.add rm (sumFrom rm vs)

/-- Value order of two finite or infinite values: `a < b`, with −0 = +0. -/
def Val.lt : Val → Val → Bool
  | .nan _, _ => false
  | _, .nan _ => false
  | .inf s, .inf t => s && !t
  | .inf s, .fin _ => s
  | .fin _, .inf t => !t
  | .fin x, .fin y =>
    let e := min x.e y.e
    let a : Int := (x.m * 2 ^ (x.e - e).toNat : Nat)
    let b : Int := (y.m * 2 ^ (y.e - e).toNat : Nat)
    decide ((if x.neg then -a else a) < (if y.neg then -b else b))

def Val.isNeg : Val → Bool
  | .nan _ => false
  | .inf s => s
  | .fin x => x.neg

/-- `a` precedes `b` with −0 below +0 (R81). -/
def Val.below (a b : Val) : Bool := a.lt b || (a.isZero && b.isZero && a.isNeg && !b.isNeg)

/-- Minimum or maximum of R81 on bit patterns: minimumNumber and maximumNumber, invalid from a signalling NaN. A
number is returned as its value's own bits. -/
def Fmt.minMax (f : Fmt) (isMax ftz : Bool) (a b : Nat) : Nat × FpFlags :=
  let x := f.decode ftz a
  let y := f.decode ftz b
  let fl : FpFlags := if x.invalid || y.invalid then flagInvalid else 0
  match x, y with
  | .nan _, .nan _ => (f.canonNaN, fl)
  | .nan _, v => ((f.encode 0 false false v).1, fl)
  | v, .nan _ => ((f.encode 0 false false v).1, fl)
  | v, w =>
    let pick := if isMax then (if v.below w then w else v) else (if w.below v then w else v)
    ((f.encode 0 false false pick).1, fl)

/-! ## Integer elements (R75, R82) -/

/-- The integer an element's bits stand for. -/
def intOf (signed : Bool) (w b : Nat) : Int := if signed ∧ b ≥ 2 ^ (w - 1) then (b : Int) - 2 ^ w else b

/-- Wrapping modulo 2^w, or clamping to the element's range with .sat (R82). -/
def narrow (signed sat : Bool) (w : Nat) (x : Int) : Nat :=
  let lo : Int := if signed then -(2 ^ (w - 1) : Nat) else 0
  let hi : Int := if signed then (2 ^ (w - 1) : Nat) - 1 else (2 ^ w : Nat) - 1
  if sat ∧ x < lo then (lo % 2 ^ w).toNat
  else if sat ∧ x > hi then (hi % 2 ^ w).toNat
  else (x % 2 ^ w).toNat

/-! ## Conversions (R83) -/

/-- The codebook of QC4 (R77). -/
def qc4Level (c : Nat) : Int :=
  ([-127, -88, -67, -50, -36, -23, -11, 0, 10, 20, 31, 43, 56, 72, 92, 127] : List Int).getD c 0

/-- The integer an integer or QC4 element stands for (R75, R77). -/
def elemInt (t : BitVec 4) (b : Nat) : Int :=
  if t = tagQC4 then qc4Level b else intOf (tagIsSigned t) (tagWidth t) b

/-- What a conversion reads: an element of a tag as a value, E8 as its power of two (R76, R83). -/
def elemValue (t : BitVec 4) (ftz : Bool) (b : Nat) : Val :=
  if tagIsFloat t then (tagFmt t).decode ftz b
  else if t = tagE8 then
    if b = 255 then .nan false
    else .fin ⟨false, 1, (b : Int) - 127, false⟩
  else .fin (Exact.ofInt (elemInt t b))

/-- The code of R83's E8 row: 0x00, which stands for 2^-127, is not exact for ±0. NaN and ±∞ raise nothing (assumption 76). -/
def convertE8 : Val → Nat × FpFlags
  | .nan _ => (0xFF, 0)
  | .inf _ => (0xFF, 0)
  | .fin x =>
    if x.m = 0 then (0, flagInexact)
    else
      let lead : Int := x.e + (Nat.log2 x.m : Int)
      let code := (max 0 (min 254 (lead + 127))).toNat
      (code, if x.m = 2 ^ Nat.log2 x.m ∧ lead = (code : Int) - 127 then 0 else flagInexact)

/-- A value rounded to an integer destination (R83). -/
def convertInt (dt : BitVec 4) (rm : Rm) (sat : Bool) : Val → Nat × FpFlags
  | .nan _ => (0, flagInvalid)
  | .inf s =>
    if sat then
      (narrow (tagIsSigned dt) true (tagWidth dt) (if s then -(2 ^ 40 : Nat) else (2 ^ 40 : Nat)), flagInvalid)
    else (0, flagInvalid)
  | .fin x =>
    let (n, inx) := x.roundAt rm 0
    let i : Int := if x.neg then -(n : Int) else n
    let w := tagWidth dt
    let signed := tagIsSigned dt
    let lo : Int := if signed then -(2 ^ (w - 1) : Nat) else 0
    let hi : Int := if signed then (2 ^ (w - 1) : Nat) - 1 else (2 ^ w : Nat) - 1
    if lo ≤ i ∧ i ≤ hi then (narrow signed false w i, if inx then flagInexact else 0)
    else (narrow signed sat w i, flagInvalid)

/-- A value converted to a floating destination (R83). -/
def convertFloat (f : Fmt) (rm : Rm) (sat ftz : Bool) : Val → Nat × FpFlags
  | .nan i => (f.canonNaN, if i then flagInvalid else 0)
  | .inf s =>
    let sb := if s then f.signBit else 0
    if sat then (sb + f.largest, 0)
    else if f.e4m3 then (sb + 0x7F, flagInvalid)
    else (sb + f.top * 2 ^ f.fb, 0)
  | .fin x => f.round rm sat ftz x

/-- convert(x, dt, rm, sat) of one element of tag `st` (R83). Integer to integer keeps the low bits, or clamps; a QC4
level is an integer. -/
def convertElem (st dt : BitVec 4) (rm : Rm) (sat ftz : Bool) (b : Nat) : Nat × FpFlags :=
  if tagIsFloat dt then convertFloat (tagFmt dt) rm sat ftz (elemValue st ftz b)
  else if dt = tagE8 then convertE8 (elemValue st ftz b)
  else if tagIsInt st || st = tagQC4 then (narrow (tagIsSigned dt) sat (tagWidth dt) (elemInt st b), 0)
  else convertInt dt rm sat (elemValue st ftz b)

/-- A value rounded to F32 by RNE, without FTZ and flags (R89, R95). -/
def roundF32 (v : Val) : Nat := (fmtF32.encode 0 false false v).1

/-- The value of F32 bits, subnormals honoured. -/
def valF32 (b : Nat) : Val := fmtF32.decode false b

end Sys2Proof.Machine
end

