-- ==== Sys2Proof/Machine/LaneMath.lean ====
section
/-! DEFINITION. One lane's results of the tag-generic instructions: element arithmetic, shifts, bit fields, comparisons,
packing and reductions (R324-R419). No state is read here. -/

namespace Sys2Proof.Machine

/-- What an element operation needs beside its operands: RM, SAT and the team's FTZ. -/
structure FpMode where
  rm : Rm
  sat : Bool
  ftz : Bool
  deriving DecidableEq, Repr

/-- An operand of one lane: register bits in the common tag's layout, or an immediate, which stands for its integer
value in every element of an arithmetic instruction (R324). -/
inductive LaneOpnd where
  | bits (b : Nat)
  | imm (i : Int)
  deriving DecidableEq, Repr

/-- Element `e` of an operand as an exact value of tag `t` (R324). -/
def LaneOpnd.val (o : LaneOpnd) (t : BitVec 4) (ftz : Bool) (e : Nat) : Val :=
  match o with
  | .bits b => elemValue t ftz (elem (tagWidth t) e b)
  | .imm i => .fin (Exact.ofInt i)

/-- Element `e` of an operand as an integer of tag `t` (R324). -/
def LaneOpnd.int (o : LaneOpnd) (t : BitVec 4) (e : Nat) : Int :=
  match o with
  | .bits b => intOf (tagIsSigned t) (tagWidth t) (elem (tagWidth t) e b)
  | .imm i => i

/-- The 32 bits of an operand, an immediate sign-extended. -/
def LaneOpnd.raw (o : LaneOpnd) : Nat :=
  match o with
  | .bits b => b % 2 ^ 32
  | .imm i => (i % 2 ^ 32).toNat

/-- Every element's result, packed, with the flags ORed (R80, R324). -/
def eachElem (t : BitVec 4) (f : Nat → Nat × FpFlags) : Nat × FpFlags :=
  let rs := (List.range (tagCount t)).map f
  (packElems (tagWidth t) (rs.map Prod.fst), rs.foldl (fun a r => a ||| r.2) 0)

/-- An arithmetic element result: floating tags round the exact value, integer tags narrow the exact integer. -/
def arithElem (m : FpMode) (t : BitVec 4) (fv : Unit → Val) (iv : Unit → Int) : Nat × FpFlags :=
  if tagIsFloat t then (tagFmt t).encode m.rm m.sat m.ftz (fv ())
  else (narrow (tagIsSigned t) m.sat (tagWidth t) (iv ()), 0)

/-- ADD of R329 in one lane. -/
def laneAdd (m : FpMode) (t : BitVec 4) (a b : LaneOpnd) : Nat × FpFlags :=
  eachElem t fun e => arithElem m t (fun _ => (a.val t m.ftz e).add m.rm (b.val t m.ftz e)) (fun _ => a.int t e + b.int t e)

/-- SUB of R412 in one lane. -/
def laneSub (m : FpMode) (t : BitVec 4) (a b : LaneOpnd) : Nat × FpFlags :=
  eachElem t fun e => arithElem m t (fun _ => (a.val t m.ftz e).add m.rm (b.val t m.ftz e).negate)
    (fun _ => a.int t e - b.int t e)

/-- MUL of R381 in one lane. -/
def laneMul (m : FpMode) (t : BitVec 4) (a b : LaneOpnd) : Nat × FpFlags :=
  eachElem t fun e => arithElem m t (fun _ => (a.val t m.ftz e).mul (b.val t m.ftz e)) (fun _ => a.int t e * b.int t e)

/-- FMA of R363 in one lane. -/
def laneFma (m : FpMode) (t : BitVec 4) (a b c : LaneOpnd) : Nat × FpFlags :=
  eachElem t fun e => arithElem m t
    (fun _ => ((a.val t m.ftz e).mul (b.val t m.ftz e)).add m.rm (c.val t m.ftz e))
    (fun _ => a.int t e * b.int t e + c.int t e)

/-- MULHI of R382 in one lane: bits [2w−1:w] of the exact product. -/
def laneMulhi (t : BitVec 4) (a b : LaneOpnd) : Nat :=
  (eachElem t fun e =>
    (((a.int t e * b.int t e) / (2 ^ tagWidth t : Nat) % (2 ^ tagWidth t : Nat)).toNat, 0)).1

/-- MIN and MAX of R373 in one lane. An immediate stands for its value in the element's format. -/
def laneMinMax (isMax : Bool) (m : FpMode) (t : BitVec 4) (a b : LaneOpnd) : Nat × FpFlags :=
  eachElem t fun e =>
    if tagIsFloat t then
      let x := a.val t m.ftz e
      let y := b.val t m.ftz e
      let fl : FpFlags := if x.invalid || y.invalid then flagInvalid else 0
      let f := tagFmt t
      match x, y with
      | .nan _, .nan _ => (f.canonNaN, fl)
      | .nan _, v => let r := f.encode m.rm false m.ftz v; (r.1, r.2 ||| fl)
      | v, .nan _ => let r := f.encode m.rm false m.ftz v; (r.1, r.2 ||| fl)
      | v, w =>
        let pick := if isMax then (if v.below w then w else v) else (if w.below v then w else v)
        let r := f.encode m.rm false m.ftz pick
        (r.1, r.2 ||| fl)
    else
      let x := a.int t e
      let y := b.int t e
      (narrow (tagIsSigned t) false (tagWidth t) (if isMax then max x y else min x y), 0)

/-- ABS of R327 in one lane. -/
def laneAbs (sat : Bool) (t : BitVec 4) (a : Nat) : Nat :=
  let w := tagWidth t
  (eachElem t fun e =>
    let x := elem w e a
    if tagIsFloat t then (x % 2 ^ (w - 1), 0)
    else (narrow (tagIsSigned t) sat w ((intOf (tagIsSigned t) w x).natAbs : Int), 0)).1

/-- NEG of R385 in one lane. -/
def laneNeg (sat : Bool) (t : BitVec 4) (a : Nat) : Nat :=
  let w := tagWidth t
  (eachElem t fun e =>
    let x := elem w e a
    if tagIsFloat t then ((x + 2 ^ (w - 1)) % 2 ^ w, 0)
    else (narrow (tagIsSigned t) sat w (-intOf (tagIsSigned t) w x), 0)).1

/-- The accumulator tag of DOT (R85). -/
def dotAcc (t : BitVec 4) : Option (BitVec 4) :=
  if tagIsFloat t then some tagF32 else if tagIsSigned t then some tagI32 else if tagIsNatural t then some tagN32 else none

/-- DOT of R353 in one lane: accumulator plus the products, formed exactly and rounded once. -/
def laneDot (m : FpMode) (t : BitVec 4) (acc : Nat) (a b : LaneOpnd) : Nat × FpFlags :=
  let es := List.range (tagCount t)
  if tagIsFloat t then
    fmtF32.encode m.rm m.sat m.ftz
      (Val.sum m.rm ((valOfAcc m acc) :: es.map fun e => (a.val t m.ftz e).mul (b.val t m.ftz e)))
  else
    let s := es.foldl (fun s e => s + a.int t e * b.int t e) (intOf (tagIsSigned t) 32 acc)
    (narrow (tagIsSigned t) m.sat 32 s, 0)
where
  valOfAcc (m : FpMode) (acc : Nat) : Val := fmtF32.decode m.ftz acc

/-- ACS of R328 in one lane. -/
def laneAcs (sat : Bool) (t : BitVec 4) (a b c : Nat) : Nat :=
  let w := tagWidth t
  let sg := tagIsSigned t
  (eachElem t fun e =>
    let x := intOf sg w (elem w e a)
    let y := intOf sg w (elem w e b)
    let z := intOf sg w (elem w e c)
    let c0 := narrow sg sat w (x + z)
    let c1 := narrow sg sat w (y - z)
    let s : Bool := intOf sg w c1 < intOf sg w c0
    let m := if s then c1 else c0
    (m - m % 2 + (if s then 1 else 0), 0)).1

/-- The amount of a shift: the operand's element read in A's layout, or the immediate, modulo the width (R402). -/
def shiftAmount (t : BitVec 4) (b : LaneOpnd) (e : Nat) : Nat :=
  match b with
  | .bits v => elem (tagWidth t) e v % tagWidth t
  | .imm i => (i % (tagWidth t : Int)).toNat

/-- SHL of R402 in one lane. -/
def laneShl (t : BitVec 4) (a : Nat) (b : LaneOpnd) : Nat :=
  (eachElem t fun e => (elem (tagWidth t) e a * 2 ^ shiftAmount t b e % 2 ^ tagWidth t, 0)).1

/-- SHR of R402 in one lane: arithmetic on I tags, else logical. -/
def laneShr (t : BitVec 4) (a : Nat) (b : LaneOpnd) : Nat :=
  let w := tagWidth t
  (eachElem t fun e =>
    let x := elem w e a
    let k := shiftAmount t b e
    if tagIsSigned t then ((intOf true w x / (2 ^ k : Nat) % (2 ^ w : Nat)).toNat, 0) else (x / 2 ^ k, 0)).1

/-- POS and the field length n of a bit-field control word (R336). -/
def bfField (ctl : Nat) : Nat × Nat :=
  let pos := ctl % 32
  let len := min 32 (ctl / 2 ^ 8 % 64)
  (pos, min len (32 - pos))

/-- BFE of R336 in one lane. -/
def laneBfe (signed : Bool) (a ctl : Nat) : Nat :=
  let (pos, n) := bfField ctl
  let f := a / 2 ^ pos % 2 ^ n
  if signed ∧ n > 0 ∧ f ≥ 2 ^ (n - 1) then f + 2 ^ 32 - 2 ^ n else f

/-- BFI of R336 in one lane. -/
def laneBfi (a ctl c : Nat) : Nat :=
  let (pos, n) := bfField ctl
  c - c / 2 ^ pos % 2 ^ n * 2 ^ pos + a % 2 ^ n * 2 ^ pos

/-- The number of 1 bits of the low `n` bits (R393). -/
def popCount : Nat → Nat → Nat
  | 0, _ => 0
  | n + 1, x => x % 2 + popCount n (x / 2)

/-- Leading zeros of 32 bits (R345). -/
def clz32 (x : Nat) : Nat := if x % 2 ^ 32 = 0 then 32 else 31 - Nat.log2 (x % 2 ^ 32)

/-- The low `n` bits of `x` in reverse order (R341). -/
def revBits : Nat → Nat → Nat
  | 0, _ => 0
  | n + 1, x => x % 2 * 2 ^ n + revBits n (x / 2)

/-- The relation of CMP (R346) and its flags. Conditions: 0 eq, 1 ne, 2 lt, 3 le, 4 gt, 5 ge, 6 num, 7 nan. -/
def laneCmp (cond : Nat) (ftz : Bool) (t : BitVec 4) (a b : LaneOpnd) : Bool × FpFlags :=
  if t = tagF32 then
    let x := a.val t ftz 0
    let y := b.val t ftz 0
    if x.isNaN || y.isNaN then
      (cond = 1 || cond = 7,
        if x.invalid || y.invalid || (2 ≤ cond && cond ≤ 5) then flagInvalid else 0)
    else
      let l := x.lt y
      let g := y.lt x
      (match cond with
        | 0 => !l && !g
        | 1 => l || g
        | 2 => l
        | 3 => !g
        | 4 => g
        | 5 => !l
        | 6 => true
        | _ => false, 0)
  else
    let x := (a.int t 0)
    let y := (b.int t 0)
    (match cond with
      | 0 => x = y
      | 1 => x ≠ y
      | 2 => x < y
      | 3 => x ≤ y
      | 4 => x > y
      | 5 => x ≥ y
      | 6 => true
      | _ => false, 0)

/-- PACK of R389 in one lane. -/
def lanePack (m : FpMode) (st dt : BitVec 4) (a b : Nat) : Nat × FpFlags :=
  let n := tagCount st
  let w := tagWidth st
  eachElem dt fun e =>
    convertElem st dt m.rm m.sat m.ftz (if e < n then elem w e a else elem w (e - n) b)

/-- The tag pairs of PACK (R388). -/
def packPairs (st dt : BitVec 4) : Bool :=
  (st = tagF32 && (dt = tagBF16 || dt = tagF16)) || ((st = tagI32 || st = tagN32) && (dt = tagI16 || dt = tagN16)) ||
  ((st = tagBF16 || st = tagF16) && (dt = tagF8A || dt = tagF8B)) ||
  ((st = tagI16 || st = tagN16) && (dt = tagI8 || dt = tagN8))

/-- UNPACK of R389 in one lane. -/
def laneUnpack (ftz : Bool) (st dt : BitVec 4) (hi : Bool) (a : Nat) : Nat × FpFlags :=
  let h := tagCount st / 2
  eachElem dt fun e => convertElem st dt 0 false ftz (elem (tagWidth st) ((if hi then h else 0) + e) a)

/-- The tag pairs of UNPACK (R388). -/
def unpackPairs (st dt : BitVec 4) : Bool :=
  ((st = tagBF16 || st = tagF16) && dt = tagF32) || (st = tagI16 && dt = tagI32) || (st = tagN16 && dt = tagN32) ||
  ((st = tagF8A || st = tagF8B) && (dt = tagBF16 || dt = tagF16)) || (st = tagI8 && dt = tagI16) ||
  (st = tagN8 && dt = tagN16) || (st = tagQC4 && dt = tagI8)

/-! ## Reductions (R92, R418, R419) -/

/-- One level of the pairwise tree: neighbours combine, the lower lane on the left. -/
def pairUp (f : α → α → α) : List α → List α
  | a :: b :: r => f a b :: pairUp f r
  | l => l

/-- The fixed tree of R92 over 32 leaves: five levels. -/
def treeReduce (f : α → α → α) (xs : List α) : List α := pairUp f (pairUp f (pairUp f (pairUp f (pairUp f xs))))

/-- The identity of ADD, MIN and MAX (0, 1, 2) for one element of tag `t` (R92, R418). -/
def redIdentity (op : Nat) (t : BitVec 4) : Nat :=
  let w := tagWidth t
  if tagIsFloat t then
    let f := tagFmt t
    if op = 0 then f.signBit
    else if f.e4m3 then 0x7F
    else if op = 1 then f.top * 2 ^ f.fb
    else f.signBit + f.top * 2 ^ f.fb
  else if op = 0 then 0
  else if op = 1 then (if tagIsSigned t then 2 ^ (w - 1) - 1 else 2 ^ w - 1)
  else (if tagIsSigned t then 2 ^ (w - 1) else 0)

/-- A node of XRED.ADD, .MIN or .MAX: every element position on its own (R92). -/
def redNode (op : Nat) (m : FpMode) (t : BitVec 4) (x y : Nat × FpFlags) : Nat × FpFlags :=
  let r := if op = 0 then laneAdd m t (.bits x.1) (.bits y.1) else laneMinMax (op = 2) m t (.bits x.1) (.bits y.1)
  (r.1, r.2 ||| x.2 ||| y.2)

/-- XRED of ADD, MIN, MAX, AND, OR, XOR (0-5) over 32 leaves, `none` for a lane that takes no part (R419). -/
def xredValue (op : Nat) (m : FpMode) (t : BitVec 4) (leaves : List (Option Nat)) : Nat × FpFlags :=
  if op ≤ 2 then
    let ident := packElems (tagWidth t) (List.replicate (tagCount t) (redIdentity op t))
    (treeReduce (redNode op m t) (leaves.map fun o => (o.getD ident, 0))).headD (ident, 0)
  else
    let ident := if op = 3 then 0xFFFFFFFF else 0
    let f := fun x y : Nat => if op = 3 then x &&& y else if op = 4 then x ||| y else x ^^^ y
    ((treeReduce f (leaves.map fun o => o.getD ident)).headD ident, 0)

/-- Does key (a) precede key (b) in MINI's or MAXI's order (R419)? A NaN ranks last in both. -/
def keyBefore (isMax : Bool) (ftz : Bool) (t : BitVec 4) (a b : Nat) : Bool :=
  if t = tagF32 then
    let x := fmtF32.decode ftz a
    let y := fmtF32.decode ftz b
    if x.isNaN then false else if y.isNaN then true
    else if isMax then y.below x else x.below y
  else
    let x := intOf (tagIsSigned t) 32 a
    let y := intOf (tagIsSigned t) 32 b
    if isMax then decide (y < x) else decide (x < y)

/-- MINI and MAXI over 32 leaves: value, index and flags (R419). -/
def xredIndex (isMax : Bool) (m : FpMode) (t : BitVec 4) (leaves : List (Option Nat)) : Nat × Nat × FpFlags :=
  let step := fun (acc : Option (Nat × Nat)) (p : Option Nat × Nat) =>
    match p.1, acc with
    | none, acc => acc
    | some v, none => some (v, p.2)
    | some v, some (w, i) => if keyBefore isMax m.ftz t v w then some (v, p.2) else some (w, i)
  let fl : FpFlags :=
    if t = tagF32 ∧ leaves.any (fun o => o.any fun v => (fmtF32.decode m.ftz v).invalid) then flagInvalid else 0
  match leaves.zipIdx.foldl step none with
  | none => (redIdentity (if isMax then 2 else 1) t, 32, fl)
  | some (v, i) =>
    if t = tagF32 then ((fmtF32.encode 0 false m.ftz (quiet (fmtF32.decode m.ftz v))).1, i, fl) else (v, i, fl)
where
  quiet : Val → Val
    | .nan _ => .nan false
    | v => v

end Sys2Proof.Machine
end

