-- ==== Sys2Proof/Machine/State.lean ====
section
/-! DEFINITION. The machine's state as plain data: groups and paths, teams and launches, cores, clusters, dies, package
tables, pending accesses and physical memory; the reasons a step can stop; the state right after package reset. -/

namespace Sys2Proof.Machine

/-- A sparse table: key and entry, rising keys, no entry equal to the table's default (assumption 11). -/
abbrev Map (α : Type) := List (Nat × α)

/-- Why a step of the model stops. -/
inductive Fault where
  /-- A program instruction was given to `exec` while the named group slot holds no path of that index. Raised by
  `exec` alone: `step` never runs a program instruction without a path. Safe: no machine runs such an instruction. -/
  | noIssuingPath
  deriving DecidableEq, Repr

/-- Why a step of the model is refused. -/
inductive Refusal where
  /-- The instruction has no meaning yet in the model. Raised by `exec`'s arm of that instruction. Safe. -/
  | notModelled (mnemonic : String)
  deriving DecidableEq, Repr

/-! ## Registers, paths and groups -/

/-- One lane's vector register: 32 bits and the format tag (R37, R40). -/
structure VReg where
  bits : Word
  tag : BitVec 4
  deriving DecidableEq, Repr

/-- The level a path runs at (R254). -/
inductive Level where
  | normal
  | user
  | supervisor
  deriving DecidableEq, Repr

/-- A register file that a fixed-latency result is written to (R63). -/
inductive RegFile where
  | vector
  | scalar
  | predicate
  deriving DecidableEq, Repr

/-- A fixed-latency result not yet readable (R63, R65): where it went, the lanes that wrote it, the encoded distance
still missing in those lanes, the clk at which another path sees it (R39), and what the register held before. -/
structure Hazard where
  file : RegFile
  idx : Nat
  lanes : BitVec 32
  left : Nat
  doneAt : Nat
  old : Map VReg
  deriving DecidableEq, Repr

/-- The checker state a group carries (R151); the clock itself is its slot's (R152). -/
structure Checker where
  vec : Map (BitVec 16)
  know : List (BitVec 20 × BitVec 16)
  ovf : BitVec 8
  lb : Map Word
  emax : Word
  pend : Bool
  deriving DecidableEq, Repr

/-- A sync record of a granule (R157); `lossy` says that its KNOW had to drop entries (assumption 83). -/
structure SyncRec where
  gran : Nat
  run : Nat
  agent : BitVec 20
  team : Word
  group : Nat
  clock : BitVec 16
  scope : Nat
  vec : Map (BitVec 16)
  know : List (BitVec 20 × BitVec 16)
  lossy : Bool
  used : Nat
  deriving DecidableEq, Repr

/-- An interlocked result that a near-threshold island returns 8 clk later: register and the clk from which it can be read
(R64, R187). -/
structure SlowReg where
  file : RegFile
  idx : Nat
  at_ : Nat
  deriving DecidableEq, Repr

/-- Who makes an access and how it is judged: the group, its identity, run and team, its clock and checker state at the
access's issue, the race mode of that moment and whether it has user rights (R139, R152, R160, R163). -/
structure Actor where
  slot : Nat
  path : Nat
  pc : Addr
  agent : BitVec 20
  run : Nat
  tid : Nat
  team : Word
  index : Nat
  ctx : Nat
  core : Nat
  clock : BitVec 16
  chk : Checker
  mode : BitVec 2
  mask : BitVec 32
  user : Bool
  deriving DecidableEq, Repr

/-- The storage a bound address names (R96, R101, R256). -/
inductive Space where
  | memory
  | opm
  | frame
  | mailbox
  deriving DecidableEq, Repr

/-- One lane of an access: its virtual address, where it is bound (physical byte, OPM address, frame byte or mailbox
byte), whether translation is done, and the data or compare value. -/
structure LaneAcc where
  lane : Nat
  va : Addr
  space : Space
  pa : Nat
  bound : Bool
  data : Nat
  cmp : Nat
  deriving DecidableEq, Repr

/-- The kinds of issued access (R35, R116, R118, R127). -/
inductive MemKind where
  | load
  | sload
  | store
  | atom
  | mred
  deriving DecidableEq, Repr

/-- An access that has issued and not yet performed: a load awaiting its data, a store in the store queue, an ATOM on
its way home, MRED contributions on their way to their partials (R35, R127). `relScope` is the scope of the completed .ar
fence that it follows, 0 for none (R133, R157), `again` counts its re-issues (R279). -/
structure MemOp where
  seq : Nat
  kind : MemKind
  who : Actor
  w0 : Word
  w1 : Word
  lanes : List LaneAcc
  size : Nat
  dst : Nat
  regs : Nat
  tag : BitVec 4
  acq : Bool
  rel : Bool
  scope : Nat
  op : Nat
  fmt : Nat
  relScope : Nat
  again : Nat
  held : Bool
  reported : Bool
  faultVa : Addr
  exited : Bool
  deriving DecidableEq, Repr

/-- What a path is parked on (R22, R269), with the registers its completion writes and its instruction's stall. -/
inductive Wait where
  /-- FWAIT, or the wait within FENCE: the fence's serial (R135). -/
  | fence (serial : Nat)
  /-- BAR: handle, and Sd unless ND (R224). -/
  | bar (handle : Nat) (sd : Option Nat)
  /-- MONW: location, operand and result register; the deadline on clk, none for no timeout (R218); the race mode of its
  issue (R164). -/
  | monw (va : Addr) (pa : Nat) (wide : Bool) (cmp : Nat) (signed : Bool) (value : Nat) (deadline : Option Nat)
      (sd : Nat) (scope : Nat) (mode : BitVec 2)
  /-- CPWAIT: object address and Sd (R216). -/
  | cpwait (obj : Addr) (sd : Nat)
  /-- MWAIT: batch number and Sd (R198). -/
  | mwait (batch : Nat) (sd : Nat)
  /-- EWAIT: token and Sd (R179). -/
  | ewait (token : Word) (sd : Nat)
  /-- A blocking LEASE: the lease (R175). -/
  | lease (uid : Nat) (sd : Nat)
  /-- LREL: the lease to end when its operations complete (R175). -/
  | lrel (uid : Nat) (ret : Bool)
  /-- EPUSH: edge, value, status register (R228). -/
  | epush (va : Addr) (value : BitVec 64) (sd : Nat)
  /-- EPOP: edge, value pair, status register (R228). -/
  | epop (va : Addr) (sd sc : Nat)
  /-- A blocking ENQ: queue, record address, status register (R236). -/
  | enq (q : Nat) (rec : Addr) (sd : Nat)
  /-- RELAUNCH awaiting its selection: handle, mode, object, snapshot and result pair (R291). -/
  | relaunch (obj : Addr) (run count sd : Nat)
  deriving DecidableEq, Repr

/-- A trap frame's fields that software cannot change, and its replay queue (R257, R258). -/
structure Frame where
  pc : Addr
  mask : BitVec 32
  cause : Word
  nested : Bool
  replays : List MemOp
  heldStore : Option Nat
  serial : Nat
  deriving DecidableEq, Repr

/-- A side on a reconvergence stack (R21, R22); a side that parked before it was pushed keeps its wait. -/
structure Side where
  pc : Addr
  mask : BitVec 32
  wait : Option Wait
  deriving DecidableEq, Repr

/-- One path of a group (R17, R20-R23, R254). `hstack` is the current handler's stack, `ustack` the user handler's while a
supervisor handler runs on top of it (R259); `waitFrom` is the clk since which it has been ready without issuing (R31). -/
structure Path where
  pc : Addr
  mask : BitVec 32
  stack : List Side
  hstack : List Side
  ustack : List Side
  level : Level
  wait : Option Wait
  readyAt : Nat
  heldSince : Option Nat
  exempt : Bool
  shielded : Bool
  runSince : Nat
  yieldUntil : Nat
  cause : Word
  userFrame : Option Frame
  supFrame : Option Frame
  dbgHeld : Bool
  holdReq : Bool
  blocked : Option Nat
  late : List Nat
  refuseGrow : Bool
  waitFrom : Option Nat
  deriving DecidableEq, Repr

/-- The EMU block of a group (R61). -/
structure Emu where
  w0 : Word
  w1 : Word
  pc : Addr
  next : Addr
  dec : Word
  ops : Word
  mask : Word
  imm : Word
  cls : Word
  busy : Option Nat
  deriving DecidableEq, Repr

/-- An outstanding fence: serial, kind (0 .ar, 1 .acq), scope, and the accesses it covers (R135, R137). -/
structure Fence where
  serial : Nat
  kind : Nat
  scope : Nat
  covers : List Nat
  deriving DecidableEq, Repr

/-- A pending barrier arrival of a group: handle, made by BAR.a, and once released the domain, the barrier number and the
clocks that the team's arrivals published (R224, R155). -/
structure Arrival where
  handle : Nat
  split : Bool
  released : Bool
  domain : Nat
  number : Word
  clocks : Map (BitVec 16)
  deriving DecidableEq, Repr

/-- A closed batch: its number and its operations (R198). -/
structure Batch where
  num : Nat
  ops : List Nat
  deriving DecidableEq, Repr

/-- A resident group (R17, R37, R151). `acqLoads` holds the records that its loads have read since its last acquire, none for
a lost one (R158); `fenceGate` names, by path, the fence that must complete before the path's next may begin (R135). -/
structure Group where
  tid : Nat
  index : Nat
  alloc : Nat
  live : BitVec 32
  v : Map VReg
  s : Map Word
  p : Map Word
  paths : Map Path
  emu : Emu
  leases : Map Nat
  openSet : List Nat
  batchNo : Nat
  batches : List Batch
  fences : List Fence
  fenceSerial : Nat
  chk : Checker
  relScope : Nat
  acqLoads : List (Option SyncRec)
  fenceGate : Map Nat
  arrivals : List Arrival
  hazards : List Hazard
  slow : List SlowReg
  mmaP : Nat
  deriving DecidableEq, Repr

/-- The state of an incarnation in a slot's agent directory (R153). -/
inductive DirState where
  | resident
  | departed
  | done
  deriving DecidableEq, Repr

/-- One agent directory entry (R153). -/
structure DirEntry where
  run : Nat
  team : Word
  group : Nat
  start : BitVec 16
  state : DirState
  deriving DecidableEq, Repr

/-- One group slot: incarnation, clock, directory and the resident group (R19, R152, R153). -/
structure Slot where
  inc : BitVec 5
  clock : BitVec 16
  dir : Map DirEntry
  aging : Bool
  group : Option Group
  deriving DecidableEq, Repr

/-! ## Teams and launches -/

/-- An open slice set (R208). -/
structure SliceSet where
  desc : Addr
  slices : List Nat
  after : List (Actor × Nat)
  dir : Nat
  rcd : BitVec 64
  dg : Bool
  bytes : List Byte
  obj : Addr
  bad : Bool
  deriving DecidableEq, Repr

/-- A team's trace: the tiles it has read, as runs of tiles, and its two marks (R281, R282). -/
structure Trace where
  runs : List (Nat × Nat)
  always : Bool
  nonreplay : Bool
  deriving DecidableEq, Repr

/-- A resident team (R24, R25); `raised` holds the exception flags raised at a clk (R46). Its scratch stands at `scrBase` of
its core's scratch table, and in the physical 2 KiB units `scrAt` (R25, R98). -/
structure Team where
  run : Nat
  num : Word
  core : Nat
  slots : List Nat
  freed : List Nat
  groups : Nat
  scrBase : Nat
  scrUnits : Nat
  scrAt : List Nat
  tiles : List Nat
  fpctl : Word
  raised : Nat × BitVec 5
  raceMode : BitVec 2
  hint : BitVec 17
  ret : BitVec 64
  rtime : Nat
  since : Nat
  trace : Trace
  slices : List SliceSet
  drainBy : Option Nat
  saveBy : Option Nat
  saveAt : Option (Nat × Nat)
  lostHandles : List Word
  deriving DecidableEq, Repr

/-- Where a run stands (R232, R36). -/
inductive RunStatus where
  | queued
  | head
  | dispatched
  | complete
  deriving DecidableEq, Repr

/-- One run of a launch (R153, R233, R234, R292). Ranges of units are half-open pairs (R238). `know` is what its enqueuer knew
and published, `left` what its groups had learned when they left (R143); `homes` the cluster or die of each instance of a
declared level (R26); `toAge` the marks that age since its LE last reached a multiple of 64 (R156). -/
structure Run where
  lid : Word
  runNo : Word
  ctx : Nat
  part : Nat
  queue : Nat
  record : List Byte
  le : Word
  leAging : Bool
  toAge : List (Nat × BitVec 64)
  status : RunStatus
  fault : Bool
  lost : Bool
  pkgRange : List (Nat × Nat)
  dieRanges : Map (List (Nat × Nat))
  cluRanges : Map (List (Nat × Nat))
  ageFrom : Nat
  paused : Nat
  pausedSince : Option Nat
  doneTeams : List Nat
  retSum : Nat
  restarts : Map Nat
  sel : Option (List Nat)
  cobj : Addr
  watch : Option Word
  wver : Option Nat
  miss : Map Nat
  guarded : Option Nat
  know : List (BitVec 20 × BitVec 16)
  left : List (BitVec 20 × BitVec 16)
  homes : Map Nat
  deriving DecidableEq, Repr

/-! ## Engines, leases and current -/

/-- Codes of a lease's state (R173). -/
inductive LeaseState where
  | queued
  | waking
  | held
  | notice
  | revoked
  deriving DecidableEq, Repr

/-- A lease (R172, R175): its class queue, entry, serial, holder, requested and assigned unit, and its timers. `ctx` is the
holder's context, or 512 + partition for the weight-set manager of a partition (R320, assumption 100). -/
structure Lease where
  cls : Nat
  place : Nat
  qidx : Nat
  serial : BitVec 16
  tid : Nat
  slot : Nat
  index : Nat
  lslot : Nat
  ctx : Nat
  want : Nat
  since : Nat
  aged : Bool
  state : LeaseState
  unit : Nat
  grantAt : Nat
  heldAt : Nat
  wakeAt : Nat
  revokeAt : Nat
  opser : Nat
  deriving DecidableEq, Repr

/-- A unit of a class queue: the retaining team, whether it passes on awake, and the lease it runs under (R177). -/
structure UnitState where
  lease : Option Nat
  retained : Option Nat
  warm : Bool
  deriving DecidableEq, Repr

/-- Who asks the current arbiter (R183). -/
inductive CqOwner where
  | lease (uid : Nat)
  | order (core op : Nat)
  | eng (op : Nat)
  | copy (id : Nat)
  deriving DecidableEq, Repr

/-- A waiting request or a granted reservation (R183, R184). -/
structure Cq where
  owner : CqOwner
  need : Nat
  siding : Bool
  prio : Nat
  since : Nat
  aged : Bool
  deriving DecidableEq, Repr

/-- An ENG operation of a lease: its token, and the access number below which its group's accesses precede it (R138,
R180-R182). -/
structure EngOp where
  lease : Nat
  cls : Nat
  token : Word
  after : Nat
  desc : Addr
  who : Actor
  started : Bool
  startAt : Nat
  parked : Option Addr
  status : Option Nat
  out : List (Nat × List Byte)
  outStatus : Nat
  feed : Bool
  deriving DecidableEq, Repr

/-- The operations of the engine order (R197). -/
inductive MatKind where
  | bld
  | mma
  | mv
  | tdrn
  | tzero
  | tmov
  deriving DecidableEq, Repr

/-- A B slot's load: its tag, K, structured sparsity N (0 for none), vector count (0 for none), and the rows with the
side store (R188). -/
structure BLoad where
  tag : Nat
  k : Nat
  sparse : Nat
  vecs : Nat
  rows : List (List Byte)
  trailer : List Byte
  deriving DecidableEq, Repr

/-- One operation of a core's engine order (R192-R205). `read` says that it has read its scratch rows, `steps` holds the
tile words that each of its steps but the last leaves (R185); tile 16 and slot 4 name none. -/
structure MatOp where
  kind : MatKind
  who : Actor
  after : Nat
  mask : BitVec 32
  tile : Nat
  tile2 : Nat
  bslot : Nat
  rcd : BitVec 64
  mods : BitVec 6
  desc : Addr
  ids : List Word
  sb : Word
  vd : Nat
  dtag : Nat
  seqP : Nat
  read : Bool
  readyAt : Option Nat
  startAt : Option Nat
  endsAt : Nat
  parked : Option Addr
  status : Option Nat
  steps : List (Map Word)
  outTile : Map Word
  outBytes : List (Nat × List Byte)
  outRegs : List (Nat × Nat × Word)
  load : Option BLoad
  outStatus : Nat
  deriving DecidableEq, Repr

/-- A posted copy (R208-R213). `opm` lists the on-chip ranges of its box (R100); `again` lists the sectors that a restore
or a replay has yet to issue again (R114, R273); `feedOp` is the DIGEST operation that a digest-verified copy feeds, `checked` whether its digest
has been compared (R212). -/
structure CopyOp where
  core : Nat
  who : Actor
  after : List (Actor × Nat)
  opm : List (Nat × Nat)
  dir : Nat
  rcd : BitVec 64
  dg : Bool
  lease : Option Nat
  desc : List Byte
  obj : Addr
  total : Nat
  next : Nat
  inflight : List Nat
  parked : List (Nat × Addr)
  again : List Nat
  landed : Nat
  feed : Map (List Byte)
  feedOp : Option Nat
  checked : Bool
  failed : Bool
  deriving DecidableEq, Repr

/-! ## Memory-side structures -/

/-- An Update-only partial: a word of a line with its operation, format, value and contributors (R116). -/
structure Partial where
  op : Nat
  fmt : Nat
  value : Nat
  who : List (Actor × Nat)
  deriving DecidableEq, Repr

/-- What a MONW's entry compares its location with (R217). -/
structure MonTest where
  wide : Bool
  cmp : Nat
  signed : Bool
  value : Nat
  deriving DecidableEq, Repr

/-- A monitor entry of the location's slice, or an overflow entry (R218, R219): what a MONW compares, none for an edge or a queue,
and whether a value written since has met it. -/
structure Monitor where
  slot : Nat
  path : Nat
  pa : Nat
  overflow : Bool
  evalAt : Nat
  test : Option MonTest
  met : Bool
  deriving DecidableEq, Repr

/-- One barrier phase: handle, run, domain and instance, the groups arrived (TEAM × 32 + GROUP) with the clocks they
published, and the teams whose message has been counted (R222, R224). -/
structure BarPhase where
  handle : Nat
  run : Nat
  domain : Nat
  inst : Nat
  arrived : Map (BitVec 16)
  counted : List Nat
  deriving DecidableEq, Repr

/-- A translation-cache entry: the context, page base, size log2, physical base and the leaf's bits (R111, R112). -/
structure Tlb where
  ctx : Nat
  va : Nat
  log2 : Nat
  pa : Nat
  bits : Nat
  deriving DecidableEq, Repr

/-- A memory sample that is written once its access completes (R278): the context, the group's slot and agent, the path
with its pc and mask, the launch, the lanes that took effect, the sectors, the re-issues of its request, and the access, none
where it performed at issue. -/
structure Due where
  ctx : Nat
  slot : Nat
  agent : BitVec 20
  path : Nat
  pc : Addr
  mask : BitVec 32
  lid : Word
  lanes : BitVec 32
  sect : Nat
  again : Nat
  seq : Option Nat
  deriving DecidableEq, Repr

/-- One core's storage and engines (R15, R24, R102, R116, R188, R197). `fills` names, for a scratch granule that an
engine's landing filled, the landing's agent and clock (R138); `issued` the clk at which an issue slot, partition x 4 + class,
was last used (R30). -/
structure Core where
  scratch : Map Byte
  full : Map Bool
  fills : Map (BitVec 20 × BitVec 16)
  smarks : Map (BitVec 64)
  srecs : List SyncRec
  slost : List Nat
  tiles : Map Word
  bslots : Map BLoad
  order : Map MatOp
  orderNext : Nat
  partials : Map Partial
  icache : Map (List Byte)
  tlb : List Tlb
  growers : List (Nat × Nat × Nat × Nat)
  memCount : Map Nat
  due : List Due
  issued : Map Nat
  island : Bool
  mvEnd : Option Nat
  deriving DecidableEq, Repr

/-! ## Policy engines -/

/-- A loaded Belino routine on one box (R248). -/
structure Routine where
  words : List Nat
  mbase : Nat
  mlog2 : Nat
  mdie : Nat
  scratch : Map Addr
  fallback : Bool
  overruns : Nat
  deriving DecidableEq, Repr

/-- A candidate as a hook sees it (R243): a head run, a saved unit, or a victim cluster (R239). -/
inductive Cand where
  | run (key : Nat)
  | saved (id : Nat)
  | victim (cluster : Nat)
  | team (tid : Nat)
  deriving DecidableEq, Repr

/-- A phase in progress (R242, R246): registers, program counter, loop counters, cycles, snapshot and decisions. -/
structure Phase where
  key : Nat
  g : Map Addr
  pc : Nat
  cnt : Map Nat
  cycles : Nat
  fields : List (List Addr)
  globals : List Addr
  pick : Option Nat
  prios : List Addr
  prefetch : List Addr
  migrate : Option Nat
  hint : Option Nat
  deriving DecidableEq, Repr

/-- A hook call in progress (R242): hook, subject, whether in phase T, the candidates presented, the context chosen, and
for MIGRATE the run whose unit the thief is to place. -/
structure Call where
  hook : Nat
  subject : Nat
  phaseT : Bool
  cands : List Cand
  ctx : Nat
  hPick : Option Nat
  stealRun : Option Nat
  deriving DecidableEq, Repr

/-- A pending event of a box: hook code and subject (R242). -/
structure HookEvent where
  hook : Nat
  subject : Nat
  deriving DecidableEq, Repr

/-- A signal box (R242-R251). -/
structure Box where
  routines : Map Routine
  events : List HookEvent
  call : Option Call
  phase : Option Phase
  lastCtx : Map Nat
  lastQueue : Map Nat
  hint : Nat
  failed : Bool
  tickAt : Nat
  deriving DecidableEq, Repr

/-- One cluster: its box, arbiter and P-state (R183, R242, R310). -/
structure Cluster where
  box : Box
  reqs : List Cq
  grants : List Cq
  budget : Nat
  share : Nat
  overSince : Option Nat
  vps : Nat
  cap : Nat
  deriving DecidableEq, Repr

/-- One compute die (R1, R122, R317, R318). -/
structure Die where
  mailbox : Map Addr
  ecc : Map (Nat × Nat)
  spares : List Nat
  mboxFailed : Bool
  deriving DecidableEq, Repr

/-! ## Contexts, partitions and the base die -/

/-- One VPS map entry (R309). -/
structure VpsEntry where
  rel : Nat
  mhz : Nat
  budget : Nat
  share : Nat
  deriving DecidableEq, Repr

/-- A partition's configuration (R305) and its reset and P-state state; `resetCmd` counts the units that a PARTRESET being
served has saved and flushed. -/
structure Partition where
  clmask : BitVec 40
  ch0 : Addr
  ch1 : Addr
  lbound : Nat
  sbound : Nat
  priocap : Nat
  vpsdef : Nat
  floor : Nat
  privws : Bool
  sumbase : Addr
  sumfrm : Nat
  sumlen : Nat
  pper : Nat
  resetting : Bool
  resetCmd : Option (Nat × Nat)
  vps : List VpsEntry
  deriving DecidableEq, Repr

/-- The state of a context (R307). -/
inductive CtxState where
  | free
  | active
  | stopped
  | lost
  deriving DecidableEq, Repr

/-- The state of a watch set (R287). -/
inductive WatchState where
  | free
  | assigned
  | relaunching
  deriving DecidableEq, Repr

/-- A registered watch set (R287, R289). -/
structure Watch where
  bmap : Nat
  tbase : Nat
  tlen : Nat
  state : WatchState
  serial : Nat
  at_ : Nat
  run : Nat
  stale : Bool
  deriving DecidableEq, Repr

/-- A sample ring (R278): the physical pieces of its header and of its records, bound when the command started (R301), since
when it samples, and for each core × 4 + partition the last stall period sampled and the rotation among its paths. -/
structure SampleRing where
  pieces : List (Nat × Nat)
  sper : Nat
  memn : Nat
  since : Nat
  done : Map Nat
  turn : Map Nat
  deriving DecidableEq, Repr

/-- A trap area: virtual base, physical base and bytes (R255). -/
structure TrapArea where
  va : Addr
  pa : Nat
  size : Nat
  deriving DecidableEq, Repr

/-- One context (R307). -/
structure Context where
  state : CtxState
  part : Nat
  prio : Nat
  mbDie : Nat
  mbLog2 : Nat
  mbBase : Nat
  ring : Nat
  root : Option Nat
  area : Option TrapArea
  pool : Option (List (Nat × Nat))
  used : List (Nat × Nat)
  bars : Map Word
  watch : Map Watch
  wserial : Nat
  vpsReq : Option Nat
  sample : Option SampleRing
  deriving DecidableEq, Repr

/-- The state of a queue (R230). -/
inductive QState where
  | running
  | broken
  | stopped
  deriving DecidableEq, Repr

/-- A registered queue (R230, R232, R275): `head` is the distributor's own count of accepted records, `edges` the knowledge that
an ENQ published with the record of a TAIL (R143); `line` holds the accepted runs that have not dispatched all their teams. -/
structure Queue where
  ctx : Nat
  hdr : Addr
  dev : Bool
  prio : Nat
  w : Nat
  ring : Addr
  size : Nat
  head : Nat
  edges : Map (List (BitVec 20 × BitVec 16))
  state : QState
  pol : BitVec 8
  line : List Nat
  wdFrom : Nat
  wdFired : Bool
  deriving DecidableEq, Repr

/-- A saved team (R269, R270): its record's offset in the pool with its physical pieces, and what its opaque sections stand for; `chosen` names the cluster that a
PICK decision restores it on. -/
structure Saved where
  tid : Nat
  team : Team
  groups : List Group
  unit : Nat
  addr : Nat
  size : Nat
  pieces : List (Nat × Nat)
  scratch : Map Byte
  full : Map Bool
  smarks : Map (BitVec 64)
  recGran : List Nat
  tiles : Map Word
  mats : List (Nat × MatOp)
  copies : List CopyOp
  held : List MemOp
  at_ : Nat
  part : Nat
  ctx : Nat
  paused : Nat
  pausedSince : Option Nat
  guarded : Option Nat
  miss : Map Nat
  chosen : Option Nat
  frames : List (Nat × Bool × List Byte)
  deriving DecidableEq, Repr

/-- The state of a shard (R320). -/
inductive ShardState where
  | checking
  | valid
  | tiered
  | corrupt
  | absent
  deriving DecidableEq, Repr

/-- A shard of a weight-set version (R319, R320). -/
structure Shard where
  off : Nat
  size : Nat
  digest : BitVec 256
  state : ShardState
  tier : Bool
  checkedAt : Nat
  deriving DecidableEq, Repr

/-- A version of a weight set (R319, R322): its number, its storage and size in 2 MiB units, and how many of them it holds
in channel-group memory. -/
structure WVer where
  num : Nat
  pa : Nat
  units : Nat
  resident : Nat
  shards : List Shard
  boundAt : Nat
  deriving DecidableEq, Repr

/-- A weight set of a context or of a partition (R319). -/
structure WSet where
  byPart : Bool
  owner : Nat
  num : Nat
  base : Nat
  units : Nat
  current : Option Nat
  next : Nat
  versions : List WVer
  deriving DecidableEq, Repr


/-- The command being served: ring (512 is the hypervisor's), and where it stands in physical memory (R299). -/
structure CmdAt where
  ring : Nat
  pa : Nat
  deriving DecidableEq, Repr

/-- The TVL link (R298). -/
structure Link where
  fails : Nat
  retraining : Option Nat
  retrains : Nat
  down : Bool
  deriving DecidableEq, Repr

/-- A write of the hardware to a trace region that waits for its page (R114, R286): the run, the team, the address, what it
writes, bytes or the mark of the team on a tile of the filter, the fault's kind, and whether it has been reported. -/
structure RegionWrite where
  run : Nat
  team : Option Word
  va : Nat
  tile : Option Nat
  kind : Nat
  bytes : List Byte
  reported : Bool
  deriving DecidableEq, Repr

/-- Everything but time, the agenda and memory. `tier` lists the 4 KiB frames that a translation with TIER has named (R119),
`lowpri` the lines that CCTL marked first for replacement (R110), `sensors` the sensors voted out, as domain and index
(R311), `spareGroups` the channel group that each stack's spare replaces (R318), `evring` the host event ring with its
interrupt enable and vector, `interrupts` the messages raised on the host (R304), `regionq` the writes to trace regions that
wait for their pages (R286), `folded` the first writer that each page's summary took (R166),
`combined` the run of each COMBINED mark (R156). -/
structure Chip where
  slots : Map Slot
  teams : Map Team
  teamNext : Nat
  runs : Map Run
  runNext : Nat
  lidNext : Word
  saved : Map Saved
  savedNext : Nat
  cores : Map Core
  clusters : Map Cluster
  dies : Map Die
  parts : Map Partition
  ctxs : Map Context
  queues : Map Queue
  memq : List MemOp
  regionq : List RegionWrite
  seq : Nat
  leases : Map Lease
  leaseNext : Nat
  leaseSerial : Map (BitVec 16)
  units : Map UnitState
  engops : Map EngOp
  engNext : Nat
  copies : Map CopyOp
  copyNext : Nat
  marks : Map (BitVec 64)
  folded : Map Nat
  combined : Map Nat
  poison : List Nat
  lost : List Nat
  recs : List SyncRec
  mons : List Monitor
  bars : Map BarPhase
  barNext : Nat
  mboxWin : Option (Nat × Nat)
  hypRing : Option Nat
  cmd : Option CmdAt
  evring : Option (Nat × Bool × Word)
  evDropped : Nat
  interrupts : List Word
  mr : Map (BitVec 256)
  mrLocked : Bool
  stage : Nat
  resyncSeq : BitVec 16
  link : Link
  sensors : List (Nat × Nat)
  spareGroups : Map Nat
  wsets : List WSet
  tier : List Nat
  lowpri : List Nat
  energy : Map Nat
  deriving DecidableEq, Repr

/-- Whose move is next (assumption 1). -/
inductive Turn where
  /-- A path of a group slot issues. -/
  | path (g p : Nat)
  /-- A cluster's signal box runs the next operation of its phase. -/
  | box (cluster : Nat)
  /-- The base die serves the next command of a ring; 512 is the hypervisor's. -/
  | ring (r : Nat)
  /-- A hardware event takes place. -/
  | event (i : Instr)
  /-- Time passes. -/
  | tick (clk : Nat)
  /-- A core's translation cache drops its entry of that index. -/
  | tlbDrop (core i : Nat)
  /-- A core's instruction cache drops a line. -/
  | lineDrop (core line : Nat)
  deriving DecidableEq, Repr

/-- The machine's state. -/
structure State where
  clk : Nat
  agenda : List Turn
  actor : Nat × Nat
  free : Nat
  mem : List Host.Cell
  chip : Chip
  deriving DecidableEq, Repr

/-- The chip right after package reset: nothing configured, bound, queued or resident (R234, R305, R307, R314). -/
def Chip.reset : Chip where
  slots := []
  teams := []
  teamNext := 1
  runs := []
  runNext := 1
  lidNext := 1
  saved := []
  savedNext := 1
  cores := []
  clusters := []
  dies := []
  parts := []
  ctxs := []
  queues := []
  memq := []
  regionq := []
  seq := 1
  leases := []
  leaseNext := 1
  leaseSerial := []
  units := []
  engops := []
  engNext := 1
  copies := []
  copyNext := 1
  marks := []
  folded := []
  combined := []
  poison := []
  lost := []
  recs := []
  mons := []
  bars := []
  barNext := 1
  mboxWin := none
  hypRing := none
  cmd := none
  evring := none
  evDropped := 0
  interrupts := []
  mr := []
  mrLocked := false
  stage := 0
  resyncSeq := 0
  link := ⟨0, none, 0, false⟩
  sensors := []
  spareGroups := []
  wsets := []
  tier := []
  lowpri := []
  energy := []

/-- The machine right after package reset: CLOCK 0 (R44), memory with nothing listed, no agent with a move. -/
def State.reset : State where
  clk := 0
  agenda := []
  actor := (0, 0)
  free := 0
  mem := []
  chip := Chip.reset

end Sys2Proof.Machine
end

