-- ==== Sys2Proof/Machine/Base.lean ====
section
/-! DEFINITION. Tables, physical memory, the transaction an instruction or event runs in, and access to groups, paths,
teams, runs and contexts. -/

namespace Sys2Proof.Machine

/-! ## Tables (assumption 11) -/

/-- The entry of a key. -/
def mget? : Map α → Nat → Option α
  | [], _ => none
  | (j, v) :: r, k => if j = k then some v else mget? r k

/-- The table with the key's entry replaced or inserted in key order. -/
def mset : Map α → Nat → α → Map α
  | [], k, v => [(k, v)]
  | (j, w) :: r, k, v => if k < j then (k, v) :: (j, w) :: r else if k = j then (k, v) :: r else (j, w) :: mset r k v

/-- The table without the key. -/
def merase (m : Map α) (k : Nat) : Map α := m.filter fun e => e.1 ≠ k

/-- The entry of a key, or the table's default. -/
def mgetD (m : Map α) (d : α) (k : Nat) : α := (mget? m k).getD d

/-- The table with an entry written; an entry equal to the default is not listed. -/
def mput [DecidableEq α] (d : α) (m : Map α) (k : Nat) (v : α) : Map α := if v = d then merase m k else mset m k v

/-- The table with the key's entry changed, if there is one. -/
def mmod (m : Map α) (k : Nat) (f : α → α) : Map α := m.map fun e => if e.1 = k then (k, f e.2) else e

/-- The values of a table. -/
def mvals (m : Map α) : List α := m.map Prod.snd

/-! ## Physical memory: a canonical list of cells -/

/-- What a byte that nothing has written reads as (assumption 3). -/
def Memory.unlisted : Byte := 0

/-- The canonical form: addresses strictly rising, no cell equal to what an unlisted address reads as. -/
abbrev Memory.wf (m : List Host.Cell) : Prop := m.Pairwise (fun a b => a.1 < b.1) ∧ ∀ c ∈ m, c.2 ≠ Memory.unlisted

/-- One byte of memory. -/
def Memory.read : List Host.Cell → Nat → Byte
  | [], _ => Memory.unlisted
  | (j, v) :: r, k => if j = k then v else Memory.read r k

/-- Memory with one byte written, in canonical form. -/
def Memory.write : List Host.Cell → Nat → Byte → List Host.Cell
  | [], k, v => if v = Memory.unlisted then [] else [(k, v)]
  | (j, w) :: r, k, v =>
    if k < j then (if v = Memory.unlisted then (j, w) :: r else (k, v) :: (j, w) :: r)
    else if k = j then (if v = Memory.unlisted then r else (k, v) :: r)
    else (j, w) :: Memory.write r k v

/-- Memory after a list of writes, the newest first in the list. -/
def Memory.writeAll (m : List Host.Cell) (log : List (Nat × Byte)) : List Host.Cell :=
  log.foldr (fun c m => Memory.write m c.1 c.2) m

/-! ## The transaction -/

/-- A race record to be written (R165), as its fields. -/
structure RaceRec where
  run : Nat
  gran : Nat
  pc : Addr
  agt : Nat
  aclk : Nat
  oagt : Nat
  oclk : Nat
  kinds : Nat
  verd : Nat
  mark : BitVec 64
  mask : Nat
  team : Word
  deriving DecidableEq, Repr

/-- What a trap reports (R253, R257): cause, data, faulting address and lane, flags that stand although it traps (R80),
race records (R163), whether RPC is the next instruction, and for ILLEGAL the instruction's words (R61). -/
structure TrapInfo where
  cause : Nat
  data : Nat
  faddr : Addr
  flane : Nat
  flags : FpFlags
  races : List RaceRec
  next : Bool
  w0 : Word
  w1 : Word
  deriving DecidableEq, Repr

/-- Why a transaction ends without its effect. -/
inductive Stop where
  | trap (t : TrapInfo)
  | notReady
  | fault (f : Fault)
  deriving DecidableEq, Repr

/-- What a transaction reads and changes: the chip, memory with the writes so far (newest first), CLOCK, the acting
group slot and path, and the free-value counter. -/
structure Tx where
  chip : Chip
  base : List Host.Cell
  log : List (Nat × Byte)
  clk : Nat
  actor : Nat × Nat
  free : Nat
  deriving DecidableEq, Repr

/-- A transaction: it either ends with a new state or stops. -/
abbrev Act (α : Type) := StateT Tx (Except Stop) α

def State.tx (s : State) : Tx := ⟨s.chip, s.mem, [], s.clk, s.actor, s.free⟩

/-- The state after a transaction: memory in canonical form; the clock and the agenda are not a transaction's. -/
def State.commit (s : State) (t : Tx) : State :=
  { s with mem := Memory.writeAll s.mem t.log, chip := t.chip, free := t.free }

def stop (e : Stop) : Act α := fun _ => .error e
def notReady : Act α := stop .notReady

/-- A precise trap without address (R253). -/
def trap (cause : Nat) (data : Nat := 0) (faddr : Addr := 0) (flane : Nat := 0) : Act α :=
  stop (.trap ⟨cause, data, faddr, flane, 0, [], false, 0, 0⟩)

def getChip : Act Chip := do return (← get).chip
def setChip (c : Chip) : Act Unit := modify fun t => { t with chip := c }
def modChip (f : Chip → Chip) : Act Unit := modify fun t => { t with chip := f t.chip }
def clock : Act Nat := do return (← get).clk

/-- The next free value (assumption 2). -/
def freeValue : Act (BitVec 64) := do
  let t ← get
  set { t with free := t.free + 1 }
  return Config.freeWord t.free

/-- `n` bytes of an opaque record section (assumption 2). -/
def opaqueBytes (n : Nat) : Act (List Byte) := do
  let t ← get
  set { t with free := t.free + 1 }
  return (List.range n).map (Config.opaqueByte t.free)

/-- Do `a`, or `b` where `a` is not ready. -/
def orElse (a b : Act Unit) : Act Unit := fun t =>
  match a t with
  | .error .notReady => b t
  | r => r

/-- Do `f` when the option holds. -/
def whenSome (o : Option α) (f : α → Act Unit) : Act Unit :=
  match o with
  | some a => f a
  | none => pure ()

/-- Do `f` for each element, in order. -/
def each (xs : List α) (f : α → Act Unit) : Act Unit :=
  match xs with
  | [] => pure ()
  | x :: r => do f x; each r f

/-- The results of `f` over a list, in order. -/
def mapAct (xs : List α) (f : α → Act β) : Act (List β) :=
  match xs with
  | [] => pure []
  | x :: r => do
    let y ← f x
    let ys ← mapAct r f
    return y :: ys

/-! ## Bytes -/

def logRead : List (Nat × Byte) → Nat → Option Byte
  | [], _ => none
  | (j, v) :: r, k => if j = k then some v else logRead r k

/-- A byte of physical memory as the transaction sees it. -/
def Tx.byte (t : Tx) (a : Nat) : Byte := (logRead t.log a).getD (Memory.read t.base a)

def readByte (a : Nat) : Act Byte := do return (← get).byte a
def writeByte (a : Nat) (b : Byte) : Act Unit := modify fun t => { t with log := (a, b) :: t.log }

/-- A list of bytes as a little-endian number (R5). -/
def fromLE : List Byte → Nat
  | [] => 0
  | b :: r => b.toNat + 256 * fromLE r

/-- The `n` little-endian bytes of a number (R5). -/
def toLE : Nat → Nat → List Byte
  | 0, _ => []
  | n + 1, v => BitVec.ofNat 8 v :: toLE n (v / 256)

def readBytes (a n : Nat) : Act (List Byte) := do
  let t ← get
  return (List.range n).map fun i => t.byte (a + i)

def writeBytes (a : Nat) (bs : List Byte) : Act Unit :=
  modify fun t => { t with log := (bs.zipIdx.map fun p => (a + p.2, p.1)).reverse ++ t.log }

def readNat (a n : Nat) : Act Nat := do return fromLE (← readBytes a n)
def writeNat (a n v : Nat) : Act Unit := writeBytes a (toLE n v)

/-- Bits [lo, lo + n) of a number. -/
def bits (v lo n : Nat) : Nat := v / 2 ^ lo % 2 ^ n

/-- A field of a byte record: `n` bytes from `off`, little-endian. -/
def recNat (r : List Byte) (off n : Nat) : Nat := fromLE ((r.drop off).take n)

/-! ## Places (R15, R19) -/

/-- Group slots are numbered core × 64 + partition × 16 + slot. -/
def slotCore (g : Nat) : Nat := g / 64
def slotPart (g : Nat) : Nat := g / 16 % 4
def coreCluster (c : Nat) : Nat := c / 8
def coreDie (c : Nat) : Nat := c / 80

/-- The agent identity of a slot's occupant (R19). -/
def agentOf (g : Nat) (inc : BitVec 5) : BitVec 20 :=
  BitVec.ofNat 20 (inc.toNat * 2 ^ 15 + coreDie (slotCore g) * 2 ^ 13 + slotCore g / 8 % 10 * 2 ^ 9 +
    slotCore g % 8 * 2 ^ 6 + g % 64)

/-- PLACE (R15). -/
def placeOf (g : Nat) : Nat :=
  let c := slotCore g
  c * 2 ^ 23 + coreDie c * 2 ^ 14 + c / 8 % 10 * 2 ^ 10 + c % 8 * 2 ^ 7 + slotPart g * 2 ^ 5

/-- The slot an agent identity names. -/
def agentSlot (a : BitVec 20) : Nat :=
  let n := a.toNat
  (bits n 13 2 * 80 + bits n 9 4 * 8 + bits n 6 3) * 64 + n % 64

/-! ## Defaults of the sparse tables -/

def VReg.zero : VReg := ⟨0, tagRAW⟩
def Checker.init : Checker := ⟨[], [], 0, [], 0, false⟩
def Slot.init : Slot := ⟨0, 0, [], false, none⟩
def Core.init : Core := ⟨[], [], [], [], [], [], [], [], [], 0, [], [], [], [], [], [], [], false, none⟩
def Box.init : Box := ⟨[], [], none, none, [], [], 0x1FF, false, 0⟩
/-- A cluster at package reset: 120 CQ, sidings share 102 (R183). -/
def Cluster.init : Cluster := ⟨Box.init, [], [], 120, 102, none, 0, 0⟩
def Die.init : Die := ⟨[], [], [], false⟩
def Emu.init : Emu := ⟨0, 0, 0, 0, 0, 0, 0, 0, 0, none⟩
/-- A partition at reset: PARTCFG's reset column (R305), every virtual P-state the nominal point (assumption 85). -/
def Partition.init : Partition :=
  ⟨0, 0, 0, 16, 64, 7, 0, 7, false, 0, 0, 0, 3600, false, none, List.replicate 8 ⟨1024, 600, 120, 102⟩⟩
def Context.init : Context := ⟨.free, 0, 0, 0, 0, 0, 0, none, none, none, [], [], [], 0, none, none⟩

def Chip.slot (c : Chip) (g : Nat) : Slot := mgetD c.slots Slot.init g
def Chip.setSlot (c : Chip) (g : Nat) (s : Slot) : Chip := { c with slots := mset c.slots g s }
def Chip.group? (c : Chip) (g : Nat) : Option Group := (c.slot g).group
def Chip.setGroup (c : Chip) (g : Nat) (x : Group) : Chip := c.setSlot g { c.slot g with group := some x }
def Chip.modGroup (c : Chip) (g : Nat) (f : Group → Group) : Chip :=
  match c.group? g with
  | some x => c.setGroup g (f x)
  | none => c
def Chip.path? (c : Chip) (g p : Nat) : Option Path := (c.group? g).bind fun x => mget? x.paths p
def Chip.modPath (c : Chip) (g p : Nat) (f : Path → Path) : Chip :=
  c.modGroup g fun x => { x with paths := mmod x.paths p f }
def Chip.core (c : Chip) (k : Nat) : Core := mgetD c.cores Core.init k
def Chip.setCore (c : Chip) (k : Nat) (x : Core) : Chip := { c with cores := mset c.cores k x }
def Chip.modCore (c : Chip) (k : Nat) (f : Core → Core) : Chip := c.setCore k (f (c.core k))
def Chip.cluster (c : Chip) (k : Nat) : Cluster := mgetD c.clusters Cluster.init k
def Chip.modCluster (c : Chip) (k : Nat) (f : Cluster → Cluster) : Chip :=
  { c with clusters := mset c.clusters k (f (c.cluster k)) }
def Chip.die (c : Chip) (k : Nat) : Die := mgetD c.dies Die.init k
def Chip.modDie (c : Chip) (k : Nat) (f : Die → Die) : Chip := { c with dies := mset c.dies k (f (c.die k)) }
def Chip.part (c : Chip) (k : Nat) : Partition := mgetD c.parts Partition.init k
def Chip.modPart (c : Chip) (k : Nat) (f : Partition → Partition) : Chip :=
  { c with parts := mset c.parts k (f (c.part k)) }
def Chip.ctx (c : Chip) (k : Nat) : Context := mgetD c.ctxs Context.init k
def Chip.modCtx (c : Chip) (k : Nat) (f : Context → Context) : Chip := { c with ctxs := mset c.ctxs k (f (c.ctx k)) }
def Chip.modTeam (c : Chip) (t : Nat) (f : Team → Team) : Chip := { c with teams := mmod c.teams t f }
def Chip.modRun (c : Chip) (r : Nat) (f : Run → Run) : Chip := { c with runs := mmod c.runs r f }
def Chip.agent (c : Chip) (g : Nat) : BitVec 20 := agentOf g (c.slot g).inc

/-- A team in which exception flags are raised at a clk: sticky in FPCTL, and known to an SWR of the same clk (R46). -/
def Team.raise (t : Team) (now : Nat) (fl : FpFlags) : Team :=
  if fl = 0 then t
  else { t with fpctl := t.fpctl ||| ((fl.setWidth 32 : Word) <<< (6 : Nat))
                raised := (now, if t.raised.1 = now then t.raised.2 ||| fl else fl) }

def modSlot (g : Nat) (f : Slot → Slot) : Act Unit := modChip fun c => c.setSlot g (f (c.slot g))
def modGroup (g : Nat) (f : Group → Group) : Act Unit := modChip fun c => c.modGroup g f
def modPath (g p : Nat) (f : Path → Path) : Act Unit := modChip fun c => c.modPath g p f
def modTeam (t : Nat) (f : Team → Team) : Act Unit := modChip fun c => c.modTeam t f
def modRun (r : Nat) (f : Run → Run) : Act Unit := modChip fun c => c.modRun r f
def modCore (k : Nat) (f : Core → Core) : Act Unit := modChip fun c => c.modCore k f
def modCluster (k : Nat) (f : Cluster → Cluster) : Act Unit := modChip fun c => c.modCluster k f
def modCtx (k : Nat) (f : Context → Context) : Act Unit := modChip fun c => c.modCtx k f
def modPart (k : Nat) (f : Partition → Partition) : Act Unit := modChip fun c => c.modPart k f
def modDie (k : Nat) (f : Die → Die) : Act Unit := modChip fun c => c.modDie k f

/-! ## The acting path -/

/-- The acting path with everything behind it, as it stands when the record is made: its sources are read here (R323). -/
structure Here where
  g : Nat
  p : Nat
  slot : Slot
  grp : Group
  path : Path
  tid : Nat
  team : Team
  runId : Nat
  run : Run
  deriving DecidableEq, Repr

def Chip.here? (c : Chip) (g p : Nat) : Option Here := do
  let grp ← c.group? g
  let path ← mget? grp.paths p
  let team ← mget? c.teams grp.tid
  let run ← mget? c.runs team.run
  return ⟨g, p, c.slot g, grp, path, grp.tid, team, team.run, run⟩

/-- The acting path; a fault where the actor names none. -/
def here : Act Here := do
  let t ← get
  match t.chip.here? t.actor.1 t.actor.2 with
  | some h => return h
  | none => stop (.fault .noIssuingPath)

def Here.core (h : Here) : Nat := slotCore h.g
def Here.cluster (h : Here) : Nat := coreCluster h.core
def Here.die (h : Here) : Nat := coreDie h.core
def Here.ctx (h : Here) : Nat := h.run.ctx
def Here.agent (h : Here) : BitVec 20 := agentOf h.g h.slot.inc
def Here.mask (h : Here) : BitVec 32 := h.path.mask
def Here.record (h : Here) : List Byte := h.run.record
/-- CHECK of the accepted record (R65, R233). -/
def Here.check (h : Here) : Bool := bits (recNat h.record 0x44 4) 4 1 = 1
/-- TRACE of the accepted record (R280). -/
def Here.traced (h : Here) : Bool := bits (recNat h.record 0x44 4) 1 1 = 1
/-- IDEMPOTENT of a run (R121). -/
def Run.idem (r : Run) : Bool := bits (recNat r.record 0x44 4) 0 1 = 1
def Run.traced (r : Run) : Bool := bits (recNat r.record 0x44 4) 1 1 = 1
/-- FTZ of the team (R46). -/
def Here.ftz (h : Here) : Bool := h.team.fpctl.getLsbD 0

def laneBit (m : BitVec 32) (i : Nat) : Bool := m.getLsbD i

/-- The lanes of a mask in increasing order. -/
def lanesOf (m : BitVec 32) : List Nat := (List.range 32).filter (laneBit m)

/-- The lowest lane of a mask, 0 where it is empty. -/
def lowLane (m : BitVec 32) : Nat := (lanesOf m).headD 0

/-- A mask from a predicate over lanes. -/
def maskOf (f : Nat → Bool) : BitVec 32 :=
  BitVec.ofNat 32 ((List.range 32).foldl (fun a i => a + if f i then 2 ^ i else 0) 0)

/-- A vector register of one lane (R37). -/
def Group.vreg (x : Group) (r i : Nat) : VReg := mgetD x.v VReg.zero (r * 32 + i)
def Group.sreg (x : Group) (r : Nat) : Word := mgetD x.s 0 r
def Group.preg (x : Group) (r : Nat) : Word := mgetD x.p 0 r
def Group.spair (x : Group) (r : Nat) : Addr := x.sreg (r + 1) ++ x.sreg r
def Group.setV (x : Group) (r i : Nat) (v : VReg) : Group := { x with v := mput VReg.zero x.v (r * 32 + i) v }
def Group.setS (x : Group) (r : Nat) (v : Word) : Group := { x with s := mput 0 x.s r v }
def Group.setP (x : Group) (r : Nat) (v : Word) : Group := { x with p := mput 0 x.p r v }
def Group.setPair (x : Group) (r : Nat) (v : Addr) : Group :=
  (x.setS r (v.extractLsb' 0 32)).setS (r + 1) (v.extractLsb' 32 32)

/-! ## Results that land (R39, R64, R65) -/

/-- A group in which a later write to a register has taken the place of the results of some lanes still to be read (R65). -/
def Group.superseded (x : Group) (file : RegFile) (r : Nat) (lanes : BitVec 32) : Group :=
  { x with hazards := (x.hazards.map fun z =>
      if z.file = file && z.idx = r then { z with lanes := z.lanes &&& ~~~lanes } else z).filter fun z => z.lanes ≠ 0 }

/-- The outstanding writes of other paths to a scalar register that complete at a clk or later: they apply above a write that
completes before them (R39). -/
def Hazard.above (r at_ : Nat) (mask : BitVec 32) (z : Hazard) : Bool :=
  z.file = .scalar && z.idx = r && z.lanes &&& mask = 0 && at_ ≤ z.doneAt

/-- A value put below the lowest of some outstanding writes; `add` makes the entries of the write itself from what stood
there. -/
def slideUnder (up : Hazard → Bool) (v : Word) (add : Map VReg → List Hazard) : List Hazard → List Hazard
  | [] => []
  | z :: r => if up z && !r.any up then { z with old := [(0, ⟨v, 0⟩)] } :: (add z.old ++ r) else z :: slideUnder up v add r

/-- A group with an interlocked result in a scalar register: a fixed-latency write of another path that completes at this clk
or later stays above it (R39). -/
def Group.landS (x : Group) (now r : Nat) (mask : BitVec 32) (v : Word) : Group :=
  let up := Hazard.above r now mask
  let y := x.superseded .scalar r mask
  if x.hazards.any up then { y with hazards := slideUnder up v (fun _ => []) y.hazards } else y.setS r v

/-- A group with an interlocked result in a lane of a vector register. -/
def Group.landV (x : Group) (r i : Nat) (v : VReg) : Group :=
  (x.superseded .vector r (BitVec.ofNat 32 (2 ^ i))).setV r i v

/-! ## What the acting path reads -/

def Here.s (h : Here) (r : Nat) : Word := h.grp.sreg r
def Here.pair (h : Here) (r : Nat) : Addr := h.grp.spair r
def Here.v (h : Here) (r i : Nat) : VReg := h.grp.vreg r i
def Here.pr (h : Here) (r : Nat) : Word := h.grp.preg r

/-- lanes(): the active lanes whose guard is true (R56). -/
def Here.lanes (h : Here) (g : Guard) : BitVec 32 :=
  if g.ge = 0 then h.mask
  else h.mask &&& (if g.gn = 1 then ~~~(h.pr g.gp.toNat) else h.pr g.gp.toNat)

def signExt (w : BitVec n) : Addr := w.signExtend 64
def zeroExt (w : BitVec n) : Addr := w.setWidth 64

/-- Cause numbers (R253). -/
def causeIllegal : Nat := 1
def causeTag : Nat := 2
def causeBound : Nat := 3
def causeAlign : Nat := 4
def causePage : Nat := 5
def causeAccess : Nat := 6
def causeRace : Nat := 7
def causeStallShort : Nat := 8
def causeArith : Nat := 9
def causeLeaseLost : Nat := 10
def causeEcc : Nat := 11
def causeBarrier : Nat := 12
def causeUser : Nat := 13
def causeBkpt : Nat := 14
def causeHold : Nat := 15
def causeStoreLate : Nat := 16
def causeEdge : Nat := 17
def causePriv : Nat := 18

end Sys2Proof.Machine
end

