-- ==== Sys2Proof/Machine/Xlate.lean ====
section
/-! DEFINITION. Address spaces, the page-table walk, the translation cache and weight-set windows. -/

namespace Sys2Proof.Machine

/-! ## Fields of the accepted launch record (R233) -/

def Run.prog (r : Run) : Addr := BitVec.ofNat 64 (recNat r.record 0x00 8)
def Run.param (r : Run) : Addr := BitVec.ofNat 64 (recNat r.record 0x08 8)
def Run.compa (r : Run) : Nat := recNat r.record 0x10 8
def Run.trapv (r : Run) : Addr := BitVec.ofNat 64 (recNat r.record 0x18 8)
def Run.trreg (r : Run) : Nat := recNat r.record 0x20 8
def Run.rlog (r : Run) : Nat := recNat r.record 0x28 8
def Run.flog (r : Run) : Nat := recNat r.record 0x30 8
def Run.adesc (r : Run) : Nat := recNat r.record 0x38 8
def Run.groups (r : Run) : Nat := bits (recNat r.record 0x40 4) 0 5 + 1
def Run.regs (r : Run) : Nat := (bits (recNat r.record 0x40 4) 5 5 + 1) * 8
def Run.scr (r : Run) : Nat := bits (recNat r.record 0x40 4) 10 8
def Run.tiles (r : Run) : Nat := bits (recNat r.record 0x40 4) 18 5
def Run.rmode (r : Run) : BitVec 2 := BitVec.ofNat 2 (bits (recNat r.record 0x44 4) 2 2)
def Run.check (r : Run) : Bool := bits (recNat r.record 0x44 4) 4 1 = 1
def Run.wset (r : Run) : Nat := recNat r.record 0x5C 4
def Run.adhint (r : Run) : Nat := recNat r.record 0x60 4
def Run.rlogsz (r : Run) : Nat := bits (recNat r.record 0x64 4) 0 5
def Run.ein (r : Run) (k : Nat) : Nat := recNat r.record (0x68 + 8 * k) 8
def Run.eout (r : Run) (k : Nat) : Nat := recNat r.record (0x88 + 8 * k) 8
def Run.share (r : Run) (k : Nat) : Nat := recNat r.record (0xA8 + k) 1

/-- One declared level above team: domain code, co-resident flag and fan-out (R26, R29, R233). -/
structure LevelDecl where
  dom : Nat
  co : Bool
  fan : Nat
  deriving DecidableEq, Repr

/-- The level list of a record: up to the first entry with domain 0. -/
def recordLevels (r : List Byte) : List LevelDecl :=
  ((List.range 5).map fun k =>
    let e := recNat r (0x48 + 4 * k) 4
    (⟨bits e 0 3, bits e 3 1 = 1, bits e 16 16⟩ : LevelDecl)).takeWhile fun l => l.dom ≠ 0

def Run.levels (r : Run) : List LevelDecl := recordLevels r.record

/-- The number of teams of a launch (R27). -/
def Run.teamCount (r : Run) : Nat := r.levels.foldl (fun n l => n * l.fan) 1

/-- The teams of one instance of the domain, none where the level is not declared (R26, R28): the product of the
fan-outs up to that level. -/
def Run.teamsPer (r : Run) (dom : Nat) : Option Nat :=
  if dom = 2 then some 1
  else
    let ls := r.levels.takeWhile fun l => l.dom ≤ dom
    if ls.any fun l => l.dom = dom then some (ls.foldl (fun n l => n * l.fan) 1) else none

/-- The instance number of a domain that holds a team: TEAM divided by the teams of one instance. -/
def Run.instOf (r : Run) (dom : Nat) (team : Nat) : Option Nat :=
  if dom = 7 then some 0 else (r.teamsPer dom).map fun n => team / (if n = 0 then 1 else n)

/-- Teams of a unit (R237): one instance of the highest co-resident level; a pair level is always co-resident (R29). -/
def Run.unitSize (r : Run) : Nat :=
  match (r.levels.filter fun l => l.co || l.dom = 3).getLast? with
  | some l => (r.teamsPer l.dom).getD 1
  | none => 1

/-- The domain of a unit: 2 for a single team. -/
def Run.unitDom (r : Run) : Nat :=
  match (r.levels.filter fun l => l.co || l.dom = 3).getLast? with
  | some l => l.dom
  | none => 2

/-- Whether a level is co-resident: declared so, or below one that is, or a pair level (R29). -/
def Run.coResident (r : Run) (dom : Nat) : Bool :=
  dom = 2 || (r.levels.any fun l => (l.co || l.dom = 3) && l.dom ≥ dom && (r.levels.any fun k => k.dom = dom))

/-! ## Address spaces (R96, R97) -/

/-- What a 64-bit address selects before translation. -/
inductive Region where
  | global
  | opm
  | bad
  | mailbox
  deriving DecidableEq, Repr

/-- Whether an address lies in the mailbox window (R96; assumption 5: the window's place is State's). -/
def Chip.inMailbox (c : Chip) (va : Nat) : Bool :=
  match c.mboxWin with
  | some (b, n) => b ≤ va && va < b + n
  | none => false

def Chip.region (c : Chip) (va : Addr) : Region :=
  let a := va.toNat
  if bits a 56 8 ≠ 0 then .bad
  else if c.inMailbox a then .mailbox
  else if bits a 48 8 = 0xFF then .opm
  else .global

/-! ## The walk (R111) -/

/-- How an access uses its page. -/
structure Use where
  read : Bool
  write : Bool
  fetch : Bool
  user : Bool
  deriving DecidableEq, Repr

def Use.load (user : Bool) : Use := ⟨true, false, false, user⟩
def Use.store (user : Bool) : Use := ⟨false, true, false, user⟩
def Use.rmw (user : Bool) : Use := ⟨true, true, false, user⟩
def Use.exec (user : Bool) : Use := ⟨false, false, true, user⟩

/-- Cause data of a PAGE fault (R97). -/
def Use.data (u : Use) (kind : Nat) : Nat := kind + if u.write then 8 else 0

/-- Reserved bits of an entry (R111). -/
def entryReserved (e : Nat) : Bool := bits e 52 12 ≠ 0 || bits e 2 2 ≠ 0

/-- The lowest-numbered kind that a leaf's bits give an access, 0 for none (R97). -/
def leafKind (e : Nat) (bad : Bool) (u : Use) : Nat :=
  if u.write && bits e 5 1 = 0 then 2
  else if u.fetch && bits e 6 1 = 0 then 3
  else if u.user && bits e 7 1 = 1 then 4
  else if bad || entryReserved e then 5
  else if u.read && bits e 4 1 = 0 then 6
  else 0

/-- An entry without its A and D bits, for comparing the entries of a 64 KiB set. -/
def entryAlike (e : Nat) : Nat := e / 2 ^ 11 * 2 ^ 11 + e % 2 ^ 9

/-- A translation: the page base, log2 of its size, the physical base, the leaf's bits, and where the leaf stands. -/
structure Leaf where
  va : Nat
  log2 : Nat
  pa : Nat
  bits : Nat
  at_ : Nat
  deriving DecidableEq, Repr

/-- The walk from a level's table: the leaf, or the kind of the PAGE fault (R97, R111). `touch` is what the home does before it
serves an entry's line (R117). A non-leaf entry at level 0 is kind 5 (assumption 79). -/
def walkFrom (touch : Nat → Act Unit) (u : Use) (va : Nat) : Nat → Nat → Act (Except Nat Leaf)
  | level, table => do
    let ea := table + 8 * bits va (12 + 9 * level) 9
    touch (ea / 128)
    let e ← readNat ea 8
    if bits e 0 1 = 0 then return .error 1
    else if bits e 1 1 = 1 then
      let c64 := bits e 11 1 = 1
      let alike ← if c64 && level = 0 then do
          let set0 := ea / 128 * 128
          let es ← mapAct (List.range 16) fun i => readNat (set0 + 8 * i) 8
          pure (es.all fun x => entryAlike x = entryAlike e)
        else pure true
      let bad := level ≥ 3 || (c64 && level ≠ 0) || !alike
      let log2 := if level = 0 && c64 then 16 else 12 + 9 * level
      match leafKind e bad u with
      | 0 =>
        let e' := e ||| 2 ^ 9 ||| (if u.write then 2 ^ 10 else 0)
        if e' ≠ e then writeNat ea 8 e'
        return .ok ⟨va / 2 ^ log2 * 2 ^ log2, log2, bits e 12 40 * 4096 / 2 ^ log2 * 2 ^ log2, e', ea⟩
      | k => return .error k
    else if entryReserved e || bits e 11 1 = 1 then return .error 5
    else match level with
      | 0 => return .error 5
      | n + 1 => walkFrom touch u va n (bits e 12 40 * 4096)

/-- A walk of a context's tables; without a root nothing is present. -/
def walkWith (touch : Nat → Act Unit) (ctx : Nat) (u : Use) (va : Nat) : Act (Except Nat Leaf) := do
  match ((← getChip).ctx ctx).root with
  | some r => walkFrom touch u va 4 r
  | none => return .error 1

/-! ## The translation cache (R112) -/

def tlbHit (t : Tlb) (ctx va : Nat) : Bool := t.ctx = ctx && va / 2 ^ t.log2 * 2 ^ t.log2 = t.va

/-- The cached entry for an address. -/
def Core.lookup (c : Core) (ctx va : Nat) : Option Tlb := c.tlb.find? fun t => tlbHit t ctx va

/-- The weight-set version a run has bound, with its window's base and size (R319, R321). -/
def Chip.boundVersion (c : Chip) (r : Run) : Option (WSet × WVer) :=
  if r.wset = 0 then none
  else
    match (c.wsets.find? fun w => !w.byPart && w.owner = r.ctx && w.num = r.wset) <|>
        (c.wsets.find? fun w => w.byPart && w.owner = r.part && w.num = r.wset) with
    | none => none
    | some w => r.wver.bind fun n => (w.versions.find? fun v => v.num = n).map fun v => (w, v)

/-- Bytes of a window: its units are 2 MiB (R319). -/
def WSet.bytes (w : WSet) : Nat := w.units * 2 ^ 21

/-- The translation that a run's weight-set window gives: none outside it (R321). -/
def Chip.window (c : Chip) (run : Nat) (u : Use) (va : Nat) : Option (Except Nat Nat) :=
  match (mget? c.runs run).bind c.boundVersion with
  | none => none
  | some (w, v) =>
    if va < w.base || va ≥ w.base + w.bytes then none
    else if u.write then some (.error 2)
    else if u.fetch then none
    else
      let o := va - w.base
      if v.shards.any fun s => s.off ≤ o && o < s.off + s.size then some (.ok (v.pa + o)) else some (.error 1)

/-- A translation through a leaf with TIER names a frame of companion memory (R119). -/
def noteTier (leaf pa : Nat) : Act Unit :=
  if bits leaf 8 1 = 0 then pure ()
  else modChip fun c => { c with tier := if c.tier.contains (pa / 4096) then c.tier else c.tier ++ [pa / 4096] }

/-- Whether the core can translate the address at issue without a walk (R113). -/
def Chip.cached (c : Chip) (core run ctx : Nat) (u : Use) (va : Nat) : Bool :=
  (c.window run u va).isSome ||
    match (c.core core).lookup ctx va with
    | some t => !(u.write && bits t.bits 5 1 = 1 && bits t.bits 10 1 = 0)
    | none => false

/-- Translation by the base die and the distributors, which use no core's cache: supervisor rights. -/
def hwTranslateWith (touch : Nat → Act Unit) (ctx : Nat) (write : Bool) (va : Nat) : Act (Except Nat Nat) := do
  match ← walkWith touch ctx ⟨!write, write, false, false⟩ va with
  | .ok l => do
    noteTier l.bits (l.pa + va % 2 ^ l.log2)
    return .ok (l.pa + va % 2 ^ l.log2)
  | .error k => return .error k

/-- The translation that the home uses for what it writes of itself while it combines a line. -/
def homeTranslate (ctx : Nat) (write : Bool) (va : Nat) : Act (Except Nat Nat) := hwTranslateWith (fun _ => pure ()) ctx write va

end Sys2Proof.Machine
end

