-- ==== Sys2Proof/Machine/Home.lean ====
section
/-! DEFINITION. What a home does: marks of a line's granules, recall of Update-only partials, watch bits, write filters,
poison, fault records and the writes that hardware makes for itself. -/

namespace Sys2Proof.Machine

/-- The granule numbers (32 bytes) that a range of bytes touches. -/
def granulesOf (a n : Nat) : List Nat :=
  if n = 0 then [] else (List.range ((a + n - 1) / 32 - a / 32 + 1)).map fun i => a / 32 + i

/-- The aligned 4 KiB tiles that a range of bytes touches (R280). -/
def tilesOf (a n : Nat) : List Nat :=
  if n = 0 then [] else (List.range ((a + n - 1) / 4096 - a / 4096 + 1)).map fun i => a / 4096 + i

/-- The 128-byte lines that a range of bytes touches. -/
def linesOf (a n : Nat) : List Nat :=
  if n = 0 then [] else (List.range ((a + n - 1) / 128 - a / 128 + 1)).map fun i => a / 128 + i

/-! ## Marks (R159) -/

def agentClear : Nat := 0xFFFFF
def agentCombined : Nat := 0xFFFFE
def agentSummary : Nat := 0xFFFFD
def markClear : BitVec 64 := BitVec.ofNat 64 (agentClear * 2 ^ 44)
def markSummary : BitVec 64 := BitVec.ofNat 64 (agentSummary * 2 ^ 44)
def epochNone : Nat := 0x80
def epochAged : Nat := 0x81

/-- A mark from its fields. -/
def mkMark (agent clk epoch scope rk rscope repoch rhash : Nat) : BitVec 64 :=
  BitVec.ofNat 64 (agent % 2 ^ 20 * 2 ^ 44 + clk % 2 ^ 16 * 2 ^ 28 + epoch % 2 ^ 8 * 2 ^ 20 + scope % 8 * 2 ^ 17 +
    rk % 4 * 2 ^ 15 + rscope % 8 * 2 ^ 12 + repoch % 2 ^ 8 * 2 ^ 4 + rhash % 16)

def markAgent (m : BitVec 64) : Nat := bits m.toNat 44 20
def markClk (m : BitVec 64) : BitVec 16 := BitVec.ofNat 16 (bits m.toNat 28 16)
def markEpoch (m : BitVec 64) : Nat := bits m.toNat 20 8
def markScope (m : BitVec 64) : Nat := bits m.toNat 17 3
def markRk (m : BitVec 64) : Nat := bits m.toNat 15 2
def markRscope (m : BitVec 64) : Nat := bits m.toNat 12 3
def markRepoch (m : BitVec 64) : Nat := bits m.toNat 4 8
def markRhash (m : BitVec 64) : Nat := bits m.toNat 0 4

/-- The EPOCH code of a checker state: EMAX's low 7 bits, or NONE with PEND set (R156). -/
def epochCode (k : Checker) : Nat := if k.pend then epochNone else k.emax.toNat % 128

/-- The mark an actor's write leaves (R160). -/
def writeMark (who : Actor) (scope : Nat) : BitVec 64 :=
  if who.mode = 0 then markClear
  else mkMark who.agent.toNat who.clock.toNat (epochCode who.chk) scope 0 0 0 0

/-- The physical address of a frame's page summary, where a partition's table covers the frame (R166, R305). -/
def Chip.summaryAt (c : Chip) (frame : Nat) : Option Nat :=
  ((mvals c.parts).find? fun p => p.sumbase ≠ 0 && p.sumfrm ≤ frame && frame < p.sumfrm + p.sumlen).map fun p =>
    p.sumbase.toNat + 32 * (frame - p.sumfrm)

/-- The 256 bits of the page summary of a granule's frame, 0 where no table covers it. -/
def summaryOf (gran : Nat) : Act Nat := do
  match (← getChip).summaryAt (gran / 128) with
  | some a => readNat a 32
  | none => return 0

/-- The mark of a global granule: one that is not in L2 starts SUMMARY where its page summary is VALID, else CLEAR. -/
def markOf (gran : Nat) : Act (BitVec 64) := do
  match mget? (← getChip).marks gran with
  | some m => return m
  | none =>
    let s ← summaryOf gran
    return if bits s 32 1 = 1 then markSummary else markClear

def setMark (gran : Nat) (m : BitVec 64) : Act Unit := modChip fun c => { c with marks := mset c.marks gran m }

/-! ## Watch bits and write filters (R285, R288) -/

/-- A read-modify-write of one byte that sets no watch bit. -/
def orByte (a : Nat) (m : Nat) : Act Unit := do
  let b ← readByte a
  writeByte a (b ||| BitVec.ofNat 8 m)

/-- The bits that a write on a tile sets in the watch sets of every context (R288). -/
def watchTile (tile : Nat) : Act Unit := do
  let c ← getChip
  each (mvals c.ctxs) fun x =>
    each (mvals x.watch) fun w =>
      if w.state ≠ .free && w.tbase ≤ tile && tile < w.tbase + w.tlen then
        orByte (w.bmap + (tile - w.tbase) / 8) (2 ^ ((tile - w.tbase) % 8))
      else pure ()

/-- The offset of the write filter in a trace region (R283). -/
def filterOffset (teams : Nat) : Nat := (0x200 + 272 * teams + 63) / 64 * 64

/-- A resident team of a run, by TEAM. -/
def Chip.teamKey (c : Chip) (run : Nat) (num : Word) : Option Nat :=
  (c.teams.find? fun e => e.2.run = run && e.2.num = num).map Prod.fst

/-- A write to a trace region parks until its page is there; it takes the place of an earlier one to the same bytes (R286). -/
def parkRegion (w : RegionWrite) : Act Unit := modChip fun c =>
  { c with regionq := (c.regionq.filter fun x => !(x.run = w.run && x.va = w.va && x.tile = w.tile && x.team = w.team)) ++ [w] }

/-- The filter update of a write by a team of a run on a tile (R285). An entry whose page does not translate parks (R286). -/
def filterTile (run : Nat) (team : Word) (tile : Nat) : Act Unit := do
  let c ← getChip
  whenSome (mget? c.runs run) fun r =>
    if !r.traced then pure ()
    else do
      let park := fun (va kind : Nat) => parkRegion ⟨run, some team, va, some tile, kind, [], false⟩
      match ← homeTranslate r.ctx false r.trreg with
      | .error k => park r.trreg k
      | .ok h => do
        let flog2 := bits (← readNat h 4) 0 5
        let at_ := r.trreg + filterOffset r.teamCount + 4 * (tile % 2 ^ flog2)
        match ← homeTranslate r.ctx true at_ with
        | .error k => park at_ (k + 8)
        | .ok a => do
          let e ← readNat a 4
          let mine := (team.toNat + 1) % 2 ^ 32
          let e' := if e = 0 || e = mine then mine else 0xFFFFFFFF
          if e' = e then pure () else writeNat a 4 e'

/-- The same-die effects of every performed write of a range: watch bits, and the filter for a team's write. -/
def noteWrite (pa n : Nat) (by_ : Option (Nat × Word)) : Act Unit :=
  each (tilesOf pa n) fun t => do
    watchTile t
    whenSome by_ fun b => filterTile b.1 b.2 t

/-! ## Update-only partials (R116, R117) -/

/-- The operand format of an MRED or partial: 0 I32, 1 N32, 2 F32, 3 I64 (R379). -/
def redWidth (fmt : Nat) : Nat := if fmt = 3 then 8 else 4

/-- One combine (R93, R116): operations 0 ADD, 1 MIN, 2 MAX, 3 AND, 4 OR, 5 XOR. -/
def redCombine (op fmt a b : Nat) : Nat :=
  let w := 8 * redWidth fmt
  let signed := fmt ≠ 1
  match op with
  | 0 => if fmt = 2 then roundF32 ((valF32 a).add 0 (valF32 b)) else (a + b) % 2 ^ w
  | 1 => if fmt = 2 then (fmtF32.minMax false false a b).1
         else if intOf signed w b < intOf signed w a then b else a
  | 2 => if fmt = 2 then (fmtF32.minMax true false a b).1
         else if intOf signed w a < intOf signed w b then b else a
  | 3 => a &&& b
  | 4 => a ||| b
  | _ => a ^^^ b

/-- The comparison of a MONW (R217). -/
def monCompare (cmp : Nat) (signed wide : Bool) (v value : Nat) : Bool :=
  let w := if wide then 64 else 32
  match cmp with
  | 0 => v = value
  | 1 => v ≠ value
  | 2 => intOf signed w value ≤ intOf signed w v
  | _ => intOf signed w v < intOf signed w value

/-- A write has performed on a range: each monitor entry there whose comparison its location now meets is met, whatever is
written next (R218). -/
def noteMonitors (pa n : Nat) : Act Unit := do
  each ((← getChip).mons.filter fun m => !m.overflow && !m.met && m.pa < pa + n && pa < m.pa + 8) fun m =>
    whenSome m.test fun t => do
      if monCompare t.cmp t.signed t.wide (← readNat m.pa (if t.wide then 8 else 4)) t.value then
        modChip fun c => { c with mons := c.mons.map fun x => if x = m then { x with met := true } else x }
      else pure ()

/-- The identity a partial starts at (R92, R116). -/
def redStart (op fmt : Nat) : Nat :=
  let w := 8 * redWidth fmt
  match op with
  | 0 => if fmt = 2 then 0x80000000 else 0
  | 1 => if fmt = 2 then 0x7F800000 else if fmt = 1 then 2 ^ w - 1 else 2 ^ (w - 1) - 1
  | 2 => if fmt = 2 then 0xFF800000 else if fmt = 1 then 0 else 2 ^ (w - 1)
  | 3 => 2 ^ w - 1
  | _ => 0

/-- The mark a granule takes when contributions combine at its home (R168). -/
def combinedMark (who : List (Actor × Nat)) : BitVec 64 :=
  match who.filter fun a => a.1.mode ≠ 0 with
  | [] => markClear
  | (a, s) :: r =>
    if r.all fun b => b.1.agent = a.agent then
      writeMark (r.foldl (fun (x : Actor) b => if x.clock.toNat < b.1.clock.toNat then b.1 else x) a) s
    else
      let scope := r.foldl (fun m b => if b.2 < m then b.2 else m) s
      let pend := a.chk.pend || r.any fun b => b.1.chk.pend
      let emax := r.foldl (fun m b => if m < b.1.chk.emax.toNat then b.1.chk.emax.toNat else m) a.chk.emax.toNat
      mkMark agentCombined 0 (if pend then epochNone else emax % 128) scope 0 0 0 0

/-- The 4 KiB frames that a range of bytes touches. -/
def framesOf (a n : Nat) : List Nat := tilesOf a n

/-- Whether a byte range lies in companion memory: a frame that a translation with TIER has named, or a TIERED shard's
storage (R119, R322). -/
def Chip.tiered (c : Chip) (pa n : Nat) : Bool :=
  ((framesOf pa n).any fun f => c.tier.contains f) ||
    c.wsets.any fun w => w.versions.any fun v => v.shards.any fun s =>
      s.tier && pa < v.pa + s.off + s.size && v.pa + s.off < pa + n

/-- Whether a range lies in companion memory that the link no longer reaches: reads of it give poison, and writes perform
nothing (R298; assumption 84). -/
def Chip.cutOff (c : Chip) (pa n : Nat) : Bool := c.link.down && c.tiered pa n

/-- The run whose contributions made a COMBINED mark, where they are of one run. -/
def oneRun (who : List (Actor × Nat)) : Option Nat :=
  match who with
  | [] => none
  | (a, _) :: r => if r.all fun b => b.1.run = a.run then some a.run else none

/-- The partials of a line on the cores chosen: core, word address, partial. -/
def Chip.partialsOf (c : Chip) (on : Nat → Bool) (line : Nat) : List (Nat × Nat × Partial) :=
  c.cores.flatMap fun k =>
    if on k.1 then (k.2.partials.filter fun e => e.1 / 128 = line).map fun e => (k.1, e.1, e.2) else []

/-- The home combines partials of a line, those of the cores chosen, into memory (R117), in core order, which is one of
the orders that R93 allows; marks, watch bits and write filters follow. -/
def recallFrom (on : Nat → Bool) (line : Nat) : Act Unit := do
  let ps := (← getChip).partialsOf on line
  if ps.isEmpty then pure ()
  else do
    modChip fun c => { c with
      cores := c.cores.map fun k => (k.1,
        if on k.1 then { k.2 with partials := k.2.partials.filter fun e => e.1 / 128 ≠ line } else k.2) }
    each (if (← getChip).cutOff (line * 128) 128 then [] else ps) fun e => do
      let w := redWidth e.2.2.fmt
      let old ← readNat e.2.1 w
      writeNat e.2.1 w (redCombine e.2.2.op e.2.2.fmt old e.2.2.value)
      noteMonitors e.2.1 w
      watchTile (e.2.1 / 4096)
      each e.2.2.who fun a => filterTile a.1.run a.1.team (e.2.1 / 4096)
    each (granulesOf (line * 128) 128) fun g =>
      let who := ps.flatMap fun e => if e.2.1 / 32 = g then e.2.2.who else []
      if who.isEmpty then pure ()
      else do
        setMark g (combinedMark who)
        modChip fun c => { c with lost := c.lost.filter fun x => x ≠ g
                                  combined := match oneRun who with
                                    | some r => mset c.combined g r
                                    | none => merase c.combined g }

/-- Every holder's partials of a line combine at the home. -/
def recallLine (line : Nat) : Act Unit := recallFrom (fun _ => true) line

def recallRange (pa n : Nat) : Act Unit := each (linesOf pa n) recallLine

/-! ## Translation (R111-R113) -/

/-- The walk of an access: the home combines the partials of each line that it reads (R117). -/
def walk (ctx : Nat) (u : Use) (va : Nat) : Act (Except Nat Leaf) := walkWith recallLine ctx u va

/-- Translation of an access of a core: the window, then the cache, then the walk, whose leaf the cache takes
(R111-R113). A write through a cached entry with D clear walks again. -/
def translate (core run ctx : Nat) (u : Use) (va : Nat) : Act (Except Nat Nat) := do
  let c ← getChip
  match c.window run u va with
  | some r => return r
  | none =>
    match (c.core core).lookup ctx va with
    | some t =>
      if u.write && bits t.bits 5 1 = 1 && bits t.bits 10 1 = 0 then do
        match ← walk ctx u va with
        | .error k => return .error k
        | .ok l =>
          modCore core fun x =>
            { x with tlb := ⟨ctx, l.va, l.log2, l.pa, l.bits⟩ :: x.tlb.filter fun y => !tlbHit y ctx va }
          noteTier l.bits (l.pa + va % 2 ^ l.log2)
          return .ok (l.pa + va % 2 ^ l.log2)
      else
        match leafKind t.bits false u with
        | 0 => do
          noteTier t.bits (t.pa + va % 2 ^ t.log2)
          return .ok (t.pa + va % 2 ^ t.log2)
        | k => return .error k
    | none =>
      match ← walk ctx u va with
      | .error k => return .error k
      | .ok l =>
        modCore core fun x => { x with tlb := ⟨ctx, l.va, l.log2, l.pa, l.bits⟩ :: x.tlb }
        noteTier l.bits (l.pa + va % 2 ^ l.log2)
        return .ok (l.pa + va % 2 ^ l.log2)

/-- Translation by the base die and the distributors (R114). -/
def hwTranslate (ctx : Nat) (write : Bool) (va : Nat) : Act (Except Nat Nat) := hwTranslateWith recallLine ctx write va

/-! ## Segments: a range of virtual bytes, page by page -/

/-- The pieces of a range within 4 KiB frames: address and length. -/
def segments (va n : Nat) : List (Nat × Nat) :=
  if n = 0 then []
  else
    (List.range ((va + n - 1) / 4096 - va / 4096 + 1)).map fun i =>
      let lo := if i = 0 then va else (va / 4096 + i) * 4096
      let hi := if (va / 4096 + i + 1) * 4096 < va + n then (va / 4096 + i + 1) * 4096 else va + n
      (lo, hi - lo)

/-- The physical pieces of a range, or the first piece's fault: its kind and address. -/
def bindSegments (f : Nat → Act (Except Nat Nat)) : List (Nat × Nat) → Act (Except (Nat × Nat) (List (Nat × Nat)))
  | [] => return .ok []
  | (va, n) :: r => do
    match ← f va with
    | .error k => return .error (k, va)
    | .ok pa =>
      match ← bindSegments f r with
      | .error e => return .error e
      | .ok ps => return .ok ((pa, n) :: ps)

/-- The physical pieces of a global range for a core's access. -/
def bindRange (core run ctx : Nat) (u : Use) (va n : Nat) : Act (Except (Nat × Nat) (List (Nat × Nat))) :=
  bindSegments (translate core run ctx u) (segments va n)

/-- The physical pieces of a global range for the base die or a distributor. -/
def hwBind (ctx : Nat) (write : Bool) (va n : Nat) : Act (Except (Nat × Nat) (List (Nat × Nat))) :=
  bindSegments (hwTranslate ctx write) (segments va n)

/-- Pieces of memory paired with the bytes they take. -/
def cutBytes : List (Nat × Nat) → List Byte → List (Nat × List Byte)
  | [], _ => []
  | (pa, n) :: r, bs => (pa, bs.take n) :: cutBytes r (bs.drop n)

/-- Device accesses over TVL wait while the link retrains (R298). -/
def awaitLink (pa n : Nat) : Act Unit := do
  let c ← getChip
  if c.link.retraining.isSome && c.tiered pa n then notReady else pure ()

/-- Bytes of memory as an access other than an MRED finds them at their home. -/
def homeRead (pa n : Nat) : Act (List Byte) := do
  awaitLink pa n
  recallRange pa n
  readBytes pa n

def homeNat (pa n : Nat) : Act Nat := do return fromLE (← homeRead pa n)

/-- The granules that a write of a range covers whole (R120). -/
def wholeGranules (pa n : Nat) : List Nat := (granulesOf pa n).filter fun g => pa ≤ g * 32 && g * 32 + 32 ≤ pa + n

/-- A write performs at its home (R127): partials recalled first, poison of whole granules cleared, lost bits of the
granules cleared, watch bits and the filter set. -/
def homeWrite (pa : Nat) (bs : List Byte) (by_ : Option (Nat × Word)) : Act Unit := do
  let n := bs.length
  awaitLink pa n
  recallRange pa n
  if (← getChip).cutOff pa n then pure ()
  else do
    writeBytes pa bs
    modChip fun c => { c with
      poison := c.poison.filter fun g => !(wholeGranules pa n).contains g
      lost := c.lost.filter fun g => !(granulesOf pa n).contains g }
    noteWrite pa n by_
    noteMonitors pa n

/-- Whether a range holds a poisoned granule (R120), or lies in companion memory with the link down (R298). -/
def Chip.poisoned (c : Chip) (pa n : Nat) : Bool :=
  ((granulesOf pa n).any fun g => c.poison.contains g) || c.cutOff pa n

/-- The poison of granules that several writes cover together is cleared (R120). -/
def clearCovered (ws : List (Nat × Nat)) : Act Unit := modChip fun c => { c with
  poison := c.poison.filter fun g => !(List.range 32).all fun i => ws.any fun w => w.1 ≤ g * 32 + i && g * 32 + i < w.1 + w.2 }

/-- The pieces of a range within the pieces of a larger one. -/
def subPieces : List (Nat × Nat) → Nat → Nat → List (Nat × Nat)
  | [], _, _ => []
  | (pa, k) :: r, off, n =>
    if k ≤ off then subPieces r (off - k) n
    else if n ≤ k - off then [(pa + off, n)]
    else (pa + off, k - off) :: subPieces r 0 (n - (k - off))

/-- Read the physical pieces of a range. -/
def readPieces (ps : List (Nat × Nat)) : Act (List Byte) := do
  let bs ← mapAct ps fun p => homeRead p.1 p.2
  return bs.flatten

/-- Write the physical pieces of a range. -/
def writePieces (ps : List (Nat × Nat)) (bs : List Byte) (by_ : Option (Nat × Word)) : Act Unit :=
  each (cutBytes ps bs) fun p => homeWrite p.1 p.2 by_

def piecesPoisoned (ps : List (Nat × Nat)) : Act Bool := do
  let c ← getChip
  return ps.any fun p => c.poisoned p.1 p.2

/-- The bytes of a range read by the base die or a distributor, none where it fails translation or is poisoned. -/
def hwRead (ctx va n : Nat) : Act (Option (List Byte)) := do
  match ← hwBind ctx false va n with
  | .error _ => return none
  | .ok ps => if ← piecesPoisoned ps then return none else return some (← readPieces ps)

/-- A write of a range by the base die or a distributor, whose bytes count for watch sets; answers whether it
translated. -/
def hwWrite (ctx va : Nat) (bs : List Byte) : Act Bool := do
  match ← hwBind ctx true va bs.length with
  | .error _ => return false
  | .ok ps => do
    writePieces ps bs none
    return true

/-- A write of a range to a structure that sets no watch bit (R288): fault logs. -/
def quietWrite (ctx va : Nat) (bs : List Byte) : Act Bool := do
  match ← hwBind ctx true va bs.length with
  | .error _ => return false
  | .ok ps => do
    each (cutBytes ps bs) fun p => do
      recallRange p.1 p.2.length
      writeBytes p.1 p.2
    return true

/-- A write of the hardware to a run's trace region: it sets no watch bit, and parks where its page does not translate (R286,
R288). `team` is the team whose record it writes. -/
def regionWrite (run : Nat) (team : Option Word) (off : Nat) (bs : List Byte) : Act Unit := do
  whenSome (mget? (← getChip).runs run) fun r => do
    match ← hwBind r.ctx true (r.trreg + off) bs.length with
    | .error (k, _) => parkRegion ⟨run, team, r.trreg + off, none, k + 8, bs, false⟩
    | .ok ps => do
      modChip fun c => { c with regionq := c.regionq.filter fun x => !(x.run = run && x.va = r.trreg + off && x.tile.isNone) }
      each (cutBytes ps bs) fun p => do
        recallRange p.1 p.2.length
        writeBytes p.1 p.2

def satInc (v : Nat) : Nat := if v ≥ 2 ^ 32 - 1 then 2 ^ 32 - 1 else v + 1

/-! ## Fault records and report rings (R263, R264, R436) -/

/-- A fault record's fields. -/
structure FaultRec where
  kind : Nat
  cause : Nat
  cdata : Nat
  agent : Nat
  pc : Addr
  addr : Addr
  lid : Word
  run : Word
  team : Word
  exited : Bool
  gone : Bool
  path : Nat
  mask : BitVec 32
  deriving DecidableEq, Repr

def FaultRec.bytes (r : FaultRec) (clk : Nat) : List Byte :=
  toLE 4 (r.kind % 256 + r.cause % 256 * 256 + r.cdata % 65536 * 65536) ++ toLE 4 r.agent ++ toLE 8 r.pc.toNat ++
  toLE 8 r.addr.toNat ++ toLE 4 r.lid.toNat ++ toLE 4 r.run.toNat ++ toLE 4 r.team.toNat ++
  toLE 4 ((if r.exited then 1 else 0) + (if r.gone then 2 else 0) + r.path % 4 * 4) ++ toLE 4 r.mask.toNat ++
  toLE 4 0 ++ toLE 8 clk ++ toLE 8 0

/-- The clusters of a partition, by CLMASK bit: die × 10 + cluster (R305). -/
def Partition.clusters (p : Partition) : List Nat := (List.range 40).filter fun i => p.clmask.getLsbD i

/-- The number of a partition's cores. -/
def Partition.coreCount (p : Partition) : Nat := 8 * p.clusters.length

/-- The bytes of a trap area for a number of cores (R256). -/
def areaBytes (cores : Nat) : Nat := 0x1000 + cores * 0x480000

/-- Where a context's report ring stands in physical memory, with its record count: none when absent (R436). -/
def reportRing (x : Context) (cores : Nat) : Act (Option (Nat × Nat)) := do
  match x.area with
  | none => return none
  | some a => do
    let rring ← homeNat (a.pa + 0x08) 8
    let rsize ← homeNat (a.pa + 0x10) 4
    let lo := a.va.toNat
    if rring ≠ 0 && lo ≤ rring && rring + 64 * rsize ≤ lo + a.size && rring - lo ≥ areaBytes cores && rsize ≠ 0 then
      return some (a.pa + (rring - lo), rsize)
    else return none

/-- A record to a context's report ring. -/
def report (ctx : Nat) (r : FaultRec) : Act Unit := do
  let c ← getChip
  let x := c.ctx ctx
  whenSome x.area fun a => do
    let drop : Act Unit := do homeWrite (a.pa + 0x1C) (toLE 4 (satInc (← homeNat (a.pa + 0x1C) 4))) none
    match ← reportRing x (c.part x.part).coreCount with
    | none => drop
    | some (base, size) => do
      let rd ← homeNat (a.pa + 0x14) 4
      let wr ← homeNat (a.pa + 0x18) 4
      if (wr + 2 ^ 32 - rd) % 2 ^ 32 < size then do
        homeWrite (base + 64 * (wr % size)) (r.bytes (← clock)) none
        homeWrite (a.pa + 0x18) (toLE 4 (wr + 1)) none
      else drop

/-- A record to a run's launch fault log; a log that is absent or fails translation takes nothing. -/
def faultLog (run : Nat) (r : FaultRec) : Act Unit := do
  let c ← getChip
  whenSome (mget? c.runs run) fun x =>
    if x.flog = 0 then pure ()
    else do
      match ← hwRead x.ctx x.flog 64 with
      | none => pure ()
      | some h => do
        let size := recNat h 0 4
        let wr := recNat h 4 4
        if wr < size then do
          let ok ← quietWrite x.ctx (x.flog + 64 + 64 * (wr % size)) (r.bytes (← clock))
          if ok then do
            let _ ← quietWrite x.ctx (x.flog + 4) (toLE 4 (wr + 1))
          else pure ()
        else do
          let _ ← quietWrite x.ctx (x.flog + 8) (toLE 4 (satInc (recNat h 8 4)))

/-! ## ECC counters (R122) -/

/-- The ten counter groups: 0 register files, 1 scratch, 2 tiles, 3 B slots, 4 L1 and instruction cache, 5 L2, 6 HBM,
7 request table, 8 marks, 9 mailbox. -/
def countEcc (die grp : Nat) (corrected : Bool) : Act Unit :=
  modDie die fun d =>
    let (c, u) := (mget? d.ecc grp).getD (0, 0)
    { d with ecc := mset d.ecc grp (if corrected then (satInc c, u) else (c, satInc u)) }

end Sys2Proof.Machine
end

