-- ==== Sys2Proof/Machine/Race.lean ====
section
/-! DEFINITION. The race checker: agents and scopes, verdicts, marks after an access, sync records, clocks and the race
log. -/

namespace Sys2Proof.Machine

/-! ## Clocks and the agent directory (R152-R154) -/

/-- Clock order modulo 2^16 (R154): k is at least c. -/
def clkGe (k c : BitVec 16) : Bool := (k - c).toNat < 2 ^ 15

def clkMax (a b : BitVec 16) : BitVec 16 := if clkGe a b then a else b

/-- What a mark's writer resolves to: its directory entry, none for UNKNOWN (R153). -/
def Chip.resolve (c : Chip) (agent : BitVec 20) (k : BitVec 16) : Option DirEntry :=
  match mget? (c.slot (agentSlot agent)).dir (agent.toNat / 2 ^ 15) with
  | none => none
  | some d => if clkGe k d.start then some d else none

/-- The checker's agent as the run's own numbering sees it. -/
def Chip.runOf (c : Chip) (who : Actor) : Option Run := mget? c.runs who.run

/-- shared_level and common_level of R161 with a least code, none where the runs differ: levels are the launch's
declared instances, and grid holds every team of a run. -/
def Chip.level (c : Chip) (d : DirEntry) (who : Actor) (least : Nat) : Option Nat :=
  if d.run ≠ who.run then none
  else
    match c.runOf who with
    | none => some 7
    | some r =>
      if least ≤ 2 && d.team = who.team then some 2
      else
        let same := r.levels.filter fun l =>
          l.dom ≥ least && r.instOf l.dom d.team.toNat = r.instOf l.dom who.team.toNat
        some ((same.map fun l => l.dom).headD 7)

/-- covers(s, B) of R161: the scope covers the actor and the writer, by their placement (R132). -/
def Chip.covers (c : Chip) (scope agent : Nat) (who : Actor) : Bool :=
  let a := BitVec.ofNat 20 agent
  let g := agentSlot a
  if scope ≥ 6 then true
  else if agent = agentCombined || agent = agentSummary || agent = agentClear then false
  else match scope with
  | 5 => coreDie (slotCore g) = coreDie who.core
  | 4 => coreCluster (slotCore g) = coreCluster who.core
  | 3 => slotCore g / 2 = who.core / 2
  | 2 => match mget? (c.slot g).dir (agent / 2 ^ 15) with
    | some d => d.run = who.run && d.team = who.team
    | none => false
  | _ => a = who.agent

/-- The full epoch number that a live code stands for (R156). -/
def fullEpoch (le : Nat) (e : Nat) : Int := (le : Int) - ((((le : Int) - e) % 128 + 128) % 128)

/-- epoch_proof of R161: level codes from `lo`, or EMAX for `none`. -/
def epochProof (le : Nat) (k : Checker) (lo : Option Nat) (e : Nat) : Bool :=
  let vals := match lo with
    | none => [k.emax.toNat]
    | some c => ((List.range 8).filter fun i => i ≥ 3 && i ≥ c).map fun i => (mgetD k.lb 0 i).toNat
  if e = epochNone then false
  else if e = epochAged then vals.any fun v => v ≥ 1 && v + 127 ≥ le
  else vals.any fun v => v ≥ 1 && fullEpoch le e < (v : Int)

/-! ## Accesses and verdicts -/

/-- A checked granule: a global granule, or a 32-byte granule of a core's scratch; `label` is its address as records
name it (R165). -/
structure Gran where
  core : Option Nat
  idx : Nat
  label : Nat
  deriving DecidableEq, Repr

/-- What is checked: who, the kind of R165, whether it is a synchronisation access with its scope, whether it writes. -/
structure Access where
  who : Actor
  kind : Nat
  sync : Bool
  scope : Nat
  write : Bool
  deriving DecidableEq, Repr

/-- A verdict: its code (0 ORDERED, 1 RACE, 2-8 of VERD) and what a record says of the other access. -/
structure Verdict where
  code : Nat
  reader : Bool
  mark : BitVec 64
  level : Nat
  deriving DecidableEq, Repr

def granMark (g : Gran) : Act (BitVec 64) :=
  match g.core with
  | none => markOf g.idx
  | some k => do return mgetD ((← getChip).core k).smarks markClear g.idx

def setGranMark (g : Gran) (m : BitVec 64) : Act Unit :=
  match g.core with
  | none => setMark g.idx m
  | some k => modCore k fun c => { c with smarks := mput markClear c.smarks g.idx m }

/-- A mark that holds a reserved EPOCH counts as SUMMARY (R156, R167). -/
def markView (m : BitVec 64) : BitVec 64 :=
  if markAgent m ≠ agentClear && markAgent m ≠ agentSummary && markEpoch m > epochAged then markSummary else m

/-- summary_check of R166: true for ORDERED. A summary's NONE or AGED proves nothing. -/
def Chip.summaryOrdered (c : Chip) (sum : Nat) (who : Actor) (le : Nat) : Bool :=
  if bits sum 32 1 = 0 then true
  else
    let run := bits sum 0 32
    let mine := match c.runOf who with
      | some r => r.runNo.toNat = run
      | none => false
    let done := !mine && !(c.runs.any fun e => e.2.runNo.toNat = run && e.2.status ≠ .complete)
    done || (match c.runOf who with
      | none => false
      | some r => [3, 4, 5, 6, 7].any fun k =>
        let lv := bits sum (34 + 24 * (k - 3)) 24
        match r.instOf k who.team.toNat with
        | none => false
        | some i => lv / 256 = i % 65536 && lv / 256 ≠ 0xFFFF && lv % 256 < epochNone && epochProof le who.chk (some k) (lv % 256))

/-- check_write_part of R161: the verdict's code. `sum` is the page's summary, none for a frame that no table covers (R305). -/
def Chip.writePart (c : Chip) (a : Access) (m : BitVec 64) (sum : Option Nat) : Nat :=
  let who := a.who
  let k := who.chk
  let le := match c.runOf who with
    | some r => r.le.toNat
    | none => 0
  let wa := markAgent m
  let e := markEpoch m
  if wa = agentClear then 0
  else if wa = agentSummary then (if sum.any fun x => c.summaryOrdered x who le then 0 else 3)
  else if a.sync && markScope m ≠ 0 && c.covers (markScope m) wa who && c.covers a.scope wa who then 0
  else if wa = agentCombined then (if epochProof le k none e then 0 else 7)
  else
    let ag := BitVec.ofNat 20 wa
    match c.resolve ag (markClk m) with
    | none => 8
    | some d =>
      let s := c.level d who 2
      if d.state = .done && d.run ≠ who.run then 0
      else if ag = who.agent && d.run = who.run && d.team = who.team && d.group = who.index then 0
      else if d.run = who.run && d.team = who.team && d.state = .resident &&
          clkGe (mgetD k.vec 0 d.group) (markClk m) && e ≠ epochAged then 0
      else if (k.know.any fun p => p.1 = ag && clkGe p.2 (markClk m)) && e ≠ epochAged then 0
      else if (match c.level d who 3 with
          | some l => epochProof le k (some l) e
          | none => false) then 0
      else if e = epochAged then 6
      else if d.state = .departed then 4
      else if (match s with
          | some l => k.ovf.getLsbD l
          | none => k.ovf ≠ 0) then 2
      else 1

/-- check_reader_part of R161. -/
def Chip.readerPart (c : Chip) (a : Access) (m : BitVec 64) : Nat :=
  let le := match c.runOf a.who with
    | some r => r.le.toNat
    | none => 0
  if markRk m = 0 then 0
  else if markRk m = 1 && markRhash m = a.who.agent.toNat % 16 then 0
  else if a.sync && markRscope m ≠ 0 then 0
  else if epochProof le a.who.chk none (markRepoch m) then 0
  else 5

/-- The level code of a record (R435). -/
def Chip.recordLevel (c : Chip) (a : Access) (m : BitVec 64) (reader : Bool) : Nat :=
  if reader then
    let mates := match mget? c.teams a.who.tid with
      | some t => t.slots.any fun g => g ≠ a.who.slot && (c.agent g).toNat % 16 = markRhash m
      | none => false
    if markRk m = 1 && mates then 2 else 0
  else if markAgent m ≥ agentSummary then 0
  else match c.resolve (BitVec.ofNat 20 (markAgent m)) (markClk m) with
    | some d => (c.level d a.who 2).getD 0
    | none => 0

/-- The verdict on one granule: for a write, RACE from either part, then UNPROVABLE from either part (R161). -/
def judge (a : Access) (g : Gran) : Act Verdict := do
  if a.who.mode = 0 then return ⟨0, false, 0, 0⟩
  else do
    let m ← granMark g
    let sum ← if markAgent (markView m) = agentSummary && g.core.isNone && ((← getChip).summaryAt (g.idx / 128)).isSome then
        some <$> summaryOf g.idx else pure none
    let c ← getChip
    let w := c.writePart a (markView m) sum
    let r := if a.write then c.readerPart a (markView m) else 0
    let reader := w = 0 && r ≠ 0
    return ⟨if w ≠ 0 then w else r, reader, m, c.recordLevel a m reader⟩

/-! ## The race log (R165) -/

/-- A count and, where the mode gives one, a record to a run's race ring (R163, R164). A ring that is absent or fails
translation takes nothing. -/
def raceNote (mode : BitVec 2) (r : RaceRec) : Act Unit := do
  let c ← getChip
  whenSome (mget? c.runs r.run) fun x =>
    if x.rlog = 0 then pure ()
    else do
      match ← hwRead x.ctx x.rlog 64 with
      | none => pure ()
      | some h => do
        let size := recNat h 0 4
        let wr := recNat h 8 4
        let cnt := if r.verd = 1 then 0x10 else 0x14
        let _ ← hwWrite x.ctx (x.rlog + cnt) (toLE 4 (satInc (recNat h cnt 4)))
        if r.verd = 1 || mode = 1 then
          if (wr + 2 ^ 32 - recNat h 4 4) % 2 ^ 32 < size then do
            let bs := toLE 8 r.gran ++ toLE 8 r.pc.toNat ++ toLE 4 r.agt ++ toLE 4 r.aclk ++ toLE 4 r.oagt ++
              toLE 4 r.oclk ++ toLE 4 r.kinds ++ toLE 4 r.verd ++ toLE 8 r.mark.toNat ++ toLE 4 r.mask ++
              toLE 4 x.lid.toNat ++ toLE 4 x.runNo.toNat ++ toLE 4 r.team.toNat
            let _ ← hwWrite x.ctx (x.rlog + 64 + 64 * (wr % size)) bs
            let _ ← hwWrite x.ctx (x.rlog + 8) (toLE 4 (satInc wr))
          else do
            let _ ← hwWrite x.ctx (x.rlog + 12) (toLE 4 (satInc (recNat h 12 4)))
        else pure ()

/-- The record of a verdict on a granule for the lanes that met it. -/
def raceRec (a : Access) (g : Gran) (v : Verdict) (mask : Nat) : RaceRec :=
  let m := v.mark
  let oagt := if v.reader then (if markRk m = 1 then markRhash m else agentClear) else markAgent m
  let okind := if v.reader then (if markRscope m = 0 then 0 else 2) else (if markScope m = 0 then 1 else 3)
  { run := a.who.run, gran := g.label, pc := a.who.pc, agt := a.who.agent.toNat,
    aclk := a.who.clock.toNat + a.who.path % 4 * 2 ^ 16, oagt := oagt, oclk := (markClk m).toNat,
    kinds := a.kind + okind * 16 + v.level * 256, verd := v.code, mark := m, mask := mask, team := a.who.team }

/-- Lanes of an access with the granule each touches. -/
abbrev GranLanes := List (Nat × Gran)

def distinct [DecidableEq α] : List α → List α
  | [] => []
  | x :: r => x :: (distinct r).filter fun y => y ≠ x

/-- The verdicts on the distinct granules of an access, with the mask of their lanes. The home first combines the partials
of each line that the access, other than an MRED, reaches (R117). -/
def judgeAll (a : Access) (gs : GranLanes) : Act (List (Gran × Verdict × Nat)) :=
  mapAct (distinct (gs.map Prod.snd)) fun g => do
    if a.kind ≠ 5 && g.core.isNone then recallLine (g.idx / 4) else pure ()
    let v ← judge a g
    let mask := (gs.filter fun x => x.2 = g).foldl (fun n x => n ||| 2 ^ x.1) 0
    return (g, v, mask)

/-- The records of every verdict but ORDERED. -/
def verdictRecs (a : Access) (vs : List (Gran × Verdict × Nat)) : List RaceRec :=
  (vs.filter fun v => v.2.1.code ≠ 0).map fun v => raceRec a v.1 v.2.1 v.2.2

/-- The trap of the lowest lane judged RACE under TRAP, if any lane is (R163). -/
def raceTrap (a : Access) (gs : GranLanes) (vs : List (Gran × Verdict × Nat)) : Option TrapInfo :=
  if a.who.mode ≠ 2 then none
  else
    match gs.find? fun x => vs.any fun v => v.1 = x.2 && v.2.1.code = 1 with
    | none => none
    | some (lane, g) =>
      some ⟨causeRace, 1 + a.kind * 16, BitVec.ofNat 64 g.label, lane, 0, verdictRecs a vs, false, 0, 0⟩

/-! ## Sync records (R157, R158) -/

def sameGran (g : Gran) (r : SyncRec) : Bool := r.gran = g.idx

def granRecs (c : Chip) (g : Gran) : List SyncRec :=
  match g.core with
  | none => c.recs
  | some k => (c.core k).srecs

def setGranRecs (g : Gran) (rs : List SyncRec) : Act Unit :=
  match g.core with
  | none => modChip fun c => { c with recs := rs }
  | some k => modCore k fun c => { c with srecs := rs }

def granLost (c : Chip) (g : Gran) : Bool :=
  match g.core with
  | none => c.lost.contains g.idx
  | some k => (c.core k).slost.contains g.idx

def setGranLost (g : Gran) (idx : Nat) : Act Unit :=
  match g.core with
  | none => modChip fun c => { c with lost := idx :: c.lost.filter fun x => x ≠ idx }
  | some k => modCore k fun c => { c with slost := idx :: c.slost.filter fun x => x ≠ idx }

def clearGranLost (g : Gran) : Act Unit :=
  match g.core with
  | none => modChip fun c => { c with lost := c.lost.filter fun x => x ≠ g.idx }
  | some k => modCore k fun c => { c with slost := c.slost.filter fun x => x ≠ g.idx }

def Chip.recordAt (c : Chip) (g : Gran) : Option SyncRec := (granRecs c g).find? (sameGran g)

/-- KNOW with an agent's clock raised. -/
def knowPut (know : List (BitVec 20 × BitVec 16)) (a : BitVec 20) (k : BitVec 16) : List (BitVec 20 × BitVec 16) :=
  if know.any fun p => p.1 = a then know.map fun p => if p.1 = a then (a, clkMax p.2 k) else p
  else know ++ [(a, k)]

/-- VEC with every entry raised to another's. -/
def vecMax (a b : Map (BitVec 16)) : Map (BitVec 16) :=
  b.foldl (fun m e => mput 0 m e.1 (clkMax (mgetD m 0 e.1) e.2)) a

/-- The partition that owns a channel group (R305). -/
def Chip.groupOwner (c : Chip) (g : Nat) : Option Partition :=
  (mvals c.parts).find? fun p => if g < 64 then p.ch0.getLsbD g else p.ch1.getLsbD (g - 64)

/-- The home slice of a granule's line, die × 40 + slice, four slices to a cluster (R108, R306): for HBM among the owner's
clusters on the die of its channel group, or among the die's 40 where nobody owns the group; for companion memory among all
160 (assumption 7). -/
def Chip.homeSlice (c : Chip) (gran : Nat) : Nat :=
  let line := gran / 4
  if c.tiered (line * 128) 128 then Config.homeHash 160 line % 160
  else
    let g := Config.channelOf line % 128
    let die := g / 32
    match (c.groupOwner g).elim [] fun p => p.clusters.filter fun k => k / 10 = die with
    | [] => die * 40 + Config.homeHash 40 line % 40
    | ks =>
      let n := 4 * ks.length
      let i := Config.homeHash n line % n
      ks.getD (i / 4) 0 * 4 + i % 4

/-- The granule's store over its capacity: the least recently used record of the same store goes (R157). The store's
total is counted first, so that the hash decides nothing below the capacity. -/
def Chip.recsOver (c : Chip) (g : Gran) (rs : List SyncRec) : Option SyncRec :=
  let least := fun (xs : List SyncRec) =>
    xs.foldl (fun (m : Option SyncRec) x => match m with
      | none => some x
      | some y => if x.used < y.used then some x else some y) none
  match g.core with
  | some _ => if rs.length ≤ 256 then none else least rs
  | none =>
    if rs.length ≤ 4096 then none
    else
      let same := rs.filter fun r => c.homeSlice r.gran = c.homeSlice g.idx
      if same.length ≤ 4096 then none else least same

def useStamp : Act Nat := do
  let c ← getChip
  setChip { c with seq := c.seq + 1 }
  return c.seq

/-- A granule's record written; one that it pushes out leaves the lost bit of its granule (R157, R158). -/
def putRecord (g : Gran) (r : SyncRec) : Act Unit := do
  let rs := r :: (granRecs (← getChip) g).filter fun x => !sameGran g x
  match (← getChip).recsOver g rs with
  | none => setGranRecs g rs
  | some old => do
    setGranRecs g (rs.filter fun x => x.gran ≠ old.gran)
    setGranLost g old.gran

def dropRecord (g : Gran) : Act Unit := do
  let rs := granRecs (← getChip) g
  if rs.any (sameGran g) then setGranRecs g (rs.filter fun x => !sameGran g x) else pure ()

/-- The common level of an agent with a group, for the choice of the entry KNOW drops: 7 for another run (R158). -/
def Chip.knowLevel (c : Chip) (who : Actor) (e : BitVec 20 × BitVec 16) : Nat :=
  match c.resolve e.1 e.2 with
  | some d => (c.level d who 3).getD 7
  | none => 7

/-- The entry KNOW drops: the highest common level, the oldest clock first among equals (R158). -/
def Chip.knowVictim (c : Chip) (who : Actor) : List (BitVec 20 × BitVec 16) → Option (BitVec 20 × BitVec 16)
  | [] => none
  | e :: r => match c.knowVictim who r with
    | none => some e
    | some f =>
      if c.knowLevel who e > c.knowLevel who f || (c.knowLevel who e = c.knowLevel who f && clkGe f.2 e.2) then some e
      else some f

/-- KNOW brought to 16 entries by `n` drops, with the OVF bits set (R158). -/
def Chip.trimKnow (c : Chip) (who : Actor) : Nat → Checker → Checker
  | 0, k => k
  | n + 1, k =>
    if k.know.length ≤ 16 then k
    else match c.knowVictim who k.know with
      | none => k
      | some e => c.trimKnow who n { k with
          know := k.know.filter fun x => x ≠ e, ovf := k.ovf ||| BitVec.ofNat 8 (2 ^ c.knowLevel who e) }

/-- KNOW within its 16 entries (R151, R158). -/
def Chip.fitKnow (c : Chip) (who : Actor) (k : Checker) : Checker := c.trimKnow who k.know.length k

/-- The clocks of a record's VEC by agent, for the groups of its team that are resident. -/
def Chip.vecAgents (c : Chip) (r : SyncRec) : List (BitVec 20 × BitVec 16) :=
  match c.teams.find? fun t => t.2.run = r.run && t.2.num = r.team with
  | none => []
  | some (_, t) => r.vec.filterMap fun e => (t.slots[e.1]?).map fun g => (c.agent g, e.2)

/-- A record that another joins, the larger clock for each agent (R157): the clocks of a VEC of another team go into KNOW, and
the wider scope stands. -/
def Chip.joinRecord (c : Chip) (who : Actor) (new old : SyncRec) : SyncRec :=
  let mates := old.run = new.run && old.team = new.team
  let more := (old.agent, old.clock) :: old.know ++ (if mates then [] else c.vecAgents old)
  let all := (more.foldl (fun k e => knowPut k e.1 e.2) new.know).filter fun e => e.1 ≠ who.agent
  let kept := (c.fitKnow who { Checker.init with know := all }).know
  { new with
    know := kept, lossy := old.lossy || kept.length < all.length, scope := max new.scope old.scope
    vec := if mates then vecMax new.vec old.vec else new.vec }

/-- A release at .tm or wider writes a record with the published clock; with `merge` it merges into the granule's
(R157). -/
def releaseRecord (g : Gran) (who : Actor) (published : BitVec 16) (scope : Nat) (merge : Bool) : Act Unit := do
  if scope < 2 then pure ()
  else do
    let used ← useStamp
    let c ← getChip
    let new : SyncRec :=
      ⟨g.idx, who.run, who.agent, who.team, who.index, published, scope, who.chk.vec, who.chk.know, false, used⟩
    putRecord g (match c.recordAt g with
      | some old => if merge then c.joinRecord who new old else new
      | none => new)

/-- OVF at every level up to a scope (R158). -/
def ovfUpTo (k : Checker) (scope : Nat) : Checker :=
  { k with ovf := k.ovf ||| BitVec.ofNat 8 (((List.range 8).filter fun i => 2 ≤ i && i ≤ scope).foldl (fun n i => n + 2 ^ i) 0) }

/-- merge(B, rec) of R158. -/
def Chip.mergeInto (c : Chip) (who : Actor) (k : Checker) (r : SyncRec) : Checker :=
  let know := (knowPut k.know r.agent r.clock)
  let know := (r.know.foldl (fun k e => knowPut k e.1 e.2) know).filter fun e => e.1 ≠ who.agent
  let vec := if r.run = who.run && r.team = who.team then
      vecMax (mput 0 k.vec r.group (clkMax (mgetD k.vec 0 r.group) r.clock)) r.vec
    else k.vec
  c.fitKnow who { k with know := know, vec := vec }

/-- The checker state after an acquire at a scope of what a read found: its record merges, and a lost one, or one whose own
KNOW overflowed, sets OVF (R158; assumption 83). -/
def Chip.acquireRec (c : Chip) (r : Option SyncRec) (who : Actor) (scope : Nat) (k : Checker) : Checker :=
  match r with
  | some r => let k := c.mergeInto who k r; if r.lossy then ovfUpTo k scope else k
  | none => ovfUpTo k scope

/-- What a read of a granule finds for the checker: its record, or that one was lost; nothing where there is neither. -/
def Chip.findRec (c : Chip) (g : Gran) : Option (Option SyncRec) :=
  match c.recordAt g with
  | some r => some (some { r with used := 0 })
  | none => if granLost c g then some none else none

/-- The checker state after an acquire of a granule at a scope. -/
def Chip.acquireChecker (c : Chip) (g : Gran) (who : Actor) (scope : Nat) (k : Checker) : Checker :=
  (c.findRec g).elim k fun r => c.acquireRec r who scope k

/-- A group's checker state changed. -/
def modChecker (g : Nat) (f : Checker → Checker) : Act Unit := modGroup g fun x => { x with chk := f x.chk }

/-- Whether the group that made an access is still in its slot. -/
def Chip.stillThere (c : Chip) (who : Actor) : Bool := c.agent who.slot = who.agent && (c.group? who.slot).isSome

def sameGroup (a b : Actor) : Bool := a.slot = b.slot && a.agent = b.agent

/-- What an acquiring access has learned holds for every access and operation that its group issued after it and that has not
performed (R123, R134, R138): those numbered above `seq`. -/
def Chip.passOn (c : Chip) (who : Actor) (seq : Nat) (f : Actor → Actor) : Chip :=
  { c with
    memq := c.memq.map fun e => if sameGroup e.who who && seq < e.seq then { e with who := f e.who } else e
    engops := c.engops.map fun e => (e.1, if sameGroup e.2.who who && seq < e.2.after then { e.2 with who := f e.2.who } else e.2)
    copies := c.copies.map fun e =>
      (e.1, if e.2.after.any fun a => sameGroup a.1 who && seq < a.2 then { e.2 with who := f e.2.who } else e.2)
    cores := mmod c.cores who.core fun k => { k with order := k.order.map fun e =>
      (e.1, if sameGroup e.2.who who && seq < e.2.after then { e.2 with who := f e.2.who } else e.2) } }

/-- An acquiring access of a group reads a granule; `seq` is the access's number. -/
def acquireGran (g : Gran) (who : Actor) (scope seq : Nat) : Act Unit := do
  let c ← getChip
  if !c.stillThere who then pure ()
  else do
    modChecker who.slot (c.acquireChecker g who scope)
    modGroup who.slot fun x => { x with acqLoads := [] }
    modChip fun c => c.passOn who seq fun a => { a with chk := c.acquireChecker g a scope a.chk }
    match c.recordAt g with
    | none => pure ()
    | some r => do
      let used ← useStamp
      setGranRecs g ((granRecs c g).map fun x => if sameGran g x then { r with used := used } else x)

/-! ## Marks after an access (R160) -/

/-- The larger of two reader epochs: NONE if either is, else the later number (R159). -/
def repochMax (le a b : Nat) : Nat :=
  if a = epochNone || b = epochNone then epochNone
  else if a = epochAged then b
  else if fullEpoch le a < fullEpoch le b then b else a

/-- The mark after a read by an actor at a scope, 0 for an ordinary read. -/
def readMark (le : Nat) (who : Actor) (scope : Nat) (m : BitVec 64) : BitVec 64 :=
  let h := who.agent.toNat % 16
  let e := epochCode who.chk
  let (rk, rs, re, rh) :=
    if markRk m = 0 then (1, scope, e, h)
    else
      let many := markRk m = 2 || markRhash m ≠ h
      (if many then 2 else 1, if markRscope m < scope then markRscope m else scope, repochMax le (markRepoch m) e,
        if many then 0 else h)
  mkMark (markAgent m) (markClk m).toNat (markEpoch m) (markScope m) rk rs re rh

def Chip.leOf (c : Chip) (who : Actor) : Nat := match c.runOf who with
  | some r => r.le.toNat
  | none => 0

/-- A read performs on a granule: the mark's reader fields, and the list of loads for an .acq fence (R158, R160). -/
def markRead (a : Access) (g : Gran) : Act Unit := do
  let c ← getChip
  let m ← granMark g
  setGranMark g (readMark (c.leOf a.who) a.who (if a.sync then a.scope else 0) m)

/-- A write performs on a granule: the mark, and the fate of its record and lost bit. An ordinary store after a completed
.ar fence leaves a record at the fence's scope (`after`, R157); another agent's plain store removes one. -/
def markWrite (a : Access) (g : Gran) (after : Nat) : Act Unit := do
  setGranMark g (writeMark a.who (if a.sync then a.scope else 0))
  clearGranLost g
  if a.sync then pure ()
  else if after ≠ 0 then releaseRecord g a.who (a.who.clock - 1) after false
  else
    match (← getChip).recordAt g with
    | some r => if r.agent ≠ a.who.agent then dropRecord g else pure ()
    | none => pure ()

/-- What a load has read is remembered for the merge of an .acq fence: five records, of which the fence merges four, and that
one was lost (R158). -/
def rememberLoad (who : Actor) (g : Gran) : Act Unit := do
  let c ← getChip
  if c.stillThere who then
    whenSome (c.findRec g) fun r =>
      modGroup who.slot fun x =>
        let full := r.isSome && 5 ≤ (x.acqLoads.filter Option.isSome).length
        if x.acqLoads.contains r || full then x else { x with acqLoads := x.acqLoads ++ [r] }
  else pure ()

/-! ## Releases (R152) -/

/-- A releasing event of a group: its CLK is published and raised by 1. Not ready while the clock would cross a multiple
of 2^14 and an earlier aging has not finished (R154). -/
def publish (g : Nat) : Act (BitVec 16) := do
  let s := (← getChip).slot g
  let next := s.clock + 1
  let crosses := next.toNat % 2 ^ 14 = 0
  if crosses && s.aging then notReady
  else do
    modSlot g fun x => { x with clock := next, aging := x.aging || crosses }
    modGroup g fun x => { x with relScope := 0 }
    return s.clock

/-- The actor of the acting path at this moment. -/
def Here.actor (h : Here) : Actor :=
  { slot := h.g, path := h.p, pc := h.path.pc, agent := h.agent, run := h.runId, tid := h.tid, team := h.team.num,
    index := h.grp.index, ctx := h.ctx, core := h.core, clock := h.slot.clock, chk := h.grp.chk,
    mode := h.team.raceMode, mask := h.path.mask,
    user := h.path.level ≠ .supervisor }

/-- The actor of a path of a group, for what hardware does on its behalf. -/
def Chip.actorOf (c : Chip) (g p : Nat) : Option Actor := (c.here? g p).map Here.actor

/-! ## Checked accesses -/

/-- Judge an access that performs now: a RACE under TRAP stops with the trap; every other verdict is logged as the mode
gives, and the access goes on (R163). -/
def checkAccess (a : Access) (gs : GranLanes) : Act Unit := do
  let vs ← judgeAll a gs
  match raceTrap a gs vs with
  | some t => stop (.trap t)
  | none => each (verdictRecs a vs) (raceNote a.who.mode)

/-- Judge an asynchronous access: true where RACE under TRAP keeps it from performing (R168). -/
def checkAsync (a : Access) (gs : GranLanes) : Act Bool := do
  let vs ← judgeAll a gs
  each (verdictRecs a vs) (raceNote a.who.mode)
  return (raceTrap a gs vs).isSome

/-- The granules of a physical range as one lane's. -/
def globGrans (lane pa n : Nat) : GranLanes := (granulesOf pa n).map fun g => (lane, ⟨none, g, g * 32⟩)

/-- The granules of a range of a core's scratch, labelled by byte offsets of a team's allocation (R165). -/
def scrGrans (core base lane off n : Nat) : GranLanes :=
  (granulesOf (base + off) n).map fun g => (lane, ⟨some core, g, 2 ^ 56 + (g * 32 - base) % 2 ^ 19⟩)

end Sys2Proof.Machine
end

