-- ==== Sys2Proof/Machine/Mem.lean ====
section
/-! DEFINITION. Spaces and lanes: effective-address checks, the on-chip map, scratch, frame window, mailbox, pending
accesses and when they may perform, traces. -/

namespace Sys2Proof.Machine

/-! ## Scratch (R102-R106) -/

/-- First byte and size of a team's scratch allocation. -/
def Team.scrLo (t : Team) : Nat := t.scrBase * 2048
def Team.scrSize (t : Team) : Nat := t.scrUnits * 2048

def Core.byte (c : Core) (a : Nat) : Byte := mgetD c.scratch 0 a
def Core.setBytes (c : Core) (a : Nat) (bs : List Byte) : Core :=
  { c with scratch := bs.zipIdx.foldl (fun m p => mput 0 m (a + p.2) p.1) c.scratch }
def Core.bytes (c : Core) (a n : Nat) : List Byte := (List.range n).map fun i => c.byte (a + i)
def Core.isFull (c : Core) (g : Nat) : Bool := mgetD c.full false g
def Core.setFull (c : Core) (gs : List Nat) (v : Bool) : Core :=
  { c with full := gs.foldl (fun m g => mput false m g v) c.full }

/-- The 16-byte granules that a range of scratch bytes touches (R102). -/
def fullGrans (a n : Nat) : List Nat :=
  if n = 0 then [] else (List.range ((a + n - 1) / 16 - a / 16 + 1)).map fun i => a / 16 + i

/-- Full bits set or cleared by a program's access: no engine's landing stands behind them (R103). -/
def Core.markFull (c : Core) (gs : List Nat) (v : Bool) : Core :=
  { c.setFull gs v with fills := c.fills.filter fun e => !gs.contains e.1 }

/-- Full bits set by an engine's landing (R103, R138). -/
def Core.landFull (c : Core) (gs : List Nat) (agent : BitVec 20) (clk : BitVec 16) : Core :=
  { c.setFull gs true with fills := gs.foldl (fun m g => mset m g (agent, clk)) c.fills }

/-! ## Operand records (R67, R68) -/

/-- An operand record's fields; `rows` is 4 096 where ROWS is 0. -/
structure OpRec where
  base : Nat
  stride : Nat
  rows : Nat
  len : Nat
  tag : BitVec 4
  few : Bool
  fec : Bool
  fes : Bool
  deriving DecidableEq, Repr

def OpRec.of (r : BitVec 64) : OpRec :=
  let n := r.toNat
  { base := bits n 0 16, stride := bits n 16 16, rows := if bits n 32 12 = 0 then 4096 else bits n 32 12, len := bits n 44 12,
    tag := BitVec.ofNat 4 (bits n 56 4), few := bits n 60 1 = 1, fec := bits n 61 1 = 1, fes := bits n 62 1 = 1 }

/-- The scratch byte of the team at which a row starts. -/
def OpRec.row (r : OpRec) (i : Nat) : Nat := (r.base + i * r.stride) * 16
/-- Bytes of a row. -/
def OpRec.rowBytes (r : OpRec) : Nat := r.len * 16
/-- The last 16-byte unit plus one. -/
def OpRec.endUnit (r : OpRec) : Nat := r.base + (r.rows - 1) * r.stride + r.len

/-- The scratch ranges of a record's rows on a core, for a team. -/
def OpRec.ranges (r : OpRec) (lo : Nat) : List (Nat × Nat) := (List.range r.rows).map fun i => (lo + r.row i, r.rowBytes)

/-- The 16-byte granules of a record's rows. -/
def OpRec.grans (r : OpRec) (lo : Nat) : List Nat := distinct ((r.ranges lo).flatMap fun x => fullGrans x.1 x.2)

/-! ## The on-chip physical map (R98-R101) -/

def opmCore (a : Nat) : Nat := bits a 22 9
def opmKind (a : Nat) : Nat := bits a 20 2
def opmOff (a : Nat) : Nat := bits a 0 20

/-- The group slot, register and lane of a register-window offset. -/
def opmReg (core off : Nat) : Nat × Nat × Nat :=
  (core * 64 + off / 0x40000 % 4 * 16 + off % 0x40000 / 0x4000, off % 0x4000 / 0x80, off % 0x80 / 4)

/-- The value store of a B slot's load (R188): its data rows, a vector load's vectors one after another. -/
def BLoad.bytes (b : BLoad) : List Byte := (if b.vecs = 0 then b.rows else b.rows.map fun r => r.take b.k).flatten

/-- Where a physical scratch offset of a core stands in its scratch table: in the team that holds its 2 KiB unit (R25, R98). -/
def Chip.scrPos (c : Chip) (core off : Nat) : Option Nat :=
  c.teams.findSome? fun t =>
    if t.2.core = core then (t.2.scrAt.idxOf? (off / 2048)).map fun i => t.2.scrLo + i * 2048 + off % 2048 else none

/-- The team that holds a physical scratch offset of a core. -/
def Chip.scrTeam (c : Chip) (core off : Nat) : Option (Nat × Team) :=
  c.teams.find? fun t => t.2.core = core && t.2.scrAt.contains (off / 2048)

/-- One word of the on-chip map. -/
def Chip.opmWord (c : Chip) (core kind word : Nat) : Word :=
  match kind with
  | 0 =>
    let (g, r, i) := opmReg core (4 * word)
    match c.group? g with
    | some x => (x.vreg r i).bits
    | none => 0
  | 1 => (c.scrPos core (4 * word)).elim 0 fun p => BitVec.ofNat 32 (fromLE ((c.core core).bytes p 4))
  | 2 => mgetD (c.core core).tiles 0 word
  | _ =>
    match mget? (c.core core).bslots (word / 0x2000) with
    | some b => BitVec.ofNat 32 (fromLE ((b.bytes.drop (4 * (word % 0x2000))).take 4))
    | none => 0

/-- One word of the on-chip map written: a register takes the tag given (R101). -/
def Chip.setOpmWord (c : Chip) (core kind word : Nat) (tag : BitVec 4) (v : Word) : Chip :=
  match kind with
  | 0 =>
    let (g, r, i) := opmReg core (4 * word)
    c.modGroup g fun x => x.setV r i ⟨v, tag⟩
  | 1 => (c.scrPos core (4 * word)).elim c fun p => c.modCore core fun x => x.setBytes p (toLE 4 v.toNat)
  | 2 => c.modCore core fun x => { x with tiles := mput 0 x.tiles word v }
  | _ => c

def Chip.opmRead (c : Chip) (a n : Nat) : List Byte :=
  (List.range n).map fun i =>
    let o := opmOff a + i
    (c.opmWord (opmCore a) (opmKind a) (o / 4)).extractLsb' (8 * (o % 4)) 8

def Chip.opmWrite (c : Chip) (a : Nat) (tag : BitVec 4) (bs : List Byte) : Chip :=
  bs.zipIdx.foldl (fun c p =>
    let o := opmOff a + p.2
    let w := c.opmWord (opmCore a) (opmKind a) (o / 4)
    let w' : Word := (w &&& ~~~((0xFF : Word) <<< (8 * (o % 4)))) ||| ((p.1.setWidth 32 : Word) <<< (8 * (o % 4) : Nat))
    c.setOpmWord (opmCore a) (opmKind a) (o / 4) tag w') c

/-- The resident teams of a launch on a core. -/
def Chip.launchTeams (c : Chip) (lid : Word) (core : Nat) : List (Nat × Team) :=
  c.teams.filter fun t => t.2.core = core &&
    (match mget? c.runs t.2.run with
      | some r => r.lid = lid
      | none => false)

/-- Whether an MX lease of a core is held by a group of one of the teams. -/
def Chip.mxHeldBy (c : Chip) (core : Nat) (tids : List Nat) : Bool :=
  c.leases.any fun l => l.2.cls = 0 && l.2.place = core && (l.2.state = .held || l.2.state = .notice) &&
    tids.contains l.2.tid

/-- The check of R99 on a range of one window: 0 allowed, else the ACCESS cause data. `sup` is a supervisor path, which
passes for any core of its partition. Non-zero high bits give 0x0002 (assumption 78), and a B slot in use is tested first
(assumption 37). -/
def Chip.opmCheck (c : Chip) (lid : Word) (part : Nat) (sup write : Bool) (a n : Nat) : Nat :=
  let k := opmCore a
  let o := opmOff a
  if bits a 31 17 ≠ 0 || k ≥ 320 then 2
  else
    let own := sup && (c.part part).clmask.getLsbD (coreCluster k)
    let ts := c.launchTeams lid k
    if !own && ts.isEmpty then 1
    else match opmKind a with
    | 0 =>
      if o + n > 0x100000 then 2
      else
        let ok := (fullGrans o n).all fun w =>
          let (g, r, _) := opmReg k (16 * w)
          match c.group? g with
          | some x => r < x.alloc && (own || ts.any fun t => t.1 = x.tid)
          | none => own
        if ok then 0 else 2
    | 1 =>
      if o + n > 393216 then 2
      else if own || (fullGrans o n).all fun w => ts.any fun t => t.2.scrAt.contains (w / 128) then 0 else 2
    | 2 =>
      if o + n > 0x40000 then 2
      else if own || (List.range ((o + n - 1) / 0x4000 + 1 - o / 0x4000)).all fun k =>
          ts.any fun t => t.2.tiles.contains (o / 0x4000 + k) then 0
      else 2
    | _ =>
      if o + n > 0x20000 then 2
      else if write then 3
      else if !own && !c.mxHeldBy k (ts.map Prod.fst) then 2 else 0

/-! ## Frames and the frame window (R255, R256) -/

/-- The position of a core among its partition's cores. -/
def Partition.corePos (p : Partition) (core : Nat) : Nat :=
  (p.clusters.takeWhile fun k => k ≠ coreCluster core).length * 8 + core % 8

/-- The offset of a frame in its trap area. -/
def frameOffset (pos slot path level : Nat) : Nat := 0x1000 + (((pos * 64 + slot) * 4 + path) * 2 + level) * 0x2400

/-- The frame of a path at a handler level (0 user, 1 supervisor): its offset in the context's trap area. -/
def Chip.frameOff (c : Chip) (ctx g p level : Nat) : Nat :=
  frameOffset ((c.part (c.ctx ctx).part).corePos (slotCore g)) (g % 64) p level

/-- FWIN of a context, 0 for none. -/
def frameWindow (ctx : Nat) : Act Nat := do
  match ((← getChip).ctx ctx).area with
  | some a => homeNat (a.pa + 0x28) 8
  | none => return 0

/-- Whether a range meets the frame window's 16 KiB, which no engine or copy may reach (R256). -/
def meetsWindow (fwin va n : Nat) : Bool := fwin ≠ 0 && n ≠ 0 && va < fwin + 0x4000 && fwin < va + n

def levelCode : Level → Nat
  | .supervisor => 1
  | _ => 0

/-- Where the issuing path's current frame stands in physical memory. -/
def Chip.framePa (c : Chip) (h : Here) : Nat :=
  match (c.ctx h.ctx).area with
  | some a => a.pa + c.frameOff h.ctx h.g h.p (levelCode h.path.level)
  | none => 0

/-! ## Lanes -/

/-- What a form may reach and does: whether it writes, whether OPM and the frame window are open to it, and whether the
mailbox is at supervisor level (R96, R256). -/
structure FormUse where
  write : Bool
  opm : Bool
  frame : Bool
  mbox : Bool
  deriving DecidableEq, Repr

/-- The lowest lane that fails a check traps. -/
def checkLanes (ls : List (Nat × Addr)) (bad : Addr → Bool) (cause data : Nat) : Act Unit :=
  match ls.find? fun l => bad l.2 with
  | some (i, a) => trap cause data a i
  | none => pure ()

/-- Whether an access lies in the frame window's 16 KiB, and whether it is one that reaches the frame. -/
def inWindow (fwin : Nat) (a : Addr) : Bool := fwin ≠ 0 && fwin ≤ a.toNat && a.toNat < fwin + 0x4000
def reachesFrame (fwin n : Nat) (a : Addr) : Bool := inWindow fwin a && a.toNat + n ≤ fwin + 0x2400

/-- The space checks of R96, R99 and R256 over all lanes, in the order 0x0005, 0x0008, 0x0006, 0x0004, 0x0001, 0x0002,
0x0003. -/
def checkSpaces (h : Here) (u : FormUse) (n : Nat) (ls : List (Nat × Addr)) : Act Unit := do
  let c ← getChip
  let fwin ← frameWindow h.ctx
  let sup := h.path.level = .supervisor
  let opm := fun code a => c.region a = .opm && c.opmCheck h.run.lid h.run.part sup u.write a.toNat n = code
  checkLanes ls (fun a => c.region a = .bad) causeAccess 5
  checkLanes ls (fun a => inWindow fwin a && !(u.frame && h.path.level ≠ .normal && reachesFrame fwin n a)) causeAccess 8
  if !u.opm then checkLanes ls (fun a => c.region a = .opm) causeAccess 6 else pure ()
  if !(sup && u.mbox) then checkLanes ls (fun a => c.region a = .mailbox) causeAccess 4 else pure ()
  checkLanes ls (opm 1) causeAccess 1
  checkLanes ls (opm 2) causeAccess 2
  checkLanes ls (opm 3) causeAccess 3

def checkAlign (n : Nat) (ls : List (Nat × Addr)) : Act Unit :=
  checkLanes ls (fun a => a.toNat % n ≠ 0) causeAlign 0

/-- A lane before its access: data and compare value zero. -/
def lane0 (i : Nat) (a : Addr) (sp : Space) (pa : Nat) (bound : Bool) : LaneAcc := ⟨i, a, sp, pa, bound, 0, 0⟩

/-- Whether a path's accesses have user rights: every level but supervisor. -/
def Here.user (h : Here) : Bool := h.path.level ≠ .supervisor

/-- Each lane bound to its storage: on-chip, frame and mailbox lanes at once, global lanes translated precisely, or left
for the later walk where `late` is set and the translation cache misses (R113). -/
def bindLanes (h : Here) (u : Use) (late : Bool) (n : Nat) : List (Nat × Addr) → Act (List LaneAcc)
  | [] => return []
  | (i, a) :: r => do
    let c ← getChip
    let fwin ← frameWindow h.ctx
    let x ←
      if reachesFrame fwin n a then pure (lane0 i a .frame (c.framePa h + (a.toNat - fwin)) true)
      else match c.region a with
      | .opm => pure (lane0 i a .opm (a.toNat % 2 ^ 31) true)
      | .mailbox => pure (lane0 i a .mailbox (a.toNat - ((c.mboxWin.map Prod.fst).getD 0)) true)
      | _ =>
        if late && !c.cached h.core h.runId h.ctx u a.toNat then pure (lane0 i a .memory 0 false)
        else do
          match ← translate h.core h.runId h.ctx u a.toNat with
          | .ok pa => pure (lane0 i a .memory pa true)
          | .error k => trap causePage (u.data k) a i
    let xs ← bindLanes h u late n r
    return x :: xs

/-- The granules of a lane that the race checker judges: global ones, and the scratch window's (R168). -/
def laneGrans (c : Chip) (n : Nat) (x : LaneAcc) : GranLanes :=
  match x.space with
  | .memory => globGrans x.lane x.pa n
  | .opm =>
    if opmKind x.pa = 1 then
      let core := opmCore x.pa
      (fullGrans (opmOff x.pa) n).flatMap fun w =>
        match c.scrTeam core (16 * w), c.scrPos core (16 * w) with
        | some (_, t), some p => scrGrans core t.scrLo x.lane (p - t.scrLo) 16
        | _, _ => []
    else []
  | _ => []

def lanesGrans (c : Chip) (n : Nat) (xs : List LaneAcc) : GranLanes := xs.flatMap (laneGrans c n)

/-- Poison under a lane (R120). -/
def Chip.lanePoison (c : Chip) (n : Nat) (x : LaneAcc) : Bool := x.space = .memory && c.poisoned x.pa n

/-- The bytes a lane reads. -/
def readLane (core n : Nat) (x : LaneAcc) : Act (List Byte) := do
  let c ← getChip
  match x.space with
  | .memory => homeRead x.pa n
  | .opm => return c.opmRead x.pa n
  | .frame => homeRead x.pa n
  | .mailbox =>
    return (List.range n).map fun i =>
      (mgetD (c.die (coreDie core)).mailbox 0 ((x.pa + i) / 8)).extractLsb' (8 * ((x.pa + i) % 8)) 8

/-- A mailbox with bytes written. -/
def Die.mboxWrite (d : Die) (a : Nat) (bs : List Byte) : Die :=
  bs.zipIdx.foldl (fun d p =>
    let o := a + p.2
    let w := mgetD d.mailbox 0 (o / 8)
    let w' : Addr := (w &&& ~~~((0xFF : Addr) <<< (8 * (o % 8)))) ||| ((p.1.setWidth 64 : Addr) <<< (8 * (o % 8) : Nat))
    { d with mailbox := mput 0 d.mailbox (o / 8) w' }) d

/-- A lane's bytes written by a group. -/
def writeLane (who : Actor) (tag : BitVec 4) (bs : List Byte) (x : LaneAcc) : Act Unit :=
  match x.space with
  | .memory => homeWrite x.pa bs (some (who.run, who.team))
  | .opm => modChip fun c => c.opmWrite x.pa tag bs
  | .frame => homeWrite x.pa bs none
  | .mailbox => modDie (coreDie who.core) fun d => d.mboxWrite x.pa bs

/-! ## Pending accesses (R126-R130) -/

def lanesMeet (n m : Nat) (x y : LaneAcc) : Bool :=
  (x.va.toNat < y.va.toNat + m && y.va.toNat < x.va.toNat + n) ||
    (x.bound && y.bound && x.space = y.space && x.pa < y.pa + m && y.pa < x.pa + n)

def opsMeet (x y : MemOp) : Bool := x.lanes.any fun a => y.lanes.any fun b => lanesMeet x.size y.size a b

/-- Whether an issued access may perform: no earlier access of its group is acquiring, or to the same bytes, and a
release has no earlier access outstanding (R126, R128, R130). -/
def Chip.mayPerform (c : Chip) (o : MemOp) : Bool :=
  c.memq.all fun e => !(sameGroup e.who o.who && e.seq < o.seq && (e.acq || o.rel || opsMeet e o))

/-- The group's outstanding accesses. -/
def Chip.groupOps (c : Chip) (g : Nat) : List MemOp := c.memq.filter fun e => e.who.slot = g && e.who.agent = c.agent g

/-- Whether an acquiring access of the group is outstanding: nothing later may perform (R130). -/
def Chip.acquirePending (c : Chip) (g : Nat) : Bool := (c.groupOps g).any fun e => e.acq

/-- Wait until every earlier access of the group has performed. -/
def awaitAccesses (g : Nat) : Act Unit := do
  if (← getChip).groupOps g |>.isEmpty then pure () else notReady

/-- Wait until every earlier store of the group has performed (R364). -/
def awaitStores (g : Nat) : Act Unit := do
  if ((← getChip).groupOps g).all fun e => e.kind = .load || e.kind = .sload then pure () else notReady

/-- An access issues: it joins the pending accesses; answers its sequence number. -/
def pushOp (o : MemOp) : Act Nat := do
  let c ← getChip
  setChip { c with memq := c.memq ++ [{ o with seq := c.seq }], seq := c.seq + 1 }
  return c.seq

def dropOp (seq : Nat) : Act Unit := modChip fun c => { c with memq := c.memq.filter fun e => e.seq ≠ seq }

def Chip.op? (c : Chip) (seq : Nat) : Option MemOp := c.memq.find? fun e => e.seq = seq

/-! ## The request table (R115) -/

/-- The 128-byte lines that an access has outstanding. -/
def MemOp.lines (o : MemOp) : Nat :=
  (distinct ((o.lanes.filter fun x => x.space = .memory).flatMap fun x =>
    linesOf (if x.bound then x.pa else x.va.toNat) o.size)).length

/-- The request-table entries that the groups of a partition of a core hold: lines of accesses, sectors in flight and parked,
parked requests, and overflow monitors (R114, R115, R219). -/
def Chip.requests (c : Chip) (core part : Nat) : Nat :=
  let mine := fun g : Nat => slotCore g = core && slotPart g = part
  let sum := fun (xs : List Nat) => xs.foldl (fun n x => n + x) 0
  sum ((c.memq.filter fun o => mine o.who.slot).map MemOp.lines) +
    sum ((c.copies.filter fun o => mine o.2.who.slot).map fun o => o.2.inflight.length + o.2.parked.length) +
    ((c.engops.filter fun o => mine o.2.who.slot && o.2.parked.isSome).length) +
    (((c.core core).order.filter fun o => mine o.2.who.slot && o.2.parked.isSome).length) +
    (c.mons.filter fun m => mine m.slot && m.overflow).length

/-! ## Monitors (R218, R219) -/

/-- The slice whose monitor entry a location takes. -/
def Chip.monSlice (c : Chip) (m : Monitor) : Nat := c.homeSlice (m.pa / 32)

/-- A monitor entry frees; the oldest overflow entry of its slice is promoted (R219) and evaluated with the waits of this step. -/
def Chip.dropMonitor (c : Chip) (m : Monitor) : Chip :=
  let rest := c.mons.erase m
  if m.overflow then { c with mons := rest }
  else
    match rest.find? fun x => x.overflow && c.monSlice x = c.monSlice m with
    | some o => { c with mons := rest.map fun x => if x = o then { x with overflow := false } else x }
    | none => { c with mons := rest }

/-- The monitor entries of groups free. -/
def Chip.dropMonitors (c : Chip) (slots : List Nat) : Chip :=
  (c.mons.filter fun m => slots.contains m.slot).foldl (fun c m =>
    match c.mons.find? fun x => x.slot = m.slot && x.path = m.path && x.pa = m.pa with
    | some x => c.dropMonitor x
    | none => c) c

/-- Whether the 512 entries of a location's slice are in use. They are counted only when 512 entries exist at all. -/
def Chip.monFull (c : Chip) (pa : Nat) : Bool :=
  512 ≤ c.mons.length && 512 ≤ (c.mons.filter fun m => !m.overflow && c.monSlice m = c.homeSlice (pa / 32)).length

/-! ## Request-table room (R115) -/

/-- Whether a partition of a core can obtain `n` more entries: 256 of its own, and of the 7 168 shared ones what is left. -/
def Chip.requestRoom (c : Chip) (core part n : Nat) : Bool :=
  let excess := fun k : Nat => (if k = part then n + c.requests core k else c.requests core k) - 256
  excess part = 0 || excess 0 + excess 1 + excess 2 + excess 3 ≤ 7168

/-- An access is not ready until the entries it needs are free. -/
def awaitRequests (g n : Nat) (xs : List LaneAcc) (o : MemOp) : Act Unit := do
  if (← getChip).requestRoom (slotCore g) (slotPart g) { o with lanes := xs, size := n }.lines then pure () else notReady

/-- Register-writing accesses of a path that have not returned; a path holds at most eight (R258). -/
def Chip.pathLoads (c : Chip) (g p : Nat) : List MemOp :=
  (c.groupOps g).filter fun e => e.who.path = p && (e.kind = .load || e.kind = .sload || e.kind = .atom)

/-- An access that is not ready until the path's replay queue has room. -/
def awaitReplayRoom (g p : Nat) : Act Unit := do
  if ((← getChip).pathLoads g p).length < 8 then pure () else notReady

/-- A cleared pending access of an actor. -/
def MemOp.init (who : Actor) (w0 w1 : Word) : MemOp :=
  { seq := 0, kind := .load, who := who, w0 := w0, w1 := w1, lanes := [], size := 4, dst := 0, regs := 0, tag := 0,
    acq := false, rel := false, scope := 0, op := 0, fmt := 0, relScope := 0, again := 0, held := false, reported := false, faultVa := 0,
    exited := false }

/-! ## Traces (R280-R282) -/

/-- Adjacent or overlapping runs joined; the list is in increasing start order. -/
def joinRuns : List (Nat × Nat) → List (Nat × Nat)
  | [] => []
  | (s, n) :: r =>
    match joinRuns r with
    | [] => [(s, n)]
    | (s', n') :: r' => if s' ≤ s + n then (s, (if s + n < s' + n' then s' + n' else s + n) - s) :: r' else (s, n) :: (s', n') :: r'

/-- A run inserted in start order. -/
def insertRun (x : Nat × Nat) : List (Nat × Nat) → List (Nat × Nat)
  | [] => [x]
  | y :: r => if x.1 ≤ y.1 then x :: y :: r else y :: insertRun x r

/-- A maximal run cut into pieces of at most 2^24 − 1 tiles. -/
def cutRun (x : Nat × Nat) : List (Nat × Nat) :=
  (List.range ((x.2 + 2 ^ 24 - 2) / (2 ^ 24 - 1))).map fun i =>
    (x.1 + i * (2 ^ 24 - 1), if x.2 - i * (2 ^ 24 - 1) < 2 ^ 24 - 1 then x.2 - i * (2 ^ 24 - 1) else 2 ^ 24 - 1)

/-- The canonical runs with a run of tiles added: joined twice, since a run may meet one before it. -/
def addRun (rs : List (Nat × Nat)) (x : Nat × Nat) : List (Nat × Nat) := (joinRuns (insertRun x rs)).flatMap cutRun

/-- A trace with tiles added: past 32 runs it becomes ALWAYS (R281). -/
def Trace.add (t : Trace) (x : Nat × Nat) : Trace :=
  if t.always then t
  else
    let rs := addRun t.runs x
    if rs.length > 32 then { t with always := true, runs := [] } else { t with runs := rs }

def Chip.teamTraced (c : Chip) (tid : Nat) : Bool :=
  match (mget? c.teams tid).bind fun t => mget? c.runs t.run with
  | some r => r.traced
  | none => false

/-- A team's read of physical bytes is recorded (R280). -/
def traceRead (tid pa n : Nat) : Act Unit := do
  if (← getChip).teamTraced tid && n ≠ 0 then
    modTeam tid fun t => { t with trace := t.trace.add (pa / 4096, (pa + n - 1) / 4096 - pa / 4096 + 1) }
  else pure ()

def traceNonreplay (tid : Nat) : Act Unit := do
  if (← getChip).teamTraced tid then modTeam tid fun t => { t with trace := { t.trace with nonreplay := true } }
  else pure ()

/-- What a lane's read adds to its team's trace: a global lane its tiles, an on-chip lane NONREPLAY (R280, R282). -/
def traceLane (tid n : Nat) (x : LaneAcc) : Act Unit :=
  match x.space with
  | .memory => traceRead tid x.pa n
  | .opm => traceNonreplay tid
  | _ => pure ()

end Sys2Proof.Machine
end

