-- ==== Sys2Proof/Machine/Units.lean ====
section
/-! DEFINITION. Sleeping engines: the current arbiter, lease queues and units, cancellation of engine operations, and the
completion objects of copies. -/

namespace Sys2Proof.Machine

/-! ## The current arbiter (R183, R184) -/

def cqSum (xs : List Cq) : Nat := xs.foldl (fun n x => n + x.need) 0
def Cluster.used (k : Cluster) : Nat := cqSum k.grants
def Cluster.sideUsed (k : Cluster) : Nat := cqSum (k.grants.filter fun x => x.siding)
def Cluster.holds (k : Cluster) (o : CqOwner) : Bool := k.grants.any fun x => x.owner = o

/-- Whether the reservations exceed the budget or the sidings share. -/
def Cluster.over (k : Cluster) : Bool := k.used > k.budget || k.sideUsed > k.share

/-- A request or reservation ends. -/
def dropCq (cl : Nat) (o : CqOwner) : Act Unit :=
  modCluster cl fun k =>
    let k := { k with reqs := k.reqs.filter fun x => x.owner ≠ o, grants := k.grants.filter fun x => x.owner ≠ o }
    { k with overSince := if k.over then k.overSince else none }

/-- A request joins the arbiter unless its owner already waits or holds; nothing needed is held at once. -/
def askCq (cl : Nat) (o : CqOwner) (need : Nat) (siding : Bool) (prio : Nat) : Act Unit := do
  let now ← clock
  modCluster cl fun k =>
    if k.holds o || k.reqs.any fun x => x.owner = o then k
    else if need = 0 then { k with grants := k.grants ++ [⟨o, 0, siding, prio, now, false⟩] }
    else { k with reqs := k.reqs ++ [⟨o, need, siding, prio, now, false⟩] }

/-- Whether a request ranks before another: aged ones first, then context priority, then age (R184). -/
def cqBefore (a b : Cq) : Bool :=
  if a.aged ≠ b.aged then a.aged
  else if !a.aged && a.prio ≠ b.prio then a.prio > b.prio
  else a.since < b.since

/-- Insertion in rank order; equals keep their order. -/
def insertBy (before : α → α → Bool) (x : α) : List α → List α
  | [] => [x]
  | y :: r => if before x y then x :: y :: r else y :: insertBy before x r

/-- A list in rank order. -/
def sortBy (before : α → α → Bool) (xs : List α) : List α :=
  xs.foldl (fun acc x => insertBy before x acc) []

/-- The arbiter's pass over ranked requests: what is granted. An aged request that does not fit holds back those below it
that draw on what it lacks (R184). -/
def cqPass (budget share : Nat) : List Cq → (used side : Nat) → (noBudget noShare : Bool) → List Cq
  | [], _, _, _, _ => []
  | r :: rs, used, side, nb, ns =>
    let lackB := used + r.need > budget
    let lackS := r.siding && side + r.need > share
    if lackB || lackS then cqPass budget share rs used side (nb || (r.aged && lackB)) (ns || (r.aged && lackS))
    else if nb || (r.siding && ns) then cqPass budget share rs used side nb ns
    else r :: cqPass budget share rs (used + r.need) (if r.siding then side + r.need else side) nb ns

/-! ## Lease queues and units (R170-R178) -/

/-- Units of a class (R170). -/
def classUnits (cls : Nat) : Nat :=
  match cls with
  | 0 => 1
  | 1 => 2
  | 2 => 2
  | 3 => 4
  | 4 => 4
  | _ => 2

/-- A lease queue's number: class and core (MX) or cluster. -/
def queueKey (cls place : Nat) : Nat := cls * 1000 + place
def unitKey (cls place unit : Nat) : Nat := queueKey cls place * 8 + unit
def UnitState.init : UnitState := ⟨none, none, false⟩
def Chip.unit (c : Chip) (cls place unit : Nat) : UnitState := mgetD c.units UnitState.init (unitKey cls place unit)
def Chip.setUnit (c : Chip) (cls place unit : Nat) (u : UnitState) : Chip :=
  { c with units := mput UnitState.init c.units (unitKey cls place unit) u }

/-- The cluster whose arbiter a lease draws on. -/
def Lease.cluster (l : Lease) : Nat := if l.cls = 0 then coreCluster l.place else l.place
/-- The weight-set manager of a partition leases under the number 512 + partition, at priority 7 (R320). -/
def managerNum (part : Nat) : Nat := 512 + part
def Lease.partOf (c : Chip) (l : Lease) : Nat := if 512 ≤ l.ctx then l.ctx - 512 else (c.ctx l.ctx).part
def Chip.ctxPrio (c : Chip) (ctx : Nat) : Nat := if 512 ≤ ctx then 7 else (c.ctx ctx).prio

/-- The leases of one queue. -/
def Chip.queueLeases (c : Chip) (cls place : Nat) : List (Nat × Lease) :=
  c.leases.filter fun l => l.2.cls = cls && l.2.place = place

/-- A lease handle (R172). -/
def Lease.handle (l : Lease) : Word :=
  BitVec.ofNat 32 (l.serial.toNat * 2 ^ 16 + l.index * 2 ^ 11 + l.cls * 2 ^ 8 + l.lslot * 2 ^ 6 + l.qidx)

/-- Whether a lease still waits for its unit. -/
def Lease.waits (l : Lease) : Bool := l.state = .queued || l.state = .waking

/-- What a handle names: SERIAL, GROUP and SLOT (R172). -/
def handleKey (h : Word) : Nat × Nat × Nat := (bits h.toNat 16 16, bits h.toNat 11 5, bits h.toNat 6 2)

/-- The lease a handle names for a team: none where stale (R172). -/
def Chip.leaseBy (c : Chip) (tid : Nat) (h : Word) : Option (Nat × Lease) :=
  if h = 0xFFFFFFFF then none else c.leases.find? fun l => l.2.tid = tid && handleKey l.2.handle = handleKey h

/-- Whether a handle names a lease that a save ended (R186). -/
def Team.lostHandle (t : Team) (h : Word) : Bool := t.lostHandles.any fun w => handleKey w = handleKey h

/-- The team's MX lease, in any state. -/
def Chip.mxLease (c : Chip) (tid : Nat) : Option (Nat × Lease) := c.leases.find? fun l => l.2.tid = tid && l.2.cls = 0

/-- Rank priority of a queued entry: 8 once aged (R176). -/
def Chip.leasePrio (c : Chip) (l : Lease) : Nat := if l.aged then 8 else c.ctxPrio l.ctx

/-- The LEASEHINT of the unit's cluster (R176, R245): entries of the context it names go first among equals; 0x1FF names
none. -/
def Chip.hinted (c : Chip) (l : Lease) : Bool := (c.cluster l.cluster).box.hint = l.ctx

/-- Whether a queued entry ranks before another (R176). -/
def Chip.leaseBefore (c : Chip) (a b : Lease) : Bool :=
  if c.leasePrio a ≠ c.leasePrio b then c.leasePrio a > c.leasePrio b
  else if c.hinted a ≠ c.hinted b then c.hinted a
  else a.since < b.since

def Lease.eligible (l : Lease) (unit : Nat) : Bool := l.want = unit || l.want = 0xFF

/-- The highest-ranked queued entry eligible for a unit. -/
def Chip.bestLease (c : Chip) (cls place unit : Nat) : Option (Nat × Lease) :=
  ((c.queueLeases cls place).filter fun l => l.2.state = .queued && l.2.eligible unit).foldl (fun m x =>
    match m with
    | none => some x
    | some y => if c.leaseBefore x.2 y.2 then some x else some y) none

def modLease (uid : Nat) (f : Lease → Lease) : Act Unit := modChip fun c => { c with leases := mmod c.leases uid f }

/-- A granted lease starts to wake on its unit (R175, R177). A retained MX keeps its B slots for its own team only. -/
def beginWake (uid unit : Nat) : Act Unit := do
  let c ← getChip
  let now ← clock
  whenSome (mget? c.leases uid) fun l => do
    let u := c.unit l.cls l.place unit
    let quick := l.cls = 0 && (u.warm || u.retained.isSome)
    let wake := if quick then 60 else if l.cls = 0 then 900 else 1800
    modLease uid fun l => { l with state := .waking, unit := unit, grantAt := now, wakeAt := now + wake }
    modChip fun c => c.setUnit l.cls l.place unit ⟨some uid, none, false⟩
    if l.cls = 0 && u.retained ≠ some l.tid then modCore l.place fun k => { k with bslots := [] } else pure ()

/-- Whether a queue has an entry waiting for a unit. -/
def Chip.unitWanted (c : Chip) (cls place unit : Nat) : Bool := (c.bestLease cls place unit).isSome

/-- A unit returns to its queue: awake where `warm`, retained for a team where `ret`; an MX otherwise goes cold with its
B slots EMPTY (R177, R185). -/
def freeUnit (cls place unit : Nat) (ret : Option Nat) (warm : Bool) : Act Unit := do
  modChip fun c => c.setUnit cls place unit ⟨none, ret, warm⟩
  if cls = 0 && ret.isNone then modCore place fun k => { k with bslots := [] } else pure ()

def MatKind.onMx : MatKind → Bool
  | .bld => true
  | .mma => true
  | .mv => true
  | _ => false

def MatOp.running (o : MatOp) : Bool := o.startAt.isSome && o.status.isNone

/-- Whether a started operation still runs on a unit. -/
def Chip.unitBusy (c : Chip) (cls place uid : Nat) : Bool :=
  if cls = 0 then (c.core place).order.any fun o => o.2.kind.onMx && o.2.running
  else (c.engops.any fun o => o.2.lease = uid && o.2.started && o.2.status.isNone) ||
    c.copies.any fun o => o.2.lease = some uid && !o.2.failed && !o.2.inflight.isEmpty

/-- The unit of a revoked or ended lease passes on once no operation runs (R185). -/
def releaseIfIdle (cls place unit uid : Nat) : Act Unit := do
  let c ← getChip
  let live := match mget? c.leases uid with
    | some l => l.state ≠ .revoked
    | none => false
  if (c.unit cls place unit).lease = some uid && !live && !c.unitBusy cls place uid then do
    dropCq (if cls = 0 then coreCluster place else place) (.lease uid)
    freeUnit cls place unit none (c.unitWanted cls place unit)
  else pure ()

/-- The units of a class that a lease holds, its record gone or not, pass on once idle (R185). -/
def releaseUnits (cls place uid : Nat) : Act Unit := each (List.range (classUnits cls)) fun u => releaseIfIdle cls place u uid

/-! ## Completion objects of copies (R206, R214) -/

/-- Where an object stands: an offset of the team's scratch, or a global address. -/
def objScratch (obj : Addr) : Option Nat := if bits obj.toNat 56 8 = 1 then some (bits obj.toNat 0 56) else none

/-- The 16 bytes of an object; none where its page no longer translates or its team has left. -/
def objRead (tid ctx : Nat) (obj : Addr) : Act (Option (List Byte)) := do
  let c ← getChip
  match objScratch obj with
  | some o =>
    match mget? c.teams tid with
    | some t => return some ((c.core t.core).bytes (t.scrLo + o) 16)
    | none => return none
  | none =>
    match ← hwBind ctx false obj.toNat 16 with
    | .ok ps => return some (← readPieces ps)
    | .error _ => return none

/-- One indivisible engine update of an object. -/
def objWrite (tid ctx : Nat) (obj : Addr) (bs : List Byte) : Act Unit := do
  let c ← getChip
  match objScratch obj with
  | some o => whenSome (mget? c.teams tid) fun t => modCore t.core fun k => k.setBytes (t.scrLo + o) bs
  | none => do
    let _ ← hwWrite ctx obj.toNat bs
    pure ()

/-- An object from its fields. -/
def objBytes (expected arrived open_ status : Nat) : List Byte :=
  toLE 4 expected ++ toLE 4 arrived ++ toLE 4 open_ ++ toLE 4 status

/-- An update of an object's EXPECTED, ARRIVED, OPEN and STATUS; the reserved bytes keep what they hold. -/
def objUpdate (tid ctx : Nat) (obj : Addr) (f : Nat × Nat × Nat × Nat → Nat × Nat × Nat × Nat) : Act Unit := do
  match ← objRead tid ctx obj with
  | none => pure ()
  | some b => do
    let (e, a, o, s) := f (recNat b 0 4, recNat b 4 4, recNat b 8 2, recNat b 12 1)
    objWrite tid ctx obj (toLE 4 e ++ toLE 4 a ++ toLE 2 o ++ (b.drop 10).take 2 ++ toLE 1 s ++ (b.drop 13).take 3)

/-- complete of R214. -/
def objDone (b : List Byte) : Bool := recNat b 12 1 ≠ 0 || (recNat b 8 2 = 0 && recNat b 4 4 = recNat b 0 4)

def modCopy (id : Nat) (f : CopyOp → CopyOp) : Act Unit := modChip fun c => { c with copies := mmod c.copies id f }

/-- Sectors of a copy (R210). -/
def CopyOp.sectors (o : CopyOp) : Nat := (o.total + 127) / 128

/-- The stream bytes of a sector: first and count. -/
def CopyOp.span (o : CopyOp) (sector : Nat) : Nat × Nat := (128 * sector, min 128 (o.total - 128 * sector))

/-- The 16-byte units of a record that a sector covers: row and column. -/
def CopyOp.units (o : CopyOp) (sector : Nat) : List (Nat × Nat) :=
  let (lo, n) := o.span sector
  let r := OpRec.of o.rcd
  (List.range (n / 16)).map fun k => ((lo / 16 + k) / r.len, (lo / 16 + k) % r.len)

/-- The scratch places of a sector's 16-byte units, for a team whose scratch starts at `lo`. -/
def CopyOp.scratchAt (o : CopyOp) (lo sector : Nat) : List Nat :=
  let r := OpRec.of o.rcd
  (o.units sector).map fun u => lo + r.row u.1 + 16 * u.2

/-- The sectors of a failed copy that are in flight when its team's scratch goes (R121, R210): those that read it carry on with
the bytes it holds, unless a granule that they wait for was empty, and those that would land in it go. -/
def CopyOp.bereft (o : CopyOp) (k : Core) (lo : Nat) : CopyOp :=
  match o.dir with
  | 0 => { o with inflight := [] }
  | 1 =>
    let full := fun s => !(OpRec.of o.rcd).few || (o.scratchAt lo s).all fun a => k.isFull (a / 16)
    let left := o.inflight.filter full
    { o with inflight := left, feed := left.foldl (fun m s => mset m s ((o.scratchAt lo s).flatMap fun a => k.bytes a 16)) [] }
  | _ => o

/-- Whether a copy has started its digest feed (R212, R175). -/
def Chip.feeds (c : Chip) (o : CopyOp) : Bool := o.feedOp.any fun e => (mget? c.engops e).any EngOp.started

/-- Whether a copy still has sectors to move or a digest to compare. -/
def CopyOp.moving (o : CopyOp) : Bool :=
  o.next < o.sectors || !o.inflight.isEmpty || !o.parked.isEmpty || !o.again.isEmpty || (o.dg && !o.failed && !o.checked)

def modEng (id : Nat) (f : EngOp → EngOp) : Act Unit := modChip fun c => { c with engops := mmod c.engops id f }

/-- An ENG operation completes with a status and gives its reservation back. -/
def finishEng (id status : Nat) : Act Unit := do
  let c ← getChip
  modEng id fun o => { o with status := some status, parked := none }
  whenSome (mget? c.engops id) fun o => do
    dropCq (coreCluster o.who.core) (.eng id)
    releaseUnits o.cls (coreCluster o.who.core) o.lease

/-- A copy fails: its code goes into STATUS unless one stands, sectors not started and parked ones are dropped, and those
in flight complete without being counted (R210). -/
def failCopy (id code : Nat) : Act Unit := do
  let c ← getChip
  whenSome (mget? c.copies id) fun o => do
    modCopy id fun x => { x with failed := true, next := x.sectors, parked := [], again := [] }
    objUpdate o.who.tid o.who.ctx o.obj fun (e, a, n, s) => (e, a, n, if s = 0 then code else s)
    if o.inflight.isEmpty then dropCq (coreCluster o.core) (.copy id) else pure ()
    whenSome o.feedOp fun e => finishEng e code

/-! ## Ending engine operations -/

def modMat (core key : Nat) (f : MatOp → MatOp) : Act Unit := modCore core fun k => { k with order := mmod k.order key f }

/-- A tile's word: tile, row and column. -/
def tileWord (tile row col : Nat) : Nat := tile * 4096 + row * 128 + col

/-- The outputs of an operation land: tile words, scratch bytes, with the full bit of each granule whose last byte lands
(R103), and registers. -/
def landOutputs (core : Nat) (o : MatOp) : Act Unit := do
  modCore core fun k =>
    let k := { k with tiles := o.outTile.foldl (fun m e => mput 0 m e.1 e.2) k.tiles }
    let k := o.outBytes.foldl (fun (k : Core) e => k.setBytes e.1 e.2) k
    let ends := o.outBytes.filter fun (e : Nat × List Byte) => (e.1 + e.2.length) % 16 = 0
    k.landFull (ends.map fun e => e.1 / 16) o.who.agent o.who.clock
  if o.outRegs.isEmpty then pure ()
  else modGroup o.who.slot fun g => o.outRegs.foldl (fun g e => g.landV e.1 e.2.1 ⟨e.2.2, BitVec.ofNat 4 o.dtag⟩) g

/-- The values of a tile word before an MMA or MV and after each of its steps. -/
def MatOp.history (o : MatOp) (k : Core) (w : Nat) (last : Word) : List Word :=
  mgetD k.tiles 0 w :: o.steps.filterMap (fun m => mget? m w) ++ [last]

/-- An aborted started operation (R185): each tile word of an MMA or MV holds its prior value or the value after a free number of
its steps; a free prefix of the element writes of the drain unit's operations stands. -/
def landPrefix (core : Nat) (o : MatOp) : Act Unit := do
  if o.kind = .mma || o.kind = .mv then do
    let k := (← getChip).core core
    let vs ← mapAct o.outTile fun e => do
      let hs := o.history k e.1 e.2
      return (e.1, hs.getD ((← freeValue).toNat % hs.length) e.2)
    modCore core fun k => { k with tiles := vs.foldl (fun m e => mput 0 m e.1 e.2) k.tiles }
  else do
    let t ← get
    let n := Config.abortPrefix t.free
    set { t with free := t.free + 1 }
    landOutputs core { o with outTile := o.outTile.take n, outBytes := o.outBytes.take n, outRegs := o.outRegs.take n }

/-- CQ of an operation beside its lease's hold (R183). -/
def MatKind.need (k : MatKind) : Nat :=
  match k with
  | .bld => 2
  | .mma => 13
  | .mv => 5
  | .tdrn => 2
  | _ => 1

/-- What the MX of a core reserves beside its lease's hold: the largest kind among its operations that run, or are ready to run
as one side of a pair (R183, R199). -/
def Core.mxNeed (k : Core) : Nat :=
  (k.order.filter fun e => e.2.kind.onMx && e.2.status.isNone && (e.2.startAt.isSome || e.2.readyAt.isSome)).foldl
    (fun n e => max n e.2.kind.need) 0

/-- The MX's standing reservation (key 0 of the core) stands at a need; none where it idles. -/
def standMx (core need : Nat) : Act Unit := do
  let cl := coreCluster core
  if need = 0 then dropCq cl (.order core 0)
  else modCluster cl fun k =>
    let k := { k with grants := k.grants.map fun (x : Cq) => if x.owner = CqOwner.order core 0 then { x with need := need } else x }
    { k with overSince := if k.over then k.overSince else none }

/-- An operation of the engine order completes with a status and gives its reservation back; the MX's standing reservation falls
to what it still runs (R183). -/
def finishMat (core key status : Nat) : Act Unit := do
  let now ← clock
  modCore core fun k => { k with mvEnd := if (mget? k.order key).any fun o => o.kind = .mv && o.running then some now else k.mvEnd }
  modMat core key fun o => { o with status := some status, parked := none }
  dropCq (coreCluster core) (.order core key)
  standMx core ((← getChip).core core).mxNeed
  whenSome (((← getChip).unit 0 core 0).lease) fun uid => releaseIfIdle 0 core 0 uid

/-- Operations of an engine order that have not completed end with a status; those that ran leave what `land` says. -/
def endMats (core : Nat) (p : MatOp → Bool) (status : Nat) (land : MatOp → Act Unit) : Act Unit := do
  let c ← getChip
  each ((c.core core).order.filter fun o => o.2.status.isNone && p o.2) fun o => do
    if o.2.running then land o.2 else pure ()
    finishMat core o.1 status

/-- Cancels operations of an engine order that have not completed. -/
def cancelMat (core : Nat) (p : MatOp → Bool) (status : Nat) : Act Unit := endMats core p status (landPrefix core)

/-- An uncorrectable error ends an operation with ECC: its rows keep their prior values (R198). -/
def failMat (core : Nat) (p : MatOp → Bool) : Act Unit := endMats core p 2 fun _ => pure ()

/-- Bytes written by an ENG operation, as a writer's. -/
def landEng (who : Actor) (out : List (Nat × List Byte)) : Act Unit :=
  each out fun e => homeWrite e.1 e.2 (some (who.run, who.team))

/-- The first `n` bytes of a list of pieces. -/
def takeBytes : Nat → List (Nat × List Byte) → List (Nat × List Byte)
  | _, [] => []
  | n, (a, bs) :: r => (a, bs.take n) :: takeBytes (n - bs.length) r

/-- Cancels ENG operations that have not completed; a started one leaves a free prefix of its bytes (R185). -/
def cancelEng (p : EngOp → Bool) (status : Nat) : Act Unit := do
  let c ← getChip
  each (c.engops.filter fun o => o.2.status.isNone && p o.2) fun o => do
    if o.2.started then do
      let t ← get
      set { t with free := t.free + 1 }
      landEng o.2.who (takeBytes (Config.abortPrefix t.free) o.2.out)
    else pure ()
    finishEng o.1 status

/-- A lease ends: its group's slot, its hold and its unit free (R171, R175). `ret` keeps an MX in retention for its team.
The unit of a revoked lease follows its last operation instead. -/
def endLease (uid : Nat) (ret : Bool) : Act Unit := do
  let c ← getChip
  whenSome (mget? c.leases uid) fun l => do
    if l.state = .revoked then pure () else dropCq l.cluster (.lease uid)
    modGroup l.slot fun g =>
      if g.tid = l.tid then { g with leases := g.leases.filter fun e => e.2 ≠ uid } else g
    modChip fun c => { c with leases := merase c.leases uid }
    match l.state with
    | .queued => pure ()
    | .revoked => releaseIfIdle l.cls l.place l.unit uid
    | _ => freeUnit l.cls l.place l.unit (if ret && l.cls = 0 then some l.tid else none) false

/-- Whether a started operation of unstated length completes within 4 µs (R185): a free choice. -/
def freeChoice : Act Bool := do return (← freeValue).getLsbD 0

/-- REVOKED (R185): operations not started complete EVICTED; a started one that completes within 4 µs (2 400 clk) runs
on, another is aborted EVICTED; a digest feed's copy gets EVICTED; the unit passes on, and the lease's current frees, once
idle (R183). -/
def revokeLease (uid : Nat) : Act Unit := do
  let c ← getChip
  let now ← clock
  whenSome (mget? c.leases uid) fun l => do
    modLease uid fun x => { x with state := .revoked }
    if l.waits then dropCq l.cluster (.lease uid)
    else if l.cls = 0 then do
      cancelMat l.place (fun o => o.kind.onMx && !o.running) 1
      each ((c.core l.place).order.filter fun o => o.2.kind.onMx && o.2.running) fun o => do
        let fits ← if o.2.kind = .mv then freeChoice else pure (decide (o.2.endsAt ≤ now + 2400))
        if fits then pure () else cancelMat l.place (fun x => x = o.2) 1
    else do
      cancelEng (fun o => o.lease = uid && !o.started && !o.feed) 1
      each (c.engops.filter fun o => o.2.lease = uid && o.2.started && !o.2.feed && o.2.status.isNone) fun o => do
        if ← freeChoice then pure () else cancelEng (fun x => x = o.2) 1
      each (c.copies.filter fun o => o.2.lease = some uid && o.2.moving) fun o => failCopy o.1 1
    if l.state = .queued then pure () else releaseIfIdle l.cls l.place l.unit uid

/-- The arbiter grants what fits (R184); a lease's hold lets it wake, if its unit is still free. -/
def arbitrate (cl : Nat) : Act Unit := do
  let k := (← getChip).cluster cl
  let won := cqPass k.budget k.share (sortBy cqBefore k.reqs) k.used k.sideUsed false false
  modCluster cl fun k => { k with reqs := k.reqs.filter fun x => !won.contains x, grants := k.grants ++ won }
  each won fun w =>
    match w.owner with
    | .lease uid => do
      let c ← getChip
      match mget? c.leases uid with
      | some l =>
        if l.state = .queued && (c.unit l.cls l.place l.unit).lease.isNone then beginWake uid l.unit
        else dropCq cl (.lease uid)
      | none => dropCq cl (.lease uid)
    | .order core key => do
      let c ← getChip
      match mget? (c.core core).order key with
      | some o =>
        if o.kind.onMx then do
          let old := ((c.cluster cl).grants.filter fun x => x.owner = .order core 0).foldl (fun n x => n + x.need) 0
          modCluster cl fun k => { k with grants :=
            (k.grants.filter fun x => x.owner ≠ .order core 0 && x.owner ≠ .order core key) ++
              [{ w with owner := .order core 0, need := old + w.need }] }
        else pure ()
      | none => dropCq cl (.order core key)
    | _ => pure ()

end Sys2Proof.Machine
end

