-- ==== Sys2Proof/Machine/Teams.lean ====
section
/-! DEFINITION. Teams on cores: free resources, starting a team, groups leaving their slots, team records of a trace, and
the end of a team by completion, flush or kill. -/

namespace Sys2Proof.Machine

/-! ## Free resources of a core (R25) -/

/-- The group slots of a partition of a core. -/
def partSlots (core part : Nat) : List Nat := (List.range 16).map fun i => core * 64 + part * 16 + i

def Chip.freeSlots (c : Chip) (core part : Nat) : List Nat :=
  (partSlots core part).filter fun g => (c.group? g).isNone

/-- Register blocks in use on a partition of a core (R17). -/
def Chip.blocksUsed (c : Chip) (core part : Nat) : Nat :=
  (partSlots core part).foldl (fun n g => n + (match c.group? g with
    | some x => x.alloc / 8
    | none => 0)) 0

def Chip.coreTeams (c : Chip) (core : Nat) : List (Nat × Team) := c.teams.filter fun t => t.2.core = core

/-- The physical 2 KiB units of a core's scratch that no team holds. -/
def Chip.freeScratch (c : Chip) (core : Nat) : List Nat :=
  (List.range 192).filter fun u => (c.coreTeams core).all fun t => !t.2.scrAt.contains u

/-- The place of `n` units in the core's scratch table: the lowest at which they meet no other team's, at its start or after a
team. -/
def Chip.scratchFit (c : Chip) (core n : Nat) : Nat :=
  let ts := (c.coreTeams core).filter fun t => t.2.scrUnits ≠ 0
  let fits := fun b => n = 0 || ts.all fun t => b + n ≤ t.2.scrBase || t.2.scrBase + t.2.scrUnits ≤ b
  let ends := ts.map fun t => t.2.scrBase + t.2.scrUnits
  (ends.filter fits).foldl min (if fits 0 then 0 else ends.foldl max 0)

def Chip.freeTiles (c : Chip) (core : Nat) : List Nat :=
  (List.range 16).filter fun i => (c.coreTeams core).all fun t => !t.2.tiles.contains i

/-- Groups of a team that land on a partition: group j goes to partition j mod 4 (R24). -/
def groupsOn (groups part : Nat) : Nat := ((List.range groups).filter fun j => j % 4 = part).length

/-- Whether a core's free resources cover a demand: register blocks of each group, scratch units and tiles (R25). -/
def Chip.canTake (c : Chip) (core : Nat) (blocks : List Nat) (scr tiles : Nat) : Bool :=
  (c.coreTeams core).length < 16 && scr ≤ (c.freeScratch core).length && tiles ≤ (c.freeTiles core).length &&
    [0, 1, 2, 3].all fun p =>
      groupsOn blocks.length p ≤ (c.freeSlots core p).length &&
        c.blocksUsed core p + (blocks.zipIdx.filter fun b => b.2 % 4 = p).foldl (fun n b => n + b.1) 0 ≤ 128

def Run.blocks (r : Run) : List Nat := List.replicate r.groups (r.regs / 8)

/-! ## Slots and groups (R19, R38, R152, R153) -/

/-- A group takes a slot: the next incarnation, one clock on, and a RESIDENT directory entry. A clock that crosses a
multiple of 2^14 starts an aging. -/
def seatGroup (g : Nat) (run : Nat) (team : Word) (x : Group) : Act Unit :=
  modSlot g fun s =>
    let inc := s.inc + 1
    let clock := s.clock + 1
    { s with inc := inc, clock := clock, aging := s.aging || clock.toNat % 2 ^ 14 = 0, group := some x,
             dir := mset s.dir inc.toNat ⟨run, team, x.index, clock, .resident⟩ }

def Path.start (pc : Addr) (mask : BitVec 32) (now : Nat) : Path :=
  { pc := pc, mask := mask, stack := [], hstack := [], ustack := [], level := .normal, wait := none, readyAt := now, heldSince := none,
    exempt := false, shielded := false, runSince := now, yieldUntil := 0, cause := 0, userFrame := none,
    supFrame := none, dbgHeld := false, holdReq := false, blocked := none, late := [], refuseGrow := false,
    waitFrom := none }

/-- A group at its start: PARAM in S0:S1, every other register 0, one path at PROG with all lanes, ordered after what its launch's
ENQ published (R17, R38, R143, R151). -/
def Group.start (r : Run) (tid index now : Nat) : Group :=
  { tid := tid, index := index, alloc := r.regs, live := BitVec.allOnes 32, v := [],
    s := mput 0 (mput 0 [] 0 (r.param.extractLsb' 0 32)) 1 (r.param.extractLsb' 32 32), p := [],
    paths := [(0, Path.start r.prog (BitVec.allOnes 32) now)], emu := Emu.init, leases := [], openSet := [],
    batchNo := 0, batches := [], fences := [], fenceSerial := 0, chk := { Checker.init with emax := r.le, know := r.know },
    relScope := 0, acqLoads := [], fenceGate := [], arrivals := [], hazards := [], slow := [], mmaP := 0 }

/-- A group leaves its slot: its monitors and growth requests go. -/
def departGroup (g : Nat) : Act Unit := do
  modSlot g fun s => { s with group := none }
  modChip fun c => c.dropMonitors [g]
  modCore (slotCore g) fun k => { k with growers := k.growers.filter fun x => x.1 ≠ g }

/-- A team leaves its core: the directory entries of its groups, resident until then whether or not a group has exited,
are DEPARTED (R153, R169, R430). -/
def departTeam (slots : List Nat) (run : Nat) (num : Word) : Act Unit :=
  each slots fun g => modSlot g fun s => { s with dir := s.dir.map fun e =>
    (e.1, if e.2.run = run && e.2.team = num && e.2.state = .resident then { e.2 with state := .departed } else e.2) }

/-! ## Team records of a trace (R283, R284, R286) -/

def Trace.init : Trace := ⟨[], false, false⟩

/-- A team record's 272 bytes. -/
def traceRecord (t : Trace) (valid : Bool) (run team : Word) : List Byte :=
  toLE 4 (t.runs.length % 64 + (if t.always then 64 else 0) + (if t.nonreplay then 128 else 0) + (if valid then 256 else 0)) ++
  toLE 4 run.toNat ++ toLE 4 team.toNat ++ toLE 4 0 ++
  ((List.range 32).flatMap fun k => match t.runs[k]? with
    | some (s, n) => toLE 8 (s % 2 ^ 40 + n * 2 ^ 40)
    | none => toLE 8 0)

/-- Hardware writes a team's record into its launch's trace region. -/
def writeTeamRecord (run : Nat) (num : Word) (t : Trace) (valid : Bool) : Act Unit := do
  let c ← getChip
  whenSome (mget? c.runs run) fun r =>
    if r.traced then regionWrite run (some num) (0x200 + 272 * num.toNat) (traceRecord t valid r.runNo num) else pure ()

/-! ## Starting a team -/

/-- The slots of a team's groups: group j takes the lowest free slot of partition j mod 4. -/
def Chip.seats (c : Chip) (core groups : Nat) : List Nat :=
  (List.range groups).map fun j => ((c.freeSlots core (j % 4)).drop (j / 4)).headD 0

/-- A team's scratch and tiles zeroed, granules EMPTY and marks CLEAR (R38, R102, R159). -/
def clearTeamStorage (core base units : Nat) (tiles : List Nat) : Act Unit :=
  modCore core fun k =>
    let inScr := fun a : Nat => base * 2048 ≤ a && a < (base + units) * 2048
    { k with
      scratch := k.scratch.filter fun e => !inScr e.1
      full := k.full.filter fun e => !inScr (e.1 * 16)
      fills := k.fills.filter fun e => !inScr (e.1 * 16)
      smarks := k.smarks.filter fun e => !inScr (e.1 * 32)
      srecs := k.srecs.filter fun r => !inScr (r.gran * 32)
      slost := k.slost.filter fun g => !inScr (g * 32)
      tiles := k.tiles.filter fun e => !tiles.contains (e.1 / 4096) }

/-- A team of a run becomes resident on a core whose free resources cover it; answers its number. -/
def startTeam (runId : Nat) (num : Word) (core : Nat) : Act Nat := do
  let c ← getChip
  let now ← clock
  match mget? c.runs runId with
  | none => notReady
  | some r => do
    if !c.canTake core r.blocks r.scr r.tiles then notReady else pure ()
    let base := c.scratchFit core r.scr
    let tid := c.teamNext
    let seats := c.seats core r.groups
    let tiles := (c.freeTiles core).take r.tiles
    let team : Team :=
      { run := runId, num := num, core := core, slots := seats, freed := [], groups := r.groups, scrBase := base,
        scrUnits := r.scr, scrAt := (c.freeScratch core).take r.scr, tiles := tiles, fpctl := 0, raised := (0, 0),
        raceMode := r.rmode, hint := 0, ret := 0, rtime := 0, since := now, trace := Trace.init, slices := [], drainBy := none,
        saveBy := none, saveAt := none, lostHandles := [] }
    setChip { c with teamNext := tid + 1, teams := mset c.teams tid team }
    clearTeamStorage core base r.scr tiles
    each seats.zipIdx fun s => seatGroup s.1 runId num (Group.start r tid s.2 now)
    let c ← getChip
    each seats fun g => whenSome (c.actorOf g 0) fun who => modChecker g (c.fitKnow who)
    writeTeamRecord runId num Trace.init false
    return tid

/-! ## Hooks -/

/-- A pending call joins a signal box's queue of 64: a TICK takes the place of one that is pending, and a team has one WAKE (R242). -/
def pushHook (cl hook subject : Nat) : Act Unit :=
  modCluster cl fun k =>
    let b := k.box
    let e : HookEvent := ⟨hook, subject⟩
    if (hook = 2 || hook = 4) && b.events.contains e then k
    else if b.events.length ≥ 64 then k
    else { k with box := { b with events := b.events ++ [e] } }

/-! ## Ending a team -/

/-- A team that leaves its cluster leaves its box's event queue. -/
def dropHooks (cl tid : Nat) : Act Unit :=
  modCluster cl fun k => { k with box := { k.box with events := k.box.events.filter fun e =>
    !((e.hook = 3 || e.hook = 4) && e.subject = tid) } }

/-- The on-chip ranges that accesses and copies have yet to reach (R100). -/
def Chip.opmOpen (c : Chip) : List (Nat × Nat) :=
  (c.memq.flatMap fun o => (o.lanes.filter fun x => x.space = .opm).map fun x => (x.pa, o.size)) ++
    (c.copies.filter fun o => o.2.moving).flatMap fun o => o.2.opm

/-- Whether an on-chip range meets the register window of a group slot. -/
def meetsSlot (g : Nat) (r : Nat × Nat) : Bool :=
  let lo := slotPart g * 0x40000 + g % 16 * 0x4000
  opmCore r.1 = slotCore g && opmKind r.1 = 0 && opmOff r.1 < lo + 0x4000 && lo < opmOff r.1 + r.2

/-- Whether an OPM access against a team's resources has not performed: the team can be neither freed, killed nor
pre-empted until it has (R100). -/
def Chip.opmAgainst (c : Chip) (tid : Nat) : Bool :=
  match mget? c.teams tid with
  | none => false
  | some t => c.opmOpen.any fun r =>
      opmCore r.1 = t.core && (match opmKind r.1 with
        | 0 => t.slots.any fun g => meetsSlot g r
        | 1 => t.scrAt.any fun u => opmOff r.1 < (u + 1) * 2048 && u * 2048 < opmOff r.1 + r.2
        | 2 => t.tiles.any fun i => opmOff r.1 < (i + 1) * 0x4000 && i * 0x4000 < opmOff r.1 + r.2
        | _ => c.mxHeldBy t.core [tid])

/-- Retention of an MX for a team ends (R177). -/
def endRetention (tid : Nat) : Act Unit := do
  let c ← getChip
  each (c.units.filter fun u => u.2.retained = some tid) fun u => do
    modChip fun c => { c with units := mput UnitState.init c.units u.1 UnitState.init }
    if u.1 / 8 < 1000 then modCore (u.1 / 8) fun k => { k with bslots := [] } else pure ()

/-- Everything a team holds on its core goes: groups, loads on their way, copies, engine operations and leases cancelled
with a status, open slice sets, retention; stores already issued still perform, and sectors in flight complete uncounted (R121,
R175, R210, R268). -/
def dissolveTeam (tid status : Nat) : Act Unit := do
  let c ← getChip
  whenSome (mget? c.teams tid) fun t => do
    modChip fun c => { c with memq := c.memq.filter fun o => !(o.who.tid = tid && (o.kind = .load || o.kind = .sload)) }
    each (c.copies.filter fun o => o.2.who.tid = tid) fun o => do
      if o.2.moving then failCopy o.1 status else pure ()
      modCopy o.1 fun x => if x.failed then x.bereft (c.core t.core) t.scrLo else x
      whenSome (mget? (← getChip).copies o.1) fun x =>
        if x.inflight.isEmpty then dropCq (coreCluster o.2.core) (.copy o.1) else pure ()
    modChip fun c => { c with copies := c.copies.filter fun o =>
      o.2.who.tid ≠ tid || (if o.2.failed then !o.2.inflight.isEmpty else !o.2.moving && (objScratch o.2.obj).isNone) }
    cancelMat t.core (fun o => o.who.tid = tid) status
    modCore t.core fun k => { k with order := k.order.filter fun o => o.2.who.tid ≠ tid }
    cancelEng (fun o => o.who.tid = tid) status
    each ((← getChip).leases.filter fun l => l.2.tid = tid) fun l => endLease l.1 false
    modChip fun c => { c with engops := c.engops.filter fun o => o.2.who.tid ≠ tid }
    endRetention tid
    pushHook (coreCluster t.core) 1 0
    dropHooks (coreCluster t.core) tid
    each t.slots fun g => do
      match (← getChip).group? g with
      | some x => if x.tid = tid then departGroup g else pure ()
      | none => pure ()
    departTeam t.slots t.run t.num
    modChip fun c => { c with
      teams := merase c.teams tid
      bars := c.bars.map fun b => (b.1, if b.2.run = t.run then
        { b.2 with arrived := b.2.arrived.filter fun a => a.1 / 32 ≠ t.num.toNat
                   counted := b.2.counted.filter fun n => n ≠ t.num.toNat } else b.2) }

/-- A run that has ended a team for good: its launch completes FAULT (R121). -/
def deadTeam (runId : Nat) (num : Word) : Act Unit :=
  modRun runId fun r => { r with fault := true, restarts := mset r.restarts num.toNat 255 }

/-- A killed team (R121): dissolved with status ECC; run again from its start where the launch is IDEMPOTENT and it has
been killed fewer than four times, unless `final`; otherwise a record goes to the fault log. -/
def killTeam (tid : Nat) (final : Bool) (r : FaultRec) : Act Unit := do
  let c ← getChip
  whenSome (mget? c.teams tid) fun t =>
    whenSome (mget? c.runs t.run) fun run => do
      if c.opmAgainst tid then notReady else pure ()
      dissolveTeam tid 2
      let kills := mgetD run.restarts 0 t.num.toNat
      if run.idem && !final && kills < 3 then do
        modRun t.run fun x => { x with restarts := mset x.restarts t.num.toNat (kills + 1) }
        let _ ← startTeam t.run t.num t.core
        pure ()
      else do
        deadTeam t.run t.num
        faultLog t.run { r with lid := run.lid, run := run.runNo, team := t.num }

/-- A fault record of a kind with no further fields. -/
def bareRec (kind : Nat) : FaultRec := ⟨kind, 0, 0, 0xFFFFF, 0, 0, 0, 0, 0, false, false, 0, 0⟩

/-- A team killed by an uncorrectable error (KILL_ECC). -/
def killEcc (tid : Nat) : Act Unit := killTeam tid false (bareRec 4)

/-- The team that holds a scratch byte of a core. -/
def Chip.scratchOwner (c : Chip) (core a : Nat) : Option Nat := (c.scrTeam core a).map Prod.fst

end Sys2Proof.Machine
end

