-- ==== Sys2Proof/Machine/Ops.lean ====
section
/-! DEFINITION. The shared operations of instructions: sides of a path, taking a trap and returning from one, parking and
resuming, results with fixed latency, issue and retirement, and the wrappers that make a transaction a step. -/

namespace Sys2Proof.Machine

/-! ## Sides of a path (R20-R22, R259) -/

/-- The reconvergence stack in use: the handler stack at handler level. -/
def Path.sides (p : Path) : List Side := if p.level = .normal then p.stack else p.hstack
def Path.setSides (p : Path) (ss : List Side) : Path :=
  if p.level = .normal then { p with stack := ss } else { p with hstack := ss }

/-- The lowest-PC entry among those that are not parked, with the rest in order. -/
def takeLowest : List Side → Option (Side × List Side)
  | [] => none
  | x :: r =>
    match takeLowest r with
    | none => if x.wait.isNone then some (x, r) else none
    | some (y, r') => if x.wait.isNone && x.pc.toNat ≤ y.pc.toNat then some (x, r) else some (y, x :: r')

/-- The lowest-PC entry of a stack, with the rest in order. -/
def takeLow : List Side → Option (Side × List Side)
  | [] => none
  | x :: r =>
    match takeLow r with
    | none => some (x, r)
    | some (y, r') => if x.pc.toNat ≤ y.pc.toNat then some (x, r) else some (y, x :: r')

/-- A release swap (R22): the running side is pushed and the lowest-PC entry becomes the running side, shielded. -/
def Path.releaseSwap (p : Path) (now : Nat) : Path :=
  match takeLowest p.sides with
  | none => p
  | some (x, r) =>
    { (p.setSides (⟨p.pc, p.mask, p.wait⟩ :: r)) with
      pc := x.pc, mask := x.mask, wait := none, shielded := true, runSince := now }

/-- The path once its mask may be empty: the lowest-PC stack entry pops in its place (R23), and gives way at once to a side
that can run where it is parked (R22); none when the path has no side left. -/
def Path.refill (p : Path) (now : Nat) : Option Path :=
  if p.mask ≠ 0 then some p
  else (takeLow p.sides).map fun e =>
    let y := { (p.setSides e.2) with pc := e.1.pc, mask := e.1.mask, wait := e.1.wait, shielded := false, runSince := now }
    if y.wait.isSome then y.releaseSwap now else y

/-! ## Fetch (R47, R109, R113) -/

/-- A line of code read at its home. Whatever else the cache holds that memory no longer does leaves it, so that the cache
shows memory as it was at one moment and no instruction mixes old bytes with new ones (R277, assumption 87). A line with poison
is not kept; of 128 KiB, 1 024 lines, one leaves for another (R1, assumption 101). -/
def fillLine (core line : Nat) : Act (List Byte) := do
  let l ← homeRead (line * 128) 128
  let fresh ← mapAct ((← getChip).core core).icache fun e => do return if e.2 = (← readBytes (e.1 * 128) 128) then some e else none
  let bad := (← getChip).poisoned (line * 128) 128
  let kept := fresh.filterMap id
  let n ← if kept.length < 1024 then pure 0 else freeValue
  let room := if kept.length < 1024 then kept else kept.eraseIdx (n.toNat % kept.length)
  modCore core fun k => { k with icache := if bad then kept else mset room line l }
  return l

/-- A byte of code as the core's instruction cache gives it, fetched through the context's tables; a miss reads the line
at its home. A fault is PAGE, or ECC where the byte is poisoned (R113, R120): its cause, data and address. -/
def fetchByte (core run ctx : Nat) (user : Bool) (va : Nat) : Act (Except (Nat × Nat × Nat) Byte) := do
  match ← translate core run ctx (Use.exec user) va with
  | .error k => return .error (causePage, (Use.exec user).data k, va)
  | .ok pa => do
    match mget? ((← getChip).core core).icache (pa / 128) with
    | some l => return .ok (l.getD (pa % 128) 0)
    | none => do
      let l ← fillLine core (pa / 128)
      if (← getChip).poisoned pa 1 then return .error (causeEcc, 0, va) else return .ok (l.getD (pa % 128) 0)

def fetchBytes (core run ctx : Nat) (user : Bool) : Nat → Nat → Act (Except (Nat × Nat × Nat) (List Byte))
  | _, 0 => return .ok []
  | va, n + 1 => do
    match ← fetchByte core run ctx user va with
    | .error e => return .error e
    | .ok b =>
      match ← fetchBytes core run ctx user (va + 1) n with
      | .error e => return .error e
      | .ok bs => return .ok (b :: bs)

/-- The bytes of an instruction: its last byte's line is looked up first, so that what that lookup removes from the cache is
gone before the others are read. -/
def fetchCode (core run ctx : Nat) (user : Bool) (va n : Nat) : Act (Except (Nat × Nat × Nat) (List Byte)) := do
  let _ ← fetchByte core run ctx user (va + n - 1)
  fetchBytes core run ctx user va n

/-- ILEN of a frame (R257): 0 compact, 1 base, 2 X form, 3 where the first halfword cannot be fetched. -/
def frameIlen (h : Here) : Act Nat := do
  let c ← getChip
  if c.region h.path.pc ≠ .global then return 3
  else do
    match ← fetchBytes h.core h.runId h.ctx h.user h.path.pc.toNat 2 with
    | .error _ => return 3
    | .ok bs => return (match wordLength (leNat bs) with
      | 2 => 0
      | 4 => 1
      | _ => 2)

/-! ## Taking a trap (R253-R259) -/

/-- Whether a cause is routed to the user handler (R253). -/
def userCause (cause : Nat) (trapv : Addr) : Bool :=
  cause = causeIllegal || cause = causeTag || cause = causeArith || cause = causeUser ||
    (cause = causeRace && trapv.getLsbD 0)

/-- Where a cause goes (R254): none for a double fault, else whether it is the supervisor handler. -/
def routeCause (level : Level) (cause : Nat) (trapv : Addr) : Option Bool :=
  match level with
  | .normal => some (!(userCause cause trapv && trapv.toNat / 2 ≠ 0))
  | .user => some true
  | .supervisor => none

/-- The EMU block of an ILLEGAL trap: words, address and next address, the fields of the first word, operand positions,
lanes, immediate and class (R61, R434); of a base MEM word the immediate is the byte offset (assumption 73). -/
def emuImm (w0 w1 len : Nat) : Word :=
  let major := bits w0 1 6
  let minor := bits w1 0 8
  let sx := fun n v => (BitVec.ofNat n v).signExtend 32
  let std : Word := if bits w0 30 1 = 1 then sx 16 (bits w1 13 16) else 0
  match len with
  | 2 => 0
  | 4 =>
    if major = 13 then sx 8 (bits w0 24 8)
    else if 14 ≤ major && major ≤ 17 then BitVec.ofNat 32 (bits w0 24 8)
    else if major = 18 then sx 15 (bits w0 17 15)
    else if major = 20 then sx 14 (bits w0 18 14)
    else if major = 21 || major = 22 then sx 22 (bits w0 10 22)
    else if major = 23 then sx 17 (bits w0 15 17)
    else if 24 ≤ major && major ≤ 28 then BitVec.ofNat 32 (4 * bits w0 25 7)
    else if major = 0 then BitVec.ofNat 32 (bits w0 10 8)
    else 0
  | _ =>
    match major with
    | 48 => std
    | 49 => std
    | 50 => std
    | 51 =>
      if minor ≤ 16 then std
      else if minor = 17 then sx 19 (bits w1 13 19)
      else if minor = 18 || minor = 19 then 0
      else if minor = 20 || minor = 21 then BitVec.ofNat 32 (bits w1 13 10)
      else std
    | 52 =>
      if minor ≤ 4 then (if bits w0 26 1 = 0 then sx 13 (bits w1 13 13) else 0)
      else if minor ≤ 10 then 0 else std
    | 53 =>
      if minor = 3 then (if bits w0 28 1 = 0 then BitVec.ofNat 32 (bits w1 13 12) else 0)
      else if minor = 5 then BitVec.ofNat 32 (bits w0 10 8)
      else if minor ≤ 7 then 0 else std
    | 54 => if minor = 3 then BitVec.ofNat 32 (bits w1 13 8) else if minor ≤ 7 then 0 else std
    | 55 => if minor ≤ 9 then 0 else std
    | 56 =>
      if minor = 0 || minor = 2 then BitVec.ofNat 32 (bits w1 13 16)
      else if minor = 3 then BitVec.ofNat 32 (bits w1 13 15)
      else if minor = 5 then (if bits w0 26 1 = 1 then BitVec.ofNat 32 (bits w1 13 8) else 0)
      else if minor ≤ 9 then 0 else std
    | _ => std

/-- EMUOPS (R61): the register fields in the order the format lists them. -/
def emuOps (w0 w1 len : Nat) : Word :=
  let major := bits w0 1 6
  let ops := fun d a b c => BitVec.ofNat 32 (d + a * 2 ^ 8 + b * 2 ^ 16 + c * 2 ^ 24)
  match len with
  | 2 => ops (bits w0 5 5) (bits w0 10 5) 0 0
  | 4 =>
    if (1 ≤ major && major ≤ 12) || major = 29 then ops (bits w0 10 7) (bits w0 17 7) (bits w0 24 7) 0
    else if 13 ≤ major && major ≤ 17 then ops (bits w0 10 7) (bits w0 17 7) 0 0
    else if major = 18 then ops (bits w0 10 7) 0 0 0
    else if major = 19 || major = 30 then ops (bits w0 10 8) (bits w0 18 8) 0 0
    else if major = 20 then ops (bits w0 10 8) 0 0 0
    else if major = 23 then ops (bits w0 10 3) 0 0 0
    else if 24 ≤ major && major ≤ 28 then ops (bits w0 10 7) (bits w0 17 8) 0 0
    else 0
  | _ => ops (bits w0 10 8) (bits w0 18 8) (bits w1 13 8) (bits w1 21 8)

def mkEmu (w0 w1 : Word) (len : Nat) (pc : Addr) (mask : BitVec 32) (path : Nat) : Emu :=
  let a := w0.toNat
  let b := w1.toNat
  let major := if len = 2 then bits a 1 4 else bits a 1 6
  let minor := if len = 4 && bits a 1 6 = 19 then bits a 26 6 else if len = 8 then bits b 0 8 else 0
  let stall := if len = 2 then 0 else bits a 7 3
  let g := if len = 8 then bits b 8 1 * 2 ^ 19 + bits b 9 3 * 2 ^ 20 + bits b 12 1 * 2 ^ 23 else 0
  { w0 := if len = 2 then BitVec.ofNat 32 (a % 65536) else w0, w1 := if len = 8 then w1 else 0, pc := pc,
    next := pc + BitVec.ofNat 64 len,
    dec := BitVec.ofNat 32 ((if len = 2 then 0 else if len = 4 then 1 else 2) + major * 4 + minor * 2 ^ 8 + stall * 2 ^ 16 + g +
      (if len = 2 then bits a 15 1 * 2 ^ 24 else 0)),
    ops := emuOps a b len, mask := mask, imm := emuImm a b len,
    cls := if len = 8 then BitVec.ofNat 32 (bits a 26 4 + bits a 30 1 * 16 + bits b 29 2 * 32 + bits b 31 1 * 128) else 0,
    busy := some path }

/-- A frame as the hardware writes it, with its opaque parts (R257, R258). -/
def writeFrame (at_ : Nat) (h : Here) (rpc : Addr) (cause : Word) (t : TrapInfo) (ilen level : Nat) (nested : Bool)
    (replays : List MemOp) (spc : Addr) : Act Unit := do
  let now ← clock
  let blk ← opaqueBytes 64
  let addressed := t.cause = causeAlign || t.cause = causePage || t.cause = causeAccess || t.cause = causeEcc ||
    t.cause = causeStoreLate || t.cause = causeRace
  homeWrite at_ (toLE 8 h.path.pc.toNat ++ toLE 8 rpc.toNat ++ toLE 4 h.path.mask.toNat ++ toLE 4 cause.toNat ++
    toLE 8 (if addressed then t.faddr.toNat else 0) ++
    toLE 4 (t.flane % 32 + h.p % 4 * 32 + ilen * 128 + (if nested then 512 else 0) + level * 1024 + replays.length * 4096) ++
    toLE 4 h.agent.toNat ++ toLE 8 spc.toNat ++ toLE 8 now ++ List.replicate 72 0 ++ blk ++ List.replicate 832 0) none
  each replays.zipIdx fun e => do
    let capt ← opaqueBytes 992
    homeWrite (at_ + 0x400 + 0x400 * e.2) (toLE 8 e.1.who.pc.toNat ++ toLE 4 e.1.w0.toNat ++ toLE 4 e.1.w1.toNat ++
      toLE 4 (e.1.lanes.foldl (fun m x => m ||| 2 ^ x.lane) 0) ++ List.replicate 12 0 ++ capt) none

/-- Fixed-latency results of a path's lanes become readable (R66). -/
def Group.settleHazards (x : Group) (mask : BitVec 32) : Group :=
  { x with hazards := (x.hazards.map fun z => { z with lanes := z.lanes &&& ~~~mask }).filter fun z => z.lanes ≠ 0 }

/-- EMUMASK: the active lanes whose guard is true (R61). -/
def emuLanes (h : Here) (t : TrapInfo) (len : Nat) : BitVec 32 :=
  if len = 8 then h.lanes (Dec.guard (t.w0.toNat + t.w1.toNat * 2 ^ 32)) else h.path.mask

/-- The words of a cause for the double fault's record. -/
def trapRec (kind : Nat) (h : Here) (t : TrapInfo) : FaultRec :=
  ⟨kind, t.cause, t.data, h.agent.toNat, h.path.pc, t.faddr, h.run.lid, h.run.runNo, h.team.num, false, false, h.p, h.path.mask⟩

/-- The pending accesses without some of them. -/
def Chip.without (c : Chip) (ops : List MemOp) : Chip :=
  { c with memq := c.memq.filter fun o => !(ops.any fun m => m.seq = o.seq) }

/-- The path at its handler (R259): level, handler's address, the frame that the hardware keeps, and no wait. A refusal to
grow ends with its own trap, BOUND 9 (R274). -/
def Path.atHandler (x : Path) (sup : Bool) (pc : Addr) (cause : Word) (f : Frame) : Path :=
  { x with
    cause := cause
    level := if sup then .supervisor else .user
    pc := pc
    userFrame := if sup then x.userFrame else some f
    supFrame := if sup then some f else x.supFrame
    wait := none, blocked := none, hstack := [], ustack := x.hstack
    refuseGrow := x.refuseGrow && cause.toNat ≠ causeBound + 9 * 65536
    heldSince := none }

/-- The resume address of a trap (R257). -/
def trapResume (h : Here) (t : TrapInfo) (len : Nat) : Addr :=
  if t.cause = causeIllegal || t.next then h.path.pc + BitVec.ofNat 64 len else h.path.pc

/-- The EMU block once a trap has been taken (R61). -/
def trapEmu (h : Here) (t : TrapInfo) (len : Nat) : Emu :=
  if t.cause = causeIllegal then mkEmu t.w0 t.w1 len h.path.pc (emuLanes h t len) h.p else h.grp.emu

/-- The entry of a handler (R257-R259): the path's unsent register-writing accesses `mine` become its replay entries, before
those of `more`; the frame is written, and the path goes to its handler at `pc`. -/
def enterHandler (h : Here) (a : TrapArea) (sup : Bool) (pc : Addr) (t : TrapInfo) (len : Nat) (rpc : Addr) (late : Option MemOp)
    (mine more : List MemOp) : Act Unit := do
  let c ← getChip
  let cause : Word := BitVec.ofNat 32 (t.cause + t.data * 65536)
  let lvl := if sup then 1 else 0
  let nested := h.path.level = .user
  let replays := (mine ++ more).take 8
  let ilen ← frameIlen h
  modChip fun c => c.without mine
  writeFrame (a.pa + c.frameOff h.ctx h.g h.p lvl) h rpc cause t ilen lvl nested replays (late.elim 0 fun o => o.who.pc)
  modGroup h.g fun x => { (x.settleHazards h.path.mask) with emu := trapEmu h t len }
  modPath h.g h.p fun x => x.atHandler sup pc cause
    { pc := h.path.pc, mask := h.path.mask, cause := cause, nested := nested, replays := replays,
      heldStore := late.map fun o => o.seq, serial := h.slot.inc.toNat }

/-- take_trap (R259) for a path: flags and race records stand, and the path enters its handler; a double fault kills the
team (R254). `len` is the instruction's length; `resume_` overrides RPC (a re-issued entry's trap); `late` is the held store
of a STORE_LATE. -/
def takeTrap (g p : Nat) (t : TrapInfo) (len : Nat) (resume_ : Option Addr) (late : Option MemOp)
    (more : List MemOp) (counted : Bool) : Act Unit := do
  let c ← getChip
  match c.here? g p with
  | none => pure ()
  | some h => do
    each t.races (raceNote 2)
    let now ← clock
    modTeam h.tid fun x => { (x.raise now t.flags) with ret := if counted then x.ret + 1 else x.ret }
    let area := (c.ctx h.ctx).area
    let sventry ← match area with
      | some a => homeNat a.pa 8
      | none => pure 0
    let double : Act Unit := killTeam h.tid true (trapRec 5 h t)
    match routeCause h.path.level t.cause h.run.trapv, area with
    | none, _ => double
    | some _, none => double
    | some sup, some a =>
      if sup && sventry = 0 then double
      else if t.cause = causeIllegal && h.grp.emu.busy.isSome && h.grp.emu.busy ≠ some p then notReady
      else do
        enterHandler h a sup (if sup then BitVec.ofNat 64 sventry else (h.run.trapv >>> 1) <<< 1) t len
          (resume_.getD (trapResume h t len)) late (c.pathLoads g p) more

/-- The replay entries of a path's frames. -/
def Path.captured (x : Path) : List MemOp := x.userFrame.elim [] Frame.replays ++ x.supFrame.elim [] Frame.replays

/-- Whether an access waits in a frame of its group for the handler's return (R258). -/
def Chip.inReplay (c : Chip) (g seq : Nat) : Bool :=
  (c.group? g).any fun x => x.paths.any fun e => e.2.captured.any fun o => o.seq = seq

/-! ## Parking and resuming (R22) -/

def Wait.isRelaunch : Wait → Bool
  | .relaunch .. => true
  | _ => false

/-- Whether every group of a team is parked, each of its paths in a wait that R22 lists (R220). -/
def Chip.teamParked (c : Chip) (tid : Nat) : Bool :=
  match mget? c.teams tid with
  | none => false
  | some t =>
    let ps := t.slots.flatMap fun g => match c.group? g with
      | some x => if x.tid = tid then mvals x.paths else []
      | none => []
    !ps.isEmpty && ps.all fun p => !p.dbgHeld && p.wait.any fun w => !w.isRelaunch

/-- The BLOCK event of a team whose last running path has just parked (R242). -/
def noteParked (tid : Nat) : Act Unit := do
  let c ← getChip
  match mget? c.teams tid with
  | some t => if c.teamParked tid then pushHook (coreCluster t.core) 3 tid else pure ()
  | none => pure ()

/-- The acting path parks on its instruction; a stacked side takes over if one can run. -/
def parkOn (h : Here) (w : Wait) : Act Unit := do
  let now ← clock
  modPath h.g h.p fun x =>
    let x := { x with wait := some w, pc := h.path.pc }
    x.releaseSwap now
  noteParked h.tid

/-- Where a parked side stands: the running side, or an entry of one of the path's stacks. -/
structure Parked where
  g : Nat
  p : Nat
  side : Option (Nat × Nat)
  pc : Addr
  mask : BitVec 32
  wait : Wait
  deriving DecidableEq, Repr

/-- The stacks of a path by number: 0 the normal one, 1 the current handler's, 2 the user handler's below it. -/
def Path.stackAt (x : Path) (k : Nat) : List Side := if k = 0 then x.stack else if k = 1 then x.hstack else x.ustack
def Path.setStackAt (x : Path) (k : Nat) (ss : List Side) : Path :=
  if k = 0 then { x with stack := ss } else if k = 1 then { x with hstack := ss } else { x with ustack := ss }
/-- The number of the stack in use. -/
def Path.inUse (x : Path) : Nat := if x.level = .normal then 0 else 1

/-- The parked sides of a path: the running one, and the entries of every stack, those below a handler included. -/
def pathParked (g p : Nat) (x : Path) : List Parked :=
  (match x.wait with
    | some w => [⟨g, p, none, x.pc, x.mask, w⟩]
    | none => []) ++
  [0, 1, 2].flatMap fun k => (x.stackAt k).zipIdx.filterMap fun s =>
    s.1.wait.map fun w => ⟨g, p, some (k, s.2), s.1.pc, s.1.mask, w⟩

/-- Whether a team is being saved: its issue has stopped and its parked paths have given up their waits (R269). -/
def Chip.saving (c : Chip) (tid : Nat) : Bool :=
  match mget? c.teams tid with
  | some t => t.saveBy.isSome
  | none => false

/-- Every parked side of the teams that are not being saved, by slot and path. -/
def Chip.parkedSides (c : Chip) : List Parked :=
  c.slots.flatMap fun s => match s.2.group with
    | some x => if c.saving x.tid then [] else x.paths.flatMap fun e => pathParked s.1 e.1 e.2
    | none => []

/-- A parked side leaves its wait with its pc moved by `step`; a stacked one takes over a running side that is parked. -/
def Path.unpark (x : Path) (side : Option (Nat × Nat)) (step : Nat) (now : Nat) : Path :=
  match side with
  | none => { x with wait := none, pc := x.pc + BitVec.ofNat 64 step }
  | some (k, i) =>
    let x := x.setStackAt k ((x.stackAt k).zipIdx.map fun s =>
      if s.2 = i then { s.1 with wait := none, pc := s.1.pc + BitVec.ofNat 64 step } else s.1)
    if x.wait.isSome && k = x.inUse then x.releaseSwap now else x

/-- The monitor entry of a parked side's location frees. -/
def freeMonitor (g p pa : Nat) : Act Unit :=
  modChip fun c => ((c.mons.find? fun m => m.slot = g && m.path = p && m.pa = pa).elim c c.dropMonitor)

/-- A parked side as it stands now: none where it no longer waits. -/
def Chip.refind (c : Chip) (k : Parked) : Option Parked :=
  match c.path? k.g k.p with
  | some x => (pathParked k.g k.p x).find? fun j => j.pc = k.pc && j.mask = k.mask && j.wait = k.wait
  | none => none

/-- The registers that a 64-bit result goes to. -/
def pairResult (r : Nat) (v : Addr) : List (Nat × Word) := [(r, v.extractLsb' 0 32), (r + 1, v.extractLsb' 32 32)]

/-- A parked side resumes past its instruction, its scalar results written. -/
def resume (k : Parked) (rs : List (Nat × Word)) : Act Unit := do
  let now ← clock
  whenSome ((← getChip).refind k) fun j => do
    modGroup j.g fun x => rs.foldl (fun x r => x.landS now r.1 j.mask r.2) x
    modPath j.g j.p fun x => x.unpark j.side 8 now

/-- A monitor entry for a parked side: one of the slice's 512, or an overflow entry (R219). -/
def addMonitor (g p pa : Nat) (test : Option MonTest) : Act Unit := do
  let now ← clock
  modChip fun c => { c with mons := c.mons ++ [⟨g, p, pa, c.monFull pa, now + 4096, test, false⟩] }

/-- An overflow entry holds a request-table entry of its core; without one its instruction is not ready (R115, R219). -/
def awaitMonitor (g pa : Nat) : Act Unit := do
  let c ← getChip
  if c.monFull pa && !c.requestRoom (slotCore g) (slotPart g) 1 then notReady else pure ()

/-- The actor of a parked side's read or retry: the group as it stands, at the parked instruction. -/
def Chip.parkedActor (c : Chip) (k : Parked) : Option Actor :=
  (c.actorOf k.g k.p).map fun a => { a with pc := k.pc, mask := k.mask }

/-- A parked side runs: it becomes the running side of the stack in use. -/
def Path.runSide (x : Path) (side : Option (Nat × Nat)) (now : Nat) : Path :=
  match side with
  | none => { x with wait := none }
  | some (k, i) =>
    match (x.stackAt k)[i]? with
    | none => x
    | some s => { (x.setStackAt k (⟨x.pc, x.mask, x.wait⟩ :: (x.stackAt k).eraseIdx i)) with
        pc := s.pc, mask := s.mask, wait := none, runSince := now }

/-- A trap of a parked side at its own instruction: its side becomes the running one and the trap is taken there. A side that
stands below a handler gives up its wait and runs its instruction again once the handler has returned (assumption 80). -/
def trapParked (k : Parked) (t : TrapInfo) : Act Unit := do
  let now ← clock
  let c ← getChip
  whenSome (c.refind k) fun k =>
    match c.path? k.g k.p with
    | none => pure ()
    | some x =>
      if k.side.all fun e => e.1 = x.inUse then do
        modPath k.g k.p fun x => x.runSide k.side now
        takeTrap k.g k.p t 8 none none [] false
      else modPath k.g k.p fun x => x.unpark k.side 0 now

/-- The deciding read of a parked MONW (R218): judged in the mode of its issue (R164), recorded and merged; SATISFIED resumes
with 0, TIMEOUT, a relaxed load (R141), with 1. A RACE under TRAP traps at the MONW. -/
def decideMonw (k : Parked) (pa : Nat) (wide satisfied : Bool) (sd scope : Nat) (mode : BitVec 2) : Act Unit := do
  let c ← getChip
  whenSome (c.parkedActor k) fun who0 => do
    let who := { who0 with mode := mode }
    freeMonitor k.g k.p pa
    let a : Access := ⟨who, if satisfied then 2 else 0, satisfied, scope, false⟩
    let gs := globGrans (lowLane k.mask) pa (if wide then 8 else 4)
    let vs ← judgeAll a gs
    match raceTrap a gs vs with
    | some t => trapParked k t
    | none => do
      each (verdictRecs a vs) (raceNote who.mode)
      each (gs.map Prod.snd) (markRead a)
      traceRead who.tid pa (if wide then 8 else 4)
      each (gs.map Prod.snd) fun g => if satisfied then acquireGran g who scope c.seq else rememberLoad who g
      resume k [(sd, if satisfied then 0 else 1)]
      if satisfied then pushHook (coreCluster who.core) 4 who.tid else pure ()

/-- The value of a location as its home finds it meets a parked MONW's comparison. -/
def monHolds (w : Wait) : Act Bool := do
  match w with
  | .monw _ pa wide cmp signed value _ _ _ _ => return monCompare cmp signed wide (← readNat pa (if wide then 8 else 4)) value
  | _ => return false

/-- A parked MONW is released by a write that has met its comparison, or by its location's value: after a promotion, or at an
evaluation of its overflow entry (R218, R219). -/
def evalMonw (k : Parked) (force : Bool) : Act Unit := do
  match k.wait with
  | .monw _ pa wide _ _ _ _ sd scope mode => do
    let entry := (← getChip).mons.find? fun m => m.slot = k.g && m.path = k.p && m.pa = pa
    let met := entry.any Monitor.met
    let live := force || entry.all fun m => !m.overflow
    if met || (live && (← monHolds k.wait)) then decideMonw k pa wide true sd scope mode else pure ()
  | _ => pure ()

/-! ## Settling waits whose condition holds (R135, R175, R179, R198, R216, R218) -/

/-- The status of a batch's operations, none while one is incomplete (R198). -/
def batchStatus (ops : List MatOp) : Option Nat :=
  if ops.any fun o => o.status.isNone then none
  else
    let sts := ops.map fun o => o.status.getD 0
    some ((sts.find? fun x => x ≠ 0 && x ≠ 7).getD ((sts.find? fun x => x ≠ 0).getD 0))

def Chip.batchOps (c : Chip) (core : Nat) (b : Batch) : List MatOp := b.ops.filterMap fun k => mget? (c.core core).order k

/-- The outcome of an MWAIT: none while the batch is incomplete, STALE where it is not among the 16 most recent. -/
def Chip.mwaitStatus (c : Chip) (core : Nat) (x : Group) (num : Nat) : Option Nat :=
  match (x.batches.take 16).find? fun b => b.num = num with
  | none => some 10
  | some b => batchStatus (c.batchOps core b)

/-- The operation a token names (R180): of the team's most recent lease with the token's fields, among its 16 most recent
operations. -/
def Chip.tokenOp (c : Chip) (tid : Nat) (tok : Word) : Option EngOp :=
  let like := (c.engops.filter fun o => o.2.who.tid = tid && bits o.2.token.toNat 6 18 = bits tok.toNat 6 18).reverse
  match like.head? with
  | none => none
  | some o => (((like.filter fun x => x.2.lease = o.2.lease).take 16).find? fun x => x.2.token = tok).map Prod.snd

/-- The outcome of an EWAIT: none while the operation is outstanding. -/
def Chip.ewaitStatus (c : Chip) (tid : Nat) (tok : Word) : Option Nat :=
  match c.tokenOp tid tok with
  | some o => o.status
  | none => some 10

/-- Whether an LREL's lease has nothing outstanding (R175). -/
def Chip.leaseDrained (c : Chip) (uid : Nat) : Bool :=
  match mget? c.leases uid with
  | none => true
  | some l =>
    if l.cls = 0 then !((c.core l.place).order.any fun o => o.2.who.tid = l.tid && o.2.status.isNone)
    else !(c.engops.any fun o => o.2.lease = uid && o.2.status.isNone) &&
      !(c.copies.any fun o => o.2.lease = some uid && o.2.moving)

/-- A group learns the clock of another agent whose operation it has waited for (R138). -/
def learnActor (g : Nat) (by_ : Actor) : Act Unit := do
  let c ← getChip
  whenSome ((c.group? g).bind fun x => x.paths.head?.bind fun e => c.actorOf g e.1) fun who =>
    modChecker g fun k =>
      if by_.agent = who.agent then k
      else
        let k := if by_.run = who.run && by_.team = who.team then
            { k with vec := mput 0 k.vec by_.index (clkMax (mgetD k.vec 0 by_.index) by_.clock) }
          else k
        c.fitKnow who { k with know := knowPut k.know by_.agent by_.clock }

/-- The acquire of a CPWAIT that observes an object complete (R138): the landed copies' agents and clocks. -/
def learnCopies (g : Nat) (obj : Addr) (tid ctx : Nat) : Act Unit := do
  let c ← getChip
  each (c.copies.filter fun o => o.2.obj = obj &&
    (if (objScratch obj).isSome then o.2.who.tid = tid else o.2.who.ctx = ctx)) fun o => learnActor g o.2.who

/-- The acquire of an EWAIT that observes its operation done (R138). -/
def learnEng (g tid : Nat) (tok : Word) (status : Nat) : Act Unit := do
  if status = 0 then whenSome ((← getChip).tokenOp tid tok) fun o => learnActor g o.who else pure ()

/-- One parked side meets its condition, if it holds. -/
def settleSide (k : Parked) : Act Unit := do
  let c ← getChip
  whenSome (c.group? k.g) fun x => do
    let core := slotCore k.g
    match k.wait with
    | .cpwait obj sd => do
      let ctx := match (mget? c.teams x.tid).bind fun t => mget? c.runs t.run with
        | some r => r.ctx
        | none => 0
      match ← objRead x.tid ctx obj with
      | none => pure ()
      | some b =>
        if objDone b then do
          if recNat b 12 1 = 0 then learnCopies k.g obj x.tid ctx else pure ()
          resume k [(sd, BitVec.ofNat 32 (recNat b 12 1))]
        else pure ()
    | .mwait num sd =>
      match c.mwaitStatus core x num with
      | some st => resume k [(sd, BitVec.ofNat 32 st)]
      | none => pure ()
    | .ewait tok sd =>
      match c.ewaitStatus x.tid tok with
      | some st => do
        learnEng k.g x.tid tok st
        resume k [(sd, BitVec.ofNat 32 st)]
      | none => pure ()
    | .lease uid _ =>
      match mget? c.leases uid with
      | none => resume k []
      | some l => if l.state = .queued || l.state = .waking then pure () else resume k []
    | .lrel uid ret =>
      if c.leaseDrained uid then do
        endLease uid ret
        resume k []
      else pure ()
    | .monw .. => evalMonw k false
    | .fence n => if x.fences.any fun f => f.serial = n then pure () else resume k []
    | _ => pure ()

def Wait.isLrel : Wait → Bool
  | .lrel .. => true
  | _ => false

def Wait.isLease : Wait → Bool
  | .lease .. => true
  | _ => false

def Wait.isMonw : Wait → Bool
  | .monw .. => true
  | _ => false

/-- The parked sides whose wait is of a kind meet their conditions. -/
def settleKind (q : Wait → Bool) : Act Unit := do each ((← getChip).parkedSides.filter fun k => q k.wait) settleSide

/-- Every parked side meets its condition, those of finished operations before the leases that end with them. A MONW whose
overflow entry is promoted meanwhile is evaluated too (R219). -/
def settle : Act Unit := do
  let waiting := (← getChip).mons.filter Monitor.overflow
  settleKind fun w => !w.isLrel
  settleKind Wait.isLrel
  settleKind Wait.isLease
  each waiting fun _ => settleKind Wait.isMonw

/-! ## Registers an instruction names (R18, R31, R64, R65) -/

/-- The registers an instruction reads and writes, by file. -/
structure Uses where
  vs : List Nat
  vd : List Nat
  ss : List Nat
  sd : List Nat
  ps : List Nat
  pd : List Nat
  deriving DecidableEq, Repr

def Uses.none : Uses := ⟨[], [], [], [], [], []⟩
def guardPs (g : Guard) : List Nat := if g.ge = 0 then [] else [g.gp.toNat]

/-- A register that a pending access or register-form drain of the group will write (R64). -/
def opWrites (o : MemOp) (file : RegFile) (r : Nat) : Bool :=
  match o.kind, file with
  | .load, .vector => o.dst ≤ r && r < o.dst + o.regs
  | .atom, .vector => o.dst ≤ r && r < o.dst + o.regs
  | .sload, .scalar => o.dst ≤ r && r < o.dst + o.regs
  | _, _ => false

def drainWrites (o : MatOp) (r : Nat) : Bool :=
  o.kind = .tdrn && o.mods.getLsbD 0 && o.status.isNone && o.vd ≤ r &&
    r < o.vd + (if o.dtag = 3 then 32 else if o.dtag = 4 || o.dtag = 5 then 16 else 8)

/-- The scalar registers that a wait writes when it ends. -/
def Wait.results : Wait → List Nat
  | .bar _ sd => sd.toList
  | .monw _ _ _ _ _ _ _ sd _ _ => [sd]
  | .cpwait _ sd => [sd]
  | .mwait _ sd => [sd]
  | .ewait _ sd => [sd]
  | .epush _ _ sd => [sd]
  | .epop _ sd sc => [sd, sd + 1, sc]
  | .enq _ _ sd => [sd]
  | .relaunch _ _ _ sd => [sd, sd + 1]
  | .fence _ => []
  | .lease .. => []
  | .lrel .. => []

/-- Whether a side of a group is parked on an instruction whose result goes to a scalar register. -/
def Chip.waitPending (c : Chip) (g r : Nat) : Bool :=
  match c.group? g with
  | none => false
  | some x => x.paths.any fun e => (pathParked g e.1 e.2).any fun k => k.wait.results.contains r

/-- Whether an access of a group that has not performed writes a register; vector results count in the lanes they write. -/
def Chip.opPending (c : Chip) (g : Nat) (mask : BitVec 32) (file : RegFile) (r : Nat) : Bool :=
  c.memq.any fun o => o.who.slot = g && o.who.agent = c.agent g && opWrites o file r &&
    (file = .scalar || o.lanes.any fun x => mask.getLsbD x.lane)

/-- Whether a register awaits an interlocked result (R64). -/
def Chip.regPending (c : Chip) (g : Nat) (mask : BitVec 32) (file : RegFile) (r : Nat) : Bool :=
  c.opPending g mask file r || (file = .scalar && c.waitPending g r) ||
    (file = .vector && (c.core (slotCore g)).order.any fun o =>
      o.2.who.slot = g && o.2.who.agent = c.agent g && drainWrites o.2 r && (o.2.mask &&& mask) ≠ 0)

/-- Whether a scalar register awaits a load that shares a lane with a path, so that the path's own write retires after it
(R35); another path's write applies in the order in which the two complete (R39). -/
def Chip.scalarOwed (c : Chip) (g : Nat) (mask : BitVec 32) (r : Nat) : Bool :=
  c.memq.any fun o => o.who.slot = g && o.who.agent = c.agent g && opWrites o .scalar r && o.who.mask &&& mask ≠ 0

/-- Whether a register that an instruction names still comes from a slow island (R187). -/
def Uses.slow (u : Uses) (now : Nat) (zs : List SlowReg) : Bool :=
  zs.any fun z => now < z.at_ && (match z.file with
    | .vector => (u.vs ++ u.vd).contains z.idx
    | .scalar => (u.ss ++ u.sd).contains z.idx
    | .predicate => (u.ps ++ u.pd).contains z.idx)

def Chip.usesPending (c : Chip) (g : Nat) (mask : BitVec 32) (u : Uses) : Bool :=
  ((u.vs ++ u.vd).any fun r => c.regPending g mask .vector r) ||
    (u.ss.any fun r => c.regPending g mask .scalar r) || (u.sd.any fun r => c.scalarOwed g mask r)

/-- Whether two entries stand for one write, whose lanes have since gone different ways. -/
def Hazard.same (z y : Hazard) : Bool := z.file = y.file && z.idx = y.idx && z.doneAt = y.doneAt && z.old = y.old

/-- Whether a write's encoded distance is still too short for a path: the smallest over its lanes counts (R65). -/
def Hazard.short (z : Hazard) (mask : BitVec 32) : Bool := z.lanes &&& mask ≠ 0 && z.left ≠ 0

/-- Whether a path with a mask, at a clk, sees a fixed-latency result: its own lanes by their distance, another path's
scalar result once it has completed (R39, R65). -/
def Group.sees (x : Group) (z : Hazard) (mask : BitVec 32) (now : Nat) : Bool :=
  let zs := x.hazards.filter z.same
  if zs.all fun y => y.lanes &&& mask = 0 then z.file ≠ .scalar || z.doneAt ≤ now else !zs.any fun y => y.short mask

def Uses.reads (u : Uses) (z : Hazard) : Bool :=
  match z.file with
  | .vector => u.vs.contains z.idx
  | .scalar => u.ss.contains z.idx
  | .predicate => u.ps.contains z.idx

/-- A group with one unreadable result taken back for the lanes of a reader (R65, CHECK off). -/
def Hazard.unread (z : Hazard) (mask : BitVec 32) (x : Group) : Group :=
  match z.file with
  | .vector => (lanesOf (z.lanes &&& mask)).foldl (fun x i => x.setV z.idx i (mgetD z.old VReg.zero i)) x
  | .scalar => x.setS z.idx (mgetD z.old VReg.zero 0).bits
  | .predicate =>
    let m := z.lanes &&& mask
    x.setP z.idx ((x.preg z.idx &&& ~~~m) ||| ((mgetD z.old VReg.zero 0).bits &&& m))

/-- The group as a path reads it: unreadable results, newest first, taken back; what stands below a scalar result that the
path sees is no longer visible. -/
def Group.view (x : Group) (mask : BitVec 32) (now : Nat) : Group :=
  (x.hazards.foldl (fun v z =>
    if v.2.contains z.idx && z.file = .scalar then v
    else if x.sees z mask now then (v.1, if z.file = .scalar then z.idx :: v.2 else v.2)
    else (z.unread mask v.1, v.2)) (x, ([] : List Nat))).1

/-- Hazards after an instruction of a path: `n` more clk of distance for its lanes (R65). -/
def ageHazards (mask : BitVec 32) (n now : Nat) (zs : List Hazard) : List Hazard :=
  (zs.flatMap fun z =>
    [{ z with lanes := z.lanes &&& mask, left := z.left - n }, { z with lanes := z.lanes &&& ~~~mask }]).filter fun z =>
      z.lanes ≠ 0 && (z.left ≠ 0 || (z.file = .scalar && now < z.doneAt))

/-! ## Issue and retirement -/

/-- The chip once an instruction of a path has retired: pc past it, one more retired instruction, its stall counted, distances
grown (R31, R35, R50, R65). -/
def Chip.retire (c : Chip) (h : Here) (len stall now : Nat) : Chip :=
  ((c.modTeam h.tid fun t => { t with ret := t.ret + 1 }).modGroup h.g fun x =>
    { x with hazards := ageHazards h.mask (1 + stall) now x.hazards }).modPath h.g h.p fun x =>
      { x with pc := x.pc + BitVec.ofNat 64 len, readyAt := now + 1 + stall }

/-- An instruction retires. -/
def advance (h : Here) (len stall : Nat) : Act Unit := do
  let now ← clock
  modChip fun c => c.retire h len stall now

/-- An instruction that waits without parking leaves everything as it was at its issue. -/
def unissue (h : Here) : Act Unit := do
  modTeam h.tid fun t => { t with ret := h.team.ret }
  modGroup h.g fun x => { x with hazards := h.grp.hazards }
  modPath h.g h.p fun _ => h.path

/-- The issue of an instruction: allocation bound (R18), interlocks (R64), the checking scoreboard (R65); then its body,
which sees its sources as R65 gives, on the state after retirement. -/
def issue (len stall : Nat) (u : Uses) (body : Here → Act Unit) : Act Unit := do
  let h ← here
  let c ← getChip
  let now ← clock
  if (u.vs ++ u.vd).any fun r => r ≥ h.grp.alloc then trap causeBound 2
  else if c.usesPending h.g h.mask u || u.slow now h.grp.slow then notReady
  else if h.check && h.grp.hazards.any fun z => u.reads z && z.short h.mask then trap causeStallShort
  else do
    advance h len stall
    body { h with grp := h.grp.view h.mask now }

/-- A group with a fixed-latency result in vector registers: lanes keep what they held until `lat` clk of distance (R63, R65). -/
def Group.wroteV (x : Group) (now lat stall r : Nat) (lanes : BitVec 32) (f : Nat → VReg) : Group :=
  let ls := lanesOf lanes
  let old := ls.map fun i => (i, x.vreg r i)
  let x' := ls.foldl (fun x i => x.setV r i (f i)) (x.superseded .vector r lanes)
  if lat ≤ 1 + stall || lanes = 0 then x'
  else { x' with hazards := ⟨.vector, r, lanes, lat - 1 - stall, now + lat, old⟩ :: x'.hazards }

/-- A group with a fixed-latency result in a scalar register, in the order in which the writes of its paths complete; one
that completes at another's clk applies after it. -/
def Group.wroteS (x : Group) (now lat stall r : Nat) (mask : BitVec 32) (v : Word) : Group :=
  let up := Hazard.above r (now + lat + 1) mask
  let add := fun old => if mask = 0 || lat = 0 then [] else [⟨.scalar, r, mask, lat - 1 - stall, now + lat, old⟩]
  let y := x.superseded .scalar r mask
  if x.hazards.any up then { y with hazards := slideUnder up v add y.hazards }
  else { y.setS r v with hazards := add [(0, ⟨x.sreg r, 0⟩)] ++ y.hazards }

/-- A group with a fixed-latency result in the bits of a predicate register that some lanes govern (R39). -/
def Group.wroteP (x : Group) (now lat stall r : Nat) (lanes : BitVec 32) (v : Word) : Group :=
  let x' := (x.superseded .predicate r lanes).setP r ((x.preg r &&& ~~~lanes) ||| (v &&& lanes))
  if lat ≤ 1 + stall || lanes = 0 then x'
  else { x' with hazards := ⟨.predicate, r, lanes, lat - 1 - stall, now + lat, [(0, ⟨x.preg r, 0⟩)]⟩ :: x'.hazards }

def writeV (h : Here) (lat stall r : Nat) (lanes : BitVec 32) (f : Nat → VReg) : Act Unit := do
  let now ← clock
  modGroup h.g fun x => x.wroteV now lat stall r lanes f

def writeS (h : Here) (lat stall r : Nat) (v : Word) : Act Unit := do
  let now ← clock
  modGroup h.g fun x => x.wroteS now lat stall r h.mask v

def writeP (h : Here) (lat stall r : Nat) (lanes : BitVec 32) (v : Word) : Act Unit := do
  let now ← clock
  modGroup h.g fun x => x.wroteP now lat stall r lanes v

/-- An interlocked result: readable as soon as it stands (R64). -/
def setS (h : Here) (r : Nat) (v : Word) : Act Unit := do
  let now ← clock
  modGroup h.g fun x => x.landS now r h.mask v
def setPair (h : Here) (r : Nat) (v : Addr) : Act Unit := do
  setS h r (v.extractLsb' 0 32)
  setS h (r + 1) (v.extractLsb' 32 32)

/-- The results of SHFL, XRED, LGET and LPUT on a near-threshold island can be read 8 clk later (R187). -/
def slowly (h : Here) (file : RegFile) (rs : List Nat) : Act Unit := do
  let now ← clock
  if ((← getChip).core h.core).island then
    modGroup h.g fun x => { x with slow := (x.slow.filter fun z => now < z.at_) ++ rs.map fun r => ⟨file, r, now + 8⟩ }
  else pure ()

/-- An instruction that acts once for its group when any active lane's guard is true (R56). -/
def onceIf (h : Here) (g : Guard) (act : Act Unit) : Act Unit := if h.lanes g = 0 then pure () else act

/-! ## Steps from transactions -/

/-- A program instruction as a step: done, trapped (R259), or not ready and the state as it was. -/
def runZha (len : Nat) (body : Act Unit) (s : State) : Host.Outcome State Fault Refusal :=
  match body s.tx with
  | .ok (_, t) => .next (s.commit t)
  | .error (.fault f) => .fault f
  | .error .notReady => .next s
  | .error (.trap t) =>
    match takeTrap s.actor.1 s.actor.2 t len none none [] true s.tx with
    | .ok (_, t') => .next (s.commit t')
    | .error (.fault f) => .fault f
    | .error _ => .next s

/-- An event or command as a step: done, or not enabled and the state as it was. -/
def runEvent (body : Act Unit) (s : State) : Host.Outcome State Fault Refusal :=
  match body s.tx with
  | .ok (_, t) => .next (s.commit t)
  | .error (.fault f) => .fault f
  | .error _ => .next s

/-- An event's guard: without it nothing happens. -/
def enabled (b : Bool) : Act Unit := if b then pure () else notReady

def someOr (o : Option α) : Act α :=
  match o with
  | some a => pure a
  | none => notReady

end Sys2Proof.Machine
end

