-- ==== Sys2Proof/Machine/Trans.lean ====
section
/-! DEFINITION. RCP, RSQ, EXP2, LOG2, SIN and COS: the exact value of the function, rounded once (R86). RCP and RSQ are
exact by integer division and square root. The others are enclosed at 2^-448 and rounded from both ends; where the ends
round apart, which no argument of these formats is known to reach, Config.roundUpTie picks the end (assumption 10). -/

namespace Sys2Proof.Machine

/-- Fraction bits of the fixed-point working format. -/
def fxBits : Nat := 448
def fxOne : Nat := 2 ^ 448
/-- A bound on the error of every fixed-point value below, in units of the last place. -/
def fxErr : Nat := 2 ^ 16

/-- The sum over k of z^(2k+1)/(2k+1), `n` terms, alternating when `alt`: atan z or atanh z with `p = z^(2k+1)`. -/
def atanSeries (alt : Bool) : Nat → Nat → Nat → Nat → Int
  | 0, _, _, _ => 0
  | n + 1, k, p, z2 => (p / (2 * k + 1) : Nat) + (if alt then -1 else 1) * atanSeries alt n (k + 1) (p * z2 / fxOne) z2

/-- ln 2 = 2 atanh(1/3). -/
def fxLn2 : Nat := (2 * atanSeries false 150 0 (fxOne / 3) (fxOne / 9)).toNat

/-- π = 16 atan(1/5) − 4 atan(1/239). -/
def fxPi : Nat :=
  (16 * atanSeries true 110 0 (fxOne / 5) (fxOne / 25) - 4 * atanSeries true 40 0 (fxOne / 239) (fxOne / 57121)).toNat

/-- The sum of z^k/k! from k on, `n` terms, `p` the current term. -/
def expSeries : Nat → Nat → Nat → Nat → Nat
  | 0, _, _, _ => 0
  | n + 1, k, p, z => p + expSeries n (k + 1) (p * z / fxOne / (k + 1)) z

/-- sin z by its alternating series, `n` terms, `p` the current term. -/
def sinSeries : Nat → Nat → Nat → Nat → Int
  | 0, _, _, _ => 0
  | n + 1, k, p, z2 => (p : Int) - sinSeries n (k + 1) (p * z2 / fxOne / ((2 * k + 2) * (2 * k + 3))) z2

/-- Integer square root by bits, from bit `n` down. -/
def isqrtBits : Nat → Nat → Nat → Nat
  | 0, _, r => r
  | n + 1, x, r => let t := r + 2 ^ n; isqrtBits n x (if t * t ≤ x then t else r)

/-- A value enclosed by `v ± fxErr` at `2^(e)` per unit, rounded once; both ends are inexact. -/
def roundEnclosed (f : Fmt) (rm : Rm) (ftz : Bool) (neg : Bool) (v : Nat) (e : Int) (key : Nat) : Nat × FpFlags :=
  let lo := f.round rm false ftz ⟨neg, v - fxErr, e, true⟩
  let hi := f.round rm false ftz ⟨neg, v + fxErr, e, true⟩
  if lo = hi then lo else if Config.roundUpTie key then hi else lo

/-- A dyadic value scaled to the fixed-point format, with its floor (values of the formats are exact here). -/
def toFx (x : Exact) : Int :=
  let mag := if 0 ≤ x.e + fxBits then x.m * 2 ^ (x.e + fxBits).toNat else x.m / 2 ^ (-(x.e + fxBits)).toNat
  if x.neg then -(mag : Int) else mag

/-- 1/x. -/
def rcpExact (x : Exact) : Exact :=
  let n := Nat.log2 x.m + 64
  ⟨x.neg, 2 ^ n / x.m, -(x.e) - n, 2 ^ n % x.m ≠ 0⟩

/-- 1/√x for x above 0. -/
def rsqExact (x : Exact) : Exact :=
  let m := if x.e % 2 = 0 then x.m else 2 * x.m
  let e := if x.e % 2 = 0 then x.e else x.e - 1
  let n := 2 * (Nat.log2 m / 2 + 64)
  let y := isqrtBits 80 (2 ^ n / m) 0
  ⟨false, y, -(e / 2) - n / 2, y * y * m ≠ 2 ^ n⟩

/-- 2^x. -/
def exp2Value (f : Fmt) (rm : Rm) (ftz : Bool) (key : Nat) (x : Exact) : Nat × FpFlags :=
  let big : Bool := x.e + (Nat.log2 x.m : Int) ≥ 12
  if x.m = 0 then f.round rm false ftz ⟨false, 1, 0, false⟩
  else if big then f.round rm false ftz (if x.neg then ⟨false, 2 ^ 64, -8192, true⟩ else ⟨false, 2 ^ 64, 8192, true⟩)
  else
    let fx := toFx x
    let k : Int := fx / (fxOne : Int)
    let fr := (fx % (fxOne : Int)).toNat
    if fr = 0 then f.round rm false ftz ⟨false, 1, k, false⟩
    else roundEnclosed f rm ftz false (expSeries 120 0 fxOne (fr * fxLn2 / fxOne)) (k - fxBits) key

/-- log2 x for x above 0. -/
def log2Value (f : Fmt) (rm : Rm) (ftz : Bool) (key : Nat) (x : Exact) : Nat × FpFlags :=
  let l := Nat.log2 x.m
  let k : Int := x.e + l
  if x.m = 2 ^ l then f.round rm false ftz (Exact.ofInt k)
  else
    -- y in (1, 2); ln y = 2 atanh((y − 1)/(y + 1))
    let z := (x.m - 2 ^ l) * fxOne / (x.m + 2 ^ l)
    let lny := (2 * atanSeries false 150 0 z (z * z / fxOne)).toNat
    let v : Int := k * fxOne + (lny * fxOne / fxLn2 : Nat)
    roundEnclosed f rm ftz (decide (v < 0)) v.natAbs (-(fxBits : Int)) key

/-- sin(π t) for t in fixed point, reduced modulo 2; `negZero` is the sign of an exact zero. -/
def sinPiFx (f : Fmt) (rm : Rm) (ftz : Bool) (key : Nat) (t : Int) (negZero : Bool) : Nat × FpFlags :=
  let r := (t % (2 * fxOne : Nat)).toNat
  let neg : Bool := r ≥ fxOne
  let r := if neg then r - fxOne else r
  let r := if r > fxOne / 2 then fxOne - r else r
  if r = 0 then f.round rm false ftz (Exact.zero negZero)
  else if r = fxOne / 2 then f.round rm false ftz ⟨neg, 1, 0, false⟩
  else
    let z := r * fxPi / fxOne
    roundEnclosed f rm ftz neg (sinSeries 70 0 z (z * z / fxOne)).toNat (-(fxBits : Int)) key

/-- The transcendental functions (R86): 0 RCP, 1 RSQ, 2 EXP2, 3 LOG2, 4 SIN, 5 COS. -/
def transElem (fn : Nat) (f : Fmt) (rm : Rm) (ftz : Bool) (b : Nat) : Nat × FpFlags :=
  let enc := f.encode rm false ftz
  let div := fun neg => let r := enc (.inf neg); (r.1, flagDiv)
  let nanInv := (f.canonNaN, flagInvalid)
  let key := fn + 8 * b
  match fn, f.decode ftz b with
  | _, .nan i => enc (.nan i)
  | 0, .inf s => enc (.zero s)
  | 0, .fin x => if x.m = 0 then div x.neg else f.round rm false ftz (rcpExact x)
  | 1, .inf s => if s then nanInv else enc (.zero false)
  | 1, .fin x => if x.m = 0 then div x.neg else if x.neg then nanInv else f.round rm false ftz (rsqExact x)
  | 2, .inf s => if s then enc (.zero false) else enc (.inf false)
  | 2, .fin x => exp2Value f rm ftz key x
  | 3, .inf s => if s then nanInv else enc (.inf false)
  | 3, .fin x => if x.m = 0 then div true else if x.neg then nanInv else log2Value f rm ftz key x
  | _, .inf _ => nanInv
  | 4, .fin x => if x.m = 0 then enc (.zero x.neg) else sinPiFx f rm ftz key (toFx x) x.neg
  | _, .fin x => sinPiFx f rm ftz key (toFx x + (fxOne / 2 : Nat)) false

/-- A transcendental in one lane: F32 or F16x2 elements. -/
def laneTrans (fn : Nat) (m : FpMode) (t : BitVec 4) (a : Nat) : Nat × FpFlags :=
  eachElem t fun e => transElem fn (tagFmt t) m.rm m.ftz (elem (tagWidth t) e a)

end Sys2Proof.Machine
end

