-- ==== Sys2Proof/Machine/Operands.lean ====
section
/-! DEFINITION. Operand forms: vector, scalar and immediate sources of a lane, their tags, the shape shared by lane-wise and
scalar instructions, exception flags, and operand records. -/

namespace Sys2Proof.Machine

/-! ## Forms -/

/-- What every program instruction has: its length, its stall count and its guard (R47, R50, R55). -/
structure Form where
  len : Nat
  stall : Nat
  g : Guard
  deriving DecidableEq, Repr

def Guard.always : Guard := ⟨0, 0, 0⟩
/-- Y of a compact instruction is a stall of one clk (R48). -/
def compactForm (f : CompactF) : Form := ⟨2, f.y.toNat, Guard.always⟩
def baseForm (stall : BitVec 3) : Form := ⟨4, stall.toNat, Guard.always⟩
def xForm (stall : BitVec 3) (g : Guard) : Form := ⟨8, stall.toNat, g⟩

/-! ## Sources (R41, R57, R323, R324) -/

/-- A source of a lane-wise instruction. -/
inductive Src where
  | v (r : Nat)
  | s (r : Nat)
  | imm (i : Int)
  deriving DecidableEq, Repr

def Src.vs : Src → List Nat
  | .v r => [r]
  | _ => []

def Src.ss : Src → List Nat
  | .s r => [r]
  | _ => []

/-- opnd(): the operand in lane `i`. -/
def Src.opnd (h : Here) (i : Nat) : Src → LaneOpnd
  | .v r => .bits (h.v r i).bits.toNat
  | .s r => .bits (h.s r).toNat
  | .imm k => .imm k

/-- The 32 bits of the operand in lane `i`. -/
def Src.raw (h : Here) (i : Nat) (o : Src) : Nat := (o.opnd h i).raw

/-- The tag of a vector source in lane `i`; a scalar or an immediate has none (R41). -/
def Src.tag? (h : Here) (i : Nat) : Src → Option (BitVec 4)
  | .v r => some (h.v r i).tag
  | _ => none

/-- The tags of the vector sources in lane `i`. -/
def vectorTags (h : Here) (i : Nat) (ss : List Src) : List (BitVec 4) := ss.filterMap (Src.tag? h i)

/-- The common tag of R41: none where vector sources differ, I32 where there is no vector source. -/
def commonTag (h : Here) (i : Nat) (ss : List Src) : Option (BitVec 4) :=
  match vectorTags h i ss with
  | [] => some tagI32
  | t :: r => if r.all fun x => x = t then some t else none

/-- The result tag of logic and shifts (R42): the common tag, RAW where vector sources differ. -/
def logicTag (h : Here) (i : Nat) (ss : List Src) : BitVec 4 := (commonTag h i ss).getD tagRAW

/-- The layout of a shift or bit field (R402): A's own tag, or for a scalar A that of the other vector source. -/
def layoutTag (h : Here) (i : Nat) (a b : Src) : BitVec 4 :=
  match a.tag? h i, b.tag? h i with
  | some t, _ => t
  | none, some t => t
  | none, none => tagI32

/-- Tags that arithmetic takes (R41, R43). -/
def arithTag (t : BitVec 4) : Bool := tagIsFloat t || tagIsInt t

/-- The computing tag of ADD and SUB (R43, R329). -/
def addTag : Option (BitVec 4) → Option (BitVec 4) → Option (BitVec 4)
  | none, none => some tagI32
  | some t, none => if t = tagADDR || arithTag t then some t else none
  | none, some t => if t = tagADDR || arithTag t then some t else none
  | some x, some y =>
    if x = y then (if arithTag x then some x else none)
    else if x = tagADDR && (y = tagI32 || y = tagN32) then some tagADDR
    else if y = tagADDR && (x = tagI32 || x = tagN32) then some tagADDR
    else none

/-- Result latency of arithmetic by its computing tag (R63). -/
def arithLat (t : BitVec 4) : Nat := if tagIsFloat t then 6 else 4

/-! ## Sources of the formats (R48, R51, R57) -/

def compactA (f : CompactF) : Src := .v f.vd.toNat
def compactB (f : CompactF) : Src := .v f.vs.toNat
def trioA (f : TrioF) : Src := .v f.va.toNat
def trioB (f : TrioF) : Src := if f.bs = 1 then .s f.vb.toNat else .v f.vb.toNat
/-- The signed 16-bit immediate of the standard and scalar frames. -/
def imm16 (b c : BitVec 8) : Int := (c ++ b).toInt
def xA (f : XF) : Src := if f.cl.getLsbD 1 then .s f.a.toNat else .v f.a.toNat
def xB (f : XF) : Src :=
  if f.imm = 1 then .imm (imm16 f.b f.c) else if f.cl.getLsbD 2 then .s f.b.toNat else .v f.b.toNat
def xC (f : XF) : Src := if f.cl.getLsbD 3 then .s f.c.toNat else .v f.c.toNat
def xFrame (f : XF) : Form := xForm f.stall f.g

/-! ## Exception flags (R80) -/

/-- The flags of the lanes: sticky in FPCTL, or an ARITH trap where one is enabled. -/
def raiseFlags (h : Here) (fs : List (Nat × FpFlags)) : Act Unit := do
  let en : FpFlags := h.team.fpctl.extractLsb' 1 5
  let fl := fs.foldl (fun a x => a ||| x.2) (0 : FpFlags)
  if fl &&& en ≠ 0 then
    stop (.trap ⟨causeArith, (fl &&& en).toNat, 0, ((fs.find? fun x => x.2 &&& en ≠ 0).map Prod.fst).getD 0, fl, [], false, 0, 0⟩)
  else do
    let now ← clock
    modTeam h.tid fun t => t.raise now fl

/-! ## Lane-wise instructions (R323) -/

/-- One lane's result: the register, the flags, and the latency of its computing tag. -/
structure LaneOut where
  reg : VReg
  flags : FpFlags
  lat : Nat
  deriving DecidableEq, Repr

def LaneOut.of (t : BitVec 4) (lat : Nat) (r : Nat × FpFlags) : LaneOut := ⟨⟨BitVec.ofNat 32 r.1, t⟩, r.2, lat⟩

/-- The registers that a lane-wise instruction names. -/
def laneUses (F : Form) (d : Nat) (srcs : List Src) (ps : List Nat) : Uses :=
  ⟨srcs.flatMap Src.vs, [d], srcs.flatMap Src.ss, [], guardPs F.g ++ ps, []⟩

/-- A lane-wise instruction: TAG where a lane's tags do not fit, the flags, then the destination in lanes().
Where lanes compute in different tags, every lane has the largest L (assumption 72). -/
def laneOp (F : Form) (d : Nat) (srcs : List Src) (ps : List Nat) (f : Here → Nat → Option LaneOut) : Act Unit :=
  issue F.len F.stall (laneUses F d srcs ps) fun h => do
    let rs := (lanesOf (h.lanes F.g)).map fun i => (i, f h i)
    match rs.find? fun r => r.2.isNone with
    | some r => trap causeTag 0 0 r.1
    | none => do
      let os := rs.filterMap fun r => r.2.map fun o => (r.1, o)
      raiseFlags h (os.map fun o => (o.1, o.2.flags))
      writeV h (os.foldl (fun m o => max m o.2.lat) 0) F.stall d (h.lanes F.g) fun i =>
        (mget? os i).elim VReg.zero LaneOut.reg

/-- A predicate written in lanes() from one condition per lane (R39, R346). -/
def predOp (F : Form) (lat d : Nat) (u : Uses) (f : Here → Nat → Option (Bool × FpFlags)) : Act Unit :=
  issue F.len F.stall { u with ps := guardPs F.g ++ u.ps, pd := [d] } fun h => do
    let rs := (lanesOf (h.lanes F.g)).map fun i => (i, f h i)
    match rs.find? fun r => r.2.isNone with
    | some r => trap causeTag 0 0 r.1
    | none => do
      raiseFlags h (rs.map fun r => (r.1, (r.2.map Prod.snd).getD 0))
      writeP h lat F.stall d (h.lanes F.g) (maskOf fun i => rs.any fun r => r.1 = i && (r.2.map Prod.fst).getD false)

/-- A scalar instruction with a result after 2 clk: it takes effect once for the group (R56, R325). -/
def scalarOp (F : Form) (d : Nat) (ss : List Nat) (f : Here → Word) : Act Unit :=
  issue F.len F.stall ⟨[], [], ss, [d], guardPs F.g, []⟩ fun h => onceIf h F.g (writeS h 2 F.stall d (f h))

/-! ## Two-source and three-source lane operations -/

/-- Arithmetic of R41 in the common tag. -/
def arithOp (F : Form) (d : Nat) (srcs : List Src) (ok : BitVec 4 → Bool) (lat : BitVec 4 → Nat)
    (f : Here → Nat → BitVec 4 → Nat × FpFlags) : Act Unit :=
  laneOp F d srcs [] fun h i =>
    match commonTag h i srcs with
    | some t => if ok t then some (LaneOut.of t (lat t) (f h i t)) else none
    | none => none

/-- ADD and SUB (R329, R412): ADDR takes an I32 or N32 partner, and .sat does nothing there (R43). -/
def addOp (sub : Bool) (F : Form) (d : Nat) (a b : Src) (rm : Rm) (sat : Bool) : Act Unit :=
  laneOp F d [a, b] [] fun h i =>
    (addTag (a.tag? h i) (b.tag? h i)).map fun t =>
      let m : FpMode := ⟨rm, sat && t ≠ tagADDR, h.ftz⟩
      LaneOut.of t (arithLat t) (if sub then laneSub m t (a.opnd h i) (b.opnd h i) else laneAdd m t (a.opnd h i) (b.opnd h i))

/-- MUL (R381). -/
def mulOp (F : Form) (d : Nat) (a b : Src) (rm : Rm) (sat : Bool) : Act Unit :=
  arithOp F d [a, b] arithTag arithLat fun h i t => laneMul ⟨rm, sat, h.ftz⟩ t (a.opnd h i) (b.opnd h i)

/-- FMA (R363): readable after 6 clk on every tag. -/
def fmaOp (F : Form) (d : Nat) (a b c : Src) (rm : Rm) (sat : Bool) : Act Unit :=
  arithOp F d [a, b, c] arithTag (fun _ => 6) fun h i t =>
    laneFma ⟨rm, sat, h.ftz⟩ t (a.opnd h i) (b.opnd h i) (c.opnd h i)

/-- MIN and MAX (R373). -/
def minMaxOp (isMax : Bool) (F : Form) (d : Nat) (a b : Src) : Act Unit :=
  arithOp F d [a, b] arithTag arithLat fun h i t => laneMinMax isMax ⟨rmRne, false, h.ftz⟩ t (a.opnd h i) (b.opnd h i)

/-- ABS and NEG (R327, R385). -/
def absOp (F : Form) (d : Nat) (a : Src) (sat : Bool) : Act Unit :=
  arithOp F d [a] arithTag arithLat fun h i t => (laneAbs sat t (a.raw h i), 0)
def negOp (F : Form) (d : Nat) (a : Src) (sat : Bool) : Act Unit :=
  arithOp F d [a] arithTag arithLat fun h i t => (laneNeg sat t (a.raw h i), 0)

/-- DOT (R353): the destination holds the accumulator tag. Two scalar factors take the tag of Vd, the only vector source
(assumption 20). -/
def dotOp (F : Form) (d : Nat) (a b : Src) (rm : Rm) (sat : Bool) : Act Unit :=
  laneOp F d [a, b, .v d] [] fun h i =>
    let t? := if vectorTags h i [a, b] = [] then some (h.v d i).tag else commonTag h i [a, b]
    match t? with
    | none => none
    | some t =>
      match dotAcc t with
      | none => none
      | some acc =>
        if (h.v d i).tag ≠ acc then none
        else some (LaneOut.of acc 6 (laneDot ⟨rm, sat, h.ftz⟩ t (h.v d i).bits.toNat (a.opnd h i) (b.opnd h i)))

/-- Logic over the 32 bits, whatever the tag (R331). -/
def logicOp (F : Form) (d : Nat) (srcs : List Src) (f : Here → Nat → Nat) : Act Unit :=
  laneOp F d srcs [] fun h i => some (LaneOut.of (logicTag h i srcs) 4 (f h i, 0))

def andOp (F : Form) (d : Nat) (a b : Src) : Act Unit := logicOp F d [a, b] fun h i => a.raw h i &&& b.raw h i
def orOp (F : Form) (d : Nat) (a b : Src) : Act Unit := logicOp F d [a, b] fun h i => a.raw h i ||| b.raw h i
def xorOp (F : Form) (d : Nat) (a b : Src) : Act Unit := logicOp F d [a, b] fun h i => a.raw h i ^^^ b.raw h i
def notOp (F : Form) (d : Nat) (a : Src) : Act Unit := logicOp F d [a] fun h i => 2 ^ 32 - 1 - a.raw h i
def shlOp (F : Form) (d : Nat) (a b : Src) : Act Unit :=
  logicOp F d [a, b] fun h i => laneShl (layoutTag h i a b) (a.raw h i) (b.opnd h i)
def shrOp (F : Form) (d : Nat) (a b : Src) : Act Unit :=
  logicOp F d [a, b] fun h i => laneShr (layoutTag h i a b) (a.raw h i) (b.opnd h i)

/-- A move of one source (R377): its bits and tag, I32 from a scalar. -/
def movOp (F : Form) (d : Nat) (a : Src) : Act Unit := logicOp F d [a] fun h i => a.raw h i

/-- POPC and CLZ give N32 (R42). -/
def countOp (F : Form) (d : Nat) (a : Src) (f : Nat → Nat) : Act Unit :=
  laneOp F d [a] [] fun h i => some (LaneOut.of tagN32 4 (f (a.raw h i), 0))

/-- SEL (R400): the chosen operand's bits; a scalar carries the other operand's tag, I32 where neither is a vector. -/
def selOp (F : Form) (d p : Nat) (neg : Bool) (a b : Src) : Act Unit :=
  laneOp F d [a, b] [p] fun h i =>
    let pick := (h.pr p).getLsbD i != neg
    let x := if pick then a else b
    let y := if pick then b else a
    some (LaneOut.of (((x.tag? h i) <|> (y.tag? h i)).getD tagI32) 4 (x.raw h i, 0))

/-! ## Scalar arithmetic (R54, R325) -/

/-- The second source of a scalar instruction: a register or the sign-extended immediate. -/
inductive ScalarSrc where
  | reg (r : Nat)
  | imm (v : Word)
  deriving DecidableEq, Repr

def ScalarSrc.ss : ScalarSrc → List Nat
  | .reg r => [r]
  | .imm _ => []

def ScalarSrc.val (h : Here) : ScalarSrc → Word
  | .reg r => h.s r
  | .imm v => v

def scalarB (f : ScalarF) : ScalarSrc := if f.imm = 1 then .imm ((f.c ++ f.b).signExtend 32) else .reg f.b.toNat

/-- Sd := f(Sa, second source). -/
def salu2 (F : Form) (d a : Nat) (b : ScalarSrc) (f : Word → Word → Word) : Act Unit :=
  scalarOp F d (a :: b.ss) fun h => f (h.s a) (b.val h)

/-- Sd := f(Sa). -/
def salu1 (F : Form) (d a : Nat) (f : Word → Word) : Act Unit := scalarOp F d [a] fun h => f (h.s a)

def wordMin (a b : Word) : Word := if b.slt a then b else a
def wordMax (a b : Word) : Word := if a.slt b then b else a
def wordMulhi (a b : Word) : Word := BitVec.ofInt 32 (a.toInt * b.toInt / 2 ^ 32)
def wordClz (a : Word) : Word := BitVec.ofNat 32 (clz32 a.toNat)
def wordPopc (a : Word) : Word := BitVec.ofNat 32 (popCount 32 a.toNat)
def wordShl (a b : Word) : Word := a <<< (b.toNat % 32)
def wordShr (a b : Word) : Word := a >>> (b.toNat % 32)
def wordSra (a b : Word) : Word := a.sshiftRight (b.toNat % 32)

/-! ## Control transfer (R47, R339, R365) -/

/-- The path moves to an address relative to the branch's own. -/
def jumpTo (h : Here) (pc : Addr) : Act Unit := modPath h.g h.p fun x => { x with pc := pc }

/-- The checks of an absolute target: odd, bad high bits, OPM (R365). -/
def checkTarget (t : Addr) : Act Unit := do
  let c ← getChip
  if t.getLsbD 0 then trap causeAlign 0 t
  else if c.region t = .bad then trap causeAccess 5 t
  else if bits t.toNat 48 8 = 0xFF then trap causeAccess 6 t
  else pure ()

/-! ## Operand records (R67, R68) -/

/-- The check of an operand record at issue, for a set of accepted tags (R68). -/
def checkRecord (scrUnits : Nat) (raw : BitVec 64) (ok : BitVec 4 → Bool) : Act Unit :=
  let r := OpRec.of raw
  if raw.getLsbD 63 || r.len = 0 then trap causeBound 4
  else if r.tag = 15 || !ok r.tag then trap causeTag
  else if r.endUnit > scrUnits * 128 then trap causeBound 3
  else pure ()

end Sys2Proof.Machine
end

