-- ==== Sys2Proof/Machine/MemForm.lean ====
section
/-! DEFINITION. The frame that memory instructions share: access types, lane addresses, register bytes, the memory samples
that an instruction owes, and what an access learns from the landing that filled its granules. -/

namespace Sys2Proof.Machine

/-! ## Types (R367) -/

/-- An access type: bytes, registers and the tag a load writes, or a typed store needs. -/
structure MemType where
  size : Nat
  regs : Nat
  tag : BitVec 4
  deriving DecidableEq, Repr

def memType (ty : Nat) : MemType :=
  match ty with
  | 0 => ⟨1, 1, tagRAW⟩
  | 1 => ⟨2, 1, tagRAW⟩
  | 2 => ⟨4, 1, tagRAW⟩
  | 3 => ⟨8, 2, tagRAW⟩
  | 4 => ⟨16, 4, tagRAW⟩
  | 5 => ⟨4, 1, tagI32⟩
  | 6 => ⟨4, 1, tagN32⟩
  | 7 => ⟨4, 1, tagF32⟩
  | 8 => ⟨4, 1, tagBF16⟩
  | 9 => ⟨4, 1, tagF8A⟩
  | 10 => ⟨4, 1, tagF8B⟩
  | 11 => ⟨4, 1, tagI8⟩
  | 12 => ⟨4, 1, tagN8⟩
  | _ => ⟨4, 1, tagQC4⟩

/-! ## Forms (R51, R366) -/

/-- A memory instruction of either form: its frame, transfer register, base pair, index register, offset in units of the
access size, type, synchronisation and full/empty fields. -/
structure MemForm where
  form : Form
  vt : Nat
  sa : Nat
  vi : Option Nat
  off : Int
  ty : Nat
  sync : Bool
  scope : Nat
  few : Bool
  fec : Bool
  fes : Bool
  deriving DecidableEq, Repr

def MemForm.type (m : MemForm) : MemType := memType m.ty

def memBase (f : MemF) : MemForm :=
  ⟨baseForm f.stall, f.vt.toNat, f.sbase.toNat, none, f.imm.toNat, 2, false, 0, false, false, false⟩

def memX (f : MemXF) : MemForm :=
  { form := xForm f.stall f.g, vt := f.vt.toNat, sa := f.sa.toNat,
    vi := if f.vi = 1 then some (f.off.toNat % 128) else none, off := f.off.toInt, ty := f.ty.toNat, sync := f.ord = 1,
    scope := f.scope.toNat, few := f.few = 1, fec := f.fec = 1, fes := f.fes = 1 }

def MemForm.regs (m : MemForm) : List Nat := (List.range m.type.regs).map fun k => m.vt + k

/-- The registers of a load into, or a store from, vector registers. -/
def MemForm.uses (m : MemForm) (store : Bool) : Uses :=
  { vs := m.vi.toList ++ (if store then m.regs else []), vd := if store then [] else m.regs, ss := [m.sa, m.sa + 1],
    sd := [], ps := guardPs m.form.g, pd := [] }

/-! ## Lane addresses (R368) -/

/-- The signed or unsigned offset that an index register holds, none for a tag that cannot index. -/
def indexOf (r : VReg) : Option Addr :=
  if r.tag = tagI32 then some (signExt r.bits) else if r.tag = tagN32 then some (zeroExt r.bits) else none

/-- Lanes whose index register has no offset trap TAG. -/
def checkIndex (h : Here) (vi : Nat) (lanes : BitVec 32) : Act Unit :=
  match (lanesOf lanes).find? fun i => (indexOf (h.v vi i)).isNone with
  | some i => trap causeTag 0 0 i
  | none => pure ()

/-- The offset of a lane from the base. -/
def MemForm.offset (m : MemForm) (h : Here) (i : Nat) : Addr :=
  match m.vi with
  | some r => (indexOf (h.v r i)).getD 0
  | none => BitVec.ofInt 64 ((m.off + i) * m.type.size)

def MemForm.checkIndices (m : MemForm) (h : Here) : Act Unit :=
  match m.vi with
  | some r => checkIndex h r (h.lanes m.form.g)
  | none => pure ()

/-- The lanes of a global access with their addresses. -/
def MemForm.addrs (m : MemForm) (h : Here) : List (Nat × Addr) :=
  (lanesOf (h.lanes m.form.g)).map fun i => (i, h.pair m.sa + m.offset h i)

/-- The lanes of a scratch access with their byte offsets, modulo 2^32 (R370). -/
def MemForm.scrAddrs (m : MemForm) (h : Here) : List (Nat × Addr) :=
  (lanesOf (h.lanes m.form.g)).map fun i => (i, zeroExt (h.s m.sa + (m.offset h i).setWidth 32))

/-! ## Register bytes -/

/-- The bytes that a lane stores: the low bytes of its registers, low register first (R408). -/
def Group.laneBytes (x : Group) (vt regs size i : Nat) : List Byte :=
  (((List.range regs).flatMap fun k => toLE 4 (x.vreg (vt + k) i).bits.toNat)).take size

/-- A lane's registers written from loaded bytes, zero-extended to 32 bits (R367). -/
def Group.setLane (x : Group) (vt regs : Nat) (tag : BitVec 4) (i : Nat) (bs : List Byte) : Group :=
  (List.range regs).foldl (fun x k => x.landV (vt + k) i ⟨BitVec.ofNat 32 (fromLE ((bs.drop (4 * k)).take 4)), tag⟩) x

/-- A typed store needs the suffix's tag in every lane (R408). -/
def MemForm.checkTyped (m : MemForm) (h : Here) : Act Unit :=
  if m.ty < 5 then pure ()
  else match (lanesOf (h.lanes m.form.g)).find? fun i => (h.v m.vt i).tag ≠ m.type.tag with
    | some i => trap causeTag 0 0 i
    | none => pure ()

/-! ## Memory samples (R278) -/

/-- The 32-byte sectors that lanes of an access touch. -/
def sectorsOf (n : Nat) (ls : List (Nat × Addr)) : Nat :=
  (distinct (ls.flatMap fun l => granulesOf l.2.toNat n)).length

/-- A memory instruction counts toward its context's sampling interval on its core; every MEMN-th owes a sample. -/
def countMem (h : Here) (n : Nat) (ls : List (Nat × Addr)) (seq : Option Nat) : Act Unit := do
  let c ← getChip
  match (c.ctx h.ctx).sample with
  | none => pure ()
  | some r =>
    modCore h.core fun k =>
      let cnt := mgetD k.memCount 0 h.ctx + 1
      if cnt ≥ r.memn then
        { k with
          memCount := mput 0 k.memCount h.ctx 0
          due := k.due ++ [⟨h.ctx, h.g, h.agent, h.p, h.path.pc, h.mask, h.run.lid,
            maskOf fun i => ls.any fun l => l.1 = i, sectorsOf n ls, 0, seq⟩] }
      else { k with memCount := mput 0 k.memCount h.ctx cnt }

/-! ## What a landing's fill teaches (R138) -/

/-- A checker that has learned another agent's clock. -/
def Chip.learned (c : Chip) (who : Actor) (k : Checker) (agent : BitVec 20) (clk : BitVec 16) : Checker :=
  if agent = who.agent then k
  else
    let k := match c.resolve agent clk with
      | some d =>
        if d.run = who.run && d.team = who.team then
          { k with vec := mput 0 k.vec d.group (clkMax (mgetD k.vec 0 d.group) clk) }
        else k
      | none => k
    c.fitKnow who { k with know := knowPut k.know agent clk }

/-- A group learns another agent's clock. -/
def learnAgent (g : Nat) (agent : BitVec 20) (clk : BitVec 16) : Act Unit := do
  let c ← getChip
  whenSome ((c.group? g).bind fun x => x.paths.head?.bind fun e => c.actorOf g e.1) fun who =>
    modChecker g fun k => c.learned who k agent clk

/-- An actor that has learned the landings which filled the granules that it reads. -/
def Chip.filled (c : Chip) (who : Actor) (core : Nat) (grans : List Nat) : Actor :=
  let fs := distinct (grans.filterMap fun w => mget? (c.core core).fills w)
  { who with chk := fs.foldl (fun k f => c.learned who k f.1 f.2) who.chk }

/-- What the landings behind a read's full bits did happens before what follows the read. -/
def learnFills (g core : Nat) (grans : List Nat) : Act Unit := do
  let fills := ((← getChip).core core).fills
  each (distinct (grans.filterMap fun w => mget? fills w)) fun f => learnAgent g f.1 f.2

/-! ## Stores whose walk is still to come (R113, R126) -/

def modOp (seq : Nat) (f : MemOp → MemOp) : Act Unit :=
  modChip fun c => { c with memq := c.memq.map fun e => if e.seq = seq then f e else e }

/-- The lanes of a store, those that the walk has still to place placed where it can. -/
def placeLanes (o : MemOp) : Act (List LaneAcc) :=
  mapAct o.lanes fun x =>
    if x.bound then pure x
    else do
      match ← translate o.who.core o.who.run o.who.ctx (Use.store o.who.user) x.va.toNat with
      | .ok pa => return { x with pa := pa, bound := true }
      | .error _ => return x

/-- The walks of a group's stores below an access number, so that a later access is held against the bytes that they name
whatever their virtual address. -/
def walkEarlier (who : Actor) (seq : Nat) : Act Unit := do
  each ((← getChip).memq.filter fun e => sameGroup e.who who && e.seq < seq && e.kind = .store && !e.lanes.all LaneAcc.bound)
    fun e => do
      let xs ← placeLanes e
      modOp e.seq fun x => { x with lanes := xs }

/-! ## Scopes and orders -/

/-- The order of ATOM and MRED: relaxed, acquiring, releasing or both (R332). -/
def ordAcq (o : BitVec 2) : Bool := o = 1 || o = 3
def ordRel (o : BitVec 2) : Bool := o = 2 || o = 3

/-- A scope field in which 0 acts as .sy (R332, R379). -/
def scopeOrSy (s : BitVec 3) : Nat := if s = 0 then 7 else s.toNat

/-- A releasing access of a group publishes its clock as it issues; a path under TRAP waits for its check (R152, R163). -/
def publishIf (g : Nat) (rel : Bool) : Act Unit :=
  if rel then do
    let _ ← publish g
    pure ()
  else pure ()

def blockIf (h : Here) (seq : Nat) : Act Unit :=
  if h.team.raceMode = 2 then modPath h.g h.p fun x => { x with blocked := some seq } else pure ()

/-- The check of an operation has returned: its path may issue again, unless another of its accesses is still to be checked,
as after a return from a handler. -/
def unblock (who : Actor) (seq : Nat) : Act Unit := do
  let c ← getChip
  let next := c.memq.find? fun o => sameGroup o.who who && o.who.path = who.path && o.who.mode = 2 && !o.held && o.seq ≠ seq
  if c.stillThere who then
    modGroup who.slot fun x => { x with paths := x.paths.map fun e =>
      (e.1, if e.2.blocked = some seq then { e.2 with blocked := next.map MemOp.seq } else e.2) }
  else pure ()

/-- Nothing later of a group performs while an acquiring access is outstanding (R130). -/
def awaitAcquire (g : Nat) : Act Unit := do
  if (← getChip).acquirePending g then notReady else pure ()

end Sys2Proof.Machine
end

