-- ==== Sys2Proof/Machine/EngMath.lean ====
section
/-! DEFINITION. What the specialised engines compute: sorting, SHA-256, CRC-64, softmax and DEFLATE (R181). -/

namespace Sys2Proof.Machine

/-! ## SORT -/

/-- The rank of a key in ascending order: I32 signed, N32 unsigned, F32 with −0 before +0 and NaNs last in bit order. -/
def sortRank (tag : BitVec 4) (b : Nat) : Nat :=
  if tag = tagI32 then (b + 2 ^ 31) % 2 ^ 32
  else if tag = tagN32 then b
  else if b % 2 ^ 31 > 0x7F800000 then 2 ^ 33 + b
  else if b ≥ 2 ^ 31 then 2 ^ 32 - 1 - b
  else b + 2 ^ 31

/-- Keys with their positions in a stable order. -/
def sortKeys (tag : BitVec 4) (desc : Bool) (keys : List Nat) : List (Nat × Nat) :=
  sortBy (fun a b => if desc then sortRank tag b.1 < sortRank tag a.1 else sortRank tag a.1 < sortRank tag b.1) keys.zipIdx

/-! ## SHA-256 (FIPS 180-4) -/

def shaK : List (BitVec 32) :=
  [0x428a2f98, 0x71374491, 0xb5c0fbcf, 0xe9b5dba5, 0x3956c25b, 0x59f111f1, 0x923f82a4, 0xab1c5ed5] ++
  [0xd807aa98, 0x12835b01, 0x243185be, 0x550c7dc3, 0x72be5d74, 0x80deb1fe, 0x9bdc06a7, 0xc19bf174] ++
  [0xe49b69c1, 0xefbe4786, 0x0fc19dc6, 0x240ca1cc, 0x2de92c6f, 0x4a7484aa, 0x5cb0a9dc, 0x76f988da] ++
  [0x983e5152, 0xa831c66d, 0xb00327c8, 0xbf597fc7, 0xc6e00bf3, 0xd5a79147, 0x06ca6351, 0x14292967] ++
  [0x27b70a85, 0x2e1b2138, 0x4d2c6dfc, 0x53380d13, 0x650a7354, 0x766a0abb, 0x81c2c92e, 0x92722c85] ++
  [0xa2bfe8a1, 0xa81a664b, 0xc24b8b70, 0xc76c51a3, 0xd192e819, 0xd6990624, 0xf40e3585, 0x106aa070] ++
  [0x19a4c116, 0x1e376c08, 0x2748774c, 0x34b0bcb5, 0x391c0cb3, 0x4ed8aa4a, 0x5b9cca4f, 0x682e6ff3] ++
  [0x748f82ee, 0x78a5636f, 0x84c87814, 0x8cc70208, 0x90befffa, 0xa4506ceb, 0xbef9a3f7, 0xc67178f2]

def shaH : List (BitVec 32) := [0x6a09e667, 0xbb67ae85, 0x3c6ef372, 0xa54ff53a, 0x510e527f, 0x9b05688c, 0x1f83d9ab, 0x5be0cd19]

/-- A big-endian word of a list of bytes. -/
def beWord (bs : List Byte) : BitVec 32 := BitVec.ofNat 32 (bs.foldl (fun n b => n * 256 + b.toNat) 0)

/-- The message schedule, newest word first: `n` more words. -/
def shaSchedule : Nat → List (BitVec 32) → List (BitVec 32)
  | 0, w => w
  | n + 1, w =>
    let g := fun i => w.getD i 0
    let s0 := (g 14).rotateRight 7 ^^^ (g 14).rotateRight 18 ^^^ (g 14) >>> 3
    let s1 := (g 1).rotateRight 17 ^^^ (g 1).rotateRight 19 ^^^ (g 1) >>> 10
    shaSchedule n ((g 15 + s0 + g 6 + s1) :: w)

/-- One round. -/
def shaRound (h : List (BitVec 32)) (kw : BitVec 32) : List (BitVec 32) :=
  match h with
  | [a, b, c, d, e, f, g, i] =>
    let s1 := e.rotateRight 6 ^^^ e.rotateRight 11 ^^^ e.rotateRight 25
    let t1 := i + s1 + ((e &&& f) ^^^ (~~~e &&& g)) + kw
    let s0 := a.rotateRight 2 ^^^ a.rotateRight 13 ^^^ a.rotateRight 22
    let t2 := s0 + ((a &&& b) ^^^ (a &&& c) ^^^ (b &&& c))
    [t1 + t2, a, b, c, d + t1, e, f, g]
  | _ => h

/-- One 64-byte block. -/
def shaBlock (h : List (BitVec 32)) (block : List Byte) : List (BitVec 32) :=
  let w0 := (List.range 16).map fun i => beWord ((block.drop (4 * i)).take 4)
  let w := (shaSchedule 48 w0.reverse).reverse
  List.zipWith (· + ·) h ((List.zipWith (· + ·) shaK w).foldl shaRound h)

def shaBlocks : Nat → List (BitVec 32) → List Byte → List (BitVec 32)
  | 0, h, _ => h
  | n + 1, h, m => shaBlocks n (shaBlock h (m.take 64)) (m.drop 64)

/-- The SHA-256 digest of a message, 32 bytes. -/
def sha256 (m : List Byte) : List Byte :=
  let pad := (119 - m.length % 64) % 64
  let p := m ++ [0x80] ++ List.replicate pad 0 ++ (toLE 8 (8 * m.length)).reverse
  (shaBlocks (p.length / 64) shaH p).flatMap fun w => (toLE 4 w.toNat).reverse

/-! ## CRC-64 (ECMA-182, reflected) -/

def crcBits : Nat → BitVec 64 → BitVec 64
  | 0, c => c
  | n + 1, c => crcBits n (if c.getLsbD 0 then (c >>> 1) ^^^ 0xC96C5795D7870F42 else c >>> 1)

/-- CRC-64 of a list of bytes, initial value and final XOR all ones. -/
def crc64 (bs : List Byte) : BitVec 64 :=
  ~~~(bs.foldl (fun c b => crcBits 8 (c ^^^ b.setWidth 64)) (BitVec.allOnes 64))

/-! ## SOFTMAX -/

/-- round_f32(e^y) of an F32 y that is at most 0, FTZ ignored. -/
def expF32 (y : Nat) : Nat :=
  match valF32 y with
  | .nan _ => fmtF32.canonNaN
  | .inf s => if s then 0 else 0x7F800000
  | .fin x =>
    if x.m = 0 then 0x3F800000
    else if x.e + (Nat.log2 x.m : Int) ≥ 8 then (if x.neg then 0 else 0x7F800000)
    else
      let v := toFx x
      let k : Int := v / (fxLn2 : Int)
      let z := (v - k * fxLn2).toNat
      (roundEnclosed fmtF32 rmRne false false (expSeries 120 0 fxOne z) (k - fxBits) (6 + 8 * y)).1

/-- round_f32(a / b) of a finite a that is not negative and a positive finite b. -/
def divF32 (a b : Nat) : Nat :=
  match valF32 a, valF32 b with
  | .fin x, .fin y =>
    if x.m = 0 || y.m = 0 then a
    else
      let n := Nat.log2 y.m + 64
      (fmtF32.round rmRne false false ⟨x.neg, x.m * 2 ^ n / y.m, x.e - y.e - n, x.m * 2 ^ n % y.m ≠ 0⟩).1
  | _, _ => fmtF32.canonNaN

def addF32 (a b : Nat) : Nat := roundF32 ((valF32 a).add 0 (valF32 b))
def subF32 (a b : Nat) : Nat := roundF32 ((valF32 a).add 0 (valF32 b).negate)

/-- An element of a SOFTMAX row as F32: BF16 widens exactly. -/
def softElem (bf16 : Bool) (b : Nat) : Nat := if bf16 then b * 65536 else b

/-- The outputs of one row: op 0 its maximum, 1 the sum of exponentials, 2 the quotients. -/
def softmaxRow (op : Nat) (xs : List Nat) : List Nat :=
  let m := xs.foldl (fun a b => (fmtF32.minMax true false a b).1) 0xFF800000
  let bad := xs.any fun x => x % 2 ^ 31 > 0x7F800000
  let n := if op = 2 then xs.length else 1
  if bad || m = 0xFF800000 then List.replicate n fmtF32.canonNaN
  else if op = 0 then [m]
  else
    let es := xs.map fun x => expF32 (subF32 x m)
    let s := es.foldl addF32 0
    if op = 1 then [s] else es.map fun e => divF32 e s

/-! ## DEFLATE (RFC 1951) -/

/-- The source as a number, its length in bits, and the bit position. -/
structure BitSrc where
  src : Nat
  tot : Nat
  deriving DecidableEq, Repr

def BitSrc.get (s : BitSrc) (pos n : Nat) : Option Nat := if pos + n ≤ s.tot then some (bits s.src pos n) else none

/-- A canonical code: how many codes have each length 1 to 15, and the symbols in code order. -/
structure Huff where
  counts : List Nat
  syms : List Nat
  deriving DecidableEq, Repr

def Huff.of (ls : List Nat) : Huff :=
  let ix := ls.zipIdx
  let at_ := fun l => (ix.filter fun x => x.1 = l).map Prod.snd
  ⟨(List.range 15).map fun l => (at_ (l + 1)).length, (List.range 15).flatMap fun l => at_ (l + 1)⟩

/-- What is left of the code space: negative for an over-subscribed set, positive for an incomplete one. -/
def Huff.left (h : Huff) : Int := h.counts.foldl (fun (l : Int) (c : Nat) => 2 * l - c) 1

/-- Whether a set of lengths may serve: complete, or of a single code of one bit. -/
def Huff.ok (h : Huff) : Bool := h.left = 0 || (h.left > 0 && h.syms.length ≤ 1)

def huffDecode (s : BitSrc) (syms : List Nat) : List Nat → Nat → Nat → Nat → Nat → Option (Nat × Nat)
  | [], _, _, _, _ => none
  | c :: cs, pos, code, first, index =>
    match s.get pos 1 with
    | none => none
    | some b =>
      let code := code + b
      if code < first + c then (syms[index + (code - first)]?).map fun y => (y, pos + 1)
      else huffDecode s syms cs (pos + 1) (2 * code) (2 * (first + c)) (index + c)

def Huff.next (h : Huff) (s : BitSrc) (pos : Nat) : Option (Nat × Nat) := huffDecode s h.syms h.counts pos 0 0 0

/-- Output so far, newest byte first, with its length. -/
structure Infl where
  pos : Nat
  out : List Byte
  n : Nat
  deriving DecidableEq, Repr

def lenBase : List Nat :=
  [3, 4, 5, 6, 7, 8, 9, 10, 11, 13, 15, 17, 19, 23, 27, 31, 35, 43, 51, 59, 67, 83, 99, 115, 131, 163, 195, 227, 258]
def lenExtra : List Nat := [0, 0, 0, 0, 0, 0, 0, 0, 1, 1, 1, 1, 2, 2, 2, 2, 3, 3, 3, 3, 4, 4, 4, 4, 5, 5, 5, 5, 0]
def distBase : List Nat :=
  [1, 2, 3, 4, 5, 7, 9, 13, 17, 25, 33, 49, 65, 97, 129, 193, 257, 385, 513, 769, 1025, 1537, 2049, 3073, 4097, 6145,
   8193, 12289, 16385, 24577]
def distExtra : List Nat := [0, 0, 0, 0, 1, 1, 2, 2, 3, 3, 4, 4, 5, 5, 6, 6, 7, 7, 8, 8, 9, 9, 10, 10, 11, 11, 12, 12, 13, 13]

/-- A match copied byte by byte, up to a limit; answers whether the limit was passed. -/
def copyBack (lim dist : Nat) : Nat → Infl → Infl × Bool
  | 0, x => (x, false)
  | k + 1, x =>
    if x.n ≥ lim then (x, true)
    else copyBack lim dist k { x with out := x.out.getD (dist - 1) 0 :: x.out, n := x.n + 1 }

/-- A length or distance: its base, and the extra bits read. -/
def extraBits (s : BitSrc) (base extra : List Nat) (sym pos : Nat) : Option (Nat × Nat) :=
  match base[sym]?, extra[sym]? with
  | some b, some e => (s.get pos e).map fun v => (b + v, pos + e)
  | _, _ => none

/-- The symbols of a block until its end: 0, or 7 malformed, 8 past the limit. -/
def inflCodes (s : BitSrc) (lim : Nat) (lit dist : Huff) : Nat → Infl → Infl × Nat
  | 0, x => (x, 7)
  | f + 1, x =>
    match lit.next s x.pos with
    | none => (x, 7)
    | some (y, p) =>
      if y = 256 then ({ x with pos := p }, 0)
      else if y < 256 then
        if x.n ≥ lim then (x, 8)
        else inflCodes s lim lit dist f { pos := p, out := BitVec.ofNat 8 y :: x.out, n := x.n + 1 }
      else
        match extraBits s lenBase lenExtra (y - 257) p with
        | none => (x, 7)
        | some (len, p) =>
          match dist.next s p with
          | none => (x, 7)
          | some (d, p) =>
            match extraBits s distBase distExtra d p with
            | none => (x, 7)
            | some (d, p) =>
              if d > x.n then (x, 7)
              else
                match copyBack lim d len { x with pos := p } with
                | (x, true) => (x, 8)
                | (x, false) => inflCodes s lim lit dist f x

/-- A stored block. -/
def inflStored (s : BitSrc) (lim : Nat) (x : Infl) : Infl × Nat :=
  let p := (x.pos + 7) / 8 * 8
  match s.get p 16, s.get (p + 16) 16 with
  | some len, some nlen =>
    if len + nlen ≠ 65535 then (x, 7)
    else
      let have_ := min len ((s.tot - (p + 32)) / 8)
      let k := min have_ (lim - x.n)
      let bs := (List.range k).map fun i => BitVec.ofNat 8 (bits s.src (p + 32 + 8 * i) 8)
      let y : Infl := ⟨p + 32 + 8 * k, bs.reverse ++ x.out, x.n + k⟩
      (y, if have_ > lim - x.n then 8 else if have_ < len then 7 else 0)
  | _, _ => (x, 7)

def fixedLit : Huff :=
  Huff.of (List.replicate 144 8 ++ List.replicate 112 9 ++ List.replicate 24 7 ++ List.replicate 8 8)
def fixedDist : Huff := Huff.of (List.replicate 30 5)

/-- The code lengths of a dynamic block, newest first. -/
def readLengths (s : BitSrc) (h : Huff) (want : Nat) : Nat → Nat → List Nat → Option (List Nat × Nat)
  | 0, _, _ => none
  | f + 1, pos, ls =>
    if ls.length = want then some (ls, pos)
    else if ls.length > want then none
    else
      match h.next s pos with
      | none => none
      | some (y, p) =>
        if y < 16 then readLengths s h want f p (y :: ls)
        else
          let (b, n) := if y = 16 then (3, 2) else if y = 17 then (3, 3) else (11, 7)
          match s.get p n, ls.head? with
          | none, _ => none
          | some _, none => if y = 16 then none else
              (s.get p n).bind fun v => readLengths s h want f (p + n) (List.replicate (b + v) 0 ++ ls)
          | some v, some l => readLengths s h want f (p + n) (List.replicate (b + v) (if y = 16 then l else 0) ++ ls)

def codeOrder : List Nat := [16, 17, 18, 0, 8, 7, 9, 6, 10, 5, 11, 4, 12, 3, 13, 2, 14, 1, 15]

/-- The two codes of a dynamic block and the position after them. -/
def dynamicCodes (s : BitSrc) (pos : Nat) : Option (Huff × Huff × Nat) :=
  match s.get pos 14 with
  | none => none
  | some v =>
    let nlen := v % 32 + 257
    let ndist := v / 32 % 32 + 1
    let ncode := v / 1024 + 4
    match s.get (pos + 14) (3 * ncode) with
    | none => none
    | some w =>
      if nlen > 286 || ndist > 30 then none
      else
        let code := Huff.of ((List.range 19).map fun y =>
          match (codeOrder.take ncode).idxOf? y with
          | some i => bits w (3 * i) 3
          | none => 0)
        if code.left ≠ 0 then none
        else
          match readLengths s code (nlen + ndist) 400 (pos + 14 + 3 * ncode) [] with
          | none => none
          | some (rev, p) =>
            let ls := rev.reverse
            let lit := Huff.of (ls.take nlen)
            let dist := Huff.of (ls.drop nlen)
            if ls.getD 256 0 = 0 || !lit.ok || !dist.ok then none else some (lit, dist, p)

/-- Blocks until the last. -/
def inflBlocks (s : BitSrc) (lim : Nat) : Nat → Infl → Infl × Nat
  | 0, x => (x, 7)
  | f + 1, x =>
    match s.get x.pos 3 with
    | none => (x, 7)
    | some b =>
      let x := { x with pos := x.pos + 3 }
      let (y, st) :=
        match b / 2 with
        | 0 => inflStored s lim x
        | 1 => inflCodes s lim fixedLit fixedDist (s.tot + 1) x
        | 2 =>
          match dynamicCodes s x.pos with
          | some (lit, dist, p) => inflCodes s lim lit dist (s.tot + 1) { x with pos := p }
          | none => (x, 7)
        | _ => (x, 7)
      if st ≠ 0 || b % 2 = 1 then (y, st) else inflBlocks s lim f y

/-- A raw DEFLATE stream decoded up to a limit: the bytes, and 0, 7 BADSTREAM or 8 OVERRUN (R182). -/
def inflate (src : List Byte) (lim : Nat) : List Byte × Nat :=
  let (x, st) := inflBlocks ⟨fromLE src, 8 * src.length⟩ lim (8 * src.length + 1) ⟨0, [], 0⟩
  (x.out.reverse, st)

end Sys2Proof.Machine
end

