-- ==== Sys2Proof/Machine/Zstd.lean ====
section
/-! DEFINITION. Zstandard decoding of CODEC: one frame of RFC 8878 without a dictionary (R181, R182; assumption 9). -/

namespace Sys2Proof.Machine

/-! ## Bitstreams that are read from their end -/

/-- A bitstream whose last set bit only marks its end: its bits as a number, and how many are left. -/
structure BackBits where
  src : Nat
  left : Nat
  deriving DecidableEq, Repr

def BackBits.of (bs : List Byte) : Option BackBits :=
  match bs.getLast? with
  | none => none
  | some b => if b = 0 then none else some ⟨fromLE bs, Nat.log2 (fromLE bs)⟩

/-- The next `n` bits, zeros past the start. -/
def BackBits.peek (b : BackBits) (n : Nat) : Nat :=
  if n ≤ b.left then bits b.src (b.left - n) n else bits b.src 0 b.left * 2 ^ (n - b.left)

def BackBits.take (b : BackBits) (n : Nat) : Option (Nat × BackBits) :=
  if n ≤ b.left then some (b.peek n, { b with left := b.left - n }) else none

/-! ## FSE tables -/

/-- A table: its accuracy, and each state's symbol, bits to read and base of the next state. -/
structure Fse where
  acc : Nat
  cells : List (Nat × Nat × Nat)
  deriving DecidableEq, Repr

/-- The table of a single symbol. -/
def Fse.single (sym : Nat) : Fse := ⟨0, [(sym, 0, 0)]⟩

/-- The next place of the spread of symbols, past the places that symbols of less than one probability took. -/
def spreadNext (size high : Nat) : Nat → Nat → Nat
  | 0, pos => pos
  | f + 1, pos =>
    let p := (pos + size / 2 + size / 8 + 3) % size
    if p ≥ high then spreadNext size high f p else p

/-- Symbols spread over the states, in the order that their probabilities list them. -/
def spread (size high : Nat) : List Nat → Nat → List (Nat × Nat) → List (Nat × Nat)
  | [], _, acc => acc
  | y :: r, pos, acc => spread size high r (spreadNext size high size pos) ((pos, y) :: acc)

/-- The cells of a list of states' symbols, each symbol's states numbered from its probability on. -/
def fseCells (al : Nat) (probs : List Int) (syms : List Nat) : List (Nat × Nat × Nat) :=
  syms.zipIdx.map fun e =>
    let seen := ((syms.take e.2).filter fun y => y = e.1).length
    let next := (probs.getD e.1 0).natAbs + seen
    let n := al - Nat.log2 next
    (e.1, n, next * 2 ^ n - 2 ^ al)

/-- The table of a list of probabilities, -1 for less than one. -/
def Fse.of (al : Nat) (probs : List Int) : Fse :=
  let size := 2 ^ al
  let ix := probs.zipIdx
  let low := (ix.filter fun p => p.1 = -1).map Prod.snd
  let high := size - low.length
  let placed := spread size high (ix.flatMap fun p => if p.1 = -1 then [] else List.replicate p.1.natAbs p.2) 0 []
  let atTop := low.zipIdx.map fun e => (size - 1 - e.2, e.1)
  ⟨al, fseCells al probs ((List.range size).map fun i => ((mget? (placed ++ atTop) i).getD 0))⟩

/-- Runs of zero probabilities: two bits at a time, while they are 3. -/
def zeroRuns (s : BitSrc) : Nat → Nat → List Int → Option (List Int × Nat)
  | 0, _, _ => none
  | f + 1, pos, ps =>
    match s.get pos 2 with
    | none => none
    | some k =>
      let ps := List.replicate k 0 ++ ps
      if k = 3 then zeroRuns s f (pos + 2) ps else some (ps, pos + 2)

/-- The probabilities of a table description, newest first, and the position after them. -/
def readProbs (s : BitSrc) (most : Nat) : Nat → Nat → Nat → List Int → Option (List Int × Nat)
  | 0, _, _, _ => none
  | f + 1, left, pos, ps =>
    if left = 0 then some (ps, pos)
    else if ps.length > most then none
    else
      let n := Nat.log2 (left + 1) + 1
      let lower := 2 ^ (n - 1) - 1
      let short := 2 ^ n - 1 - (left + 1)
      match s.get pos (n - 1) with
      | none => none
      | some v0 =>
        let go := fun (v pos : Nat) =>
          let p : Int := (v : Int) - 1
          if p.natAbs > left then none
          else if p = 0 then
            match zeroRuns s 256 pos (p :: ps) with
            | none => none
            | some (ps, pos) => readProbs s most f left pos ps
          else readProbs s most f (left - p.natAbs) pos (p :: ps)
        if v0 % (lower + 1) < short then go (v0 % (lower + 1)) (pos + n - 1)
        else
          match s.get pos n with
          | none => none
          | some v => go (if v > lower then v - short else v) (pos + n)

/-- A table description at the start of some bytes: the table and the bytes it takes. -/
def Fse.read (bs : List Byte) (maxAcc most : Nat) : Option (Fse × Nat) :=
  let s : BitSrc := ⟨fromLE bs, 8 * bs.length⟩
  match s.get 0 4 with
  | none => none
  | some a =>
    let al := a + 5
    if al > maxAcc then none
    else
      match readProbs s most (most + 2) (2 ^ al) 4 [] with
      | none => none
      | some (ps, pos) => if ps.length > most + 1 then none else some (Fse.of al ps.reverse, (pos + 7) / 8)

/-! ## Huffman codes of literals -/

/-- A code: its longest length, and the symbol and length that each value of so many bits starts with. -/
structure LitCode where
  len : Nat
  cells : List (Nat × Nat)
  deriving DecidableEq, Repr

/-- The code of a list of weights, the last symbol's weight being what completes it. -/
def LitCode.of (ws : List Nat) : Option LitCode :=
  let sum := ws.foldl (fun n w => n + if w = 0 then 0 else 2 ^ (w - 1)) 0
  let len := Nat.log2 sum + 1
  let rest := 2 ^ len - sum
  if sum = 0 || len > 11 || 2 ^ Nat.log2 rest ≠ rest || ws.length > 255 then none
  else
    let all := (ws ++ [Nat.log2 rest + 1]).zipIdx
    some ⟨len, (List.range len).flatMap fun k =>
      (all.filter fun e => e.1 = k + 1).flatMap fun e => List.replicate (2 ^ k) (e.2, len - k)⟩

/-- Weights of an FSE description, by two states in turn, newest first, until the stream ends. -/
def fseWeights (t : Fse) : Nat → BackBits → Nat → Nat → List Nat → Option (List Nat)
  | 0, _, _, _, _ => none
  | f + 1, b, here, other, ws =>
    match t.cells[here]?, t.cells[other]? with
    | some (y, n, base), some (z, _, _) =>
      match b.take n with
      | none => some (z :: y :: ws)
      | some (v, b) => fseWeights t f b other (base + v) (y :: ws)
    | _, _ => none

/-- The weights of a tree description and the bytes it takes. -/
def readWeights (bs : List Byte) : Option (List Nat × Nat) :=
  match bs with
  | [] => none
  | h :: r =>
    if h.toNat < 128 then
      if r.length < h.toNat then none
      else
        let part := r.take h.toNat
        match Fse.read part 6 255 with
        | none => none
        | some (t, n) =>
          match BackBits.of (part.drop n) with
          | none => none
          | some b =>
            match b.take t.acc with
            | none => none
            | some (x, b) =>
              match b.take t.acc with
              | none => none
              | some (y, b) => (fseWeights t 256 b x y []).map fun ws => (ws.reverse, 1 + h.toNat)
    else
      let n := h.toNat - 127
      if r.length < (n + 1) / 2 then none
      else some ((List.range n).map fun i =>
        bits (r.getD (i / 2) 0).toNat (if i % 2 = 0 then 4 else 0) 4, 1 + (n + 1) / 2)

def LitCode.read (bs : List Byte) : Option (LitCode × Nat) :=
  match readWeights bs with
  | none => none
  | some (ws, n) => (LitCode.of ws).map fun c => (c, n)

/-- Literals of one stream, newest first; the stream must end with the last. -/
def litStream (c : LitCode) : Nat → BackBits → List Byte → Option (List Byte)
  | 0, b, out => if b.left = 0 then some out else none
  | k + 1, b, out =>
    match c.cells[b.peek c.len]? with
    | none => none
    | some (y, n) =>
      match b.take n with
      | none => none
      | some (_, b) => litStream c k b (BitVec.ofNat 8 y :: out)

def LitCode.stream (c : LitCode) (bs : List Byte) (n : Nat) : Option (List Byte) :=
  match BackBits.of bs with
  | none => none
  | some b => (litStream c n b []).map List.reverse

/-- Four streams behind their jump table. -/
def LitCode.four (c : LitCode) (bs : List Byte) (n : Nat) : Option (List Byte) := do
  let a := recNat bs 0 2
  let b := recNat bs 2 2
  let d := recNat bs 4 2
  let q := (n + 3) / 4
  if bs.length < 6 + a + b + d || n < 3 * q then none
  else
    let r := bs.drop 6
    let w ← c.stream (r.take a) q
    let x ← c.stream ((r.drop a).take b) q
    let y ← c.stream ((r.drop (a + b)).take d) q
    let z ← c.stream (r.drop (a + b + d)) (n - 3 * q)
    return w ++ x ++ y ++ z

/-! ## Sections of a compressed block -/

/-- What a frame carries from block to block: the literals' code, the tables of literal lengths, offsets and match lengths, and
the three repeat offsets. -/
structure Zst where
  huff : Option LitCode
  ll : Option Fse
  off : Option Fse
  ml : Option Fse
  reps : Nat × Nat × Nat
  deriving DecidableEq, Repr

def Zst.init : Zst := ⟨none, none, none, none, (1, 4, 8)⟩

/-- The most bytes of a block. -/
def zstBlock : Nat := 131072

/-- The literals section: the literals, the state, and the rest of the block. -/
def readLiterals (z : Zst) (bs : List Byte) : Option (List Byte × Zst × List Byte) :=
  let form := bits (recNat bs 0 1) 0 2
  let sf := bits (recNat bs 0 1) 2 2
  if form < 2 then
    let (h, n) := if sf % 2 = 0 then (1, recNat bs 0 1 / 8) else if sf = 1 then (2, recNat bs 0 2 / 16) else (3, recNat bs 0 3 / 16)
    let k := if form = 0 then n else 1
    if bs.length < h + k || n > zstBlock then none
    else
      let body := (bs.drop h).take k
      some (if form = 0 then body else List.replicate n (body.getD 0 0), z, bs.drop (h + k))
  else
    let (h, w) := if sf < 2 then (3, 10) else if sf = 2 then (4, 14) else (5, 18)
    let v := recNat bs 0 h
    let n := bits v 4 w
    let k := bits v (4 + w) w
    if bs.length < h + k || n > zstBlock then none
    else
      let body := (bs.drop h).take k
      let code := if form = 2 then LitCode.read body else z.huff.map fun c => (c, 0)
      match code with
      | none => none
      | some (c, used) =>
        ((if sf = 0 then c.stream else c.four) (body.drop used) n).map fun ls => (ls, { z with huff := some c }, bs.drop (h + k))

def llProbs : List Int :=
  [4, 3, 2, 2, 2, 2, 2, 2, 2, 2, 2, 2, 2, 1, 1, 1, 2, 2, 2, 2, 2, 2, 2, 2, 2, 3, 2, 1, 1, 1, 1, 1, -1, -1, -1, -1]
def mlProbs : List Int :=
  [1, 4, 3, 2, 2, 2, 2, 2, 2] ++ List.replicate 37 1 ++ List.replicate 7 (-1)
def ofProbs : List Int :=
  [1, 1, 1, 1, 1, 1, 2, 2, 2] ++ List.replicate 15 1 ++ List.replicate 5 (-1)

/-- Base and extra bits of a literal-length code. -/
def llCode (y : Nat) : Nat × Nat :=
  if y < 16 then (y, 0)
  else ([(16, 1), (18, 1), (20, 1), (22, 1), (24, 2), (28, 2), (32, 3), (40, 3), (48, 4)][y - 16]?).getD (2 ^ (y - 19), y - 19)

/-- Base and extra bits of a match-length code. -/
def mlCode (y : Nat) : Nat × Nat :=
  if y < 32 then (y + 3, 0)
  else ([(35, 1), (37, 1), (39, 1), (41, 1), (43, 2), (47, 2), (51, 3), (59, 3), (67, 4), (83, 4), (99, 5)][y - 32]?).getD
    (2 ^ (y - 36) + 3, y - 36)

/-- The table that a mode gives: predefined, of one symbol, described, or the last one; with the rest of the bytes. -/
def readTable (mode : Nat) (std : Fse) (last : Option Fse) (maxAcc most : Nat) (bs : List Byte) : Option (Fse × List Byte) :=
  match mode with
  | 0 => some (std, bs)
  | 1 => match bs with
    | [] => none
    | b :: r => if b.toNat > most then none else some (Fse.single b.toNat, r)
  | 2 => (Fse.read bs maxAcc most).bind fun e => if bs.length < e.2 then none else some (e.1, bs.drop e.2)
  | _ => last.map fun t => (t, bs)

/-- The offset that an offset value and a literal length stand for, and the repeat offsets after it; none for 0. -/
def takeOffset (v ll : Nat) (reps : Nat × Nat × Nat) : Option (Nat × (Nat × Nat × Nat)) :=
  let (a, b, c) := reps
  if v > 3 then some (v - 3, (v - 3, a, b))
  else
    match v - 1 + (if ll = 0 then 1 else 0) with
    | 0 => some (a, (a, b, c))
    | 1 => some (b, (b, a, c))
    | 2 => some (c, (c, a, b))
    | _ => if a ≤ 1 then none else some (a - 1, (a - 1, a, b))

/-- Some bytes appended, up to a limit; answers whether the limit was passed. -/
def putBytes (lim : Nat) (bs : List Byte) (x : Infl) : Infl × Bool :=
  let k := min bs.length (lim - x.n)
  ({ x with out := (bs.take k).reverse ++ x.out, n := x.n + k }, k < bs.length)

/-- What decoding has come to: the output, the state, and 0, 7 malformed or 8 past the limit. -/
structure ZOut where
  x : Infl
  z : Zst
  st : Nat
  deriving DecidableEq, Repr

/-- The sequences of a block: each copies literals, then a match; the literals left follow the last. -/
def runSeqs (lim win : Nat) (ll of ml : Fse) : Nat → BackBits → Nat × Nat × Nat → List Byte → Infl → Zst → ZOut
  | 0, b, _, lits, x, z =>
    if b.left ≠ 0 then ⟨x, z, 7⟩
    else
      let (x, full) := putBytes lim lits x
      ⟨x, z, if full then 8 else 0⟩
  | k + 1, b, (sl, so, sm), lits, x, z =>
    match ll.cells[sl]?, of.cells[so]?, ml.cells[sm]? with
    | some (yl, nl, bl), some (yo, no, bo), some (ym, nm, bm) =>
      let step : Option (Nat × Nat × Nat × BackBits) := do
        let (vo, b) ← b.take yo
        let (vm, b) ← b.take (mlCode ym).2
        let (vl, b) ← b.take (llCode yl).2
        return (2 ^ yo + vo, (mlCode ym).1 + vm, (llCode yl).1 + vl, b)
      match step with
      | none => ⟨x, z, 7⟩
      | some (ov, mlen, llen, b) =>
        if llen > lits.length then ⟨x, z, 7⟩
        else
          match putBytes lim (lits.take llen) x with
          | (x, true) => ⟨x, z, 8⟩
          | (x, false) =>
            match takeOffset ov llen z.reps with
            | none => ⟨x, z, 7⟩
            | some (d, reps) =>
              if d > x.n || d > win then ⟨x, z, 7⟩
              else
                match copyBack lim d mlen x with
                | (x, true) => ⟨x, z, 8⟩
                | (x, false) =>
                  let z := { z with reps := reps }
                  let next : Option (BackBits × Nat × Nat × Nat) :=
                    if k = 0 then some (b, sl, so, sm)
                    else do
                      let (vl, b) ← b.take nl
                      let (vm, b) ← b.take nm
                      let (vo, b) ← b.take no
                      return (b, bl + vl, bo + vo, bm + vm)
                  match next with
                  | none => ⟨x, z, 7⟩
                  | some (b, s) => runSeqs lim win ll of ml k b s (lits.drop llen) x z
    | _, _, _ => ⟨x, z, 7⟩

/-- The number of sequences and the rest. -/
def readCount (bs : List Byte) : Option (Nat × List Byte) :=
  match bs with
  | [] => none
  | a :: r =>
    if a.toNat < 128 then some (a.toNat, r)
    else if a.toNat < 255 then if r.length < 1 then none else some ((a.toNat - 128) * 256 + recNat r 0 1, r.drop 1)
    else if r.length < 2 then none else some (recNat r 0 2 + 0x7F00, r.drop 2)

/-- A compressed block. -/
def zstCompressed (lim win : Nat) (bs : List Byte) (x : Infl) (z : Zst) : ZOut :=
  let bad : ZOut := ⟨x, z, 7⟩
  match readLiterals z bs with
  | none => bad
  | some (lits, z, r) =>
    match readCount r with
    | none => bad
    | some (0, r) =>
      if r.isEmpty then
        let (x, full) := putBytes lim lits x
        ⟨x, z, if full then 8 else 0⟩
      else bad
    | some (n, []) => if n = 0 then ⟨x, z, 0⟩ else bad
    | some (n, m :: r) =>
      if m.toNat % 4 ≠ 0 then bad
      else
        let tables : Option (Fse × Fse × Fse × List Byte) := do
          let (ll, r) ← readTable (m.toNat / 64) (Fse.of 6 llProbs) z.ll 9 35 r
          let (of, r) ← readTable (m.toNat / 16 % 4) (Fse.of 5 ofProbs) z.off 8 31 r
          let (ml, r) ← readTable (m.toNat / 4 % 4) (Fse.of 6 mlProbs) z.ml 9 52 r
          return (ll, of, ml, r)
        match tables with
        | none => bad
        | some (ll, of, ml, r) =>
          let z := { z with ll := some ll, off := some of, ml := some ml }
          let states : Option (BackBits × Nat × Nat × Nat) := do
            let b ← BackBits.of r
            let (sl, b) ← b.take ll.acc
            let (so, b) ← b.take of.acc
            let (sm, b) ← b.take ml.acc
            return (b, sl, so, sm)
          match states with
          | none => ⟨x, z, 7⟩
          | some (b, s) => runSeqs lim win ll of ml n b s lits x z

/-! ## Frames -/

/-- Blocks until the last, and the bytes after it. A block takes and gives at most 128 KiB, or the window if less. -/
def zstBlocks (lim win : Nat) : Nat → List Byte → Infl → Zst → ZOut × List Byte
  | 0, bs, x, z => (⟨x, z, 7⟩, bs)
  | f + 1, bs, x, z =>
    let h := recNat bs 0 3
    let n := h / 8
    let most := min win zstBlock
    let r := bs.drop 3
    if bs.length < 3 || n > most then (⟨x, z, 7⟩, bs)
    else
      let (k, o) : Nat × ZOut := match h / 2 % 4 with
        | 0 =>
          let (y, full) := putBytes lim (r.take n) x
          (n, ⟨y, z, if full then 8 else if r.length < n then 7 else 0⟩)
        | 1 =>
          let (y, full) := putBytes lim (match r with
            | [] => []
            | b :: _ => List.replicate n b) x
          (1, ⟨y, z, if full then 8 else if r.isEmpty then 7 else 0⟩)
        | 2 => (n, if r.length < n then ⟨x, z, 7⟩ else zstCompressed lim win (r.take n) x z)
        | _ => (0, ⟨x, z, 7⟩)
      if o.st ≠ 0 then (o, r)
      else if o.x.n > x.n + most then (⟨o.x, o.z, 7⟩, r)
      else if h % 2 = 1 then (o, r.drop k)
      else zstBlocks lim win f (r.drop k) o.x o.z

def xxP1 : BitVec 64 := 0x9E3779B185EBCA87
def xxP2 : BitVec 64 := 0xC2B2AE3D27D4EB4F
def xxP3 : BitVec 64 := 0x165667B19E3779F9
def xxP4 : BitVec 64 := 0x85EBCA77C2B2AE63
def xxP5 : BitVec 64 := 0x27D4EB2F165667C5

def xxRound (a v : BitVec 64) : BitVec 64 := (a + v * xxP2).rotateLeft 31 * xxP1

def xxWord (bs : List Byte) (i : Nat) : BitVec 64 := BitVec.ofNat 64 (recNat bs (8 * i) 8)

/-- The 32-byte stripes of some bytes: the four accumulators and the bytes after them. -/
def xxStripes : Nat → List Byte → List (BitVec 64) → List (BitVec 64) × List Byte
  | 0, bs, vs => (vs, bs)
  | n + 1, bs, vs => xxStripes n (bs.drop 32) (vs.zipIdx.map fun v => xxRound v.1 (xxWord bs v.2))

/-- The last bytes: eight, four and one at a time. -/
def xxTail : Nat → List Byte → BitVec 64 → BitVec 64
  | 0, _, h => h
  | f + 1, bs, h =>
    if 8 ≤ bs.length then xxTail f (bs.drop 8) ((h ^^^ xxRound 0 (xxWord bs 0)).rotateLeft 27 * xxP1 + xxP4)
    else if 4 ≤ bs.length then
      xxTail f (bs.drop 4) ((h ^^^ (BitVec.ofNat 64 (recNat bs 0 4) * xxP1)).rotateLeft 23 * xxP2 + xxP3)
    else match bs with
      | [] => h
      | b :: r => xxTail f r ((h ^^^ (b.setWidth 64 * xxP5)).rotateLeft 11 * xxP1)

/-- XXH64 with seed 0, whose low half is a frame's checksum. -/
def xxh64 (bs : List Byte) : BitVec 64 :=
  let (vs, r) := xxStripes (bs.length / 32) bs [xxP1 + xxP2, xxP2, 0, 0 - xxP1]
  let v := fun i => vs.getD i 0
  let h0 := if bs.length < 32 then xxP5
    else vs.foldl (fun h v => (h ^^^ xxRound 0 v) * xxP1 + xxP4)
      ((v 0).rotateLeft 1 + (v 1).rotateLeft 7 + (v 2).rotateLeft 12 + (v 3).rotateLeft 18)
  let h := xxTail 32 r (h0 + BitVec.ofNat 64 bs.length)
  let h := (h ^^^ (h >>> (33 : Nat))) * xxP2
  let h := (h ^^^ (h >>> (29 : Nat))) * xxP3
  h ^^^ (h >>> (32 : Nat))

/-- A frame header: its bytes, the window, the dictionary, the content's size where it is given, and whether a checksum
follows. -/
structure ZHead where
  len : Nat
  win : Nat
  dict : Nat
  size : Option Nat
  sum : Bool
  deriving DecidableEq, Repr

def ZHead.read (bs : List Byte) : Option ZHead :=
  let d := recNat bs 4 1
  let single := bits d 5 1 = 1
  let w := if single then 0 else 1
  let k := [0, 1, 2, 4].getD (bits d 0 2) 0
  let c := if bits d 6 2 = 0 then (if single then 1 else 0) else 2 ^ bits d 6 2
  let size := recNat bs (5 + w + k) c + (if c = 2 then 256 else 0)
  let m := recNat bs 5 1
  if recNat bs 0 4 ≠ 0xFD2FB528 || bits d 3 1 = 1 || bs.length < 5 + w + k + c then none
  else some ⟨5 + w + k + c, if single then size else 2 ^ (10 + m / 8) + 2 ^ (10 + m / 8) / 8 * (m % 8), recNat bs (5 + w) k,
    if c = 0 then none else some size, bits d 2 1 = 1⟩

/-- A Zstandard frame decoded up to a limit: the bytes, and 0, 7 BADSTREAM, 8 OVERRUN or 9 UNSUPPORTED (R182). -/
def unzstd (src : List Byte) (lim : Nat) : List Byte × Nat :=
  match ZHead.read src with
  | none => ([], 7)
  | some h =>
    if h.dict ≠ 0 || h.win > 2 ^ 23 then ([], 9)
    else
      let (o, r) := zstBlocks lim h.win src.length (src.drop h.len) ⟨0, [], 0⟩ Zst.init
      let out := o.x.out.reverse
      let whole := h.size.all (fun n => n = o.x.n) && (!h.sum || (4 ≤ r.length && recNat r 0 4 = (xxh64 out).toNat % 2 ^ 32))
      (out, if o.st = 0 && !whole then 7 else o.st)

end Sys2Proof.Machine
end

