-- ==== Sys2Proof/Machine/Async.lean ====
section
/-! DEFINITION. Asynchronous operations: when their turn has come, their reads and writes with the checker, poison and
translation faults that park them, and the specialised engines' operations (R114, R138, R168, R179-R182). -/

namespace Sys2Proof.Machine

/-! ## Turns, reads and writes of asynchronous operations -/

/-- Why an asynchronous operation does not go on: a request parks on a translation fault (R114), or the operation ends
with a status. -/
inductive Snag where
  | parks (data : Nat) (va : Addr)
  | fails (status : Nat)
  deriving DecidableEq, Repr

/-- A part of an asynchronous operation. -/
abbrev Async (α : Type) := ExceptT Snag Act α

def parks (data : Nat) (va : Addr) : Async α := throw (.parks data va)
def fails (status : Nat) : Async α := throw (.fails status)
def inAct (a : Act α) : Async α := ExceptT.lift a

/-- Whether a group's accesses below an access number have performed (R138). -/
def Chip.drained (c : Chip) (who : Actor) (after : Nat) : Bool :=
  c.memq.all fun e => !(sameGroup e.who who && e.seq < after)

/-- Whether every byte of a range is a global address that no window takes away (R96). -/
def Chip.globalRange (c : Chip) (va n : Nat) : Bool :=
  n = 0 || (va + n ≤ 2 ^ 56 && bits va 48 8 ≠ 0xFF && bits (va + n - 1) 48 8 ≠ 0xFF &&
    (match c.mboxWin with
      | some (b, k) => va + n ≤ b || b + k ≤ va
      | none => true))

/-- The physical pieces of a range, or the parking of the first one that does not translate; BADDESC in the frame window;
ECC where a write would reach companion memory with the link down (R298). -/
def asyncBind (who : Actor) (u : Use) (va n : Nat) : Async (List (Nat × Nat)) := do
  if meetsWindow (← inAct (frameWindow who.ctx)) va n then fails 5 else pure ()
  match ← inAct (bindRange who.core who.run who.ctx u va n) with
  | .ok ps =>
    let c ← inAct getChip
    if u.write && c.link.down && ps.any fun p => c.tiered p.1 p.2 then fails 2 else return ps
  | .error (k, a) => parks (u.data k) (BitVec.ofNat 64 a)

def pieceGrans (ps : List (Nat × Nat)) : GranLanes := ps.flatMap fun p => globGrans 0 p.1 p.2

/-- Global bytes read by an operation: poison ends it with ECC, a RACE under TRAP with RACE (R120, R168). -/
def readPhys (who : Actor) (kind : Nat) (ps : List (Nat × Nat)) : Async (List Byte) := do
  if ← inAct (piecesPoisoned ps) then fails 2
  else do
    let a : Access := ⟨who, kind, false, 0, false⟩
    let gs := pieceGrans ps
    if ← inAct (checkAsync a gs) then fails 3
    else inAct do
      each (distinct (gs.map Prod.snd)) (markRead a)
      each ps fun p => traceRead who.tid p.1 p.2
      readPieces ps

def asyncRead (who : Actor) (kind va n : Nat) : Async (List Byte) := do
  readPhys who kind (← asyncBind who (Use.load who.user) va n)

/-- The physical places of bytes that an operation will write. -/
def asyncPlace (who : Actor) (va : Nat) (bs : List Byte) : Async (List (Nat × List Byte)) := do
  return cutBytes (← asyncBind who (Use.store who.user) va bs.length) bs

/-- The judgement of an operation's writes, all before the first performs: whether they are suppressed (R168). -/
def judgeWrites (who : Actor) (kind : Nat) (out : List (Nat × List Byte)) : Act Bool :=
  checkAsync ⟨who, kind, false, 0, true⟩ (out.flatMap fun p => globGrans 0 p.1 p.2.length)

/-- An operation's writes perform. -/
def performWrites (who : Actor) (kind : Nat) (out : List (Nat × List Byte)) : Act Unit := do
  landEng who out
  each (distinct ((out.flatMap fun p => globGrans 0 p.1 p.2.length).map Prod.snd)) fun g =>
    markWrite ⟨who, kind, false, 0, true⟩ g 0

/-- Granules of scratch that an operation reads or writes, in bytes of a core, as the checker sees them. -/
def Chip.scrRanges (c : Chip) (who : Actor) (rs : List (Nat × Nat)) : GranLanes :=
  match mget? c.teams who.tid with
  | some t => rs.flatMap fun r => scrGrans who.core t.scrLo 0 (r.1 - t.scrLo) r.2
  | none => []

/-- The current that an operation holds from its start: asked for when its turn has come, and answered when granted
(R183, R184). -/
def withCurrent (cl : Nat) (o : CqOwner) (need : Nat) (siding : Bool) (prio : Nat) (go : Act Unit) : Act Unit := do
  askCq cl o need siding prio
  arbitrate cl
  if ((← getChip).cluster cl).holds o then go else pure ()

/-- The fault that an attempt would park on, with nothing of the attempt done. -/
def probe (a : Async α) : Act (Option (Nat × Addr)) := fun t =>
  match a.run t with
  | .ok (.error (.parks d va), _) => .ok (some (d, va), t)
  | .ok _ => .ok (none, t)
  | .error _ => .ok (none, t)

/-- What a read of an operation would give now, with nothing of it done. -/
def peekRead (who : Actor) (va n : Nat) : Act (Option (List Byte)) := fun t =>
  if !t.chip.globalRange va n then .ok (none, t)
  else match (asyncRead who 8 va n).run t with
    | .ok (.ok bs, _) => .ok (some bs, t)
    | _ => .ok (none, t)

/-- An engine's access to the frame window raises ACCESS at the instruction that gives its ranges (R97, R256). -/
def offWindow (h : Here) (rs : List (Nat × Nat)) : Act Unit := do
  let fwin ← frameWindow h.ctx
  match rs.find? fun r => meetsWindow fwin r.1 r.2 with
  | some r => trap causeAccess 8 (BitVec.ofNat 64 (max r.1 fwin))
  | none => pure ()

/-- The PAGE report of a parked request (R114, R263). -/
def reportPage (who : Actor) (data : Nat) (va : Addr) : Act Unit := do
  let (lid, no) := match mget? (← getChip).runs who.run with
    | some r => (r.lid, r.runNo)
    | none => (0, 0)
  report who.ctx ⟨1, causePage, data, who.agent.toNat, who.pc, va, lid, no, who.team, false, false, who.path, who.mask⟩

/-! ## ENG descriptors (R181) -/

structure EngDesc where
  op : Nat
  tag : BitVec 4
  desc : Bool
  count : Nat
  src : Nat
  dst : Nat
  aux : Nat
  p0 : Nat
  p1 : Nat
  clean : Bool
  deriving DecidableEq, Repr

def EngDesc.of (b : List Byte) : EngDesc :=
  let w := recNat b 0 4
  { op := bits w 0 8, tag := BitVec.ofNat 4 (bits w 8 4), desc := bits w 12 1 = 1, count := recNat b 4 4,
    src := recNat b 8 8, dst := recNat b 16 8, aux := recNat b 24 8, p0 := recNat b 32 4, p1 := recNat b 36 4,
    clean := bits w 13 19 = 0 && (b.drop 40).all fun x => x = 0 }

/-- Bytes of a SOFTMAX element. -/
def EngDesc.softSize (d : EngDesc) : Nat := if d.tag = tagBF16 then 2 else 4

/-- The ranges of SRC, DST and AUX that an operation of a class may touch. -/
def EngDesc.ranges (d : EngDesc) (cls : Nat) : List (Nat × Nat) :=
  match cls with
  | 1 => if d.op = 0 then [(d.src, 4 * d.count), (d.dst, 4 * d.count)] ++ (if d.aux = 0 then [] else [(d.aux, 4 * d.count)])
         else [(d.src, 4 * d.count), (d.dst, 4 * d.p0), (d.aux, 4 * d.p0)]
  | 2 => [(d.src, d.count), (d.dst, if d.op = 0 then 32 else 8)]
  | 3 => [(d.src, d.p0 * d.count * d.softSize), (d.dst, 4 * d.p0 * (if d.op = 2 then d.count else 1))]
  | 4 => [(d.aux, 4 * d.count), (d.src, d.p0 * d.p1), (d.dst, d.p0 * d.count)]
  | _ => [(d.src, d.count), (d.dst, d.p0), (d.aux, 8)]

/-- Whether a descriptor is one that R181 lets a class run. -/
def EngDesc.fits (d : EngDesc) (cls : Nat) : Bool :=
  d.clean && (d.desc → cls = 1) &&
    (match cls with
      | 1 => d.op < 2 && (d.tag = tagI32 || d.tag = tagN32 || d.tag = tagF32) && 1 ≤ d.count && d.count ≤ 2 ^ 24 &&
          (d.op = 0 || (1 ≤ d.p0 && d.p0 ≤ 4096 && d.p0 ≤ d.count))
      | 2 => d.op < 2 && d.tag = tagRAW
      | 3 => d.op < 3 && (d.tag = tagF32 || d.tag = tagBF16) && 1 ≤ d.p0 && d.p0 ≤ 65536 && 1 ≤ d.count && d.count ≤ 65536
      | 4 => d.op = 0 && d.tag = tagRAW && d.p0 % 16 = 0 && 16 ≤ d.p0 && d.p0 ≤ 65536
      | 5 => d.op < 2 && d.tag = tagRAW
      | _ => false)

/-! ## What each class does -/

/-- The little-endian numbers of `k` bytes in a list of bytes. -/
def numbersOf (k : Nat) : Nat → List Byte → List Nat
  | 0, _ => []
  | n + 1, bs => fromLE (bs.take k) :: numbersOf k n (bs.drop k)

def bytesOf (k : Nat) (ns : List Nat) : List Byte := ns.flatMap (toLE k)

/-- What an operation writes, by virtual address, and the status it ends with. -/
abbrev EngOut := List (Nat × List Byte) × Nat

def sortOut (who : Actor) (d : EngDesc) : Async EngOut := do
  let keys := numbersOf 4 d.count (← asyncRead who 8 d.src (4 * d.count))
  if d.op = 0 then do
    let order := sortKeys d.tag d.desc keys
    let out := [(d.dst, bytesOf 4 (order.map Prod.fst))]
    if d.aux = 0 then return (out, 0)
    else do
      let ps := numbersOf 4 d.count (← asyncRead who 8 d.aux (4 * d.count))
      return (out ++ [(d.aux, bytesOf 4 (order.map fun e => ps.getD e.2 0))], 0)
  else
    let top := (sortKeys d.tag true keys).take d.p0
    return ([(d.dst, bytesOf 4 (top.map Prod.fst)), (d.aux, bytesOf 4 (top.map Prod.snd))], 0)

def digestOut (who : Actor) (d : EngDesc) : Async EngOut := do
  let bs ← asyncRead who 8 d.src d.count
  return ([(d.dst, if d.op = 0 then sha256 bs else toLE 8 (crc64 bs).toNat)], 0)

def softmaxOut (who : Actor) (d : EngDesc) : Async EngOut := do
  let k := d.softSize
  let xs := (numbersOf k (d.p0 * d.count) (← asyncRead who 8 d.src (d.p0 * d.count * k))).map (softElem (d.tag = tagBF16))
  let rows := (List.range d.p0).map fun r => softmaxRow d.op ((xs.drop (r * d.count)).take d.count)
  return ([(d.dst, bytesOf 4 rows.flatten)], 0)

/-- The rows that indices name; one at or past PARAM1 is zeros. -/
def gatherRows (who : Actor) (d : EngDesc) : List Nat → Async (List Byte)
  | [] => return []
  | i :: r => do
    let row ← if i ≥ d.p1 then pure (List.replicate d.p0 0) else asyncRead who 8 (d.src + i * d.p0) d.p0
    return row ++ (← gatherRows who d r)

def gatherOut (who : Actor) (d : EngDesc) : Async EngOut := do
  let idx := numbersOf 4 d.count (← asyncRead who 8 d.aux (4 * d.count))
  let rows ← gatherRows who d idx
  return ([(d.dst, rows)], if idx.any fun i => i ≥ d.p1 then 6 else 0)

def codecOut (who : Actor) (d : EngDesc) : Async EngOut := do
  let src ← asyncRead who 8 d.src d.count
  let (out, st) := if d.op = 0 then inflate src d.p0 else unzstd src d.p0
  return ([(d.dst, out), (d.aux, toLE 8 out.length)], st)

/-- An ENG operation's reads, in its turn: its writes by physical address and its status. -/
def engPlan (o : EngOp) : Async EngOut := do
  let c ← inAct getChip
  let va := o.desc.toNat
  if va % 64 ≠ 0 || !c.globalRange va 64 then fails 5
  else do
    let d := EngDesc.of (← asyncRead o.who 8 va 64)
    if !d.fits o.cls || !(d.ranges o.cls).all fun r => c.globalRange r.1 r.2 then fails 5
    else do
      let (outs, st) ← (match o.cls with
        | 1 => sortOut o.who d
        | 2 => digestOut o.who d
        | 3 => softmaxOut o.who d
        | 4 => gatherOut o.who d
        | _ => codecOut o.who d)
      let ps ← outs.mapM fun e => asyncPlace o.who e.1 e.2
      return (ps.flatten, st)

/-! ## ENG and EWAIT (R179, R186) -/

/-- check_handle of R186: the lease that a handle names, none where it is not ready. -/
def checkHandle (h : Here) (w : Word) : Act (Nat × Lease) := do
  match (← getChip).leaseBy h.tid w with
  | none => trap causeLeaseLost (if h.team.lostHandle w then 4 else 3)
  | some (uid, l) =>
    if l.state = .revoked then trap causeLeaseLost 2
    else if l.state = .queued || l.state = .waking then notReady
    else return (uid, l)

/-- The token of an operation (R180). -/
def Lease.token (l : Lease) (ser : Nat) : Word :=
  BitVec.ofNat 32 (ser % 256 * 2 ^ 24 + l.serial.toNat % 256 * 2 ^ 16 + l.index * 2 ^ 11 + l.cls * 2 ^ 8 + l.lslot * 2 ^ 6)

/-- The operations of a lease that have not completed, in order. -/
def Chip.leaseOps (c : Chip) (uid : Nat) : List (Nat × EngOp) :=
  c.engops.filter fun o => o.2.lease = uid && o.2.status.isNone

/-- ENG. An operation on an MX lease has no class to run it and completes BADDESC. -/
def execEng (f : EngF) (s : State) : Host.Outcome State Fault Refusal :=
  let sb := f.sb.toNat
  runZha 8 (issue 8 f.stall.toNat
    { Uses.none with ss := [f.sa.toNat, sb, sb + 1], sd := [f.sd.toNat], ps := guardPs f.g } fun h =>
    onceIf h f.g (do
      let (uid, l) ← checkHandle h (h.s f.sa.toNat)
      let va := (h.pair sb).toNat
      offWindow h [(va, 64)]
      whenSome (← peekRead h.actor va 64) fun b => do
        let d := EngDesc.of b
        if d.fits l.cls then offWindow h (d.ranges l.cls) else pure ()
      let c ← getChip
      if (c.leaseOps uid).length ≥ 8 then notReady else pure ()
      let o : EngOp :=
        { lease := uid, cls := l.cls, token := l.token l.opser, after := c.seq, desc := h.pair sb, who := h.actor,
          started := false, startAt := 0, parked := none, status := if l.cls = 0 then some 5 else none,
          out := [], outStatus := 0, feed := false }
      setChip { c with engops := mset c.engops c.engNext o, engNext := c.engNext + 1 }
      modLease uid fun x => { x with opser := x.opser + 1 }
      setS h f.sd.toNat o.token)) s

/-- EWAIT. -/
def execEwait (f : ScalarPairF) (s : State) : Host.Outcome State Fault Refusal :=
  runZha 8 (issue 8 f.stall.toNat { Uses.none with ss := [f.sa.toNat], sd := [f.sd.toNat], ps := guardPs f.g } fun h =>
    onceIf h f.g (do
      let tok := h.s f.sa.toNat
      match (← getChip).ewaitStatus h.tid tok with
      | some st => do
        learnEng h.g h.tid tok st
        setS h f.sd.toNat (BitVec.ofNat 32 st)
      | none => parkOn h (.ewait tok f.sd.toNat))) s

/-- Whether an ENG operation may start: its lease is held, those before it have completed, and its group's earlier
accesses have performed. -/
def Chip.engTurn (c : Chip) (id : Nat) (o : EngOp) : Bool :=
  !o.started && o.status.isNone && o.parked.isNone && !o.feed && c.drained o.who o.after &&
    (match mget? c.leases o.lease with
      | some l => l.state = .held || l.state = .notice
      | none => false) &&
    ((c.leaseOps o.lease).head?.map Prod.fst) = some id

/-- ENG_OP_START: with 16 CQ beside its lease's, the operation reads its descriptor and sources. -/
def execEngOpStart (op : Nat) (s : State) : Host.Outcome State Fault Refusal :=
  runEvent (do
    let c ← getChip
    let now ← clock
    let o ← someOr (mget? c.engops op)
    enabled (c.engTurn op o)
    withCurrent (coreCluster o.who.core) (.eng op) 16 true (c.ctxPrio o.who.ctx) do
      match ← (engPlan o).run with
      | .ok (out, st) => modEng op fun x => { x with started := true, startAt := now, out := out, outStatus := st }
      | .error (.parks ..) => notReady
      | .error (.fails st) => finishEng op st
    settle) s

/-- ENG_OP_COMPLETE: the writes perform, or are suppressed on a RACE under TRAP. -/
def execEngOpComplete (op : Nat) (s : State) : Host.Outcome State Fault Refusal :=
  runEvent (do
    let o ← someOr (mget? (← getChip).engops op)
    enabled (o.started && o.status.isNone && !o.feed)
    let c ← getChip
    if o.out.any fun p => c.cutOff p.1 p.2.length then finishEng op 2
    else if ← judgeWrites o.who 9 o.out then finishEng op 3
    else do
      performWrites o.who 9 o.out
      finishEng op o.outStatus
    settle) s

end Sys2Proof.Machine
end

