-- ==== Sys2Proof/Machine/Sync.lean ====
section
/-! DEFINITION. Fences, condition monitors and YIELD, with the events that complete them. -/

namespace Sys2Proof.Machine

/-! ## Fences (R135-R137, R360) -/

/-- The accesses that a fence of a group covers: every one for .ar, those that read into registers for .acq. -/
def Chip.fenceCovers (c : Chip) (g kind : Nat) : List Nat :=
  ((c.groupOps g).filter fun o => kind = 0 || o.kind = .load || o.kind = .sload || o.kind = .atom).map MemOp.seq

/-- The merges of an .acq or .ar fence: the records of the loads since the last acquire, four of them; a later one sets OVF
up to the fence's scope (R158). -/
def Chip.fenceMerge (c : Chip) (who : Actor) (scope : Nat) : Nat → List (Option SyncRec) → Checker → Checker
  | _, [], k => k
  | 0, _ :: r, k => c.fenceMerge who scope 0 r (ovfUpTo k scope)
  | n + 1, some x :: r, k => c.fenceMerge who scope n r (c.acquireRec (some x) who scope k)
  | n + 1, none :: r, k => c.fenceMerge who scope (n + 1) r (ovfUpTo k scope)

/-- Any path of a group, for what the group as a whole does. -/
def Chip.groupActor (c : Chip) (g : Nat) : Option Actor :=
  (c.group? g).bind fun x => x.paths.head?.bind fun e => c.actorOf g e.1

/-- What the completion of a fence does: an .ar fence publishes the clock and its scope stands over the stores that follow;
both kinds merge (R152, R157, R158). -/
def fenceDone (g kind scope : Nat) : Act Unit := do
  if kind = 0 then do
    let _ ← publish g
    modGroup g fun x => { x with relScope := if scope < 2 then 0 else scope }
  else pure ()
  let c ← getChip
  whenSome (c.groupActor g) fun who => do
    modChecker g fun k => c.fenceMerge who scope 4 ((c.group? g).elim [] Group.acqLoads) k
    modGroup g fun x => { x with acqLoads := [] }

/-- The fence that the path's next fence waits for: the oldest of eight outstanding ones, or the one that it already waits
for (R135). -/
def Here.fenceFull (h : Here) : Option Nat :=
  match (mget? h.grp.fenceGate h.p).filter fun n => h.grp.fences.any fun f => f.serial = n with
  | some n => some n
  | none => if h.grp.fences.length ≥ 8 then h.grp.fences.head?.map Fence.serial else none

/-- A fence instruction is not ready until the fence it waits for completes: nothing of it is done but that note. -/
def unlessFull (h : Here) (go : Act Unit) : Act Unit :=
  match h.fenceFull with
  | some n => do
    unissue h
    modGroup h.g fun x => { x with fenceGate := mset x.fenceGate h.p n }
  | none => do
    modGroup h.g fun x => { x with fenceGate := merase x.fenceGate h.p }
    go

/-- A fence that covers something is outstanding under a serial; one that covers nothing completes at once. -/
def beginFence (h : Here) (serial kind scope : Nat) : Act Bool := do
  let cov := (← getChip).fenceCovers h.g kind
  if cov.isEmpty then do
    fenceDone h.g kind scope
    return true
  else do
    modGroup h.g fun x => { x with fences := x.fences ++ [⟨serial, kind, scope, cov⟩] }
    return false

/-- A fence token (R137). -/
def fenceToken (serial scope kind : Nat) : Word := BitVec.ofNat 32 (serial % 65536 + scope % 8 * 2 ^ 16 + kind % 2 * 2 ^ 19)

/-- A serial for a FENCE, which has no token, outside the 16 bits of those that have one. -/
def innerSerial : Act Nat := do return 65536 + (← useStamp)

/-- FENCE: the fence and its wait in one. -/
def execFence (f : FenceF) (s : State) : Host.Outcome State Fault Refusal :=
  runZha 8 (issue 8 f.stall.toNat { Uses.none with ps := guardPs f.g } fun h =>
    onceIf h f.g (unlessFull h do
      let n ← innerSerial
      if ← beginFence h n f.kind.toNat f.scope.toNat then pure () else parkOn h (.fence n))) s

/-- FBEG. -/
def execFbeg (f : FenceF) (s : State) : Host.Outcome State Fault Refusal :=
  runZha 8 (issue 8 f.stall.toNat { Uses.none with sd := [f.sd.toNat], ps := guardPs f.g } fun h =>
    onceIf h f.g (unlessFull h do
      let n := (h.grp.fenceSerial + 1) % 65536
      modGroup h.g fun x => { x with fenceSerial := n }
      let _ ← beginFence h n f.kind.toNat f.scope.toNat
      setS h f.sd.toNat (fenceToken n f.scope.toNat f.kind.toNat))) s

/-- FWAIT: waits where every field of the token matches an outstanding fence of the group. -/
def execFwait (f : FenceF) (s : State) : Host.Outcome State Fault Refusal :=
  runZha 8 (issue 8 f.stall.toNat { Uses.none with ss := [f.sa.toNat], ps := guardPs f.g } fun h =>
    onceIf h f.g (
      let tok := h.s f.sa.toNat
      match h.grp.fences.find? fun x => x.serial < 65536 && fenceToken x.serial x.scope x.kind = tok with
      | some x => parkOn h (.fence x.serial)
      | none => pure ())) s

/-- FENCE_COMPLETE. -/
def execFenceComplete (g serial : Nat) (s : State) : Host.Outcome State Fault Refusal :=
  runEvent (do
    let c ← getChip
    let x ← someOr (c.group? g)
    let f ← someOr (x.fences.find? fun f => f.serial = serial)
    enabled (!f.covers.any fun n => c.memq.any (fun o => o.seq = n) || c.inReplay g n)
    fenceDone g f.kind f.scope
    modGroup g fun x => { x with fences := x.fences.filter fun f => f.serial ≠ serial }
    settle) s

/-! ## MONW (R217-R219, R376) -/

/-- A single access at a synchronisation instruction's address: its checks and its place in physical memory. -/
def syncPlace (h : Here) (u : Use) (n : Nat) (va : Addr) : Act Nat := do
  let ls := [(lowLane h.mask, va)]
  checkSpaces h ⟨u.write, false, false, false⟩ n ls
  checkAlign n ls
  match ← translate h.core h.runId h.ctx u va.toNat with
  | .ok pa => return pa
  | .error k => trap causePage (u.data k) va (lowLane h.mask)

/-- A synchronous access of the acting group may perform: no earlier acquiring access is outstanding, and none to the same
bytes (R126, R130). -/
def awaitTurn (h : Here) (va : Addr) (pa n : Nat) : Act Unit := do
  walkEarlier h.actor (← getChip).seq
  let c ← getChip
  let o : MemOp := { MemOp.init h.actor 0 0 with seq := c.seq, size := n, lanes := [lane0 0 va .memory pa true] }
  if c.mayPerform o then pure () else notReady

/-- MONW: a satisfied comparison, or a timeout of 0, decides at once; otherwise the path parks on a monitor entry. -/
def monwOp (f : MonwF) : Act Unit :=
  let wide := f.w = 1
  let sa := f.sa.toNat
  let sb := f.sb.toNat
  let n := if wide then 8 else 4
  issue 8 f.stall.toNat
    { Uses.none with ss := [sa, sa + 1, sb, f.sc.toNat] ++ (if wide then [sb + 1] else []), sd := [f.sd.toNat],
                     ps := guardPs f.g } fun h =>
    onceIf h f.g (do
      let va := h.pair sa
      let pa ← syncPlace h (Use.load h.user) n va
      awaitTurn h va pa n
      if (← getChip).poisoned pa n then trap causeEcc 0 va (lowLane h.mask) else pure ()
      let v ← homeNat pa n
      let value := if wide then (h.pair sb).toNat else (h.s sb).toNat
      let hit := monCompare f.cmp.toNat (f.sg = 1) wide v value
      let limit := (h.s f.sc.toNat).toNat
      let scope := scopeOrSy f.scope
      if hit || limit = 0 then do
        let a : Access := ⟨h.actor, if hit then 2 else 0, hit, scope, false⟩
        let gs := globGrans (lowLane h.mask) pa n
        checkAccess a gs
        each (gs.map Prod.snd) (markRead a)
        traceRead h.tid pa n
        if hit then each (gs.map Prod.snd) fun g => do acquireGran g h.actor scope (← getChip).seq
        else each (gs.map Prod.snd) (rememberLoad h.actor)
        setS h f.sd.toNat (if hit then 0 else 1)
      else do
        awaitMonitor h.g pa
        addMonitor h.g h.p pa (some ⟨wide, f.cmp.toNat, f.sg = 1, value⟩)
        traceRead h.tid pa n
        let now ← clock
        let deadline := if limit = 0xFFFFFFFF then none else some (now + limit)
        parkOn h (.monw va pa wide f.cmp.toNat (f.sg = 1) value deadline f.sd.toNat scope h.team.raceMode))

/-- MONW (R217, R218). -/
def execMonw (f : MonwF) (s : State) : Host.Outcome State Fault Refusal := runZha 8 (monwOp f) s

/-- The parked sides of a path on a kind of wait. -/
def Chip.parkedOn (c : Chip) (g p : Nat) (q : Wait → Bool) : List Parked :=
  c.parkedSides.filter fun k => k.g = g && k.p = p && q k.wait

/-- MONW_TIMEOUT: the timeout has expired; one more evaluation decides. -/
def execMonwTimeout (g p : Nat) (s : State) : Host.Outcome State Fault Refusal :=
  runEvent (do
    let now ← clock
    let due := fun (w : Wait) => match w with
      | .monw _ _ _ _ _ _ (some d) _ _ _ => decide (d ≤ now)
      | _ => false
    let k ← someOr ((← getChip).parkedOn g p due).head?
    match k.wait with
    | .monw _ pa wide cmp signed value _ sd scope mode => do
      let v ← homeNat pa (if wide then 8 else 4)
      decideMonw k pa wide (monCompare cmp signed wide v value) sd scope mode
      settle
    | _ => notReady) s

/-! ## YIELD (R420) -/

/-- YIELD: the path swaps sides and counts as parked for a while, this clk the first (assumption 102). -/
def execYield (f : YieldF) (s : State) : Host.Outcome State Fault Refusal :=
  runZha 8 (issue 8 f.stall.toNat { Uses.none with ps := guardPs f.g } fun h =>
    onceIf h f.g (do
      let now ← clock
      modPath h.g h.p fun x => { (x.releaseSwap now) with yieldUntil := now + max f.n.toNat 1 })) s

end Sys2Proof.Machine
end

