-- ==== Sys2Proof/Machine/Barrier.lean ====
section
/-! DEFINITION. Barriers: arrivals, waits, arrival messages and releases (R221-R225, R335). -/

namespace Sys2Proof.Machine

/-! ## Participants -/

/-- A group's key in a phase: TEAM × 32 + GROUP. -/
def barKey (team : Word) (group : Nat) : Nat := team.toNat * 32 + group

/-- The resident team of a number in a run. -/
def Chip.teamOf (c : Chip) (run num : Nat) : Option (Nat × Team) :=
  c.teams.find? fun t => t.2.run = run && t.2.num.toNat = num

/-- Whether a group of a resident team has ended: its slot is free or no lane of it lives (R23). -/
def Chip.groupEnded (c : Chip) (tid : Nat) (t : Team) (index : Nat) : Bool :=
  match t.slots[index]? with
  | none => true
  | some g =>
    match c.group? g with
    | some x => x.tid ≠ tid || x.live = 0
    | none => true

/-- Whether every group of a team has arrived in a phase or ended; a saved team, or one that has not started, has not. -/
def Chip.teamArrived (c : Chip) (b : BarPhase) (num : Nat) : Bool :=
  match c.teamOf b.run num with
  | some (tid, t) => (List.range t.groups).all fun j =>
      c.groupEnded tid t j || (mget? b.arrived (barKey t.num j)).isSome
  | none =>
    match mget? c.runs b.run with
    | some r => r.doneTeams.contains num || mgetD r.restarts 0 num = 255
    | none => true

/-- The TEAM numbers of a phase's instance: one for a team barrier. -/
def Chip.phaseTeams (c : Chip) (b : BarPhase) : List Nat :=
  if b.domain = 2 then [b.inst]
  else
    match mget? c.runs b.run with
    | none => []
    | some r =>
      if b.domain = 7 then List.range r.teamCount
      else
        let n := (r.teamsPer b.domain).getD 1
        (List.range n).map fun i => b.inst * n + i

/-- Whether a phase may release: every participant that has not ended has arrived, and above team level every team's
message has been counted or the team has ended. -/
def Chip.phaseReady (c : Chip) (b : BarPhase) : Bool :=
  (c.phaseTeams b).all fun n =>
    c.teamArrived b n &&
      (b.domain = 2 || b.counted.contains n ||
        (match c.teamOf b.run n with
          | some (tid, t) => (List.range t.groups).all fun j => c.groupEnded tid t j
          | none => true))

/-! ## BAR -/

/-- The domain of a handle, with the checks of R223 on the handle and its entry. -/
def barDomain (h : Here) (handle : Nat) : Act Nat := do
  if handle = 0 then return 2
  else if handle ≥ 1024 then trap causeBarrier 1
  else do
    let e := mgetD ((← getChip).ctx h.ctx).bars 0 handle
    let dom := bits e.toNat 1 3
    if !e.getLsbD 0 || dom < 2 then trap causeBarrier 2
    else return dom

/-- A group arrives: its clock is published and joins the phase that is open (R140, R224). -/
def arrive (h : Here) (handle dom : Nat) (split : Bool) : Act Unit := do
  awaitAccesses h.g
  let k ← publish h.g
  let inst := if dom = 2 then h.team.num.toNat else (h.run.instOf dom h.team.num.toNat).getD 0
  let c ← getChip
  let key := barKey h.team.num h.grp.index
  let mine := fun (b : BarPhase) => b.handle = handle && b.run = h.runId && b.domain = dom && b.inst = inst
  match c.bars.find? fun b => mine b.2 with
  | some (i, b) => modChip fun c => { c with bars := mset c.bars i { b with arrived := mset b.arrived key k } }
  | none => modChip fun c => { c with
      bars := mset c.bars c.barNext ⟨handle, h.runId, dom, inst, [(key, k)], []⟩, barNext := c.barNext + 1 }
  modGroup h.g fun x => { x with
    arrivals := x.arrivals ++ [⟨handle, split, false, dom, 0, []⟩]
    chk := { x.chk with pend := x.chk.pend || split } }

/-- The checker state of a group that passes a release (R155). -/
def passChecker (dom : Nat) (number : Word) (clocks : Map (BitVec 16)) (k : Checker) : Checker :=
  if dom = 2 then { k with vec := vecMax k.vec clocks, ovf := k.ovf &&& ~~~(4 : BitVec 8) }
  else
    { k with
      lb := mput 0 k.lb dom number
      emax := number
      ovf := k.ovf &&& ~~~(BitVec.ofNat 8 (((List.range 8).filter fun i => 2 ≤ i && i ≤ dom).foldl (fun n i => n + 2 ^ i) 0)) }

/-- A group's wait on an arrival passes: the checker learns, the arrival ends. -/
def Group.pass (x : Group) (a : Arrival) : Group :=
  let rest := x.arrivals.filter fun y => y.handle ≠ a.handle
  { x with arrivals := rest, chk := { passChecker a.domain a.number a.clocks x.chk with pend := rest.any Arrival.split } }

/-- BAR (R335): the checks of R223, then the arrival, the wait, or both. -/
def barOp (f : BarF) : Act Unit :=
  let ret := if f.nd = 1 then none else some f.sd.toNat
  issue 8 f.stall.toNat
    { Uses.none with ss := if f.hs = 1 then [f.sa.toNat] else [], sd := ret.toList, ps := guardPs f.g } fun h =>
    onceIf h f.g (do
      let handle := if f.hs = 1 then (h.s f.sa.toNat).toNat % 4096 else f.handle.toNat
      let put := fun (v : Word) => whenSome ret fun r => setS h r v
      let dom ← barDomain h handle
      let mine := h.grp.arrivals.find? fun a => a.handle = handle
      if f.mode = 1 && h.grp.arrivals.length ≥ 4 then trap causeBarrier 3 else pure ()
      if f.mode ≠ 2 && mine.isSome then trap causeBarrier 4 else pure ()
      if f.mode = 2 && mine.isNone then trap causeBarrier 5 else pure ()
      if dom > 2 && !(h.run.coResident dom && (h.run.levels.any fun l => l.dom = dom)) then trap causeBarrier 6 else pure ()
      match f.mode.toNat, mine with
      | 0, _ => do
        arrive h handle dom false
        parkOn h (.bar handle ret)
      | 1, _ => do
        arrive h handle dom true
        put 0
      | _, some a =>
        if a.released then do
          modGroup h.g fun x => x.pass a
          put 0
        else parkOn h (.bar handle ret)
      | _, none => pure ())

/-- BAR (R221-R224). -/
def execBar (f : BarF) (s : State) : Host.Outcome State Fault Refusal := runZha 8 (barOp f) s

/-! ## Messages and releases (R224) -/

/-- BARRIER_ARRIVAL_MESSAGE: the message of a team whose groups have all arrived is counted toward the handle's domain. -/
def execBarrierArrivalMessage (key : Nat) (s : State) : Host.Outcome State Fault Refusal :=
  runEvent (do
    let c ← getChip
    let b ← someOr (mget? c.bars key)
    enabled (b.domain > 2)
    let n ← someOr ((c.phaseTeams b).find? fun n => !b.counted.contains n && (c.teamOf b.run n).isSome && c.teamArrived b n)
    modChip fun c => { c with bars := mset c.bars key { b with counted := b.counted ++ [n] } }) s

/-- The sides of a group parked in BAR on a handle. -/
def Chip.barWaits (c : Chip) (g handle : Nat) : List Parked :=
  c.parkedSides.filter fun k => k.g = g &&
    (match k.wait with
      | .bar n _ => n = handle
      | _ => false)

/-- Every side of a group that waits in BAR on a handle resumes with a status. -/
def resumeBar (g handle : Nat) (status : Word) : Act Unit := do
  each ((← getChip).barWaits g handle) fun k =>
    match k.wait with
    | .bar _ (some sd) => resume k [(sd, status)]
    | _ => resume k []

/-- A released phase reaches a group: its waits pass, or its arrival by BAR.a stands released. -/
def releaseGroup (g : Nat) (b : BarPhase) (number : Word) : Act Unit := do
  let c ← getChip
  whenSome (c.group? g) fun x =>
    whenSome (mget? c.teams x.tid) fun t => do
      let clocks := (b.arrived.filter fun e => e.1 / 32 = t.num.toNat).map fun e => (e.1 % 32, e.2)
      whenSome (x.arrivals.find? fun a => a.handle = b.handle && !a.released) fun a => do
        let a' : Arrival := { a with released := true, number := number, clocks := if b.domain = 2 then clocks else [] }
        modGroup g fun x => { x with arrivals := x.arrivals.map fun y => if y.handle = b.handle then a' else y }
        if (c.barWaits g b.handle).isEmpty then pure ()
        else do
          modGroup g fun x => x.pass a'
          resumeBar g b.handle 0

/-- Marks of a run, by place, whose epoch lies in the half of the epochs that a new LE is about to use again; a scratch granule
of a core stands at 2^60 + core × 2^30 + granule (R156). -/
def Chip.halfMarks (c : Chip) (run : Nat) (le : Word) : List (Nat × BitVec 64) :=
  let ages := fun (ofRun : BitVec 64 → Bool) (m : BitVec 64) =>
    markEpoch m < 128 && markEpoch m / 64 = le.toNat % 128 / 64 && ofRun m
  let byAgent := fun (m : BitVec 64) => match c.resolve (BitVec.ofNat 20 (markAgent m)) (markClk m) with
    | some d => d.run = run
    | none => false
  (c.marks.filter fun e => ages (fun m => if markAgent m = agentCombined then mget? c.combined e.1 = some run else byAgent m) e.2) ++
  c.cores.flatMap fun k => (k.2.smarks.filter fun e => ages byAgent e.2).map fun e => (2 ^ 60 + k.1 * 2 ^ 30 + e.1, e.2)

/-- BARRIER_RELEASE: a release above team level advances LE, and stalls while an aging of epochs is unfinished (R155,
R156). -/
def execBarrierRelease (key : Nat) (s : State) : Host.Outcome State Fault Refusal :=
  runEvent (do
    let c ← getChip
    let b ← someOr (mget? c.bars key)
    enabled (c.phaseReady b)
    let r ← someOr (mget? c.runs b.run)
    let le := r.le + 1
    let turn := le.toNat % 64 = 0
    if b.domain > 2 then do
      enabled (!(turn && r.leAging))
      modRun b.run fun x =>
        if turn then { x with le := le, leAging := true, toAge := c.halfMarks b.run le } else { x with le := le }
    else pure ()
    modChip fun c => { c with bars := merase c.bars key }
    each (c.phaseTeams b) fun n =>
      whenSome (c.teamOf b.run n) fun t =>
        each t.2.slots fun g => do
          match (← getChip).group? g with
          | some x => if x.tid = t.1 then releaseGroup g b le else pure ()
          | none => pure ()) s

/-! ## Re-initialisation and invalidation (R225) -/

/-- A group whose pending arrival on a handle is discarded. -/
def Group.discardArrival (x : Group) (handle : Nat) : Group :=
  let rest := x.arrivals.filter fun y => y.handle ≠ handle
  { x with arrivals := rest, chk := { x.chk with pend := rest.any Arrival.split } }

/-- A side that waits in BAR on a handle, resumed with BROKEN: the status register it asks for. -/
def barBroken (handle : Nat) : Option Wait → Option (Option Nat)
  | some (.bar n sd) => if n = handle then some sd else none
  | _ => none

/-- A path of a saved group with its waits on a handle ended. -/
def Path.breakBar (handle : Nat) (p : Path) : Path :=
  let side := fun (x : Side) => if (barBroken handle x.wait).isSome then { x with wait := none, pc := x.pc + 8 } else x
  let p := { p with stack := p.stack.map side, hstack := p.hstack.map side, ustack := p.ustack.map side }
  if (barBroken handle p.wait).isSome then { p with wait := none, pc := p.pc + 8 } else p

/-- The status registers that the BROKEN waits of a path write. -/
def Path.brokenRegs (handle : Nat) (p : Path) : List Nat :=
  ((p.wait :: (p.stack ++ p.hstack ++ p.ustack).map Side.wait).filterMap (barBroken handle)).filterMap id

/-- A saved group whose barrier on a handle is re-initialised. -/
def Group.breakBar (handle : Nat) (x : Group) : Group :=
  let regs := x.paths.flatMap fun e => e.2.brokenRegs handle
  let x := (regs.foldl (fun x r => x.setS r 1) x).discardArrival handle
  { x with paths := x.paths.map fun e => (e.1, e.2.breakBar handle) }

/-- Groups of a context, by slot. -/
def Chip.ctxGroups (c : Chip) (ctx : Nat) : List Nat :=
  (c.slots.filter fun s => match s.2.group with
    | some x => (match (mget? c.teams x.tid).bind fun t => mget? c.runs t.run with
      | some r => r.ctx = ctx
      | none => false)
    | none => false).map Prod.fst

/-- The phases of a handle in a context end. -/
def dropPhases (ctx handle : Nat) : Act Unit :=
  modChip fun c => { c with bars := c.bars.filter fun b => !(b.2.handle = handle &&
    (match mget? c.runs b.2.run with
      | some r => r.ctx = ctx
      | none => false)) }

/-- Re-initialisation: every waiting group resumes with BROKEN and every pending arrival is discarded. -/
def reinitBar (ctx handle : Nat) : Act Unit := do
  dropPhases ctx handle
  each ((← getChip).ctxGroups ctx) fun g => do
    resumeBar g handle 1
    modGroup g fun x => x.discardArrival handle
  modChip fun c => { c with saved := c.saved.map fun e =>
    (e.1, if e.2.ctx = ctx then { e.2 with groups := e.2.groups.map (Group.breakBar handle) } else e.2) }

/-- Invalidation: every waiting group traps BARRIER 0x0007 at its BAR, and its arrivals go. -/
def invalidateBar (ctx handle : Nat) : Act Unit := do
  dropPhases ctx handle
  each ((← getChip).ctxGroups ctx) fun g => do
    each ((← getChip).barWaits g handle) fun k => trapParked k ⟨causeBarrier, 7, 0, 0, 0, [], false, 0, 0⟩
    modGroup g fun x => x.discardArrival handle
  modChip fun c => { c with saved := c.saved.map fun e =>
    (e.1, if e.2.ctx = ctx then { e.2 with groups := e.2.groups.map fun x => x.discardArrival handle } else e.2) }

end Sys2Proof.Machine
end

