-- ==== Sys2Proof/Machine/BaseLane.lean ====
section
/-! DEFINITION. The base-word lane instructions (R51-R53) and the general move. -/

namespace Sys2Proof.Machine

/-- Base ADD (R329). -/
def execAddBase (f : TrioF) (s : State) : Host.Outcome State Fault Refusal :=
  runZha 4 (addOp false (baseForm f.stall) f.vd.toNat (trioA f) (trioB f) rmRne false) s

/-- Base SUB (R412). -/
def execSubBase (f : TrioF) (s : State) : Host.Outcome State Fault Refusal :=
  runZha 4 (addOp true (baseForm f.stall) f.vd.toNat (trioA f) (trioB f) rmRne false) s

/-- Base MUL (R381). -/
def execMulBase (f : TrioF) (s : State) : Host.Outcome State Fault Refusal :=
  runZha 4 (mulOp (baseForm f.stall) f.vd.toNat (trioA f) (trioB f) rmRne false) s

/-- Base FMA: the addend is Vd (R363). -/
def execFmaBase (f : TrioF) (s : State) : Host.Outcome State Fault Refusal :=
  runZha 4 (fmaOp (baseForm f.stall) f.vd.toNat (trioA f) (trioB f) (.v f.vd.toNat) rmRne false) s

/-- Base MIN (R373). -/
def execMinBase (f : TrioF) (s : State) : Host.Outcome State Fault Refusal :=
  runZha 4 (minMaxOp false (baseForm f.stall) f.vd.toNat (trioA f) (trioB f)) s

/-- Base MAX (R373). -/
def execMaxBase (f : TrioF) (s : State) : Host.Outcome State Fault Refusal :=
  runZha 4 (minMaxOp true (baseForm f.stall) f.vd.toNat (trioA f) (trioB f)) s

/-- Base AND (R331). -/
def execAndBase (f : TrioF) (s : State) : Host.Outcome State Fault Refusal :=
  runZha 4 (andOp (baseForm f.stall) f.vd.toNat (trioA f) (trioB f)) s

/-- Base OR (R387). -/
def execOrBase (f : TrioF) (s : State) : Host.Outcome State Fault Refusal :=
  runZha 4 (orOp (baseForm f.stall) f.vd.toNat (trioA f) (trioB f)) s

/-- Base XOR (R387). -/
def execXorBase (f : TrioF) (s : State) : Host.Outcome State Fault Refusal :=
  runZha 4 (xorOp (baseForm f.stall) f.vd.toNat (trioA f) (trioB f)) s

/-- Base SHL (R402). -/
def execShlBase (f : TrioF) (s : State) : Host.Outcome State Fault Refusal :=
  runZha 4 (shlOp (baseForm f.stall) f.vd.toNat (trioA f) (trioB f)) s

/-- Base SHR (R402). -/
def execShrBase (f : TrioF) (s : State) : Host.Outcome State Fault Refusal :=
  runZha 4 (shrOp (baseForm f.stall) f.vd.toNat (trioA f) (trioB f)) s

/-- Base SEL: the lane's bit of P0 chooses Va, else Vb (R400). -/
def execSelBase (f : TrioF) (s : State) : Host.Outcome State Fault Refusal :=
  runZha 4 (selOp (baseForm f.stall) f.vd.toNat 0 false (trioA f) (trioB f)) s

/-- Base DOT (R353). -/
def execDotBase (f : TrioF) (s : State) : Host.Outcome State Fault Refusal :=
  runZha 4 (dotOp (baseForm f.stall) f.vd.toNat (trioA f) (trioB f) rmRne false) s

/-- ADDI: a sign-extended immediate (R52, R329). -/
def execAddi (f : DuoiF) (s : State) : Host.Outcome State Fault Refusal :=
  runZha 4 (addOp false (baseForm f.stall) f.vd.toNat (.v f.va.toNat) (.imm f.imm.toInt) rmRne false) s

/-- ANDI: a zero-extended immediate (R52, R331). -/
def execAndi (f : DuoiF) (s : State) : Host.Outcome State Fault Refusal :=
  runZha 4 (andOp (baseForm f.stall) f.vd.toNat (.v f.va.toNat) (.imm f.imm.toNat)) s

/-- ORI: a zero-extended immediate (R52, R387). -/
def execOri (f : DuoiF) (s : State) : Host.Outcome State Fault Refusal :=
  runZha 4 (orOp (baseForm f.stall) f.vd.toNat (.v f.va.toNat) (.imm f.imm.toNat)) s

/-- SHLI (R52, R402). -/
def execShli (f : DuoiF) (s : State) : Host.Outcome State Fault Refusal :=
  runZha 4 (shlOp (baseForm f.stall) f.vd.toNat (.v f.va.toNat) (.imm f.imm.toNat)) s

/-- SHRI (R52, R402). -/
def execShri (f : DuoiF) (s : State) : Host.Outcome State Fault Refusal :=
  runZha 4 (shrOp (baseForm f.stall) f.vd.toNat (.v f.va.toNat) (.imm f.imm.toNat)) s

/-- MOVI, base form: a sign-extended 15-bit immediate with tag I32 (R378). -/
def execMoviBase (f : MoviF) (s : State) : Host.Outcome State Fault Refusal :=
  runZha 4 (movOp (baseForm f.stall) f.vd.toNat (.imm f.imm.toInt)) s

/-- GMOV into a scalar: from a scalar, or from the lowest active lane of a vector; readable after 2 clk (R377). -/
def gmovScalar (f : GmovF) : Act Unit :=
  if f.aIsS = 1 then salu1 (baseForm f.stall) f.d.toNat f.a.toNat id
  else issue 4 f.stall.toNat ⟨[f.a.toNat], [], [], [f.d.toNat], [], []⟩ fun h =>
    writeS h 2 f.stall.toNat f.d.toNat (h.v f.a.toNat (lowLane h.mask)).bits

/-- MOV, general form: either file to either file (R377). -/
def execMovGeneral (f : GmovF) (s : State) : Host.Outcome State Fault Refusal :=
  runZha 4 (if f.dIsS = 1 then gmovScalar f
    else movOp (baseForm f.stall) f.d.toNat (if f.aIsS = 1 then .s f.a.toNat else .v f.a.toNat)) s

end Sys2Proof.Machine
end

