-- ==== Sys2Proof/Machine/MatMath.lean ====
section
/-! DEFINITION. The numbers of the matrix engine: block sums and their values, slot elements, accumulators, adapters, the
dropout generator and drained elements (R87-R95, R188-R190). -/

namespace Sys2Proof.Machine

/-- A value times 2^k. -/
def Val.scale (v : Val) (k : Int) : Val :=
  match v with
  | .fin x => .fin { x with e := x.e + k }
  | v => v

/-- A zero sum is +0 (R89). -/
def Val.plus (v : Val) : Val := if v.isZero then .zero false else v

/-- An element of block arithmetic at its exact value (R87). -/
def matElem (t : BitVec 4) (b : Nat) : Val := elemValue t false b

/-- The exact sum of a block's products (R88). -/
def blockSum (ta tb : BitVec 4) (as bs : List Nat) : Val :=
  (Val.sum 0 (List.zipWith (fun a b => ((matElem ta a).mul (matElem tb b)).plus) as bs)).plus

/-- block_value of R89. -/
def blockValue (s : Val) (ea eb : Nat) : Nat :=
  if ea = 255 || eb = 255 then fmtF32.canonNaN else roundF32 (s.scale ((ea : Int) + eb - 254))

/-- block_value_qc4 of R89; a zero sum beside a negative scale keeps that sign (assumption 77). -/
def blockValueQc4 (s : Val) (ea c sp : Nat) : Nat :=
  if ea = 255 then fmtF32.canonNaN
  else
    let t := roundF32 (((s.mul (.fin (Exact.ofInt c))).plus).scale ((ea : Int) - 127))
    roundF32 ((valF32 t).mul (valF32 sp))

/-- One rounded addition of accumulators (R90). -/
def accAdd (a b : Nat) : Nat := roundF32 ((valF32 a).add 0 (valF32 b))

/-! ## Bytes of rows -/

def byteAt (bs : List Byte) (i : Nat) : Nat := (bs.getD i 0).toNat

/-- Element `n` of a row of a tag: 8-bit, 16-bit or packed 4-bit (R189). -/
def rowElem (t : BitVec 4) (row : List Byte) (n : Nat) : Nat :=
  if t = tagQC4 then bits (byteAt row (n / 2)) (4 * (n % 2)) 4
  else if t = tagBF16 || t = tagF16 then recNat row (2 * n) 2
  else if t = tagF32 then recNat row (4 * n) 4
  else byteAt row n

/-- Bytes of an element of an A tag, or of a drain's tags. -/
def tagBytes (t : BitVec 4) : Nat := if t = tagF32 then 4 else if t = tagBF16 || t = tagF16 then 2 else 1

/-! ## Loads of slots (R188-R190) -/

/-- The E8 code of an A row's block: BF16 carries none. -/
def rowScale (t : BitVec 4) (k : Nat) (row : List Byte) (b : Nat) : Nat := if t = tagBF16 then 127 else byteAt row (k + b)

/-- ceil(K / 1024) trailer units of an A row, none for BF16. -/
def scaleUnits (t : BitVec 4) (k : Nat) : Nat := if t = tagBF16 then 0 else (k + 1023) / 1024

def BLoad.tag4 (b : BLoad) : BitVec 4 := BitVec.ofNat 4 b.tag

/-- Whether MMA takes a record tag with a load (R188). -/
def BLoad.accepts (b : BLoad) (t : BitVec 4) : Bool :=
  let f8 := t = tagF8A || t = tagF8B
  if b.tag4 = tagQC4 then f8 || t = tagI8
  else if b.tag4 = tagBF16 then t = tagBF16
  else if b.tag4 = tagI8 then t = tagI8
  else f8

/-- Position `j` kept by a sparse load in a block and column (R190). -/
def BLoad.keep (l : BLoad) (b n j : Nat) : Nat :=
  let field := 3 * l.sparse / 4
  bits (recNat l.trailer ((b * 128 + n) * field) field) (6 * j) 6

/-- Whether every block and column of a sparse load keeps strictly increasing positions. -/
def BLoad.increasing (l : BLoad) : Bool :=
  (List.range (256 / l.sparse * 128)).all fun i =>
    (List.range (l.sparse - 1)).all fun j => l.keep (i / 128) (i % 128) j < l.keep (i / 128) (i % 128) (j + 1)

/-- The block value of K-block `b` and column `n` for an A row (R89, R90, R188-R190). -/
def BLoad.block (l : BLoad) (ta : BitVec 4) (row : List Byte) (b n : Nat) : Nat :=
  let ea := rowScale ta l.k row b
  let a := fun i => rowElem ta row (64 * b + i)
  let w := fun r => rowElem l.tag4 (l.rows.getD r []) n
  if l.sparse ≠ 0 then
    let s := blockSum ta l.tag4 ((List.range l.sparse).map fun j => a (l.keep b n j))
      ((List.range l.sparse).map fun j => w (b * l.sparse + j))
    blockValue s ea (byteAt l.trailer (24576 + b * 128 + n))
  else
    let s := blockSum ta l.tag4 ((List.range 64).map a) ((List.range 64).map fun i => w (64 * b + i))
    if l.tag4 = tagQC4 then
      blockValueQc4 s ea (byteAt l.trailer (b * 128 + n)) (recNat l.trailer (1024 + 4 * (b / 4 * 128 + n)) 4)
    else blockValue s ea (if l.tag4 = tagBF16 then 127 else byteAt l.trailer (b * 128 + n))

/-- The accumulator of a column after the K-blocks in increasing K (R90). -/
def BLoad.accumulate (l : BLoad) (ta : BitVec 4) (row : List Byte) (n acc : Nat) : Nat :=
  (List.range (l.k / 64)).foldl (fun acc b => accAdd acc (l.block ta row b n)) acc

/-- The accumulator after its first K-tiles of four blocks, for each number of them but none and all (R90, R185). -/
def BLoad.steps (l : BLoad) (ta : BitVec 4) (row : List Byte) (n acc : Nat) : List Nat :=
  (List.range (l.k / 256 - 1)).map fun t => (List.range (4 * t + 4)).foldl (fun acc b => accAdd acc (l.block ta row b n)) acc

/-! ## Streams (R200, R201) -/

/-- The weights of a column block: its tag, rows, scale bytes and super-block scales. -/
structure Weights where
  tag : BitVec 4
  rows : List (List Byte)
  scales : List Byte
  supers : List Byte
  deriving DecidableEq, Repr

/-- Whether R88 lists the pair of a slot's tag and a weight tag. -/
def streamPair (slot w : BitVec 4) : Bool :=
  let f8 := slot = tagF8A || slot = tagF8B
  if slot = tagI8 then w = tagI8 || w = tagQC4 else f8 && (w = tagF8A || w = tagF8B || w = tagQC4)

def Weights.block (w : Weights) (ta : BitVec 4) (k : Nat) (row : List Byte) (b n : Nat) : Nat :=
  let ea := rowScale ta k row b
  let s := blockSum ta w.tag ((List.range 64).map fun i => rowElem ta row (64 * b + i))
    ((List.range 64).map fun i => rowElem w.tag (w.rows.getD (64 * b + i) []) n)
  if w.tag = tagQC4 then blockValueQc4 s ea (byteAt w.scales (b * 128 + n)) (recNat w.supers (4 * (b / 4 * 128 + n)) 4)
  else blockValue s ea (byteAt w.scales (b * 128 + n))

def Weights.steps (w : Weights) (ta : BitVec 4) (k : Nat) (row : List Byte) (n acc : Nat) : List Nat :=
  (List.range (k / 256 - 1)).map fun t => (List.range (4 * t + 4)).foldl (fun acc b => accAdd acc (w.block ta k row b n)) acc

def Weights.accumulate (w : Weights) (ta : BitVec 4) (k : Nat) (row : List Byte) (n acc : Nat) : Nat :=
  (List.range (k / 64)).foldl (fun acc b => accAdd acc (w.block ta k row b n)) acc

/-! ## Adapters (R91, R202) -/

/-- An adapter's two matrices as fetched: r elements per K row of A, 128 columns per row of B. -/
structure Adapter where
  rank : Nat
  afmt : BitVec 4
  bfmt : BitVec 4
  a : List Byte
  b : List (List Byte)
  deriving DecidableEq, Repr

/-- u_j of R91, rounded to BF16. -/
def Adapter.u (x : Adapter) (ta : BitVec 4) (k : Nat) (row : List Byte) (j : Nat) : Nat :=
  let u := (List.range (k / 64)).foldl (fun u b =>
    let s := blockSum ta x.afmt ((List.range 64).map fun i => rowElem ta row (64 * b + i))
      ((List.range 64).map fun i => rowElem x.afmt x.a ((64 * b + i) * x.rank + j))
    accAdd u (blockValue s (rowScale ta k row b) 127)) 0
  (convertElem tagF32 tagBF16 0 false false u).1

/-- The u_j of a row. -/
def Adapter.us (x : Adapter) (ta : BitVec 4) (k : Nat) (row : List Byte) : List Nat := (List.range x.rank).map (x.u ta k row)

/-- adapter_value of R91 for a column. -/
def Adapter.value (x : Adapter) (us : List Nat) (n : Nat) : Nat :=
  roundF32 (blockSum tagBF16 x.bfmt us (x.b.map fun r => rowElem x.bfmt r n))

/-! ## Draining (R94, R95) -/

def mixC : List (BitVec 64) := [0x5A17C3E902B46D81, 0x3C9E84F1A7265B0D, 0x71D40B6AE953C28F, 0x0E8BF2754D19A6C3]

/-- keep_bit of R94. -/
def keepBit (seed : BitVec 64) (lid row col : Word) (thresh : Nat) : Bool :=
  let mix := fun (x c : BitVec 64) =>
    let x := x + (c ^^^ lid.setWidth 64)
    let x := x ^^^ (x >>> 29)
    let x := x * 0xD6E31A5B7C940F2D
    x ^^^ (x >>> 32)
  let x := mixC.foldl mix ((row ++ col) ^^^ seed)
  (x >>> 48).toNat ≥ thresh

/-- A drain descriptor (R203). -/
structure Drain where
  alpha : Nat
  drop : Bool
  res : Bool
  dtag : BitVec 4
  seed : BitVec 64
  thresh : Nat
  invkeep : Nat
  resrec : BitVec 64
  row0 : Word
  col0 : Word
  clean : Bool
  deriving DecidableEq, Repr

def Drain.of (b : List Byte) : Drain :=
  let w := recNat b 4 4
  { alpha := recNat b 0 4, drop := bits w 0 1 = 1, res := bits w 1 1 = 1, dtag := BitVec.ofNat 4 (bits w 2 4),
    seed := BitVec.ofNat 64 (recNat b 8 8), thresh := recNat b 0x10 2, invkeep := recNat b 0x14 4,
    resrec := BitVec.ofNat 64 (recNat b 0x18 8), row0 := BitVec.ofNat 32 (recNat b 0x20 4),
    col0 := BitVec.ofNat 32 (recNat b 0x24 4),
    clean := bits w 6 26 = 0 && recNat b 0x12 2 = 0 && (b.drop 0x28).all fun x => x = 0 }

/-- Destination tags of a drain (R203, R204). -/
def drainTag (t : BitVec 4) : Bool :=
  t = tagF32 || t = tagBF16 || t = tagF16 || t = tagF8A || t = tagF8B || t = tagI8 || t = tagN8

/-- Residual tags (R203). -/
def residualTag (t : BitVec 4) : Bool := t = tagF32 || t = tagBF16 || t = tagF16 || t = tagF8A || t = tagF8B

/-- drain_element of R95: row and column in the tile, and the residual element of a tag. -/
def Drain.elem (d : Drain) (lid : Word) (dt : BitVec 4) (sat : Bool) (row col acc : Nat) (res : Option (BitVec 4 × Nat)) : Nat :=
  let v := roundF32 ((valF32 acc).mul (valF32 d.alpha))
  let v :=
    if !d.drop then v
    else if keepBit d.seed lid (d.row0 + BitVec.ofNat 32 row) (d.col0 + BitVec.ofNat 32 col) d.thresh then
      roundF32 ((valF32 v).mul (valF32 d.invkeep))
    else 0
  let v := match res with
    | some (t, x) => roundF32 ((valF32 v).add 0 (elemValue t false x))
    | none => v
  if dt = tagF32 then v else (convertElem tagF32 dt 0 sat false v).1

end Sys2Proof.Machine
end

