-- ==== Sys2Proof/Machine/MemOps.lean ====
section
/-! DEFINITION. Memory instructions: loads, stores and their scratch forms, atomics, reductions, hints and full/empty
operations, up to the point at which each issues. -/

namespace Sys2Proof.Machine

/-! ## LD and SLD (R52, R368, R404) -/

/-- A read that performs as it issues, over its lanes: spaces, alignment, translation, race, poison; the marks take the read.
Answers the bound lanes. -/
def globalRead (h : Here) (u : FormUse) (t : Use) (n : Nat) (a : Access) (ls : List (Nat × Addr)) : Act (List LaneAcc) := do
  checkSpaces h u n ls
  checkAlign n ls
  let xs ← bindLanes h t false n ls
  let c ← getChip
  let gs := lanesGrans c n xs
  checkAccess a gs
  match xs.find? (c.lanePoison n) with
  | some x => trap causeEcc 0 x.va x.lane
  | none => do
    each (distinct (gs.map Prod.snd)) (markRead a)
    return xs

/-- The issue of a load: spaces, alignment, translation (R113); poison that it would read now is a precise trap (R120). It joins
the pending accesses; under TRAP its path waits for its check (R163; assumption 86). -/
def issueLoad (h : Here) (o : MemOp) (ls : List (Nat × Addr)) : Act Unit := do
  checkSpaces h ⟨false, true, true, true⟩ o.size ls
  checkAlign o.size ls
  let xs ← bindLanes h (Use.load h.user) false o.size ls
  walkEarlier h.actor (← getChip).seq
  let c ← getChip
  match if c.mayPerform { o with seq := c.seq, lanes := xs } then xs.find? (c.lanePoison o.size) else none with
  | some x => trap causeEcc 0 x.va x.lane
  | none => do
    awaitRequests h.g o.size xs o
    let seq ← pushOp { o with lanes := xs }
    blockIf h seq
    countMem h o.size ls (some seq)

/-- An access of the acting path before its lanes: its instruction's words, and the fence that it follows (R133, R258). -/
def MemOp.at_ (h : Here) (i : Instr) : MemOp :=
  { MemOp.init h.actor i.words.1 i.words.2 with relScope := h.grp.relScope }

/-- LD: its checks at issue; the access joins the pending ones, and its value arrives with LOAD_DATA_RETURN. -/
def loadOp (i : Instr) (m : MemForm) : Act Unit :=
  issue m.form.len m.form.stall (m.uses false) fun h =>
    onceIf h m.form.g (do
      awaitReplayRoom h.g h.p
      m.checkIndices h
      issueLoad h { MemOp.at_ h i with
        kind := .load, size := m.type.size, dst := m.vt, regs := m.type.regs, tag := m.type.tag, acq := m.sync,
        scope := m.scope } (m.addrs h))

/-- LD, base form (R52). -/
def execLdBase (f : MemF) (s : State) : Host.Outcome State Fault Refusal := runZha 4 (loadOp (.ldBase f) (memBase f)) s
/-- LD (R368). -/
def execLd (f : MemXF) (s : State) : Host.Outcome State Fault Refusal := runZha 8 (loadOp (.ld f) (memX f)) s

/-- SLD: one access for the group, at the lowest lane of lanes(). -/
def sloadOp (i : Instr) (m : MemForm) : Act Unit :=
  issue m.form.len m.form.stall
    { Uses.none with ss := [m.sa, m.sa + 1], sd := m.regs, ps := guardPs m.form.g } fun h =>
    onceIf h m.form.g (do
      awaitReplayRoom h.g h.p
      issueLoad h { MemOp.at_ h i with
        kind := .sload, size := m.type.size, dst := m.vt, regs := m.type.regs, acq := m.sync, scope := m.scope }
        [(lowLane (h.lanes m.form.g), h.pair m.sa + BitVec.ofInt 64 (m.off * m.type.size))])

/-- SLD, base form (R52). -/
def execSldBase (f : MemF) (s : State) : Host.Outcome State Fault Refusal := runZha 4 (sloadOp (.sldBase f) (memBase f)) s
/-- SLD (R404). -/
def execSld (f : MemXF) (s : State) : Host.Outcome State Fault Refusal := runZha 8 (sloadOp (.sld f) (memX f)) s

/-! ## ST (R52, R409) -/

/-- ST: its checks at issue; data and clock are taken, and the access retires into the store queue. -/
def storeOp (i : Instr) (m : MemForm) : Act Unit :=
  issue m.form.len m.form.stall (m.uses true) fun h =>
    onceIf h m.form.g (do
      m.checkTyped h
      m.checkIndices h
      let ls := m.addrs h
      checkSpaces h ⟨true, true, true, true⟩ m.type.size ls
      checkAlign m.type.size ls
      let xs ← bindLanes h (Use.store h.user) true m.type.size ls
      let o : MemOp := { MemOp.at_ h i with kind := .store, size := m.type.size, rel := m.sync, scope := m.scope }
      awaitRequests h.g m.type.size xs o
      publishIf h.g m.sync
      let seq ← pushOp { o with
        lanes := xs.map fun x => { x with data := fromLE (h.grp.laneBytes m.vt m.type.regs m.type.size x.lane) } }
      blockIf h seq
      countMem h m.type.size ls (some seq))

/-- ST, base form (R52). -/
def execStBase (f : MemF) (s : State) : Host.Outcome State Fault Refusal := runZha 4 (storeOp (.stBase f) (memBase f)) s
/-- ST (R409). -/
def execSt (f : MemXF) (s : State) : Host.Outcome State Fault Refusal := runZha 8 (storeOp (.st f) (memX f)) s

/-! ## Scratch (R370, R411) -/

/-- A lane byte at or beyond the team's allocation raises BOUND (R102). -/
def checkScratch (h : Here) (n : Nat) (ls : List (Nat × Addr)) : Act Unit :=
  checkLanes ls (fun a => a.toNat + n > h.team.scrSize) causeBound 6

/-- The granules that lanes of a scratch access touch, for the checker. -/
def scrLaneGrans (h : Here) (n : Nat) (ls : List (Nat × Addr)) : GranLanes :=
  ls.flatMap fun l => scrGrans h.core h.team.scrLo l.1 l.2.toNat n

/-- The 16-byte granules that lanes touch. -/
def scrFullGrans (h : Here) (n : Nat) (ls : List (Nat × Addr)) : List Nat :=
  distinct (ls.flatMap fun l => fullGrans (h.team.scrLo + l.2.toNat) n)

/-- A scratch access of a group waits for its own pending on-chip accesses to the same bytes (R126). -/
def awaitOwnOpm (h : Here) (n : Nat) (ls : List (Nat × Addr)) : Act Unit := do
  let c ← getChip
  let meets := fun (o : MemOp) => o.lanes.any fun x => x.space = .opm && opmKind x.pa = 1 && opmCore x.pa = h.core &&
    (match c.scrPos h.core (opmOff x.pa) with
      | some p => ls.any fun l => p < h.team.scrLo + l.2.toNat + n && h.team.scrLo + l.2.toNat < p + o.size
      | none => false)
  if (c.groupOps h.g).any meets then notReady else pure ()

/-- LDS (R370): it performs as it issues. A FEW read waits until every granule is full. -/
def ldsOp (m : MemForm) : Act Unit :=
  issue m.form.len m.form.stall (m.uses false) fun h =>
    onceIf h m.form.g (do
      m.checkIndices h
      let ls := m.scrAddrs h
      let n := m.type.size
      checkScratch h n ls
      checkAlign n ls
      awaitAcquire h.g
      awaitOwnOpm h n ls
      let c ← getChip
      let k := c.core h.core
      let full := scrFullGrans h n ls
      if m.few && !full.all k.isFull then notReady else pure ()
      let a : Access := ⟨if m.few then c.filled h.actor h.core full else h.actor, if m.few then 10 else if m.sync then 2 else 0, m.few || m.sync,
        if m.sync then max m.scope (if m.few then 2 else 0) else 2, false⟩
      let gs := scrLaneGrans h n ls
      checkAccess a gs
      let grans := distinct (gs.map Prod.snd)
      each grans (markRead a)
      modGroup h.g fun x => ls.foldl (fun x l =>
        x.setLane m.vt m.type.regs m.type.tag l.1 (k.bytes (h.team.scrLo + l.2.toNat) n)) x
      if m.few then learnFills h.g h.core full else pure ()
      if m.fec then modCore h.core fun k => k.markFull full false else pure ()
      if a.sync then each grans fun g => acquireGran g h.actor a.scope c.seq
      else each grans fun g => rememberLoad h.actor g
      countMem h n ls none)

/-- LDS, base form (R52). -/
def execLdsBase (f : MemF) (s : State) : Host.Outcome State Fault Refusal := runZha 4 (ldsOp (memBase f)) s
/-- LDS (R370). -/
def execLds (f : MemXF) (s : State) : Host.Outcome State Fault Refusal := runZha 8 (ldsOp (memX f)) s

/-- Whether scratch bytes are named by an incomplete matrix operation of the group: those that a BLD or MMA has yet to
read, or a scratch-form TDRN has yet to write (R139, R197). -/
def Chip.matHolds (c : Chip) (core : Nat) (mine : Actor → Bool) (a n : Nat) : Bool :=
  (c.core core).order.any fun o =>
    mine o.2.who && o.2.status.isNone &&
      ((o.2.kind = .bld || o.2.kind = .mma) && !o.2.read || o.2.kind = .tdrn && !o.2.mods.getLsbD 0) &&
      (match mget? c.teams o.2.who.tid with
        | some t => ((OpRec.of o.2.rcd).ranges t.scrLo).any fun r => r.1 < a + n && a < r.1 + r.2
        | none => false)

/-- Whether scratch bytes of a core are those that an unstarted drain would read as residual, by what its descriptor holds now
(R139, R197). -/
def residualHolds (core : Nat) (mine : Actor → Bool) (rs : List (Nat × Nat)) : Act Bool := do
  if rs.isEmpty then return false
  let c ← getChip
  let drains := (c.core core).order.filter fun o =>
    mine o.2.who && o.2.kind = .tdrn && o.2.status.isNone && o.2.startAt.isNone
  let held ← mapAct drains fun o => do
    match ← peekRead o.2.who o.2.desc.toNat 64, mget? c.teams o.2.who.tid with
    | some b, some t =>
      let d := Drain.of b
      return d.res && ((OpRec.of d.resrec).ranges t.scrLo).any fun r => rs.any fun a => r.1 < a.1 + a.2 && a.1 < r.1 + r.2
    | _, _ => return false
  return held.any id

/-- STS (R411): it performs as it issues; of lanes naming the same bytes the highest stands. -/
def stsOp (m : MemForm) : Act Unit :=
  issue m.form.len m.form.stall (m.uses true) fun h =>
    onceIf h m.form.g (do
      m.checkTyped h
      m.checkIndices h
      let ls := m.scrAddrs h
      let n := m.type.size
      checkScratch h n ls
      checkAlign n ls
      awaitAcquire h.g
      awaitOwnOpm h n ls
      let c ← getChip
      let own := fun (w : Actor) => w.slot = h.g && w.agent = h.agent
      let at_ := ls.map fun l => (h.team.scrLo + l.2.toNat, n)
      if at_.any fun r => c.matHolds h.core own r.1 r.2 then notReady else pure ()
      if ← residualHolds h.core own at_ then notReady else pure ()
      if m.sync then awaitAccesses h.g else pure ()
      let a : Access := ⟨h.actor, if m.sync then 3 else 1, m.sync, m.scope, true⟩
      let gs := scrLaneGrans h n ls
      checkAccess a gs
      let grans := distinct (gs.map Prod.snd)
      modCore h.core fun k => ls.foldl (fun k l =>
        k.setBytes (h.team.scrLo + l.2.toNat) (h.grp.laneBytes m.vt m.type.regs n l.1)) k
      each grans fun g => markWrite a g h.grp.relScope
      if m.sync then each grans fun g => releaseRecord g h.actor h.slot.clock (max m.scope h.grp.relScope) false else pure ()
      publishIf h.g m.sync
      if m.fes then modCore h.core fun k => k.markFull (scrFullGrans h n ls) true else pure ()
      countMem h n ls none
      settle)

/-- STS, base form (R52). -/
def execStsBase (f : MemF) (s : State) : Host.Outcome State Fault Refusal := runZha 4 (stsOp (memBase f)) s
/-- STS (R411). -/
def execSts (f : MemXF) (s : State) : Host.Outcome State Fault Refusal := runZha 8 (stsOp (memX f)) s

/-! ## ATOM (R332, R333) -/

/-- Tags that an ATOM operation accepts. -/
def atomTag (op : Nat) (wide : Bool) (t : BitVec 4) : Bool :=
  let int := t = tagI32 || t = tagN32
  match wide, op with
  | false, 3 => int
  | false, 4 => int
  | false, 5 => int
  | false, _ => int || t = tagF32
  | true, 0 => int
  | true, 6 => int || t = tagADDR
  | true, 7 => int || t = tagADDR
  | true, _ => false

/-- One or two registers of a lane as a number, and whether every one carries a tag. -/
def Group.laneNat (x : Group) (r regs i : Nat) : Nat := fromLE (x.laneBytes r regs (4 * regs) i)
def Group.laneTagged (x : Group) (r regs i : Nat) (p : BitVec 4 → Bool) : Bool :=
  (List.range regs).all fun k => p (x.vreg (r + k) i).tag

/-- The lanes of an ATOM or MRED with their addresses. -/
def indexedAddrs (h : Here) (sa vi : Nat) (lanes : BitVec 32) : List (Nat × Addr) :=
  (lanesOf lanes).map fun i => (i, h.pair sa + (indexOf (h.v vi i)).getD 0)

/-- Lanes whose operands do not carry the tags trap TAG. -/
def checkTags (lanes : BitVec 32) (ok : Nat → Bool) : Act Unit :=
  match (lanesOf lanes).find? fun i => !ok i with
  | some i => trap causeTag 0 0 i
  | none => pure ()

/-- ATOM: its checks at issue; it performs at the home. Each lane's operand tag goes with its value. -/
def atomOp (f : AtomF) : Act Unit :=
  let wide := f.w = 1
  let regs := if wide then 2 else 1
  let n := 4 * regs
  let vb := f.vb.toNat
  let vd := f.vd.toNat
  let cas := f.op = 7
  let span := fun r => (List.range regs).map fun k => r + k
  issue 8 f.stall.toNat
    { Uses.none with vs := f.vi.toNat :: span vb ++ (if cas then span vd else []), vd := span vd,
                     ss := [f.sa.toNat, f.sa.toNat + 1], ps := guardPs f.g } fun h =>
    onceIf h f.g (do
      let lanes := h.lanes f.g
      checkTags lanes fun i =>
        let t := (h.v vb i).tag
        atomTag f.op.toNat wide t && h.grp.laneTagged vb regs i (fun x => x = t) &&
          (!cas || h.grp.laneTagged vd regs i fun x => x = t)
      checkIndex h f.vi.toNat lanes
      awaitReplayRoom h.g h.p
      let ls := indexedAddrs h f.sa.toNat f.vi.toNat lanes
      checkSpaces h ⟨true, false, false, false⟩ n ls
      checkAlign n ls
      let xs ← bindLanes h (Use.rmw h.user) false n ls
      let c ← getChip
      match xs.find? (c.lanePoison n) with
      | some x => trap causeEcc 0 x.va x.lane
      | none => do
        let o := MemOp.at_ h (.atom f)
        awaitRequests h.g n xs o
        publishIf h.g (ordRel f.order)
        let seq ← pushOp { o with
          kind := .atom, size := n, dst := vd, regs := regs, acq := ordAcq f.order, rel := ordRel f.order,
          scope := scopeOrSy f.scope, op := f.op.toNat,
          lanes := xs.map fun x => { x with
            data := h.grp.laneNat vb regs x.lane + (h.v vb x.lane).tag.toNat * 2 ^ 64
            cmp := h.grp.laneNat vd regs x.lane } }
        blockIf h seq
        countMem h n ls (some seq))

/-- ATOM (R333). -/
def execAtom (f : AtomF) (s : State) : Host.Outcome State Fault Refusal := runZha 8 (atomOp f) s

/-! ## MRED (R379, R380) -/

/-- The tag that an MRED format needs in each register. -/
def mredTag (fmt : Nat) (t : BitVec 4) : Bool :=
  match fmt with
  | 0 => t = tagI32
  | 1 => t = tagN32
  | 2 => t = tagF32
  | _ => t = tagI32 || t = tagN32

/-- MRED: its checks at issue; each lane performs when it combines. -/
def mredOp (f : MredF) : Act Unit :=
  let regs := if f.fmt = 3 then 2 else 1
  let n := 4 * regs
  let vb := f.vb.toNat
  issue 8 f.stall.toNat
    { Uses.none with vs := f.vi.toNat :: (List.range regs).map fun k => vb + k,
                     ss := [f.sa.toNat, f.sa.toNat + 1], ps := guardPs f.g } fun h =>
    onceIf h f.g (do
      let lanes := h.lanes f.g
      checkTags lanes fun i => h.grp.laneTagged vb regs i (mredTag f.fmt.toNat)
      checkIndex h f.vi.toNat lanes
      let ls := indexedAddrs h f.sa.toNat f.vi.toNat lanes
      checkSpaces h ⟨true, false, false, false⟩ n ls
      checkAlign n ls
      let xs ← bindLanes h (Use.rmw h.user) false n ls
      let o := MemOp.at_ h (.mred f)
      awaitRequests h.g n xs o
      publishIf h.g (ordRel f.order)
      let seq ← pushOp { o with
        kind := .mred, size := n, rel := ordRel f.order, scope := scopeOrSy f.scope, op := f.op.toNat, fmt := f.fmt.toNat,
        lanes := xs.map fun x => { x with data := h.grp.laneNat vb regs x.lane } }
      blockIf h seq
      countMem h n ls (some seq))

/-- MRED (R380). -/
def execMred (f : MredF) (s : State) : Host.Outcome State Fault Refusal := runZha 8 (mredOp f) s

/-! ## Hints and instruction caches (R110, R344, R364, R390) -/

/-- The pages of a range that translate for a use, with their pieces; the others are skipped. -/
def hintPieces (h : Here) (u : Use) (va n : Nat) : Act (List (Nat × Nat)) := do
  let ps ← mapAct (segments va n) fun g => do
    match ← translate h.core h.runId h.ctx u g.1 with
    | .ok pa => return some (pa, g.2)
    | .error _ => return none
  return ps.filterMap id

/-- The address checks and the range of a hint. -/
def hintOp (f : RangeF) (body : Here → Nat → Nat → Act Unit) : Act Unit :=
  let sa := f.sa.toNat
  issue 8 f.stall.toNat { Uses.none with ss := [sa, sa + 1, f.sb.toNat], ps := guardPs f.g } fun h =>
    onceIf h f.g (do
      let a := h.pair sa
      let n := min (h.s f.sb.toNat).toNat (2 ^ 20)
      let c ← getChip
      match c.region a with
      | .bad => trap causeAccess 5 a
      | .opm => trap causeAccess 6 a
      | .mailbox => trap causeAccess 4 a
      | .global => do
        if meetsWindow (← frameWindow h.ctx) a.toNat (max n 1) then trap causeAccess 8 a else pure ()
        if n = 0 then pure () else body h a.toNat n)

/-- PF: a line's presence in a cache changes no value; the translation of its pages is all that is left of it. -/
def execPf (f : RangeF) (s : State) : Host.Outcome State Fault Refusal :=
  runZha 8 (hintOp f fun h a n => do
    let _ ← hintPieces h (Use.load h.user) a n
    pure ()) s

/-- A mark as it folds into its page's summary (R166): the run and the level instances of its writer. A COMBINED mark's run is
that of its contributors; a run that no longer can be told is a free value. -/
def foldMark (gran : Nat) (m : BitVec 64) (sum : Nat) : Act Nat := do
  let c ← getChip
  let a := markAgent m
  if a = agentClear || a = agentSummary then return sum
  else do
    let d := if a = agentCombined then none else c.resolve (BitVec.ofNat 20 a) (markClk m)
    let run := if a = agentCombined then (mget? c.combined gran).bind fun r => mget? c.runs r else d.bind fun e => mget? c.runs e.run
    let no ← match run with
      | some r => pure r.runNo.toNat
      | none => do pure ((← freeValue).toNat % 2 ^ 32)
    let same := bits sum 32 1 = 1 && bits sum 0 32 = no
    let frame := gran / 128
    let many := if a = agentCombined || (same && (bits sum 33 1 = 1 || mget? c.folded frame ≠ some a)) then 1 else 0
    if same then pure () else modChip fun c => { c with folded := mset c.folded frame a }
    let lv := (List.range 5).foldl (fun n k =>
      let inst := match run, d with
        | some r, some e => (r.instOf (k + 3) e.team.toNat).getD 0xFFFF % 65536
        | _, _ => 0xFFFF
      let old := bits sum (34 + 24 * k) 24
      let e := markEpoch m
      let epoch := if !same then e else repochMax (match run with
        | some r => r.le.toNat
        | none => 0) (old % 256) e
      let inst := if !same || old / 256 = inst then inst else 0xFFFF
      n + (inst * 256 + epoch) * 2 ^ (24 * k)) 0
    return no + 2 ^ 32 + many * 2 ^ 33 + lv * 2 ^ 34

/-- The granules of the resident lines of a page that no access has marked: they stay as they are when the page's summary
changes. -/
def Chip.unmarked (c : Chip) (frame : Nat) : List Nat :=
  let here := c.marks.filter fun e => e.1 / 128 = frame
  (List.range 128).filterMap fun i =>
    let g := frame * 128 + i
    if (mget? here g).isNone && here.any (fun e => e.1 / 4 = g / 4) then some g else none

/-- A line leaves L2: its marks fold into its page's summary and leave the caches (R166); a line of a frame that no summary table
covers comes back with SUMMARY marks (R305). -/
def foldLine (line : Nat) : Act Unit := do
  let c ← getChip
  let ms := c.marks.filter fun e => e.1 / 4 = line
  if ms.isEmpty then pure ()
  else
    match c.summaryAt (line / 32) with
    | none => modChip fun c => { c with
        marks := (List.range 4).foldl (fun m i => mset m (line * 4 + i) markSummary) c.marks }
    | some at_ => do
      let old ← readNat at_ 32
      let new ← ms.foldlM (fun s m => foldMark m.1 m.2 s) old
      modChip fun c => { c with marks := c.marks.filter fun e => e.1 / 4 ≠ line }
      if new = old then pure ()
      else do
        if bits old 32 1 = 0 then
          each (c.unmarked (line / 32)) fun g => if g / 4 = line then pure () else setMark g markClear
        else pure ()
        writeNat at_ 32 new

/-- CCTL: lines leave the issuing core's L1 or every L2 slice, or are marked first for replacement. -/
def execCctl (f : RangeF) (s : State) : Host.Outcome State Fault Refusal :=
  runZha 8 (hintOp f fun h a n => do
    let ps ← hintPieces h ⟨false, false, false, h.user⟩ a n
    let lines := distinct (ps.flatMap fun p => linesOf p.1 p.2)
    match f.op.toNat with
    | 0 => each lines (recallFrom fun k => k = h.core)
    | 1 => each lines foldLine
    | _ => modChip fun c => { c with lowpri := distinct (lines ++ c.lowpri) }
    settle) s

/-- ICINV: after the group's earlier stores, the lines leave the issuing core's instruction cache; every later fetch reads
them at their home. -/
def execIcinv (f : RangeF) (s : State) : Host.Outcome State Fault Refusal :=
  runZha 8 (hintOp f fun h a n => do
    awaitStores h.g
    let ps ← hintPieces h ⟨false, false, false, h.user⟩ a n
    let lines := ps.flatMap fun p => linesOf p.1 p.2
    modCore h.core fun k => { k with icache := k.icache.filter fun e => !lines.contains e.1 }) s

/-! ## FE (R362) -/

/-- FE: full bits of a range of the team's scratch set or cleared. -/
def execFe (f : RangeF) (s : State) : Host.Outcome State Fault Refusal :=
  runZha 8 (issue 8 f.stall.toNat { Uses.none with ss := [f.sa.toNat, f.sb.toNat], ps := guardPs f.g } fun h =>
    onceIf h f.g (do
      let o := (h.s f.sa.toNat).toNat
      let n := (h.s f.sb.toNat).toNat
      if o % 16 ≠ 0 || n % 16 ≠ 0 then trap causeAlign
      else if n = 0 then pure ()
      else if o + n > h.team.scrSize then trap causeBound 6
      else do
        awaitAcquire h.g
        modCore h.core fun k => k.markFull (fullGrans (h.team.scrLo + o) n) (f.op = 1))) s

end Sys2Proof.Machine
end

