-- ==== Sys2Proof/Machine/Matrix.lean ====
section
/-! DEFINITION. The matrix instructions: issue checks, the engine order, batches and tiles (R186, R191-R205). -/

namespace Sys2Proof.Machine

/-- No tile and no slot. -/
def noTile : Nat := 16
def noSlot : Nat := 4

/-- An operation as it is accepted. -/
def MatOp.init (kind : MatKind) (h : Here) (after : Nat) (mods : BitVec 6) (mask : BitVec 32) : MatOp :=
  { kind := kind, who := h.actor, after := after, mask := mask, tile := noTile, tile2 := noTile, bslot := noSlot, rcd := 0,
    mods := mods, desc := 0, ids := [], sb := 0, vd := 0, dtag := 0, seqP := 0, read := false, readyAt := none,
    startAt := none, endsAt := 0, parked := none, status := none, steps := [], outTile := [], outBytes := [], outRegs := [],
    load := none, outStatus := 0 }

/-- Acceptance into the engine order of 32 incomplete operations and the group's open set (R197, R198). -/
def acceptMat (h : Here) (o : MatOp) : Act Unit := do
  let k := (← getChip).core h.core
  if (k.order.filter fun e => e.2.status.isNone).length ≥ 32 then notReady else pure ()
  let key := k.orderNext + 1
  modCore h.core fun k => { k with orderNext := key, order := mset k.order key o }
  modGroup h.g fun x => { x with openSet := x.openSet ++ [key] }

/-- The MX lease of the team, in HELD or NOTICE (R186). -/
def checkMx (h : Here) : Act Unit := do
  match (← getChip).mxLease h.tid with
  | none => trap causeLeaseLost 1
  | some (_, l) =>
    if l.state = .revoked then trap causeLeaseLost 2
    else if l.state = .queued || l.state = .waking then notReady
    else pure ()

/-- The physical tile of a logical one (R191). -/
def physTile (h : Here) (t : Nat) : Act Nat :=
  match h.team.tiles[t]? with
  | some p => pure p
  | none => trap causeBound 5

/-- Vc under .ad: I32 or N32 in every row of the mask. -/
def checkIds (h : Here) (ad : Bool) (vc : Nat) (mask : BitVec 32) : Act Unit :=
  if !ad then pure ()
  else
    match (lanesOf mask).find? fun i => (h.v vc i).tag ≠ tagI32 && (h.v vc i).tag ≠ tagN32 with
    | some i => trap causeTag 0 0 i
    | none => pure ()

def idsOf (h : Here) (vc : Nat) : List Word := (List.range 32).map fun i => (h.v vc i).bits

/-! ## BLD (R189, R194, R338) -/

/-- N of a BLD's SPN field, 0 for a dense load. -/
def sparseN (mods : BitVec 6) : Nat :=
  match bits mods.toNat 1 2 with
  | 0 => 0
  | n => 4 * 2 ^ n

/-- K of a vector row's LEN, none where no K has it (R189). -/
def vectorK (len : Nat) : Option Nat :=
  ((List.range 16).find? fun t => 16 * (t + 1) + (t + 4) / 4 = len).map fun t => 256 * (t + 1)

/-- Tags of a load (R188). -/
def loadTag (mods : BitVec 6) (t : BitVec 4) : Bool :=
  t = tagF8A || t = tagF8B || t = tagI8 ||
    (bits mods.toNat 0 3 = 0 && (t = tagQC4 || t = tagBF16))

/-- Data and trailer rows of a matrix load, and LEN (R189). -/
def loadRows (n : Nat) (t : BitVec 4) : Nat × Nat × Nat :=
  if n ≠ 0 then (256, 192 + 256 / n, 8)
  else if t = tagQC4 then (512, 32, 4)
  else if t = tagBF16 then (128, 0, 16)
  else (256, 4, 8)

/-- Whether ROWS and LEN match the load. -/
def loadFits (mods : BitVec 6) (r : OpRec) : Bool :=
  if mods.getLsbD 0 then
    match vectorK r.len with
    | some k => r.rows ≤ 8 && r.rows * k ≤ 32768
    | none => false
  else
    let (d, t, len) := loadRows (sparseN mods) r.tag
    r.rows = d + t && r.len = len

/-- BLD. -/
def execBld (f : MatF) (s : State) : Host.Outcome State Fault Refusal :=
  let sa := f.a.toNat
  runZha 8 (issue 8 f.stall.toNat { Uses.none with ss := [sa, sa + 1], ps := guardPs f.g } fun h =>
    onceIf h f.g (do
      checkMx h
      let rcd := h.pair sa
      checkRecord h.team.scrUnits rcd (loadTag f.mods)
      if loadFits f.mods (OpRec.of rcd) then pure () else trap causeBound 4
      let c ← getChip
      acceptMat h { MatOp.init .bld h c.seq f.mods h.mask with rcd := rcd, bslot := f.d.toNat % 4 })) s

/-! ## MMA and MV (R195, R201, R375, R383) -/

def mmaTag (t : BitVec 4) : Bool := t = tagF8A || t = tagF8B || t = tagI8 || t = tagBF16

/-- MMA. -/
def execMma (f : MatF) (s : State) : Host.Outcome State Fault Refusal :=
  let sa := f.a.toNat
  let ad := f.mods.getLsbD 3
  let sb := f.b.toNat
  runZha 8 (issue 8 f.stall.toNat
    { Uses.none with
      ss := [sa, sa + 1] ++ (if ad then [sb, sb + 1] else []), vs := if ad then [f.c.toNat] else [], ps := guardPs f.g } fun h => do
      checkMx h
      let mask := h.lanes f.g
      let rcd := h.pair sa
      checkRecord h.team.scrUnits rcd mmaTag
      let tile ← physTile h f.d.toNat
      checkIds h ad f.c.toNat mask
      if ad then offWindow h [((h.pair sb).toNat, 64)] else pure ()
      let c ← getChip
      let paired := f.mods.getLsbD 2
      acceptMat h { MatOp.init .mma h c.seq f.mods mask with
        rcd := rcd, tile := tile, bslot := bits f.mods.toNat 4 2, desc := if ad then h.pair sb else 0,
        ids := if ad then idsOf h f.c.toNat else [], seqP := h.grp.mmaP }
      if paired then modGroup h.g fun x => { x with mmaP := x.mmaP + 1 } else pure ()) s

/-- MV. -/
def execMv (f : MatF) (s : State) : Host.Outcome State Fault Refusal :=
  let sa := f.a.toNat
  let ad := f.mods.getLsbD 3
  runZha 8 (issue 8 f.stall.toNat
    { Uses.none with ss := [sa, sa + 1, f.b.toNat], vs := if ad then [f.c.toNat] else [], ps := guardPs f.g } fun h => do
      checkMx h
      let mask := h.lanes f.g
      let tile ← physTile h f.d.toNat
      checkIds h ad f.c.toNat mask
      offWindow h [((h.pair sa).toNat, 64)]
      let c ← getChip
      acceptMat h { MatOp.init .mv h c.seq f.mods mask with
        tile := tile, bslot := bits f.mods.toNat 4 2, desc := h.pair sa, sb := h.s f.b.toNat,
        ids := if ad then idsOf h f.c.toNat else [] }) s

/-! ## TZERO, TMOV, TDRN (R204, R205, R414, R415) -/

/-- TZERO. -/
def execTzero (f : TileF) (s : State) : Host.Outcome State Fault Refusal :=
  runZha 8 (issue 8 f.stall.toNat { Uses.none with ps := guardPs f.g } fun h => do
    let tile ← physTile h f.d.toNat
    let c ← getChip
    acceptMat h { MatOp.init .tzero h c.seq 0 (h.lanes f.g) with tile := tile }) s

/-- TMOV. -/
def execTmov (f : TileF) (s : State) : Host.Outcome State Fault Refusal :=
  runZha 8 (issue 8 f.stall.toNat { Uses.none with ps := guardPs f.g } fun h => do
    let dst ← physTile h f.d.toNat
    let src ← physTile h f.a.toNat
    let c ← getChip
    acceptMat h { MatOp.init .tmov h c.seq 0 (h.lanes f.g) with tile := dst, tile2 := src }) s

/-- Registers of a register-form drain (R204). -/
def drainRegs (dt : BitVec 4) : Nat := 8 * tagBytes dt

/-- The DTAG that the register form reads at issue. -/
def readDtag (h : Here) (va : Addr) : Act (BitVec 4) := do
  checkLanes [(0, va)] (fun a => a.toNat % 64 ≠ 0) causeAlign 0
  let a : Access := ⟨h.actor, 0, false, 0, false⟩
  let xs ← globalRead h ⟨false, false, false, false⟩ (Use.load h.user) 4 a [(0, va + 4)]
  each xs (traceLane h.tid 4)
  let bs ← mapAct xs fun x => readLane h.core 4 x
  let t := BitVec.ofNat 4 (bits (fromLE bs.flatten) 2 4)
  if drainTag t then return t else trap causeTag

/-- TDRN. -/
def execTdrn (f : MatF) (s : State) : Host.Outcome State Fault Refusal :=
  let reg := f.mods.getLsbD 0
  let sb := f.b.toNat
  let a := f.a.toNat
  runZha 8 (issue 8 f.stall.toNat
    { Uses.none with ss := [sb, sb + 1] ++ (if reg then [] else [a, a + 1]), ps := guardPs f.g } fun h => do
      let mask := h.lanes f.g
      let tile ← physTile h f.d.toNat
      offWindow h [((h.pair sb).toNat, 64)]
      let c ← getChip
      let o := { MatOp.init .tdrn h c.seq f.mods mask with tile := tile, desc := h.pair sb }
      if reg then do
        let t ← readDtag h (h.pair sb)
        let m := drainRegs t
        if a + m > h.grp.alloc then trap causeBound 2 else pure ()
        if c.usesPending h.g mask { Uses.none with vd := (List.range m).map fun q => a + q } then notReady else pure ()
        acceptMat h { o with vd := a, dtag := t.toNat }
      else do
        let rcd := h.pair a
        checkRecord h.team.scrUnits rcd drainTag
        let r := OpRec.of rcd
        if r.rows = 32 && r.len = 8 * tagBytes r.tag then pure () else trap causeBound 4
        acceptMat h { o with rcd := rcd, dtag := r.tag.toNat }) s

/-! ## Batches (R198, R374, R384) -/

/-- The open set closes as the next batch, newest first. -/
def Group.closeBatch (x : Group) : Group :=
  { x with batches := ⟨x.batchNo, x.openSet⟩ :: x.batches, openSet := [], batchNo := (x.batchNo + 1) % 65536 }

/-- MBAT. -/
def execMbat (f : ScalarPairF) (s : State) : Host.Outcome State Fault Refusal :=
  runZha 8 (issue 8 f.stall.toNat { Uses.none with sd := [f.sd.toNat], ps := guardPs f.g } fun h =>
    onceIf h f.g (do
      modGroup h.g Group.closeBatch
      setS h f.sd.toNat (BitVec.ofNat 32 h.grp.batchNo))) s

/-- MWAIT. -/
def execMwait (f : ScalarPairF) (s : State) : Host.Outcome State Fault Refusal :=
  runZha 8 (issue 8 f.stall.toNat { Uses.none with ss := [f.sa.toNat], sd := [f.sd.toNat], ps := guardPs f.g } fun h =>
    onceIf h f.g (do
      let n := (h.s f.sa.toNat).toNat
      match (← getChip).mwaitStatus h.core h.grp n with
      | some st => setS h f.sd.toNat (BitVec.ofNat 32 st)
      | none => parkOn h (.mwait n f.sd.toNat))) s

/-! ## TALLOC and TFREE (R191) -/

/-- The map of logical tiles to physical ones. -/
def tileMap (ts : List Nat) : Addr := BitVec.ofNat 64 (ts.zipIdx.foldl (fun n t => n + t.1 * 2 ^ (4 * t.2)) 0)

/-- Tiles zeroed. -/
def zeroTiles (core : Nat) (ts : List Nat) : Act Unit :=
  modCore core fun k => { k with tiles := k.tiles.filter fun e => !ts.contains (e.1 / 4096) }

/-- TALLOC. -/
def execTalloc (f : ScalarPairF) (s : State) : Host.Outcome State Fault Refusal :=
  let map := f.map = 1
  let sd := f.sd.toNat
  runZha 8 (issue 8 f.stall.toNat
    { Uses.none with
      ss := if map then [] else [f.sa.toNat], sd := if map then [sd, sd + 1] else [sd], ps := guardPs f.g } fun h =>
    onceIf h f.g (do
      if map then setPair h sd (tileMap h.team.tiles)
      else do
        let target := min (h.s f.sa.toNat).toNat 16
        let more := ((← getChip).freeTiles h.core).take (target - h.team.tiles.length)
        zeroTiles h.core more
        modTeam h.tid fun t => { t with tiles := t.tiles ++ more }
        setS h sd (BitVec.ofNat 32 (h.team.tiles.length + more.length)))) s

/-- TFREE. -/
def execTfree (f : ScalarPairF) (s : State) : Host.Outcome State Fault Refusal :=
  runZha 8 (issue 8 f.stall.toNat { Uses.none with ss := [f.sa.toNat], ps := guardPs f.g } fun h =>
    onceIf h f.g (do
      let n := (h.s f.sa.toNat).toNat
      if n ≥ h.team.tiles.length then pure ()
      else do
        let gone := h.team.tiles.drop n
        if ((← getChip).core h.core).order.any fun o => o.2.status.isNone &&
            (gone.contains o.2.tile || gone.contains o.2.tile2) then notReady else pure ()
        modTeam h.tid fun t => { t with tiles := t.tiles.take n })) s

end Sys2Proof.Machine
end

