-- ==== Sys2Proof/Machine/Control.lean ====
section
/-! DEFINITION. Control flow: STALL, branches, calls, jumps, the per-lane branch that splits a path, and unassigned
encodings (R20-R23, R60). -/

namespace Sys2Proof.Machine

/-- The lowest free entry of a group's path table (R21). -/
def Group.freePath (x : Group) : Option Nat := (List.range 4).find? fun i => (mget? x.paths i).isNone

/-- A split (R21): with a free table entry the taken side takes it; otherwise, and at handler level always (R259), the
side with the higher PC is pushed and the path goes on with the lower. -/
def splitPath (h : Here) (fall taken : Addr) (mask : BitVec 32) : Act Unit := do
  let now ← clock
  let rest := h.mask &&& ~~~mask
  let ready := match (← getChip).path? h.g h.p with
    | some x => x.readyAt
    | none => now
  match if h.path.level = .normal then h.grp.freePath else none with
  | some q => do
    modPath h.g h.p fun x => { x with pc := fall, mask := rest }
    modGroup h.g fun x => { x with paths := mset x.paths q { Path.start taken mask now with readyAt := ready } }
  | none =>
    if h.path.sides.length ≥ 16 then trap causeBound 1
    else
      let (lo, hi) : Side × Side :=
        if fall.toNat ≤ taken.toNat then (⟨fall, rest, none⟩, ⟨taken, mask, none⟩) else (⟨taken, mask, none⟩, ⟨fall, rest, none⟩)
      modPath h.g h.p fun x => { x.setSides (hi :: x.sides) with pc := lo.pc, mask := lo.mask }

/-- STALL: the path waits n clk beyond its stall field; n counts in encoded distances (R53, R65, R410). -/
def execStall (f : StallF) (s : State) : Host.Outcome State Fault Refusal :=
  runZha 4 (issue 4 (f.stall.toNat + f.n.toNat) Uses.none fun _ => pure ()) s

/-- The target of a signed offset in halfwords from the instruction's own address. -/
def branchTarget (h : Here) (off : BitVec n) : Addr := h.path.pc + 2 * signExt off

/-- BRA (R340). -/
def execBra (f : BrF) (s : State) : Host.Outcome State Fault Refusal :=
  runZha 4 (issue 4 f.stall.toNat Uses.none fun h => jumpTo h (branchTarget h f.off)) s

/-- The link pair S158:S159, readable after 2 clk (R63, R343). -/
def writeLink (h : Here) (stall : Nat) (pc : Addr) : Act Unit := do
  writeS h 2 stall 158 (pc.extractLsb' 0 32)
  writeS h 2 stall 159 (pc.extractLsb' 32 32)

/-- CALL (R343). -/
def execCall (f : BrF) (s : State) : Host.Outcome State Fault Refusal :=
  runZha 4 (issue 4 f.stall.toNat { Uses.none with sd := [158, 159] } fun h => do
    writeLink h f.stall.toNat (h.path.pc + 4)
    jumpTo h (branchTarget h f.off)) s

/-- BRP: any, all and none move the whole path; uniform is per lane and splits it (R52, R342). -/
def execBrp (f : BpF) (s : State) : Host.Outcome State Fault Refusal :=
  runZha 4 (issue 4 f.stall.toNat { Uses.none with ps := [f.p.toNat] } fun h =>
    let m := h.pr f.p.toNat &&& h.mask
    let t := branchTarget h f.off
    let fall := h.path.pc + 4
    match f.mode.toNat with
    | 0 => jumpTo h (if m ≠ 0 then t else fall)
    | 1 => jumpTo h (if m = h.mask then t else fall)
    | 2 => jumpTo h (if m = 0 then t else fall)
    | _ =>
      if m = 0 then jumpTo h fall
      else if m = h.mask || t = fall then jumpTo h t
      else splitPath h fall t m) s

/-- The conditions of BR (R339). -/
def brHit (cond : Nat) (a b : Word) : Bool :=
  match cond with
  | 0 => a = b
  | 1 => a ≠ b
  | 2 => a.slt b
  | 3 => !a.slt b
  | 4 => a.ult b
  | _ => !a.ult b

/-- BR: one comparison for the group moves the whole path (R339). -/
def execBr (f : BrXF) (s : State) : Host.Outcome State Fault Refusal :=
  runZha 8 (issue 8 f.stall.toNat
    { Uses.none with ss := f.sa.toNat :: (if f.imm = 1 then [] else [f.sb.toNat]), ps := guardPs f.g } fun h =>
    onceIf h f.g (
      let b := if f.imm = 1 then f.sb.signExtend 32 else h.s f.sb.toNat
      if brHit f.cond.toNat (h.s f.sa.toNat) b then jumpTo h (branchTarget h f.off) else pure ())) s

/-- A jump through a pair, with the link written when asked (R365, R398). -/
def jumpPair (f : JmpF) (link : Bool) : Act Unit :=
  let sa := f.sa.toNat
  issue 8 f.stall.toNat
    { Uses.none with ss := [sa, sa + 1], sd := if link then [158, 159] else [], ps := guardPs f.g } fun h =>
    onceIf h f.g (do
      let t := h.pair sa
      checkTarget t
      if link then writeLink h f.stall.toNat (h.path.pc + 8) else pure ()
      jumpTo h t)

/-- JMP (R365). -/
def execJmp (f : JmpF) (s : State) : Host.Outcome State Fault Refusal := runZha 8 (jumpPair f (f.l = 1)) s

/-- RET (R398). -/
def execRet (f : JmpF) (s : State) : Host.Outcome State Fault Refusal := runZha 8 (jumpPair f false) s

/-- An unassigned encoding traps ILLEGAL, with the EMU block filled (R60-R62). -/
def execUnassignedEncoding (f : UnassignedF) (s : State) : Host.Outcome State Fault Refusal :=
  runZha f.len (do
    let _ ← here
    stop (.trap ⟨causeIllegal, 0, 0, 0, 0, [], false, f.w0, f.w1⟩)) s

end Sys2Proof.Machine
end

