-- ==== Sys2Proof/Machine/Issue.lean ====
section
/-! DEFINITION. The issue check of a path: sides that join, swap, merge or hold each other, reports due at the next issue,
and the fetch of the instruction (R22, R31, R47, R113, R262, R276). -/

namespace Sys2Proof.Machine

/-! ## Sides and holds (R22) -/

/-- Stack entries at the running PC pop into the running side. -/
def Path.popEqual (p : Path) : Path :=
  let same := p.sides.filter fun x => x.wait.isNone && x.pc = p.pc
  { p.setSides (p.sides.filter fun x => !(x.wait.isNone && x.pc = p.pc)) with
    mask := same.foldl (fun m x => m ||| x.mask) p.mask }

/-- The swap row: the running side gives way to a lower stack entry unless it is shielded. -/
def Path.swapLower (p : Path) (now : Nat) : Path :=
  match takeLowest p.sides with
  | some (x, r) =>
    if !p.shielded && x.pc.toNat < p.pc.toNat then
      { p.setSides (⟨p.pc, p.mask, none⟩ :: r) with pc := x.pc, mask := x.mask, runSince := now }
    else p
  | none => p

/-- Whether a path is parked in the sense of R22: waiting, held by the debugger, or within a YIELD's clk. -/
def Path.parked (p : Path) (now : Nat) : Bool := p.wait.isSome || p.dbgHeld || p.yieldUntil > now

/-- Whether a path takes part in merges and holds: at normal level and not parked (R259). -/
def Path.contends (p : Path) (now : Nat) : Bool := p.level = .normal && !p.parked now

/-- Whether a path is held: an unparked path of the group stands at a lower PC, and it is not exempt. -/
def Group.heldPath (x : Group) (i : Nat) (now : Nat) : Bool :=
  match mget? x.paths i with
  | some p => p.contends now && !p.exempt && x.paths.any fun q => q.1 ≠ i && q.2.contends now && q.2.pc.toNat < p.pc.toNat
  | none => false

/-- Since when each path of a group has been held without interruption. -/
def Group.refreshHolds (x : Group) (now : Nat) : Group :=
  { x with paths := x.paths.map fun e =>
      (e.1, { e.2 with heldSince := if x.heldPath e.1 now then some (e.2.heldSince.getD now) else none }) }

/-- Two merged paths: the lower index survives with both masks and stacks, and earns its exemption anew (R22, R32); the shield
and the time since it became running are the model's choice (assumption 69). -/
def mergePaths (p q : Path) : Path :=
  { p with mask := p.mask ||| q.mask, stack := p.stack ++ q.stack, readyAt := max p.readyAt q.readyAt, exempt := false,
           shielded := p.shielded && q.shielded, late := p.late ++ q.late, holdReq := p.holdReq || q.holdReq,
           blocked := p.blocked <|> q.blocked, refuseGrow := p.refuseGrow || q.refuseGrow }

/-- The partner with which a path merges at its issue check. -/
def Group.partner (x : Group) (i now : Nat) : Option Nat :=
  match mget? x.paths i with
  | none => none
  | some p =>
    if !p.contends now then none
    else (x.paths.find? fun q => q.1 ≠ i && q.2.contends now && q.2.pc = p.pc && q.2.blocked.isNone && p.blocked.isNone &&
      p.stack.length + q.2.stack.length ≤ 16).map Prod.fst

/-- A path after the rows of R22 that concern its own sides: entries popped, the lowest side running, entries popped. -/
def Path.settle (p : Path) (now : Nat) : Path := (p.popEqual.swapLower now).popEqual

/-- The group after the merges of a path, `n` at most, each settled anew; answers where the path is now. -/
def Group.mergeAt (now : Nat) : Nat → Group → Nat → Group × Nat
  | 0, x, i => (x, i)
  | n + 1, x, i =>
    match x.partner i now with
    | none => (x, i)
    | some j =>
      let lo := min i j
      let hi := max i j
      match mget? x.paths lo, mget? x.paths hi with
      | some p, some q =>
        Group.mergeAt now n { x with paths := mset (merase x.paths hi) lo ((mergePaths p q).settle now) } lo
      | _, _ => (x, i)

/-- The group at the issue check of a path: the sides of every path that contends settled, then the path merged; and the
path's index. -/
def Group.issueCheck (x : Group) (i now : Nat) : Group × Nat :=
  let x := { x with paths := x.paths.map fun e => (e.1, if e.1 = i || e.2.contends now then e.2.settle now else e.2) }
  let (x, i) := Group.mergeAt now 3 x i
  (x.refreshHolds now, i)

/-! ## Holds by the debugger (R276, R277) -/

/-- A path stops for the debugger: a supervisor frame with the cause, a report record, and the path held. A path that
already stands at supervisor level keeps its frame (R254). -/
def holdStop (g p cause data recKind : Nat) : Act Unit := do
  let c ← getChip
  match c.here? g p with
  | none => pure ()
  | some h => do
    let info : TrapInfo := ⟨cause, data, 0, 0, 0, [], false, 0, 0⟩
    match h.path.level, (c.ctx h.ctx).area with
    | .supervisor, _ => pure ()
    | _, none => pure ()
    | lvl, some a => do
      let code : Word := BitVec.ofNat 32 (cause + data * 65536)
      let replays := (c.pathLoads g p).take 8
      let ilen ← frameIlen h
      modChip fun c => { c with memq := c.memq.filter fun o => !(replays.any fun m => m.seq = o.seq) }
      writeFrame (a.pa + c.frameOff h.ctx g p 1) h h.path.pc code info ilen 1 (lvl = .user) replays 0
      modGroup g fun x => x.settleHazards h.path.mask
      modPath g p fun x => { x with
        cause := code
        supFrame := some { pc := h.path.pc, mask := h.path.mask, cause := code, nested := lvl = .user, replays := replays,
                           heldStore := none, serial := h.slot.inc.toNat } }
    modPath g p fun x => { x with dbgHeld := true, holdReq := false, heldSince := none }
    report h.ctx ⟨recKind, cause, data, h.agent.toNat, h.path.pc, 0, h.run.lid, h.run.runNo, h.team.num, false, false, p, h.path.mask⟩

/-! ## Fetch -/

/-- The instruction at a path's PC (R47): an address outside global memory raises ACCESS, a byte that does not translate
raises PAGE at the instruction's first byte. -/
def fetchInstr (h : Here) : Act Instr := do
  let c ← getChip
  let pc := h.path.pc
  match c.region pc with
  | .bad => trap causeAccess 5 pc
  | .opm => trap causeAccess 6 pc
  | .mailbox => trap causeAccess 4 pc
  | .global => do
    let fwin ← frameWindow h.ctx
    let code := fun (n : Nat) => do
      if meetsWindow fwin pc.toNat n then trap causeAccess 8 pc else pure ()
      match ← fetchCode h.core h.runId h.ctx h.user pc.toNat n with
      | .error e => trap e.1 e.2.1 (BitVec.ofNat 64 e.2.2)
      | .ok bs => pure bs
    let b0 ← code 2
    let b1 ← code (wordLength (leNat b0))
    let bs ← code (wordLength (leNat (b1.take 2)))
    match decode bs with
    | some (i, _) => return i
    | none => notReady

/-! ## Slot classes (R53, R59) -/

/-- The slot class of a base word's major (R53): 0 ALU, 1 M, 2 C. -/
def baseSlot (major : Nat) : Nat :=
  if major = 0 || (19 ≤ major && major ≤ 23) then 2 else if 24 ≤ major && major ≤ 28 then 1 else 0

/-- The slot class of an X form's major and minor (R59). -/
def xSlot (major minor : Nat) : Nat :=
  if major = 49 || major = 51 || major = 53 || major = 56 then 2
  else if major = 52 || major = 54 || major = 55 || (major = 50 && minor ≤ 3) then 1
  else 0

/-- The slot class of an instruction; an unassigned encoding takes the ALU slot unless its major names another
(assumption 81). -/
def slotClass (i : Instr) : Nat :=
  match i.enc with
  | some (2, _) => 0
  | some (4, w) => baseSlot (bits w 1 6)
  | some (_, w) => xSlot (bits w 1 6) (bits w 32 8)
  | none => 0

/-- What an issue check comes to: an instruction to run on a state, or only a state. -/
inductive Issued where
  | run (i : Instr) (s : State)
  | stay (s : State)
  deriving DecidableEq, Repr

/-- What names a path that has merged into another names that one: its accesses, monitors, growth requests and samples. -/
def Chip.renamePath (c : Chip) (g from_ into : Nat) : Chip :=
  ({ c with
    memq := c.memq.map fun o =>
      if o.who.slot = g && o.who.agent = c.agent g && o.who.path = from_ then { o with who := { o.who with path := into } } else o
    mons := c.mons.map fun m => if m.slot = g && m.path = from_ then { m with path := into } else m } : Chip).modCore (slotCore g)
    fun k => { k with
      growers := k.growers.map fun e => if e.1 = g && e.2.1 = from_ then (g, into, e.2.2) else e
      due := k.due.map fun d => if d.slot = g && d.path = from_ then { d with path := into } else d }

/-- The chip with the paths of a group that have merged away renamed. -/
def Chip.renamePaths (c : Chip) (g into : Nat) (gone : List Nat) : Chip := gone.foldl (fun c j => c.renamePath g j into) c

/-- The paths of a group that an issue check has merged away. -/
def Group.gone (x y : Group) : List Nat := (x.paths.map Prod.fst).filter fun j => (mget? y.paths j).isNone

/-- The state with a group's paths after an issue check. -/
def State.checked (s : State) (g : Nat) (x : Group) : State := { s with chip := s.chip.setGroup g x }

/-- A transaction's outcome where the path only changes state. -/
def State.after (s : State) (a : Act Unit) : State :=
  match a s.tx with
  | .ok (_, t) => s.commit t
  | .error _ => s

/-- The clk from which a path's stall and YIELD let it issue (R31, R420). -/
def Path.issueAt (p : Path) : Nat := max p.readyAt p.yieldUntil

/-- The issue check of a path (R22, R31): nothing issues while it is parked, held, blocked by a check, held by the debugger
or within a stall, its own or one that a merge brings (R32), and no M-class instruction beside eight register-writing accesses
that have not been sent (R258); a deferred STORE_LATE or a debugger's request stops it here;
else its instruction is fetched, a fetch fault being taken as a trap that counts no instruction. -/
def issuePath (g p : Nat) (s : State) : Issued :=
  match s.chip.group? g with
  | none => .stay s
  | some x =>
    match mget? x.paths p with
    | none => .stay s
    | some p0 =>
      if p0.dbgHeld || p0.wait.isSome || p0.blocked.isSome || s.clk < p0.issueAt || s.chip.saving x.tid then .stay s
      else
        let (y, i) := x.issueCheck p s.clk
        let s := { s.checked g y with actor := (g, i) }
        let s := { s with chip := s.chip.renamePaths g i (x.gone y) }
        match mget? y.paths i with
        | none => .stay s
        | some q =>
          if q.heldSince.isSome || s.clk < q.issueAt then .stay s
          else if q.holdReq then .stay (s.after (holdStop g i causeHold 0 3))
          else
            match if q.level = .supervisor then [] else q.late with
            | seq :: rest =>
              match s.chip.op? seq with
              | none => .stay { s with chip := s.chip.modPath g i fun y => { y with late := rest } }
              | some o =>
                let s := { s with chip := s.chip.modPath g i fun y => { y with late := rest } }
                let lane := (o.lanes.find? fun l => l.va = o.faultVa).map LaneAcc.lane
                .stay (s.after (takeTrap g i ⟨causeStoreLate, 0, o.faultVa, lane.getD 0, 0, [], false, 0, 0⟩ 0 none (some o) [] false))
            | [] =>
              match s.chip.here? g i with
              | none => .stay s
              | some h =>
                match fetchInstr h s.tx with
                | .ok (ins, t) =>
                  if slotClass ins = 1 && 8 ≤ (s.chip.pathLoads g i).length then .stay (s.commit t) else .run ins (s.commit t)
                | .error (.trap t) => .stay (s.after (takeTrap g i t 0 none none [] false))
                | .error _ => .stay s

/-- Holds of the acting group as they stand after its issue. -/
def refreshActing (s : State) : State :=
  match s.chip.group? s.actor.1 with
  | some x => s.checked s.actor.1 (x.refreshHolds s.clk)
  | none => s

end Sys2Proof.Machine
end

