-- ==== Sys2Proof/Machine/MemEvents.lean ====
section
/-! DEFINITION. What happens to accesses after issue: a load's data returns, stores, atomics and reductions perform, lines
leave caches, walks of retired stores fault and are reported, and samples are written. -/

namespace Sys2Proof.Machine

/-- The pending access that an event names, which must be of a kind and may perform now. -/
def readyOp (seq : Nat) (kinds : MemKind → Bool) : Act MemOp := do
  let o ← someOr ((← getChip).op? seq)
  walkEarlier o.who seq
  enabled (kinds o.kind && !o.held && (← getChip).mayPerform o)
  return o

/-- The scratch bytes of its core that an on-chip lane reaches. -/
def Chip.opmScratch (c : Chip) (n : Nat) (x : LaneAcc) : List (Nat × Nat) :=
  let off := opmOff x.pa
  if x.space = .opm && opmKind x.pa = 1 then
    (fullGrans off n).filterMap fun w => (c.scrPos (opmCore x.pa) (16 * w)).map fun p =>
      (p + (off - 16 * w), min (off + n) (16 * w + 16) - max off (16 * w))
  else []

/-- Whether an on-chip range holds what an incomplete matrix operation still names: tiles, registers of a register-form drain,
and scratch bytes (R101, R197). -/
def Chip.opmHeld (c : Chip) (n : Nat) (x : LaneAcc) : Bool :=
  x.space = .opm &&
    (let core := opmCore x.pa
     let off := opmOff x.pa
     match opmKind x.pa with
     | 0 => (List.range ((n + 3) / 4)).any fun k =>
       let (g, r, i) := opmReg core (off + 4 * k)
       c.regPending g (BitVec.ofNat 32 (2 ^ i)) .vector r
     | 1 => (c.opmScratch n x).any fun r => c.matHolds core (fun _ => true) r.1 r.2
     | 2 => (List.range ((off + n - 1) / 0x4000 + 1 - off / 0x4000)).any fun k => (c.core core).order.any fun o =>
       o.2.status.isNone && (o.2.tile = off / 0x4000 + k || o.2.tile2 = off / 0x4000 + k)
     | _ => false)

/-! ## Checks at the home (R163, R168) -/

/-- The judgements of an access by its lanes: on-chip lanes as OPM accesses (kind 11 for a write), the others as `kind`. -/
def judgeLanes (o : MemOp) (kind : Nat) (sync write : Bool) (xs : List LaneAcc) :
    Act (List (Access × GranLanes × List (Gran × Verdict × Nat))) := do
  let c ← getChip
  let on := fun k => (⟨o.who, k, sync, o.scope, write⟩ : Access)
  let mem := lanesGrans c o.size (xs.filter fun x => x.space ≠ .opm)
  let opm := lanesGrans c o.size (xs.filter fun x => x.space = .opm)
  let opmKind := if write then 11 else kind
  let a ← judgeAll (on kind) mem
  let b ← judgeAll (on opmKind) opm
  return [(on kind, mem, a), (on opmKind, opm, b)]

/-- The path of an access that was judged RACE under TRAP goes back to its instruction and traps there. -/
def trapBack (who : Actor) (seq : Nat) (t : TrapInfo) : Act Unit := do
  dropOp seq
  if (← getChip).stillThere who then do
    modPath who.slot who.path fun x => { x with pc := who.pc, blocked := none }
    takeTrap who.slot who.path t 8 none none [] false
  else pure ()

/-- The path whose running side holds lanes of an access, and may take a trap for it: one that is not parked, or parked on
a fence, which waits for the access. -/
def Chip.holderOf (c : Chip) (o : MemOp) : Option (Nat × Path) :=
  (c.group? o.who.slot).bind fun x => x.paths.find? fun e =>
    e.2.mask &&& o.who.mask ≠ 0 && !e.2.dbgHeld && e.2.heldSince.isNone && (match e.2.wait with
      | none => true
      | some (.fence _) => true
      | _ => false)

/-- Whether a lane of an access still lives in its group. -/
def Chip.lanesLive (c : Chip) (o : MemOp) : Bool :=
  c.stillThere o.who && (c.group? o.who.slot).any fun x => x.live &&& o.who.mask ≠ 0

/-- A trap of an access after its issue, with the access not performed. A path that still waits for its check traps at its
instruction (R163). One that has gone on past a register-writing access, as after poison (R120) or a re-issue (R260), traps at
the access's instruction with the access as a replay entry, and resumes where it stood (R258; assumption 88). An access whose
lanes have ended ends with them. -/
def lateTrap (o : MemOp) (t : TrapInfo) : Act Unit := do
  let c ← getChip
  let waits := (c.path? o.who.slot o.who.path).any fun y => y.blocked = some o.seq
  if !c.lanesLive o then dropOp o.seq
  else if waits && o.again = 0 then trapBack o.who o.seq t
  else do
    let (p, y) ← someOr (c.holderOf o)
    dropOp o.seq
    modPath o.who.slot p fun z => { z with pc := o.who.pc }
    takeTrap o.who.slot p t 8 (some y.pc) none [{ o with who := { o.who with path := p } }] false

/-- A register-writing access finds poison in a lane (R120). -/
def lateEcc (o : MemOp) (x : LaneAcc) : Act Unit := lateTrap o ⟨causeEcc, 0, x.va, x.lane, 0, [], false, 0, 0⟩

/-- An access is judged at its home: on RACE under TRAP nothing performs and its path traps, otherwise the verdicts are
logged and `perform` follows. -/
def atHome (o : MemOp) (kind : Nat) (sync write : Bool) (xs : List LaneAcc) (perform : List (Access × Gran) → Act Unit) :
    Act Unit := do
  let js ← judgeLanes o kind sync write xs
  let recs := js.flatMap fun j => verdictRecs j.1 j.2.2
  match js.findSome? fun j => raceTrap j.1 j.2.1 j.2.2 with
  | some t => lateTrap o { t with races := recs }
  | none => do
    each recs (raceNote o.who.mode)
    perform (js.flatMap fun j => j.2.2.map fun v => (j.1, v.1))

/-! ## Loads (R368, R404) -/

/-- What an acquiring or plain read leaves: the merge of its granules' records, or the records themselves for a later fence. -/
def readLearns (o : MemOp) (gs : List Gran) : Act Unit :=
  if o.acq then each gs fun g => acquireGran g o.who o.scope o.seq else each gs (rememberLoad o.who)

/-- The loaded bytes of each lane in the registers that an access names. -/
def Group.takeLoad (x : Group) (o : MemOp) (bs : List (Nat × List Byte)) : Group :=
  if o.kind = .load then bs.foldl (fun x b => x.setLane o.dst o.regs o.tag b.1 b.2) x
  else bs.foldl (fun x b => (List.range o.regs).foldl (fun x k =>
    x.setS (o.dst + k) (BitVec.ofNat 32 (fromLE ((b.2.drop (4 * k)).take 4)))) x) x

/-- A load performs and its data returns: it is judged, its bytes are read, one access per lane, and its registers written. -/
def loadReturn (seq : Nat) : Act Unit := do
  let o ← readyOp seq fun k => k = .load || k = .sload
  let c ← getChip
  enabled (!o.lanes.any (c.opmHeld o.size))
  match o.lanes.find? (c.lanePoison o.size) with
  | some x => lateEcc o x
  | none =>
    atHome o (if o.acq then 2 else 0) o.acq false o.lanes fun gs => do
      let bs ← mapAct o.lanes fun x => do return (x.lane, ← readLane o.who.core o.size x)
      each gs fun g => markRead g.1 g.2
      dropOp seq
      if (← getChip).stillThere o.who then modGroup o.who.slot fun x => x.takeLoad o bs else pure ()
      readLearns o (gs.map Prod.snd)
      each o.lanes (traceLane o.who.tid o.size)
      unblock o.who seq
      settle

/-- LOAD_DATA_RETURN. -/
def execLoadDataReturn (op : Nat) (s : State) : Host.Outcome State Fault Refusal := runEvent (loadReturn op) s

/-! ## Stores (R127, R409) -/

/-- A store performs at its home. -/
def storePerform (seq : Nat) : Act Unit := do
  let o ← readyOp seq fun k => k = .store
  let xs ← placeLanes o
  let c ← getChip
  enabled (xs.all LaneAcc.bound && !xs.any (c.opmHeld o.size))
  each xs fun x => do enabled !(← residualHolds (opmCore x.pa) (fun _ => true) (c.opmScratch o.size x))
  atHome o (if o.rel then 3 else 1) o.rel true xs fun gs => do
    each xs fun x => writeLane o.who tagRAW (toLE o.size x.data) x
    clearCovered ((xs.filter fun x => x.space = .memory).map fun x => (x.pa, o.size))
    each gs fun g => markWrite g.1 g.2 o.relScope
    if o.rel then each gs fun g => releaseRecord g.2 o.who o.who.clock (max o.scope o.relScope) false else pure ()
    dropOp seq
    unblock o.who seq
    settle

/-- STORE_PERFORM. -/
def execStorePerform (op : Nat) (s : State) : Host.Outcome State Fault Refusal := runEvent (storePerform op) s

/-- STORE_WALK_FAULT: a retired store's walk faults, and the store is held (R113, R262). -/
def execStoreWalkFault (op : Nat) (s : State) : Host.Outcome State Fault Refusal :=
  runEvent (do
    let o ← someOr ((← getChip).op? op)
    enabled (o.kind = .store && !o.held)
    let x ← someOr ((← placeLanes o).find? fun x => !x.bound)
    modOp op fun y => { y with held := true, reported := false, faultVa := x.va }) s

/-- The report of a held store, by who is left to take it (R262). One that was reported to a path which has gone with its team
goes to the launch's fault log. -/
def storeLate (seq : Nat) : Act Unit := do
  let c ← getChip
  let o ← someOr (c.op? seq)
  enabled (o.held && (!o.reported || (mget? c.teams o.who.tid).isNone))
  let lid := match mget? c.runs o.who.run with
    | some r => (r.lid, r.runNo)
    | none => (0, 0)
  let rec_ := fun exited gone => (⟨2, causeStoreLate, 0, o.who.agent.toNat, o.who.pc, o.faultVa, lid.1, lid.2, o.who.team,
    exited, gone, o.who.path, o.who.mask⟩ : FaultRec)
  let path := if c.stillThere o.who then (c.group? o.who.slot).bind fun x => x.paths.head? else none
  match path with
  | some (p, _) => do
    modOp seq fun x => { x with reported := true }
    modPath o.who.slot p fun x => { x with late := x.late ++ [seq], blocked := none }
  | none =>
    if (mget? c.teams o.who.tid).isSome then do
      modOp seq fun x => { x with reported := true, exited := true }
      report o.who.ctx (rec_ true false)
    else do
      dropOp seq
      faultLog o.who.run (rec_ true true)

/-- STORE_LATE_REPORT. -/
def execStoreLateReport (op : Nat) (s : State) : Host.Outcome State Fault Refusal := runEvent (storeLate op) s

/-! ## ATOM (R118, R333) -/

/-- combine() of R333 by the operand's tag. -/
def atomCombine (op : Nat) (wide : Bool) (tag : BitVec 4) (old v cmp : Nat) : Nat :=
  let fmt := if tag = tagF32 then 2 else if wide then 3 else if tag = tagN32 then 1 else 0
  match op with
  | 6 => v
  | 7 => if old = cmp then v else old
  | _ => redCombine op fmt old v

/-- The record of an ATOM or MRED on a granule: its own release, or, after a completed .ar fence, that fence's (R133, R157). -/
def rmwRecord (o : MemOp) (g : Gran) : Act Unit :=
  if o.rel then releaseRecord g o.who o.who.clock (max o.scope o.relScope) true
  else releaseRecord g o.who (o.who.clock - 1) o.relScope true

/-- An ATOM performs its lanes at the home in increasing lane order and returns the prior values. -/
def atomPerform (seq : Nat) : Act Unit := do
  let o ← readyOp seq fun k => k = .atom
  match o.lanes.find? ((← getChip).lanePoison o.size) with
  | some x => lateEcc o x
  | none => atHome o 4 true true o.lanes fun gs => do
    let olds ← mapAct o.lanes fun x => do
      let old ← homeNat x.pa o.size
      let tag := BitVec.ofNat 4 (x.data / 2 ^ 64)
      homeWrite x.pa (toLE o.size (atomCombine o.op (o.size = 8) tag old (x.data % 2 ^ 64) x.cmp))
        (some (o.who.run, o.who.team))
      return (x.lane, tag, toLE o.size old)
    each gs fun g => markWrite g.1 g.2 0
    readLearns o (gs.map Prod.snd)
    each gs fun g => rmwRecord o g.2
    if (← getChip).stillThere o.who then
      modGroup o.who.slot fun x => olds.foldl (fun x e => x.setLane o.dst o.regs e.2.1 e.1 e.2.2) x
    else pure ()
    each o.lanes fun x => traceRead o.who.tid x.pa o.size
    traceNonreplay o.who.tid
    dropOp seq
    unblock o.who seq
    settle

/-- ATOM_HOME_PERFORM. -/
def execAtomHomePerform (op : Nat) (s : State) : Host.Outcome State Fault Refusal := runEvent (atomPerform op) s

/-! ## MRED (R116, R380) -/

/-- The lines that a core's L1 holds Update-only, and whether it can take one more: 256 KiB are 2 048 lines (R1). -/
def Core.updateLines (k : Core) : List Nat := distinct (k.partials.map fun e => e.1 / 128)
def Core.takesLine (k : Core) (line : Nat) : Bool := k.updateLines.contains line || k.updateLines.length < 2048

/-- A full L1 evicts a line for another; which one is a free value (assumption 101). -/
def makeRoom (core line : Nat) : Act Unit := do
  let k := (← getChip).core core
  if k.takesLine line then pure ()
  else do
    let n ← freeValue
    recallFrom (fun i => i = core) (k.updateLines.getD (n.toNat % k.updateLines.length) 0)

/-- A contribution combines into its partial. A differing operation or format first sends the line's partials home. -/
def combinePartial (core : Nat) (o : MemOp) (x : LaneAcc) : Act Unit := do
  let line := x.pa / 128
  let mine := ((← getChip).core core).partials
  let clash := mine.any fun e => e.1 / 128 = line && e.1 < x.pa + o.size && x.pa < e.1 + redWidth e.2.fmt &&
    (e.2.op ≠ o.op || e.2.fmt ≠ o.fmt)
  if clash then recallFrom (fun k => k = core) line else pure ()
  makeRoom core line
  modCore core fun k =>
    let p := (mget? k.partials x.pa).getD ⟨o.op, o.fmt, redStart o.op o.fmt, []⟩
    let q : Partial := { p with value := redCombine o.op o.fmt p.value x.data, who := p.who ++ [(o.who, o.scope)] }
    { k with partials := mset k.partials x.pa q }

/-- One lane of an MRED combines in its core's L1, judged as it does; under TRAP, where no lane may perform before every
lane has been judged (R163), all of them. -/
def mredCombine (seq lane : Nat) : Act Unit := do
  let o ← readyOp seq fun k => k = .mred
  let x ← someOr (o.lanes.find? fun l => l.lane = lane)
  let now := if o.who.mode = 2 then o.lanes else [x]
  let rest := o.lanes.filter fun l => !now.contains l
  atHome o 5 true true now fun gs => do
    each now (combinePartial o.who.core o)
    each gs fun g => rmwRecord o g.2
    modOp seq fun e => { e with lanes := rest }
    unblock o.who seq
    if rest.isEmpty then dropOp seq else pure ()

/-- MRED_COMBINE. -/
def execMredCombine (op lane : Nat) (s : State) : Host.Outcome State Fault Refusal := runEvent (mredCombine op lane) s

/-! ## Lines leave caches (R117, R166) -/

/-- L1_LINE_EVICT: Update-only partials of the line go home. -/
def execL1LineEvict (core line : Nat) (s : State) : Host.Outcome State Fault Refusal :=
  runEvent (do
    recallFrom (fun k => k = core) line
    settle) s

/-- L2_LINE_EVICT. -/
def execL2LineEvict (line : Nat) (s : State) : Host.Outcome State Fault Refusal := runEvent (foldLine line) s

/-! ## FEW (R104) -/

/-- FEW_FILL_OBTAINED: a path whose FEW read finds its granules full runs that read now, as its own issue would. -/
def execFewFillObtained (g p : Nat) (s : State) : Host.Outcome State Fault Refusal :=
  let t := { s with actor := (g, p) }
  match (do fetchInstr (← here)) t.tx with
  | .ok (.lds f, x) =>
    if f.few = 1 then
      match (do
          let h ← here
          enabled (h.team.saveBy.isNone && h.path.wait.isNone && h.path.blocked.isNone && !h.path.dbgHeld && h.path.heldSince.isNone &&
            h.path.readyAt ≤ t.clk && h.path.yieldUntil ≤ t.clk)) t.tx with
      | .ok _ => runZha 8 (ldsOp (memX f)) (t.commit x)
      | .error _ => .next s
    else .next s
  | _ => .next s

/-! ## Memory samples (R278, R279) -/

/-- A sample ring's bytes, where its command bound them (R301). -/
def ringRead (r : SampleRing) (off n : Nat) : Act (List Byte) := readPieces (subPieces r.pieces off n)

def ringWrite (r : SampleRing) (off : Nat) (bs : List Byte) : Act Unit := writePieces (subPieces r.pieces off bs.length) bs none

/-- A sample goes to a context's ring: 64 bytes where there is room, else DROPPED rises. -/
def writeSample (ctx : Nat) (bs : List Byte) : Act Unit := do
  whenSome ((← getChip).ctx ctx).sample fun r => do
    let hd ← ringRead r 0 64
    let size := recNat hd 0 4
    let wr := recNat hd 8 4
    if (wr + 2 ^ 32 - recNat hd 4 4) % 2 ^ 32 < size then do
      ringWrite r (64 + 64 * (wr % size)) bs
      ringWrite r 8 (toLE 4 (wr + 1))
    else ringWrite r 12 (toLE 4 (satInc (recNat hd 12 4)))

/-- MEMORY_SAMPLE: the next due sample of a path whose access has completed. Which lane's data came last and the clk spent
at each level are free values (assumption 6). -/
def execMemorySample (g p : Nat) (s : State) : Host.Outcome State Fault Refusal :=
  runEvent (do
    let c ← getChip
    let k := slotCore g
    let done := fun (d : Due) => match d.seq with
      | some n => !(c.memq.any fun o => o.seq = n) && !c.inReplay g n
      | none => true
    let d ← someOr ((c.core k).due.find? fun d => d.slot = g && d.path = p && done d)
    modCore k fun x => { x with due := x.due.erase d }
    let q ← freeValue
    let r ← freeValue
    writeSample d.ctx (toLE 4 (1 + 2 ^ 8 + p % 4 * 2 ^ 10) ++ toLE 4 d.agent.toNat ++ toLE 8 d.pc.toNat ++
      toLE 4 d.mask.toNat ++ toLE 4 d.lid.toNat ++ toLE 8 (← clock) ++ toLE 4 d.lanes.toNat ++
      toLE 4 (d.sect % 65536 + min d.again 255 * 2 ^ 16 + r.toNat % 32 * 2 ^ 24) ++ toLE 8 q.toNat ++ toLE 16 0)
    settle) s

end Sys2Proof.Machine
end

