-- ==== Sys2Proof/Machine/Copy.lean ====
section
/-! DEFINITION. Copies: box descriptors, slices and slice sets, sectors, digest-verified copies and completion objects
(R206-R216). -/

namespace Sys2Proof.Machine

/-! ## Box descriptors (R206) -/

structure Box4 where
  gbase : Addr
  obj : Addr
  box : List Nat
  stride : List Nat
  esz : Nat
  ndim : Nat
  tag : BitVec 4
  dg : Bool
  slices : Nat
  dbase : Addr
  clean : Bool
  deriving DecidableEq, Repr

def Box4.of (b : List Byte) : Box4 :=
  let w := recNat b 0x24 4
  let h := fun o => recNat b o 2
  { gbase := BitVec.ofNat 64 (recNat b 0 8), obj := BitVec.ofNat 64 (recNat b 8 8),
    box := [h 0x10, h 0x12, h 0x14, h 0x16], stride := [recNat b 0x18 4, recNat b 0x1C 4, recNat b 0x20 4],
    esz := bits w 0 3, ndim := bits w 3 2, tag := BitVec.ofNat 4 (bits w 5 4), dg := bits w 9 1 = 1, slices := bits w 10 5,
    dbase := BitVec.ofNat 64 (recNat b 0x28 8),
    clean := bits w 15 17 = 0 && (b.drop 0x30).take 16 = List.replicate 16 0 && (b.drop 0x60).all fun x => x = 0 }

def Box4.size (d : Box4) : Nat := 2 ^ d.esz
def Box4.ext (d : Box4) (k : Nat) : Nat := d.box.getD k 1
def Box4.elems (d : Box4) : Nat := d.ext 0 * d.ext 1 * d.ext 2 * d.ext 3
/-- B, the bytes of the stream. -/
def Box4.bytes (d : Box4) : Nat := d.size * d.elems

/-- The address of an element of the stream. -/
def Box4.elem (d : Box4) (e : Nat) : Addr :=
  let i := fun k => e / ((List.range k).foldl (fun n j => n * d.ext j) 1) % d.ext k
  d.gbase + BitVec.ofNat 64 (i 0 * d.size + i 1 * d.stride.getD 0 0 + i 2 * d.stride.getD 1 0 + i 3 * d.stride.getD 2 0)

/-- The first element of each row of dimension 0. -/
def Box4.rows (d : Box4) : List Addr := (List.range (d.ext 1 * d.ext 2 * d.ext 3)).map fun r => d.elem (r * d.ext 0)

/-- Whether a descriptor keeps R206 for a direction (0 .g2s, 1 .s2g, 2 .g2g) and an instruction's DG. -/
def Box4.ok (d : Box4) (dir : Nat) (dg : Bool) : Bool :=
  d.clean && d.esz ≤ 4 && d.tag ≠ 15 && d.dg = dg &&
    ([0, 1, 2, 3].all fun k => d.ext k ≥ 1 && (k ≤ d.ndim || d.ext k = 1)) &&
    (d.stride.all fun s => s % d.size = 0) && d.gbase.toNat % d.size = 0 &&
    (if dir = 2 then d.dbase.toNat % d.size = 0 else d.dbase = 0) && d.bytes ≤ 2 ^ 31

/-- Whether a slice set may move its stream: descriptor and record (R208). -/
def boxFits (d : Box4) (dir : Nat) (dg : Bool) (rcd : BitVec 64) : Bool :=
  let r := OpRec.of rcd
  d.ok dir dg && (dir = 2 || r.rows * r.len * 16 = d.bytes) && !(dir = 0 && (r.few || r.fec))

/-! ## Addresses of an object and a descriptor (R206, R208) -/

/-- A synchronous access waits for its group's pending ones that meet it, under whatever virtual address (R126, R130). -/
def awaitSame (h : Here) (va n : Nat) : Act Unit := do
  walkEarlier h.actor (← getChip).seq
  let at_ ← if (← getChip).region (BitVec.ofNat 64 va) = .global then translate h.core h.runId h.ctx (Use.load h.user) va
    else pure (.error 0)
  let c ← getChip
  let meets := fun (o : MemOp) => o.acq || o.lanes.any fun x =>
    (x.va.toNat < va + n && va < x.va.toNat + o.size) ||
      (match at_ with
        | .ok pa => x.space = .memory && x.bound && x.pa < pa + n && pa < x.pa + o.size
        | .error _ => false)
  if (c.groupOps h.g).any meets then notReady else pure ()

/-- The checks of a completion object's address. -/
def checkObject (h : Here) (obj : Addr) : Act Unit := do
  let hi := bits obj.toNat 56 8
  if hi > 1 then trap causeAccess 5 obj
  else if obj.toNat % 16 ≠ 0 then trap causeAlign 0 obj
  else if hi = 1 then
    if bits obj.toNat 0 56 + 16 > h.team.scrSize then trap causeBound 6 obj else pure ()
  else do
    checkSpaces h ⟨true, false, false, false⟩ 16 [(0, obj)]
    match ← translate h.core h.runId h.ctx (Use.rmw h.user) obj.toNat with
    | .ok _ => pure ()
    | .error k => trap causePage ((Use.rmw h.user).data k) obj

/-- The descriptor read as a synchronous load, in 64-byte pieces. -/
def readBox (h : Here) (va : Addr) (n : Nat) : Act (List Byte) := do
  let ls := (List.range (n / 64)).map fun k => (lowLane h.mask, va + BitVec.ofNat 64 (64 * k))
  awaitSame h va.toNat n
  let a : Access := ⟨h.actor, 0, false, 0, false⟩
  let xs ← globalRead h ⟨false, false, false, false⟩ (Use.load h.user) 64 a ls
  each xs (traceLane h.tid 64)
  let bs ← mapAct xs fun x => readLane h.core 64 x
  return bs.flatten

/-- The ranges of virtual addresses that a copy's box and destination cover; for a stream over the limit of R206, the first row
of the box. -/
def Box4.reach (d : Box4) (dir : Nat) : List (Bool × Addr × Nat) :=
  let row := d.ext 0 * d.size
  (if d.bytes ≤ 2 ^ 31 then d.rows else [d.gbase]).map (fun a => (decide (dir = 1), a, row)) ++
    (if dir = 2 then [(true, d.dbase, d.bytes)] else [])

/-- The on-chip ranges that a copy reads or writes (R100). -/
def Chip.boxOpm (c : Chip) (d : Box4) (dir : Nat) : List (Nat × Nat) :=
  ((d.reach dir).filter fun x => c.region x.2.1 = .opm).map fun x => (x.2.1.toNat % 2 ^ 31, x.2.2)

/-- The R99 code of a range that lies in the on-chip map, 0 elsewhere. -/
def Chip.boxCode (c : Chip) (h : Here) (write : Bool) (a : Addr) (n : Nat) : Nat :=
  if c.region a = .opm then c.opmCheck h.run.lid h.run.part (h.path.level = .supervisor) write a.toNat n else 0

/-- The checks of GBASE, DBASE and of on-chip boxes. -/
def checkBox (h : Here) (d : Box4) (dir : Nat) : Act Unit := do
  let c ← getChip
  let ends := [(0, d.gbase)] ++ (if dir = 2 then [(0, d.dbase)] else [])
  let fwin ← frameWindow h.ctx
  checkLanes ends (fun a => c.region a = .bad) causeAccess 5
  checkLanes ends (inWindow fwin) causeAccess 8
  checkLanes ends (fun a => c.region a = .mailbox) causeAccess 4
  match (d.reach dir).find? fun x => meetsWindow fwin x.2.1.toNat x.2.2 with
  | some x => trap causeAccess 8 x.2.1
  | none => pure ()
  match (d.reach dir).find? fun x => c.boxCode h x.1 x.2.1 x.2.2 ≠ 0 with
  | some x => trap causeAccess (c.boxCode h x.1 x.2.1 x.2.2) x.2.1
  | none => pure ()

/-- The check of .dg's lease. -/
def checkDigest (h : Here) (w : Word) : Act Nat := do
  match (← getChip).leaseBy h.tid w with
  | none => trap causeLeaseLost (if h.team.lostHandle w then 4 else 3)
  | some (uid, l) =>
    if l.state = .revoked then trap causeLeaseLost 2
    else if l.cls ≠ 2 then trap causeLeaseLost 5
    else if l.state = .queued || l.state = .waking then notReady
    else return uid

/-! ## Slices and posting (R208, R213, R214) -/

/-- The posted copies of a core that still have sectors to move. -/
def Chip.movingCopies (c : Chip) (core : Nat) : Nat := (c.copies.filter fun o => o.2.core = core && o.2.moving).length

/-- The copy's actor: the completing group's at its slice, which has learned what every slice's group had done and knew (R138,
R139). -/
def SliceSet.agent (set : SliceSet) (c : Chip) (who : Actor) : Actor :=
  set.after.foldl (fun w a =>
    if sameGroup a.1 who then w
    else
      let r : SyncRec :=
        ⟨0, a.1.run, a.1.agent, a.1.team, a.1.index, a.1.clock, 0, a.1.chk.vec, a.1.chk.know, false, 0⟩
      { w with chk := c.mergeInto w w.chk r }) who

/-- The posting of a complete set by its last slice's group, and its copy where its sectors may move. -/
def postSet (h : Here) (d : Box4) (set : SliceSet) (lease : Option Nat) : Act Unit := do
  let who := set.agent (← getChip) h.actor
  let _ ← publish h.g
  let fit := !set.bad && boxFits d set.dir set.dg set.rcd
  let obj ← objRead h.tid h.ctx set.obj
  let room := match obj with
    | some b => recNat b 0 4 + d.bytes < 2 ^ 32
    | none => true
  objUpdate h.tid h.ctx set.obj fun (e, a, n, s) =>
    (if fit && room then e + d.bytes else e, a, n - 1,
     if fit && room || s ≠ 0 then s else if fit then 12 else 5)
  if fit && room then do
    let c ← getChip
    let feed := lease.map fun _ => c.engNext
    whenSome lease fun uid =>
      whenSome (mget? c.leases uid) fun l => do
        let e : EngOp :=
          { lease := uid, cls := 2, token := l.token l.opser, after := 0, desc := set.desc, who := who, started := false,
            startAt := 0, parked := none, status := none, out := [], outStatus := 0, feed := true }
        setChip { c with engops := mset c.engops c.engNext e, engNext := c.engNext + 1 }
        modLease uid fun x => { x with opser := x.opser + 1 }
    modChip fun c => { c with
      copyNext := c.copyNext + 1
      copies := mset c.copies c.copyNext
        { core := h.core, who := who, after := set.after, opm := c.boxOpm d set.dir, dir := set.dir, rcd := set.rcd, dg := set.dg, lease := lease,
          desc := set.bytes, obj := set.obj, total := d.bytes, next := 0, inflight := [],
          parked := [], again := [], landed := 0, feed := [], feedOp := feed, checked := false, failed := false } }
  else pure ()

/-- COPY (R207, R208). -/
def execCopy (f : CopyF) (s : State) : Host.Outcome State Fault Refusal :=
  let dir := f.dir.toNat
  let dg := f.dg = 1
  let sa := f.sa.toNat
  let sr := f.sr.toNat
  runZha 8 (issue 8 f.stall.toNat
    { Uses.none with
      ss := [f.ss.toNat, sa, sa + 1] ++ (if dir = 2 then [] else [sr, sr + 1]) ++ (if dg then [f.sh.toNat] else [])
      ps := guardPs f.g } fun h =>
    onceIf h f.g (do
      let va := h.pair sa
      let bytes ← readBox h va (if dg then 128 else 64)
      let d := Box4.of bytes
      let slice := (h.s f.ss.toNat).toNat
      let rcd := if dir = 2 then 0 else h.pair sr
      if slice > d.slices then trap causeBound 8 else pure ()
      if dir = 2 then pure () else checkRecord h.team.scrUnits rcd fun _ => true
      checkObject h d.obj
      checkBox h d dir
      let lease ← if dg then some <$> checkDigest h (h.s f.sh.toNat) else pure none
      awaitSame h d.obj.toNat 16
      let c ← getChip
      let sets := match mget? c.teams h.tid with
        | some t => t.slices
        | none => []
      let joins := fun (x : SliceSet) => x.desc = va && !x.slices.contains slice
      let same := fun (x : SliceSet) => x.dir = dir && x.rcd = rcd && x.dg = dg && x.bytes = bytes
      let put := fun (xs : List SliceSet) => modTeam h.tid fun t => { t with slices := xs }
      let set ← match sets.find? joins with
        | some x => pure { x with slices := x.slices ++ [slice], after := x.after ++ [(h.actor, c.seq)], bad := x.bad || !same x }
        | none => do
          if sets.length ≥ 16 then notReady else pure ()
          match ← objRead h.tid h.ctx d.obj with
          | some b => if recNat b 8 2 ≥ 0xFFFF then notReady else pure ()
          | none => pure ()
          objUpdate h.tid h.ctx d.obj fun (e, a, n, st) => (e, a, n + 1, st)
          pure { desc := va, slices := [slice], after := [(h.actor, c.seq)], dir := dir, rcd := rcd, dg := dg, bytes := bytes,
                 obj := d.obj, bad := false }
      let rest := match sets.find? joins with
        | some x => sets.erase x
        | none => sets
      if (List.range ((Box4.of set.bytes).slices + 1)).all set.slices.contains then do
        if c.movingCopies h.core ≥ 64 then notReady else pure ()
        match lease with
        | some uid => if (c.leaseOps uid).length ≥ 8 then notReady else pure ()
        | none => pure ()
        put rest
        postSet h d set lease
      else
        put (match sets.find? joins with
          | some x => sets.map fun y => if y = x then set else y
          | none => sets ++ [set])
      settle)) s

/-- COBJ (R215): one indivisible plain store of 16 zero bytes. -/
def execCobj (f : ObjF) (s : State) : Host.Outcome State Fault Refusal :=
  let sa := f.sa.toNat
  runZha 8 (issue 8 f.stall.toNat { Uses.none with ss := [sa, sa + 1], ps := guardPs f.g } fun h =>
    onceIf h f.g (do
      let obj := h.pair sa
      checkObject h obj
      awaitSame h obj.toNat 16
      let a : Access := ⟨h.actor, 1, false, 0, true⟩
      let gs ← match objScratch obj with
        | some o => pure (scrGrans h.core h.team.scrLo 0 o 16)
        | none => do
          match ← translate h.core h.runId h.ctx (Use.store h.user) obj.toNat with
          | .ok pa => pure (globGrans 0 pa 16)
          | .error _ => pure []
      checkAccess a gs
      objWrite h.tid h.ctx obj (List.replicate 16 0)
      each (distinct (gs.map Prod.snd)) fun g => do
        markWrite a g h.grp.relScope
        if g.core.isNone then filterTile h.runId h.team.num (g.idx / 128) else pure ()
      modChip fun c => { c with copies := c.copies.filter fun o => !(o.2.obj = obj && o.2.who.ctx = h.ctx && !o.2.moving &&
        ((objScratch obj).isNone || o.2.who.tid = h.tid)) }
      settle)) s

/-- CPWAIT (R216). -/
def execCpwait (f : ObjF) (s : State) : Host.Outcome State Fault Refusal :=
  let sa := f.sa.toNat
  runZha 8 (issue 8 f.stall.toNat { Uses.none with ss := [sa, sa + 1], sd := [f.sd.toNat], ps := guardPs f.g } fun h =>
    onceIf h f.g (do
      let obj := h.pair sa
      checkObject h obj
      awaitSame h obj.toNat 16
      match ← objRead h.tid h.ctx obj with
      | none => parkOn h (.cpwait obj f.sd.toNat)
      | some b =>
        if objDone b then do
          if recNat b 12 1 = 0 then learnCopies h.g obj h.tid h.ctx else pure ()
          setS h f.sd.toNat (BitVec.ofNat 32 (recNat b 12 1))
        else parkOn h (.cpwait obj f.sd.toNat))) s

/-! ## Sectors (R209, R210) -/

/-- A piece of a sector's source or destination: where it stands and its bytes in the stream. -/
inductive Piece where
  | global (pa n : Nat)
  | chip (a n : Nat)
  | scratch (a n : Nat)
  deriving DecidableEq, Repr

def Piece.len : Piece → Nat
  | .global _ n => n
  | .chip _ n => n
  | .scratch _ n => n

/-- One range of the box's side, placed. -/
def placePiece (o : CopyOp) (u : Use) (va : Addr) (n : Nat) : Async (List Piece) := do
  match (← inAct getChip).region va with
  | .global => do return (← asyncBind o.who u va.toNat n).map fun p => .global p.1 p.2
  | .opm => return [.chip (va.toNat % 2 ^ 31) n]
  | _ => fails 5

/-- The box elements of a sector. -/
def boxPieces (o : CopyOp) (d : Box4) (u : Use) (sector : Nat) : Async (List Piece) := do
  let (lo, n) := o.span sector
  let ps ← (List.range (n / d.size)).mapM fun k => placePiece o u (d.elem (lo / d.size + k)) d.size
  return ps.flatten

/-- The bytes of a .g2g destination. -/
def destPieces (o : CopyOp) (d : Box4) (sector : Nat) : Async (List Piece) := do
  let (lo, n) := o.span sector
  placePiece o (Use.store o.who.user) (d.dbase + BitVec.ofNat 64 lo) n

def scratchPieces (o : CopyOp) (lo : Nat) (sector : Nat) : List Piece := (o.scratchAt lo sector).map fun a => .scratch a 16

/-- The granules that a piece shows the checker. -/
def Chip.pieceGrans (c : Chip) (who : Actor) : Piece → GranLanes
  | .global pa n => globGrans 0 pa n
  | .chip a n => laneGrans c n ⟨0, 0, .opm, a, true, 0, 0⟩
  | .scratch a n => c.scrRanges who [(a, n)]

def readPiece (core : Nat) : Piece → Act (List Byte)
  | .global pa n => homeRead pa n
  | .chip a n => do return (← getChip).opmRead a n
  | .scratch a n => do return ((← getChip).core core).bytes a n

/-- A piece's bytes land. -/
def writePiece (o : CopyOp) (tag : BitVec 4) (bs : List Byte) : Piece → Act Unit
  | .global pa _ => homeWrite pa bs (some (o.who.run, o.who.team))
  | .chip a _ => modChip fun c => c.opmWrite a tag bs
  | .scratch a _ => modCore o.core fun k => k.setBytes a bs

/-- Pieces with the bytes of the stream that fall to them. -/
def dealBytes : List Piece → List Byte → List (Piece × List Byte)
  | [], _ => []
  | p :: r, bs => (p, bs.take p.len) :: dealBytes r (bs.drop p.len)

/-- Whether a piece stands in the on-chip map where an incomplete matrix operation still names its bytes (R101). -/
def Chip.pieceHeld (c : Chip) : Piece → Bool
  | .chip a n => c.opmHeld n ⟨0, 0, .opm, a, true, 0, 0⟩
  | _ => false

/-- Whether a piece's bytes are poisoned. -/
def Chip.piecePoison (c : Chip) : Piece → Bool
  | .global pa n => c.poisoned pa n
  | _ => false

/-- The scratch granules, by core, whose last byte of the copy lies in a sector (R103, R210). -/
def CopyOp.lastGrans (o : CopyOp) (c : Chip) (d : Box4) (lo sector : Nat) : List (Nat × Nat) :=
  let (from_, n) := o.span sector
  let chipGran := fun (a : Addr) =>
    if c.region a = .opm && opmKind a.toNat = 1 then
      (c.scrPos (opmCore a.toNat) (opmOff a.toNat)).map fun p => (opmCore a.toNat, p / 16)
    else none
  match o.dir with
  | 0 =>
    let r := OpRec.of o.rcd
    ((o.units sector).filter fun u => u.1 + 1 ≥ r.rows || r.stride > u.2).map fun u => (o.core, (lo + r.row u.1) / 16 + u.2)
  | 1 =>
    let first := from_ / d.size
    let mine := distinct ((List.range (n / d.size)).filterMap fun k => chipGran (d.elem (first + k)))
    if mine.isEmpty then []
    else
      let later := (List.range (d.elems - (first + n / d.size))).filterMap fun k => chipGran (d.elem (first + n / d.size + k))
      mine.filter fun g => !later.contains g
  | _ =>
    let mine := distinct ((List.range n).filterMap fun k => chipGran (d.dbase + BitVec.ofNat 64 (from_ + k)))
    let next := chipGran (d.dbase + BitVec.ofNat 64 (from_ + n))
    mine.filter fun g => from_ + n ≥ o.total || next ≠ some g

/-- The first byte of a team's scratch on its core. -/
def Chip.teamLo (c : Chip) (tid : Nat) : Nat :=
  match mget? c.teams tid with
  | some t => t.scrLo
  | none => 0

/-- A sector's source and destination, placed; a team that has gone left the bytes of its scratch with the copy. -/
def sectorPlan (o : CopyOp) (sector : Nat) : Async (List Piece × List Piece) := do
  let d := Box4.of o.desc
  let c ← inAct getChip
  let lo := c.teamLo o.who.tid
  let src ← if o.dir = 1 then pure (if (mget? c.teams o.who.tid).isSome then scratchPieces o lo sector else []) else boxPieces o d (Use.load o.who.user) sector
  let dst ← match o.dir with
    | 0 => pure (scratchPieces o lo sector)
    | 1 => boxPieces o d (Use.store o.who.user) sector
    | _ => destPieces o d sector
  return (src, dst)

/-- A sector's data moves: poison and races end it with a status, else its bytes land, in stream order where one byte is written
from two positions (assumption 68), and full bits follow. Answers the bytes. -/
def moveSector (o : CopyOp) (sector : Nat) : Async (List Byte) := do
  let d := Box4.of o.desc
  let rec_ := OpRec.of o.rcd
  let (src, dst) ← sectorPlan o sector
  let c ← inAct getChip
  let srcGrans := src.flatMap fun p => match p with
    | .scratch a n => fullGrans a n
    | _ => []
  if o.dir = 1 && rec_.few && !srcGrans.all (c.core o.core).isFull then inAct notReady else pure ()
  if src.any c.piecePoison then fails 2 else pure ()
  if (src ++ dst).any c.pieceHeld then inAct notReady else pure ()
  let who := if o.dir = 1 && rec_.few then c.filled o.who o.core srcGrans else o.who
  let rd : Access := ⟨who, 6, false, 0, false⟩
  let wr : Access := ⟨who, 7, false, 0, true⟩
  let rgs := src.flatMap (c.pieceGrans o.who)
  let wgs := dst.flatMap (c.pieceGrans o.who)
  let r1 ← inAct (checkAsync rd rgs)
  let r2 ← inAct (checkAsync wr wgs)
  if r1 || r2 then fails 3 else pure ()
  inAct do
    each (distinct (rgs.map Prod.snd)) (markRead rd)
    each src fun p => match p with
      | .global pa n => traceRead o.who.tid pa n
      | .chip .. => traceNonreplay o.who.tid
      | .scratch .. => pure ()
    let bs ← mapAct src (readPiece o.core)
    let data := if src.isEmpty then mgetD o.feed [] sector else bs.flatten
    if o.dir = 1 && rec_.fec then modCore o.core fun k => k.markFull srcGrans false else pure ()
    each (dealBytes dst data) fun p => writePiece o d.tag p.2 p.1
    each (distinct (wgs.map Prod.snd)) fun g => markWrite wr g 0
    each (o.lastGrans c d (c.teamLo o.who.tid) sector) fun g => modCore g.1 fun k => k.landFull [g.2] o.who.agent o.who.clock
    return data

/-- A copy that has moved its last sector gives its current back; a failed one of a team that has gone ends. -/
def copyTail (id : Nat) : Act Unit := do
  let c ← getChip
  whenSome (mget? c.copies id) fun o =>
    if o.next ≥ o.sectors && o.inflight.isEmpty && o.parked.isEmpty && o.again.isEmpty then do
      dropCq (coreCluster o.core) (.copy id)
      if o.failed && (mget? c.teams o.who.tid).isNone then modChip fun c => { c with copies := merase c.copies id } else pure ()
    else pure ()

/-- The next sector of a copy: those that a restore issues again come first, then stream order (R273). -/
def CopyOp.startNext (o : CopyOp) : CopyOp :=
  match o.again with
  | s :: r => { o with again := r, inflight := o.inflight ++ [s] }
  | [] => { o with next := o.next + 1, inflight := o.inflight ++ [o.next] }

/-- COPY_SECTOR_START: the next sector, in stream order, starts once every slice's earlier accesses have performed and the
copy holds its 2 CQ; a digest-verified one also waits for its DIGEST engine and 16 CQ more (R183, R212). At most 32 sectors are
in flight or parked, each in a request-table entry; a save lets only a feed that has started go on (R115, R175, R273). -/
def execCopySectorStart (cp : Nat) (s : State) : Host.Outcome State Fault Refusal :=
  runEvent (do
    let c ← getChip
    let now ← clock
    let o ← someOr (mget? c.copies cp)
    let cl := coreCluster o.core
    let prio := c.ctxPrio o.who.ctx
    enabled ((o.next < o.sectors || !o.again.isEmpty) && !o.failed && (!c.saving o.who.tid || c.feeds o) &&
      o.inflight.length + o.parked.length < 32 && c.requestRoom o.core (slotPart o.who.slot) 1 &&
      o.after.all fun a => c.drained a.1 a.2)
    let start : Act Unit := modCopy cp CopyOp.startNext
    match o.feedOp.bind fun e => (mget? c.engops e).map fun x => (e, x) with
    | none => withCurrent cl (.copy cp) 2 false prio start
    | some (e, x) =>
      if x.started then withCurrent cl (.copy cp) 2 false prio start
      else do
        enabled (c.engTurn e { x with feed := false })
        withCurrent cl (.eng e) 16 true prio
          (withCurrent cl (.copy cp) 2 false prio do
            modEng e fun y => { y with started := true, startAt := now }
            start)
    settle) s

/-- COPY_SECTOR_COMPLETE. A sector that translation stops stays for ASYNC_PAGE_FAULT; of a failed copy it is dropped. -/
def execCopySectorComplete (cp sector : Nat) (s : State) : Host.Outcome State Fault Refusal :=
  runEvent (do
    let o ← someOr (mget? (← getChip).copies cp)
    enabled (o.inflight.contains sector)
    let gone : Act Unit := modCopy cp fun x => { x with inflight := x.inflight.erase sector }
    let n := (o.span sector).2
    match ← (moveSector o sector).run with
    | .error (.parks ..) => if o.failed then gone else notReady
    | .error (.fails st) => do
      gone
      failCopy cp st
    | .ok data => do
      gone
      modCopy cp fun x => { x with landed := x.landed + n, feed := if x.dg && !x.failed then mset x.feed sector data else x.feed }
      if o.failed || o.dg then pure ()
      else objUpdate o.who.tid o.who.ctx o.obj fun (e, a, k, st) => (e, a + n, k, st)
    copyTail cp
    settle) s

/-- COPY_DIGEST_CHECK: the last sector has landed; B is added where the stream's SHA-256 is DIGEST (R212). -/
def execCopyDigestCheck (cp : Nat) (s : State) : Host.Outcome State Fault Refusal :=
  runEvent (do
    let o ← someOr (mget? (← getChip).copies cp)
    enabled (o.dg && !o.failed && !o.checked && o.landed = o.total)
    modCopy cp fun x => { x with checked := true, feed := [] }
    if sha256 (mvals o.feed).flatten = (o.desc.drop 0x40).take 32 then
      objUpdate o.who.tid o.who.ctx o.obj fun (e, a, k, st) => (e, a + o.total, k, st)
    else do
      modCopy cp fun x => { x with failed := true }
      objUpdate o.who.tid o.who.ctx o.obj fun (e, a, k, st) => (e, a, k, if st = 0 then 11 else st)
    whenSome o.feedOp fun e => finishEng e 0
    settle) s

end Sys2Proof.Machine
end

