-- ==== Sys2Proof/Machine/Edge.lean ====
section
/-! DEFINITION. Edges: pushes and pops at the header's home, parking and retries (R226-R229). -/

namespace Sys2Proof.Machine

/-- A transaction that may trap, with its effect undone where it does. -/
def attempt (a : Act α) : Act (Except TrapInfo α) := fun t =>
  match a t with
  | .ok (x, u) => .ok (.ok x, u)
  | .error (.trap i) => .ok (.error i, t)
  | .error e => .error e

/-- An edge's header (R226). -/
structure EdgeHdr where
  cap : Nat
  free : Nat
  fill : Nat
  head : Nat
  tail : Nat
  closed : Bool
  rsv : Bool
  deriving DecidableEq, Repr

def EdgeHdr.of (b : List Byte) : EdgeHdr :=
  { cap := recNat b 0 4, free := recNat b 4 4, fill := recNat b 8 4, head := recNat b 12 4, tail := recNat b 16 4,
    closed := recNat b 20 4 % 2 = 1, rsv := recNat b 20 4 / 2 ≠ 0 || recNat b 24 40 ≠ 0 }

/-- check_edge's reading of the header (R229). -/
def EdgeHdr.bad (e : EdgeHdr) : Bool :=
  e.cap = 0 || e.cap > 2 ^ 24 || e.head ≥ e.cap || e.tail ≥ e.cap || e.free + e.fill ≠ e.cap || e.rsv

/-- The 20 counter bytes of a header. -/
def EdgeHdr.bytes (e : EdgeHdr) : List Byte :=
  toLE 4 e.cap ++ toLE 4 e.free ++ toLE 4 e.fill ++ toLE 4 e.head ++ toLE 4 e.tail

/-- Where the header of an edge stands for an actor, with the address checks (R96, R229). -/
def edgePlace (who : Actor) (user : Bool) (va : Addr) : Act Nat := do
  let c ← getChip
  let fwin ← frameWindow who.ctx
  let lane := lowLane who.mask
  if c.region va = .bad then trap causeAccess 5 va lane
  else if inWindow fwin va then trap causeAccess 8 va lane
  else if c.region va = .mailbox then trap causeAccess 4 va lane
  else if c.region va = .opm || va.toNat % 64 ≠ 0 then trap causeEdge 1 va lane
  else do
    match ← translate who.core who.run who.ctx (Use.rmw user) va.toNat with
    | .ok pa => return pa
    | .error k => trap causePage ((Use.rmw user).data k) va lane

/-- The physical place of a slot (R226). -/
def slotPlace (who : Actor) (u : Use) (va : Addr) (i : Nat) : Act Nat := do
  let a := va.toNat + 64 + 8 * i
  match ← translate who.core who.run who.ctx u a with
  | .ok pa => return pa
  | .error k => trap causePage (u.data k) (BitVec.ofNat 64 a) (lowLane who.mask)

/-- An edge access judged: under TRAP a RACE traps and nothing changes. -/
def edgeCheck (who : Actor) (kind : Nat) (write : Bool) (pa n : Nat) : Act (Access × List Gran) := do
  let a : Access := ⟨who, kind, true, 7, write⟩
  let gs := globGrans (lowLane who.mask) pa n
  checkAccess a gs
  return (a, gs.map Prod.snd)

/-- The header as the update finds it, judged as an ATOM, its mark updated whatever comes of the update (R228). -/
def edgeHeader (who : Actor) (pa : Nat) : Act (EdgeHdr × List Gran) := do
  let (_, gs) ← edgeCheck who 4 true pa 20
  let e := EdgeHdr.of (← homeRead pa 64)
  if e.bad then trap causeEdge 2 0 (lowLane who.mask) else pure ()
  each gs fun g => setGranMark g (writeMark who 7)
  return (e, gs)

/-- What an edge operation comes to: done with a status and a value, or to be retried. -/
inductive EdgeOut where
  | done (status : Nat) (value : BitVec 64)
  | wait
  deriving DecidableEq, Repr

/-- epush of R228: a release of the group at .sy that merges into the records of its slot's and the header's granules. -/
def edgePush (who : Actor) (user : Bool) (va : Addr) (v : BitVec 64) : Act EdgeOut := do
  let pa ← edgePlace who user va
  let (e, hs) ← edgeHeader who pa
  if e.closed then trap causeEdge 3 va (lowLane who.mask)
  else if e.free = 0 then return .wait
  else do
    let sp ← slotPlace who (Use.store user) va e.tail
    let (a, gs) ← edgeCheck who 3 true sp 8
    homeWrite sp (toLE 8 v.toNat) (some (who.run, who.team))
    each gs fun g => markWrite a g 0
    homeWrite pa { e with tail := (e.tail + 1) % e.cap, free := e.free - 1, fill := e.fill + 1 }.bytes none
    let k ← publish who.slot
    each (distinct (gs ++ hs)) fun g => releaseRecord g who k 7 true
    return .done 0 v

/-- epop of R228: a successful pop is an acquire at .sy of the slot's record. -/
def edgePop (who : Actor) (user : Bool) (va : Addr) : Act EdgeOut := do
  let pa ← edgePlace who user va
  let (e, _) ← edgeHeader who pa
  traceRead who.tid pa 64
  if e.fill = 0 then return (if e.closed then .done 3 0 else .wait)
  else do
    let sp ← slotPlace who (Use.load user) va e.head
    let (a, gs) ← edgeCheck who 2 false sp 8
    if (← getChip).poisoned sp 8 then trap causeEcc 0 (va + BitVec.ofNat 64 (64 + 8 * e.head)) (lowLane who.mask) else pure ()
    let v ← homeNat sp 8
    each gs (markRead a)
    homeWrite pa { e with head := (e.head + 1) % e.cap, fill := e.fill - 1, free := e.free + 1 }.bytes none
    each gs fun g => do acquireGran g who 7 (← getChip).seq
    traceRead who.tid sp 8
    traceNonreplay who.tid
    return .done 0 (BitVec.ofNat 64 v)

/-- An edge operation that cannot go on parks at the header's home. -/
def parkEdge (h : Here) (va : Addr) (w : Wait) : Act Unit := do
  let pa ← edgePlace h.actor h.user va
  awaitMonitor h.g pa
  addMonitor h.g h.p pa none
  parkOn h w

/-- EPUSH (R227, R228): a release, so every earlier access of the group performs first. -/
def execEpush (f : EdgeF) (s : State) : Host.Outcome State Fault Refusal :=
  let se := f.se.toNat
  let sv := f.sb.toNat
  runZha 8 (issue 8 f.stall.toNat
    { Uses.none with ss := [se, se + 1, sv, sv + 1], sd := [f.sd.toNat], ps := guardPs f.g } fun h =>
    onceIf h f.g (do
      awaitAccesses h.g
      match ← edgePush h.actor h.user (h.pair se) (h.pair sv) with
      | .done st _ => setS h f.sd.toNat (BitVec.ofNat 32 st)
      | .wait =>
        if f.nb = 1 then setS h f.sd.toNat 1
        else parkEdge h (h.pair se) (.epush (h.pair se) (h.pair sv) f.sd.toNat)
      settle)) s

/-- EPOP (R227, R228). -/
def execEpop (f : EdgeF) (s : State) : Host.Outcome State Fault Refusal :=
  let se := f.se.toNat
  let sd := f.sd.toNat
  let sc := f.sb.toNat
  runZha 8 (issue 8 f.stall.toNat
    { Uses.none with ss := [se, se + 1], sd := [sd, sd + 1, sc], ps := guardPs f.g } fun h =>
    onceIf h f.g (do
      let va := h.pair se
      let pa ← edgePlace h.actor h.user va
      awaitTurn h va pa 64
      match ← edgePop h.actor h.user va with
      | .done st v => do
        setPair h sd v
        setS h sc (BitVec.ofNat 32 st)
      | .wait =>
        if f.nb = 1 then do
          setPair h sd 0
          setS h sc 2
        else parkEdge h va (.epop va sd sc)
      settle)) s

/-- Whether a parked side is the first in parking order of its kind at its header's home: monitor entries stand in parking
order (R228). -/
def Chip.firstAtEdge (c : Chip) (k : Parked) (push : Bool) (pa : Nat) : Bool :=
  let waits := fun (m : Monitor) => c.parkedOn m.slot m.path fun w => match w with
    | .epush .. => push
    | .epop .. => !push
    | _ => false
  match (c.mons.filter fun m => m.pa = pa).find? fun m => !(waits m).isEmpty with
  | some m => m.slot = k.g && m.path = k.p
  | none => false

/-- Whether a header lets a parked push or pop retry: a free slot, or a filled one or CLOSED (R228). -/
def EdgeHdr.lets (e : EdgeHdr) (push : Bool) : Bool := if push then 0 < e.free else 0 < e.fill || e.closed

/-- A parked push or pop tries again: a trap is taken at the parked instruction, a success resumes it. -/
def edgeAgain (k : Parked) (who : Actor) (push : Bool) (monitor : Option Nat) (go : Act EdgeOut)
    (result : Nat → BitVec 64 → List (Nat × Word)) : Act Unit := do
  let free : Act Unit := whenSome monitor (freeMonitor k.g k.p)
  whenSome monitor fun pa => do
    enabled ((← getChip).firstAtEdge k push pa)
    enabled ((EdgeHdr.of (← homeRead pa 64)).lets push)
  match ← attempt go with
  | .error t => do
    free
    trapParked k t
  | .ok .wait => notReady
  | .ok (.done st v) => do
    free
    resume k (result st v)
    pushHook (coreCluster who.core) 4 who.tid

/-- One retry of a parked push or pop; an overflow entry is tried only at its evaluation, `due` (R219). -/
def edgeRetry (due : Bool) (k : Parked) : Act Unit := do
  let c ← getChip
  let who ← someOr (c.parkedActor k)
  let user := match c.path? k.g k.p with
    | some x => x.level ≠ .supervisor
    | none => true
  let monitor := fun (va : Addr) => do
    match ← attempt (edgePlace who user va) with
    | .ok pa => do
      enabled ((c.mons.find? fun m => m.slot = k.g && m.path = k.p && m.pa = pa).all fun m => due || !m.overflow)
      pure (some pa)
    | .error _ => pure none
  match k.wait with
  | .epush va v sd => do
    edgeAgain k who true (← monitor va) (edgePush who user va v) fun st _ => [(sd, BitVec.ofNat 32 st)]
  | .epop va sd sc => do
    edgeAgain k who false (← monitor va) (edgePop who user va) fun st v => pairResult sd v ++ [(sc, BitVec.ofNat 32 st)]
  | _ => notReady

def Wait.onEdge : Wait → Bool
  | .epush .. => true
  | .epop .. => true
  | _ => false

/-- The parked pushes and pops of a path, tried in turn. -/
def edgeRetries (due : Bool) (g p : Nat) : Act Unit := do
  ((← getChip).parkedOn g p Wait.onEdge).foldr (fun k a => orElse (edgeRetry due k) a) notReady

/-- EDGE_PARK_RETRY. -/
def execEdgeParkRetry (g p : Nat) (s : State) : Host.Outcome State Fault Refusal :=
  runEvent (do
    edgeRetries false g p
    settle) s

/-- MONITOR_OVERFLOW_EVAL: an overflow entry whose 4 096 clk have passed is evaluated, a MONW's or that of an edge. -/
def execMonitorOverflowEval (g p : Nat) (s : State) : Host.Outcome State Fault Refusal :=
  runEvent (do
    let c ← getChip
    let now ← clock
    let m ← someOr (c.mons.find? fun m => m.slot = g && m.path = p && m.overflow && m.evalAt ≤ now)
    let at_ := fun (w : Wait) => match w with
      | .monw _ pa .. => decide (pa = m.pa)
      | _ => false
    match (c.parkedOn g p at_).head? with
    | some k => do
      recallRange m.pa 8
      evalMonw k true
    | none => orElse (edgeRetries true g p) (pure ())
    modChip fun c => { c with mons := c.mons.map fun x => if x = m then { x with evalAt := now + 4096 } else x }
    settle) s

end Sys2Proof.Machine
end

