-- ==== Sys2Proof/Machine/Dist.lean ====
section
/-! DEFINITION. The distributor tree: host events, acceptance of launch records, ranges of units, stealing, the consumer
cap and the placement of units on cores (R16, R25-R29, R230-R241, R304). -/

namespace Sys2Proof.Machine

/-! ## Host events (R304) -/

def evQBroken : Nat := 1
def evOverrun : Nat := 2
def evHealth : Nat := 3
def evLink : Nat := 4
def evWsNeed : Nat := 5
def evWsCorrupt : Nat := 6
def evCompFail : Nat := 7
def evLost : Nat := 8
def evSpare : Nat := 9

/-- The base die writes a host event, and raises the ring's message interrupt where it is enabled; one that no ring can take is
counted as dropped. -/
def hostEvent (kind part ctx cluster d0 d1 : Nat) : Act Unit := do
  let drop : Act Unit := modChip fun c => { c with evDropped := satInc c.evDropped }
  match (← getChip).evring with
  | none => drop
  | some (a, int, vector) => do
    let size ← homeNat a 4
    let tail ← homeNat (a + 4) 4
    let head ← homeNat (a + 8) 4
    if size = 0 || (tail + 2 ^ 32 - head) % 2 ^ 32 ≥ size then drop
    else do
      homeWrite (a + 64 + 32 * (tail % size))
        (toLE 1 kind ++ toLE 1 part ++ toLE 2 ctx ++ toLE 1 cluster ++ toLE 3 0 ++ toLE 8 d0 ++ toLE 8 d1 ++
          toLE 8 (← clock)) none
      homeWrite (a + 4) (toLE 4 (tail + 1)) none
      if int then modChip fun c => { c with interrupts := c.interrupts ++ [vector] } else pure ()

/-- DATA0 that names a weight set and a shard (assumption 95). -/
def shardData (num shard : Nat) : Nat := num + shard * 2 ^ 8

/-- Data of an event that the table of R304 does not give (assumption 2). -/
def eventData : Act Nat := do return (← freeValue).toNat

/-! ## The checks of a record (R234) -/

/-- A run made from a record: its number is the package's count of runs. -/
def Run.make (c : Chip) (lid : Word) (ctx part queue : Nat) (rec : List Byte) : Run :=
  { lid := lid, runNo := BitVec.ofNat 32 c.runNext, ctx := ctx, part := part, queue := queue, record := rec, le := 0,
    leAging := false, toAge := [], know := [], left := [], homes := [], status := .queued, fault := false, lost := false, pkgRange := [], dieRanges := [], cluRanges := [],
    ageFrom := 0, paused := 0, pausedSince := none, doneTeams := [], retSum := 0, restarts := [], sel := none, cobj := 0,
    watch := none, wver := none, miss := [], guarded := none }

/-- The weight set that a context's launch names: its own, else its partition's. -/
def Chip.wsetOf (c : Chip) (ctx part num : Nat) : Option WSet :=
  (c.wsets.find? fun w => !w.byPart && w.owner = ctx && w.num = num) <|>
    (c.wsets.find? fun w => w.byPart && w.owner = part && w.num = num)

/-- The version a launch would bind now: none where R321 lets it bind nothing. -/
def Chip.currentVersion (c : Chip) (r : Run) : Option Nat := (c.wsetOf r.ctx r.part r.wset).bind WSet.current

/-- The fields that must be 0 (R233). -/
def reservedClear (rec : List Byte) : Bool :=
  bits (recNat rec 0x40 4) 23 9 = 0 && bits (recNat rec 0x44 4) 5 27 = 0 && bits (recNat rec 0x64 4) 5 27 = 0 &&
    ((rec.drop 0xAC).take 0x54).all (fun x => x = 0) &&
    (List.range 5).all fun k => bits (recNat rec (0x48 + 4 * k) 4) 4 12 = 0

/-- The entry that ends the level list, and every one after it, is wholly 0. -/
def levelsEnd (rec : List Byte) : Bool :=
  ((rec.drop (0x48 + 4 * (recordLevels rec).length)).take (20 - 4 * (recordLevels rec).length)).all fun x => x = 0

/-- RLOG and RLOGSZ agree with RMODE. -/
def Run.logAgrees (r : Run) : Bool :=
  if r.rlog = 0 then r.rmode = 0 && r.rlogsz = 0 else 4 ≤ r.rlogsz && r.rlogsz ≤ 16

/-- The checks of BADRECORD that need no memory. -/
def Run.recordOk (c : Chip) (r : Run) : Bool :=
  reservedClear r.record && levelsEnd r.record && r.rmode ≠ 3 && r.prog.toNat % 2 = 0 && r.compa % 16 = 0 &&
    r.rlog % 64 = 0 && r.adesc % 64 = 0 && r.logAgrees &&
    ((List.range 4).all fun k => r.ein k % 64 = 0 && r.eout k % 64 = 0 && decide (r.ein k = 0 ↔ r.share k = 0)) &&
    (r.wset = 0 || (c.currentVersion r).isSome)

/-- Whether a traced record's region can be used: 0x200 bytes of header that translate both ways, no poison, FLOG2 in
range (R283). -/
def traceOk (r : Run) : Act Bool := do
  if !r.traced then return true
  else if r.trreg = 0 || r.trreg % 64 ≠ 0 then return false
  else
    match ← hwBind r.ctx true r.trreg 0x200, ← hwRead r.ctx r.trreg 0x200 with
    | .ok _, some h => return 10 ≤ bits (recNat h 0 4) 0 5 && bits (recNat h 0 4) 0 5 ≤ 20
    | _, _ => return false

/-- BADSHAPE: the ranges of R25. -/
def Run.shapeOk (r : Run) : Bool := r.regs ≤ 128 && r.scr ≤ 192 && r.tiles ≤ 16

/-- BADLEVELS: R26 and R27. -/
def Run.levelsOk (r : Run) : Bool :=
  let ls := r.levels
  (ls.getLast?.map LevelDecl.dom) = some 7 && (ls.all fun l => 3 ≤ l.dom && 1 ≤ l.fan) &&
    (ls.zip (ls.drop 1)).all (fun p => p.1.dom < p.2.dom) &&
    (ls.all fun l => l.dom ≠ 3 || l.fan = 2) &&
    (!(ls.any fun l => l.dom = 6) || ls.all fun l => l.dom ≠ 7 || l.fan = 1) && r.teamCount ≤ 2 ^ 31

/-- The least of a list. -/
def least (xs : List Nat) : Nat := xs.foldl min (xs.headD 0)

/-- Teams that an empty core takes (R25). -/
def Run.coreCap (r : Run) : Nat :=
  least ([16] ++ ([0, 1, 2, 3].flatMap fun p =>
      let n := groupsOn r.groups p
      if n = 0 then [] else [16 / n, 128 / (n * (r.regs / 8))]) ++
    (if r.scr = 0 then [] else [192 / r.scr]) ++ (if r.tiles = 0 then [] else [16 / r.tiles]))

def Run.declares (r : Run) (dom : Nat) : Bool := r.levels.any fun l => l.dom = dom

/-- Teams that must stand together on one cluster: a cluster instance, else a pair, else one team. -/
def Run.chunk (r : Run) : Nat :=
  if r.declares 4 && r.unitDom ≥ 4 then (r.teamsPer 4).getD 1 else if r.declares 3 then 2 else 1

/-- Such chunks that an empty cluster takes. -/
def Run.chunksPerCluster (r : Run) : Nat := 8 * r.coreCap / (if r.chunk = 0 then 1 else r.chunk)

/-- The clusters of a partition on a die. -/
def Partition.onDie (p : Partition) (die : Nat) : List Nat := p.clusters.filter fun k => k / 10 = die

/-- Whether a unit fits the clusters of a partition with every core empty (R29). -/
def Run.everFits (p : Partition) (r : Run) : Bool :=
  let want := r.unitSize / r.chunk
  let dieTakes := fun d => (p.onDie d).length * r.chunksPerCluster
  let all := [0, 1, 2, 3].map dieTakes
  if r.unitDom ≤ 4 then !p.clusters.isEmpty && want ≤ r.chunksPerCluster
  else if r.unitDom = 5 then all.any fun n => want ≤ n
  else if r.declares 5 then
    let per := (r.teamsPer 5).getD 1 / r.chunk
    r.unitSize / ((r.teamsPer 5).getD 1) ≤ (all.map fun n => n / per).foldl (· + ·) 0
  else want ≤ all.foldl (· + ·) 0

/-- The status of a record: 0 where it is accepted (R234, R235). -/
def recordStatus (r : Run) : Act Nat := do
  let c ← getChip
  let traced ← traceOk r
  if !r.recordOk c || !traced then return 5
  else if !r.shapeOk then return 2
  else if !r.levelsOk then return 3
  else if !r.everFits (c.part r.part) then return 4
  else return 0

/-! ## Completion objects and edges of launches (R235, R240, R241) -/

/-- The completion object of a run is written as one store; COMPFAIL where it does not translate. -/
def writeCompletion (part ctx at_ status teams : Nat) (lid : Word) : Act Unit := do
  if at_ = 0 then pure ()
  else do
    let ok ← hwWrite ctx at_ (toLE 4 1 ++ toLE 4 status ++ toLE 4 teams ++ toLE 4 lid.toNat)
    if ok then pure () else hostEvent evCompFail part ctx 0xFF (← eventData) (← eventData)

/-- The edges that a run names: as producer, or as consumer with its share. -/
def Run.outEdges (r : Run) : List Nat := ((List.range 4).map r.eout).filter fun a => a ≠ 0
def Run.inEdges (r : Run) : List (Nat × Nat) := ((List.range 4).map fun k => (r.ein k, r.share k)).filter fun a => a.1 ≠ 0

def Run.live (r : Run) : Bool := r.status ≠ .complete

/-- The dispatcher's update of an edge's CLOSED bit at its home. -/
def setClosed (ctx va : Nat) (closed : Bool) : Act Unit := do
  match ← hwTranslate ctx true va with
  | .error _ => pure ()
  | .ok pa => do
    let f ← homeNat (pa + 20) 4
    homeWrite (pa + 20) (toLE 4 (f / 2 * 2 + if closed then 1 else 0)) none

/-- Where a consumer cap stands on a cluster for a run: for each edge with a producer that has undispatched teams, the
consumers' teams there must be at most the cap (R240). -/
def Chip.edgeCapOk (c : Chip) (r : Run) (cl : Nat) : Bool :=
  r.inEdges.all fun e =>
    let busy := c.runs.any fun x => x.2.ctx = r.ctx && (x.2.status = .queued || x.2.status = .head) && x.2.outEdges.contains e.1
    let eaters := c.runs.filter fun x => x.2.ctx = r.ctx && x.2.live && x.2.inEdges.any fun y => y.1 = e.1
    let share := least (eaters.flatMap fun x => (x.2.inEdges.filter fun y => y.1 = e.1).map Prod.snd)
    let held := (c.teams.filter fun t => coreCluster t.2.core = cl && eaters.any fun x => x.1 = t.2.run).length
    !busy || held ≤ max 1 (share * 128 / 256)

/-! ## Acceptance (R231, R234, R283) -/

/-- The dispatcher's part of the trace region at the start of a run. -/
def openTrace (id : Nat) (r : Run) : Act Unit := do
  if !r.traced then pure ()
  else if r.sel.isSome then do
    regionWrite id none 0x0C (toLE 4 r.runNo.toNat)
    regionWrite id none 0x14 (toLE 4 0)
  else
    match ← hwRead r.ctx r.trreg 4 with
    | none => pure ()
    | some h => do
      regionWrite id none 4
        (toLE 4 r.teamCount ++ toLE 4 r.lid.toNat ++ toLE 4 r.runNo.toNat ++ toLE 4 0 ++ toLE 4 0 ++ toLE 4 0)
      regionWrite id none 0x100 r.record
      regionWrite id none (filterOffset r.teamCount) (List.replicate (4 * 2 ^ bits (fromLE h) 0 5) 0)

/-- The race ring's header at the start of an original run (R165). -/
def openRaceLog (r : Run) : Act Unit := do
  if r.rlog = 0 || r.sel.isSome then pure ()
  else do
    let _ ← hwWrite r.ctx r.rlog (toLE 4 (2 ^ r.rlogsz) ++ List.replicate 20 0)

/-- The version that a run binds is bound now (R322). -/
def bindVersion (r : Run) : Act Unit := do
  let now ← clock
  let c ← getChip
  whenSome r.wver fun n =>
    whenSome (c.wsetOf r.ctx r.part r.wset) fun w =>
      modChip fun c => { c with wsets := c.wsets.map fun x =>
        if x = w then { x with versions := x.versions.map fun v => if v.num = n then { v with boundAt := now } else v } else x }

/-- A run joins its queue: its edges open and its region starts; answers its key. -/
def queueRun (r : Run) : Act Nat := do
  let c ← getChip
  setChip { c with
    runs := mset c.runs c.runNext r
    runNext := c.runNext + 1
    queues := mmod c.queues r.queue fun q => { q with line := q.line ++ [c.runNext] } }
  bindVersion r
  openTrace c.runNext r
  openRaceLog r
  each r.outEdges fun e => setClosed r.ctx e false
  return c.runNext

/-- LAUNCHID after one more acceptance. -/
def nextLid (l : Word) : Word := if l + 1 = 0 then 1 else l + 1

def QState.code : QState → Nat
  | .running => 0
  | .broken => 1
  | .stopped => 2

/-- A queue's state changes, in its header too (R230). -/
def setQueueState (q : Nat) (st : QState) : Act Unit := do
  whenSome (mget? (← getChip).queues q) fun e => do
    modChip fun c => { c with queues := mmod c.queues q fun x => { x with state := st } }
    homeWrite (e.hdr.toNat + 0x18) (toLE 1 st.code) none

/-- A queue breaks. -/
def breakQueue (q : Nat) (e : Queue) : Act Unit := do
  setQueueState q .broken
  hostEvent evQBroken ((← getChip).ctx e.ctx).part e.ctx 0xFF q 0

/-! ## Ranges (R238, R239) -/

/-- Half-open ranges in order: how many units they hold, and the first units of them beside the rest. -/
def rangesLen (rs : List (Nat × Nat)) : Nat := rs.foldl (fun n r => n + (r.2 - r.1)) 0

def rangesCut : Nat → List (Nat × Nat) → List (Nat × Nat) × List (Nat × Nat)
  | _, [] => ([], [])
  | k, (a, b) :: r =>
    if k = 0 then ([], (a, b) :: r)
    else if b - a ≤ k then
      let (x, y) := rangesCut (k - (b - a)) r
      ((a, b) :: x, y)
    else ([(a, a + k)], (a + k, b) :: r)

/-- The first unit of ranges, and the ranges without it. -/
def rangesPop (rs : List (Nat × Nat)) : Option (Nat × List (Nat × Nat)) :=
  match rs.filter fun r => r.1 < r.2 with
  | [] => none
  | (a, b) :: r => some (a, (if a + 1 < b then [(a + 1, b)] else []) ++ r)

/-- Contiguous ranges of `n` units from `a`, in proportion to weights, the remainder one each to the first. -/
def splitUnits (a n : Nat) (ws : List (Nat × Nat)) : Map (List (Nat × Nat)) :=
  let tot := ws.foldl (fun m w => m + w.2) 0
  let base := ws.map fun w => n * w.2 / (if tot = 0 then 1 else tot)
  let left := n - base.foldl (· + ·) 0
  let sizes := base.zipIdx.map fun s => s.1 + if s.2 < left then 1 else 0
  (ws.zip sizes).foldl (fun (acc : Map (List (Nat × Nat)) × Nat) e =>
    (mset acc.1 e.1.1 [(acc.2, acc.2 + e.2)], acc.2 + e.2)) ([], a) |>.1

/-- The units of a run's teams: those of the selection, or all. A range counts positions in this list. -/
def Run.selUnits (r : Run) : Option (List Nat) :=
  r.sel.map fun ts => (ts.map fun t => t / r.unitSize).foldl (fun us u => if us.contains u then us else us ++ [u]) []

def Run.unitCount (r : Run) : Nat :=
  match r.selUnits with
  | some us => us.length
  | none => r.teamCount / r.unitSize

/-- The unit at a position. -/
def Run.unitAt (r : Run) (pos : Nat) : Nat :=
  match r.selUnits with
  | some us => us.getD pos 0
  | none => pos

/-- A run's ranges as its launch becomes head. -/
def Run.split (p : Partition) (r : Run) : Run :=
  let n := r.unitCount
  if r.unitDom ≥ 6 then { r with pkgRange := [(0, n)] }
  else
    let dies := ([0, 1, 2, 3].map fun d => (d, (p.onDie d).length)).filter fun d => d.2 ≠ 0
    let perDie := splitUnits 0 n dies
    if r.unitDom = 5 then { r with dieRanges := perDie }
    else
      let cls := perDie.flatMap fun d => d.2.flatMap fun x => splitUnits x.1 (x.2 - x.1) ((p.onDie d.1).map fun k => (k, 1))
      { r with cluRanges := cls }

/-- Units left in a run's ranges. -/
def Run.unitsLeft (r : Run) : Nat :=
  rangesLen r.pkgRange + (mvals r.dieRanges).foldl (fun n x => n + rangesLen x) 0 +
    (mvals r.cluRanges).foldl (fun n x => n + rangesLen x) 0

def Run.cluLen (r : Run) (k : Nat) : Nat := rangesLen (mgetD r.cluRanges [] k)
def Run.dieLen (r : Run) (d : Nat) : Nat := rangesLen (mgetD r.dieRanges [] d)

/-- The entry with the most units of a list, the lowest-numbered among equals. -/
def mostUnits (f : Nat → Nat) (ks : List Nat) : Option Nat :=
  ks.foldl (fun m k => match m with
    | none => some k
    | some j => if f j < f k then some k else some j) none

/-- A victim's range split with a thief: from position ⌈m/2⌉ on to the thief. -/
def stealSplit (rs : Map (List (Nat × Nat))) (victim thief : Nat) : Map (List (Nat × Nat)) :=
  let v := mgetD rs [] victim
  let (keep, give) := rangesCut ((rangesLen v + 1) / 2) v
  mset (mset rs victim keep) thief (mgetD rs [] thief ++ give)

/-- The clusters of a cluster's die that a run's victim may be (R239). -/
def Run.victims (p : Partition) (r : Run) (cl : Nat) : List Nat := (p.onDie (cl / 10)).filter fun k => k ≠ cl && r.cluLen k ≠ 0

/-- The default victim on the thief's die: none where no cluster holds two units. -/
def Run.localVictim (p : Partition) (r : Run) (cl : Nat) : Option Nat :=
  (mostUnits r.cluLen (r.victims p cl)).filter fun k => r.cluLen k ≥ 2

/-- The victim on a sibling die. -/
def Run.farVictim (p : Partition) (r : Run) (cl : Nat) : Option Nat :=
  let others := [0, 1, 2, 3].filter fun d => d ≠ cl / 10 && !(p.onDie d).isEmpty
  let total := fun d => (p.onDie d).foldl (fun n k => n + r.cluLen k) 0
  ((mostUnits total others).bind fun d => mostUnits r.cluLen (p.onDie d)).filter fun k => r.cluLen k ≥ 2

/-- The sibling die that a die steals die units from. -/
def Run.dieVictim (p : Partition) (r : Run) (die : Nat) : Option Nat :=
  (mostUnits r.dieLen ([0, 1, 2, 3].filter fun d => d ≠ die && !(p.onDie d).isEmpty)).filter fun d => r.dieLen d ≥ 2

/-- Whether a cluster must steal before it can place a unit of a run. -/
def Run.mustSteal (r : Run) (cl : Nat) : Bool :=
  if r.unitDom ≥ 6 then false else if r.unitDom = 5 then r.dieLen (cl / 10) = 0 else r.cluLen cl = 0

/-- A run whose thief has stolen from a named victim of its die, or by default (R239); none where nothing can be stolen. -/
def Run.stolen (p : Partition) (r : Run) (cl : Nat) (victim : Option Nat) : Option Run :=
  if r.unitDom = 5 then (r.dieVictim p (cl / 10)).map fun v => { r with dieRanges := stealSplit r.dieRanges v (cl / 10) }
  else (victim <|> r.farVictim p cl).map fun v => { r with cluRanges := stealSplit r.cluRanges v cl }

/-- The run after the default steal, where its cluster needs one. -/
def Run.withUnits (p : Partition) (r : Run) (cl : Nat) : Option Run :=
  if r.mustSteal cl then r.stolen p cl (r.localVictim p cl) else some r

/-- The next unit that a cluster places of a run, and the run without it. -/
def Run.takeUnit (r : Run) (cl : Nat) : Option (Nat × Run) :=
  if r.unitDom ≥ 6 then (rangesPop r.pkgRange).map fun x => (r.unitAt x.1, { r with pkgRange := x.2 })
  else if r.unitDom = 5 then
    (rangesPop (mgetD r.dieRanges [] (cl / 10))).map fun x => (r.unitAt x.1, { r with dieRanges := mset r.dieRanges (cl / 10) x.2 })
  else (rangesPop (mgetD r.cluRanges [] cl)).map fun x => (r.unitAt x.1, { r with cluRanges := mset r.cluRanges cl x.2 })

/-! ## Placement (R16, R26, R237) -/

/-- The first of a list that is ready. -/
def orAny (xs : List α) (f : α → Act Unit) : Act Unit := xs.foldr (fun x a => orElse (f x) a) notReady

/-- Whether a transaction would be ready; nothing of it stands. -/
def trial (a : Act Unit) : Act Bool := fun t =>
  match a t with
  | .ok _ => .ok (true, t)
  | .error _ => .ok (false, t)

def clusterCores (cl : Nat) : List Nat := (List.range 8).map fun k => cl * 8 + k

/-- Consecutive teams placed whole on a cluster: each pair on two neighbour cores, the first on the even one. `place` puts
one team on one core; of several that fit, the lowest-numbered takes it (assumption 71). -/
def placeChunk (place : Nat → Nat → Act Unit) (pairs : Bool) (cl first n : Nat) : Act Unit :=
  if pairs then
    each (List.range (n / 2)) fun i =>
      orAny (List.range 4) fun k => do
        place (first + 2 * i) (cl * 8 + 2 * k)
        place (first + 2 * i + 1) (cl * 8 + 2 * k + 1)
  else each (List.range n) fun i => orAny (clusterCores cl) (place (first + i))

/-- The chunks of consecutive teams, each on one of some clusters. -/
def placeChunks (place : Nat → Nat → Act Unit) (pairs : Bool) (chunk : Nat) (cls : List Nat) (first n : Nat) : Act Unit :=
  each (List.range (n / chunk)) fun i => orAny cls fun k => placeChunk place pairs k (first + i * chunk) chunk

/-- Whether an instance of a declared cluster or die level holds more than one unit: each of its units is then placed where the
first of them went (R26). -/
def Run.spans (r : Run) (dom : Nat) : Bool := (r.teamsPer dom).any fun n => n > r.unitSize

/-- Where the instance of a cluster or die level that holds a team stands, once one of its teams has been placed. -/
def Run.home (r : Run) (dom team : Nat) : Option Nat :=
  if r.spans dom then (r.instOf dom team).bind fun i => mget? r.homes (dom * 2 ^ 32 + i) else none

/-- A team placed on a core keeps its cluster and die instances together; not ready on a core outside them (R26). -/
def keepHome (id team core : Nat) : Act Unit :=
  each [(4, coreCluster core), (5, coreDie core)] fun d => do
    let r ← someOr (mget? (← getChip).runs id)
    match r.home d.1 team with
    | some x => enabled (x = d.2)
    | none =>
      if r.spans d.1 then
        whenSome (r.instOf d.1 team) fun i => modRun id fun x => { x with homes := mset x.homes (d.1 * 2 ^ 32 + i) d.2 }
      else pure ()

/-- The clusters that may take a unit for a cluster: the one that selected it, or those of the instance that it belongs to (R26,
R237). -/
def Run.clustersFor (p : Partition) (r : Run) (cl team : Nat) : List Nat :=
  match r.home 4 team, r.home 5 team with
  | some k, _ => [k]
  | none, some d => if cl / 10 = d then [cl] else p.onDie d
  | none, none => [cl]

/-- A unit of a run placed whole for a cluster. -/
def placeUnitWith (place : Nat → Nat → Act Unit) (p : Partition) (r : Run) (cl unit : Nat) : Act Unit :=
  let pairs := r.declares 3
  let first := unit * r.unitSize
  let all := placeChunks place pairs r.chunk
  if r.unitDom ≤ 4 then all (r.clustersFor p cl first) first r.unitSize
  else if r.unitDom = 5 then all (p.onDie (cl / 10)) first r.unitSize
  else if r.declares 5 then
    let per := (r.teamsPer 5).getD 1
    each (List.range (r.unitSize / per)) fun i => orAny [0, 1, 2, 3] fun d => all (p.onDie d) (first + i * per) per
  else all p.clusters first r.unitSize

/-- A run's bound version is whole (R321). -/
def Chip.wholeVersion (c : Chip) (r : Run) : Bool :=
  r.wset = 0 ||
    (match c.boundVersion r with
      | some (_, v) => v.shards.all fun x => x.state = .valid || x.state = .tiered
      | none => false)

/-- A run's launch stops being head once it has dispatched every team. -/
def settleRun (id : Nat) : Act Unit := do
  whenSome (mget? (← getChip).runs id) fun r =>
    if r.status = .head && r.unitsLeft = 0 then
      modChip fun c => { c with
        runs := mmod c.runs id fun x => { x with status := .dispatched }
        queues := mmod c.queues r.queue fun q => { q with line := q.line.filter fun x => x ≠ id } }
    else pure ()

/-- A queue's watchdog starts with the first team of its launches to become resident (R275). -/
def startWatchdog (queue placed : Nat) : Act Unit := do
  let now ← clock
  modChip fun c => { c with queues := mmod c.queues queue fun q =>
    let here := c.teams.filter fun t => match mget? c.runs t.2.run with
      | some x => x.queue = queue
      | none => false
    if here.length = placed then { q with wdFrom := now, wdFired := false } else q }

/-- A team takes a core that keeps its instances together and, where the consumer cap is applied, is not at it (R26, R240). -/
def placeTeam (cap : Bool) (id team core : Nat) (start : Act Unit) : Act Unit := do
  keepHome id team core
  start
  let c ← getChip
  let r ← someOr (mget? c.runs id)
  enabled (!cap || c.edgeCapOk r (coreCluster core))

/-- A cluster places its next unit of a run, which must be allowed and fit; `cap` says whether the consumer cap is
applied. -/
def placeRun (cap : Bool) (id cl : Nat) : Act Unit := do
  let c ← getChip
  let now ← clock
  let r ← someOr (mget? c.runs id)
  let p := c.part r.part
  enabled (r.status = .head && !p.resetting && (c.ctx r.ctx).state = .active && c.wholeVersion r)
  let (unit, r') ← someOr (r.takeUnit cl)
  let r'' := { r' with ageFrom := now, paused := 0, pausedSince := none, guarded := none, miss := merase r'.miss cl }
  modChip fun c => { c with runs := mset c.runs id r'' }
  placeUnitWith (fun t k => placeTeam cap id t k (do
    let _ ← startTeam id (BitVec.ofNat 32 t) k
    pure ())) p r cl unit
  startWatchdog r.queue r.unitSize
  settleRun id
  pushHook cl 1 0

/-- A run as its launch becomes head; one that is head or past it as it stands. -/
def Run.asHead (p : Partition) (now : Nat) (r : Run) : Run :=
  if r.status = .queued then { r.split p with status := .head, ageFrom := now, paused := 0, pausedSince := none } else r

/-- Whether a unit of a run fits a cluster now, a default steal counted (FITS of R247); for a launch not yet head, as if it
were. -/
def runFits (cap : Bool) (id cl : Nat) : Act Bool := do
  let c ← getChip
  let now ← clock
  match (mget? c.runs id).bind fun r => (r.asHead (c.part r.part) now).withUnits (c.part r.part) cl with
  | none => return false
  | some r => trial (do
      modChip fun c => { c with runs := mset c.runs id r }
      placeRun cap id cl)

/-! ## Ages (R247, R252) -/

/-- A count that stops while a rule holds a candidate: its start, the clk held so far and since when it is held now. -/
def ageAt (now start paused : Nat) (since : Option Nat) : Nat := now - start - paused - (now - since.getD now)

def Run.age (r : Run) (now : Nat) : Nat := ageAt now r.ageFrom r.paused r.pausedSince

/-- Whether R240 or R321 holds a head run: its version is not whole, or the cap alone keeps it out of every cluster that
could take a unit. -/
def heldByRule (id : Nat) (r : Run) : Act Bool := do
  let c ← getChip
  if !c.wholeVersion r then return true
  else do
    let fits ← mapAct (c.part r.part).clusters fun k => do return (← runFits false id k, ← runFits true id k)
    return (fits.any fun f => f.1) && fits.all fun f => !f.1 || !f.2

/-- The ages of every head run stop or go on. -/
def refreshAges : Act Unit := do
  let now ← clock
  each ((← getChip).runs.filter fun r => r.2.status = .head) fun e => do
    let held ← heldByRule e.1 e.2
    modRun e.1 fun r =>
      match r.pausedSince, held with
      | none, true => { r with pausedSince := some now }
      | some t, false => { r with pausedSince := none, paused := r.paused + (now - t) }
      | _, _ => r

end Sys2Proof.Machine
end

