-- ==== Sys2Proof/Machine/Queue.lean ====
section
/-! DEFINITION. Launches from device code and relaunches: ENQ, RELAUNCH with its selection, and the end of a run with its
write-filter check, watch set and completion object (R36, R236, R280-R296, R355). -/

namespace Sys2Proof.Machine

/-! ## ENQ (R236, R355) -/

/-- The record's bytes as ENQ copies them. -/
def enqRecord (who : Actor) (user : Bool) (rec : Addr) : Act (List Byte) := do
  match ← bindRange who.core who.run who.ctx (Use.load user) rec.toNat 256 with
  | .ok ps => readPieces ps
  | .error (k, va) => trap causePage ((Use.load user).data k) (BitVec.ofNat 64 va) (lowLane who.mask)

/-- What a group that enqueues a launch has done and knows before it, as clocks by agent (R143). -/
def Chip.edgeOf (c : Chip) (who : Actor) (clk : BitVec 16) : List (BitVec 20 × BitVec 16) :=
  let r : SyncRec := ⟨0, who.run, who.agent, who.team, who.index, clk, 7, who.chk.vec, [], false, 0⟩
  (c.vecAgents r).foldl (fun k e => knowPut k e.1 e.2) (knowPut who.chk.know who.agent clk)

/-- An ENQ from its STATE test on: the slot and TAIL are written in one update, which publishes the group's clock. -/
def enqAppend (who : Actor) (user : Bool) (q : Nat) (rec : Addr) : Act EdgeOut := do
  match mget? (← getChip).queues q with
  | none => return .done 2 0
  | some e => do
    let hdr := e.hdr.toNat
    let tail ← homeNat (hdr + 0x10) 4
    if e.state ≠ .running then return .done 2 0
    else if (tail + 2 ^ 32 - e.head) % 2 ^ 32 ≥ e.size then return .wait
    else do
      let va := e.ring.toNat + 256 * (tail % e.size)
      match ← translate who.core who.run who.ctx (Use.store user) va with
      | .error k => trap causePage ((Use.store user).data k) (BitVec.ofNat 64 va) (lowLane who.mask)
      | .ok sp => do
        let bs ← enqRecord who user rec
        homeWrite sp bs (some (who.run, who.team))
        homeWrite (hdr + 0x10) (toLE 4 (tail + 1)) (some (who.run, who.team))
        let clk ← publish who.slot
        modChip fun c => { c with queues := mmod c.queues q fun x => { x with edges := mset x.edges tail (c.edgeOf who clk) } }
        return .done 0 0

/-- ENQ. -/
def execEnq (f : EnqF) (s : State) : Host.Outcome State Fault Refusal :=
  let sa := f.sa.toNat
  let sd := f.sd.toNat
  runZha 8 (issue 8 f.stall.toNat
    { Uses.none with ss := [sa, sa + 1, f.sq.toNat], sd := [sd], ps := guardPs f.g } fun h =>
    onceIf h f.g (do
      let q := (h.s f.sq.toNat).toNat
      let src := h.pair sa
      let e ← match mget? (← getChip).queues q with
        | some e => if q ≤ 4095 && e.ctx = h.ctx && e.dev then pure e else trap causeAccess 7
        | none => trap causeAccess 7
      let lane := lowLane h.mask
      let ls := [0, 64, 128, 192].map fun k => (lane, src + BitVec.ofNat 64 k)
      checkAlign 64 [(lane, src)]
      let _ ← globalRead h ⟨false, false, false, false⟩ (Use.load h.user) 64 ⟨h.actor, 0, false, 0, false⟩ ls
      awaitAccesses h.g
      match ← enqAppend h.actor h.user q src with
      | .done st _ => setS h sd (BitVec.ofNat 32 st)
      | .wait =>
        if f.nb = 1 then setS h sd 1
        else do
          awaitMonitor h.g e.hdr.toNat
          addMonitor h.g h.p e.hdr.toNat none
          parkOn h (.enq q src sd))) s

/-- Whether a parked side's monitor entry may be evaluated now: an overflow entry only every 4 096 clk (R219). -/
def Chip.monitorDue (c : Chip) (k : Parked) (now : Nat) : Bool :=
  (c.mons.filter fun m => m.slot = k.g && m.path = k.p).all fun m => !m.overflow || m.evalAt ≤ now

/-- The next evaluation of a path's overflow entries whose time has come to nothing. -/
def enqLater (g p : Nat) : Act Unit := do
  let now ← clock
  let due := fun (m : Monitor) => m.slot = g && m.path = p && m.overflow && m.evalAt ≤ now
  enabled ((← getChip).mons.any due)
  modChip fun c => { c with mons := c.mons.map fun m => if due m then { m with evalAt := now + 4096 } else m }

/-- One retry of a parked ENQ. -/
def enqRetry (k : Parked) : Act Unit := do
  let c ← getChip
  let who ← someOr (c.parkedActor k)
  let user := match c.path? k.g k.p with
    | some x => x.level ≠ .supervisor
    | none => true
  match k.wait with
  | .enq q rec sd => do
    let free : Act Unit := whenSome (mget? c.queues q) fun e => freeMonitor k.g k.p e.hdr.toNat
    enabled (c.monitorDue k (← clock))
    match ← attempt (enqAppend who user q rec) with
    | .error t => do
      free
      trapParked k t
    | .ok .wait => notReady
    | .ok (.done st _) => do
      free
      resume k [(sd, BitVec.ofNat 32 st)]
      pushHook (coreCluster who.core) 4 who.tid
  | _ => notReady

/-- ENQ_PARK_RETRY. -/
def execEnqParkRetry (g p : Nat) (s : State) : Host.Outcome State Fault Refusal :=
  runEvent (do
    let ks := (← getChip).parkedOn g p fun w => match w with
      | .enq .. => true
      | _ => false
    ks.foldr (fun k a => orElse (enqRetry k) a) (enqLater g p)
    settle) s

/-! ## Team records and watch sets (R284-R289) -/

/-- A team record as a selection reads it. -/
structure TeamRec where
  word : Nat
  run : Nat
  runs : List (Nat × Nat)
  deriving DecidableEq, Repr

def TeamRec.always (t : TeamRec) : Bool := bits t.word 6 1 = 1
def TeamRec.nonreplay (t : TeamRec) : Bool := bits t.word 7 1 = 1
def TeamRec.valid (t : TeamRec) : Bool := bits t.word 8 1 = 1

def TeamRec.of (b : List Byte) : TeamRec :=
  let w := recNat b 0 4
  { word := w, run := recNat b 4 4,
    runs := (List.range (min 32 (bits w 0 6))).map fun k =>
      let x := recNat b (0x10 + 8 * k) 8
      (bits x 0 40, bits x 40 24) }

def Run.teamRecAt (r : Run) (t : Nat) : Nat := r.trreg + 0x200 + 272 * t

/-- A team's record, none where its page does not translate or is poisoned. -/
def readTeamRec (r : Run) (t : Nat) : Act (Option TeamRec) := do
  return (← hwRead r.ctx (r.teamRecAt t) 272).map TeamRec.of

/-- The entries of a run's write filter. -/
def readFilter (r : Run) : Act (List Nat) := do
  match ← hwRead r.ctx r.trreg 4 with
  | none => return []
  | some h => do
    let n := 2 ^ bits (fromLE h) 0 5
    match ← hwRead r.ctx (r.trreg + filterOffset r.teamCount) (4 * n) with
    | some b => return numbersOf 4 n b
    | none => return []

/-- Whether a tile of a trace has a filter entry of another team (R285). -/
def TeamRec.meetsFilter (t : TeamRec) (team : Nat) (filter : List Nat) : Bool :=
  filter ≠ [] && t.runs.any fun x => (List.range (min x.2 filter.length)).any fun i =>
    let e := filter.getD ((x.1 + i) % filter.length) 0
    e ≠ 0 && e ≠ team + 1

/-- The filter check of the teams that completed in a run. -/
def checkFilter (id : Nat) (r : Run) : Act Unit := do
  let filter ← readFilter r
  each r.doneTeams fun t => do
    whenSome (← readTeamRec r t) fun x =>
      if x.meetsFilter t filter then regionWrite id (some (BitVec.ofNat 32 t)) (r.teamRecAt t - r.trreg) (toLE 4 (x.word ||| 128))
      else pure ()

/-- The tiles that a bitmap's bytes mark. -/
def bitmapTiles (w : Watch) : Act (List Nat) := do
  let bs ← readBytes w.bmap (w.tlen / 8)
  return (bs.zipIdx.filter fun b => b.1 ≠ 0).flatMap fun b =>
    ((List.range 8).filter fun i => b.1.getLsbD i).map fun i => w.tbase + 8 * b.2 + i

/-- A bitmap cleared: its bytes that are not 0 are written. -/
def clearBitmap (w : Watch) : Act Unit := do
  let bs ← readBytes w.bmap (w.tlen / 8)
  each (bs.zipIdx.filter fun b => b.1 ≠ 0) fun b => writeByte (w.bmap + b.2) 0

def setWatch (ctx set : Nat) (w : Watch) : Act Unit := modCtx ctx fun x => { x with watch := mset x.watch set w }

/-- The set that a traced run's launch takes (R289). -/
def Context.watchChoice (x : Context) : Option (Nat × Watch) :=
  match x.watch.find? fun w => w.2.state = .free with
  | some w => some w
  | none => (x.watch.filter fun w => w.2.state = .assigned).foldl (fun m w => match m with
    | none => some w
    | some y => if w.2.at_ < y.2.at_ then some w else some y) none

/-- The next assignment count, which skips 0. -/
def nextSerial (n : Nat) : Nat := if (n + 1) % 65536 = 0 then 1 else (n + 1) % 65536

/-- A watch set is assigned to the launch of a run that completed OK: its handle, none where the context has none. -/
def assignWatch (id : Nat) (r : Run) : Act (Option Nat) := do
  let now ← clock
  let x := (← getChip).ctx r.ctx
  match x.watchChoice with
  | none => return none
  | some (set, w) => do
    let serial := nextSerial x.wserial
    clearBitmap w
    setWatch r.ctx set { w with state := .assigned, serial := serial, at_ := now, run := id, stale := false }
    modCtx r.ctx fun x => { x with wserial := serial }
    return some (serial * 2 ^ 16 + set)

/-- The set of a live handle of a context (R289). -/
def Context.watchOf (x : Context) (handle : Nat) : Option (Nat × Watch) :=
  match mget? x.watch (handle % 8) with
  | some w => if handle / 8 % 2 ^ 13 = 0 && w.serial = handle / 2 ^ 16 && w.state ≠ .free && !w.stale then some (handle % 8, w)
              else none
  | none => none

/-- The end of a traced run: the filter check, then the set and the header's handle and state. -/
def closeTrace (id : Nat) (r : Run) (ok : Bool) : Act Unit := do
  if !r.traced then pure ()
  else do
    checkFilter id r
    match r.sel with
    | some ts => do
      let x := (← getChip).ctx r.ctx
      whenSome (r.watch.bind fun h => (mget? x.watch (h.toNat % 8)).map fun w => (h.toNat, w)) fun w =>
        if w.2.serial = w.1 / 2 ^ 16 && w.2.state = .relaunching then setWatch r.ctx (w.1 % 8) { w.2 with state := .assigned }
        else pure ()
      regionWrite id none 0x14 (toLE 4 1 ++ toLE 4 ts.length)
    | none => do
      let h ← if ok then assignWatch id r else pure none
      match h with
      | some h => do
        regionWrite id none 0x10 (toLE 4 h ++ toLE 4 1)
      | none => do
        regionWrite id none 0x10 (toLE 4 0 ++ toLE 4 2)

/-! ## The end of a run (R36, R235, R241) -/

/-- The lines whose partials hold a contribution of a run. -/
def Chip.runLines (c : Chip) (id : Nat) : List Nat :=
  distinct (c.cores.flatMap fun k => (k.2.partials.filter fun e => e.2.who.any fun a => a.1.run = id).map fun e => e.1 / 128)

/-- The release of a completion object's write: what the groups of its run knew when they left (R143). -/
def releaseCompletion (id ctx va : Nat) (know : List (BitVec 20 × BitVec 16)) : Act Unit :=
  match know with
  | [] => pure ()
  | (a, k) :: rest => do
    match ← hwTranslate ctx true va with
    | .error _ => pure ()
    | .ok pa => do
      let used ← useStamp
      let kept := rest.take 16
      putRecord ⟨none, pa / 32, pa⟩ ⟨pa / 32, id, a, 0, 32, k, 7, [], kept, decide (kept.length < rest.length), used⟩

/-- A run completes: its partials combine, its trace closes, its directory entries are DONE, edges without another producer
close, and its completion object is written. -/
def finishRun (id : Nat) : Act Unit := do
  each ((← getChip).runLines id) recallLine
  whenSome (mget? (← getChip).runs id) fun r => do
    let status := if r.lost then 6 else if r.fault then 1 else 0
    closeTrace id r (status = 0)
    modChip fun c => { c with
      runs := mmod c.runs id fun x => { x with status := .complete, pkgRange := [], dieRanges := [], cluRanges := [] }
      queues := mmod c.queues r.queue fun q => { q with line := q.line.filter fun x => x ≠ id }
      slots := c.slots.map fun s => (s.1, { s.2 with dir := s.2.dir.map fun d =>
        (d.1, if d.2.run = id then { d.2 with state := .done } else d.2) }) }
    let c ← getChip
    each r.outEdges fun e =>
      if c.runs.any fun x => x.2.live && x.2.ctx = r.ctx && x.2.outEdges.contains e then pure () else setClosed r.ctx e true
    writeCompletion r.part r.ctx r.cobj.toNat status r.doneTeams.length r.lid
    if r.cobj = 0 then pure () else releaseCompletion id r.ctx r.cobj.toNat r.left

/-! ## RELAUNCH (R290-R293) -/

/-- A team's run of tiles meets a snapshot, or lies in part outside the set's window. -/
def tilesMeet (w : Watch) (snap : List Nat) (x : Nat × Nat) : Bool :=
  (snap.any fun t => x.1 ≤ t && t < x.1 + x.2) || x.1 < w.tbase || w.tbase + w.tlen < x.1 + x.2

/-- The teams that a relaunch selects (R291): those that match, those whose trace cannot be trusted, whole units of them. -/
def selectTeams (r : Run) (w : Watch) (mode : Nat) (snap : List Nat) : Act (List Nat) := do
  let recs ← mapAct (List.range r.teamCount) fun t => do return (t, ← readTeamRec r t)
  let trusted := recs.filter fun e => match e.2 with
    | some x => x.valid && !x.always && !x.nonreplay
    | none => false
  let hit := (recs.filter fun e => match e.2 with
    | some x => x.valid && (((trusted.any fun y => y.1 = e.1) && x.runs.any (tilesMeet w snap)) ||
        x.runs.any fun y => y.1 < w.tbase || w.tbase + w.tlen < y.1 + y.2)
    | none => false).map Prod.fst
  let always := (recs.filter fun e => !trusted.any fun y => y.1 = e.1).map Prod.fst
  let sel := if mode = 1 && hit.isEmpty then [] else hit ++ always
  return (List.range r.teamCount).filter fun t => sel.any fun u => u / r.unitSize = t / r.unitSize

/-- RELAUNCH: the checks, the release, the snapshot, the selection over it and the run, which joins the queue at this moment with
the version that is current (R292); the path parks until RELAUNCH_SELECT answers (assumption 92). -/
def execRelaunch (f : RelaunchF) (s : State) : Host.Outcome State Fault Refusal :=
  let sb := f.sb.toNat
  let sd := f.sd.toNat
  runZha 8 (issue 8 f.stall.toNat
    { Uses.none with ss := f.sa.toNat :: (if sb = 0 then [] else [sb, sb + 1]), sd := [sd, sd + 1], ps := guardPs f.g } fun h =>
    onceIf h f.g (do
      let obj : Addr := if sb = 0 then 0 else h.pair sb
      if obj = 0 then pure ()
      else if bits obj.toNat 56 8 ≠ 0 then trap causeAccess 5 obj
      else checkObject h obj
      awaitAccesses h.g
      let clk ← publish h.g
      let c ← getChip
      let give := fun (st : Nat) => setPair h sd (BitVec.ofNat 64 (st * 2 ^ 32))
      let handle := h.s f.sa.toNat
      match (c.ctx h.ctx).watchOf handle.toNat with
      | none => give 1
      | some (set, w) =>
        if w.state = .relaunching then give 2
        else if f.mode = 2 then do
          clearBitmap w
          setWatch h.ctx set { w with state := .free }
          give 0
        else
          match mget? c.runs w.run with
          | none => give 3
          | some r =>
            if !((mget? c.queues r.queue).any fun q => q.state = .running) then give 3
            else do
              let snap ← bitmapTiles w
              clearBitmap w
              let sel ← selectTeams r w f.mode.toNat snap
              if sel.isEmpty then pure ()
              else do
                setWatch h.ctx set { w with state := .relaunching }
                let c ← getChip
                let _ ← queueRun { (Run.make c r.lid r.ctx r.part r.queue r.record) with
                  sel := some sel, cobj := obj, watch := some handle, wver := c.currentVersion r, know := c.edgeOf h.actor clk }
              parkOn h (.relaunch obj w.run sel.length sd))) s


/-- RELAUNCH_SELECT: the selection's count reaches the path; an empty one completes the object. -/
def execRelaunchSelect (g p : Nat) (s : State) : Host.Outcome State Fault Refusal :=
  runEvent (do
    let c ← getChip
    let k ← someOr (c.parkedOn g p fun w => match w with
      | .relaunch .. => true
      | _ => false).head?
    match k.wait with
    | .relaunch obj run count sd => do
      resume k (pairResult sd (BitVec.ofNat 64 count))
      if count = 0 then whenSome (mget? c.runs run) fun r => writeCompletion r.part r.ctx obj.toNat 0 0 r.lid else pure ()
    | _ => notReady) s

end Sys2Proof.Machine
end

