-- ==== Sys2Proof/Machine/Lease.lean ====
section
/-! DEFINITION. Leases of sleeping engines, the current arbiter's events and the near-threshold islands (R170-R187). -/

namespace Sys2Proof.Machine

/-! ## LEASE, LREL, LSTAT (R171-R175, R179) -/

def codeOf : LeaseState → Nat
  | .queued => 1
  | .waking => 2
  | .held => 3
  | .notice => 4
  | .revoked => 5

/-- The lowest free lease slot of a group. -/
def Group.freeLease (x : Group) : Option Nat := (List.range 4).find? fun i => (mget? x.leases i).isNone

/-- Where a class queues for a core: the core for MX, the cluster otherwise. -/
def queuePlace (cls core : Nat) : Nat := if cls = 0 then core else coreCluster core

/-- The lowest free entry of a class queue of 64. -/
def Chip.freeEntry (c : Chip) (cls place : Nat) : Option Nat :=
  (List.range 64).find? fun i => (c.queueLeases cls place).all fun l => l.2.qidx ≠ i

/-- A lease enters its queue: the queue's serial moves on, the group's slot is taken (R172). Answers its handle and
number. -/
def enqueueLease (h : Here) (cls want slot qidx : Nat) : Act (Word × Nat) := do
  let c ← getChip
  let now ← clock
  let place := queuePlace cls h.core
  let serial := mgetD c.leaseSerial 0 (queueKey cls place) + 1
  let uid := c.leaseNext
  let l : Lease :=
    { cls := cls, place := place, qidx := qidx, serial := serial, tid := h.tid, slot := h.g, index := h.grp.index,
      lslot := slot, ctx := h.ctx, want := want, since := now, aged := false, state := .queued, unit := 0, grantAt := 0, heldAt := 0,
      wakeAt := 0, revokeAt := 0, opser := 0 }
  setChip { c with
    leases := mset c.leases uid l, leaseNext := uid + 1, leaseSerial := mset c.leaseSerial (queueKey cls place) serial }
  modGroup h.g fun x => { x with leases := mset x.leases slot uid }
  return (l.handle, uid)

/-- LEASE (R179). -/
def execLease (f : LeaseF) (s : State) : Host.Outcome State Fault Refusal :=
  let cls := f.cls.toNat
  let sd := f.sd.toNat
  runZha 8 (issue 8 f.stall.toNat { Uses.none with sd := [sd], ps := guardPs f.g } fun h =>
    onceIf h f.g (do
      let c ← getChip
      match if cls = 0 then c.mxLease h.tid else none with
      | some (uid, l) => do
        setS h sd l.handle
        if f.nb = 1 || !l.waits then pure () else parkOn h (.lease uid sd)
      | none =>
        match h.grp.freeLease with
        | none => trap causeBound 7
        | some slot =>
          match c.freeEntry cls (queuePlace cls h.core) with
          | none => if f.nb = 1 then setS h sd 0xFFFFFFFF else notReady
          | some q => do
            let (handle, uid) ← enqueueLease h cls f.unit.toNat slot q
            setS h sd handle
            if f.nb = 1 then pure () else parkOn h (.lease uid sd))) s

/-- LREL (R175): a stale handle does nothing. -/
def execLrel (f : LrelF) (s : State) : Host.Outcome State Fault Refusal :=
  runZha 8 (issue 8 f.stall.toNat { Uses.none with ss := [f.sa.toNat], ps := guardPs f.g } fun h =>
    onceIf h f.g (do
      let c ← getChip
      whenSome (c.leaseBy h.tid (h.s f.sa.toNat)) fun (uid, l) =>
        if l.state = .queued || l.state = .revoked || c.leaseDrained uid then do
          endLease uid (f.ret = 1)
          settle
        else parkOn h (.lrel uid (f.ret = 1)))) s

/-- The LSTAT word of a lease (R174). -/
def Chip.leaseWord (c : Chip) (now : Nat) (l : Lease) : Word :=
  let left := fun (t : Nat) => min (t - now) 0xFFFF
  let remain := match l.state with
    | .waking => left l.wakeAt
    | .notice => left l.revokeAt
    | _ => 0
  let ahead := ((c.queueLeases l.cls l.place).filter fun x => x.2.state = .queued && c.leaseBefore x.2 l).length
  BitVec.ofNat 32 (remain * 2 ^ 16 + (if l.state = .queued then min ahead 255 else 0) * 2 ^ 8 +
    (if l.state = .queued then 0 else l.unit) * 8 + codeOf l.state)

/-- LSTAT. -/
def execLstat (f : ScalarPairF) (s : State) : Host.Outcome State Fault Refusal :=
  runZha 8 (issue 8 f.stall.toNat { Uses.none with ss := [f.sa.toNat], sd := [f.sd.toNat], ps := guardPs f.g } fun h =>
    onceIf h f.g (do
      let c ← getChip
      let now ← clock
      setS h f.sd.toNat (match c.leaseBy h.tid (h.s f.sa.toNat) with
        | some (_, l) => c.leaseWord now l
        | none => 0))) s

/-- LEASEST of a group (R173). -/
def Chip.leasest (c : Chip) (x : Group) : Word :=
  BitVec.ofNat 32 (x.leases.foldl (fun n e => match mget? c.leases e.2 with
    | some l => n + (l.cls * 8 + codeOf l.state) * 2 ^ (8 * e.1)
    | none => n) 0)

/-! ## Grants, wake, age (R175-R177) -/

/-- The lease at an entry of a class queue. -/
def leaseAt (q e : Nat) : Act (Nat × Lease) := do
  someOr ((← getChip).leases.find? fun l => queueKey l.2.cls l.2.place = q && l.2.qidx = e)

/-- LEASE_GRANT: a free unit goes to the highest-ranked eligible entry, whose hold of 1 CQ is asked of the arbiter; the
unit stays with its queue until that is granted (R176, R183). -/
def execLeaseGrant (q e unit : Nat) (s : State) : Host.Outcome State Fault Refusal :=
  runEvent (do
    let (uid, l) ← leaseAt q e
    let c ← getChip
    let asked := (c.cluster l.cluster).reqs.any fun r => match r.owner with
      | .lease v => (match mget? c.leases v with
        | some m => m.cls = l.cls && m.place = l.place && m.unit = unit
        | none => false)
      | _ => false
    enabled (l.state = .queued && unit < classUnits l.cls && (c.unit l.cls l.place unit).lease.isNone && !asked &&
      (c.bestLease l.cls l.place unit).map Prod.fst = some uid)
    modLease uid fun x => { x with unit := unit }
    askCq l.cluster (.lease uid) 1 (l.cls ≠ 0) (c.ctxPrio l.ctx)
    arbitrate l.cluster) s

/-- LEASE_WAKE_COMPLETE. -/
def execLeaseWakeComplete (q e : Nat) (s : State) : Host.Outcome State Fault Refusal :=
  runEvent (do
    let (uid, l) ← leaseAt q e
    let now ← clock
    enabled (l.state = .waking && l.wakeAt ≤ now)
    modLease uid fun x => { x with state := .held, heldAt := now }
    settle) s

/-- The lease bound of a lease's partition, in clk (R178). -/
def Chip.lbound (c : Chip) (l : Lease) : Nat := (c.part (l.partOf c)).lbound * 4096

/-- LEASE_ENTRY_AGED. -/
def execLeaseEntryAged (q e : Nat) (s : State) : Host.Outcome State Fault Refusal :=
  runEvent (do
    let (uid, l) ← leaseAt q e
    enabled (l.state = .queued && !l.aged && l.since + 16 * (← getChip).lbound l ≤ (← clock))
    modLease uid fun x => { x with aged := true }) s

/-! ## NOTICE and REVOKED (R185) -/

/-- Whether a queued entry forces a holder: it has waited the bound at a higher context priority, four at an equal one. -/
def Chip.forces (c : Chip) (now : Nat) (x l : Lease) : Bool :=
  x.state = .queued && l.state = .held && x.eligible l.unit &&
    ((c.ctxPrio x.ctx > c.ctxPrio l.ctx && x.since + c.lbound x ≤ now) ||
      (c.ctxPrio x.ctx = c.ctxPrio l.ctx && x.since + 4 * c.lbound x ≤ now))

/-- Whether every unit that an entry could use is in use by a lease neither in NOTICE nor REVOKED. -/
def Chip.noneComing (c : Chip) (x : Lease) : Bool :=
  (List.range (classUnits x.cls)).all fun u =>
    !x.eligible u ||
      (match (c.unit x.cls x.place u).lease.bind fun i => mget? c.leases i with
        | some l => l.state = .held || l.state = .waking
        | none => false)

/-- The holder that an entry sends into NOTICE: the lowest priority, then the longest held. -/
def Chip.forced (c : Chip) (now : Nat) (x : Lease) : Option Nat :=
  (((c.queueLeases x.cls x.place).filter fun l => c.forces now x l.2).foldl (fun (m : Option (Nat × Lease)) l =>
    match m with
    | none => some l
    | some k =>
      if c.ctxPrio l.2.ctx < c.ctxPrio k.2.ctx || (c.ctxPrio l.2.ctx = c.ctxPrio k.2.ctx && l.2.heldAt < k.2.heldAt) then some l
      else m) none).map Prod.fst

/-- The leases that a NOTICE or REVOKED on one reaches: both MX of a pair that runs an MMA.p (R185, R199). -/
def Chip.leaseGroup (c : Chip) (uid : Nat) : List Nat :=
  match mget? c.leases uid with
  | none => []
  | some l =>
    let other := l.place + 1 - 2 * (l.place % 2)
    let paired := fun k => (c.core k).order.any fun o => o.2.kind = .mma && o.2.mods.getLsbD 2 && o.2.running
    if l.cls = 0 && (paired l.place || paired other) then
      uid :: (match (c.unit 0 other 0).lease with
        | some v => [v]
        | none => [])
    else [uid]

/-- HELD leases enter NOTICE, with 2 000 clk of grace. -/
def giveNotice (uid : Nat) : Act Unit := do
  let now ← clock
  each ((← getChip).leaseGroup uid) fun u =>
    modLease u fun x => if x.state = .held then { x with state := .notice, revokeAt := now + 2000 } else x

/-- LEASE_NOTICE: the entry named is a holder that an aged entry of its queue forces. -/
def execLeaseNotice (q e : Nat) (s : State) : Host.Outcome State Fault Refusal :=
  runEvent (do
    let (uid, l) ← leaseAt q e
    let c ← getChip
    let now ← clock
    enabled (l.state = .held && (c.queueLeases l.cls l.place).any fun x =>
      c.noneComing x.2 && c.forced now x.2 = some uid)
    giveNotice uid) s

/-- LEASE_REVOKE: the grace has expired. -/
def execLeaseRevoke (q e : Nat) (s : State) : Host.Outcome State Fault Refusal :=
  runEvent (do
    let (uid, l) ← leaseAt q e
    enabled (l.state = .notice && l.revokeAt ≤ (← clock))
    each ((← getChip).leaseGroup uid) fun u => do
      match mget? (← getChip).leases u with
      | some x => if x.state = .notice || x.state = .held then revokeLease u else pure ()
      | none => pure ()
    settle) s

/-! ## The arbiter (R183, R184) -/

/-- CQ_GRANT. -/
def execCqGrant (cl : Nat) (s : State) : Host.Outcome State Fault Refusal :=
  runEvent (do
    arbitrate cl
    settle) s

/-- CQ_REQUEST_AGED: the request at a place of the arbiter's list has waited 65 536 clk. -/
def execCqRequestAged (cl req : Nat) (s : State) : Host.Outcome State Fault Refusal :=
  runEvent (do
    let r ← someOr ((← getChip).cluster cl).reqs[req]?
    enabled (r.since + 65536 ≤ (← clock))
    modCluster cl fun k => { k with reqs := k.reqs.set req { r with aged := true } }) s

/-- CQ_OVER_BUDGET: over budget for 4 096 clk, the lowest-priority, most recently granted held lease gets NOTICE. -/
def execCqOverBudget (cl : Nat) (s : State) : Host.Outcome State Fault Refusal :=
  runEvent (do
    let c ← getChip
    let k := c.cluster cl
    let since ← someOr k.overSince
    enabled (k.over && since + 4096 ≤ (← clock))
    let held := c.leases.filter fun l => l.2.cluster = cl && l.2.state = .held
    let worst := held.foldl (fun (m : Option (Nat × Lease)) l =>
      match m with
      | none => some l
      | some w =>
        if c.ctxPrio l.2.ctx < c.ctxPrio w.2.ctx || (c.ctxPrio l.2.ctx = c.ctxPrio w.2.ctx && w.2.grantAt ≤ l.2.grantAt) then some l
        else m) none
    let w ← someOr worst
    giveNotice w.1) s

/-- CQ_BUDGET_CHANGE: a lowered budget cancels nothing. -/
def execCqBudgetChange (cl budget share : Nat) (s : State) : Host.Outcome State Fault Refusal :=
  runEvent (do
    let now ← clock
    modCluster cl fun k =>
      let k := { k with budget := budget, share := share }
      { k with overSince := if k.over then some (k.overSince.getD now) else none }
    arbitrate cl) s

/-! ## Islands (R187) -/

/-- The other core of a neighbour pair (R16). -/
def neighbour (core : Nat) : Nat := core + 1 - 2 * (core % 2)

def Core.runsMv (k : Core) : Bool := k.order.any fun o => o.2.kind = .mv && o.2.running

def setIsland (core : Nat) (v : Bool) : Act Unit := do
  modCore core fun k => { k with island := v }
  modCore (neighbour core) fun k => { k with island := v }

/-- ISLAND_ENTER: an MV runs on either core of the pair. -/
def execIslandEnter (core : Nat) (s : State) : Host.Outcome State Fault Refusal :=
  runEvent (do
    let c ← getChip
    enabled (!(c.core core).island && ((c.core core).runsMv || (c.core (neighbour core)).runsMv))
    setIsland core true) s

/-- ISLAND_EXIT: 256 clk after the last MV of the pair ended. -/
def execIslandExit (core : Nat) (s : State) : Host.Outcome State Fault Refusal :=
  runEvent (do
    let c ← getChip
    let now ← clock
    let done := fun (k : Core) => !k.runsMv && (match k.mvEnd with
      | some t => decide (t + 256 ≤ now)
      | none => true)
    enabled ((c.core core).island && done (c.core core) && done (c.core (neighbour core)))
    setIsland core false) s

end Sys2Proof.Machine
end

