-- ==== Sys2Proof/Machine/Special.lean ====
section
/-! DEFINITION. Special registers: SRD, SWR, RCHK and PROG (R44-R46, R61, R164, R261, R394, R406, R407). -/

namespace Sys2Proof.Machine

/-! ## Level registers (R28) -/

/-- LVLk of a lane: levels stand in declared order, lane, group and team first; grid and what lies above read (0, 1). -/
def lvlWord (h : Here) (k lane : Nat) : Word :=
  let fans := (h.run.levels.map LevelDecl.fan)
  let t := h.team.num.toNat
  let (i, n) := match k with
    | 0 => (lane, 32)
    | 1 => (h.grp.index, h.team.groups)
    | k + 2 =>
      match fans[k]? with
      | some f => (t / ((fans.take k).foldl (· * ·) 1) % f, f)
      | none => (0, 1)
  BitVec.ofNat 32 (i % 65536 + n * 65536)

/-! ## Reading (R44, R61, R261) -/

/-- A special register's value: 32 bits by lane, or 64 bits. -/
inductive Special where
  | narrow (f : Nat → Word)
  | wide (v : Addr)

/-- TRAPFRAME: the frame window, or the frame's virtual address in the trap area; nothing is stated without an area. -/
def trapFrame (h : Here) : Act Addr := do
  let c ← getChip
  let w ← frameWindow h.ctx
  if w ≠ 0 then return BitVec.ofNat 64 w
  else
    match (c.ctx h.ctx).area with
    | some a => return a.va + BitVec.ofNat 64 (c.frameOff h.ctx h.g h.p (levelCode h.path.level))
    | none => freeValue

/-- STORE_LATE reports deferred for a group while paths stand at supervisor level. -/
def deferredLate (x : Group) : Nat :=
  (x.paths.filter fun p => p.2.level = .supervisor).foldl (fun n p => n + p.2.late.length) 0

/-- The register of a number at user level, none where R44 and R61 list none. -/
def specialUser (h : Here) (num : Nat) : Act (Option Special) := do
  let c ← getChip
  let all := fun (v : Word) => some (Special.narrow fun _ => v)
  let nat := fun (n : Nat) => all (BitVec.ofNat 32 n)
  let e := h.grp.emu
  if 0x008 ≤ num && num ≤ 0x00F then return some (.narrow fun i => lvlWord h (num - 8) i)
  else match num with
  | 0x000 => return nat (0x0101 + Config.stepping.toNat * 65536)
  | 0x001 => return some (.narrow fun i => BitVec.ofNat 32 i)
  | 0x002 => return nat h.grp.index
  | 0x003 => return all h.team.num
  | 0x004 => return nat h.p
  | 0x005 => return nat h.agent.toNat
  | 0x006 => return nat (placeOf h.g)
  | 0x007 => return nat h.ctx
  | 0x010 => return some (.wide (BitVec.ofNat 64 (← clock)))
  | 0x012 => return all h.run.lid
  | 0x013 => return nat ((if h.check then 1 else 0) + (if h.run.idem then 2 else 0) + (if h.traced then 4 else 0))
  | 0x014 => return all h.mask
  | 0x018 => return all h.team.fpctl
  | 0x020 => return all h.path.cause
  | 0x022 => return some (.wide (← trapFrame h))
  | 0x030 => return all e.w0
  | 0x031 => return all e.w1
  | 0x032 => return some (.wide e.pc)
  | 0x034 => return some (.wide e.next)
  | 0x036 => return all e.dec
  | 0x037 => return all e.ops
  | 0x038 => return all e.mask
  | 0x039 => return all e.imm
  | 0x03A => return all e.cls
  | 0x040 => return nat h.team.raceMode.toNat
  | 0x041 => return some (.wide (BitVec.ofNat 64 h.run.rlog))
  | 0x048 => return all (c.leasest h.grp)
  | 0x04C => return all (h.team.ret.extractLsb' 0 32)
  | _ => return none

/-- The registers of supervisor code (R261). -/
def specialSup (h : Here) (num : Nat) : Act (Option Special) := do
  match num with
  | 0x200 =>
    match ((← getChip).ctx h.ctx).area with
    | some a => return some (.wide a.va)
    | none => return some (.wide (← freeValue))
  | 0x202 => return some (.wide (BitVec.ofNat 64 h.run.flog))
  | 0x204 =>
    let nested := match h.path.supFrame with
      | some f => f.nested
      | none => false
    return some (.narrow fun _ => BitVec.ofNat 32 ((if nested then 1 else 0) + 2 * min 31 (deferredLate h.grp)))
  | _ => return none

/-- The ILLEGAL trap of an instruction that is 8 bytes long. -/
def illegalX (i : Instr) : Act α :=
  let w := match i.enc with
    | some (_, w) => w
    | none => 0
  stop (.trap ⟨causeIllegal, 0, 0, 0, 0, [], false, BitVec.ofNat 32 w, BitVec.ofNat 32 (w / 2 ^ 32)⟩)

/-- The register an SRD or SWR names, with R407's refusals. -/
def special (h : Here) (i : Instr) (num : Nat) : Act Special := do
  if num ≥ 0x200 then
    if h.path.level ≠ .supervisor then trap causePriv 5
    else match ← specialSup h num with
      | some v => return v
      | none => illegalX i
  else match ← specialUser h num with
    | some v => return v
    | none => illegalX i

/-- SRD (R406, R407): readable after 2 clk, CLOCK at once. -/
def execSrd (f : SrdF) (s : State) : Host.Outcome State Fault Refusal :=
  let d := f.d.toNat
  let num := f.num.toNat
  let st := f.stall.toNat
  let uses := if f.vd = 1 then { Uses.none with vd := [d], ps := guardPs f.g }
    else { Uses.none with sd := [d], ps := guardPs f.g }
  runZha 8 (issue 8 st uses fun h =>
    onceIf h f.g (do
      match ← special h (.srd f) num with
      | .narrow w =>
        if f.vd = 1 then writeV h 2 st d (h.lanes f.g) fun i => ⟨w i, tagN32⟩
        else writeS h 2 st d (w (lowLane h.mask))
      | .wide v =>
        if num = 0x010 then setPair h d v
        else do
          writeS h 2 st d (v.extractLsb' 0 32)
          writeS h 2 st (d + 1) (v.extractLsb' 32 32))) s

/-- SWR (R406, R407). -/
def execSwr (f : SwrF) (s : State) : Host.Outcome State Fault Refusal :=
  let a := f.sa.toNat
  let num := f.num.toNat
  runZha 8 (issue 8 f.stall.toNat
    { Uses.none with ss := if num = 0x034 then [a, a + 1] else [a], ps := guardPs f.g } fun h =>
    onceIf h f.g (do
      let _ ← special h (.swr f) num
      match num with
      | 0x018 => do
        let now ← clock
        modTeam h.tid fun t => { t with fpctl := (h.s a &&& 0x7FF) ||| (if t.raised.1 = now then
          (t.raised.2.setWidth 32 : Word) <<< (6 : Nat) else 0) }
      | 0x034 => modGroup h.g fun x => { x with emu := { x.emu with next := h.pair a } }
      | _ => trap causePriv 4)) s

/-- RCHK (R164). -/
def execRchk (f : RchkF) (s : State) : Host.Outcome State Fault Refusal :=
  runZha 8 (issue 8 f.stall.toNat { Uses.none with sd := [f.sd.toNat], ps := guardPs f.g } fun h =>
    onceIf h f.g (do
      setS h f.sd.toNat (h.team.raceMode.setWidth 32)
      modTeam h.tid fun t => { t with raceMode := f.mode })) s

/-- PROG (R266, R394). -/
def execProg (f : ScalarPairF) (s : State) : Host.Outcome State Fault Refusal :=
  runZha 8 (issue 8 f.stall.toNat { Uses.none with ss := [f.sa.toNat], ps := guardPs f.g } fun h =>
    onceIf h f.g (do
      let v := h.s f.sa.toNat
      modTeam h.tid fun t => { t with hint := if v.getLsbD 16 then v.setWidth 17 else 0 })) s

end Sys2Proof.Machine
end

