-- ==== Sys2Proof/Machine/System.lean ====
section
/-! DEFINITION. Calls of handlers and returns from them, the end of lanes, and register growth: TRAP, BKPT, SYS, TRET, EXIT,
REGSET (R253-R260, R277, R337, R358, R396, R397, R413, R416). -/

namespace Sys2Proof.Machine

/-! ## TRAP, SYS, BKPT -/

/-- TRAP: USER, with RPC at the next instruction (R416). -/
def execTrap (f : CodeF) (s : State) : Host.Outcome State Fault Refusal :=
  runZha 8 (issue 8 f.stall.toNat { Uses.none with ps := guardPs f.g } fun h =>
    onceIf h f.g (stop (.trap ⟨causeUser, f.code.toNat, 0, 0, 0, [], true, 0, 0⟩))) s

/-- SYS: PRIV 0x8000 + code (R413). -/
def execSys (f : CodeF) (s : State) : Host.Outcome State Fault Refusal :=
  runZha 8 (issue 8 f.stall.toNat { Uses.none with ps := guardPs f.g } fun h =>
    onceIf h f.g (trap causePriv (0x8000 + f.code.toNat % 2 ^ 15))) s

/-- BKPT: a trap, or a hold where the trap area's DBG is 1 (R277, R337). -/
def execBkpt (f : CodeF) (s : State) : Host.Outcome State Fault Refusal :=
  runZha 8 (issue 8 f.stall.toNat { Uses.none with ps := guardPs f.g } fun h =>
    onceIf h f.g (do
      let dbg ← match ((← getChip).ctx h.ctx).area with
        | some a => pure (decide (bits (← homeNat (a.pa + 0x20) 4) 0 1 = 1))
        | none => pure false
      if dbg then do
        modPath h.g h.p fun x => { x with pc := h.path.pc }
        holdStop h.g h.p causeBkpt f.code.toNat 8
      else trap causeBkpt f.code.toNat)) s

/-! ## TRET (R258, R260, R262) -/

/-- What waits for an access waits for its re-issue: fences of its group that cover it (R135), and its memory sample (R278). -/
def renumber (g old new : Nat) : Act Unit := do
  modGroup g fun x => { x with fences := x.fences.map fun f =>
    { f with covers := f.covers.map fun n => if n = old then new else n } }
  let f := fun (d : Due) => if d.seq = some old then { d with seq := some new, again := d.again + 1 } else d
  modCore (slotCore g) fun k => { k with due := k.due.map f }

/-- A replay entry issues again with its captured operands, as at the TRET: its space checks and translation, poison, and, where
it publishes, its release (R258, R260). Frame-window lanes stand in the frame of the level that it was issued at, which the
return has left, so such an entry keeps its place. -/
def reissue (g p : Nat) (o : MemOp) : Act Unit := do
  let c ← getChip
  match c.here? g p with
  | none => pure ()
  | some h => do
    let who := { h.actor with pc := o.who.pc, mask := o.who.mask }
    let (use, form) : Use × FormUse :=
      if o.kind = .atom then (Use.rmw h.user, ⟨true, false, false, false⟩) else (Use.load h.user, ⟨false, true, true, true⟩)
    let (framed, plain) := o.lanes.partition fun x => x.space = .frame
    let ls := plain.map fun x => (x.lane, x.va)
    checkSpaces h form o.size ls
    let bound ← bindLanes h use false o.size ls
    let xs := framed ++ bound.map fun y => match o.lanes.find? fun x => x.lane = y.lane with
      | some x => { y with data := x.data, cmp := x.cmp }
      | none => y
    let c ← getChip
    match xs.find? (c.lanePoison o.size) with
    | some x => trap causeEcc 0 x.va x.lane
    | none => do
      publishIf g o.rel
      let seq ← pushOp { o with who := who, lanes := xs, again := o.again + 1 }
      renumber g o.seq seq
      blockIf h seq

/-- The replay entries issue in order; one that faults again takes its own trap, keeping itself and those after it, with
the target as its resume address. -/
def reissueAll (g p : Nat) (target : Addr) : List MemOp → Act Unit
  | [] => pure ()
  | o :: r => do
    match ← attempt (reissue g p o) with
    | .ok _ => reissueAll g p target r
    | .error t => do
      modPath g p fun x => { x with pc := o.who.pc }
      takeTrap g p t 8 (some target) none (o :: r) false

/-- The held store of a STORE_LATE frame goes on or is dropped (R262). -/
def releaseHeld (g p : Nat) (f : Frame) (discard : Bool) : Act Unit :=
  whenSome f.heldStore fun seq => do
    if discard then dropOp seq
    else do
      modOp seq fun o => { o with held := false, reported := false }
      whenSome ((← getChip).op? seq) fun o =>
        if o.who.mode = 2 then modPath g p fun x => { x with blocked := some seq } else pure ()

/-- The return of a path from its current handler level, in the order of R260. A held store of the group does not delay
it, since only the return releases it. A nested ILLEGAL's return frees the EMU block (assumption 74). -/
def handlerReturn (h : Here) : Act Unit := do
  let c ← getChip
  if (c.groupOps h.g).all fun e => e.held then pure () else notReady
  let fr := if h.path.level = .supervisor then h.path.supFrame else h.path.userFrame
  match fr with
  | none => notReady
  | some f => do
    let at_ := c.framePa h
    let rpc ← homeNat (at_ + 0x008) 8
    let flags ← homeNat (at_ + 0x020) 4
    let illegal := f.cause.toNat % 256 = causeIllegal
    let target := if illegal then h.grp.emu.next else BitVec.ofNat 64 rpc
    if target.getLsbD 0 then trap causeAlign 0 target
    else do
      let sup := h.path.level = .supervisor
      if illegal then modGroup h.g fun x =>
        { x with emu := { x.emu with busy := if x.emu.busy = some h.p then none else x.emu.busy } }
      else pure ()
      modPath h.g h.p fun x => { x with
        level := if sup && f.nested then .user else .normal
        mask := f.mask, pc := target
        hstack := if sup && f.nested then x.ustack else []
        ustack := []
        supFrame := none
        userFrame := if sup then x.userFrame else none
        dbgHeld := false }
      modGroup h.g fun x => x.settleHazards (h.path.mask ||| f.mask)
      if f.cause.toNat % 256 = causeStoreLate then releaseHeld h.g h.p f (bits flags 11 1 = 1) else pure ()
      reissueAll h.g h.p target f.replays
      settle

/-- TRET. -/
def execTret (f : GuardF) (s : State) : Host.Outcome State Fault Refusal :=
  runZha 8 (issue 8 f.stall.toNat { Uses.none with ps := guardPs f.g } fun h =>
    onceIf h f.g (do
      if h.path.level = .normal then trap causePriv 1
      else if !h.path.hstack.isEmpty then trap causePriv 2
      else handlerReturn h)) s

/-! ## EXIT (R23, R358) -/

/-- A path without lanes leaves the table: store reports waiting for it go to another path. -/
def freePath (g p : Nat) : Act Unit := do
  match (← getChip).path? g p with
  | none => pure ()
  | some x => do
    each x.late fun seq => modOp seq fun o => { o with reported := false }
    modGroup g fun y => { y with paths := merase y.paths p }

/-- EXIT. -/
def execExit (f : GuardF) (s : State) : Host.Outcome State Fault Refusal :=
  runZha 8 (issue 8 f.stall.toNat { Uses.none with ps := guardPs f.g } fun h =>
    onceIf h f.g (do
      if h.path.level ≠ .normal then trap causePriv 3
      else do
        let now ← clock
        let gone := h.lanes f.g
        modGroup h.g fun x => { x with live := x.live &&& ~~~gone }
        modPath h.g h.p fun x => { x with mask := x.mask &&& ~~~gone }
        whenSome ((← getChip).path? h.g h.p) fun x =>
          match x.refill now with
          | some y => modPath h.g h.p fun _ => y
          | none => freePath h.g h.p
        whenSome ((← getChip).group? h.g) fun x =>
          if x.live = 0 then
            modGroup h.g fun x => if x.openSet.isEmpty then x else x.closeBatch
          else pure ()
        noteParked h.tid
        settle)) s

/-! ## REGSET (R396, R397) -/

/-- The paths of a partition of a core that still wait at their REGSET, in order of issue. -/
def Chip.growersOf (c : Chip) (core part : Nat) : List (Nat × Nat × Nat × Nat) :=
  (c.core core).growers.filter fun e => slotPart e.1 = part &&
    (match c.path? e.1 e.2.1 with
      | some x => x.pc.toNat = e.2.2.1 && x.wait.isNone
      | none => false)

/-- Blocks a group owns. -/
def Group.blocks (x : Group) : Nat := x.alloc / 8

def leaveGrowers (h : Here) : Act Unit :=
  modCore h.core fun k => { k with growers := k.growers.filter fun e => !(e.1 = h.g && e.2.1 = h.p) }

/-- REGSET. -/
def execRegset (f : RegsetF) (s : State) : Host.Outcome State Fault Refusal :=
  let sd := f.sd.toNat
  runZha 8 (issue 8 f.stall.toNat
    { Uses.none with ss := if f.imm = 1 then [] else [f.sa.toNat], sd := [sd], ps := guardPs f.g } fun h =>
    onceIf h f.g (do
      let c ← getChip
      let n := if f.imm = 1 then f.n.toNat else (h.s f.sa.toNat).toNat
      let old := h.grp.alloc
      let give := fun (k : Nat) => setS h sd (BitVec.ofNat 32 k)
      if n % 8 ≠ 0 || n < 8 || n > 128 then trap causeBound 10
      else if n < old then do
        if (List.range (old - n)).any fun k => c.regPending h.g (BitVec.allOnes 32) .vector (n + k) then notReady else pure ()
        modGroup h.g fun x => { x with alloc := n, v := x.v.filter fun e => e.1 / 32 < n
                                       hazards := x.hazards.filter fun z => z.file ≠ .vector || z.idx < n }
        give n
      else if n = old then give old
      else if h.path.refuseGrow then trap causeBound 9
      else
        let first := match ((c.modPath h.g h.p fun _ => h.path).growersOf h.core (slotPart h.g)).head? with
          | none => true
          | some e => e.1 = h.g && e.2.1 = h.p
        if first && c.blocksUsed h.core (slotPart h.g) + (n - old) / 8 ≤ 128 then do
          leaveGrowers h
          modGroup h.g fun x => { x with alloc := n }
          give n
        else if f.nb = 1 then give old
        else do
          unissue h
          modCore h.core fun k =>
            if k.growers.any fun e => e.1 = h.g && e.2.1 = h.p && e.2.2.1 = h.path.pc.toNat then k
            else { k with growers := (k.growers.filter fun e => !(e.1 = h.g && e.2.1 = h.p)) ++ [(h.g, h.p, h.path.pc.toNat, n)] })) s

/-- REGSET_GROWTH_GRANT: the first waiting grower of a partition runs its REGSET again. -/
def execRegsetGrowthGrant (core part : Nat) (s : State) : Host.Outcome State Fault Refusal :=
  match (s.chip.growersOf core part).head? with
  | none => .next s
  | some e =>
    let t := { s with actor := (e.1, e.2.1) }
    match (do fetchInstr (← here)) t.tx with
    | .ok (.regset f, x) =>
      match (do
          let h ← here
          enabled (h.team.saveBy.isNone && h.path.blocked.isNone && !h.path.dbgHeld && h.path.heldSince.isNone)) t.tx with
      | .ok _ => execRegset f (t.commit x)
      | .error _ => .next s
    | _ => .next s

end Sys2Proof.Machine
end

