-- ==== Sys2Proof/Machine/Save.lean ====
section
/-! DEFINITION. Pre-emption: progress, flush, drain, save and restore of units, loss of a context, and the reset of a
partition (R265-R275, R307, R308). -/

namespace Sys2Proof.Machine

/-! ## Units and their progress (R237, R266) -/

/-- The resident teams of a unit of a run. -/
def Chip.unitTeams (c : Chip) (runId unit : Nat) : List (Nat × Team) :=
  match mget? c.runs runId with
  | some r => c.teams.filter fun t => t.2.run = runId && t.2.num.toNat / r.unitSize = unit
  | none => []

/-- The units with a resident team that a predicate admits: run and unit. -/
def Chip.residentUnits (c : Chip) (q : Nat → Run → Team → Bool) : List (Nat × Nat) :=
  (c.teams.filterMap fun t => (mget? c.runs t.2.run).bind fun r =>
    if q t.2.run r t.2 then some (t.2.run, t.2.num.toNat / r.unitSize) else none).foldl
      (fun us u => if us.contains u then us else us ++ [u]) []

/-- A team's progress as a fraction, at most 1. -/
def Team.progress (r : Run) (t : Team) : Nat × Nat :=
  if t.hint.getLsbD 16 then (t.hint.toNat % 65536, 65536)
  else if r.doneTeams.isEmpty then (0, 1)
  else if r.retSum ≤ t.ret.toNat * r.doneTeams.length then (1, 1)
  else (t.ret.toNat * r.doneTeams.length, r.retSum)

/-- Nanoseconds of residency so far: CLOCK counts at 600 MHz (R2). -/
def Team.resident (t : Team) (now : Nat) : Nat := t.rtime + (now - t.since) * 5 / 3

/-- rest(t) below 20 µs. -/
def Team.restShort (r : Run) (t : Team) (now : Nat) : Bool :=
  let (n, d) := t.progress r
  n ≠ 0 && t.resident now * (d - n) < 20000 * n

/-- What R267 chooses for a unit. -/
inductive Choice where
  | flush
  | drain
  | save
  deriving DecidableEq, Repr

def chooseUnit (r : Run) (ts : List Team) (now : Nat) (drainRow : Bool) : Choice :=
  let ps := ts.map (Team.progress r)
  if r.idem && ps.any fun p => 4 * p.1 < p.2 then .flush
  else if drainRow && (ps.all fun p => 85 * p.2 < 100 * p.1) && ts.all fun t => t.restShort r now then .drain
  else .save

/-! ## Flush and drain (R268) -/

/-- A unit goes back to the range of the cluster that held it, as the next to place. -/
def returnUnit (runId unit cl : Nat) : Act Unit := do
  whenSome (mget? (← getChip).runs runId) fun r => do
    let pos := match r.selUnits with
      | some us => us.idxOf unit
      | none => unit
    let add := fun (m : Map (List (Nat × Nat))) k => mset m k ((pos, pos + 1) :: mgetD m [] k)
    modRun runId fun x =>
      let x := { x with status := .head }
      if x.unitDom ≥ 6 then { x with pkgRange := (pos, pos + 1) :: x.pkgRange }
      else if x.unitDom = 5 then { x with dieRanges := add x.dieRanges (cl / 10) }
      else { x with cluRanges := add x.cluRanges cl }
    modChip fun c => { c with queues := mmod c.queues r.queue fun q =>
      { q with line := if q.line.contains runId then q.line else runId :: q.line } }

/-- A flushed unit: its teams end as killed ones do, with status EVICTED and no record. -/
def flushUnit (runId unit : Nat) : Act Unit := do
  let c ← getChip
  let ts := c.unitTeams runId unit
  if ts.any fun t => c.opmAgainst t.1 then notReady else pure ()
  each ts fun t => dissolveTeam t.1 1
  whenSome ts.head? fun t => returnUnit runId unit (coreCluster t.2.core)

def drainUnit (runId unit : Nat) : Act Unit := do
  let now ← clock
  each ((← getChip).unitTeams runId unit) fun t => modTeam t.1 fun x => { x with drainBy := some (now + 12000) }

/-! ## Save records (R270) -/

/-- The copy entries of a team's record: copies with sectors still to move, and open slice sets. -/
def Chip.copyEntries (c : Chip) (tid : Nat) (t : Team) : Nat :=
  (c.copies.filter fun o => o.2.who.tid = tid && !o.2.failed && o.2.moving).length + t.slices.length

def Chip.teamGroups (c : Chip) (tid : Nat) (t : Team) : List (Nat × Group) :=
  t.slots.filterMap fun g => match c.group? g with
    | some x => if x.tid = tid then some (g, x) else none
    | none => none

/-- The frames that a group's paths stand on: path, whether the supervisor's. -/
def Group.frames (x : Group) : List (Nat × Bool) :=
  x.paths.flatMap fun e =>
    (if e.2.userFrame.isSome then [(e.1, false)] else []) ++ if e.2.supFrame.isSome then [(e.1, true)] else []

/-- Bytes of a team's record. -/
def Chip.recordSize (c : Chip) (tid : Nat) (t : Team) : Nat :=
  let gs := (c.teamGroups tid t).map Prod.snd
  let n := 0x100 + 4096 * t.groups + 1152 * (gs.foldl (fun n x => n + x.alloc / 8) 0) +
    9216 * (gs.foldl (fun n x => n + x.frames.length) 0) + 2576 * t.scrUnits + 16384 * t.tiles.length +
    512 * c.copyEntries tid t
  (n + 4095) / 4096 * 4096

/-- First fit in a pool: the lowest 4 KiB-aligned offset at which a record is free of the others. -/
def poolFit (size : Nat) (used : List (Nat × Nat)) (n : Nat) : Option Nat :=
  let ends := 0 :: used.map fun u => u.1 + u.2
  (sortBy (fun a b => a < b) ends).find? fun a =>
    a + n ≤ size && used.all fun u => a + n ≤ u.1 || u.1 + u.2 ≤ a

/-- The bytes of a pool's pieces. -/
def poolSize (ps : List (Nat × Nat)) : Nat := ps.foldl (fun n p => n + p.2) 0

/-- A record's bytes written where the pool's pieces stand; they set no watch bit (R288). -/
def writeRecord (ps : List (Nat × Nat)) (bs : List Byte) : Act Unit :=
  each (cutBytes ps bs) fun p => do
    recallRange p.1 p.2.length
    writeBytes p.1 p.2

/-- Room is taken in the context's pool for each team of a unit; not ready where it does not fit. -/
def reserveRecords (ctx : Nat) (ts : List (Nat × Team)) : Act Unit :=
  each ts fun t => do
    let c ← getChip
    let x := c.ctx ctx
    let n := c.recordSize t.1 t.2
    let pool ← someOr x.pool
    let a ← someOr (poolFit (poolSize pool) x.used n)
    modCtx ctx fun x => { x with used := x.used ++ [(a, n)] }
    modTeam t.1 fun y => { y with saveAt := some (a, n) }

/-! ## Save, step 1 (R269) -/

/-- A STORE_LATE that a path below supervisor level has pending is taken. -/
def takePending (g p : Nat) : Act Unit := do
  whenSome ((← getChip).path? g p) fun q => do
    match q.late with
    | [] => pure ()
    | seq :: rest =>
      if q.level = .supervisor then pure ()
      else
        match (← getChip).op? seq with
        | none => modPath g p fun y => { y with late := rest }
        | some o => do
          modPath g p fun y => { y with late := rest }
          let lane := (o.lanes.find? fun l => l.va = o.faultVa).map LaneAcc.lane
          takeTrap g p ⟨causeStoreLate, 0, o.faultVa, lane.getD 0, 0, [], false, 0, 0⟩ 0 none (some o) [] false

/-- The parked LRELs of a team complete: the save releases their leases. -/
def endLrels (tid : Nat) (slots : List Nat) : Act Unit := do
  each ((← getChip).parkedSides.filter fun k => slots.contains k.g) fun k =>
    match k.wait with
    | .lrel uid _ => do
      match mget? (← getChip).leases uid with
      | some l => if l.tid = tid then resume k [] else pure ()
      | none => resume k []
    | _ => pure ()

/-- Step 1 of a save for a unit: traps pending are taken, room is reserved, issue stops, and operations that have not
started are EVICTED. -/
def startSave (runId unit : Nat) : Act Unit := do
  let now ← clock
  let c ← getChip
  let r ← someOr (mget? c.runs runId)
  let ts := c.unitTeams runId unit
  each ts fun t => each (c.teamGroups t.1 t.2) fun g => each g.2.paths fun p => takePending g.1 p.1
  let ts := (← getChip).unitTeams runId unit
  reserveRecords r.ctx ts
  each ts fun t => do
    endLrels t.1 t.2.slots
    modTeam t.1 fun x => { x with saveBy := some (now + 120000), drainBy := none }
    modChip fun c => c.dropMonitors t.2.slots
    modCore t.2.core fun k => { k with growers := k.growers.filter fun e => !t.2.slots.contains e.1 }
    cancelMat t.2.core (fun o => o.who.tid = t.1 && !o.running) 1
    each ((← getChip).copies.filter fun o => o.2.who.tid = t.1 && o.2.dg && o.2.moving && !c.feeds o.2) fun o => failCopy o.1 1
    cancelEng (fun o => o.who.tid = t.1 && !o.started) 1

/-- The choice of R267 carried out for a unit; answers whether it was flushed. A unit already being saved is left. -/
def preemptUnit (runId unit : Nat) (drainRow : Bool) : Act Bool := do
  let c ← getChip
  let now ← clock
  let r ← someOr (mget? c.runs runId)
  let ts := (c.unitTeams runId unit).map Prod.snd
  if ts.isEmpty || ts.any fun t => t.saveBy.isSome then return false
  else
    match chooseUnit r ts now drainRow with
    | .flush => do
      flushUnit runId unit
      return true
    | .drain => do
      drainUnit runId unit
      return false
    | .save => do
      startSave runId unit
      return false

/-! ## Save, steps 2 and 3 -/

/-- Whether nothing of a team in a save is in flight: step 2 of R269. -/
def Chip.quiet (c : Chip) (tid : Nat) (t : Team) : Bool :=
  (c.memq.all fun o => o.who.tid ≠ tid || o.held) && !c.opmAgainst tid &&
    ((c.core t.core).order.all fun o => o.2.who.tid ≠ tid || o.2.status.isSome) &&
    (c.engops.all fun o => o.2.who.tid ≠ tid || o.2.status.isSome) &&
    ((c.teamGroups tid t).all fun g => g.2.fences.all fun f =>
      f.covers.any fun n => (c.memq.any fun o => o.seq = n) || c.inReplay g.1 n) &&
    (c.copies.all fun o => o.2.who.tid ≠ tid || (o.2.inflight.isEmpty && !(o.2.dg && o.2.moving))) &&
    (c.teamGroups tid t).all fun g => g.2.paths.all fun p => (pathParked g.1 p.1 p.2).all fun k => match k.wait with
      | .relaunch .. => false
      | _ => true

/-- Entries of a table of a core that lie in a range, counted from its start. -/
def cutMap (m : Map α) (lo n : Nat) : Map α := (m.filter fun e => lo ≤ e.1 && e.1 < lo + n).map fun e => (e.1 - lo, e.2)

/-- A team's tile words under its own tile indices. -/
def cutTiles (m : Map Word) (tiles : List Nat) : Map Word :=
  m.filterMap fun e => (tiles.idxOf? (e.1 / 4096)).map fun j => (j * 4096 + e.1 % 4096, e.2)

/-- The header of a record with its CRC field given (R270). -/
def saveHeader (c : Chip) (r : Run) (tid : Nat) (t : Team) (size crc rtime : Nat) : List Byte :=
  toLE 4 size ++ toLE 4 r.lid.toNat ++ toLE 4 r.runNo.toNat ++ toLE 4 t.num.toNat ++
    toLE 4 (t.num.toNat / r.unitSize * r.unitSize) ++
    toLE 4 (t.groups - 1 + t.scrUnits * 2 ^ 5 + t.tiles.length * 2 ^ 13 + c.copyEntries tid t * 2 ^ 18) ++
    toLE 8 t.ret.toNat ++ toLE 8 rtime ++ toLE 4 t.hint.toNat ++ toLE 4 0 ++ toLE 8 crc ++ List.replicate 200 0

/-- A team's record is written and its state detached from its core. -/
def saveTeam (tid : Nat) (t : Team) (r : Run) : Act Unit := do
  let now ← clock
  let c ← getChip
  let size := c.recordSize tid t
  let at_ := (t.saveAt.getD (0, 0)).1
  let rtime := t.resident now
  let body ← opaqueBytes (size - 0x100)
  let crc := (crc64 (saveHeader c r tid t size 0 rtime ++ body)).toNat
  let pieces := subPieces (((c.ctx r.ctx).pool).getD []) at_ size
  writeRecord pieces (saveHeader c r tid t size crc rtime ++ body)
  modCtx r.ctx fun x => { x with used := x.used.map fun u => if u.1 = at_ then (at_, size) else u }
  let gs := c.teamGroups tid t
  let area := (c.ctx r.ctx).area
  let frames ← mapAct (gs.flatMap fun g => g.2.frames.map fun f => (g.1, g.2.index, f)) fun f => do
    let b ← match area with
      | some a => homeRead (a.pa + c.frameOff r.ctx f.1 f.2.2.1 (if f.2.2.2 then 1 else 0)) 0x2400
      | none => pure []
    return (f.2.1 * 4 + f.2.2.1, f.2.2.2, b)
  let k := c.core t.core
  let lo := t.scrLo
  let n := t.scrSize
  let saved : Saved :=
    { tid := tid
      team := { t with ret := t.ret, rtime := rtime, saveBy := none, saveAt := none, drainBy := none,
                       lostHandles := t.lostHandles ++ (c.leases.filter fun l => l.2.tid = tid).map fun l => l.2.handle }
      groups := gs.map Prod.snd, unit := t.num.toNat / r.unitSize, addr := at_, size := size, pieces := pieces
      scratch := cutMap k.scratch lo n, full := cutMap k.full (lo / 16) (n / 16), smarks := cutMap k.smarks (lo / 32) (n / 32)
      recGran := ((k.srecs.map fun x => x.gran) ++ k.slost).filterMap fun g =>
        if lo / 32 ≤ g && g < lo / 32 + n / 32 then some (g - lo / 32) else none
      tiles := cutTiles k.tiles t.tiles, mats := k.order.filter fun o => o.2.who.tid = tid
      copies := (c.copies.filter fun o => o.2.who.tid = tid && !o.2.failed).map Prod.snd
      held := c.memq.filter fun o => o.who.tid = tid, at_ := now, part := r.part, ctx := r.ctx, paused := 0
      pausedSince := none, guarded := none, miss := [], chosen := none, frames := frames }
  if r.traced then writeTeamRecord t.run t.num t.trace false else pure ()
  each (c.leases.filter fun l => l.2.tid = tid) fun l => endLease l.1 false
  endRetention tid
  modCore t.core fun k => { k with order := k.order.filter fun o => o.2.who.tid ≠ tid }
  each (c.copies.filter fun o => o.2.who.tid = tid) fun o => dropCq (coreCluster t.core) (.copy o.1)
  each t.slots fun g => do
    match (← getChip).group? g with
    | some x => if x.tid = tid then departGroup g else pure ()
    | none => pure ()
  departTeam t.slots t.run t.num
  modChip fun c => { c with
    saved := mset c.saved c.savedNext saved
    savedNext := c.savedNext + 1
    teams := merase c.teams tid
    memq := c.memq.filter fun o => o.who.tid ≠ tid
    copies := c.copies.filter fun o => o.2.who.tid ≠ tid
    queues := mmod c.queues r.queue fun q => { q with wdFrom := now } }
  pushHook (coreCluster t.core) 1 0
  dropHooks (coreCluster t.core) tid

/-! ## Loss of a context (R275, R307) -/

/-- A context becomes LOST: its teams end, its queues stop, and its incomplete launches complete LOST. It waits for every OPM
access against one of its teams (R100). -/
def loseContext (ctx : Nat) : Act Unit := do
  let c ← getChip
  let mine := fun (id : Nat) => match mget? c.runs id with
    | some r => r.ctx = ctx
    | none => false
  enabled ((c.teams.filter fun t => mine t.2.run).all fun t => !c.opmAgainst t.1)
  modCtx ctx fun x => { x with state := .lost }
  each (c.teams.filter fun t => mine t.2.run) fun t => dissolveTeam t.1 1
  modChip fun c => { c with saved := c.saved.filter fun s => s.2.ctx ≠ ctx }
  modCtx ctx fun x => { x with used := [] }
  each (c.queues.filter fun q => q.2.ctx = ctx) fun q => setQueueState q.1 .stopped
  each (c.runs.filter fun r => r.2.ctx = ctx && r.2.live) fun r => do
    modRun r.1 fun x => { x with lost := true }
    finishRun r.1
  hostEvent evLost (c.ctx ctx).part ctx 0xFF (← eventData) (← eventData)

/-! ## Partition reset (R308) -/

/-- Whether a run belongs to a partition. -/
def Chip.runIn (c : Chip) (part id : Nat) : Bool :=
  match mget? c.runs id with
  | some r => r.part = part
  | none => false

/-- The teams resident in a partition. -/
def Chip.partTeams (c : Chip) (part : Nat) : List (Nat × Team) := c.teams.filter fun t => c.runIn part t.2.run

/-- The count of a PARTRESET's units. -/
def countReset (part : Nat) (saved flushed : Nat) : Act Unit :=
  modPart part fun p => { p with resetCmd := p.resetCmd.map fun n => (n.1 + saved, n.2 + flushed) }

/-- A unit pre-empted without the drain row by a partition's drain; one whose records do not fit its pool cannot be saved,
and its context is lost as at a save that passes its bound. -/
def drainOut (part runId unit : Nat) : Act Unit := do
  let c ← getChip
  let t ← get
  match (preemptUnit runId unit false) t with
  | .ok (flushed, u) => do
    set u
    if flushed then countReset part 0 1 else pure ()
  | .error (.fault f) => stop (.fault f)
  | .error _ =>
    if (c.unitTeams runId unit).any fun t => c.opmAgainst t.1 then notReady
    else whenSome (mget? c.runs runId) fun r => loseContext r.ctx

/-- Step 1: the partition stops, its leases are revoked at once and every resident unit is saved or flushed. -/
def drainPartition (part : Nat) : Act Unit := do
  modPart part fun p => { p with resetting := true }
  modChip fun c => { c with ctxs := c.ctxs.map fun x =>
    (x.1, if x.2.part = part && x.2.state = .active then { x.2 with state := .stopped } else x.2) }
  let c ← getChip
  each (c.leases.filter fun l => l.2.partOf c = part && l.2.state ≠ .revoked) fun l => revokeLease l.1
  settle
  each (c.residentUnits fun _ r _ => r.part = part) fun u => drainOut part u.1 u.2

/-- Whether a granule's home is a slice of a partition's clusters: four slices to a cluster. -/
def Chip.ownsGran (c : Chip) (p : Partition) (gran : Nat) : Bool := p.clusters.contains (c.homeSlice gran / 4)

/-- The barrier phases of a partition restart with the arrivals of its saved units alone (R224). -/
def Chip.restartPhases (c : Chip) (part : Nat) : Chip :=
  { c with bars := (c.bars.map fun b => (b.1, if c.runIn part b.2.run then
      { b.2 with counted := [], arrived := b.2.arrived.filter fun a =>
          c.saved.any fun s => s.2.team.run = b.2.run && s.2.team.num.toNat = a.1 / 32 } else b.2)) }

/-- Steps 2 to 5, once no unit of the partition is resident; its contexts run again. -/
def finishReset (part : Nat) : Act Unit := do
  let c ← getChip
  let p := c.part part
  if !p.resetting || !(c.partTeams part).isEmpty then pure ()
  else do
    each (distinct (c.cores.flatMap fun k => k.2.partials.map fun e => e.1 / 128)) fun l =>
      if c.ownsGran p (l * 4) then recallLine l else pure ()
    each (distinct ((← getChip).marks.map fun m => m.1 / 4)) fun l => if c.ownsGran p (l * 4) then foldLine l else pure ()
    modChip fun c => (({ c with
      mons := c.mons.filter fun m => !c.ownsGran p (m.pa / 32)
      recs := c.recs.filter fun r => !c.ownsGran p r.gran
      ctxs := c.ctxs.map fun x => (x.1, if x.2.part = part then
        { x.2 with state := if x.2.state = .stopped then .active else x.2.state
                   watch := x.2.watch.map fun w => (w.1, { w.2 with stale := true }) } else x.2) } : Chip).restartPhases part)
    modPart part fun p => { p with resetting := false }
    each p.clusters fun k => pushHook k 1 0

/-- Everything in a save of a unit is in flight no more. -/
def Chip.unitQuiet (c : Chip) (ts : List (Nat × Team)) : Bool :=
  ts.all fun t => t.2.saveBy.isSome && c.quiet t.1 t.2

/-- SAVE_BOUND_EXPIRY: the partition drains and resets without the unit, whose context is LOST. -/
def execSaveBoundExpiry (t : Nat) (s : State) : Host.Outcome State Fault Refusal :=
  runEvent (do
    let c ← getChip
    let now ← clock
    let x ← someOr (mget? c.teams t)
    let r ← someOr (mget? c.runs x.run)
    let by_ ← someOr x.saveBy
    enabled (by_ ≤ now)
    loseContext r.ctx
    if (c.part r.part).resetting then pure () else drainPartition r.part
    finishReset r.part) s

/-- DRAIN_TIMEOUT. -/
def execDrainTimeout (t : Nat) (s : State) : Host.Outcome State Fault Refusal :=
  runEvent (do
    let c ← getChip
    let now ← clock
    let x ← someOr (mget? c.teams t)
    let r ← someOr (mget? c.runs x.run)
    let by_ ← someOr x.drainBy
    enabled (by_ ≤ now)
    startSave x.run (x.num.toNat / r.unitSize)) s

/-! ## Restore (R271, R273) -/

/-- Whether a saved wait is kept as it stands; the others issue their instruction again, and count again in RET (assumption 70).
The wait within a FENCE is kept as its FWAIT: the fence itself is not issued again (R269). -/
def Wait.kept : Wait → Bool
  | .bar .. => true
  | .monw .. => true
  | .fence n => decide (65536 ≤ n)
  | _ => false

def keepWait (w : Option Wait) : Option Wait := w.filter Wait.kept

/-- A saved path as it starts on its new slot. -/
def Path.restored (now : Nat) (p : Path) : Path :=
  let side := fun (x : Side) => { x with wait := keepWait x.wait }
  { p with wait := keepWait p.wait, stack := p.stack.map side, hstack := p.hstack.map side, ustack := p.ustack.map side,
           readyAt := now, heldSince := none, runSince := now, blocked := none,
           late := [] }

/-- A saved group's operation keys moved by an offset. -/
def Group.rekeyed (shift : Nat → Nat) (x : Group) : Group :=
  { x with openSet := x.openSet.map shift, batches := x.batches.map fun b => { b with ops := b.ops.map shift } }

/-- A saved group as it starts on its new slot (R169, R199). -/
def Group.restored (now : Nat) (x : Group) : Group :=
  { x with paths := x.paths.map fun e => (e.1, e.2.restored now), leases := [], hazards := [], slow := [], mmaP := 0,
           chk := { x.chk with vec := [] } }

/-- The register blocks that groups of given indices need on a partition of a core, with their count. -/
def seatsNeeded (gs : List Group) (p : Nat) : Nat × Nat :=
  let mine := gs.filter fun x => x.index % 4 = p
  (mine.length, mine.foldl (fun n x => n + x.alloc / 8) 0)

/-- Whether a core's free resources cover a saved team. -/
def Chip.canRestore (c : Chip) (core : Nat) (s : Saved) : Bool :=
  (c.coreTeams core).length < 16 && s.team.scrUnits ≤ (c.freeScratch core).length &&
    s.team.tiles.length ≤ (c.freeTiles core).length &&
    [0, 1, 2, 3].all fun p =>
      (seatsNeeded s.groups p).1 ≤ (c.freeSlots core p).length && c.blocksUsed core p + (seatsNeeded s.groups p).2 ≤ 128

/-- The group of an actor moved to a new slot. -/
def Actor.moved (who : Actor) (c : Chip) (core : Nat) (slots : List Nat) : Actor :=
  match slots[who.index]? with
  | some g => { who with slot := g, agent := c.agent g, core := core, clock := (c.slot g).clock }
  | none => { who with core := core }

/-- A parked side's wait changed. -/
def setWait (k : Parked) (w : Wait) : Act Unit :=
  modPath k.g k.p fun x =>
    match k.side with
    | none => { x with wait := some w }
    | some (j, i) => x.setStackAt j ((x.stackAt j).zipIdx.map fun s => if s.2 = i then { s.1 with wait := some w } else s.1)

/-- A MONW kept across a save translates its location again, takes a monitor and is compared at once (R220); a BAR whose arrival
is gone was invalidated meanwhile (R225). -/
def rewatch (k : Parked) : Act Unit := do
  let c ← getChip
  match k.wait with
  | .monw va _ wide cmp signed value dl sd scope mode =>
    match c.here? k.g k.p, c.parkedActor k with
    | some h, some who => do
      match ← translate who.core who.run who.ctx (Use.load h.user) va.toNat with
      | .error e => trapParked k ⟨causePage, (Use.load h.user).data e, va, lowLane k.mask, 0, [], false, 0, 0⟩
      | .ok pa => do
        let w : Wait := .monw va pa wide cmp signed value dl sd scope mode
        setWait k w
        addMonitor k.g k.p pa (some ⟨wide, cmp, signed, value⟩)
        evalMonw { k with wait := w } true
    | _, _ => pure ()
  | .bar handle sd => do
    whenSome (c.group? k.g) fun x =>
      match x.arrivals.find? fun a => a.handle = handle with
      | none => trapParked k ⟨causeBarrier, 7, 0, 0, 0, [], false, 0, 0⟩
      | some a =>
        if a.released then do
          modGroup k.g fun y => y.pass a
          resume k (sd.toList.map fun r => (r, 0))
        else pure ()
  | _ => pure ()

/-- A record whose CRC fails kills its team (R270). -/
def saveIntact (s : Saved) : Act Bool := do
  let b ← readPieces s.pieces
  let crc := recNat b 0x30 8
  return (crc64 (b.take 0x30 ++ List.replicate 8 0 ++ b.drop 0x38)).toNat = crc

/-- The pool space of a saved team frees. -/
def forgetSaved (id : Nat) (s : Saved) : Act Unit :=
  modChip fun c => ({ c with saved := merase c.saved id } : Chip).modCtx s.ctx fun x =>
    { x with used := x.used.filter fun u => u ≠ (s.addr, s.size) }

/-- A saved team on a core that covers it: new slots, scratch and tiles; held stores stay held, and sectors that were parked issue
again before the others (R273). -/
def restoreTeam (id core : Nat) : Act Unit := do
  let now ← clock
  let c ← getChip
  let s ← someOr (mget? c.saved id)
  let t := s.team
  let base := c.scratchFit core t.scrUnits
  enabled (c.canRestore core s)
  let tiles := (c.freeTiles core).take t.tiles.length
  let nobody := 2 ^ 20
  let slots := (List.range t.groups).map fun j =>
    if s.groups.any fun x => x.index = j then
      let before := (s.groups.filter fun x => x.index < j && x.index % 4 = j % 4).length
      (c.freeSlots core (j % 4)).getD before nobody
    else nobody
  let first := (c.core core).orderNext
  let keys := s.mats.map Prod.fst
  let shift := fun k => first + keys.idxOf k
  forgetSaved id s
  modChip fun c => { c with teams := mset c.teams s.tid { t with core := core, slots := slots, scrBase := base,
                                                                 scrAt := (c.freeScratch core).take t.scrUnits,
                                                                 tiles := tiles, since := now } }
  clearTeamStorage core base t.scrUnits tiles
  each s.groups fun x => seatGroup (slots.getD x.index nobody) t.run t.num ((x.rekeyed shift).restored now)
  let c ← getChip
  let mv := fun (w : Actor) => w.moved c core slots
  let lo := base * 2048
  modCore core fun k => { k with
    scratch := s.scratch.foldl (fun m e => mset m (e.1 + lo) e.2) k.scratch
    full := s.full.foldl (fun m e => mset m (e.1 + lo / 16) e.2) k.full
    smarks := s.smarks.foldl (fun m e => mset m (e.1 + lo / 32) e.2) k.smarks
    slost := k.slost ++ s.recGran.map fun g => g + lo / 32
    tiles := s.tiles.foldl (fun m e => mset m (tiles.getD (e.1 / 4096) 0 * 4096 + e.1 % 4096) e.2) k.tiles
    order := s.mats.foldl (fun m o => mset m (shift o.1) { o.2 with who := mv o.2.who }) k.order
    orderNext := first + keys.length }
  let kept := s.groups.flatMap fun x => x.paths.filterMap fun p => (p.2.supFrame <|> p.2.userFrame).bind Frame.heldStore
  modChip fun c => { c with
    memq := c.memq ++ s.held.map fun o =>
      { o with who := mv o.who, held := kept.contains o.seq, reported := kept.contains o.seq && o.reported }
    copies := s.copies.zipIdx.foldl (fun m o => mset m (c.copyNext + o.2)
      { o.1 with who := mv o.1.who, core := core, after := [], inflight := [], parked := [],
                 again := o.1.again ++ o.1.inflight ++ o.1.parked.map Prod.fst }) c.copies
    copyNext := c.copyNext + s.copies.length }
  whenSome (c.ctx s.ctx).area fun a =>
    each s.frames fun f =>
      homeWrite (a.pa + c.frameOff s.ctx (slots.getD (f.1 / 4) nobody) (f.1 % 4) (if f.2.1 then 1 else 0)) f.2.2 none
  each ((← getChip).parkedSides.filter fun k => slots.contains k.g) rewatch
  settle

/-- The saved teams of a unit. -/
def Chip.savedUnit (c : Chip) (s : Saved) : List (Nat × Saved) :=
  c.saved.filter fun e => e.2.team.run = s.team.run && e.2.unit = s.unit

/-- A saved unit is restored whole for a cluster; `cap` says whether the consumer cap is applied. A team whose record fails its CRC is killed instead (R270). -/
def restoreUnit (cap : Bool) (id cl : Nat) : Act Unit := do
  let c ← getChip
  let s ← someOr (mget? c.saved id)
  let r ← someOr (mget? c.runs s.team.run)
  let p := c.part r.part
  enabled (!p.resetting && (c.ctx r.ctx).state = .active && c.wholeVersion r)
  each (c.savedUnit s) fun e => do
    if ← saveIntact e.2 then pure ()
    else do
      forgetSaved e.1 e.2
      deadTeam s.team.run e.2.team.num
      faultLog s.team.run { (bareRec 7) with lid := r.lid, run := r.runNo, team := e.2.team.num }
  placeUnitWith (fun n k => do
    match (← getChip).saved.find? fun e => e.2.team.run = s.team.run && e.2.team.num.toNat = n with
    | some e => placeTeam cap s.team.run n k (restoreTeam e.1 k)
    | none => pure ()) p r cl s.unit
  startWatchdog r.queue (c.savedUnit s).length
  pushHook cl 1 0

/-- Whether a saved unit fits a cluster now. -/
def savedFits (cap : Bool) (id cl : Nat) : Act Bool := trial (restoreUnit cap id cl)

/-! ## Ages (R252) -/

/-- Ages of the saved candidates of a partition stop or go on (R252). -/
def refreshSaved : Act Unit := do
  let now ← clock
  each (← getChip).saved fun e => do
    let c ← getChip
    let whole := match mget? c.runs e.2.team.run with
      | some r => c.wholeVersion r
      | none => true
    let fits ← mapAct (c.part e.2.part).clusters fun k => do return (← savedFits false e.1 k, ← savedFits true e.1 k)
    let held := !whole || ((fits.any fun f => f.1) && fits.all fun f => !f.1 || !f.2)
    modChip fun c => { c with saved := mmod c.saved e.1 fun s =>
      match s.pausedSince, held with
      | none, true => { s with pausedSince := some now }
      | some t, false => { s with pausedSince := none, paused := s.paused + (now - t) }
      | _, _ => s }

/-- The ages of every candidate stop or go on; each event that may change what holds one ends with this. -/
def refreshAllAges : Act Unit := do
  refreshAges
  refreshSaved

/-- SAVE_COMPLETE. -/
def execSaveComplete (t : Nat) (s : State) : Host.Outcome State Fault Refusal :=
  runEvent (do
    let c ← getChip
    let x ← someOr (mget? c.teams t)
    let r ← someOr (mget? c.runs x.run)
    let ts := c.unitTeams x.run (x.num.toNat / r.unitSize)
    enabled (c.unitQuiet ts)
    each ts fun y => saveTeam y.1 y.2 r
    countReset r.part 1 0
    finishReset r.part
    refreshAllAges) s

/-! ## Register-growth deadlock (R274) -/

/-- Whether every resident group of a core waits on growth. -/
def Chip.allGrow (c : Chip) (core : Nat) : Bool :=
  let gs := (List.range 64).map (core * 64 + ·) |>.filter fun g => (c.group? g).isSome
  let waits := [0, 1, 2, 3].flatMap fun p => (c.growersOf core p).map Prod.fst
  !gs.isEmpty && gs.all fun g => waits.contains g

/-- REGSET_DEADLOCK. -/
def execRegsetDeadlock (core : Nat) (s : State) : Host.Outcome State Fault Refusal :=
  runEvent (do
    let c ← getChip
    enabled (c.allGrow core)
    let ts := c.coreTeams core
    let last ← someOr (ts.foldl (fun (m : Option (Nat × Team)) t => match m with
      | none => some t
      | some y => if y.2.since ≤ t.2.since then some t else some y) none)
    let r ← someOr (mget? c.runs last.2.run)
    let unit := last.2.num.toNat / r.unitSize
    enabled last.2.saveBy.isNone
    if ts.all fun t => t.2.run = last.2.run && t.2.num.toNat / r.unitSize = unit then do
      let tight := [0, 1, 2, 3].flatMap fun p => (c.growersOf core p).filter fun e =>
        match c.group? e.1 with
        | some x => c.blocksUsed core p + (e.2.2.2 - x.alloc) / 8 > 128
        | none => false
      enabled (!tight.isEmpty)
      each tight fun e => modPath e.1 e.2.1 fun x => { x with refuseGrow := true }
    else startSave last.2.run unit) s

/-! ## The watchdog (R275) -/

/-- Whether a team belongs to a queue's launches. -/
def Chip.ofQueue (c : Chip) (q : Nat) (t : Team) : Bool :=
  match mget? c.runs t.run with
  | some r => r.queue = q
  | none => false

/-- A unit pre-empted where its save fits; one that cannot be saved stays. -/
def tryPreempt (u : Nat × Nat) (drainRow : Bool) : Act Unit :=
  orElse (do
    let _ ← preemptUnit u.1 u.2 drainRow
    pure ()) (pure ())

/-- WATCHDOG_FIRST_EXPIRY. -/
def execWatchdogFirstExpiry (q : Nat) (s : State) : Host.Outcome State Fault Refusal :=
  runEvent (do
    let c ← getChip
    let now ← clock
    let e ← someOr (mget? c.queues q)
    enabled (e.w ≠ 0 && !e.wdFired && e.wdFrom + e.w * 4096 ≤ now && c.teams.any fun t => c.ofQueue q t.2)
    modChip fun c => { c with queues := mmod c.queues q fun x => { x with wdFired := true, wdFrom := now } }
    each (c.residentUnits fun _ r _ => r.queue = q) fun u => tryPreempt u true) s

/-- WATCHDOG_SECOND_EXPIRY. -/
def execWatchdogSecondExpiry (q : Nat) (s : State) : Host.Outcome State Fault Refusal :=
  runEvent (do
    let c ← getChip
    let now ← clock
    let e ← someOr (mget? c.queues q)
    let bad := c.teams.filter fun t => c.ofQueue q t.2 && t.2.saveBy.isNone
    enabled (e.w ≠ 0 && e.wdFired && e.wdFrom + e.w * 4096 ≤ now && !bad.isEmpty)
    each bad fun t => killTeam t.1 true (bareRec 6)
    setQueueState q .stopped
    modChip fun c => { c with queues := mmod c.queues q fun x => { x with wdFired := false } }
    let part := (c.ctx e.ctx).part
    if (c.part part).resetting then pure () else drainPartition part
    finishReset part) s

end Sys2Proof.Machine
end

