-- ==== Sys2Proof/Machine/Hooks.lean ====
section
/-! DEFINITION. Completion of groups, teams and launches; candidates and the counters routines read; hook calls with their
phases, decisions and defaults; the age guard (R36, R242-R245, R247, R252, R423). -/

namespace Sys2Proof.Machine

/-! ## Completion (R36) -/

/-- Whether a register-form drain of a slot's group is outstanding. -/
def Chip.drainsTo (c : Chip) (g : Nat) : Bool :=
  (c.core (slotCore g)).order.any fun o =>
    o.2.kind = .tdrn && o.2.mods.getLsbD 0 && o.2.status.isNone && o.2.who.slot = g && o.2.who.agent = c.agent g

/-- Whether an access or a copy to a slot's registers has not performed (R100). -/
def Chip.opmOnGroup (c : Chip) (g : Nat) : Bool := c.opmOpen.any (meetsSlot g)

/-- What a leaving group knows of other launches' agents stays with its run, for the release of the completion object (R143). -/
def leaveKnow (g : Nat) : Act Unit := do
  let c ← getChip
  whenSome (c.group? g) fun x => whenSome (mget? c.teams x.tid) fun t =>
    let theirs := x.chk.know.filter fun e => (c.resolve e.1 e.2).any fun d => d.run ≠ t.run
    if theirs.isEmpty then pure ()
    else modRun t.run fun r => { r with left := theirs.foldl (fun k e => knowPut k e.1 e.2) r.left }

/-- GROUP_SLOT_FREE. -/
def execGroupSlotFree (g : Nat) (s : State) : Host.Outcome State Fault Refusal :=
  runEvent (do
    let c ← getChip
    let x ← someOr (c.group? g)
    enabled (x.live = 0 && !c.saving x.tid && !c.drainsTo g && !c.opmOnGroup g &&
      (c.groupOps g).all fun o => o.kind = .store || o.kind = .mred)
    leaveKnow g
    departGroup g
    modTeam x.tid fun t => { t with freed := t.freed ++ [g] }) s

/-- Whether everything a team issued is done (R36, R262). -/
def Chip.teamDone (c : Chip) (tid : Nat) (t : Team) : Bool :=
  (c.teamGroups tid t).isEmpty && t.saveBy.isNone && !c.opmAgainst tid &&
    (c.memq.all fun o => o.who.tid ≠ tid) && (c.copies.all fun o => o.2.who.tid ≠ tid || !o.2.moving) &&
    (c.engops.all fun o => o.2.who.tid ≠ tid || o.2.status.isSome) &&
    (c.core t.core).order.all fun o => o.2.who.tid ≠ tid || o.2.status.isSome

/-- TEAM_COMPLETE. -/
def execTeamComplete (t : Nat) (s : State) : Host.Outcome State Fault Refusal :=
  runEvent (do
    let c ← getChip
    let now ← clock
    let x ← someOr (mget? c.teams t)
    let r ← someOr (mget? c.runs x.run)
    enabled (c.teamDone t x)
    writeTeamRecord x.run x.num x.trace true
    dissolveTeam t 0
    modRun x.run fun r => { r with doneTeams := r.doneTeams ++ [x.num.toNat], retSum := r.retSum + x.ret.toNat }
    modChip fun c => { c with queues := mmod c.queues r.queue fun q => { q with wdFrom := now } }
    finishReset r.part
    refreshAllAges) s

/-- Teams of a run that will never run again without having completed (R121). -/
def Run.deadTeams (r : Run) : List Nat :=
  (r.restarts.filter fun e => e.2 = 255 && !r.doneTeams.contains e.1).map Prod.fst

/-- Teams that a run executes. -/
def Run.total (r : Run) : Nat :=
  match r.sel with
  | some ts => ts.length
  | none => r.teamCount

/-- LAUNCH_COMPLETE. -/
def execLaunchComplete (r : Nat) (s : State) : Host.Outcome State Fault Refusal :=
  runEvent (do
    let c ← getChip
    let x ← someOr (mget? c.runs r)
    enabled (x.status = .dispatched && x.total ≤ x.doneTeams.length + x.deadTeams.length &&
      (c.memq.all fun o => o.who.run ≠ r) && (c.regionq.all fun w => w.run ≠ r) &&
      c.copies.all fun o => o.2.who.run ≠ r || !o.2.moving)
    finishRun r
    refreshAllAges
    settle) s

/-! ## Acceptance (R231, R232, R234) -/

/-- QUEUE_RECORD_ACCEPT: the distributor counts HEAD itself, whatever a program stores there (R6, R230). -/
def execQueueRecordAccept (q : Nat) (s : State) : Host.Outcome State Fault Refusal :=
  runEvent (do
    let c ← getChip
    let e ← someOr (mget? c.queues q)
    let x := c.ctx e.ctx
    enabled (e.state = .running && x.state = .active)
    let tail ← homeNat (e.hdr.toNat + 0x10) 4
    let d := (tail + 2 ^ 32 - e.head) % 2 ^ 32
    enabled (d ≠ 0)
    if d > e.size then breakQueue q e
    else
      match ← hwRead e.ctx (e.ring.toNat + 256 * (e.head % e.size)) 256 with
      | none => breakQueue q e
      | some rec => do
        let r := Run.make c c.lidNext e.ctx x.part q rec
        match ← recordStatus r with
        | 0 => do
          let id ← queueRun
            { r with cobj := BitVec.ofNat 64 r.compa, wver := c.currentVersion r, know := mgetD e.edges [] e.head }
          modChip fun c => { c with lidNext := nextLid c.lidNext }
          whenSome (c.part x.part).clusters.head? fun k => pushHook k 0 id
        | st => writeCompletion x.part e.ctx r.compa st 0 0
        let head := (e.head + 1) % 2 ^ 32
        modChip fun c => { c with queues := mmod c.queues q fun x => { x with head := head, edges := merase x.edges e.head } }
        homeWrite (e.hdr.toNat + 0x14) (toLE 4 head) none
        refreshAllAges) s

/-- LAUNCH_HEAD: the first accepted run of a queue that has not become head does so once no earlier one is. -/
def execLaunchHead (q : Nat) (s : State) : Host.Outcome State Fault Refusal :=
  runEvent (do
    let c ← getChip
    let now ← clock
    let e ← someOr (mget? c.queues q)
    let id ← someOr e.line.head?
    let r ← someOr (mget? c.runs id)
    enabled (r.status = .queued && !(c.part r.part).resetting)
    modRun id (Run.asHead (c.part r.part) now)
    refreshAllAges) s

/-! ## Candidates (R243, R247) -/

/-- A candidate with what ordering it needs. -/
structure CandInfo where
  cand : Cand
  ctx : Nat
  queue : Nat
  age : Nat
  guarded : Bool
  deriving DecidableEq, Repr

def Saved.age (s : Saved) (now : Nat) : Nat := ageAt now s.at_ s.paused s.pausedSince

/-- Saved units that wait to be picked, each by its first record. -/
def Chip.savedHeads (c : Chip) (part : Nat) : List (Nat × Saved) :=
  c.saved.filter fun e => e.2.part = part && e.2.chosen.isNone && ((c.savedUnit e.2).head?.map Prod.fst) = some e.1

/-- Whether a candidate is guarded: its age has reached the bound of its partition and no rule holds it (R252). -/
def isGuarded (p : Partition) (age : Nat) (since paused : Option Nat) : Bool :=
  paused.isNone && (since.isSome || p.sbound * 4096 ≤ age)

/-- Every candidate of a partition, oldest first. -/
def Chip.candidates (c : Chip) (part now : Nat) : List CandInfo :=
  let rs := (c.runs.filter fun r => r.2.status = .head && r.2.part = part).map fun r =>
    (⟨.run r.1, r.2.ctx, r.2.queue, r.2.age now, isGuarded (c.part part) (r.2.age now) r.2.guarded r.2.pausedSince⟩ : CandInfo)
  let ss := (c.savedHeads part).map fun e =>
    (⟨.saved e.1, e.2.ctx, (match mget? c.runs e.2.team.run with
      | some r => r.queue
      | none => 0), e.2.age now, isGuarded (c.part part) (e.2.age now) e.2.guarded e.2.pausedSince⟩ : CandInfo)
  sortBy (fun a b => a.age > b.age) (rs ++ ss)

/-- Whether a candidate fits a cluster now. -/
def candFits (cl : Nat) : Cand → Act Bool
  | .run id => runFits true id cl
  | .saved id => savedFits true id cl
  | _ => return false

/-- The partition of a cluster. -/
def Chip.partOf (c : Chip) (cl : Nat) : Option Nat := (c.parts.find? fun p => p.2.clmask.getLsbD cl).map Prod.fst

/-- The eligible candidates of a cluster, oldest first. -/
def eligible (cl : Nat) : Act (List CandInfo) := do
  let c ← getChip
  let now ← clock
  match c.partOf cl with
  | none => return []
  | some part => do
    let ok ← mapAct (c.candidates part now) fun x => do return (x, ← candFits cl x.cand)
    return (ok.filter Prod.snd).map Prod.fst

/-- FILL of a run's in-edges, 0 where a header does not translate. -/
def edgeFill (r : Run) : Act Nat := do
  let fs ← mapAct r.inEdges fun e => do
    match ← hwTranslate r.ctx false e.1 with
    | .ok pa => homeNat (pa + 8) 4
    | .error _ => pure 0
  return fs.foldl (· + ·) 0

/-- Clk until the guard takes a candidate. -/
def guardLeft (p : Partition) (age : Nat) (guarded : Bool) : Nat := if guarded then 0 else p.sbound * 4096 - age

def boolNat (b : Bool) : Nat := if b then 1 else 0

/-- The counters of a candidate that do not depend on its kind. -/
def runFields (cl : Nat) (r : Run) (age miss kind remain fits guard loc : Nat) : Act (List Addr) := do
  let c ← getChip
  let ofLaunch := fun (t : Team) => match mget? c.runs t.run with
    | some x => x.lid = r.lid
    | none => false
  let q := mget? c.queues r.queue
  let ns : List Nat :=
    [r.queue, r.ctx, age, miss, (c.teams.filter fun t => ofLaunch t.2 && coreCluster t.2.core = cl).length,
     (c.teams.filter fun t => ofLaunch t.2).length, r.adhint, ← edgeFill r, (q.map Queue.prio).getD 0, kind, remain, r.unitSize,
     fits, guard, ((q.map fun x => x.pol.toNat).getD 0), loc]
  return ns.map (BitVec.ofNat 64)

/-- The sixteen counters of a candidate in a cluster (R247). Where R247 gives a resident team no AGE, MISS, KIND or GUARD, they
are free values. -/
def candFields (cl : Nat) (stealRun : Option Nat) (cand : Cand) : Act (List Addr) := do
  let c ← getChip
  let now ← clock
  match cand with
  | .run id =>
    match mget? c.runs id with
    | none => return []
    | some r => do
      let fits ← runFits true id cl
      let age := r.age now
      runFields cl r age (mgetD r.miss 0 cl) 0 (r.asHead (c.part r.part) now).unitsLeft (boolNat fits) (guardLeft (c.part r.part) age r.guarded.isSome) 0
  | .saved id =>
    match mget? c.saved id with
    | none => return []
    | some s =>
      match mget? c.runs s.team.run with
      | none => return []
      | some r => do
        let fits ← savedFits true id cl
        let age := s.age now
        runFields cl r age (mgetD s.miss 0 cl) 1 r.unitsLeft (boolNat fits) (guardLeft (c.part s.part) age s.guarded.isSome) 0
  | .victim k =>
    match stealRun.bind (mget? c.runs) with
    | none => return []
    | some r => do
      let fits ← runFits true (stealRun.getD 0) cl
      let age := r.age now
      runFields cl r age (mgetD r.miss 0 cl) 2 (r.cluLen k) (boolNat fits) (guardLeft (c.part r.part) age r.guarded.isSome) k
  | .team tid =>
    match (mget? c.teams tid).bind fun t => mget? c.runs t.run with
    | none => return []
    | some r => do
      let free ← mapAct [0, 1, 2, 3] fun _ => freeValue
      let v := fun i => (free.getD i 0).toNat
      runFields cl r (v 0) (v 1) (v 2) r.unitsLeft 1 (v 3) 0

/-- The global counters 256-266 of a call (R247). -/
def globalFields (cl : Nat) (k : Call) (ncand : Nat) (overruns : Nat) : Act (List Addr) := do
  let c ← getChip
  let cores := clusterCores cl
  let teams := c.teams.filter fun t => coreCluster t.2.core = cl
  let scr := teams.foldl (fun n t => n + t.2.scrUnits) 0
  let tiles := cores.foldl (fun n i => n + (c.freeTiles i).length) 0
  let ns : List Nat :=
    [k.hook, boolNat k.phaseT, ncand, ← clock, cl, 128 - teams.length, 8 * 192 - scr, tiles, if k.phaseT && k.hook = 1 then k.ctx else 0, overruns,
     (c.leases.filter fun l => l.2.cls = 0 && coreCluster l.2.place = cl && l.2.state = .queued).length]
  return ns.map (BitVec.ofNat 64)

/-! ## Calls (R242, R245) -/

/-- Where a routine stands in a box's table: hook, and phase H or the context of phase T. -/
def routineKey (hook : Nat) (ctx : Option Nat) : Nat :=
  hook * 1024 + (match ctx with
    | none => 0
    | some x => 512 + x)

def Call.key (k : Call) : Nat := routineKey k.hook (if k.phaseT then some k.ctx else none)

/-- The routine that a phase of a call runs: none where it is not loaded, has fallen back, or the box has failed. -/
def Box.routineFor (b : Box) (k : Call) : Option Routine :=
  if b.failed then none else (mget? b.routines k.key).filter fun r => !r.fallback

def modBox (cl : Nat) (f : Box → Box) : Act Unit := modCluster cl fun k => { k with box := f k.box }

def endCall (cl : Nat) : Act Unit := modBox cl fun b => { b with call := none, phase := none }

/-- A phase of a call starts with its snapshot, if it has a routine; answers whether it has. -/
def openPhase (cl : Nat) (k : Call) : Act Bool := do
  let b := ((← getChip).cluster cl).box
  match b.routineFor k with
  | none => do
    modBox cl fun b => { b with call := some k, phase := none }
    return false
  | some r => do
    let fields ← mapAct k.cands (candFields cl k.stealRun)
    let globals ← globalFields cl k k.cands.length r.overruns
    let f : Phase := { key := k.key, g := [], pc := 0, cnt := [], cycles := 0, fields := fields, globals := globals, pick := none,
                       prios := [], prefetch := [], migrate := none, hint := none }
    modBox cl fun b => { b with call := some k, phase := some f }
    return true

/-- PRIO decisions are applied to their candidates' queues. -/
def applyPrios (k : Call) (ps : List Addr) : Act Unit :=
  each ps fun v => do
    let c ← getChip
    let q := match k.cands[bits v.toNat 0 4]? with
      | some (.run id) => (mget? c.runs id).map Run.queue
      | some (.saved id) => ((mget? c.saved id).bind fun s => mget? c.runs s.team.run).map Run.queue
      | some (.team tid) => ((mget? c.teams tid).bind fun t => mget? c.runs t.run).map Run.queue
      | _ => none
    whenSome q fun q =>
      modChip fun c => { c with queues := mmod c.queues q fun x => { x with pol := BitVec.ofNat 8 (bits v.toNat 4 8) } }

/-- Round robin by number: the least above the last pick, else the least; the earlier entry among equals (R423). -/
def roundRobin (f : α → Nat) (last : Option Nat) (xs : List α) : Option α :=
  let pickMin := fun (ys : List α) => ys.foldl (fun (m : Option α) y => match m with
    | none => some y
    | some z => if f y < f z then some y else some z) none
  match last with
  | none => pickMin xs
  | some n => (pickMin (xs.filter fun x => n < f x)).or (pickMin xs)

/-- A run's thief takes from a named victim or by default, and the unit is placed; not ready where it no longer fits. -/
def stealAndPlace (id cl : Nat) (victim : Option Nat) : Act Unit := do
  let c ← getChip
  let r ← someOr (mget? c.runs id)
  let r' ← someOr (r.stolen (c.part r.part) cl victim)
  modChip fun c => { c with runs := mset c.runs id r' }
  placeRun true id cl

/-- Whether a candidate may be placed now: while any candidate of its partition is guarded, only a guarded one (R252). -/
def Chip.guardsLet (c : Chip) (part now : Nat) (cand : Cand) : Bool :=
  let gs := (c.candidates part now).filter CandInfo.guarded
  gs.isEmpty || gs.any fun x => x.cand = cand

/-- UNIT_RESTORE: a PICK decision's restore, which a unit that no longer fits gives up. -/
def execUnitRestore (sv cl : Nat) (s : State) : Host.Outcome State Fault Refusal :=
  runEvent (do
    let c ← getChip
    let x ← someOr (mget? c.saved sv)
    enabled (x.chosen = some cl)
    let now ← clock
    enabled ((c.partOf cl).all fun part => c.guardsLet part now (.saved sv))
    orElse (restoreUnit true sv cl)
      (modChip fun c => { c with saved := mmod c.saved sv fun y => { y with chosen := none } })
    refreshAllAges) s

/-- MIGRATE's decision: an index of a victim that can be split, a veto, or the default (R239, R244). -/
def commitMigrate (cl : Nat) (k : Call) (f : Option Phase) : Act Unit := do
  let c ← getChip
  let id := k.stealRun.getD 0
  endCall cl
  match mget? c.runs id with
  | none => pure ()
  | some r => do
    let p := c.part r.part
    let named := match f.bind Phase.migrate with
      | none => r.localVictim p cl
      | some 0xFE => none
      | some v =>
        match k.cands[v]? with
        | some (.victim j) => if r.cluLen j ≥ 2 then some j else r.localVictim p cl
        | _ => r.localVictim p cl
    if c.guardsLet r.part (← clock) (.run id) then orElse (stealAndPlace id cl named) (pure ())
    else pushHook cl 1 0
  refreshAllAges

/-- A chosen run is placed; where its cluster must steal from clusters of its die, the MIGRATE hook comes first. -/
def placePicked (cl id : Nat) : Act Unit := do
  let c ← getChip
  whenSome (mget? c.runs id) fun r => do
    let p := c.part r.part
    if !r.mustSteal cl then orElse (placeRun true id cl) (pure ())
    else if r.unitDom = 5 || (r.victims p cl).isEmpty then orElse (stealAndPlace id cl none) (pure ())
    else do
      let k : Call := { hook := 5, subject := id, phaseT := false, cands := (r.victims p cl).map Cand.victim, ctx := r.ctx, hPick := none,
                        stealRun := some id }
      if ← openPhase cl k then pure () else commitMigrate cl k none

/-- What phase T's pick comes to: MISS counts, the last pick, and the placement or the restore. -/
def takePick (cl : Nat) (k : Call) (x : CandInfo) (all : List CandInfo) : Act Unit := do
  each (all.filter fun y => y.ctx = k.ctx && y.cand ≠ x.cand) fun y =>
    let miss := fun (m : Map Nat) => mset m cl (mgetD m 0 cl + 1)
    match y.cand with
    | .run id => modRun id fun r => { r with miss := miss r.miss }
    | .saved id => modChip fun c => { c with saved := mmod c.saved id fun s => { s with miss := miss s.miss } }
    | _ => pure ()
  modBox cl fun b => { b with lastCtx := mset b.lastCtx 1 k.ctx, lastQueue := mset b.lastQueue k.ctx x.queue }
  let c ← getChip
  let now ← clock
  if !((c.partOf cl).all fun part => c.guardsLet part now x.cand) then pushHook cl 1 0
  else match x.cand with
  | .run id => placePicked cl id
  | .saved id => modChip fun c => { c with saved := mmod c.saved id fun s => { s with chosen := some cl } }
  | _ => pure ()

/-- The presented candidates of a phase with their order data. -/
def Chip.infoOf (c : Chip) (now : Nat) (cand : Cand) : Option CandInfo :=
  (c.parts.flatMap fun p => c.candidates p.1 now).find? fun x => x.cand = cand

/-- The entry that a PICK value names, by its index in the presented list: none for 0xFF, `default` where it names no entry that
still fits (R245). -/
def pickEntry (cl : Nat) (infos : List (Option CandInfo)) (pick : Option Nat) (default : List CandInfo → Option CandInfo) :
    Act (Option CandInfo) := do
  if pick = some 0xFF then return none
  else do
    let fit ← mapAct infos fun x => match x with
      | none => pure none
      | some y => do return if ← candFits cl y.cand then some y else none
    let dflt := default (fit.filterMap id)
    match pick with
    | none => return dflt
    | some i =>
      match fit[i]? with
      | some (some x) => return some x
      | _ => return dflt

/-- The commit of phase T, or its default. -/
def commitT (cl : Nat) (k : Call) (f : Option Phase) : Act Unit := do
  whenSome f fun f => applyPrios k f.prios
  match k.hook with
  | 1 => do
    let c ← getChip
    let now ← clock
    let b := (c.cluster cl).box
    let all ← eligible cl
    let infos := k.cands.map (c.infoOf now)
    let x ← pickEntry cl infos (f.bind Phase.pick) (roundRobin CandInfo.queue (mget? b.lastQueue k.ctx))
    endCall cl
    whenSome x fun x => takePick cl k x all
    refreshAllAges
  | 3 => do
    let c ← getChip
    endCall cl
    let save := match k.hPick with
      | some v => v % 2 = 1
      | none => match f.bind Phase.pick with
        | some v => v % 2 = 1
        | none => false
    whenSome (mget? c.teams k.subject) fun t =>
      whenSome (mget? c.runs t.run) fun r =>
        if save && c.teamParked k.subject && t.saveBy.isNone then
          orElse (startSave t.run (t.num.toNat / r.unitSize)) (pure ())
        else pure ()
  | _ => endCall cl

/-- Phase T of a call for a context, over its candidates. -/
def enterT (cl : Nat) (k : Call) : Act Unit := do
  if ← openPhase cl { k with phaseT := true } then pure () else commitT cl { k with phaseT := true } none

/-- The commit of phase H, or its default, and phase T. -/
def commitH (cl : Nat) (k : Call) (f : Option Phase) : Act Unit := do
  whenSome f fun f => applyPrios k f.prios
  let c ← getChip
  let now ← clock
  let b := (c.cluster cl).box
  match k.hook with
  | 1 => do
    let infos := k.cands.map (c.infoOf now)
    match ← pickEntry cl infos (f.bind Phase.pick) (roundRobin CandInfo.ctx (mget? b.lastCtx 1)) with
    | none => endCall cl
    | some x => do
      let mine := (← eligible cl).filter fun y => y.ctx = x.ctx
      enterT cl { k with ctx := x.ctx, cands := (mine.take 16).map CandInfo.cand }
  | 2 => do
    whenSome f fun f => modBox cl fun b => { b with hint := f.hint.getD 0x1FF }
    let infos := k.cands.filterMap (c.infoOf now)
    match roundRobin CandInfo.ctx (mget? b.lastCtx 2) infos with
    | none => endCall cl
    | some x => do
      modBox cl fun b => { b with lastCtx := mset b.lastCtx 2 x.ctx }
      enterT cl { k with ctx := x.ctx }
  | 5 => commitMigrate cl k f
  | _ => do
    whenSome (f.bind Phase.hint) fun v => if k.hook = 4 then modBox cl fun b => { b with hint := v } else pure ()
    enterT cl { k with hPick := f.bind Phase.pick }

/-- A call starts with phase H. -/
def enterH (cl : Nat) (k : Call) : Act Unit := do
  if ← openPhase cl k then pure () else commitH cl k none

/-- A phase that ends on a box, by EXIT or by its overrun, commits (R242, R251). -/
def commitPhase (cl : Nat) (f : Option Phase) : Act Unit := do
  match ((← getChip).cluster cl).box.call with
  | none => endCall cl
  | some k => if k.phaseT then commitT cl k f else commitH cl k f

/-! ## The event queue of a box (R242) -/

/-- The guarded candidates of a partition, oldest first. -/
def Chip.guards (c : Chip) (part now : Nat) : List CandInfo := (c.candidates part now).filter CandInfo.guarded

/-- Whether a box may serve an event now: no call in progress, the event pending, a PICK before any other, the others in
arrival order. -/
def Box.serves (b : Box) (e : HookEvent) : Bool :=
  b.call.isNone && b.phase.isNone && b.events.contains e &&
    (e.hook = 1 || (!(b.events.any fun x => x.hook = 1) && b.events.head? = some e))

def takeEvent (cl : Nat) (e : HookEvent) : Act Unit := do
  enabled (((← getChip).cluster cl).box.serves e)
  modBox cl fun b => { b with events := b.events.erase e }

/-- A call before its phases. -/
def Call.start (hook subject ctx : Nat) (cands : List Cand) : Call :=
  { hook := hook, subject := subject, phaseT := false, cands := cands, ctx := ctx, hPick := none, stealRun := none }

/-- HOOK_ENQ. -/
def execHookEnq (r : Nat) (s : State) : Host.Outcome State Fault Refusal :=
  runEvent (do
    let c ← getChip
    let x ← someOr (mget? c.runs r)
    let cl ← someOr (c.part x.part).clusters.head?
    takeEvent cl ⟨0, r⟩
    enterH cl (Call.start 0 r x.ctx [.run r])) s

/-- The oldest entry of each context. -/
def firstPerCtx : List CandInfo → List Nat → List CandInfo
  | [], _ => []
  | x :: r, seen => if seen.contains x.ctx then firstPerCtx r seen else x :: firstPerCtx r (x.ctx :: seen)

/-- The guard's placement: the oldest guarded candidate that fits, with no PICK routine; where the cluster must steal, MIGRATE
names the victim (R239, R252). -/
def placeGuarded (cl : Nat) (gs : List CandInfo) : Act Unit :=
  orElse (orAny gs fun x => match x.cand with
    | .run id => do
      enabled (← runFits true id cl)
      placePicked cl id
    | .saved id => restoreUnit true id cl
    | _ => notReady) (pure ())

/-- HOOK_PICK. -/
def execHookPick (cl : Nat) (s : State) : Host.Outcome State Fault Refusal :=
  runEvent (do
    let c ← getChip
    let now ← clock
    let part ← someOr (c.partOf cl)
    takeEvent cl ⟨1, 0⟩
    let gs := c.guards part now
    if !gs.isEmpty then placeGuarded cl gs
    else do
      let xs := (firstPerCtx (← eligible cl) []).take 16
      if xs.isEmpty then pure () else enterH cl (Call.start 1 0 0 (xs.map CandInfo.cand))
    refreshAllAges) s

/-- HOOK_TICK: the TICK of a cluster arrives with each multiple of 4 096 clk, and with it a PICK where an eligible candidate
exists; a pending TICK is served. -/
def execHookTick (cl : Nat) (s : State) : Host.Outcome State Fault Refusal :=
  runEvent (do
    let c ← getChip
    let now ← clock
    enabled (c.partOf cl).isSome
    let xs ← eligible cl
    if (c.cluster cl).box.tickAt < now / 4096 then do
      modBox cl fun b => { b with tickAt := now / 4096 }
      pushHook cl 2 0
      if xs.isEmpty then pure () else pushHook cl 1 0
    else do
      takeEvent cl ⟨2, 0⟩
      enterH cl (Call.start 2 0 0 ((xs.take 16).map CandInfo.cand))) s

/-- The candidates that would fit a cluster once a team has left it. -/
def fitsAfter (cl tid : Nat) : Act (List CandInfo) := do
  let c ← getChip
  let now ← clock
  match c.partOf cl with
  | none => return []
  | some part => do
    let ok ← mapAct (c.candidates part now) fun x => do
      let fits ← trial (do
        dissolveTeam tid 1
        match x.cand with
        | .run id => enabled (← runFits true id cl)
        | .saved id => enabled (← savedFits true id cl)
        | _ => notReady)
      return (x, fits)
    return (ok.filter Prod.snd).map Prod.fst

/-- HOOK_BLOCK. -/
def execHookBlock (t : Nat) (s : State) : Host.Outcome State Fault Refusal :=
  runEvent (do
    let c ← getChip
    let x ← someOr (mget? c.teams t)
    let r ← someOr (mget? c.runs x.run)
    let cl := coreCluster x.core
    takeEvent cl ⟨3, t⟩
    if !c.teamParked t then pure ()
    else do
      let others ← fitsAfter cl t
      enterH cl (Call.start 3 t r.ctx (.team t :: (others.take 15).map CandInfo.cand))) s

/-- HOOK_WAKE. -/
def execHookWake (t : Nat) (s : State) : Host.Outcome State Fault Refusal :=
  runEvent (do
    let c ← getChip
    let x ← someOr (mget? c.teams t)
    let r ← someOr (mget? c.runs x.run)
    let cl := coreCluster x.core
    takeEvent cl ⟨4, t⟩
    enterH cl (Call.start 4 t r.ctx [.run x.run])) s

/-! ## The age guard (R252) -/

/-- A candidate by number: run 2 × key, saved team 2 × number + 1. -/
def candOf (n : Nat) : Cand := if n % 2 = 0 then .run (n / 2) else .saved (n / 2)

def setGuarded (cand : Cand) (now : Nat) : Act Unit :=
  match cand with
  | .run id => modRun id fun r => { r with guarded := some now }
  | .saved id => modChip fun c => { c with saved := mmod c.saved id fun s => { s with guarded := some now } }
  | _ => pure ()

/-- The partition of a candidate, since when it is guarded, and whether R240 or R321 holds it. -/
def Chip.guardOf (c : Chip) (cand : Cand) : Option (Nat × Option Nat × Bool) :=
  match cand with
  | .run id => (mget? c.runs id).bind fun r =>
      if r.status = .head then some (r.part, r.guarded, r.pausedSince.isSome) else none
  | .saved id => (mget? c.saved id).map fun s => (s.part, s.guarded, s.pausedSince.isSome)
  | _ => none

/-- AGE_GUARD_TRIGGER. -/
def execAgeGuardTrigger (cand : Nat) (s : State) : Host.Outcome State Fault Refusal :=
  runEvent (do
    refreshAllAges
    let c ← getChip
    let now ← clock
    let (part, since, held) ← someOr (c.guardOf (candOf cand))
    let x ← someOr ((c.candidates part now).find? fun x => x.cand = candOf cand)
    enabled (since.isNone && !held && (c.part part).sbound * 4096 ≤ x.age)
    setGuarded (candOf cand) now
    each (c.part part).clusters fun k => pushHook k 1 0) s

/-- The sublists of `k` entries, in order. -/
def sublistsOf : Nat → List α → List (List α)
  | 0, _ => [[]]
  | _ + 1, [] => []
  | k + 1, x :: r => (sublistsOf k r).map (x :: ·) ++ sublistsOf (k + 1) r

/-- Whether a candidate fits a cluster once some units have left. -/
def fitsWithout (cl : Nat) (cand : Cand) (us : List (Nat × Nat)) : Act Bool :=
  trial (do
    each us fun u => do
      each ((← getChip).unitTeams u.1 u.2) fun t => dissolveTeam t.1 1
    match cand with
    | .run id => do
      let c ← getChip
      let r ← someOr ((mget? c.runs id).bind fun r => r.withUnits (c.part r.part) cl)
      modChip fun c => { c with runs := mset c.runs id r }
      placeRun true id cl
    | .saved id => restoreUnit true id cl
    | _ => notReady)

/-- Whether units could be pre-empted together now: flushed, or their records fit the pools. -/
def canPreempt (us : List (Nat × Nat)) : Act Bool := trial (each us fun u => do
  let _ ← preemptUnit u.1 u.2 false
  pure ())

/-- The first choice of units, fewest first, whose freed capacity lets a candidate fit. -/
def guardChoice (cl : Nat) (cand : Cand) (gone : List (Nat × Nat)) : List (List (Nat × Nat)) → Act (Option (List (Nat × Nat)))
  | [] => return none
  | us :: r => do
    if (← fitsWithout cl cand (gone ++ us)) && (← canPreempt us) then return some us else guardChoice cl cand gone r

/-- AGE_GUARD_PREEMPT: the fewest units of a cluster, of lower queue priority and then of younger launches first; units
already leaving count as gone. -/
def execAgeGuardPreempt (cand cl : Nat) (s : State) : Host.Outcome State Fault Refusal :=
  runEvent (do
    let c ← getChip
    let now ← clock
    let (part, since, _) ← someOr (c.guardOf (candOf cand))
    let t0 ← someOr since
    enabled (t0 + 4096 ≤ now && c.partOf cl = some part)
    let here := c.residentUnits fun _ _ t => coreCluster t.core = cl
    let leaving := here.filter fun u => (c.unitTeams u.1 u.2).any fun t => t.2.saveBy.isSome
    let prio := fun (u : Nat × Nat) => match (mget? c.runs u.1).bind fun r => mget? c.queues r.queue with
      | some q => q.prio
      | none => 0
    let order := sortBy (fun a b => prio a < prio b || (prio a = prio b && b.1 < a.1)) (here.filter fun u => !leaving.contains u)
    let able ← mapAct order fun u => do return (u, ← canPreempt [u])
    let us := (able.filter Prod.snd).map Prod.fst
    enabled (!(← fitsWithout cl (candOf cand) leaving))
    let pick ← guardChoice cl (candOf cand) leaving ((List.range us.length).flatMap fun k => sublistsOf (k + 1) us)
    let pick ← someOr pick
    each pick fun u => do
      let _ ← preemptUnit u.1 u.2 false
      pure ()
    setGuarded (candOf cand) now) s

end Sys2Proof.Machine
end

