-- ==== Sys2Proof/Machine/Belino.lean ====
section
/-! DEFINITION. Belino: one operation of the routine that a signal box runs, its cycles and its overrun (R244, R246, R247, R251,
R424, R425). -/

namespace Sys2Proof.Machine

/-- Cycles that a phase of a hook may take (R251). -/
def allowance (hook : Nat) : Nat :=
  match hook with
  | 0 => 64
  | 1 => 128
  | 2 => 512
  | 3 => 64
  | 4 => 64
  | _ => 128

/-- The context of a routine's key: none for phase H. -/
def keyCtx (key : Nat) : Option Nat := if key % 1024 < 512 then none else some (key % 1024 - 512)

/-- A phase passes its allowance: its decisions go, its routine falls back, and the default applies (R251). DATA0 of its event
names the hook and the phase, H as 0 (assumption 95). -/
def overrun (cl : Nat) (f : Phase) : Act Unit := do
  let part := ((← getChip).partOf cl).getD 0xFF
  modBox cl fun b => { b with
    phase := none, routines := mmod b.routines f.key fun r => { r with fallback := true, overruns := r.overruns + 1 } }
  hostEvent evOverrun part ((keyCtx f.key).getD 0xFFFF) cl (f.key / 1024 + boolNat (keyCtx f.key).isSome * 2 ^ 8) (← eventData)
  commitPhase cl none

/-- A register: G0 reads 0. -/
def Phase.reg (f : Phase) (i : BitVec 4) : Addr := if i = 0 then 0 else mgetD f.g 0 i.toNat
/-- A register written: G0 discards. -/
def Phase.setReg (f : Phase) (i : BitVec 4) (v : Addr) : Phase := if i = 0 then f else { f with g := mput 0 f.g i.toNat v }

/-- The running phase's operation: within its allowance it takes effect and the program counter moves on; the effect may move
it again. -/
def belinoStep (cost : Nat → Routine → Nat) (op : Nat → Routine → Phase → Act Phase) (s : State) : Host.Outcome State Fault Refusal :=
  runEvent (do
    let cl := (← get).actor.1
    let b := ((← getChip).cluster cl).box
    let f ← someOr b.phase
    let r ← someOr (mget? b.routines f.key)
    let n := f.cycles + cost cl r
    if allowance (f.key / 1024) < n then overrun cl f
    else do
      let f ← op cl r { f with cycles := n, pc := f.pc + 1 }
      modBox cl fun b => { b with phase := some f }) s

/-- An operation of one cycle on registers alone. -/
def belinoAlu (f : BelinoF) (g : Phase → Addr → Addr → Addr) (s : State) : Host.Outcome State Fault Refusal :=
  belinoStep (fun _ _ => 1) (fun _ _ p =>
    return p.setReg f.d (g p (p.reg f.a) (p.reg (f.imm.setWidth 4)))) s

def execBelinoLdi (f : BelinoF) (s : State) : Host.Outcome State Fault Refusal := belinoAlu f (fun _ _ _ => f.imm.signExtend 64) s
def execBelinoMov (f : BelinoF) (s : State) : Host.Outcome State Fault Refusal := belinoAlu f (fun _ a _ => a) s
def execBelinoAdd (f : BelinoF) (s : State) : Host.Outcome State Fault Refusal := belinoAlu f (fun _ a b => a + b) s
def execBelinoSub (f : BelinoF) (s : State) : Host.Outcome State Fault Refusal := belinoAlu f (fun _ a b => a - b) s
def execBelinoAnd (f : BelinoF) (s : State) : Host.Outcome State Fault Refusal := belinoAlu f (fun _ a b => a &&& b) s
def execBelinoOr (f : BelinoF) (s : State) : Host.Outcome State Fault Refusal := belinoAlu f (fun _ a b => a ||| b) s
def execBelinoXor (f : BelinoF) (s : State) : Host.Outcome State Fault Refusal := belinoAlu f (fun _ a b => a ^^^ b) s
def execBelinoShl (f : BelinoF) (s : State) : Host.Outcome State Fault Refusal :=
  belinoAlu f (fun _ a b => a <<< (b.toNat % 64)) s
def execBelinoShr (f : BelinoF) (s : State) : Host.Outcome State Fault Refusal :=
  belinoAlu f (fun _ a b => a >>> (b.toNat % 64)) s
def execBelinoMin (f : BelinoF) (s : State) : Host.Outcome State Fault Refusal :=
  belinoAlu f (fun _ a b => if b.toNat < a.toNat then b else a) s
def execBelinoMax (f : BelinoF) (s : State) : Host.Outcome State Fault Refusal :=
  belinoAlu f (fun _ a b => if a.toNat < b.toNat then b else a) s
def execBelinoSel (f : BelinoF) (s : State) : Host.Outcome State Fault Refusal :=
  belinoAlu f (fun p a b => if a ≠ 0 then b else p.reg f.d) s
def execBelinoCmplt (f : BelinoF) (s : State) : Host.Outcome State Fault Refusal :=
  belinoAlu f (fun _ a b => if a.toNat < b.toNat then 1 else 0) s
def execBelinoCmpeq (f : BelinoF) (s : State) : Host.Outcome State Fault Refusal :=
  belinoAlu f (fun _ a b => if a = b then 1 else 0) s

/-- The counter of an index in a phase's snapshot (R247). -/
def Phase.counter (p : Phase) (i : Nat) : Addr :=
  if i < 256 then ((p.fields[i / 16]?).bind fun fs => fs[i % 16]?).getD 0
  else if i < 272 then p.globals.getD (i - 256) 0
  else 0

def execBelinoLdc (f : BelinoF) (s : State) : Host.Outcome State Fault Refusal :=
  belinoStep (fun _ _ => 4) (fun _ _ p => return p.setReg f.d (p.counter ((f.imm.toNat + (p.reg f.a).toNat) % 2 ^ 64))) s

/-- The word that LDM and STM name: off + Ga, modulo the size of its space. -/
def belinoWord (f : BelinoF) (r : Routine) (p : Phase) : Nat :=
  (f.imm.toNat % 2 ^ 15 + (p.reg f.a).toNat) % (if f.imm.getLsbD 15 then 2 ^ r.mlog2 else 128)

/-- Cycles of LDM and STM. -/
def memCycles (f : BelinoF) (cl : Nat) (r : Routine) : Nat :=
  if !f.imm.getLsbD 15 then 2 else if r.mdie = cl / 10 then 12 else 40

def execBelinoLdm (f : BelinoF) (s : State) : Host.Outcome State Fault Refusal :=
  belinoStep (memCycles f) (fun _ r p => do
    let w := belinoWord f r p
    let c ← getChip
    let v := if f.imm.getLsbD 15 then mgetD (c.die r.mdie).mailbox 0 (r.mbase + w) else mgetD r.scratch 0 w
    return p.setReg f.d v) s

def execBelinoStm (f : BelinoF) (s : State) : Host.Outcome State Fault Refusal :=
  belinoStep (memCycles f) (fun cl r p => do
    let w := belinoWord f r p
    let v := p.reg f.d
    if f.imm.getLsbD 15 then modDie r.mdie fun d => { d with mailbox := mput 0 d.mailbox (r.mbase + w) v }
    else modBox cl fun b => { b with routines := mmod b.routines p.key fun x => { x with scratch := mput 0 x.scratch w v } }
    return p) s

def execBelinoLoop (f : BelinoF) (s : State) : Host.Outcome State Fault Refusal :=
  belinoStep (fun _ _ => 1) (fun _ _ p =>
    let at_ := p.pc - 1
    let n := mgetD p.cnt 0 at_ + 1
    return if n < f.imm.toNat % 256 then { p with cnt := mput 0 p.cnt at_ n, pc := at_ - f.imm.toNat / 256 }
           else { p with cnt := mput 0 p.cnt at_ 0 }) s

/-- A taken forward branch: the counters of the LOOPs it passes clear. -/
def Phase.jump (p : Phase) (off : Nat) : Phase :=
  { p with pc := p.pc + off, cnt := p.cnt.filter fun e => p.pc + off ≤ e.1 }

def execBelinoBrf (f : BelinoF) (s : State) : Host.Outcome State Fault Refusal :=
  belinoStep (fun _ _ => 1) (fun _ _ p => return if p.reg f.a ≠ 0 then p.jump f.imm.toNat else p) s

def execBelinoBrfZ (f : BelinoF) (s : State) : Host.Outcome State Fault Refusal :=
  belinoStep (fun _ _ => 1) (fun _ _ p => return if p.reg f.a = 0 then p.jump f.imm.toNat else p) s

/-- A decision register written (R244): PRIO and PREFETCH keep the first four writes. -/
def Phase.decide (p : Phase) (reg : Nat) (v : Addr) : Phase :=
  match reg with
  | 0 => { p with pick := some (v.toNat % 256) }
  | 1 => { p with prios := (p.prios ++ [v]).take 4 }
  | 2 => { p with prefetch := (p.prefetch ++ [v]).take 4 }
  | 3 => { p with migrate := some (v.toNat % 256) }
  | 4 => { p with hint := some (v.toNat % 512) }
  | _ => p

def execBelinoDec (f : BelinoF) (s : State) : Host.Outcome State Fault Refusal :=
  belinoStep (fun _ _ => 1) (fun _ _ p => return p.decide f.imm.toNat (p.reg f.a)) s

/-- EXIT: the phase ends and its decisions commit. -/
def execBelinoExit (f : BelinoF) (s : State) : Host.Outcome State Fault Refusal :=
  runEvent (do
    let _ := f
    let cl := (← get).actor.1
    let p ← someOr ((← getChip).cluster cl).box.phase
    if allowance (p.key / 1024) < p.cycles + 1 then overrun cl p
    else do
      modBox cl fun b => { b with phase := none }
      commitPhase cl (some p)) s

end Sys2Proof.Machine
end

