-- ==== Sys2Proof/Machine/Compact.lean ====
section
/-! DEFINITION. The compact instructions (R48, R49). -/

namespace Sys2Proof.Machine

/-- Compact MOV (R48, R377). -/
def execMovCompact (f : CompactF) (s : State) : Host.Outcome State Fault Refusal :=
  runZha 2 (movOp (compactForm f) f.vd.toNat (compactB f)) s

/-- Compact ADD (R48, R329). -/
def execAddCompact (f : CompactF) (s : State) : Host.Outcome State Fault Refusal :=
  runZha 2 (addOp false (compactForm f) f.vd.toNat (compactA f) (compactB f) rmRne false) s

/-- Compact SUB (R48, R412). -/
def execSubCompact (f : CompactF) (s : State) : Host.Outcome State Fault Refusal :=
  runZha 2 (addOp true (compactForm f) f.vd.toNat (compactA f) (compactB f) rmRne false) s

/-- Compact MUL (R49, R381). -/
def execMulCompact (f : CompactF) (s : State) : Host.Outcome State Fault Refusal :=
  runZha 2 (mulOp (compactForm f) f.vd.toNat (compactA f) (compactB f) rmRne false) s

/-- Compact AND (R331). -/
def execAndCompact (f : CompactF) (s : State) : Host.Outcome State Fault Refusal :=
  runZha 2 (andOp (compactForm f) f.vd.toNat (compactA f) (compactB f)) s

/-- Compact OR (R387). -/
def execOrCompact (f : CompactF) (s : State) : Host.Outcome State Fault Refusal :=
  runZha 2 (orOp (compactForm f) f.vd.toNat (compactA f) (compactB f)) s

/-- Compact XOR (R387). -/
def execXorCompact (f : CompactF) (s : State) : Host.Outcome State Fault Refusal :=
  runZha 2 (xorOp (compactForm f) f.vd.toNat (compactA f) (compactB f)) s

/-- Compact NOT (R386). -/
def execNotCompact (f : CompactF) (s : State) : Host.Outcome State Fault Refusal :=
  runZha 2 (notOp (compactForm f) f.vd.toNat (compactB f)) s

/-- Compact SHL (R49, R402). -/
def execShlCompact (f : CompactF) (s : State) : Host.Outcome State Fault Refusal :=
  runZha 2 (shlOp (compactForm f) f.vd.toNat (compactA f) (compactB f)) s

/-- Compact SHR (R49, R402). -/
def execShrCompact (f : CompactF) (s : State) : Host.Outcome State Fault Refusal :=
  runZha 2 (shrOp (compactForm f) f.vd.toNat (compactA f) (compactB f)) s

/-- Compact MIN (R373). -/
def execMinCompact (f : CompactF) (s : State) : Host.Outcome State Fault Refusal :=
  runZha 2 (minMaxOp false (compactForm f) f.vd.toNat (compactA f) (compactB f)) s

/-- Compact MAX (R373). -/
def execMaxCompact (f : CompactF) (s : State) : Host.Outcome State Fault Refusal :=
  runZha 2 (minMaxOp true (compactForm f) f.vd.toNat (compactA f) (compactB f)) s

/-- Compact ABS (R327). -/
def execAbsCompact (f : CompactF) (s : State) : Host.Outcome State Fault Refusal :=
  runZha 2 (absOp (compactForm f) f.vd.toNat (compactB f) false) s

/-- Compact NEG (R385). -/
def execNegCompact (f : CompactF) (s : State) : Host.Outcome State Fault Refusal :=
  runZha 2 (negOp (compactForm f) f.vd.toNat (compactB f) false) s

/-- Compact POPC (R393). -/
def execPopcCompact (f : CompactF) (s : State) : Host.Outcome State Fault Refusal :=
  runZha 2 (countOp (compactForm f) f.vd.toNat (compactB f) (popCount 32)) s

/-- Compact SEL: the lane's bit of P0 chooses Vs, else Vd (R49, R400). -/
def execSelCompact (f : CompactF) (s : State) : Host.Outcome State Fault Refusal :=
  runZha 2 (selOp (compactForm f) f.vd.toNat 0 false (compactB f) (compactA f)) s

end Sys2Proof.Machine
end

