-- ==== Sys2Proof/Machine/MatEvents.lean ====
section
/-! DEFINITION. The engine order at work: when an operation may start, what it reads, computes and writes, paired cores, and
completion (R188-R205). -/

namespace Sys2Proof.Machine

/-! ## Turns (R183, R196, R197) -/

/-- Whether two operations name a common tile or a common slot. -/
def MatOp.shares (a b : MatOp) : Bool :=
  let has := fun t => t ≠ noTile && (t = b.tile || t = b.tile2)
  has a.tile || has a.tile2 || (a.bslot ≠ noSlot && a.bslot = b.bslot)

/-- Whether an operation holds the engine, or the drain unit, that another needs; one side of a pair that is ready holds the
engine for its start (R199). -/
def MatOp.holdsUnit (e : MatOp) (now : Nat) (o : MatOp) : Bool :=
  (e.readyAt.isSome && e.startAt.isNone && e.status.isNone && (o.kind = .mma || o.kind = .mv)) || e.running &&
    (match o.kind with
      | .bld => false
      | .mma => e.kind = .mv || (e.kind = .mma && now + 24 < e.endsAt)
      | .mv => e.kind = .mv || (e.kind = .mma && now + 24 < e.endsAt)
      | _ => !e.kind.onMx)

/-- Whether an operation of a core's order may start. -/
def Chip.matTurn (c : Chip) (core key now : Nat) (o : MatOp) : Bool :=
  o.startAt.isNone && o.status.isNone && o.parked.isNone && c.drained o.who o.after &&
    ((c.core core).order.all fun e => e.1 = key || e.2.status.isSome || (e.1 ≥ key || !o.shares e.2) && !e.2.holdsUnit now o) &&
    (!o.kind.onMx || (match c.mxLease o.who.tid with
      | some (_, l) => l.state = .held || l.state = .notice
      | none => false))

/-- An operation that holds its current goes on. The MX keeps one standing reservation, of the largest kind it runs, and
asks for the difference that a larger kind needs (R184). -/
def withMat (core key : Nat) (o : MatOp) (go : Act Unit) : Act Unit := do
  let c ← getChip
  let cl := coreCluster core
  let prio := c.ctxPrio o.who.ctx
  if !o.kind.onMx then withCurrent cl (.order core key) o.kind.need false prio go
  else do
    let standing := fun (c : Chip) => cqSum ((c.cluster cl).grants.filter fun x => x.owner = .order core 0)
    let old := standing c
    if old < o.kind.need then do
      askCq cl (.order core key) (o.kind.need - old) false prio
      arbitrate cl
    else pure ()
    if standing (← getChip) ≥ o.kind.need then do
      standMx core (max (c.core core).mxNeed o.kind.need)
      go
    else pure ()

/-- The operation that an event names, of a kind. -/
def matAt (core key : Nat) (kind : MatKind) : Act MatOp := do
  let o ← someOr (mget? ((← getChip).core core).order key)
  enabled (o.kind = kind)
  return o

/-! ## Reading (R104, R138) -/

/-- Rows of an operand record in scratch, with FEW and FEC. -/
def recRead (who : Actor) (rcd : BitVec 64) (rows : List Nat) : Async (List (Nat × List Byte)) := do
  let c ← inAct getChip
  let r := OpRec.of rcd
  let lo := match mget? c.teams who.tid with
    | some t => t.scrLo
    | none => 0
  let ranges := rows.map fun i => (lo + r.row i, r.rowBytes)
  let grans := distinct (ranges.flatMap fun x => fullGrans x.1 x.2)
  if r.few && !grans.all (c.core who.core).isFull then inAct notReady else pure ()
  let a : Access := ⟨if r.few then c.filled who who.core grans else who, 8, false, 0, false⟩
  let gs := c.scrRanges who ranges
  if ← inAct (checkAsync a gs) then fails 3 else pure ()
  inAct (each (distinct (gs.map Prod.snd)) (markRead a))
  if r.fec then inAct (modCore who.core fun k => k.markFull grans false) else pure ()
  return rows.map fun i => (i, (c.core who.core).bytes (lo + r.row i) r.rowBytes)

def Chip.tileVal (c : Chip) (core tile row col : Nat) : Nat := (mgetD (c.core core).tiles 0 (tileWord tile row col)).toNat

/-- Words of tile rows, as outputs. -/
def tileRows (tile : Nat) (rows : List Nat) (f : Nat → Nat → Nat) : Map Word :=
  rows.flatMap fun i => (List.range 128).map fun n => (tileWord tile i n, BitVec.ofNat 32 (f i n))

/-! ## BLD (R194) -/

/-- What a BLD's rows make of its slot: the load, and the status. -/
def bldPlan (o : MatOp) : Async (Option BLoad × Nat) := do
  let r := OpRec.of o.rcd
  let rows := (← recRead o.who o.rcd (List.range r.rows)).map Prod.snd
  if o.mods.getLsbD 0 then
    return (some ⟨r.tag.toNat, (vectorK r.len).getD 0, 0, r.rows, rows, []⟩, 0)
  else
    let n := sparseN o.mods
    let (d, _, _) := loadRows n r.tag
    let k := if n ≠ 0 then 64 * (256 / n) else if r.tag = tagQC4 then 512 else if r.tag = tagBF16 then 128 else 256
    let l : BLoad := ⟨r.tag.toNat, k, n, 0, rows.take d, (rows.drop d).flatten⟩
    return if n ≠ 0 && !l.increasing then (none, 6) else (some l, 0)

/-- BLD_START: the slot becomes EMPTY; the rows are read at once or, under FEW, when a later attempt finds them full. -/
def execBldStart (core op : Nat) (s : State) : Host.Outcome State Fault Refusal :=
  runEvent (do
    let o ← matAt core op .bld
    let now ← clock
    let read : Act Unit := do
      match ← (bldPlan o).run with
      | .ok (l, st) => modMat core op fun x => { x with read := true, endsAt := now + 136, load := l, outStatus := st }
      | .error (.fails st) => finishMat core op st
      | .error (.parks ..) => notReady
    if o.startAt.isSome && !o.read && o.status.isNone then read
    else do
      enabled ((← getChip).matTurn core op now o)
      withMat core op o do
        modCore core fun k => { k with bslots := merase k.bslots o.bslot }
        modMat core op fun x => { x with startAt := some now }
        orElse read (pure ())
    settle) s

/-- BLD_COMPLETE: the slot takes its load. -/
def execBldComplete (core op : Nat) (s : State) : Host.Outcome State Fault Refusal :=
  runEvent (do
    let o ← matAt core op .bld
    enabled (o.running && o.read && o.endsAt ≤ (← clock))
    modCore core fun k => { k with bslots := match o.load with
      | some l => mset k.bslots o.bslot l
      | none => k.bslots }
    modMat core op fun x => { x with load := none }
    finishMat core op o.outStatus
    settle) s

/-! ## Adapters (R202) -/

/-- The adapters that rows of an operation select, and whether an id selects none. `mv` holds MV's column block. -/
def adapterPlan (o : MatOp) (va : Nat) (k : Nat) (mv : Option Nat) (rows : List Nat) :
    Async (List (Nat × Adapter) × Bool) := do
  let c ← inAct getChip
  if va % 64 ≠ 0 || !c.globalRange va 64 then fails 5 else pure ()
  let b ← asyncRead o.who 8 va 64
  let w := recNat b 0x18 4
  let (astr, bstr, count, ktot, ntot) := (recNat b 0x10 4, recNat b 0x14 4, recNat b 0x1C 4, recNat b 0x20 4, recNat b 0x24 4)
  let k0 := if mv.isSome then 0 else recNat b 0x28 4
  let n0 := match mv with
    | some cb => 128 * cb
    | none => recNat b 0x2C 4
  let fmtOk := fun t : Nat => t = 4 || t = 8 || t = 9
  if astr % 16 ≠ 0 || bstr % 16 ≠ 0 || bits w 0 3 > 4 || bits w 3 1 ≠ 0 || bits w 12 20 ≠ 0 || !fmtOk (bits w 4 4) ||
      !fmtOk (bits w 8 4) || count = 0 || count > 2 ^ 20 || k0 + k > ktot || n0 + 128 > ntot ||
      (b.drop 0x30).any fun x => x ≠ 0 then fails 5 else pure ()
  let r := 4 * 2 ^ bits w 0 3
  let af := BitVec.ofNat 4 (bits w 4 4)
  let bf := BitVec.ofNat 4 (bits w 8 4)
  let idOf := fun i => (o.ids.getD i 0xFFFFFFFF).toNat
  let wanted := distinct ((rows.map idOf).filter fun a => a < count)
  let bad := rows.any fun i => idOf i ≠ 0xFFFFFFFF && idOf i ≥ count
  let fetch := fun (at_ n : Nat) => (do
    if !c.globalRange at_ n then fails 5 else pure ()
    asyncRead o.who 8 at_ n : Async (List Byte))
  let xs ← wanted.mapM fun a => do
    let am ← fetch (recNat b 0 8 + a * astr + k0 * r * tagBytes af) (k * r * tagBytes af)
    let bm ← (List.range r).mapM fun j => fetch (recNat b 8 8 + a * bstr + (j * ntot + n0) * tagBytes bf) (128 * tagBytes bf)
    return (a, (⟨r, af, bf, am, bm⟩ : Adapter))
  return (xs, bad)

/-- The outputs of an MMA or MV: each row's accumulators after its K-tiles, with its adapter's contribution. -/
def matOut (c : Chip) (core : Nat) (o : MatOp) (ta : BitVec 4) (k : Nat) (rows : List (Nat × List Byte))
    (acc : List Byte → Nat → Nat → Nat) (ads : List (Nat × Adapter)) : Map Word :=
  let z := o.mods.getLsbD 0
  let row := fun i => ((rows.find? fun r => r.1 = i).map Prod.snd).getD []
  let us := rows.map fun r => (r.1, (ads.find? fun a => a.1 = (o.ids.getD r.1 0xFFFFFFFF).toNat).map fun a =>
    (a.2, a.2.us ta k r.2))
  tileRows o.tile (rows.map Prod.fst) fun i n =>
    let v := acc (row i) n (if z then 0 else c.tileVal core o.tile i n)
    match (us.find? fun u => u.1 = i).bind Prod.snd with
    | some (a, u) => accAdd v (a.value u n)
    | none => v

/-- The tile words that each step of an MMA or MV but the last leaves (R185): a row without an adapter has one step fewer. -/
def matSteps (c : Chip) (core : Nat) (o : MatOp) (rows : List (Nat × List Byte)) (tiles : Nat)
    (steps : List Byte → Nat → Nat → List Nat) (acc : List Byte → Nat → Nat → Nat) (ads : List (Nat × Adapter)) : List (Map Word) :=
  let z := o.mods.getLsbD 0
  let at_ := fun (r : Nat × List Byte) (n : Nat) =>
    let v0 := if z then 0 else c.tileVal core o.tile r.1 n
    let adapts := ads.any fun a => a.1 = (o.ids.getD r.1 0xFFFFFFFF).toNat
    steps r.2 n v0 ++ if adapts then [acc r.2 n v0] else []
  (List.range (if ads.isEmpty then tiles - 1 else tiles)).map fun t =>
    rows.flatMap fun r => (List.range 128).filterMap fun n =>
      ((at_ r n)[t]?).map fun v => (tileWord o.tile r.1 n, BitVec.ofNat 32 v)

/-! ## MMA (R195, R196, R199) -/

/-- The slot and shape checks of an MMA: its load, or the status (R195). -/
def Chip.mmaLoad (c : Chip) (core : Nat) (o : MatOp) : Except Nat BLoad :=
  let r := OpRec.of o.rcd
  match mget? (c.core core).bslots o.bslot with
  | none => .error 9
  | some l =>
    if !l.accepts r.tag || r.rows ≠ 32 || r.len ≠ l.k / 16 * tagBytes r.tag + scaleUnits r.tag l.k ||
        o.mods.getLsbD 1 ≠ (l.sparse ≠ 0) || l.vecs ≠ 0 then .error 5
    else .ok l

def BLoad.occupancy (l : BLoad) : Nat := if l.tag4 = tagBF16 then 64 else 32

/-- An MMA's adapters, over the rows of its mask. -/
def mmaAdapters (o : MatOp) (k : Nat) : Async (List (Nat × Adapter) × Bool) :=
  if o.mods.getLsbD 3 then adapterPlan o o.desc.toNat k none (lanesOf o.mask) else pure ([], false)

/-- What an MMA or MV computes: tile words after each step but the last, tile words at its end, and its status. -/
structure MatResult where
  steps : List (Map Word)
  out : Map Word
  status : Nat
  deriving DecidableEq, Repr

/-- What an MMA computes from A rows. -/
def mmaOut (core : Nat) (o : MatOp) (l : BLoad) (rows : List (Nat × List Byte)) : Async MatResult := do
  let (ads, bad) ← mmaAdapters o l.k
  let c ← inAct getChip
  let ta := (OpRec.of o.rcd).tag
  let mine := rows.filter fun r => o.mask.getLsbD r.1
  return ⟨matSteps c core o mine (l.k / 256) (fun row n acc => l.steps ta row n acc) (fun row n acc => l.accumulate ta row n acc) ads,
    matOut c core o ta l.k mine (fun row n acc => l.accumulate ta row n acc) ads, if bad then 7 else 0⟩

/-- An MMA of one core: checks, rows, outputs and occupancy. -/
def mmaPlan (core : Nat) (o : MatOp) : Async (MatResult × Nat) := do
  match (← inAct getChip).mmaLoad core o with
  | .error st => fails st
  | .ok l => do
    let rows ← recRead o.who o.rcd (lanesOf o.mask)
    return (← mmaOut core o l rows, l.occupancy)

/-- A computed operation starts. -/
def beginMat (core key : Nat) (r : MatResult) (ends : Nat) : Act Unit := do
  let now ← clock
  modMat core key fun x => { x with
    read := true, startAt := some now, endsAt := ends, steps := r.steps, outTile := r.out, outStatus := r.status }

/-- MMA_START, for an MMA without .p. -/
def execMmaStart (core op : Nat) (s : State) : Host.Outcome State Fault Refusal :=
  runEvent (do
    let o ← matAt core op .mma
    let now ← clock
    enabled (!o.mods.getLsbD 2 && (← getChip).matTurn core op now o)
    withMat core op o do
      match ← (mmaPlan core o).run with
      | .ok (r, occ) => beginMat core op r (now + occ + 24)
      | .error (.fails st) => finishMat core op st
      | .error (.parks ..) => notReady
    settle) s

/-- A started operation that only writes tiles completes. -/
def landMat (core op : Nat) (o : MatOp) : Act Unit := do
  landOutputs core o
  modMat core op fun x => { x with steps := [], outTile := [], outBytes := [], outRegs := [] }
  finishMat core op o.outStatus

/-- MMA_COMPLETE. -/
def execMmaComplete (core op : Nat) (s : State) : Host.Outcome State Fault Refusal :=
  runEvent (do
    let o ← matAt core op .mma
    enabled (o.running && o.endsAt ≤ (← clock))
    landMat core op o
    settle) s

/-! ### Pairs (R199) -/

/-- The other core of a pair. -/
def pairCore (core : Nat) : Nat := core + 1 - 2 * (core % 2)

/-- Whether two teams' numbers lie in one pair instance of a run that declares a pair level. -/
def Run.paired (r : Run) (a b : Word) : Bool :=
  (r.levels.any fun l => l.dom = 3) && r.instOf 3 a.toNat = r.instOf 3 b.toNat && a ≠ b

def Chip.runPairs (c : Chip) (o : MatOp) : Bool :=
  match mget? c.runs o.who.run with
  | some r => r.levels.any fun l => l.dom = 3
  | none => false

/-- The twin's operation on the other core. -/
def Chip.twinOp (c : Chip) (core : Nat) (o : MatOp) : Option (Nat × MatOp) :=
  match mget? c.runs o.who.run with
  | none => none
  | some r => (c.core (pairCore core)).order.find? fun e =>
      e.2.kind = .mma && e.2.mods.getLsbD 2 && e.2.status.isNone && e.2.who.run = o.who.run && e.2.who.index = o.who.index &&
        e.2.seqP = o.seqP && r.paired e.2.who.team o.who.team

/-- Whether the twin group is no longer on its core. -/
def Chip.twinGone (c : Chip) (core : Nat) (o : MatOp) : Bool :=
  match mget? c.runs o.who.run with
  | none => true
  | some r => !((c.coreTeams (pairCore core)).any fun t => t.2.run = o.who.run && r.paired t.2.num o.who.team &&
      t.2.slots.any fun g => match c.group? g with
        | some x => x.tid = t.1 && x.index = o.who.index && x.live ≠ 0
        | none => false)

/-- MMA_PAIR_READY: the operation may start and holds its reservation; with no pair level, or no twin left, it completes
PAIRMISMATCH. -/
def execMmaPairReady (core op : Nat) (s : State) : Host.Outcome State Fault Refusal :=
  runEvent (do
    let o ← matAt core op .mma
    let now ← clock
    let c ← getChip
    enabled (o.mods.getLsbD 2 && c.matTurn core op now o)
    if !c.runPairs o || ((c.twinOp core o).isNone && c.twinGone core o) then finishMat core op 8
    else do
      enabled o.readyAt.isNone
      withMat core op o (modMat core op fun x => { x with readyAt := some now })
    settle) s

/-- What a load is recorded as: format, K, sparsity and vector count. -/
def BLoad.shape (l : BLoad) : Nat × Nat × Nat × Nat := (l.tag, l.k, l.sparse, l.vecs)

/-- R199's matching of two operations. -/
def Chip.pairMatch (c : Chip) (core : Nat) (o : MatOp) (p : MatOp) : Bool :=
  let a := OpRec.of o.rcd
  let b := OpRec.of p.rcd
  let shape := fun k (x : MatOp) => (mget? (c.core k).bslots x.bslot).map BLoad.shape
  a.tag = b.tag && a.rows = b.rows && a.len = b.len && shape core o = shape (pairCore core) p &&
    bits o.mods.toNat 0 2 = bits p.mods.toNat 0 2 && o.mods.getLsbD 3 = p.mods.getLsbD 3

/-- Both sides of a pair: the even core's record gives the A rows of either mask. -/
def pairPlan (even : Nat) (e p : MatOp) : Async (MatResult × MatResult × Nat) := do
  let c ← inAct getChip
  match c.mmaLoad even e, c.mmaLoad (even + 1) p with
  | .ok l, .ok m => do
    let rows ← recRead e.who e.rcd (lanesOf (e.mask ||| p.mask))
    let x ← mmaOut even e l rows
    let y ← mmaOut (even + 1) p m rows
    return (x, y, l.occupancy)
  | .error st, _ => fails st
  | _, .error st => fails st

/-- MMA_PAIR_START: both sides ready, at the later of their times plus 8 clk. -/
def execMmaPairStart (core op : Nat) (s : State) : Host.Outcome State Fault Refusal :=
  runEvent (do
    let o ← matAt core op .mma
    let now ← clock
    let c ← getChip
    let (q, p) ← someOr (c.twinOp core o)
    let t1 ← someOr o.readyAt
    let t2 ← someOr p.readyAt
    enabled (o.startAt.isNone && o.status.isNone && o.parked.isNone && p.parked.isNone && max t1 t2 + 8 ≤ now)
    let both := fun st => (do
      finishMat core op st
      finishMat (pairCore core) q st : Act Unit)
    if !c.pairMatch core o p then both 8
    else do
      let (even, ek, eo, ok_, oo) := if core % 2 = 0 then (core, op, o, q, p) else (pairCore core, q, p, op, o)
      match ← (pairPlan even eo oo).run with
      | .ok (x, y, occ) => do
        beginMat even ek x (now + occ + 24)
        beginMat (even + 1) ok_ y (now + occ + 24)
      | .error (.fails st) => both st
      | .error (.parks ..) => notReady
    settle) s

/-! ## MV (R200, R201) -/

/-- An MV's stream: descriptor, weights, scales and adapters; its tile words and status. -/
def mvPlan (core : Nat) (o : MatOp) : Async MatResult := do
  let c ← inAct getChip
  let va := o.desc.toNat
  match mget? (c.core core).bslots o.bslot with
  | none => fails 9
  | some l => do
    if l.vecs = 0 || va % 64 ≠ 0 || !c.globalRange va 64 then fails 5 else pure ()
    let b ← asyncRead o.who 8 va 64
    let w := recNat b 8 4
    let t := BitVec.ofNat 4 (bits w 0 4)
    let k := 256 * (bits w 12 4 + 1)
    let (wbase, bstr, sbase, ssbase) := (recNat b 0 8, recNat b 0x10 8, recNat b 0x18 8, recNat b 0x20 8)
    let cb := o.sb.toNat
    if !(t = tagF8A || t = tagF8B || t = tagI8 || t = tagQC4) || bits w 4 8 ≠ 0 || bits w 16 16 = 0 || recNat b 0xC 4 ≠ 0 ||
        wbase % 128 ≠ 0 || bstr % 128 ≠ 0 || (t ≠ tagQC4 && ssbase ≠ 0) || (b.drop 0x30).any (fun x => x ≠ 0) ||
        l.k ≠ k || !streamPair l.tag4 t || cb ≥ bits w 16 16 then fails 5 else pure ()
    let rowLen := if t = tagQC4 then 64 else 128
    let get := fun (at_ n : Nat) => (do
      if !c.globalRange at_ n then fails 5 else pure ()
      asyncRead o.who 8 at_ n : Async (List Byte))
    let ws ← get (wbase + cb * bstr) (k * rowLen)
    let sc ← get (sbase + cb * (k / 64) * 128) (k / 64 * 128)
    let su ← if t = tagQC4 then get (ssbase + 4 * (cb * (k / 256) * 128)) (4 * (k / 256) * 128) else pure []
    let lanes := (lanesOf o.mask).filter fun i => i < l.vecs
    let (ads, bad) ← if o.mods.getLsbD 3 then adapterPlan o (recNat b 0x28 8) k (some cb) lanes else pure ([], false)
    let c ← inAct getChip
    let wt : Weights := ⟨t, (List.range k).map fun r => (ws.drop (r * rowLen)).take rowLen, sc, su⟩
    let rows := lanes.map fun i => (i, l.rows.getD i [])
    let acc := fun row n acc => wt.accumulate l.tag4 k row n acc
    return ⟨matSteps c core o rows (k / 256) (fun row n acc => wt.steps l.tag4 k row n acc) acc ads,
      matOut c core o l.tag4 k rows acc ads, if bad then 7 else 0⟩

/-- MV_START. The stream's length in time is not stated (assumption 6). -/
def execMvStart (core op : Nat) (s : State) : Host.Outcome State Fault Refusal :=
  runEvent (do
    let o ← matAt core op .mv
    let now ← clock
    enabled ((← getChip).matTurn core op now o)
    withMat core op o do
      match ← (mvPlan core o).run with
      | .ok r => beginMat core op r 0
      | .error (.fails st) => finishMat core op st
      | .error (.parks ..) => notReady
    settle) s

/-- MV_COMPLETE. -/
def execMvComplete (core op : Nat) (s : State) : Host.Outcome State Fault Refusal :=
  runEvent (do
    let o ← matAt core op .mv
    enabled o.running
    landMat core op o
    settle) s

/-! ## TDRN (R203, R204) -/

/-- A drain's descriptor, residual rows and outputs: scratch bytes element by element, or registers. -/
def tdrnPlan (core : Nat) (o : MatOp) : Async (List (Nat × List Byte) × List (Nat × Nat × Word)) := do
  let c ← inAct getChip
  let va := o.desc.toNat
  if va % 64 ≠ 0 || !c.globalRange va 64 then fails 5 else pure ()
  let d := Drain.of (← asyncRead o.who 8 va 64)
  let rows := lanesOf o.mask
  let r := OpRec.of d.resrec
  let units := match mget? c.teams o.who.tid with
    | some t => t.scrUnits
    | none => 0
  if !d.clean || (d.res && (d.resrec.getLsbD 63 || r.len = 0 || !residualTag r.tag || r.rows ≠ 32 ||
      r.len ≠ 8 * tagBytes r.tag || r.endUnit > units * 128)) then fails 5 else pure ()
  let res ← if d.res then recRead o.who d.resrec rows else pure []
  let dt := BitVec.ofNat 4 o.dtag
  let lid := match mget? c.runs o.who.run with
    | some x => x.lid
    | none => 0
  let elem := fun i n => d.elem lid dt (o.mods.getLsbD 3) i n (c.tileVal core o.tile i n)
    (if d.res then some (r.tag, rowElem r.tag (((res.find? fun x => x.1 = i).map Prod.snd).getD []) n) else none)
  if o.mods.getLsbD 0 then
    let e := 4 / tagBytes dt
    let cw := bits o.mods.toNat 1 2
    return ([], rows.flatMap fun i => (List.range (drainRegs dt)).map fun q =>
      (o.vd + q, i, BitVec.ofNat 32 (packElems (8 * tagBytes dt) ((List.range e).map fun j => elem i (32 * cw + q * e + j)))))
  else
    let out := OpRec.of o.rcd
    let lo := match mget? c.teams o.who.tid with
      | some t => t.scrLo
      | none => 0
    return (rows.flatMap fun i => (List.range 128).map fun n =>
      (lo + out.row i + n * tagBytes dt, toLE (tagBytes dt) (elem i n)), [])

/-- TDRN_START. -/
def execTdrnStart (core op : Nat) (s : State) : Host.Outcome State Fault Refusal :=
  runEvent (do
    let o ← matAt core op .tdrn
    let now ← clock
    enabled ((← getChip).matTurn core op now o)
    withMat core op o do
      match ← (tdrnPlan core o).run with
      | .ok (bs, rs) => modMat core op fun x => { x with startAt := some now, outBytes := bs, outRegs := rs }
      | .error (.fails st) => finishMat core op st
      | .error (.parks ..) => notReady
    settle) s

/-- TDRN_COMPLETE: the writes perform, or are suppressed on a RACE under TRAP. -/
def execTdrnComplete (core op : Nat) (s : State) : Host.Outcome State Fault Refusal :=
  runEvent (do
    let o ← matAt core op .tdrn
    enabled o.running
    let gs := (← getChip).scrRanges o.who (o.outBytes.map fun e => (e.1, e.2.length))
    let a : Access := ⟨o.who, 9, false, 0, true⟩
    if ← checkAsync a gs then finishMat core op 3
    else do
      each (distinct (gs.map Prod.snd)) fun g => markWrite a g 0
      landMat core op o
    settle) s

/-! ## TZERO and TMOV (R205) -/

/-- A move or zeroing of masked rows starts. -/
def startRows (core op : Nat) (kind : MatKind) (f : Chip → MatOp → Nat → Nat → Nat) : Act Unit := do
  let o ← matAt core op kind
  let now ← clock
  let c ← getChip
  enabled (c.matTurn core op now o)
  withMat core op o (beginMat core op ⟨[], tileRows o.tile (lanesOf o.mask) (f c o), 0⟩ (now + 8))
  settle

def completeRows (core op : Nat) (kind : MatKind) : Act Unit := do
  let o ← matAt core op kind
  enabled (o.running && o.endsAt ≤ (← clock))
  landMat core op o
  settle

/-- TZERO_START. -/
def execTzeroStart (core op : Nat) (s : State) : Host.Outcome State Fault Refusal :=
  runEvent (startRows core op .tzero fun _ _ _ _ => 0) s
/-- TZERO_COMPLETE. -/
def execTzeroComplete (core op : Nat) (s : State) : Host.Outcome State Fault Refusal :=
  runEvent (completeRows core op .tzero) s
/-- TMOV_START. -/
def execTmovStart (core op : Nat) (s : State) : Host.Outcome State Fault Refusal :=
  runEvent (startRows core op .tmov fun c o i n => c.tileVal core o.tile2 i n) s
/-- TMOV_COMPLETE. -/
def execTmovComplete (core op : Nat) (s : State) : Host.Outcome State Fault Refusal :=
  runEvent (completeRows core op .tmov) s

/-- The fault that an operation waiting to start would park on, none while it may not start. -/
def matFault (core key : Nat) : Act (Option (Nat × Addr)) := do
  let c ← getChip
  let now ← clock
  match mget? (c.core core).order key with
  | none => return none
  | some o =>
    if !c.matTurn core key now o then return none
    else match o.kind with
      | .mma =>
        match c.mmaLoad core o with
        | .ok l => probe (mmaAdapters o l.k)
        | .error _ => return none
      | .mv => probe (mvPlan core o)
      | .tdrn => probe (tdrnPlan core o)
      | _ => return none

end Sys2Proof.Machine
end

