-- ==== Sys2Proof/Machine/Events.lean ====
section
/-! DEFINITION. Events of the hardware itself: releases of held and running sides, faults of asynchronous requests, ECC errors,
aging of marks, debugger holds and stall samples (R22, R114, R120, R122, R154, R156, R276, R278). -/

namespace Sys2Proof.Machine

/-! ## Sides (R22) -/

/-- PATH_HOLD_EXEMPT. -/
def execPathHoldExempt (g p : Nat) (s : State) : Host.Outcome State Fault Refusal :=
  runEvent (do
    let now ← clock
    let x ← someOr ((← getChip).path? g p)
    let t ← someOr x.heldSince
    enabled (t + 4096 ≤ now)
    modPath g p fun x => { x with exempt := true, heldSince := none }) s

/-- SIDE_RELEASE_SWAP. -/
def execSideReleaseSwap (g p : Nat) (s : State) : Host.Outcome State Fault Refusal :=
  runEvent (do
    let now ← clock
    let x ← someOr ((← getChip).path? g p)
    enabled (x.runSince + 4096 ≤ now && !x.parked now && (takeLowest x.sides).isSome)
    modPath g p fun x => x.releaseSwap now) s

/-! ## Faults of asynchronous requests (R114) -/

/-- ASYNC_PAGE_FAULT: request 4 × (copy × 2^24 + sector), 4 × (core × 2^20 + order key) + 1 or 4 × operation + 2 parks, with a
PAGE report; 4 × place + 3 reports a write to a trace region that has parked (R286), in the name of no group. -/
def execAsyncPageFault (req : Nat) (s : State) : Host.Outcome State Fault Refusal :=
  runEvent (do
    let c ← getChip
    let n := req / 4
    match req % 4 with
    | 0 => do
      let o ← someOr (mget? c.copies (n / 2 ^ 24))
      let sector := n % 2 ^ 24
      enabled (o.inflight.contains sector && !o.failed)
      let (d, va) ← someOr (← probe (sectorPlan o sector))
      modCopy (n / 2 ^ 24) fun x => { x with inflight := x.inflight.erase sector, parked := x.parked ++ [(sector, va)] }
      reportPage o.who d va
    | 1 => do
      let core := n / 2 ^ 20
      let key := n % 2 ^ 20
      let o ← someOr (mget? (c.core core).order key)
      enabled o.parked.isNone
      let (d, va) ← someOr (← matFault core key)
      modMat core key fun x => { x with parked := some va }
      reportPage o.who d va
    | 2 => do
      let o ← someOr (mget? c.engops n)
      enabled (c.engTurn n o)
      let (d, va) ← someOr (← probe (engPlan o))
      modEng n fun x => { x with parked := some va }
      reportPage o.who d va
    | _ => do
      let w ← someOr c.regionq[n]?
      enabled !w.reported
      let r ← someOr (mget? c.runs w.run)
      modChip fun c => { c with regionq := c.regionq.zipIdx.map fun x => if x.2 = n then { x.1 with reported := true } else x.1 }
      report r.ctx ⟨1, causePage, w.kind, 0xFFFFF, 0, BitVec.ofNat 64 w.va, r.lid, r.runNo, w.team.getD 0, false, false, 0, 0⟩) s

/-! ## ECC (R120, R122) -/

/-- ECC_CORRECTED. -/
def execEccCorrected (die grp : Nat) (s : State) : Host.Outcome State Fault Refusal :=
  runEvent (do
    enabled (die < 4 && grp < 10)
    countEcc die grp true) s

/-- PATROL_SCRUB: of L2 (group 5) and HBM (group 6). -/
def execPatrolScrub (die grp : Nat) (s : State) : Host.Outcome State Fault Refusal :=
  runEvent (do
    enabled (die < 4 && (grp = 5 || grp = 6))
    countEcc die grp true) s

/-- A shard becomes CORRUPT, with its event (R320). -/
def corruptShard (ws ver shard : Nat) : Act Unit := do
  let c ← getChip
  whenSome c.wsets[ws]? fun w => do
    modChip fun c => { c with wsets := c.wsets.zipIdx.map fun x =>
      if x.2 = ws then { x.1 with versions := x.1.versions.map fun v =>
        if v.num = ver then { v with shards := v.shards.zipIdx.map fun y =>
          if y.2 = shard then { y.1 with state := .corrupt } else y.1 } else v } else x.1 }
    let part := if w.byPart then w.owner else (c.ctx w.owner).part
    hostEvent evWsCorrupt part (if w.byPart then 0xFFFF else w.owner) 0xFF (shardData w.num shard) (← eventData)

/-- The shards whose storage holds a byte: set index, version, shard index. -/
def Chip.shardsAt (c : Chip) (pa : Nat) : List (Nat × Nat × Nat) :=
  c.wsets.zipIdx.flatMap fun w => w.1.versions.flatMap fun v =>
    (v.shards.zipIdx.filter fun s => v.pa + s.1.off ≤ pa && pa < v.pa + s.1.off + s.1.size && s.1.state ≠ .corrupt &&
      s.1.state ≠ .absent).map fun s => (w.2, v.num, s.2)

/-- Granules are poisoned; a shard that holds one is CORRUPT. -/
def poisonGrans (gs : List Nat) : Act Unit := do
  modChip fun c => { c with poison := c.poison ++ gs.filter fun g => !c.poison.contains g }
  each gs fun g => do
    each ((← getChip).shardsAt (32 * g)) fun x => corruptShard x.1 x.2.1 x.2.2

/-- The team of the group in a slot. -/
def Chip.slotTeam (c : Chip) (g : Nat) : Option Nat := (c.group? g).map Group.tid

def killSome (t : Option Nat) : Act Unit := whenSome t killEcc

/-- A signal box fails: defaults for every hook, a phase in progress included (R318). -/
def failBox (cl : Nat) : Act Unit := do
  let busy := ((← getChip).cluster cl).box.phase.isSome
  modBox cl fun b => { b with failed := true, phase := none }
  if busy then commitPhase cl none else pure ()

/-- The boxes whose routines have a window in a die's mailbox run on defaults from now on (R318). -/
def failMailbox (die : Nat) : Act Unit := do
  modDie die fun d => { d with mboxFailed := true }
  each (← getChip).clusters fun k =>
    if k.2.box.routines.any fun r => r.2.mlog2 ≠ 0 && r.2.mdie = die then failBox k.1 else pure ()
  hostEvent evHealth 0xFF 0xFFFF 0xFF (← eventData) (← eventData)

/-- ECC_UNCORRECTABLE: killed, poisoned, failed or counted by structure. -/
def execEccUncorrectable (e : EccSite) (s : State) : Host.Outcome State Fault Refusal :=
  runEvent (do
    let c ← getChip
    let count := fun (die grp : Nat) => countEcc die grp false
    match e with
    | .scratch core gran => do
      killSome (c.scratchOwner core (16 * gran))
      count (coreDie core) 1
    | .group slot => do
      killSome (c.slotTeam slot)
      count (coreDie (slotCore slot)) 0
    | .tile core tile => do
      killSome (((c.coreTeams core).find? fun t => t.2.tiles.contains tile).map Prod.fst)
      count (coreDie core) 2
    | .bslot core _ => do
      killSome ((c.leases.find? fun l => l.2.cls = 0 && l.2.place = core && (l.2.state = .held || l.2.state = .notice)).map fun l => l.2.tid)
      count (coreDie core) 3
    | .l1Shared core _ => count (coreDie core) 4
    | .icache core line => do
      modCore core fun k => { k with icache := merase k.icache line }
      count (coreDie core) 4
    | .partials core line => do
      let ws := (c.core core).partials.filter fun x => x.1 / 128 = line
      modCore core fun k => { k with partials := k.partials.filter fun x => x.1 / 128 ≠ line }
      poisonGrans (distinct (ws.map fun x => x.1 / 32))
      count (coreDie core) 4
    | .granule die hbm gran => do
      poisonGrans [gran]
      count die (if hbm then 6 else 5)
    | .directory die line => do
      recallLine line
      count die 5
    | .syncRequest slot => do
      killSome (c.slotTeam slot)
      count (coreDie (slotCore slot)) 7
    | .asyncCopy id => do
      let o ← someOr (mget? c.copies id)
      enabled o.moving
      failCopy id 2
      count (coreDie o.core) 7
    | .asyncOrder core op => do
      let o ← someOr (mget? (c.core core).order op)
      enabled o.status.isNone
      failMat core fun x => x = o
      count (coreDie core) 7
    | .asyncEng id => do
      let o ← someOr (mget? c.engops id)
      enabled o.status.isNone
      cancelEng (fun x => x = o) 2
      count (coreDie o.who.core) 7
    | .mark die gran => do
      setMark gran markSummary
      count die 8
    | .scratchMark core gran => do
      modCore core fun k => { k with smarks := mput markClear k.smarks gran markSummary }
      count (coreDie core) 8
    | .mailbox die => do
      failMailbox die
      count die 9
    settle) s

/-! ## Aging of marks (R154, R156) -/

/-- A mark with its EPOCH set to AGED. -/
def agedMark (m : BitVec 64) : BitVec 64 :=
  (m &&& ~~~((0xFF : BitVec 64) <<< (20 : Nat))) ||| (BitVec.ofNat 64 epochAged <<< (20 : Nat))

/-- Whether a mark names a group as its writer. -/
def markByGroup (m : BitVec 64) : Bool :=
  markAgent m ≠ agentClear && markAgent m ≠ agentCombined && markAgent m ≠ agentSummary

/-- The marks that a test on their place and value admits age, in global memory and in every scratchpad: a scratch granule of a
core stands at 2^60 + core × 2^30 + granule. -/
def Chip.ageMarks (old : Nat → BitVec 64 → Bool) (c : Chip) : Chip :=
  let age := fun (base : Nat) (e : Nat × BitVec 64) => (e.1, if old (base + e.1) e.2 then agedMark e.2 else e.2)
  { c with
    marks := c.marks.map (age 0)
    cores := c.cores.map fun k => (k.1, { k.2 with smarks := k.2.smarks.map (age (2 ^ 60 + k.1 * 2 ^ 30)) }) }

/-- Whether a mark of a slot lies more than 2^14 behind the multiple of 2^14 that the slot's clock has crossed; one written
since, ahead of it by the order of R154, does not. -/
def Chip.slotOld (c : Chip) (g : Nat) (m : BitVec 64) : Bool :=
  let clk := BitVec.ofNat 16 (((c.slot g).clock.toNat / 2 ^ 14) * 2 ^ 14)
  markByGroup m && agentSlot (BitVec.ofNat 20 (markAgent m)) = g && clkGe clk (markClk m) && 2 ^ 14 < (clk - markClk m).toNat

/-- The old marks of a slot whose clock has crossed a multiple of 2^14 age. -/
def Chip.ageSlot (g : Nat) (c : Chip) : Chip := c.ageMarks fun _ m => c.slotOld g m

/-- SLOT_CLOCK_AGING. -/
def execSlotClockAging (g : Nat) (s : State) : Host.Outcome State Fault Refusal :=
  runEvent (do
    enabled ((← getChip).slot g).aging
    modChip (Chip.ageSlot g)) s

/-- A mark's writer: its agent, clock and epoch. -/
def markWriter (m : BitVec 64) : Nat × BitVec 16 × Nat := (markAgent m, markClk m, markEpoch m)

/-- The marks that a run's LE left to age do so where no later write has replaced them. -/
def Chip.ageEpochs (r : Run) (c : Chip) : Chip :=
  c.ageMarks fun k m => (mget? r.toAge k).any fun x => markWriter x = markWriter m

/-- EPOCH_AGING. -/
def execEpochAging (r : Nat) (s : State) : Host.Outcome State Fault Refusal :=
  runEvent (do
    let x ← someOr (mget? (← getChip).runs r)
    enabled x.leAging
    modChip (Chip.ageEpochs x)) s

/-- MARK_AGING_FINISH: the marks have aged, and what waits for it goes on. -/
def execMarkAgingFinish (epoch : Bool) (id : Nat) (s : State) : Host.Outcome State Fault Refusal :=
  runEvent (do
    if epoch then do
      let x ← someOr (mget? (← getChip).runs id)
      enabled x.leAging
      modChip (Chip.ageEpochs x)
      modRun id fun r => { r with leAging := false, toAge := [] }
    else do
      enabled ((← getChip).slot id).aging
      modChip (Chip.ageSlot id)
      modSlot id fun s => { s with aging := false }) s

/-! ## Debugger holds and stall samples (R276, R278, R279) -/

/-- PATH_HOLD_STOP. -/
def execPathHoldStop (g p : Nat) (s : State) : Host.Outcome State Fault Refusal :=
  runEvent (do
    let now ← clock
    let x ← someOr ((← getChip).path? g p)
    enabled (x.holdReq && !x.dbgHeld && x.wait.isNone && x.blocked.isNone && x.readyAt ≤ now)
    holdStop g p causeHold 0 3) s

/-- The paths of a context on an issue partition of a core. -/
def Chip.pathsOf (c : Chip) (ctx core part : Nat) : List (Nat × Nat) :=
  (partSlots core part).flatMap fun g => match c.group? g with
    | some x =>
      (match (mget? c.teams x.tid).bind fun t => mget? c.runs t.run with
        | some r => if r.ctx = ctx then x.paths.map fun e => (g, e.1) else []
        | none => [])
    | none => []

/-- REASON of a stall sample. Whether an instruction of the slot that issued at this clk, `busy`, was the path's own, and why a
path that waits for no slot does not issue, is free (assumption 6). -/
def stallReason (p : Path) (now : Nat) (busy : Bool) (free : Nat) : Nat :=
  if p.level ≠ .normal || p.dbgHeld then 7
  else if p.parked now then 5
  else if p.heldSince.isSome then 4
  else if now < p.readyAt then (if busy then [0, 2].getD (free % 2) 0 else 2)
  else if p.waitFrom.isSome then 1
  else [1, 3, 6].getD (free % 3) 0

/-- The slot class of the instruction at a path's PC; of one that cannot be fetched it is free (assumption 6). -/
def slotAt (h : Here) : Act Nat := do
  match fetchInstr h (← get) with
  | .ok (i, _) => return slotClass i
  | .error _ => return (← freeValue).toNat % 3

/-- STALL_SAMPLE: once in each period of SPER clk since the ring's registration. -/
def execStallSample (cx core part : Nat) (s : State) : Host.Outcome State Fault Refusal :=
  runEvent (do
    let c ← getChip
    let now ← clock
    let r ← someOr (c.ctx cx).sample
    let key := core * 4 + part
    enabled (r.sper ≠ 0 && part < 4 && mgetD r.done 0 key < (now - r.since) / r.sper)
    let ps := c.pathsOf cx core part
    let turn := mgetD r.turn 0 key
    modCtx cx fun x => { x with sample := x.sample.map fun r =>
      { r with done := mset r.done key ((now - r.since) / r.sper), turn := mset r.turn key (turn + 1) } }
    whenSome ps[if ps.isEmpty then 0 else turn % ps.length]? fun gp =>
      whenSome (c.here? gp.1 gp.2) fun h => do
        let f := (← freeValue).toNat
        let busy := (List.range 3).any fun k => mget? (c.core core).issued (part * 4 + k) = some now
        writeSample cx (toLE 4 (stallReason h.path now busy f * 2 ^ 4 + (← slotAt h) * 2 ^ 8 + gp.2 % 4 * 2 ^ 10) ++ toLE 4 h.agent.toNat ++
          toLE 8 h.path.pc.toNat ++ toLE 4 h.path.mask.toNat ++ toLE 4 h.run.lid.toNat ++ toLE 8 now ++ List.replicate 32 0)) s

end Sys2Proof.Machine
end

