-- ==== Sys2Proof/Machine/Turns.lean ====
section
/-! DEFINITION. The turns of the agenda: which instruction, event or command a turn runs, and what follows every turn
(R8, R242, R299; assumption 1). -/

namespace Sys2Proof.Machine

/-- Whether an instruction is a management command. -/
def isCommand (i : Instr) : Bool :=
  match i with
  | .partcfg _ => true
  | .partreset _ => true
  | .ctxbind _ => true
  | .ctxfree _ => true
  | .preempt _ => true
  | .qreg _ => true
  | .qstate _ => true
  | .traparea _ => true
  | .savepool _ => true
  | .root _ => true
  | .xlinv _ => true
  | .replay _ => true
  | .cancel _ => true
  | .barinit _ => true
  | .barinv _ => true
  | .watchreg _ => true
  | .rtnload _ => true
  | .hold _ => true
  | .resume _ => true
  | .codeinv _ => true
  | .sample _ => true
  | .vpsmap _ => true
  | .vpsreq _ => true
  | .vpsquery _ => true
  | .sensclr _ => true
  | .energy _ => true
  | .attest _ => true
  | .resync _ => true
  | .wsdef _ => true
  | .wsnew _ => true
  | .wscommit _ => true
  | .wsdrop _ => true
  | .evring _ => true
  | .unlistedCommand .. => true
  | _ => false

/-- Whether a turn may run an instruction as a hardware event: one with no encoding that is no command. -/
def isEvent (i : Instr) : Bool := i.enc.isNone && !isCommand i

/-- The Belino operation at a box's program counter (R242, R246). -/
def Chip.belinoAt (c : Chip) (cl : Nat) : Option Instr := do
  let b := (c.cluster cl).box
  let f ← b.phase
  let r ← mget? b.routines f.key
  let w ← r.words[f.pc]?
  decodeBelino w

/-- Where the header of a management ring stands: the hypervisor's is 512 (R299). -/
def Chip.ringHeader (c : Chip) (r : Nat) : Option Nat :=
  if r = 512 then c.hypRing
  else if (c.ctx r).state = .free then none
  else some (c.ctx r).ring

/-- The next command of a ring: the chip serving it, and its first 56 bytes. A ring whose SIZE is no power of two from 16 to 4096,
or that would hold more commands than its SIZE, is not served (R299). -/
def ringCommand (r : Nat) : Act Nat := do
  match (← getChip).ringHeader r with
  | none => notReady
  | some h => do
    let size ← homeNat h 4
    let tail ← homeNat (h + 4) 4
    let head ← homeNat (h + 8) 4
    let waiting := (tail + 2 ^ 32 - head) % 2 ^ 32
    if waiting = 0 || size < waiting || !((List.range 13).any fun k => 4 ≤ k && size = 2 ^ k) then notReady
    else do
      let pa := h + 64 + 64 * (head % size)
      modChip fun c => { c with cmd := some ⟨r, pa⟩ }
      homeNat pa 56

/-! ## Issue slots (R30, R31) -/

/-- A path that can issue, and the class of its instruction; `ord` where those of one clk take effect in partition order (R191,
R197). -/
structure Ready where
  g : Nat
  p : Nat
  cls : Nat
  ord : Bool
  deriving DecidableEq, Repr

/-- Whether an instruction enters the engine order or changes a tile count. -/
def inEngineOrder (i : Instr) : Bool :=
  match i with
  | .bld _ => true
  | .mma _ => true
  | .mv _ => true
  | .tdrn _ => true
  | .tzero _ => true
  | .tmov _ => true
  | .talloc _ => true
  | .tfree _ => true
  | _ => false

/-- How the chip runs an instruction. -/
abbrev Runner := Instr → State → Host.Outcome State Fault Refusal

/-- A path that is ready at this clk: the issue check passes, and its instruction, interlocks and units included, would count
as issued (R31, R35). -/
def State.readyPath (run : Runner) (s : State) (g p : Nat) : Option Ready :=
  match issuePath g p s with
  | .stay _ => none
  | .run i t =>
    match t.chip.here? t.actor.1 t.actor.2, run i t with
    | some h, .next u => if (mget? u.chip.teams h.tid).map Team.ret = some h.team.ret then none
      else some ⟨g, p, slotClass i, inEngineOrder i⟩
    | _, _ => none

/-- Every path of the chip, by slot and index. -/
def Chip.pathsAll (c : Chip) : List (Nat × Nat × Path) :=
  c.slots.flatMap fun s => match s.2.group with
    | some x => x.paths.map fun e => (s.1, e.1, e.2)
    | none => []

/-- The place of an issue slot: the core's partition and the class. -/
def Ready.slot (r : Ready) : Nat × Nat := (slotCore r.g, slotPart r.g * 4 + r.cls)

/-- Whether an issue slot is still free at this clk: one instruction of a class in each partition (R30). -/
def State.slotFree (s : State) (r : Ready) : Bool := mget? (s.chip.core r.slot.1).issued r.slot.2 ≠ some s.clk

/-- The paths that can issue at this clk. -/
def State.readyPaths (run : Runner) (s : State) : List Ready :=
  (s.chip.pathsAll.filterMap fun e => s.readyPath run e.1 e.2.1).filter s.slotFree

/-- The rank of a ready path (R31): a wait of 192 first, the longest before the others; then the group that has been resident
longest, then the lowest path index. -/
def State.rank (s : State) (r : Ready) : Nat × Nat × Nat :=
  let from_ := ((s.chip.path? r.g r.p).bind Path.waitFrom).getD s.clk
  if from_ + 192 ≤ s.clk then (0, from_, 0)
  else (1, (((s.chip.group? r.g).bind fun x => mget? s.chip.teams x.tid).elim 0 Team.since), r.p)

def rankLt (x y : Nat × Nat × Nat) : Bool :=
  x.1 < y.1 || (x.1 = y.1 && (x.2.1 < y.2.1 || (x.2.1 = y.2.1 && x.2.2 < y.2.2)))

/-- The path to which the slot of a ready path goes: the least rank; where ranks are equal, the path asked for
(assumption 81). -/
def State.slotPick (s : State) (rs : List Ready) (r : Ready) : Ready :=
  rs.foldl (fun b x => if x.slot = r.slot && rankLt (s.rank x) (s.rank b) then x else b) r

/-- The path that issues where a path asks for its slot. One whose instruction takes effect in partition order lets those of the
lower partitions of its core that win their slots at this clk go first (R191, R197). -/
def State.turnPick (s : State) (rs : List Ready) (r : Ready) : Ready :=
  let won := s.slotPick rs r
  if !won.ord then won
  else (rs.map (s.slotPick rs)).foldl (fun b x =>
    if x.ord && slotCore x.g = slotCore won.g && slotPart x.g < slotPart b.g then x else b) won

/-- The wait counts of a partition once a slot has gone to a path: those that lost it go on waiting, those that are not ready
count nothing (R31). -/
def State.countWaits (s : State) (rs : List Ready) (won : Ready) : State :=
  let wait := fun (g i : Nat) (x : Path) =>
    if g = won.g && i = won.p then none
    else match rs.find? fun r => r.g = g && r.p = i with
      | none => none
      | some r => if r.cls = won.cls then some (x.waitFrom.getD s.clk) else x.waitFrom
  let seat := fun e : Nat × Slot =>
    if slotCore e.1 = slotCore won.g && slotPart e.1 = slotPart won.g then
      (e.1, { e.2 with group := e.2.group.map fun x =>
        { x with paths := x.paths.map fun y => (y.1, { y.2 with waitFrom := wait e.1 y.1 y.2 }) } })
    else e
  let c := { s.chip with slots := s.chip.slots.map seat }
  { s with chip := c.modCore won.slot.1 fun k => { k with issued := mset k.issued won.slot.2 s.clk } }

/-- An issue slot is filled: the path to which it goes issues. -/
def State.fillSlot (s : State) (rs : List Ready) (r : Ready) : Issued :=
  let won := s.turnPick rs r
  issuePath won.g won.p (s.countWaits rs won)

/-- The next clk at which a stall or a slow result of some path ends, `n` at the latest. -/
def State.nextStop (s : State) (n : Nat) : Nat :=
  let ends := s.chip.slots.flatMap fun e => match e.2.group with
    | some x => (x.paths.map fun y => y.2.issueAt) ++ x.slow.map SlowReg.at_
    | none => []
  ends.foldl (fun m t => if s.clk < t && t < m then t else m) n

/-- Time passes to a clk: not while a path is ready, which issues first (R31, R33), and not past the end of a stall. -/
def State.passTo (run : Runner) (s : State) (n : Nat) (then_ : State → Issued) : Issued :=
  let rs := s.readyPaths run
  match rs with
  | r :: _ => s.fillSlot rs r
  | [] => if s.nextStop n < n then .stay { s with clk := s.nextStop n } else then_ { s with clk := n }

/-! ## The order of turns -/

/-- A path that takes the turn where the agenda names none and nothing can issue: one within a stall, else the first that
stands at its issue check. -/
def State.idlePath (s : State) : Option (Nat × Nat) :=
  let ps := s.chip.pathsAll.filter fun e =>
    !e.2.2.dbgHeld && e.2.2.wait.isNone && e.2.2.blocked.isNone && e.2.2.heldSince.isNone
  ((ps.find? fun e => s.clk < e.2.2.issueAt) <|> ps.head?).map fun e => (e.1, e.2.1)

/-- The turn to take: the agenda's next, else that of a path that can issue, else of one that stands at its issue check, else
time passes (assumption 1). -/
def State.turn (run : Runner) (s : State) : Turn :=
  match s.agenda with
  | t :: _ => t
  | [] =>
    match s.readyPaths run with
    | r :: _ => .path r.g r.p
    | [] =>
      match s.idlePath with
      | some (g, p) => .path g p
      | none => .tick (s.clk + 1)

/-- What a turn comes to, apart from the issue slots and the passing of time. -/
def planTurn (t : Turn) (s : State) : Issued :=
  match t with
  | .path g p => issuePath g p s
  | .box c =>
    match s.chip.belinoAt c with
    | some i => .run i { s with actor := (c, 0) }
    | none => .stay s
  | .ring r =>
    match ringCommand r s.tx with
    | .ok (w, x) => .run (decodeCommand w) (s.commit x)
    | .error _ => .stay s
  | .event i => if isEvent i then .run i s else .stay s
  | .tick _ => .stay s
  | .tlbDrop k i => .stay { s with chip := s.chip.modCore k fun x => { x with tlb := x.tlb.eraseIdx i } }
  | .lineDrop k l => .stay { s with chip := s.chip.modCore k fun x => { x with icache := merase x.icache l } }

/-- The state with the agenda moved on. -/
def State.moved (s : State) : State := { s with agenda := s.agenda.tail }

/-- The turn of a path at its clk: its instruction issues if its slot goes to it; a slot that goes to another path, or one
already used at this clk, leaves the turn standing. -/
def State.pathTurn (run : Runner) (s : State) (g p : Nat) : Issued :=
  let rs := s.readyPaths run
  match rs.find? fun r => r.g = g && r.p = p with
  | some r => if s.turnPick rs r = r then s.moved.fillSlot rs r else s.fillSlot rs r
  | none => if (s.readyPath run g p).isSome then s.passTo run (s.clk + 1) Issued.stay else issuePath g p s.moved

/-- What the next turn comes to. -/
def State.plan (run : Runner) (s : State) : Issued :=
  match s.turn run with
  | .path g p =>
    let n := (s.chip.path? g p).elim s.clk Path.issueAt
    if s.clk < n then s.passTo run n fun s => s.pathTurn run g p else s.pathTurn run g p
  | .tick n => if s.clk < n then s.passTo run n fun s => .stay s.moved else .stay s.moved
  | t => planTurn t s.moved

/-- After every turn: no command is being served, and the holds of every group stand as its paths do (R22). -/
def State.settled (s : State) : State :=
  { s with chip := { s.chip with
      cmd := none
      slots := s.chip.slots.map fun e => (e.1, { e.2 with group := e.2.group.map fun x => x.refreshHolds s.clk }) } }

end Sys2Proof.Machine
end

