-- ==== Sys2Proof/Machine/Manage.lean ====
section
/-! DEFINITION. Management commands: the ring's protocol and checks, and the commands that configure partitions, contexts,
queues and event rings (R299-R308). -/

namespace Sys2Proof.Machine

/-! ## Serving a command (R299-R303, R307) -/

/-- A command's checks and effect: a refusal carries its STATUS and RESULT. -/
abbrev Srv (α : Type) := ExceptT (Nat × Nat) Act α

def statusBadCmd : Nat := 1
def statusPerm : Nat := 2
def statusBusy : Nat := 3
def statusBadArg : Nat := 4
def statusNoSpace : Nat := 5

def refuse (status : Nat) : Srv α := throw (status, 0)

/-- Go on where a condition holds; else the command is refused with a status. -/
def need (status : Nat) (b : Bool) : Srv Unit := if b then pure () else refuse status

def valid (b : Bool) : Srv Unit := need statusBadArg b

def doAct (a : Act α) : Srv α := ExceptT.lift a

/-- The value of an option, or BADARG. -/
def orBadArg (o : Option α) : Srv α :=
  match o with
  | some a => pure a
  | none => refuse statusBadArg

/-- The word at 0x38 of a completed command. -/
def doneWord (status result : Nat) : Nat := 1 + status % 256 * 2 ^ 8 + result % 2 ^ 48 * 2 ^ 16

/-- A command completes: its word at 0x38 is written, then HEAD counts it. -/
def finishCmd (k : CmdAt) (status result : Nat) : Act Unit := do
  homeWrite (k.pa + 0x38) (toLE 8 (doneWord status result)) none
  whenSome ((← getChip).ringHeader k.ring) fun h => do
    homeWrite (h + 8) (toLE 4 ((← homeNat (h + 8) 4) + 1)) none

/-- The hypervisor's ring. -/
def hypNum : Nat := 512

/-- A served command: nothing of a refused one stands; `none` says that it has begun and is not complete. A package in
recovery serves only the commands that `recovery` marks (R314). -/
def serveAny (recovery : Bool) (body : Nat → Srv (Option Nat)) : Act Unit := do
  let c ← getChip
  let k ← someOr c.cmd
  enabled (recovery || c.stage = 0)
  let before ← get
  match ← (body k.ring).run with
  | .ok (some r) => finishCmd k 0 r
  | .ok none => pure ()
  | .error (status, r) => do
    set before
    finishCmd k status r

def serve (recovery : Bool) (body : Nat → Srv Nat) : Act Unit :=
  serveAny recovery fun ring => do return some (← body ring)

/-! ## Argument fields (R301) -/

/-- The bits of the six argument words that a command's fields take: all others are 0. -/
structure Fields where
  m08 : Nat
  m10 : Nat
  m18 : Nat
  m20 : Nat
  m28 : Nat
  m30 : Nat
  deriving DecidableEq, Repr

def full : Nat := 2 ^ 64 - 1
def Fields.none : Fields := ⟨0, 0, 0, 0, 0, 0⟩

/-- What a command concerns, for its word at 0x04: the fields of it that the command uses. -/
structure Names where
  ctx : Bool
  part : Bool
  po : Bool
  deriving DecidableEq, Repr

end Sys2Proof.Machine

namespace Sys2Proof
open Machine

/-- The fields of the word at 0x04. -/
def Cmd.ctx (c : Cmd) : Nat := bits c.head.toNat 0 9
def Cmd.part (c : Cmd) : Nat := bits c.head.toNat 16 5
def Cmd.po (c : Cmd) : Bool := c.head.getLsbD 15
/-- The words at 0x08 and 0x0C, at 0x10 and 0x14. -/
def Cmd.w08 (c : Cmd) : Nat := bits c.a08.toNat 0 32
def Cmd.w0C (c : Cmd) : Nat := bits c.a08.toNat 32 32
def Cmd.w10 (c : Cmd) : Nat := bits c.a10.toNat 0 32
def Cmd.w14 (c : Cmd) : Nat := bits c.a10.toNat 32 32

def Cmd.fits (c : Cmd) (f : Fields) : Bool :=
  c.a08.toNat &&& f.m08 = c.a08.toNat && c.a10.toNat &&& f.m10 = c.a10.toNat && c.a18.toNat &&& f.m18 = c.a18.toNat &&
    c.a20.toNat &&& f.m20 = c.a20.toNat && c.a28.toNat &&& f.m28 = c.a28.toNat && c.a30.toNat &&& f.m30 = c.a30.toNat

/-- The word at 0x04 holds 0 in every field that the command does not use; a partition is 0-19. -/
def Cmd.headOk (c : Cmd) (n : Names) : Bool :=
  bits c.head.toNat 9 6 = 0 && bits c.head.toNat 21 11 = 0 && (n.ctx || c.ctx = 0) && (n.part || c.part = 0) && (n.po || !c.po) &&
    c.part < 20

end Sys2Proof

namespace Sys2Proof.Machine

/-- The hypervisor ring alone may issue an H command; a context's ring names its own context (R300, R301). -/
def mayIssue (ring : Nat) (hOnly : Bool) (c : Cmd) : Srv Unit :=
  need statusPerm (ring = hypNum || (!hOnly && c.ctx = ring))

/-- The context that a command names, in a state that the command accepts (R307). -/
def namedContext (k : Nat) (lostOk : Bool) : Srv Context := do
  let x := (← doAct getChip).ctx k
  match x.state with
  | .free => refuse statusBadArg
  | .stopped => doAct notReady
  | .lost => if lostOk then return x else refuse statusBadArg
  | .active => return x

/-- A partition that a command names: the command waits while it is being reset (R303). -/
def namedPart (k : Nat) : Srv Partition := do
  let p := (← doAct getChip).part k
  if p.resetting then doAct notReady else return p

/-- A command on a context: its issuer, its fields and the context's state. -/
def onContext (ring : Nat) (hOnly lostOk : Bool) (c : Cmd) (f : Fields) : Srv Context := do
  mayIssue ring hOnly c
  valid (c.headOk ⟨true, false, false⟩ && c.fits f)
  namedContext c.ctx lostOk

/-- A command on a partition. -/
def onPartition (ring : Nat) (c : Cmd) (f : Fields) : Srv Partition := do
  mayIssue ring true c
  valid (c.headOk ⟨false, true, false⟩ && c.fits f)
  namedPart c.part

/-- A command that concerns neither a context nor a partition. -/
def onDevice (ring : Nat) (c : Cmd) (f : Fields) : Srv Unit := do
  mayIssue ring true c
  valid (c.headOk ⟨false, false, false⟩ && c.fits f)

/-! ## Argument addresses (R301) -/

/-- The physical pieces of a virtual range of a context; BADARG where it does not translate. -/
def virtualPieces (ctx : Nat) (write : Bool) (va n : Nat) : Srv (List (Nat × Nat)) := do
  match ← doAct (hwBind ctx write va n) with
  | .ok ps => return ps
  | .error _ => refuse statusBadArg

/-- The physical pieces of an argument address: physical on the hypervisor's ring, else virtual in the context. -/
def argPieces (ring ctx : Nat) (write : Bool) (a n : Nat) : Srv (List (Nat × Nat)) := do
  if ring = hypNum then do
    valid (a + n ≤ 2 ^ 52)
    return [(a, n)]
  else virtualPieces ctx write a n

/-- The bytes that an argument address names; BADARG where they are poisoned. -/
def argRead (ring ctx a n : Nat) : Srv (List Byte) := do
  let ps ← argPieces ring ctx false a n
  valid (!(← doAct (piecesPoisoned ps)))
  doAct (readPieces ps)

def argWrite (ring ctx a : Nat) (bs : List Byte) : Srv Unit := do
  let ps ← argPieces ring ctx true a bs.length
  doAct (writePieces ps bs none)

/-- The physical base of an argument range that must be one piece of physical memory, every page present. -/
def argBlock (ring ctx : Nat) (write : Bool) (a n : Nat) : Srv Nat := do
  if ring = hypNum then do
    valid (a + n ≤ 2 ^ 52)
    return a
  else do
    let ps ← virtualPieces ctx write a n
    let base := (ps.head?.map Prod.fst).getD 0
    valid ((ps.foldl (fun (acc : Bool × Nat) p => (acc.1 && p.1 = acc.2, acc.2 + p.2)) (true, base)).1)
    return base

/-! ## PARTCFG, PARTRESET (R305, R308) -/

/-- A partition's configuration as a record gives it. -/
def Partition.ofRecord (p : Partition) (b : List Byte) : Partition :=
  { p with clmask := BitVec.ofNat 40 (recNat b 0 5), ch0 := BitVec.ofNat 64 (recNat b 0x08 8),
           ch1 := BitVec.ofNat 64 (recNat b 0x10 8), lbound := recNat b 0x18 2, sbound := recNat b 0x1A 2,
           priocap := bits (recNat b 0x1C 4) 0 3, vpsdef := bits (recNat b 0x1C 4) 3 3, floor := bits (recNat b 0x1C 4) 6 3,
           privws := bits (recNat b 0x1C 4) 9 1 = 1, sumbase := BitVec.ofNat 64 (recNat b 0x20 8), sumfrm := recNat b 0x28 5,
           sumlen := recNat b 0x30 4, pper := recNat b 0x34 4 }

/-- The reserved bits and the ranges of a record. -/
def recordRanges (b : List Byte) : Bool :=
  recNat b 5 3 = 0 && bits (recNat b 0x1C 4) 10 22 = 0 && recNat b 0x2D 3 = 0 && recNat b 0x38 8 = 0 &&
    recNat b 0x18 2 ≠ 0 && recNat b 0x1A 2 ≠ 0 && recNat b 0x20 8 % 4096 = 0 && 1 ≤ recNat b 0x34 4 && recNat b 0x34 4 ≤ 86400

/-- The channel groups of a partition. -/
def Partition.groups (p : Partition) : List Nat :=
  (List.range 128).filter fun g => if g < 64 then p.ch0.getLsbD g else p.ch1.getLsbD (g - 64)

def Partition.hasDie (p : Partition) (d : Nat) : Bool := !(p.onDie d).isEmpty

/-- The contexts bound to a partition. -/
def Chip.boundTo (c : Chip) (part : Nat) : List (Nat × Context) :=
  c.ctxs.filter fun x => x.2.state ≠ .free && x.2.part = part

/-- The cases of BADARG of R305 that the other partitions and the bound contexts decide. -/
def Chip.configOk (c : Chip) (part : Nat) (p : Partition) : Bool :=
  (c.parts.all fun q => q.1 = part || (q.2.clmask &&& p.clmask = 0 && q.2.ch0 &&& p.ch0 = 0 && q.2.ch1 &&& p.ch1 = 0)) &&
    (p.groups.all fun g => p.hasDie (g / 32)) &&
    (c.boundTo part).all fun x =>
      (match x.2.area with
        | some a => areaBytes p.coreCount ≤ a.size
        | none => true) && (x.2.mbLog2 = 0 || p.hasDie x.2.mbDie)

/-- Ranges of units that clusters or dies outside a partition held go to the first that remains. -/
def moveRanges (stays : Nat → Bool) (first : Option Nat) (m : Map (List (Nat × Nat))) : Map (List (Nat × Nat)) :=
  match first with
  | none => m
  | some k =>
    let gone := (m.filter fun e => !stays e.1).flatMap Prod.snd
    if gone.isEmpty then m else mset (m.filter fun e => stays e.1) k (mgetD m [] k ++ gone)

/-- A head run's ranges under a partition's new clusters. -/
def Run.reranged (p : Partition) (r : Run) : Run :=
  { r with cluRanges := moveRanges (fun k => p.clusters.contains k) p.clusters.head? r.cluRanges
           dieRanges := moveRanges (fun d => p.hasDie d) (p.clusters.head?.map fun k => k / 10) r.dieRanges }

/-- A partition takes new clusters: its head runs' ranges move, and its clusters look for candidates. -/
def applyClusters (part : Nat) (p : Partition) : Act Unit := do
  modPart part fun _ => p
  modChip fun c => { c with runs := c.runs.map fun r => (r.1, if r.2.part = part && r.2.live then r.2.reranged p else r.2) }
  each p.clusters fun k => pushHook k 1 0

/-- PARTCFG. -/
def execPartcfg (c : Cmd) (s : State) : Host.Outcome State Fault Refusal :=
  runEvent (serve false fun ring => do
    let old ← onPartition ring c { Fields.none with m08 := full }
    let b ← argRead ring 0 c.a08.toNat 64
    let p := old.ofRecord b
    let chip ← doAct getChip
    valid (recordRanges b && chip.configOk c.part p)
    need statusBusy (chip.partTeams c.part).isEmpty
    doAct (applyClusters c.part p)
    doAct (modChip fun c => { c with mrLocked := true })
    return 0) s

/-- PARTRESET: the reset begins; the command completes, with its counts, once the reset has ended. -/
def execPartreset (c : Cmd) (s : State) : Host.Outcome State Fault Refusal :=
  runEvent (serveAny false fun ring => do
    mayIssue ring true c
    valid (c.headOk ⟨false, true, false⟩ && c.fits Fields.none)
    let p := (← doAct getChip).part c.part
    match p.resetCmd with
    | none => do
      if p.resetting then doAct notReady else pure ()
      doAct (modPart c.part fun p => { p with resetCmd := some (0, 0) })
      doAct (drainPartition c.part)
      return none
    | some _ => do
      doAct (finishReset c.part)
      let p := (← doAct getChip).part c.part
      if p.resetting then doAct notReady else pure ()
      let n := p.resetCmd.getD (0, 0)
      doAct (modPart c.part fun p => { p with resetCmd := none })
      return some (n.1 % 65536 + n.2 % 65536 * 65536)) s

/-! ## CTXBIND, CTXFREE, PREEMPT (R265, R302, R307) -/

/-- CTXBIND. -/
def execCtxbind (c : Cmd) (s : State) : Host.Outcome State Fault Refusal :=
  runEvent (serve false fun ring => do
    mayIssue ring true c
    valid (c.headOk ⟨true, true, false⟩ && c.fits { Fields.none with m08 := 7 + (2 ^ 21 - 1 - 12) * 2 ^ 32, m10 := full })
    let chip ← doAct getChip
    valid ((chip.ctx c.ctx).state = .free)
    let p ← namedPart c.part
    let die := bits c.w0C 0 2
    let lg := bits c.w0C 4 4
    let base := bits c.w0C 8 13
    valid (c.w08 ≤ p.priocap && p.hasDie die)
    valid (if lg = 0 then base = 0 else 3 ≤ lg && lg ≤ 13 && base % 2 ^ lg = 0 && base + 2 ^ lg ≤ 8192)
    valid (c.a10.toNat % 64 = 0 && c.a10.toNat < 2 ^ 52)
    need statusNoSpace ((chip.boundTo c.part).length < 64)
    doAct (modCtx c.ctx fun _ =>
      { Context.init with state := .active, part := c.part, prio := c.w08, mbDie := die, mbLog2 := lg, mbBase := base,
                          ring := c.a10.toNat })
    return 0) s

/-- Whether a context has a team resident or saved. -/
def Chip.hasTeams (c : Chip) (ctx : Nat) : Bool :=
  (c.teams.any fun t => match mget? c.runs t.2.run with
    | some r => r.ctx = ctx
    | none => false) || c.saved.any fun s => s.2.ctx = ctx

/-- CTXFREE: its launches that have not completed end with it. -/
def execCtxfree (c : Cmd) (s : State) : Host.Outcome State Fault Refusal :=
  runEvent (serve false fun ring => do
    let _ ← onContext ring true true c Fields.none
    let chip ← doAct getChip
    need statusBusy (!chip.hasTeams c.ctx)
    doAct (modChip fun k => ({ k with
      runs := k.runs.map fun r => (r.1, if r.2.ctx = c.ctx then { r.2 with status := .complete } else r.2)
      queues := k.queues.filter fun q => q.2.ctx ≠ c.ctx
      wsets := k.wsets.filter fun w => w.byPart || w.owner ≠ c.ctx
      cores := k.cores.map fun x => (x.1, { x.2 with tlb := x.2.tlb.filter fun t => t.ctx ≠ c.ctx }) } : Chip).modCtx c.ctx fun _ => Context.init)
    return 0) s

/-- The choice of R267 for units in turn: how many were pre-empted. -/
def preemptAll : List (Nat × Nat) → Act Nat
  | [] => return 0
  | u :: r => do
    let t ← get
    let k ← (match (preemptUnit u.1 u.2 true) t with
      | .ok (_, t') => do
        set t'
        pure 1
      | .error _ => pure 0 : Act Nat)
    return k + (← preemptAll r)

/-- PREEMPT: the resident units of a context's launches, or of one of them; one already in a save is left. -/
def execPreempt (c : Cmd) (s : State) : Host.Outcome State Fault Refusal :=
  runEvent (serve false fun ring => do
    let _ ← onContext ring true false c { Fields.none with m08 := 2 ^ 32 - 1 }
    let chip ← doAct getChip
    let us := chip.residentUnits fun _ r _ => r.ctx = c.ctx && (c.w08 = 0 || r.lid.toNat = c.w08)
    let n ← doAct (preemptAll (us.filter fun u => (chip.unitTeams u.1 u.2).all fun t => t.2.saveBy.isNone))
    return n % 65536) s

/-! ## QREG, QSTATE (R230, R302) -/

/-- The header's place, RING, SIZE and HEAD of a queue's header, within R230. -/
def queueShape (ring ctx a : Nat) : Srv (Nat × Addr × Nat × Nat) := do
  let ps ← argPieces ring ctx false a 64
  let h ← argRead ring ctx a 64
  let size := recNat h 8 4
  valid (recNat h 0 8 % 256 = 0 && (List.range 17).any fun k => 1 ≤ k && size = 2 ^ k)
  return ((ps.head?.map Prod.fst).getD 0, BitVec.ofNat 64 (recNat h 0 8), size, recNat h 0x14 4)

/-- QREG. -/
def execQreg (c : Cmd) (s : State) : Host.Outcome State Fault Refusal :=
  runEvent (serve false fun ring => do
    let x ← onContext ring false false c { Fields.none with m08 := 0x710FFF + 0xFFFF * 2 ^ 32, m10 := full }
    let q := bits c.w08 0 12
    let prio := bits c.w08 20 3
    let now ← doAct clock
    let chip ← doAct getChip
    let old := mget? chip.queues q
    valid (prio ≤ x.prio && c.a10.toNat % 64 = 0 && (old.all fun e => e.ctx = c.ctx))
    let (hdr, slots, size, head) ← queueShape ring c.ctx c.a10.toNat
    let e : Queue :=
      { ctx := c.ctx, hdr := BitVec.ofNat 64 hdr, dev := bits c.w08 16 1 = 1, prio := prio, w := c.w0C, ring := slots, size := size,
        head := (old.map Queue.head).getD head, edges := (old.map Queue.edges).getD [], state := .running, pol := 0, line := (old.map Queue.line).getD [], wdFrom := now, wdFired := false }
    doAct (modChip fun k => { k with queues := mset k.queues q e })
    doAct (setQueueState q .running)
    return 0) s

/-- QSTATE. -/
def execQstate (c : Cmd) (s : State) : Host.Outcome State Fault Refusal :=
  runEvent (serve false fun ring => do
    let _ ← onContext ring false false c { Fields.none with m08 := 0x30FFF }
    let q := bits c.w08 0 12
    let chip ← doAct getChip
    let e ← orBadArg (mget? chip.queues q)
    valid (e.ctx = c.ctx)
    match bits c.w08 16 2 with
    | 0 => do
      let (_, slots, size, _) ← queueShape hypNum c.ctx e.hdr.toNat
      doAct (modChip fun k => { k with queues := mmod k.queues q fun x => { x with ring := slots, size := size } })
      doAct (setQueueState q .running)
    | 2 => doAct (setQueueState q .stopped)
    | 3 => do
      need statusBusy (chip.runs.all fun r => r.2.queue ≠ q || r.2.ctx ≠ c.ctx || !r.2.live)
      doAct (modChip fun k => { k with queues := merase k.queues q })
    | _ => refuse statusBadArg
    return e.state.code) s

/-! ## EVRING (R304) and commands that the table does not list (R300) -/

/-- EVRING. -/
def execEvring (c : Cmd) (s : State) : Host.Outcome State Fault Refusal :=
  runEvent (serve false fun ring => do
    onDevice ring c { Fields.none with m08 := full, m10 := 1 + (2 ^ 32 - 1) * 2 ^ 32 }
    valid (c.a08.toNat < 2 ^ 52)
    doAct (modChip fun k => { k with evring := some (c.a08.toNat, bits c.w10 0 1 = 1, BitVec.ofNat 32 c.w14) })
    return 0) s

/-- UNLISTED_COMMAND: BADCMD. -/
def execUnlistedCommand (op sub : BitVec 8) (c : Cmd) (s : State) : Host.Outcome State Fault Refusal :=
  runEvent (serve false fun _ => do
    let _ := (op, sub, c)
    refuse statusBadCmd) s

end Sys2Proof.Machine
end

