-- ==== Sys2Proof/Machine/Contexts.lean ====
section
/-! DEFINITION. Management commands on one context: its trap area and save pool, translation, parked requests, barrier table,
watch sets, routines, and the debugger's holds, invalidation and sampling (R111, R114, R222, R225, R248-R250, R255, R270,
R276-R278, R287, R302). -/

namespace Sys2Proof.Machine

/-! ## TRAPAREA, SAVEPOOL (R255, R256, R270) -/

/-- TRAPAREA. -/
def execTraparea (c : Cmd) (s : State) : Host.Outcome State Fault Refusal :=
  runEvent (serve false fun ring => do
    let x ← onContext ring false false c { Fields.none with m08 := full, m10 := if ring = hypNum then full else 0, m18 := 2 ^ 32 - 1 }
    let size := c.a18.toNat * 4096
    let chip ← doAct getChip
    valid (c.a08.toNat % 4096 = 0 && areaBytes (chip.part x.part).coreCount ≤ size)
    let pa ← if ring = hypNum then pure c.a10.toNat else argBlock ring c.ctx true c.a08.toNat size
    valid (pa + size ≤ 2 ^ 52)
    doAct (modCtx c.ctx fun y => { y with area := some ⟨c.a08, pa, size⟩ })
    return 0) s

/-- SAVEPOOL. -/
def execSavepool (c : Cmd) (s : State) : Host.Outcome State Fault Refusal :=
  runEvent (serve false fun ring => do
    let _ ← onContext ring false false c { Fields.none with m08 := full, m10 := full }
    valid (c.a08.toNat % 4096 = 0 && c.a10.toNat % 4096 = 0)
    let ps ← argPieces ring c.ctx true c.a08.toNat c.a10.toNat
    doAct (modCtx c.ctx fun y => { y with pool := some ps })
    return 0) s

/-! ## ROOT, XLINV (R111, R112) -/

/-- ROOT: cached entries stay until their invalidation. -/
def execRoot (c : Cmd) (s : State) : Host.Outcome State Fault Refusal :=
  runEvent (serve false fun ring => do
    let _ ← onContext ring false false c { Fields.none with m08 := full }
    valid (c.a08.toNat % 4096 = 0 && c.a08.toNat < 2 ^ 52)
    doAct (modCtx c.ctx fun y => { y with root := some c.a08.toNat })
    return 0) s

/-- XLINV: every translation cache drops the context's entries that meet the range. -/
def execXlinv (c : Cmd) (s : State) : Host.Outcome State Fault Refusal :=
  runEvent (serve false fun ring => do
    let _ ← onContext ring false false c { Fields.none with m08 := full, m10 := full }
    let va := c.a08.toNat
    let n := c.a10.toNat
    valid (va % 4096 = 0)
    let gone := fun (t : Tlb) => t.ctx = c.ctx && (n = 0 || (t.va < va + n && va < t.va + 2 ^ t.log2))
    doAct (modChip fun k => { k with cores := k.cores.map fun x => (x.1, { x.2 with tlb := x.2.tlb.filter fun t => !gone t }) })
    return 0) s

/-! ## REPLAY, CANCEL (R114, R262) -/

/-- The page that a command names: its first address and its bytes, as the context's tables map it now; 4 KiB where they map
nothing there. -/
def namedPage (ctx va : Nat) : Act (Nat × Nat) := do
  match ← walk ctx (Use.load false) va with
  | .ok l => return (l.va, 2 ^ l.log2)
  | .error _ => return (va / 4096 * 4096, 4096)

/-- Whether a fault address lies in a page. -/
def samePage (va : Addr) (page : Nat × Nat) : Bool := page.1 ≤ va.toNat && va.toNat < page.1 + page.2

/-- A store that the supervisor must replay or cancel: held, of an exited group. -/
def MemOp.awaitsReplay (o : MemOp) (ctx : Nat) (page : Nat × Nat) : Bool :=
  o.kind = .store && o.held && o.exited && o.who.ctx = ctx && samePage o.faultVa page

/-- The parked sectors of a copy on a page. -/
def CopyOp.parkedOn (o : CopyOp) (ctx : Nat) (page : Nat × Nat) : List (Nat × Addr) :=
  if o.who.ctx = ctx then o.parked.filter fun x => samePage x.2 page else []

def MatOp.parkedOn (o : MatOp) (ctx : Nat) (page : Nat × Nat) : Bool :=
  o.who.ctx = ctx && (match o.parked with
    | some va => samePage va page
    | none => false)

def EngOp.parkedOn (o : EngOp) (ctx : Nat) (page : Nat × Nat) : Bool :=
  o.who.ctx = ctx && (match o.parked with
    | some va => samePage va page
    | none => false)

/-- Whether a write to a trace region of a context waits for a page (R286). -/
def Chip.regionOn (c : Chip) (w : RegionWrite) (ctx : Nat) (page : Nat × Nat) : Bool :=
  ((mget? c.runs w.run).any fun r => r.ctx = ctx) && samePage (BitVec.ofNat 64 w.va) page

/-- Requests and held stores of a context that wait for a page. -/
def Chip.parkedCount (c : Chip) (ctx : Nat) (page : Nat × Nat) : Nat :=
  (c.memq.filter fun o => o.awaitsReplay ctx page).length +
    c.copies.foldl (fun n o => n + (o.2.parkedOn ctx page).length) 0 +
    c.cores.foldl (fun n k => n + (k.2.order.filter fun o => o.2.parkedOn ctx page).length) 0 +
    (c.engops.filter fun o => o.2.parkedOn ctx page).length + (c.regionq.filter fun w => c.regionOn w ctx page).length

/-- A write to a trace region issues again: it performs, or parks once more. -/
def retryRegion (w : RegionWrite) : Act Unit := do
  modChip fun c => { c with regionq := c.regionq.filter fun x => x ≠ w }
  match w.tile, w.team with
  | some t, some n => filterTile w.run n t
  | _, _ => whenSome (mget? (← getChip).runs w.run) fun r => regionWrite w.run w.team (w.va - r.trreg) w.bytes

/-- A write to a trace region that the supervisor cancels: its team's trace is ALWAYS, in its record too (R286). -/
def dropRegion (w : RegionWrite) : Act Unit := do
  modChip fun c => { c with regionq := c.regionq.filter fun x => x ≠ w }
  whenSome w.team fun n => do
    let c ← getChip
    match c.teams.find? fun t => t.2.run = w.run && t.2.num = n with
    | some t => modTeam t.1 fun y => { y with trace := { y.trace with always := true, runs := [] } }
    | none => do
      modChip fun c => { c with saved := c.saved.map fun s =>
        (s.1, if s.2.team.run = w.run && s.2.team.num = n then
          { s.2 with team := { s.2.team with trace := { s.2.team.trace with always := true, runs := [] } } } else s.2) }
      if w.tile.isSome then
        whenSome (mget? c.runs w.run) fun r => do
          whenSome (← readTeamRec r n.toNat) fun x =>
            regionWrite w.run (some n) (r.teamRecAt n.toNat - r.trreg) (toLE 4 (x.word ||| 64))
      else pure ()

/-- Every parked request on a page issues again; held stores walk again. -/
def replayPage (ctx : Nat) (page : Nat × Nat) : Act Unit := do
  modChip fun c => { c with
    memq := c.memq.map fun o => if o.awaitsReplay ctx page then { o with held := false, reported := false } else o
    copies := c.copies.map fun o =>
      let back := o.2.parkedOn ctx page
      (o.1, { o.2 with inflight := o.2.inflight ++ back.map Prod.fst, parked := o.2.parked.filter fun x => !back.contains x })
    cores := c.cores.map fun k => (k.1, { k.2 with order := k.2.order.map fun o =>
      (o.1, if o.2.parkedOn ctx page then { o.2 with parked := none } else o.2) })
    engops := c.engops.map fun o => (o.1, if o.2.parkedOn ctx page then { o.2 with parked := none } else o.2) }
  let c ← getChip
  each (c.regionq.filter fun w => c.regionOn w ctx page) retryRegion

/-- Every parked request on a page ends its operation with PAGE; held stores never perform. -/
def cancelPage (ctx : Nat) (page : Nat × Nat) : Act Unit := do
  let c ← getChip
  modChip fun c => { c with memq := c.memq.filter fun o => !o.awaitsReplay ctx page }
  each (c.copies.filter fun o => !(o.2.parkedOn ctx page).isEmpty) fun o => failCopy o.1 4
  each c.cores fun k => cancelMat k.1 (fun o => o.parkedOn ctx page) 4
  each (c.engops.filter fun o => o.2.parkedOn ctx page) fun o => finishEng o.1 4
  each (c.regionq.filter fun w => c.regionOn w ctx page) dropRegion
  settle

/-- REPLAY. -/
def execReplay (c : Cmd) (s : State) : Host.Outcome State Fault Refusal :=
  runEvent (serve false fun ring => do
    let _ ← onContext ring false false c { Fields.none with m08 := full }
    let page ← doAct (namedPage c.ctx c.a08.toNat)
    let n := (← doAct getChip).parkedCount c.ctx page
    doAct (replayPage c.ctx page)
    return n % 65536) s

/-- CANCEL. -/
def execCancel (c : Cmd) (s : State) : Host.Outcome State Fault Refusal :=
  runEvent (serve false fun ring => do
    let _ ← onContext ring false false c { Fields.none with m08 := full }
    let page ← doAct (namedPage c.ctx c.a08.toNat)
    let n := (← doAct getChip).parkedCount c.ctx page
    doAct (cancelPage c.ctx page)
    return n % 65536) s

/-! ## BARINIT, BARINV (R222, R225) -/

/-- BARINIT: the entry is written and re-initialised. -/
def execBarinit (c : Cmd) (s : State) : Host.Outcome State Fault Refusal :=
  runEvent (serve false fun ring => do
    let _ ← onContext ring false false c { Fields.none with m08 := 0x3FF + 15 * 2 ^ 32 }
    valid (c.w08 ≠ 0)
    doAct (modCtx c.ctx fun y => { y with bars := mset y.bars c.w08 (BitVec.ofNat 32 c.w0C) })
    doAct (reinitBar c.ctx c.w08)
    return 0) s

/-- BARINV: waiting groups trap, and VALID clears. -/
def execBarinv (c : Cmd) (s : State) : Host.Outcome State Fault Refusal :=
  runEvent (serve false fun ring => do
    let _ ← onContext ring false false c { Fields.none with m08 := 0x3FF }
    valid (c.w08 ≠ 0)
    doAct (modCtx c.ctx fun y => { y with bars := mmod y.bars c.w08 fun e => e &&& ~~~(1 : Word) })
    doAct (invalidateBar c.ctx c.w08)
    return 0) s

/-! ## WATCHREG (R287) -/

/-- WATCHREG: a registration makes the set FREE; a handle it had is stale. -/
def execWatchreg (c : Cmd) (s : State) : Host.Outcome State Fault Refusal :=
  runEvent (serve false fun ring => do
    let _ ← onContext ring false false c { Fields.none with m08 := 7, m10 := full, m18 := 2 ^ 40 - 1, m20 := 2 ^ 32 - 1 }
    let n := c.a20.toNat
    valid (c.a10.toNat % 64 = 0 && c.a10.toNat + n / 8 ≤ 2 ^ 52 && n % 512 = 0 && 512 ≤ n && n ≤ 2 ^ 31)
    doAct (setWatch c.ctx c.w08
      { bmap := c.a10.toNat, tbase := c.a18.toNat, tlen := n, state := .free, serial := 0, at_ := 0, run := 0, stale := false })
    return 0) s

/-! ## RTNLOAD (R248-R250) -/

/-- A routine image: the header's fields and the words. -/
structure Image where
  len : Nat
  hook : Nat
  phaseT : Bool
  base : Nat
  mlog2 : Nat
  die : Nat
  ctx : Nat
  clean : Bool
  words : List Nat
  deriving DecidableEq, Repr

def Image.of (b : List Byte) : Image :=
  let w0 := recNat b 0 4
  let w2 := recNat b 8 4
  { len := bits w0 0 9, hook := bits w0 9 3, phaseT := bits w0 12 1 = 1, base := recNat b 4 4, mlog2 := bits w2 0 4,
    die := bits w2 4 2, ctx := recNat b 12 4, clean := bits w0 13 19 = 0 && bits w2 6 26 = 0,
    words := (List.range (bits w0 0 9)).map fun k => recNat b (16 + 4 * k) 4 }

/-- Fields of a Belino word (R246). -/
def wordOp (w : Nat) : Nat := w % 256
def wordImm (w : Nat) : Nat := w / 2 ^ 16 % 2 ^ 16

/-- A word that BADOP lets through: the register of a DEC is judged later. -/
def wordOk (w : Nat) : Bool := (decodeBelino w).isSome || (wordOp w = 19 && bits w 8 4 = 0)

/-- The loop bodies of a routine: first and last word, none where one would begin before word 0. -/
def loopBodies (ws : List Nat) : List (Option (Nat × Nat)) :=
  (ws.zipIdx.filter fun w => wordOp w.1 = 17).map fun w =>
    let t := wordImm w.1 / 256
    if t ≤ w.2 then some (w.2 - t, w.2) else none

def bodyHas (b : Nat × Nat) (p : Nat) : Bool := b.1 ≤ p && p ≤ b.2

/-- BADFLOW's conditions. -/
def flowOk (ws : List Nat) : Bool :=
  let all := loopBodies ws
  let bs := all.filterMap id
  let brfs := (ws.zipIdx.filter fun w => wordOp w.1 = 18).map fun w => (w.2, w.2 + 1 + wordImm w.1)
  all.all Option.isSome &&
    (bs.all fun x => bs.all fun y => !(x.2 < y.2) || x.2 < y.1 || y.1 ≤ x.1) &&
    (bs.all fun x => (bs.filter fun y => y.1 ≤ x.1 && x.2 ≤ y.2).length ≤ 2) &&
    brfs.all fun b => b.2 < ws.length && bs.all fun y => !bodyHas y b.2 || bodyHas y b.1

def reachOk (i : Image) : Bool :=
  i.words.all fun w =>
    (wordOp w ≠ 14 || wordImm w < 272) && (!(wordOp w = 15 || wordOp w = 16) || wordImm w < 2 ^ 15 || i.mlog2 ≠ 0)

/-- The decision registers of a hook and phase (R242, R244). -/
def decisionRegs (hook : Nat) (phaseT : Bool) : List Nat :=
  let h := if phaseT then [] else [4]
  match hook with
  | 0 => [1, 2]
  | 1 => [0, 2]
  | 2 => [1, 2] ++ h
  | 3 => [0]
  | 4 => [1] ++ h
  | _ => if phaseT then [] else [3]

def decOk (i : Image) : Bool := i.words.all fun w => wordOp w ≠ 19 || (decisionRegs i.hook i.phaseT).contains (wordImm w)

/-- The window of an image lies in what R249 allows. -/
def windowOk (x : Context) (i : Image) : Bool :=
  i.mlog2 = 0 || (3 ≤ i.mlog2 && i.mlog2 ≤ 9 &&
    (if i.phaseT then x.mbLog2 ≠ 0 && x.mbBase ≤ i.base && i.base + 2 ^ i.mlog2 ≤ x.mbBase + 2 ^ x.mbLog2
     else i.base + 2 ^ i.mlog2 ≤ 8192))

/-- The status of R250's first failing check, 0 for none. An image of another length than its header gives is not well
formed. -/
def imageStatus (x : Context) (bytes : Nat) (i : Image) : Nat :=
  if !(i.clean && i.hook ≤ 5 && (if i.phaseT then i.ctx < 512 && i.die = 0 else i.ctx = 0) && 1 ≤ i.len && i.len ≤ 256 &&
      bytes = 16 + 4 * i.len && i.words.all wordOk) then 1
  else if !flowOk i.words then 2
  else if !reachOk i then 3
  else if !decOk i then 4
  else if i.words.getLast? ≠ some 20 then 5
  else if !windowOk x i then 6
  else 0

/-- A routine as a box holds it from its load on. -/
def Image.routine (x : Context) (i : Image) : Routine :=
  { words := i.words, mbase := i.base, mlog2 := i.mlog2, mdie := if i.phaseT then x.mbDie else i.die, scratch := [],
    fallback := false, overruns := 0 }

/-- The boxes that a routine is loaded onto: a context's routine on those of its partition, a phase-H routine, which concerns
no partition, on all. -/
def Chip.loadTargets (c : Chip) (x : Context) (phaseT : Bool) : List Nat :=
  if phaseT then (c.part x.part).clusters else List.range 40

/-- RTNLOAD: it waits while a box runs a phase of the routine that it replaces. -/
def execRtnload (c : Cmd) (s : State) : Host.Outcome State Fault Refusal :=
  runEvent (serve false fun ring => do
    mayIssue ring false c
    valid (c.headOk ⟨true, false, false⟩ && c.fits { Fields.none with m08 := full, m10 := 2 ^ 32 - 1 })
    let b ← argRead ring c.ctx c.a08.toNat c.w10
    let i := Image.of b
    need statusPerm (ring = hypNum || (i.phaseT && i.ctx = c.ctx))
    let x ← if i.phaseT then namedContext c.ctx false else pure Context.init
    valid (if i.phaseT then i.ctx = c.ctx else c.ctx = 0)
    let st := imageStatus x c.w10 i
    if st ≠ 0 then throw (statusBadArg, st) else pure ()
    let chip ← doAct getChip
    let key := routineKey i.hook (if i.phaseT then some i.ctx else none)
    let boxes := chip.loadTargets x i.phaseT
    doAct (enabled (boxes.all fun k => ((chip.cluster k).box.phase.map Phase.key) ≠ some key))
    doAct (each boxes fun k => modBox k fun b => { b with routines := mset b.routines key (i.routine x) })
    return 0) s

/-! ## HOLD, RESUME (R276) -/

/-- The paths that a HOLD or RESUME names: of a resident group of the context, by agent identity. -/
def debugPaths (c : Cmd) : Srv (Nat × List (Nat × Path)) := do
  let chip ← doAct getChip
  let a : BitVec 20 := BitVec.ofNat 20 (bits c.w08 0 20)
  let g := agentSlot a
  let x ← orBadArg (chip.group? g)
  let r ← orBadArg ((mget? chip.teams x.tid).bind fun t => mget? chip.runs t.run)
  valid (chip.agent g = a && r.ctx = c.ctx)
  if bits c.w08 24 1 = 1 then return (g, x.paths)
  else do
    let p := bits c.w08 20 2
    let y ← orBadArg (mget? x.paths p)
    return (g, [(p, y)])

def debugFields : Fields := { Fields.none with m08 := 0x13FFFFF }

/-- HOLD: each path stops at its next issue boundary. -/
def execHold (c : Cmd) (s : State) : Host.Outcome State Fault Refusal :=
  runEvent (serve false fun ring => do
    let _ ← onContext ring false false c debugFields
    let (g, ps) ← debugPaths c
    doAct (each ps fun p => modPath g p.1 fun x => if x.dbgHeld then x else { x with holdReq := true })
    return 0) s

/-- A held path returns from the frame of its hold as TRET would; one held at supervisor level has no frame of its own and
goes on. -/
def resumePath (g p : Nat) : Act Unit := do
  whenSome ((← getChip).path? g p) fun x =>
    if x.level = .supervisor || x.supFrame.isNone then modPath g p fun x => { x with dbgHeld := false }
    else do
      modPath g p fun x => { x with level := .supervisor, ustack := x.hstack, hstack := [] }
      let h ← someOr ((← getChip).here? g p)
      match ← attempt (handlerReturn h) with
      | .ok _ => pure ()
      | .error t => takeTrap g p t 8 none none [] false

/-- RESUME. -/
def execResume (c : Cmd) (s : State) : Host.Outcome State Fault Refusal :=
  runEvent (serve false fun ring => do
    let _ ← onContext ring false false c debugFields
    let (g, ps) ← debugPaths c
    let held := ps.filter fun p => p.2.dbgHeld
    valid (!held.isEmpty)
    doAct (each held fun p => resumePath g p.1)
    return 0) s

/-! ## CODEINV, SAMPLE (R277, R278) -/

/-- CODEINV: the lines of a virtual range leave the instruction caches of the partition's cores. -/
def execCodeinv (c : Cmd) (s : State) : Host.Outcome State Fault Refusal :=
  runEvent (serve false fun ring => do
    let x ← onContext ring false false c { Fields.none with m08 := full, m10 := 2 ^ 32 - 1 }
    valid (c.w10 ≤ 2 ^ 20)
    let ps ← virtualPieces c.ctx false c.a08.toNat c.w10
    let lines := ps.flatMap fun p => linesOf p.1 p.2
    let part := (← doAct getChip).part x.part
    doAct (modChip fun k => { k with cores := k.cores.map fun y =>
      (y.1, if part.clusters.contains (coreCluster y.1) then
        { y.2 with icache := y.2.icache.filter fun e => !lines.contains e.1 } else y.2) })
    return 0) s

/-- SAMPLE: sampling starts with its intervals at their beginning, or stops. -/
def execSample (c : Cmd) (s : State) : Host.Outcome State Fault Refusal :=
  runEvent (serve false fun ring => do
    let _ ← onContext ring false false c { Fields.none with m08 := full, m10 := full }
    let now ← doAct clock
    if c.a08 = 0 then doAct (modCtx c.ctx fun y => { y with sample := none })
    else do
      valid (256 ≤ c.w10 && c.w10 ≤ 2 ^ 24 && 1 ≤ c.w14 && c.w14 ≤ 2 ^ 16)
      let hd ← argRead ring c.ctx c.a08.toNat 64
      let ps ← argPieces ring c.ctx true c.a08.toNat (64 + 64 * recNat hd 0 4)
      doAct (modChip fun k => ({ k with cores := k.cores.map fun y =>
        (y.1, { y.2 with memCount := merase y.2.memCount c.ctx }) } : Chip).modCtx c.ctx fun y =>
          { y with sample := some ⟨ps, c.w10, c.w14, now, [], []⟩ })
    return 0) s

end Sys2Proof.Machine
end

