-- ==== Sys2Proof/Machine/Weights.lean ====
section
/-! DEFINITION. Weight sets: definition, versions, shards, their digests and patrol (R319-R322). -/

namespace Sys2Proof.Machine

/-! ## Sets and versions -/

/-- A weight-set command's owner: whether a partition, its number, and the partition concerned (R301). -/
def onSet (ring : Nat) (c : Cmd) (f : Fields) : Srv (Bool × Nat × Nat) := do
  need statusPerm (ring = hypNum || (c.ctx = ring && !c.po))
  valid (c.headOk ⟨!c.po, c.po, true⟩ && c.fits f)
  if c.po then do
    let _ ← namedPart c.part
    return (true, c.part, c.part)
  else do
    let x ← namedContext c.ctx false
    return (false, c.ctx, x.part)

/-- The place and record of a set. -/
def Chip.setAt (c : Chip) (byPart : Bool) (owner num : Nat) : Option (Nat × WSet) :=
  (c.wsets.zipIdx.find? fun w => w.1.byPart = byPart && w.1.owner = owner && w.1.num = num).map fun w => (w.2, w.1)

def modSet (i : Nat) (f : WSet → WSet) : Act Unit :=
  modChip fun c => { c with wsets := c.wsets.zipIdx.map fun w => if w.2 = i then f w.1 else w.1 }

def modVersion (i num : Nat) (f : WVer → WVer) : Act Unit :=
  modSet i fun w => { w with versions := w.versions.map fun v => if v.num = num then f v else v }

def modShard (i num k : Nat) (f : Shard → Shard) : Act Unit :=
  modVersion i num fun v => { v with shards := v.shards.zipIdx.map fun s => if s.2 = k then f s.1 else s.1 }

/-- The partition in whose channel groups a set's versions stand. -/
def Chip.setPart (c : Chip) (w : WSet) : Nat := if w.byPart then w.owner else (c.ctx w.owner).part

/-- Whether a launch that has not completed binds a version. -/
def Chip.versionBound (c : Chip) (w : WSet) (num : Nat) : Bool :=
  c.runs.any fun r => r.2.live && (match c.boundVersion r.2 with
    | some (x, v) => x.byPart = w.byPart && x.owner = w.owner && x.num = w.num && v.num = num
    | none => false)

/-- The version that a command's 16 bits name. -/
def WSet.version (w : WSet) (n : Nat) : Option WVer := w.versions.find? fun v => v.num % 65536 = n

/-- Free channel-group memory of a partition for weight sets, in 2 MiB units: 3 GiB to a group. -/
def Chip.weightRoom (c : Chip) (part : Nat) : Nat :=
  1536 * (c.part part).groups.length -
    c.wsets.foldl (fun n w => if c.setPart w = part then w.versions.foldl (fun n v => n + v.resident) n else n) 0

/-! ## WSDEF, WSNEW -/

/-- WSDEF: a set with versions keeps its definition and gives BUSY. -/
def execWsdef (c : Cmd) (s : State) : Host.Outcome State Fault Refusal :=
  runEvent (serve false fun ring => do
    let (byPart, owner, _) ← onSet ring c { Fields.none with m08 := 0xFF, m10 := full, m18 := 2 ^ 32 - 1 }
    let n := c.a18.toNat
    valid (c.w08 ≠ 0 && c.a10.toNat % 2 ^ 21 = 0 && 1 ≤ n && n ≤ 524288 && c.a10.toNat + n * 2 ^ 21 ≤ 2 ^ 56)
    match (← doAct getChip).setAt byPart owner c.w08 with
    | some (i, w) => do
      need statusBusy w.versions.isEmpty
      doAct (modSet i fun x => { x with base := c.a10.toNat, units := n })
    | none => doAct (modChip fun k => { k with wsets := k.wsets ++
        [{ byPart := byPart, owner := owner, num := c.w08, base := c.a10.toNat, units := n, current := none, next := 1, versions := [] }] })
    return 0) s

/-- The versions of a partition that PRIVWS may retire, least recently bound first: place of the set and version. -/
def Chip.retirable (c : Chip) (part : Nat) : List (Nat × WSet × WVer) :=
  sortBy (fun a b => a.2.2.boundAt < b.2.2.boundAt) (c.wsets.zipIdx.flatMap fun w =>
    if c.setPart w.1 = part then
      (w.1.versions.filter fun v => v.resident ≠ 0 && !c.versionBound w.1 v.num).map fun v => (w.2, w.1, v)
    else [])

/-- Versions are retired until a size fits: their shards become ABSENT, and WSNEED is raised for each (assumption 95). -/
def retireFor (part units : Nat) : List (Nat × WSet × WVer) → Act Unit
  | [] => pure ()
  | (i, w, v) :: r => do
    if units ≤ (← getChip).weightRoom part then pure ()
    else do
      modVersion i v.num fun x => { x with resident := 0, shards := x.shards.map fun y => { y with state := .absent } }
      each (List.range v.shards.length) fun k => do
        hostEvent evWsNeed part (if w.byPart then 0xFFFF else w.owner) 0xFF (shardData w.num k) (← eventData)
      retireFor part units r

/-- WSNEW: storage at a base that the manager chooses; what does not fit channel-group memory will be TIERED (R322). -/
def execWsnew (c : Cmd) (s : State) : Host.Outcome State Fault Refusal :=
  runEvent (serve false fun ring => do
    let (byPart, owner, part) ← onSet ring c { Fields.none with m08 := 0xFF + (2 ^ 32 - 1) * 2 ^ 32 }
    let (i, w) ← orBadArg ((← doAct getChip).setAt byPart owner c.w08)
    need statusNoSpace (w.versions.length < 4)
    let chip ← doAct getChip
    if (chip.part part).privws then doAct (retireFor part c.w0C (chip.retirable part)) else pure ()
    let room := (← doAct getChip).weightRoom part
    let base := (← doAct freeValue).toNat % 2 ^ 31
    let v : WVer := { num := w.next, pa := base * 2 ^ 21, units := c.w0C, resident := min c.w0C room, shards := [], boundAt := 0 }
    doAct (modSet i fun x => { x with next := x.next + 1, versions := x.versions ++ [v] })
    doAct refreshAllAges
    return base + v.num % 65536 * 2 ^ 32) s

/-! ## WSCOMMIT, WSDROP -/

/-- Whether a shard's storage lies in companion memory: past what its version holds in channel groups; for a version that
was retired, where there is no room again. Answers also the units it takes there. -/
def Chip.shardTier (c : Chip) (part : Nat) (v : WVer) (old : Option Shard) (off size : Nat) : Bool × Nat :=
  match old with
  | some s =>
    if s.state = .absent then
      if size / 2 ^ 21 ≤ c.weightRoom part then (false, size / 2 ^ 21) else (true, 0)
    else (s.tier, 0)
  | none => (decide (v.resident * 2 ^ 21 < off + size), 0)

/-- WSCOMMIT: the shard is CHECKING; with LAST the version may become CURRENT. -/
def execWscommit (c : Cmd) (s : State) : Host.Outcome State Fault Refusal :=
  runEvent (serve false fun ring => do
    let (byPart, owner, part) ← onSet ring c
      ⟨0xFFFF00FF + (2 ^ 32 - 1 - 0xFFC) * 2 ^ 32, full, full, full, full, full⟩
    let chip ← doAct getChip
    let (i, w) ← orBadArg (chip.setAt byPart owner (bits c.w08 0 8))
    let v ← orBadArg (w.version (bits c.w08 16 16))
    let last := bits c.w0C 0 1 = 1
    let current := bits c.w0C 1 1 = 1
    let n := bits c.w0C 12 20
    let off := c.a10.toNat
    let size := n * 2 ^ 21
    valid ((last || !current) && 1 ≤ n && n ≤ 512 && off % 2 ^ 21 = 0 && off + size ≤ w.bytes && off + size ≤ v.units * 2 ^ 21)
    let same := fun (x : Shard) => x.off = off && x.size = size
    valid (v.shards.all fun x => same x || x.off + x.size ≤ off || off + size ≤ x.off)
    let old := v.shards.find? same
    need statusNoSpace (old.isSome || v.shards.length < 4096)
    let (tier, more) := chip.shardTier part v old off size
    let sh : Shard :=
      { off := off, size := size, digest := c.a30 ++ c.a28 ++ c.a20 ++ c.a18, state := .checking, tier := tier, checkedAt := 0 }
    doAct (modVersion i v.num fun x => { x with
      resident := x.resident + more
      shards := if old.isSome then x.shards.map fun y => if same y then sh else y else x.shards ++ [sh] })
    doAct (modSet i fun x => { x with current := if current then some v.num else x.current })
    doAct refreshAllAges
    return 0) s

/-- WSDROP. -/
def execWsdrop (c : Cmd) (s : State) : Host.Outcome State Fault Refusal :=
  runEvent (serve false fun ring => do
    let (byPart, owner, _) ← onSet ring c { Fields.none with m08 := 0xFFFF00FF }
    let chip ← doAct getChip
    let (i, w) ← orBadArg (chip.setAt byPart owner (bits c.w08 0 8))
    let v ← orBadArg (w.version (bits c.w08 16 16))
    need statusBusy (!chip.versionBound w v.num)
    doAct (modSet i fun x => { x with
      versions := x.versions.filter fun y => y.num ≠ v.num
      current := if x.current = some v.num then none else x.current })
    return 0) s

/-! ## Digests and patrol (R320) -/

/-- A shard by the place of its set, its version and its index. -/
def Chip.shardAt (c : Chip) (i num k : Nat) : Option (WVer × Shard) := do
  let w ← c.wsets[i]?
  let v ← w.versions.find? fun v => v.num = num
  let s ← v.shards[k]?
  return (v, s)

/-- Whether a shard's storage holds the bytes of its digest. -/
def shardMatches (v : WVer) (s : Shard) : Act Bool := do
  let bs ← homeRead (v.pa + s.off) s.size
  return decide (sha256 bs = toLE 32 s.digest.toNat)

/-- The lease that a partition's weight-set manager has asked for or holds. -/
def Chip.managerLease (c : Chip) (part : Nat) : Option (Nat × Lease) := c.leases.find? fun l => l.2.ctx = managerNum part

/-- The manager asks for a DIGEST engine of its partition, at a cluster that the spec leaves open. -/
def askManager (part : Nat) : Act Unit := do
  let now ← clock
  let n ← freeValue
  let c ← getChip
  let ks := (c.part part).clusters
  enabled !ks.isEmpty
  let place := ks.getD (n.toNat % ks.length) 0
  let q ← someOr (c.freeEntry 2 place)
  let serial := mgetD c.leaseSerial 0 (queueKey 2 place) + 1
  setChip { c with
    leases := mset c.leases c.leaseNext
      { cls := 2, place := place, qidx := q, serial := serial, tid := 0, slot := 0, index := 0, lslot := 0, ctx := managerNum part
        want := 0xFF, since := now, aged := false, state := .queued, unit := 0, grantAt := 0, heldAt := 0, wakeAt := 0, revokeAt := 0
        opser := 0 }
    leaseNext := c.leaseNext + 1, leaseSerial := mset c.leaseSerial (queueKey 2 place) serial }

/-- The manager gives its engine back. -/
def endManager (uid : Nat) (l : Lease) : Act Unit := do
  modChip fun c => { c with leases := merase c.leases uid }
  if l.state = .revoked then releaseIfIdle 2 l.place l.unit uid
  else do
    dropCq l.place (.lease uid)
    freeUnit 2 l.place l.unit none false

/-- The manager's turn at a digest: whether it holds its engine, which it then gives back; without one it asks for one, at
priority 7 (R320, R175; assumption 100). -/
def managerEngine (part : Nat) : Act Bool := do
  match (← getChip).managerLease part with
  | none => do
    askManager part
    return false
  | some (uid, l) =>
    if l.state = .queued || l.state = .waking then notReady
    else do
      endManager uid l
      return l.state ≠ .revoked

/-- SHARD_DIGEST_COMPLETE. -/
def execShardDigestComplete (ws ver shard : Nat) (s : State) : Host.Outcome State Fault Refusal :=
  runEvent (do
    let now ← clock
    let (v, x) ← someOr ((← getChip).shardAt ws ver shard)
    enabled (x.state = .checking)
    let w ← someOr (← getChip).wsets[ws]?
    if !(← managerEngine ((← getChip).setPart w)) then pure ()
    else if (← getChip).poisoned (v.pa + x.off) x.size then corruptShard ws ver shard
    else if ← shardMatches v x then
      modShard ws ver shard fun y => { y with state := if y.tier then .tiered else .valid, checkedAt := now }
    else modShard ws ver shard fun y => { y with state := .corrupt, checkedAt := now }
    refreshAllAges) s

/-- WEIGHT_PATROL. -/
def execWeightPatrol (ws ver shard : Nat) (s : State) : Host.Outcome State Fault Refusal :=
  runEvent (do
    let now ← clock
    let (v, x) ← someOr ((← getChip).shardAt ws ver shard)
    enabled (x.state = .valid || x.state = .tiered)
    let w ← someOr (← getChip).wsets[ws]?
    if !(← managerEngine ((← getChip).setPart w)) then pure ()
    else do
      modShard ws ver shard fun y => { y with checkedAt := now }
      if (← getChip).poisoned (v.pa + x.off) x.size then corruptShard ws ver shard
      else if ← shardMatches v x then pure ()
      else corruptShard ws ver shard
    refreshAllAges) s

end Sys2Proof.Machine
end

