-- ==== Sys2Proof/Machine/Health.lean ====
section
/-! DEFINITION. Virtual P-states, sensors, energy, attestation, the RESYNC summary, spares, the TVL link and package reset
(R297, R298, R309-R318). -/

namespace Sys2Proof.Machine

/-! ## Virtual P-states (R309, R310) -/

/-- One entry of a map as VPSMAP reads it. -/
def VpsEntry.of (n : Nat) : VpsEntry := ⟨bits n 0 16, bits n 16 16, bits n 32 8, bits n 40 8⟩

/-- A map of R309: REL never rises, and the nominal point stands with 120 CQ and a share of 102. -/
def vpsOk (raw : List Nat) : Bool :=
  let es := raw.map VpsEntry.of
  (raw.all fun n => bits n 48 16 = 0) && (es.all fun e => 1 ≤ e.rel && 1 ≤ e.budget) &&
    ((es.zip (es.drop 1)).all fun p => p.2.rel ≤ p.1.rel) && (es.any fun e => e.rel = 1024) &&
    es.all fun e => e.rel ≠ 1024 || (e.budget = 120 && e.share = 102)

/-- VPSMAP. -/
def execVpsmap (c : Cmd) (s : State) : Host.Outcome State Fault Refusal :=
  runEvent (serve false fun ring => do
    let _ ← onPartition ring c { Fields.none with m08 := full }
    let raw := numbersOf 8 8 (← argRead ring 0 c.a08.toNat 64)
    valid (vpsOk raw)
    doAct (modPart c.part fun p => { p with vps := raw.map VpsEntry.of })
    return 0) s

/-- VPSREQ. -/
def execVpsreq (c : Cmd) (s : State) : Host.Outcome State Fault Refusal :=
  runEvent (serve false fun ring => do
    let _ ← onContext ring false false c { Fields.none with m08 := 7 }
    doAct (modCtx c.ctx fun y => { y with vpsReq := some c.w08 })
    return 0) s

/-- VPSQUERY: the REL values. -/
def execVpsquery (c : Cmd) (s : State) : Host.Outcome State Fault Refusal :=
  runEvent (serve false fun ring => do
    let x ← onContext ring false false c { Fields.none with m08 := full }
    let map := ((← doAct getChip).part x.part).vps
    argWrite ring c.ctx c.a08.toNat (map.flatMap fun e => toLE 2 e.rel)
    return 0) s

/-! ## Sensors (R311, R312) -/

/-- Sensors of a domain by kind: a cluster has thermal sensors 0-3 and current sensors 4-5, a stack (40-47) two and the base
die (48) four thermal ones. -/
def sensorKinds (domain : Nat) : List (List Nat) :=
  if domain < 40 then [[0, 1, 2, 3], [4, 5]] else if domain < 48 then [[0, 1]] else if domain = 48 then [[0, 1, 2, 3]] else []

def Chip.votedOut (c : Chip) (domain k : Nat) : Bool := c.sensors.contains (domain, k)

/-- The good sensors of a kind, given by its indices, in some domains. -/
def Chip.goodSensors (c : Chip) (ks : List Nat) (domains : List Nat) : List (Nat × Nat) :=
  domains.flatMap fun d => (ks.filter fun k => !c.votedOut d k).map fun k => (d, k)

/-- The domains that hold a sensor's neighbours: its own, and for a cluster those beside it on its die (R311). -/
def sensorDomains (domain : Nat) : List Nat :=
  domain :: (if domain < 40 then
    (if domain % 10 = 0 then [] else [domain - 1]) ++ (if domain % 10 = 9 then [] else [domain + 1]) else [])

/-- The good neighbours of a sensor. -/
def Chip.goodNeighbours (c : Chip) (domain k : Nat) : List (Nat × Nat) :=
  (((sensorKinds domain).filter fun ks => ks.contains k).flatMap fun ks => c.goodSensors ks (sensorDomains domain)).filter
    fun e => e ≠ (domain, k)

/-- Readings at a clk. -/
def readings (es : List (Nat × Nat)) (at_ : Nat) : List Int := es.map fun e => Config.sensorReading e.1 e.2 at_

/-- Twice the median of a list that is not empty: of an even number, the two in the middle together (assumption 93). -/
def twiceMedian (xs : List Int) : Int :=
  let ys := sortBy (fun a b => decide (a < b)) xs
  ys.getD ((ys.length - 1) / 2) 0 + ys.getD (ys.length / 2) 0

/-- Whether a current sensor's index, 4 or 5 of a cluster. -/
def isCurrent (domain k : Nat) : Bool := domain < 40 && 4 ≤ k

/-- Whether a reading lies further from the median of its good neighbours than R311 allows; no good neighbour, no
disagreement. -/
def Chip.disagrees (c : Chip) (domain k at_ : Nat) : Bool :=
  let es := c.goodNeighbours domain k
  let m := twiceMedian (readings es at_)
  let off := (2 * Config.sensorReading domain k at_ - m).natAbs
  !es.isEmpty && (if isCurrent domain k then 15 * m.natAbs < 100 * off else 16000 < off)

/-- Whether a domain's engines or lanes have been active for a span: a team has stood in it since then (assumption 96). -/
def Chip.activeFor (c : Chip) (domain since : Nat) : Bool :=
  c.teams.any fun t =>
    let cl := coreCluster t.2.core
    t.2.since ≤ since &&
      (if domain < 40 then cl = domain else if domain < 48 then cl / 10 = (domain - 40) / 2 else true)

/-- The tests of R311: zero variance over 1 ms while the domain is active, a reading outside its range, or 100 µs of
disagreement. -/
def Chip.voteOut (c : Chip) (domain k now : Nat) : Bool :=
  let r := Config.sensorReading domain k
  (600000 ≤ now && c.activeFor domain (now - 600000) && (List.range 600000).all fun t => r (now - t) = r now) ||
  (r now < (Config.sensorRange domain k).1 || (Config.sensorRange domain k).2 < r now) ||
  (60000 ≤ now && (List.range 60001).all fun t => c.disagrees domain k (now - t))

/-- A domain's estimate of a kind at a clk (R312): the maximum of its good sensors; with one voted out, of the good neighbours
too, with 5 °C or 10 % more; none where fewer than two of its own are good. -/
def Chip.estimate (c : Chip) (domain : Nat) (ks : List Nat) (at_ : Nat) : Option Int :=
  let own := c.goodSensors ks [domain]
  let top := fun (es : List (Nat × Nat)) => (readings es at_).foldl max ((readings es at_).headD 0)
  if own.length < 2 then none
  else if own.length = ks.length then some (top own)
  else
    let m := top (c.goodSensors ks (sensorDomains domain))
    some (if ks.any (isCurrent domain) then m + m / 10 else m + 5000)

/-- A kind of the domain has no estimate: fewer than two good sensors (R312). -/
def Chip.fewSensors (c : Chip) (domain : Nat) : Bool := (sensorKinds domain).any fun ks => (c.estimate domain ks 0).isNone

/-- Whether R312 puts a cluster on its FLOOR entry: by its own sensors, those of a stack of its die, or the base die's. -/
def Chip.onFloor (c : Chip) (cl : Nat) : Bool :=
  c.fewSensors cl || c.fewSensors (40 + cl / 10 * 2) || c.fewSensors (41 + cl / 10 * 2) || c.fewSensors 48

/-- The entry at which a cluster runs (R310, R312). -/
def Chip.vpsEntry (c : Chip) (p : Partition) (cl : Nat) : Nat :=
  let ctxs := c.teams.filterMap fun t =>
    if coreCluster t.2.core = cl then (mget? c.runs t.2.run).map fun r => c.ctx r.ctx else none
  let want := if ctxs.isEmpty then p.vpsdef else least (ctxs.map fun x => x.vpsReq.getD p.vpsdef)
  max (if c.onFloor cl then p.floor else want) (c.cluster cl).cap

/-- CLUSTER_VPS_CHANGE: the entry in use takes effect, with its budget and share. -/
def execClusterVpsChange (cl : Nat) (s : State) : Host.Outcome State Fault Refusal :=
  runEvent (do
    let c ← getChip
    let now ← clock
    let part ← someOr (c.partOf cl)
    let n := c.vpsEntry (c.part part) cl
    let e ← someOr (c.part part).vps[n]?
    modCluster cl fun k =>
      let k := { k with vps := n, budget := e.budget, share := e.share }
      { k with overSince := if k.over then some (k.overSince.getD now) else none }
    arbitrate cl) s

/-- POWER_CAP_CHANGE: under a cap the power manager may reclaim any retained MX of the cluster, which goes cold with its B slots
EMPTY; which it reclaims is free (R177; assumption 2). -/
def execPowerCapChange (cl entry : Nat) (s : State) : Host.Outcome State Fault Refusal :=
  runEvent (do
    enabled (cl < 40 && entry < 8)
    modCluster cl fun k => { k with cap := entry }
    let held := (← getChip).units.filter fun u => u.1 / 8 < 1000 && coreCluster (u.1 / 8) = cl && u.2.retained.isSome
    if entry = 0 then pure ()
    else each held fun u => do
      if (← freeValue).getLsbD 0 then whenSome u.2.retained endRetention else pure ()) s

/-- The partition of a domain in host events: a cluster's, else none. -/
def Chip.domainPart (c : Chip) (domain : Nat) : Nat := if domain < 40 then (c.partOf domain).getD 0xFF else 0xFF

/-- SENSOR_VOTE_OUT: the domain's health monitor votes out a sensor that fails a test. -/
def execSensorVoteOut (domain sensor : Nat) (s : State) : Host.Outcome State Fault Refusal :=
  runEvent (do
    let c ← getChip
    enabled (((sensorKinds domain).any fun ks => ks.contains sensor) && !c.votedOut domain sensor &&
      c.voteOut domain sensor (← clock))
    modChip fun c => { c with sensors := c.sensors ++ [(domain, sensor)] }
    if (← getChip).fewSensors domain then
      hostEvent evHealth (c.domainPart domain) 0xFFFF (if domain < 40 then domain else 0xFF) domain 0
    else pure ()) s

/-- SENSCLR. -/
def execSensclr (c : Cmd) (s : State) : Host.Outcome State Fault Refusal :=
  runEvent (serve false fun ring => do
    onDevice ring c { Fields.none with m08 := 0xFFFF }
    let d := bits c.w08 0 8
    let k := bits c.w08 8 8
    valid (d ≤ 48 && (k = 0xFF || (sensorKinds d).any fun ks => ks.contains k))
    doAct (modChip fun x => { x with sensors := x.sensors.filter fun e => !(e.1 = d && (k = 0xFF || e.2 = k)) })
    return 0) s

/-! ## ENERGY (R313) -/

/-- ENERGY: accounts are numbered by context, 512 for device overhead, 513 + partition for an idle account; how much an
account has grown since it was last read is a free value (assumption 2). -/
def execEnergy (c : Cmd) (s : State) : Host.Outcome State Fault Refusal :=
  runEvent (serve false fun ring => do
    let a := bits c.w08 0 2
    mayIssue ring (a = 1 || a = 2) c
    valid (c.headOk ⟨a = 0, a = 2, false⟩ && c.fits { Fields.none with m08 := 3, m10 := full } && a ≠ 3)
    if a = 0 then do
      let _ ← namedContext c.ctx true
      pure ()
    else if a = 2 then do
      let _ ← namedPart c.part
      pure ()
    else pure ()
    let key := if a = 0 then c.ctx else if a = 1 then 512 else 513 + c.part
    let more := (← doAct freeValue).toNat
    let count := (mgetD (← doAct getChip).energy 0 key + more) % 2 ^ 64
    doAct (modChip fun x => { x with energy := mput 0 x.energy key count })
    argWrite ring c.ctx c.a10.toNat (toLE 8 count)
    return 0) s

/-! ## ATTEST (R315) -/

def Chip.mrBytes (c : Chip) : List Byte := (List.range 8).flatMap fun k => toLE 32 (mgetD c.mr 0 k).toNat

/-- The report's bytes 0x000-0x13F. -/
def Chip.reportBody (c : Chip) (now : Nat) (nonce : List Byte) : List Byte :=
  toLE 4 0x5A484154 ++ toLE 4 (c.stage % 256) ++ toLE 16 Config.deviceId.toNat ++ toLE 8 now ++ nonce ++ c.mrBytes

/-- The context of an ATTEST or RESYNC: on the hypervisor's ring CTX 0 may stand for none. -/
def asker (ring : Nat) (c : Cmd) : Srv Unit := do
  if ring = hypNum && c.ctx = 0 then pure ()
  else do
    let _ ← namedContext c.ctx true
    pure ()

/-- ATTEST. -/
def execAttest (c : Cmd) (s : State) : Host.Outcome State Fault Refusal :=
  runEvent (serve true fun ring => do
    mayIssue ring false c
    valid (c.headOk ⟨true, false, false⟩ && c.fits ⟨full, full, full, full, full, 0⟩)
    asker ring c
    valid (c.a08.toNat % 64 = 0)
    let now ← doAct clock
    let nonce := toLE 8 c.a10.toNat ++ toLE 8 c.a18.toNat ++ toLE 8 c.a20.toNat ++ toLE 8 c.a28.toNat
    let body := (← doAct getChip).reportBody now nonce
    argWrite ring c.ctx c.a08.toNat (body ++ (List.range 384).map (Config.signature body))
    return 0) s

/-! ## RESYNC (R316): each section in the order its contents are listed, little-endian (the log entry on its layout) -/

/-- Where a partition stands: 0 idle, 1 running, 2 resetting. -/
def Chip.partState (c : Chip) (part : Nat) : Nat :=
  if (c.part part).resetting then 2 else if (c.partTeams part).isEmpty then 0 else 1

/-- Overruns of the routines of a partition's boxes. -/
def Chip.overruns (c : Chip) (part : Nat) : Nat :=
  (c.part part).clusters.foldl (fun n k => (c.cluster k).box.routines.foldl (fun n r => n + r.2.overruns) n) 0

def Chip.syncPart (c : Chip) (part : Nat) : List Byte :=
  toLE 1 (c.partState part) ++ toLE 5 (c.part part).clmask.toNat ++ toLE 2 0 ++ toLE 4 (c.partTeams part).length ++
    toLE 4 (c.overruns part)

def CtxState.code : CtxState → Nat
  | .free => 0
  | .active => 1
  | .stopped => 2
  | .lost => 3

def Chip.syncCtx (c : Chip) (k : Nat) : List Byte :=
  let x := c.ctx k
  toLE 2 (x.state.code + x.part * 2 ^ 2 + x.prio * 2 ^ 7)

/-- A queue's two bits. -/
def Chip.syncQueue (c : Chip) (shown : Nat → Bool) (q : Nat) : Nat :=
  match mget? c.queues q with
  | some e => if shown e.ctx then e.state.code + 1 else 0
  | none => 0

def Chip.syncQueues (c : Chip) (shown : Nat → Bool) : List Byte :=
  (List.range 1024).flatMap fun i => toLE 1 ((List.range 4).foldl (fun n k => n + c.syncQueue shown (4 * i + k) * 4 ^ k) 0)

/-- HELD and QUEUED leases of a cluster, by class. -/
def Chip.syncCluster (c : Chip) (cl : Nat) : List Byte :=
  ((List.range 6).flatMap fun k =>
    let ls := c.leases.filter fun l => l.2.cls = k && l.2.cluster = cl
    toLE 1 (ls.filter fun l => l.2.state = .held).length ++ toLE 1 (ls.filter fun l => l.2.state = .queued).length) ++ toLE 4 0

/-- The spare map. -/
def Chip.syncSpares (c : Chip) : List Byte :=
  ((List.range 4).flatMap fun d => (List.range 4).flatMap fun k => toLE 1 (match (c.die d).spares[k]? with
    | some core => core % 80
    | none => 0xFF)) ++
  ((List.range 8).flatMap fun s => toLE 1 (match mget? c.spareGroups s with
    | some g => g % 16
    | none => 0xFF)) ++
  toLE 5 ((List.range 40).foldl (fun n k => n + if (c.cluster k).box.failed then 2 ^ k else 0) 0) ++
  toLE 1 ((List.range 4).foldl (fun n d => n + if (c.die d).mboxFailed then 2 ^ d else 0) 0) ++ List.replicate 34 0

def Chip.syncErrors (c : Chip) : List Byte :=
  (List.range 10).flatMap fun g => (List.range 4).flatMap fun d =>
    let n := (mget? (c.die d).ecc g).getD (0, 0)
    toLE 4 n.1 ++ toLE 4 n.2

def Chip.syncSensors (c : Chip) : List Byte :=
  ((List.range 49).flatMap fun d =>
    let ks := (sensorKinds d).flatten
    toLE 1 (ks.filter fun k => !c.votedOut d k).length ++
      toLE 1 (ks.foldl (fun n k => n + if c.votedOut d k then 2 ^ k else 0) 0)) ++ List.replicate 30 0

/-- The summary's bytes 0x000-0xFDF as one ring sees them: a context's ring shows its own entries alone. -/
def Chip.summary (c : Chip) (now ring : Nat) : List Byte :=
  let showC := fun k => ring = hypNum || k = ring
  let showP := fun p => ring = hypNum || p = (c.ctx ring).part
  let blank := fun (n : Nat) (b : Bool) (x : List Byte) => if b then x else List.replicate n 0
  toLE 4 0x5A485253 ++ toLE 4 c.resyncSeq.toNat ++ toLE 8 now ++ toLE 4 (if c.link.down then 1 else 0) ++
    toLE 4 c.link.retrains ++ toLE 4 c.evDropped ++ List.replicate 36 0 ++
  c.mrBytes ++
  ((List.range 20).flatMap fun p => blank 16 (showP p) (c.syncPart p)) ++
  ((List.range 512).flatMap fun k => blank 2 (showC k) (c.syncCtx k)) ++
  c.syncQueues showC ++
  ((List.range 40).flatMap fun k => blank 16 (ring = hypNum || (c.part (c.ctx ring).part).clmask.getLsbD k) (c.syncCluster k)) ++
  c.syncSpares ++ c.syncErrors ++ c.syncSensors ++ List.replicate 224 0

/-- RESYNC. -/
def execResync (c : Cmd) (s : State) : Host.Outcome State Fault Refusal :=
  runEvent (serve true fun ring => do
    mayIssue ring false c
    valid (c.headOk ⟨true, false, false⟩ && c.fits { Fields.none with m08 := full })
    asker ring c
    valid (c.a08.toNat % 4096 = 0)
    let now ← doAct clock
    doAct (modChip fun x => { x with resyncSeq := x.resyncSeq + 1 })
    let chip ← doAct getChip
    let body := chip.summary now ring
    argWrite ring c.ctx c.a08.toNat (body ++ sha256 body)
    return chip.resyncSeq.toNat) s

/-! ## Spares (R317, R318) -/

/-- CORE_TEST_FAIL: the core's teams are killed, its partition is reset, and during the reset a spare takes its place or its
cluster leaves the partition. -/
def execCoreTestFail (core : Nat) (s : State) : Host.Outcome State Fault Refusal :=
  runEvent (do
    enabled (core < 320)
    each ((← getChip).coreTeams core) fun t => killEcc t.1
    let c ← getChip
    let cl := coreCluster core
    let die := coreDie core
    let owner := c.partOf cl
    whenSome owner fun part => if (c.part part).resetting then pure () else drainPartition part
    if (c.die die).spares.length < 4 then do
      modDie die fun d => { d with spares := d.spares ++ [core] }
      hostEvent evSpare (owner.getD 0xFF) 0xFFFF cl (← eventData) (← eventData)
    else do
      whenSome owner fun part => do
        let p := (← getChip).part part
        applyClusters part { p with clmask := p.clmask &&& ~~~(BitVec.ofNat 40 (2 ^ cl)) }
      hostEvent evHealth (owner.getD 0xFF) 0xFFFF cl cl 0
    whenSome owner finishReset
    settle) s

/-- The granules of a range that stand in a channel group's memory (R305, R318). -/
def Chip.granulesIn (c : Chip) (group base len : Nat) : List Nat :=
  (granulesOf base len).filter fun g => !c.tiered (32 * g) 32 && Config.channelOf (g / 4) % 128 = group

/-- CHANNEL_GROUP_SPARE: during a reset of the owner, the group moves to its stack's spare; those of its granules from `base` on
cannot be read and are poisoned. -/
def execChannelGroupSpare (group : Nat) (base len : Nat) (s : State) : Host.Outcome State Fault Refusal :=
  runEvent (do
    let c ← getChip
    enabled (group < 128 && (mget? c.spareGroups (group / 16)).isNone &&
      c.parts.any fun p => p.2.resetting && p.2.groups.contains group)
    modChip fun c => { c with spareGroups := mset c.spareGroups (group / 16) group }
    poisonGrans (c.granulesIn group base len)) s

/-- SIGNAL_BOX_FAIL: of a cluster's box, or of a die's mailbox. -/
def execSignalBoxFail (mailbox : Bool) (unit : Nat) (s : State) : Host.Outcome State Fault Refusal :=
  runEvent (do
    let c ← getChip
    if mailbox then do
      enabled (unit < 4 && !(c.die unit).mboxFailed)
      failMailbox unit
    else do
      enabled (unit < 40 && !(c.cluster unit).box.failed)
      failBox unit
      hostEvent evHealth (c.domainPart unit) 0xFFFF unit unit 0) s

/-! ## The TVL link (R297, R298) -/

def Link.up (l : Link) : Bool := l.retraining.isNone && !l.down

/-- 10 ms at 600 MHz. -/
def retrainBound : Nat := 6000000

/-- TVL_COMPANION_WRITE: the write performs at its home and its granules' marks become CLEAR (R160). -/
def execTvlCompanionWrite (addr : Nat) (bytes : List Byte) (s : State) : Host.Outcome State Fault Refusal :=
  runEvent (do
    enabled ((← getChip).link.up && addr + bytes.length ≤ 2 ^ 52)
    homeWrite addr bytes none
    modChip fun c => { c with
      link := { c.link with fails := 0 }
      recs := c.recs.filter fun r => !(granulesOf addr bytes.length).contains r.gran }
    each (granulesOf addr bytes.length) fun g => setMark g markClear
    settle) s

/-- TVL_COMPANION_READ: the home serves it with the line's partials combined. -/
def execTvlCompanionRead (addr len : Nat) (s : State) : Host.Outcome State Fault Refusal :=
  runEvent (do
    enabled ((← getChip).link.up && addr + len ≤ 2 ^ 52)
    recallRange addr len
    modChip fun c => { c with link := { c.link with fails := 0 } }
    settle) s

/-- TVL_FLIT_CRC_FAIL: the ninth failure in a row, of the flit and its eight replays, retrains the link. -/
def execTvlFlitCrcFail (s : State) : Host.Outcome State Fault Refusal :=
  runEvent (do
    let now ← clock
    let l := (← getChip).link
    enabled l.up
    modChip fun c => { c with link :=
      if l.fails ≥ 8 then { l with fails := 0, retraining := some now, retrains := satInc l.retrains }
      else { l with fails := l.fails + 1 } }) s

/-- TVL_RETRAIN_COMPLETE. -/
def execTvlRetrainComplete (s : State) : Host.Outcome State Fault Refusal :=
  runEvent (do
    let now ← clock
    let t ← someOr (← getChip).link.retraining
    enabled (now ≤ t + retrainBound)
    modChip fun c => { c with link := { c.link with retraining := none } }
    settle) s

/-- An outstanding load or ATOM on companion memory completes as poisoned: its path traps ECC at it and resumes where it
stands. -/
def poisonAccess (o : MemOp) (x : LaneAcc) : Act Unit := do
  let c ← getChip
  dropOp o.seq
  if c.stillThere o.who then
    whenSome (c.path? o.who.slot o.who.path) fun p => do
      let back := if p.blocked = some o.seq then o.who.pc else p.pc
      modPath o.who.slot o.who.path fun y => { y with pc := o.who.pc, blocked := none }
      takeTrap o.who.slot o.who.path ⟨causeEcc, 0, x.va, x.lane, 0, [], false, 0, 0⟩ 8 (some back) none [] false
  else pure ()

/-- TVL_LINKDOWN: a retraining that has taken 10 ms, with its LINK event (assumption 94). Loads and ATOMs on companion memory
complete as poisoned now; an asynchronous operation ends with ECC when its access would perform. -/
def execTvlLinkdown (s : State) : Host.Outcome State Fault Refusal :=
  runEvent (do
    let now ← clock
    let c ← getChip
    let t ← someOr c.link.retraining
    enabled (t + retrainBound ≤ now)
    modChip fun c => { c with link := { c.link with retraining := none, down := true } }
    each (c.memq.filter fun o => o.kind = .load || o.kind = .sload || o.kind = .atom) fun o =>
      whenSome (o.lanes.find? fun x => x.space = .memory && c.tiered x.pa o.size) fun x => poisonAccess o x
    hostEvent evLink 0xFF 0xFFFF 0xFF (← eventData) (← eventData)
    settle) s

/-! ## Package reset (R314) -/

/-- MRk extended with an image's digest. -/
def extendMr (old digest : BitVec 256) : BitVec 256 := BitVec.ofNat 256 (fromLE (sha256 (toLE 32 old.toNat ++ toLE 32 digest.toNat)))

/-- Images in their order from kind `k` on: the registers, and the stage that failed, 0 for none. -/
def measure : Nat → List FirmwareImage → Map (BitVec 256) → Map (BitVec 256) × Nat
  | _, [], mr => (mr, 0)
  | k, i :: r, mr =>
    if i.valid then measure (k + 1) r (mput 0 mr k (extendMr (mgetD mr 0 k) i.digest)) else (mr, k + 1)

/-- PACKAGE_RESET: the chip starts anew and CLOCK from 0; the four images are verified, measured and run. Where firmware
places the hypervisor's ring and the mailbox window is free (assumption 5); memory keeps its bytes. -/
def execPackageReset (images : List FirmwareImage) (s : State) : Host.Outcome State Fault Refusal :=
  if images.length ≠ 4 then .next s
  else
    let (mr, stage) := measure 0 images []
    let ring := (Config.freeWord s.free).toNat % 2 ^ 46 * 64
    let window := (Config.freeWord (s.free + 1)).toNat % 2 ^ 40 * 2 ^ 16
    .next { s with
      clk := 0
      free := s.free + 2
      chip := { Chip.reset with mr := mr, stage := stage, hypRing := some ring, mboxWin := some (window, 2 ^ 16) } }

/-- CONFIG_DECLARE: before the first PARTCFG. -/
def execConfigDeclare (mr : Nat) (value : BitVec 256) (s : State) : Host.Outcome State Fault Refusal :=
  runEvent (do
    enabled (4 ≤ mr && mr ≤ 7 && !(← getChip).mrLocked)
    modChip fun c => { c with mr := mput 0 c.mr mr value }) s

end Sys2Proof.Machine
end

