-- ==== Sys2Proof/Machine/SAlu.lean ====
section
/-! DEFINITION. SALU, base major 19 (R54), and SLI. -/

namespace Sys2Proof.Machine

/-- SALU ADD (R330). -/
def execAddSalu (f : SsF) (s : State) : Host.Outcome State Fault Refusal :=
  runZha 4 (salu2 (baseForm f.stall) f.sd.toNat f.sd.toNat (.reg f.sa.toNat) (· + ·)) s

/-- SALU SUB (R412). -/
def execSubSalu (f : SsF) (s : State) : Host.Outcome State Fault Refusal :=
  runZha 4 (salu2 (baseForm f.stall) f.sd.toNat f.sd.toNat (.reg f.sa.toNat) (· - ·)) s

/-- SALU MUL (R381). -/
def execMulSalu (f : SsF) (s : State) : Host.Outcome State Fault Refusal :=
  runZha 4 (salu2 (baseForm f.stall) f.sd.toNat f.sd.toNat (.reg f.sa.toNat) (· * ·)) s

/-- SALU AND (R331). -/
def execAndSalu (f : SsF) (s : State) : Host.Outcome State Fault Refusal :=
  runZha 4 (salu2 (baseForm f.stall) f.sd.toNat f.sd.toNat (.reg f.sa.toNat) (· &&& ·)) s

/-- SALU OR (R387). -/
def execOrSalu (f : SsF) (s : State) : Host.Outcome State Fault Refusal :=
  runZha 4 (salu2 (baseForm f.stall) f.sd.toNat f.sd.toNat (.reg f.sa.toNat) (· ||| ·)) s

/-- SALU XOR (R387). -/
def execXorSalu (f : SsF) (s : State) : Host.Outcome State Fault Refusal :=
  runZha 4 (salu2 (baseForm f.stall) f.sd.toNat f.sd.toNat (.reg f.sa.toNat) (· ^^^ ·)) s

/-- SALU SHL (R403). -/
def execShlSalu (f : SsF) (s : State) : Host.Outcome State Fault Refusal :=
  runZha 4 (salu2 (baseForm f.stall) f.sd.toNat f.sd.toNat (.reg f.sa.toNat) wordShl) s

/-- SALU SHR, logical (R403). -/
def execShrSalu (f : SsF) (s : State) : Host.Outcome State Fault Refusal :=
  runZha 4 (salu2 (baseForm f.stall) f.sd.toNat f.sd.toNat (.reg f.sa.toNat) wordShr) s

/-- SALU SRA, arithmetic (R403). -/
def execSraSalu (f : SsF) (s : State) : Host.Outcome State Fault Refusal :=
  runZha 4 (salu2 (baseForm f.stall) f.sd.toNat f.sd.toNat (.reg f.sa.toNat) wordSra) s

/-- SALU MIN, signed (R373). -/
def execMinSalu (f : SsF) (s : State) : Host.Outcome State Fault Refusal :=
  runZha 4 (salu2 (baseForm f.stall) f.sd.toNat f.sd.toNat (.reg f.sa.toNat) wordMin) s

/-- SALU MAX, signed (R373). -/
def execMaxSalu (f : SsF) (s : State) : Host.Outcome State Fault Refusal :=
  runZha 4 (salu2 (baseForm f.stall) f.sd.toNat f.sd.toNat (.reg f.sa.toNat) wordMax) s

/-- SALU MOV (R377). -/
def execMovSalu (f : SsF) (s : State) : Host.Outcome State Fault Refusal :=
  runZha 4 (salu1 (baseForm f.stall) f.sd.toNat f.sa.toNat id) s

/-- SALU NOT (R386). -/
def execNotSalu (f : SsF) (s : State) : Host.Outcome State Fault Refusal :=
  runZha 4 (salu1 (baseForm f.stall) f.sd.toNat f.sa.toNat (~~~ ·)) s

/-- SALU NEG (R385). -/
def execNegSalu (f : SsF) (s : State) : Host.Outcome State Fault Refusal :=
  runZha 4 (salu1 (baseForm f.stall) f.sd.toNat f.sa.toNat (0 - ·)) s

/-- SALU MULHI (R54, R382). -/
def execMulhiSalu (f : SsF) (s : State) : Host.Outcome State Fault Refusal :=
  runZha 4 (salu2 (baseForm f.stall) f.sd.toNat f.sd.toNat (.reg f.sa.toNat) wordMulhi) s

/-- SALU CLZ (R345). -/
def execClzSalu (f : SsF) (s : State) : Host.Outcome State Fault Refusal :=
  runZha 4 (salu1 (baseForm f.stall) f.sd.toNat f.sa.toNat wordClz) s

/-- SALU POPC (R393). -/
def execPopcSalu (f : SsF) (s : State) : Host.Outcome State Fault Refusal :=
  runZha 4 (salu1 (baseForm f.stall) f.sd.toNat f.sa.toNat wordPopc) s

/-- SLI: a sign-extended 14-bit immediate (R405). -/
def execSli (f : SiF) (s : State) : Host.Outcome State Fault Refusal :=
  runZha 4 (scalarOp (baseForm f.stall) f.sd.toNat [] fun _ => f.imm.signExtend 32) s

end Sys2Proof.Machine
end

