-- ==== Sys2Proof/Machine/XAlu.lean ====
section
/-! DEFINITION. XALU, major 48 (R58, R59): the X forms of lane arithmetic, logic, shifts and moves. -/

namespace Sys2Proof.Machine

/-- ADD, X form (R329). -/
def execAddX (f : XF) (s : State) : Host.Outcome State Fault Refusal :=
  runZha 8 (addOp false (xFrame f) f.d.toNat (xA f) (xB f) f.rm (f.sat = 1)) s

/-- SUB, X form (R412). -/
def execSubX (f : XF) (s : State) : Host.Outcome State Fault Refusal :=
  runZha 8 (addOp true (xFrame f) f.d.toNat (xA f) (xB f) f.rm (f.sat = 1)) s

/-- MUL, X form (R381). -/
def execMulX (f : XF) (s : State) : Host.Outcome State Fault Refusal :=
  runZha 8 (mulOp (xFrame f) f.d.toNat (xA f) (xB f) f.rm (f.sat = 1)) s

/-- MULHI on integer tags (R382). -/
def execMulhiX (f : XF) (s : State) : Host.Outcome State Fault Refusal :=
  runZha 8 (arithOp (xFrame f) f.d.toNat [xA f, xB f] tagIsInt arithLat fun h i t =>
      (laneMulhi t ((xA f).opnd h i) ((xB f).opnd h i), 0)) s

/-- FMA, X form (R363). -/
def execFmaX (f : XF) (s : State) : Host.Outcome State Fault Refusal :=
  runZha 8 (fmaOp (xFrame f) f.d.toNat (xA f) (xB f) (xC f) f.rm (f.sat = 1)) s

/-- MIN, X form (R373). -/
def execMinX (f : XF) (s : State) : Host.Outcome State Fault Refusal :=
  runZha 8 (minMaxOp false (xFrame f) f.d.toNat (xA f) (xB f)) s

/-- MAX, X form (R373). -/
def execMaxX (f : XF) (s : State) : Host.Outcome State Fault Refusal :=
  runZha 8 (minMaxOp true (xFrame f) f.d.toNat (xA f) (xB f)) s

/-- ABS, X form (R327). -/
def execAbsX (f : XF) (s : State) : Host.Outcome State Fault Refusal :=
  runZha 8 (absOp (xFrame f) f.d.toNat (xA f) (f.sat = 1)) s

/-- NEG, X form (R385). -/
def execNegX (f : XF) (s : State) : Host.Outcome State Fault Refusal :=
  runZha 8 (negOp (xFrame f) f.d.toNat (xA f) (f.sat = 1)) s

/-- AND, X form (R331). -/
def execAndX (f : XF) (s : State) : Host.Outcome State Fault Refusal :=
  runZha 8 (andOp (xFrame f) f.d.toNat (xA f) (xB f)) s

/-- OR, X form (R387). -/
def execOrX (f : XF) (s : State) : Host.Outcome State Fault Refusal :=
  runZha 8 (orOp (xFrame f) f.d.toNat (xA f) (xB f)) s

/-- XOR, X form (R387). -/
def execXorX (f : XF) (s : State) : Host.Outcome State Fault Refusal :=
  runZha 8 (xorOp (xFrame f) f.d.toNat (xA f) (xB f)) s

/-- NOT, X form (R386). -/
def execNotX (f : XF) (s : State) : Host.Outcome State Fault Refusal :=
  runZha 8 (notOp (xFrame f) f.d.toNat (xA f)) s

/-- SHL, X form (R402). -/
def execShlX (f : XF) (s : State) : Host.Outcome State Fault Refusal :=
  runZha 8 (shlOp (xFrame f) f.d.toNat (xA f) (xB f)) s

/-- SHR, X form (R402). -/
def execShrX (f : XF) (s : State) : Host.Outcome State Fault Refusal :=
  runZha 8 (shrOp (xFrame f) f.d.toNat (xA f) (xB f)) s

/-- SEL, X form: C names the predicate and its negation (R400). -/
def execSelX (f : XF) (s : State) : Host.Outcome State Fault Refusal :=
  runZha 8 (selOp (xFrame f) f.d.toNat (f.c.toNat % 8) (f.c.getLsbD 3) (xA f) (xB f)) s

/-- MOV, lane X form (R377). -/
def execMovX (f : XF) (s : State) : Host.Outcome State Fault Refusal :=
  runZha 8 (movOp (xFrame f) f.d.toNat (xA f)) s

/-- DOT, X form (R353). -/
def execDotX (f : XF) (s : State) : Host.Outcome State Fault Refusal :=
  runZha 8 (dotOp (xFrame f) f.d.toNat (xA f) (xB f) f.rm (f.sat = 1)) s

/-- ACS on I32, N32, I16x2 and N16x2 (R328). -/
def execAcs (f : XF) (s : State) : Host.Outcome State Fault Refusal :=
  runZha 8 (arithOp (xFrame f) f.d.toNat [xA f, xB f, xC f] (fun t => tagIsInt t && tagWidth t ≠ 8) (fun _ => 6) fun h i t =>
      (laneAcs (f.sat = 1) t ((xA f).raw h i) ((xB f).raw h i) ((xC f).raw h i), 0)) s

/-- POPC, X form (R393). -/
def execPopcX (f : XF) (s : State) : Host.Outcome State Fault Refusal :=
  runZha 8 (countOp (xFrame f) f.d.toNat (xA f) (popCount 32)) s

/-- CLZ, X form (R345). -/
def execClzX (f : XF) (s : State) : Host.Outcome State Fault Refusal :=
  runZha 8 (countOp (xFrame f) f.d.toNat (xA f) clz32) s

/-- BREV (R341). -/
def execBrev (f : XF) (s : State) : Host.Outcome State Fault Refusal :=
  runZha 8 (logicOp (xFrame f) f.d.toNat [xA f] fun h i => revBits 32 ((xA f).raw h i)) s

/-- BFE: sign-extended where Va carries I32 (R336). -/
def execBfe (f : XF) (s : State) : Host.Outcome State Fault Refusal :=
  runZha 8 (logicOp (xFrame f) f.d.toNat [xA f, xB f] fun h i =>
      laneBfe (layoutTag h i (xA f) (xB f) = tagI32) ((xA f).raw h i) ((xB f).raw h i)) s

/-- BFI (R336). -/
def execBfi (f : XF) (s : State) : Host.Outcome State Fault Refusal :=
  runZha 8 (logicOp (xFrame f) f.d.toNat [xA f, xB f, xC f] fun h i =>
      laneBfi ((xA f).raw h i) ((xB f).raw h i) ((xC f).raw h i)) s

/-- MOVI, X form: A holds HI and the result tag (R378). -/
def execMoviX (f : XF) (s : State) : Host.Outcome State Fault Refusal :=
  runZha 8 (
    let d := f.d.toNat
    let imm := ((f.c ++ f.b).signExtend 32).toNat
    let hi := f.a.getLsbD 4
    let t := f.a.extractLsb' 0 4
    laneOp (xFrame f) d (if hi then [.v d] else []) [] fun h i =>
      some (LaneOut.of t 4 (if hi then imm % 2 ^ 16 * 2 ^ 16 + (h.v d i).bits.toNat % 2 ^ 16 else imm, 0))) s

end Sys2Proof.Machine
end

