-- ==== Sys2Proof/Machine/XLane.lean ====
section
/-! DEFINITION. XLANE, major 50 (R59): exchanges and reductions over lanes, conversions, tags and transcendentals. -/

namespace Sys2Proof.Machine

/-- SHFL: a source lane must be active; the result is interlocked (R401). -/
def execShfl (f : XF) (s : State) : Host.Outcome State Fault Refusal :=
  runZha 8 (
    let a := f.a.toNat
    issue 8 f.stall.toNat ⟨[a] ++ (xB f).vs, [f.d.toNat], (xB f).ss, [], guardPs f.g, []⟩ fun h => do
      let from_ := fun i : Nat =>
        let k := (xB f).raw h i % 32
        let t : Int := if f.rm = 0 then k else if f.rm = 1 then (i : Int) - k else if f.rm = 2 then (i : Int) + k else (i ^^^ k : Nat)
        if 0 ≤ t ∧ t ≤ 31 ∧ laneBit h.mask t.toNat then t.toNat else i
      modGroup h.g fun x => (lanesOf (h.lanes f.g)).foldl (fun x i => x.landV f.d.toNat i (h.v a (from_ i))) x
      slowly h .vector [f.d.toNat]) s

/-- The tags that XRED accepts for an operation (R418). -/
def xredTag (op : Nat) (t : BitVec 4) : Bool :=
  if op ≤ 2 then arithTag t else if op ≤ 5 then true else t = tagI32 || t = tagN32 || t = tagF32

/-- XRED (R418, R419): one tag over lanes(), the tree of R92, value and for MINI and MAXI the index. -/
def execXred (f : XF) (s : State) : Host.Outcome State Fault Refusal :=
  runZha 8 (
    let a := f.a.toNat
    let d := f.d.toNat
    let op := f.c.toNat % 16
    let toS := f.cl.getLsbD 0
    let two := op = 6 || op = 7
    let dst := if two then [d, d + 1] else [d]
    issue 8 f.stall.toNat ⟨[a], if toS then [] else dst, [], if toS then dst else [], guardPs f.g, []⟩ fun h => do
      let l := h.lanes f.g
      let t := (h.v a (lowLane (if l = 0 then h.mask else l))).tag
      match (lanesOf l).find? fun i => (h.v a i).tag ≠ t with
      | some i => trap causeTag 0 0 i
      | none =>
        if !xredTag op t then trap causeTag 0 0 (lowLane l)
        else do
          let m : FpMode := ⟨f.rm, f.sat = 1, h.ftz⟩
          let leaves := (List.range 32).map fun i => if laneBit l i then some (h.v a i).bits.toNat else none
          let (v, idx, fl) := if two then xredIndex (op = 7) m t leaves
            else let r := xredValue op m t leaves; (r.1, 0, r.2)
          raiseFlags h [(lowLane l, fl)]
          slowly h (if toS then .scalar else .vector) dst
          let w := BitVec.ofNat 32 v
          if toS then do
            setS h d w
            if two then setS h (d + 1) (BitVec.ofNat 32 idx) else pure ()
          else modGroup h.g fun x => (lanesOf l).foldl (fun x i =>
            let x := x.landV d i ⟨w, t⟩
            if two then x.landV (d + 1) i ⟨BitVec.ofNat 32 idx, tagN32⟩ else x) x) s

/-- The lane that LGET or LPUT names. -/
def pickLane (h : Here) (f : XF) : Nat := if f.imm = 1 then (imm16 f.b f.c).toNat % 32 else (h.s f.b.toNat).toNat % 32
def pickSs (f : XF) : List Nat := if f.imm = 1 then [] else [f.b.toNat]

/-- LGET: any lane's register into a scalar, once for the group (R372). -/
def execLget (f : XF) (s : State) : Host.Outcome State Fault Refusal :=
  runZha 8 (issue 8 f.stall.toNat ⟨[f.a.toNat], [], pickSs f, [f.d.toNat], guardPs f.g, []⟩ fun h =>
    onceIf h f.g (do
      if (← getChip).regPending h.g (BitVec.ofNat 32 (2 ^ pickLane h f)) .vector f.a.toNat then notReady else pure ()
      setS h f.d.toNat (h.v f.a.toNat (pickLane h f)).bits
      slowly h .scalar [f.d.toNat])) s

/-- LPUT: a scalar into one lane's register with tag I32, once for the group (R372). -/
def execLput (f : XF) (s : State) : Host.Outcome State Fault Refusal :=
  runZha 8 (issue 8 f.stall.toNat ⟨[], [f.d.toNat], f.a.toNat :: pickSs f, [], guardPs f.g, []⟩ fun h =>
    onceIf h f.g (do
      modGroup h.g fun x => x.landV f.d.toNat (pickLane h f) ⟨h.s f.a.toNat, tagI32⟩
      slowly h .vector [f.d.toNat])) s

/-- PACK: every element of two registers into half-width elements (R388, R389). -/
def execPack (f : XF) (s : State) : Host.Outcome State Fault Refusal :=
  runZha 8 (
    let dt := f.c.extractLsb' 0 4
    laneOp (xFrame f) f.d.toNat [xA f, xB f] [] fun h i =>
      match commonTag h i [xA f, xB f] with
      | some t =>
        if packPairs t dt then
          some (LaneOut.of dt 5 (lanePack ⟨f.rm, f.sat = 1, h.ftz⟩ t dt ((xA f).raw h i) ((xB f).raw h i)))
        else none
      | none => none) s

/-- UNPACK: half of a register widened exactly (R388, R389). -/
def execUnpack (f : XF) (s : State) : Host.Outcome State Fault Refusal :=
  runZha 8 (
    let dt := f.c.extractLsb' 0 4
    laneOp (xFrame f) f.d.toNat [xA f] [] fun h i =>
      let t := ((xA f).tag? h i).getD tagI32
      if unpackPairs t dt then some (LaneOut.of dt 5 (laneUnpack h.ftz t dt (f.c.getLsbD 4) ((xA f).raw h i))) else none) s

/-- CVT: one element converted into one element position (R351, R352). -/
def execCvt (f : XF) (s : State) : Host.Outcome State Fault Refusal :=
  runZha 8 (
    let ctl := (f.c ++ f.b).toNat
    let dt := BitVec.ofNat 4 ctl
    let se := bits ctl 4 3
    let de := bits ctl 7 3
    let d := f.d.toNat
    laneOp (xFrame f) d ([xA f] ++ if tagCount dt > 1 then [.v d] else []) [] fun h i =>
      let st := ((xA f).tag? h i).getD tagI32
      if st = tagRAW || st = tagADDR || se ≥ tagCount st then none
      else
        let (y, fl) := convertElem st dt f.rm (f.sat = 1) h.ftz (elem (tagWidth st) se ((xA f).raw h i))
        some (LaneOut.of dt 5 (if tagCount dt = 1 then y else setElem (tagWidth dt) de (h.v d i).bits.toNat y, fl))) s

/-- RETAG: the bits with a new tag (R399). -/
def execRetag (f : XF) (s : State) : Host.Outcome State Fault Refusal :=
  runZha 8 (laneOp (xFrame f) f.d.toNat [xA f] [] fun h i =>
    some (LaneOut.of (f.b.extractLsb' 0 4) 5 ((xA f).raw h i, 0))) s

/-- A transcendental on F32 or F16x2; a scalar is taken as F32 (R349). -/
def transOp (fn : Nat) (f : XF) : Act Unit :=
  laneOp (xFrame f) f.d.toNat [xA f] [] fun h i =>
    let t := ((xA f).tag? h i).getD tagF32
    if t = tagF32 || t = tagF16 then some (LaneOut.of t 12 (laneTrans fn ⟨f.rm, false, h.ftz⟩ t ((xA f).raw h i))) else none

/-- RCP (R395). -/
def execRcp (f : XF) (s : State) : Host.Outcome State Fault Refusal := runZha 8 (transOp 0 f) s
/-- RSQ (R395). -/
def execRsq (f : XF) (s : State) : Host.Outcome State Fault Refusal := runZha 8 (transOp 1 f) s
/-- EXP2 (R359). -/
def execExp2 (f : XF) (s : State) : Host.Outcome State Fault Refusal := runZha 8 (transOp 2 f) s
/-- LOG2 (R359). -/
def execLog2 (f : XF) (s : State) : Host.Outcome State Fault Refusal := runZha 8 (transOp 3 f) s
/-- SIN (R395). -/
def execSin (f : XF) (s : State) : Host.Outcome State Fault Refusal := runZha 8 (transOp 4 f) s
/-- COS (R349). -/
def execCos (f : XF) (s : State) : Host.Outcome State Fault Refusal := runZha 8 (transOp 5 f) s

end Sys2Proof.Machine
end

