-- ==== Sys2Proof/Machine/XPred.lean ====
section
/-! DEFINITION. XPRED, major 49 (R59): comparisons, predicate logic, mask moves and votes. -/

namespace Sys2Proof.Machine

/-- CMP: the common tag is I32, N32 or F32; bits of lanes() only (R346). -/
def execCmp (f : XF) (s : State) : Host.Outcome State Fault Refusal :=
  runZha 8 (predOp (xFrame f) 4 (f.d.toNat % 8)
    ⟨(xA f).vs ++ (xB f).vs, [], (xA f).ss ++ (xB f).ss, [], [], []⟩ fun h i =>
      match commonTag h i [xA f, xB f] with
      | some t =>
        if t = tagI32 || t = tagN32 || t = tagF32 then
          some (laneCmp (f.d.toNat / 8 % 16) h.ftz t ((xA f).opnd h i) ((xB f).opnd h i))
        else none
      | none => none) s

/-- PLOP: a truth table over two predicate bits (R391). -/
def execPlop (f : XF) (s : State) : Host.Outcome State Fault Refusal :=
  runZha 8 (predOp (xFrame f) 2 (f.d.toNat % 8) ⟨[], [], [], [], [f.a.toNat % 8, f.b.toNat % 8], []⟩ fun h i =>
      let k := (if (h.pr (f.a.toNat % 8)).getLsbD i then 2 else 0) + (if (h.pr (f.b.toNat % 8)).getLsbD i then 1 else 0)
      some (f.c.getLsbD k, 0)) s

/-- PMOV: a mask between predicate and scalar registers (R392). -/
def execPmov (f : XF) (s : State) : Host.Outcome State Fault Refusal :=
  runZha 8 (
    if f.cl.getLsbD 0 then
      issue 8 f.stall.toNat ⟨[], [], [], [f.d.toNat], guardPs f.g ++ [f.a.toNat % 8], []⟩ fun h =>
        onceIf h f.g (writeS h 2 f.stall.toNat f.d.toNat (h.pr (f.a.toNat % 8)))
    else
      let fromS := f.cl.getLsbD 1
      predOp (xFrame f) 2 (f.d.toNat % 8)
        (if fromS then ⟨[], [], [f.a.toNat], [], [], []⟩ else ⟨[], [], [], [], [f.a.toNat % 8], []⟩) fun h i =>
          some ((if fromS then h.s f.a.toNat else h.pr (f.a.toNat % 8)).getLsbD i, 0)) s

/-- The value of a vote over a set of lanes (R417). -/
def voteValue (h : Here) (mode a : Nat) (l : BitVec 32) : Word :=
  let p := h.pr (a % 8) &&& l
  let flag := fun b : Bool => if b then (1 : Word) else 0
  match mode with
  | 0 => flag (p ≠ 0)
  | 1 => flag (p = l)
  | 2 => flag (p = 0)
  | 3 => p
  | _ => flag ((lanesOf l).all fun i => (h.v a i).bits = (h.v a (lowLane l)).bits)

/-- VOTE: Sd is written whenever it issues, the empty set of lanes included; Pd in lanes() (R56, R417). -/
def execVote (f : XF) (s : State) : Host.Outcome State Fault Refusal :=
  runZha 8 (
    let mode := f.c.toNat % 8
    let toS := f.cl.getLsbD 0
    let a := f.a.toNat
    issue 8 f.stall.toNat
      ⟨if mode = 4 then [a] else [], [], [], if toS then [f.d.toNat] else [], guardPs f.g ++ (if mode = 4 then [] else [a % 8]),
        if toS then [] else [f.d.toNat % 8]⟩ fun h =>
      let l := h.lanes f.g
      let r := voteValue h mode a l
      if toS then writeS h 4 f.stall.toNat f.d.toNat r
      else writeP h 4 f.stall.toNat (f.d.toNat % 8) l (if r = 0 then 0 else BitVec.allOnes 32)) s

end Sys2Proof.Machine
end

