-- ==== Sys2Proof/Machine/XScalar.lean ====
section
/-! DEFINITION. XSCALAR minors 0-16 (R325). -/

namespace Sys2Proof.Machine

/-- XSCALAR ADD (R330). -/
def execAddXscalar (f : ScalarF) (s : State) : Host.Outcome State Fault Refusal :=
  runZha 8 (salu2 (xForm f.stall f.g) f.sd.toNat f.sa.toNat (scalarB f) (· + ·)) s

/-- XSCALAR SUB (R412). -/
def execSubXscalar (f : ScalarF) (s : State) : Host.Outcome State Fault Refusal :=
  runZha 8 (salu2 (xForm f.stall f.g) f.sd.toNat f.sa.toNat (scalarB f) (· - ·)) s

/-- XSCALAR MUL (R381). -/
def execMulXscalar (f : ScalarF) (s : State) : Host.Outcome State Fault Refusal :=
  runZha 8 (salu2 (xForm f.stall f.g) f.sd.toNat f.sa.toNat (scalarB f) (· * ·)) s

/-- XSCALAR AND (R331). -/
def execAndXscalar (f : ScalarF) (s : State) : Host.Outcome State Fault Refusal :=
  runZha 8 (salu2 (xForm f.stall f.g) f.sd.toNat f.sa.toNat (scalarB f) (· &&& ·)) s

/-- XSCALAR OR (R387). -/
def execOrXscalar (f : ScalarF) (s : State) : Host.Outcome State Fault Refusal :=
  runZha 8 (salu2 (xForm f.stall f.g) f.sd.toNat f.sa.toNat (scalarB f) (· ||| ·)) s

/-- XSCALAR XOR (R387). -/
def execXorXscalar (f : ScalarF) (s : State) : Host.Outcome State Fault Refusal :=
  runZha 8 (salu2 (xForm f.stall f.g) f.sd.toNat f.sa.toNat (scalarB f) (· ^^^ ·)) s

/-- XSCALAR SHL (R403). -/
def execShlXscalar (f : ScalarF) (s : State) : Host.Outcome State Fault Refusal :=
  runZha 8 (salu2 (xForm f.stall f.g) f.sd.toNat f.sa.toNat (scalarB f) wordShl) s

/-- XSCALAR SHR, logical (R403). -/
def execShrXscalar (f : ScalarF) (s : State) : Host.Outcome State Fault Refusal :=
  runZha 8 (salu2 (xForm f.stall f.g) f.sd.toNat f.sa.toNat (scalarB f) wordShr) s

/-- XSCALAR SRA, arithmetic (R403). -/
def execSraXscalar (f : ScalarF) (s : State) : Host.Outcome State Fault Refusal :=
  runZha 8 (salu2 (xForm f.stall f.g) f.sd.toNat f.sa.toNat (scalarB f) wordSra) s

/-- XSCALAR MIN, signed (R373). -/
def execMinXscalar (f : ScalarF) (s : State) : Host.Outcome State Fault Refusal :=
  runZha 8 (salu2 (xForm f.stall f.g) f.sd.toNat f.sa.toNat (scalarB f) wordMin) s

/-- XSCALAR MAX, signed (R373). -/
def execMaxXscalar (f : ScalarF) (s : State) : Host.Outcome State Fault Refusal :=
  runZha 8 (salu2 (xForm f.stall f.g) f.sd.toNat f.sa.toNat (scalarB f) wordMax) s

/-- XSCALAR MOV (R377). -/
def execMovXscalar (f : ScalarF) (s : State) : Host.Outcome State Fault Refusal :=
  runZha 8 (salu1 (xForm f.stall f.g) f.sd.toNat f.sa.toNat id) s

/-- XSCALAR NOT (R386). -/
def execNotXscalar (f : ScalarF) (s : State) : Host.Outcome State Fault Refusal :=
  runZha 8 (salu1 (xForm f.stall f.g) f.sd.toNat f.sa.toNat (~~~ ·)) s

/-- XSCALAR NEG (R385). -/
def execNegXscalar (f : ScalarF) (s : State) : Host.Outcome State Fault Refusal :=
  runZha 8 (salu1 (xForm f.stall f.g) f.sd.toNat f.sa.toNat (0 - ·)) s

/-- XSCALAR MULHI (R54, R382). -/
def execMulhiXscalar (f : ScalarF) (s : State) : Host.Outcome State Fault Refusal :=
  runZha 8 (salu2 (xForm f.stall f.g) f.sd.toNat f.sa.toNat (scalarB f) wordMulhi) s

/-- XSCALAR CLZ (R345). -/
def execClzXscalar (f : ScalarF) (s : State) : Host.Outcome State Fault Refusal :=
  runZha 8 (salu1 (xForm f.stall f.g) f.sd.toNat f.sa.toNat wordClz) s

/-- XSCALAR POPC (R393). -/
def execPopcXscalar (f : ScalarF) (s : State) : Host.Outcome State Fault Refusal :=
  runZha 8 (salu1 (xForm f.stall f.g) f.sd.toNat f.sa.toNat wordPopc) s

end Sys2Proof.Machine
end

