-- ==== Sys2Proof/Machine/Dispatch.lean ====
section
/-! DEFINITION. The dispatch: one arm per instruction, event and command, each a direct call of its meaning. -/

namespace Sys2Proof.Machine

def exec (i : Instr) (s : State) : Host.Outcome State Fault Refusal :=
  match i with
  | .movCompact f => Sys2Proof.Machine.execMovCompact f s
  | .addCompact f => Sys2Proof.Machine.execAddCompact f s
  | .subCompact f => Sys2Proof.Machine.execSubCompact f s
  | .mulCompact f => Sys2Proof.Machine.execMulCompact f s
  | .andCompact f => Sys2Proof.Machine.execAndCompact f s
  | .orCompact f => Sys2Proof.Machine.execOrCompact f s
  | .xorCompact f => Sys2Proof.Machine.execXorCompact f s
  | .notCompact f => Sys2Proof.Machine.execNotCompact f s
  | .shlCompact f => Sys2Proof.Machine.execShlCompact f s
  | .shrCompact f => Sys2Proof.Machine.execShrCompact f s
  | .minCompact f => Sys2Proof.Machine.execMinCompact f s
  | .maxCompact f => Sys2Proof.Machine.execMaxCompact f s
  | .absCompact f => Sys2Proof.Machine.execAbsCompact f s
  | .negCompact f => Sys2Proof.Machine.execNegCompact f s
  | .popcCompact f => Sys2Proof.Machine.execPopcCompact f s
  | .selCompact f => Sys2Proof.Machine.execSelCompact f s
  | .stall f => Sys2Proof.Machine.execStall f s
  | .addBase f => Sys2Proof.Machine.execAddBase f s
  | .subBase f => Sys2Proof.Machine.execSubBase f s
  | .mulBase f => Sys2Proof.Machine.execMulBase f s
  | .fmaBase f => Sys2Proof.Machine.execFmaBase f s
  | .minBase f => Sys2Proof.Machine.execMinBase f s
  | .maxBase f => Sys2Proof.Machine.execMaxBase f s
  | .andBase f => Sys2Proof.Machine.execAndBase f s
  | .orBase f => Sys2Proof.Machine.execOrBase f s
  | .xorBase f => Sys2Proof.Machine.execXorBase f s
  | .shlBase f => Sys2Proof.Machine.execShlBase f s
  | .shrBase f => Sys2Proof.Machine.execShrBase f s
  | .selBase f => Sys2Proof.Machine.execSelBase f s
  | .addi f => Sys2Proof.Machine.execAddi f s
  | .andi f => Sys2Proof.Machine.execAndi f s
  | .ori f => Sys2Proof.Machine.execOri f s
  | .shli f => Sys2Proof.Machine.execShli f s
  | .shri f => Sys2Proof.Machine.execShri f s
  | .moviBase f => Sys2Proof.Machine.execMoviBase f s
  | .addSalu f => Sys2Proof.Machine.execAddSalu f s
  | .subSalu f => Sys2Proof.Machine.execSubSalu f s
  | .mulSalu f => Sys2Proof.Machine.execMulSalu f s
  | .andSalu f => Sys2Proof.Machine.execAndSalu f s
  | .orSalu f => Sys2Proof.Machine.execOrSalu f s
  | .xorSalu f => Sys2Proof.Machine.execXorSalu f s
  | .shlSalu f => Sys2Proof.Machine.execShlSalu f s
  | .shrSalu f => Sys2Proof.Machine.execShrSalu f s
  | .sraSalu f => Sys2Proof.Machine.execSraSalu f s
  | .minSalu f => Sys2Proof.Machine.execMinSalu f s
  | .maxSalu f => Sys2Proof.Machine.execMaxSalu f s
  | .movSalu f => Sys2Proof.Machine.execMovSalu f s
  | .notSalu f => Sys2Proof.Machine.execNotSalu f s
  | .negSalu f => Sys2Proof.Machine.execNegSalu f s
  | .mulhiSalu f => Sys2Proof.Machine.execMulhiSalu f s
  | .clzSalu f => Sys2Proof.Machine.execClzSalu f s
  | .popcSalu f => Sys2Proof.Machine.execPopcSalu f s
  | .sli f => Sys2Proof.Machine.execSli f s
  | .bra f => Sys2Proof.Machine.execBra f s
  | .call f => Sys2Proof.Machine.execCall f s
  | .brp f => Sys2Proof.Machine.execBrp f s
  | .ldBase f => Sys2Proof.Machine.execLdBase f s
  | .stBase f => Sys2Proof.Machine.execStBase f s
  | .ldsBase f => Sys2Proof.Machine.execLdsBase f s
  | .stsBase f => Sys2Proof.Machine.execStsBase f s
  | .sldBase f => Sys2Proof.Machine.execSldBase f s
  | .dotBase f => Sys2Proof.Machine.execDotBase f s
  | .movGeneral f => Sys2Proof.Machine.execMovGeneral f s
  | .unassignedEncoding f => Sys2Proof.Machine.execUnassignedEncoding f s
  | .addX f => Sys2Proof.Machine.execAddX f s
  | .subX f => Sys2Proof.Machine.execSubX f s
  | .mulX f => Sys2Proof.Machine.execMulX f s
  | .mulhiX f => Sys2Proof.Machine.execMulhiX f s
  | .fmaX f => Sys2Proof.Machine.execFmaX f s
  | .minX f => Sys2Proof.Machine.execMinX f s
  | .maxX f => Sys2Proof.Machine.execMaxX f s
  | .absX f => Sys2Proof.Machine.execAbsX f s
  | .negX f => Sys2Proof.Machine.execNegX f s
  | .andX f => Sys2Proof.Machine.execAndX f s
  | .orX f => Sys2Proof.Machine.execOrX f s
  | .xorX f => Sys2Proof.Machine.execXorX f s
  | .notX f => Sys2Proof.Machine.execNotX f s
  | .shlX f => Sys2Proof.Machine.execShlX f s
  | .shrX f => Sys2Proof.Machine.execShrX f s
  | .selX f => Sys2Proof.Machine.execSelX f s
  | .movX f => Sys2Proof.Machine.execMovX f s
  | .moviX f => Sys2Proof.Machine.execMoviX f s
  | .dotX f => Sys2Proof.Machine.execDotX f s
  | .acs f => Sys2Proof.Machine.execAcs f s
  | .popcX f => Sys2Proof.Machine.execPopcX f s
  | .clzX f => Sys2Proof.Machine.execClzX f s
  | .brev f => Sys2Proof.Machine.execBrev f s
  | .bfe f => Sys2Proof.Machine.execBfe f s
  | .bfi f => Sys2Proof.Machine.execBfi f s
  | .cmp f => Sys2Proof.Machine.execCmp f s
  | .plop f => Sys2Proof.Machine.execPlop f s
  | .pmov f => Sys2Proof.Machine.execPmov f s
  | .vote f => Sys2Proof.Machine.execVote f s
  | .shfl f => Sys2Proof.Machine.execShfl f s
  | .xred f => Sys2Proof.Machine.execXred f s
  | .lget f => Sys2Proof.Machine.execLget f s
  | .lput f => Sys2Proof.Machine.execLput f s
  | .pack f => Sys2Proof.Machine.execPack f s
  | .unpack f => Sys2Proof.Machine.execUnpack f s
  | .cvt f => Sys2Proof.Machine.execCvt f s
  | .retag f => Sys2Proof.Machine.execRetag f s
  | .rcp f => Sys2Proof.Machine.execRcp f s
  | .rsq f => Sys2Proof.Machine.execRsq f s
  | .exp2 f => Sys2Proof.Machine.execExp2 f s
  | .log2 f => Sys2Proof.Machine.execLog2 f s
  | .sin f => Sys2Proof.Machine.execSin f s
  | .cos f => Sys2Proof.Machine.execCos f s
  | .addXscalar f => Sys2Proof.Machine.execAddXscalar f s
  | .subXscalar f => Sys2Proof.Machine.execSubXscalar f s
  | .mulXscalar f => Sys2Proof.Machine.execMulXscalar f s
  | .andXscalar f => Sys2Proof.Machine.execAndXscalar f s
  | .orXscalar f => Sys2Proof.Machine.execOrXscalar f s
  | .xorXscalar f => Sys2Proof.Machine.execXorXscalar f s
  | .shlXscalar f => Sys2Proof.Machine.execShlXscalar f s
  | .shrXscalar f => Sys2Proof.Machine.execShrXscalar f s
  | .sraXscalar f => Sys2Proof.Machine.execSraXscalar f s
  | .minXscalar f => Sys2Proof.Machine.execMinXscalar f s
  | .maxXscalar f => Sys2Proof.Machine.execMaxXscalar f s
  | .movXscalar f => Sys2Proof.Machine.execMovXscalar f s
  | .notXscalar f => Sys2Proof.Machine.execNotXscalar f s
  | .negXscalar f => Sys2Proof.Machine.execNegXscalar f s
  | .mulhiXscalar f => Sys2Proof.Machine.execMulhiXscalar f s
  | .clzXscalar f => Sys2Proof.Machine.execClzXscalar f s
  | .popcXscalar f => Sys2Proof.Machine.execPopcXscalar f s
  | .br f => Sys2Proof.Machine.execBr f s
  | .jmp f => Sys2Proof.Machine.execJmp f s
  | .ret f => Sys2Proof.Machine.execRet f s
  | .srd f => Sys2Proof.Machine.execSrd f s
  | .swr f => Sys2Proof.Machine.execSwr f s
  | .ld f => Sys2Proof.Machine.execLd f s
  | .st f => Sys2Proof.Machine.execSt f s
  | .lds f => Sys2Proof.Machine.execLds f s
  | .sts f => Sys2Proof.Machine.execSts f s
  | .sld f => Sys2Proof.Machine.execSld f s
  | .atom f => Sys2Proof.Machine.execAtom f s
  | .mred f => Sys2Proof.Machine.execMred f s
  | .pf f => Sys2Proof.Machine.execPf f s
  | .cctl f => Sys2Proof.Machine.execCctl f s
  | .icinv f => Sys2Proof.Machine.execIcinv f s
  | .fe f => Sys2Proof.Machine.execFe f s
  | .fence f => Sys2Proof.Machine.execFence f s
  | .fbeg f => Sys2Proof.Machine.execFbeg f s
  | .fwait f => Sys2Proof.Machine.execFwait f s
  | .bar f => Sys2Proof.Machine.execBar f s
  | .monw f => Sys2Proof.Machine.execMonw f s
  | .yield f => Sys2Proof.Machine.execYield f s
  | .epush f => Sys2Proof.Machine.execEpush f s
  | .epop f => Sys2Proof.Machine.execEpop f s
  | .copy f => Sys2Proof.Machine.execCopy f s
  | .cobj f => Sys2Proof.Machine.execCobj f s
  | .cpwait f => Sys2Proof.Machine.execCpwait f s
  | .lease f => Sys2Proof.Machine.execLease f s
  | .lrel f => Sys2Proof.Machine.execLrel f s
  | .lstat f => Sys2Proof.Machine.execLstat f s
  | .eng f => Sys2Proof.Machine.execEng f s
  | .ewait f => Sys2Proof.Machine.execEwait f s
  | .bld f => Sys2Proof.Machine.execBld f s
  | .mma f => Sys2Proof.Machine.execMma f s
  | .mv f => Sys2Proof.Machine.execMv f s
  | .mbat f => Sys2Proof.Machine.execMbat f s
  | .mwait f => Sys2Proof.Machine.execMwait f s
  | .tzero f => Sys2Proof.Machine.execTzero f s
  | .tdrn f => Sys2Proof.Machine.execTdrn f s
  | .tmov f => Sys2Proof.Machine.execTmov f s
  | .talloc f => Sys2Proof.Machine.execTalloc f s
  | .tfree f => Sys2Proof.Machine.execTfree f s
  | .trap f => Sys2Proof.Machine.execTrap f s
  | .tret f => Sys2Proof.Machine.execTret f s
  | .bkpt f => Sys2Proof.Machine.execBkpt f s
  | .sys f => Sys2Proof.Machine.execSys f s
  | .exit f => Sys2Proof.Machine.execExit f s
  | .regset f => Sys2Proof.Machine.execRegset f s
  | .prog f => Sys2Proof.Machine.execProg f s
  | .rchk f => Sys2Proof.Machine.execRchk f s
  | .enq f => Sys2Proof.Machine.execEnq f s
  | .relaunch f => Sys2Proof.Machine.execRelaunch f s
  | .belinoLdi f => Sys2Proof.Machine.execBelinoLdi f s
  | .belinoMov f => Sys2Proof.Machine.execBelinoMov f s
  | .belinoAdd f => Sys2Proof.Machine.execBelinoAdd f s
  | .belinoSub f => Sys2Proof.Machine.execBelinoSub f s
  | .belinoAnd f => Sys2Proof.Machine.execBelinoAnd f s
  | .belinoOr f => Sys2Proof.Machine.execBelinoOr f s
  | .belinoXor f => Sys2Proof.Machine.execBelinoXor f s
  | .belinoShl f => Sys2Proof.Machine.execBelinoShl f s
  | .belinoShr f => Sys2Proof.Machine.execBelinoShr f s
  | .belinoMin f => Sys2Proof.Machine.execBelinoMin f s
  | .belinoMax f => Sys2Proof.Machine.execBelinoMax f s
  | .belinoSel f => Sys2Proof.Machine.execBelinoSel f s
  | .belinoCmplt f => Sys2Proof.Machine.execBelinoCmplt f s
  | .belinoCmpeq f => Sys2Proof.Machine.execBelinoCmpeq f s
  | .belinoLdc f => Sys2Proof.Machine.execBelinoLdc f s
  | .belinoLdm f => Sys2Proof.Machine.execBelinoLdm f s
  | .belinoStm f => Sys2Proof.Machine.execBelinoStm f s
  | .belinoLoop f => Sys2Proof.Machine.execBelinoLoop f s
  | .belinoBrf f => Sys2Proof.Machine.execBelinoBrf f s
  | .belinoBrfZ f => Sys2Proof.Machine.execBelinoBrfZ f s
  | .belinoDec f => Sys2Proof.Machine.execBelinoDec f s
  | .belinoExit f => Sys2Proof.Machine.execBelinoExit f s
  | .pathHoldExempt g p => Sys2Proof.Machine.execPathHoldExempt g p s
  | .sideReleaseSwap g p => Sys2Proof.Machine.execSideReleaseSwap g p s
  | .groupSlotFree g => Sys2Proof.Machine.execGroupSlotFree g s
  | .teamComplete t => Sys2Proof.Machine.execTeamComplete t s
  | .launchComplete r => Sys2Proof.Machine.execLaunchComplete r s
  | .regsetGrowthGrant core part => Sys2Proof.Machine.execRegsetGrowthGrant core part s
  | .regsetDeadlock core => Sys2Proof.Machine.execRegsetDeadlock core s
  | .storePerform op => Sys2Proof.Machine.execStorePerform op s
  | .loadDataReturn op => Sys2Proof.Machine.execLoadDataReturn op s
  | .atomHomePerform op => Sys2Proof.Machine.execAtomHomePerform op s
  | .mredCombine op lane => Sys2Proof.Machine.execMredCombine op lane s
  | .l1LineEvict core line => Sys2Proof.Machine.execL1LineEvict core line s
  | .l2LineEvict line => Sys2Proof.Machine.execL2LineEvict line s
  | .storeWalkFault op => Sys2Proof.Machine.execStoreWalkFault op s
  | .storeLateReport op => Sys2Proof.Machine.execStoreLateReport op s
  | .asyncPageFault req => Sys2Proof.Machine.execAsyncPageFault req s
  | .fewFillObtained g p => Sys2Proof.Machine.execFewFillObtained g p s
  | .fenceComplete g serial => Sys2Proof.Machine.execFenceComplete g serial s
  | .eccCorrected die grp => Sys2Proof.Machine.execEccCorrected die grp s
  | .eccUncorrectable e => Sys2Proof.Machine.execEccUncorrectable e s
  | .patrolScrub die grp => Sys2Proof.Machine.execPatrolScrub die grp s
  | .slotClockAging g => Sys2Proof.Machine.execSlotClockAging g s
  | .epochAging r => Sys2Proof.Machine.execEpochAging r s
  | .leaseGrant q e unit => Sys2Proof.Machine.execLeaseGrant q e unit s
  | .leaseWakeComplete q e => Sys2Proof.Machine.execLeaseWakeComplete q e s
  | .leaseEntryAged q e => Sys2Proof.Machine.execLeaseEntryAged q e s
  | .leaseNotice q e => Sys2Proof.Machine.execLeaseNotice q e s
  | .leaseRevoke q e => Sys2Proof.Machine.execLeaseRevoke q e s
  | .cqGrant cl => Sys2Proof.Machine.execCqGrant cl s
  | .cqRequestAged cl req => Sys2Proof.Machine.execCqRequestAged cl req s
  | .cqOverBudget cl => Sys2Proof.Machine.execCqOverBudget cl s
  | .cqBudgetChange cl budget share => Sys2Proof.Machine.execCqBudgetChange cl budget share s
  | .engOpStart op => Sys2Proof.Machine.execEngOpStart op s
  | .engOpComplete op => Sys2Proof.Machine.execEngOpComplete op s
  | .islandEnter core => Sys2Proof.Machine.execIslandEnter core s
  | .islandExit core => Sys2Proof.Machine.execIslandExit core s
  | .bldStart core op => Sys2Proof.Machine.execBldStart core op s
  | .bldComplete core op => Sys2Proof.Machine.execBldComplete core op s
  | .mmaStart core op => Sys2Proof.Machine.execMmaStart core op s
  | .mmaComplete core op => Sys2Proof.Machine.execMmaComplete core op s
  | .mmaPairReady core op => Sys2Proof.Machine.execMmaPairReady core op s
  | .mmaPairStart core op => Sys2Proof.Machine.execMmaPairStart core op s
  | .mvStart core op => Sys2Proof.Machine.execMvStart core op s
  | .mvComplete core op => Sys2Proof.Machine.execMvComplete core op s
  | .tdrnStart core op => Sys2Proof.Machine.execTdrnStart core op s
  | .tdrnComplete core op => Sys2Proof.Machine.execTdrnComplete core op s
  | .tzeroStart core op => Sys2Proof.Machine.execTzeroStart core op s
  | .tzeroComplete core op => Sys2Proof.Machine.execTzeroComplete core op s
  | .tmovStart core op => Sys2Proof.Machine.execTmovStart core op s
  | .tmovComplete core op => Sys2Proof.Machine.execTmovComplete core op s
  | .copySectorStart cp => Sys2Proof.Machine.execCopySectorStart cp s
  | .copySectorComplete cp sector => Sys2Proof.Machine.execCopySectorComplete cp sector s
  | .copyDigestCheck cp => Sys2Proof.Machine.execCopyDigestCheck cp s
  | .monwTimeout g p => Sys2Proof.Machine.execMonwTimeout g p s
  | .monitorOverflowEval g p => Sys2Proof.Machine.execMonitorOverflowEval g p s
  | .barrierArrivalMessage key => Sys2Proof.Machine.execBarrierArrivalMessage key s
  | .barrierRelease key => Sys2Proof.Machine.execBarrierRelease key s
  | .edgeParkRetry g p => Sys2Proof.Machine.execEdgeParkRetry g p s
  | .enqParkRetry g p => Sys2Proof.Machine.execEnqParkRetry g p s
  | .queueRecordAccept q => Sys2Proof.Machine.execQueueRecordAccept q s
  | .launchHead q => Sys2Proof.Machine.execLaunchHead q s
  | .hookEnq r => Sys2Proof.Machine.execHookEnq r s
  | .hookPick cl => Sys2Proof.Machine.execHookPick cl s
  | .hookTick cl => Sys2Proof.Machine.execHookTick cl s
  | .hookBlock t => Sys2Proof.Machine.execHookBlock t s
  | .hookWake t => Sys2Proof.Machine.execHookWake t s
  | .ageGuardTrigger cand => Sys2Proof.Machine.execAgeGuardTrigger cand s
  | .ageGuardPreempt cand cl => Sys2Proof.Machine.execAgeGuardPreempt cand cl s
  | .drainTimeout t => Sys2Proof.Machine.execDrainTimeout t s
  | .saveComplete t => Sys2Proof.Machine.execSaveComplete t s
  | .saveBoundExpiry t => Sys2Proof.Machine.execSaveBoundExpiry t s
  | .unitRestore sv cl => Sys2Proof.Machine.execUnitRestore sv cl s
  | .watchdogFirstExpiry q => Sys2Proof.Machine.execWatchdogFirstExpiry q s
  | .watchdogSecondExpiry q => Sys2Proof.Machine.execWatchdogSecondExpiry q s
  | .pathHoldStop g p => Sys2Proof.Machine.execPathHoldStop g p s
  | .stallSample cx core part => Sys2Proof.Machine.execStallSample cx core part s
  | .memorySample g p => Sys2Proof.Machine.execMemorySample g p s
  | .relaunchSelect g p => Sys2Proof.Machine.execRelaunchSelect g p s
  | .partcfg c => Sys2Proof.Machine.execPartcfg c s
  | .partreset c => Sys2Proof.Machine.execPartreset c s
  | .ctxbind c => Sys2Proof.Machine.execCtxbind c s
  | .ctxfree c => Sys2Proof.Machine.execCtxfree c s
  | .preempt c => Sys2Proof.Machine.execPreempt c s
  | .qreg c => Sys2Proof.Machine.execQreg c s
  | .qstate c => Sys2Proof.Machine.execQstate c s
  | .traparea c => Sys2Proof.Machine.execTraparea c s
  | .savepool c => Sys2Proof.Machine.execSavepool c s
  | .root c => Sys2Proof.Machine.execRoot c s
  | .xlinv c => Sys2Proof.Machine.execXlinv c s
  | .replay c => Sys2Proof.Machine.execReplay c s
  | .cancel c => Sys2Proof.Machine.execCancel c s
  | .barinit c => Sys2Proof.Machine.execBarinit c s
  | .barinv c => Sys2Proof.Machine.execBarinv c s
  | .watchreg c => Sys2Proof.Machine.execWatchreg c s
  | .rtnload c => Sys2Proof.Machine.execRtnload c s
  | .hold c => Sys2Proof.Machine.execHold c s
  | .resume c => Sys2Proof.Machine.execResume c s
  | .codeinv c => Sys2Proof.Machine.execCodeinv c s
  | .sample c => Sys2Proof.Machine.execSample c s
  | .vpsmap c => Sys2Proof.Machine.execVpsmap c s
  | .vpsreq c => Sys2Proof.Machine.execVpsreq c s
  | .vpsquery c => Sys2Proof.Machine.execVpsquery c s
  | .sensclr c => Sys2Proof.Machine.execSensclr c s
  | .energy c => Sys2Proof.Machine.execEnergy c s
  | .attest c => Sys2Proof.Machine.execAttest c s
  | .resync c => Sys2Proof.Machine.execResync c s
  | .wsdef c => Sys2Proof.Machine.execWsdef c s
  | .wsnew c => Sys2Proof.Machine.execWsnew c s
  | .wscommit c => Sys2Proof.Machine.execWscommit c s
  | .wsdrop c => Sys2Proof.Machine.execWsdrop c s
  | .evring c => Sys2Proof.Machine.execEvring c s
  | .unlistedCommand op sub c => Sys2Proof.Machine.execUnlistedCommand op sub c s
  | .tvlCompanionWrite addr bytes => Sys2Proof.Machine.execTvlCompanionWrite addr bytes s
  | .tvlCompanionRead addr len => Sys2Proof.Machine.execTvlCompanionRead addr len s
  | .tvlFlitCrcFail => Sys2Proof.Machine.execTvlFlitCrcFail s
  | .tvlRetrainComplete => Sys2Proof.Machine.execTvlRetrainComplete s
  | .tvlLinkdown => Sys2Proof.Machine.execTvlLinkdown s
  | .packageReset images => Sys2Proof.Machine.execPackageReset images s
  | .configDeclare mr value => Sys2Proof.Machine.execConfigDeclare mr value s
  | .clusterVpsChange cl => Sys2Proof.Machine.execClusterVpsChange cl s
  | .powerCapChange cl entry => Sys2Proof.Machine.execPowerCapChange cl entry s
  | .sensorVoteOut domain sensor => Sys2Proof.Machine.execSensorVoteOut domain sensor s
  | .coreTestFail core => Sys2Proof.Machine.execCoreTestFail core s
  | .channelGroupSpare group base len => Sys2Proof.Machine.execChannelGroupSpare group base len s
  | .signalBoxFail mailbox unit => Sys2Proof.Machine.execSignalBoxFail mailbox unit s
  | .shardDigestComplete ws ver shard => Sys2Proof.Machine.execShardDigestComplete ws ver shard s
  | .weightPatrol ws ver shard => Sys2Proof.Machine.execWeightPatrol ws ver shard s
  | .markAgingFinish epoch id => Sys2Proof.Machine.execMarkAgingFinish epoch id s

end Sys2Proof.Machine
end

