-- ==== Sys2Proof/Machine/Place.lean ====
section
/-! DEFINITION. A program placed from outside the machine: a resident team of one group whose next instruction is a given
one, or a signal box whose phase stands before a given Belino word (the log entry on how a program comes to run). -/

namespace Sys2Proof.Machine

/-- An instruction's bytes with zeros above them, 8 in all. -/
def placedBytes (nbits w : Nat) : List Byte := leBytes 8 (w % 2 ^ nbits)

/-- Page tables that map virtual address 0 to physical 0x200000 as one 2 MiB page (R111). -/
def placedTables : List (Nat × Nat) :=
  [(0x1000, 0x2001), (0x2000, 0x3001), (0x3000, 0x4001), (0x4000, 0x200673)]

/-- The launch record of the placed team: PROG 0, 1 group of 128 registers (R233). -/
def placedRecord : List Byte :=
  List.replicate 0x40 0 ++ toLE 4 (15 * 32) ++ List.replicate 0xBC 0

def placedRun : Run :=
  { lid := 1, runNo := 1, ctx := 0, part := 0, queue := 0, record := placedRecord, le := 0, leAging := false, toAge := [], know := [], left := [], homes := [],
    status := .dispatched, fault := false, lost := false, pkgRange := [], dieRanges := [], cluRanges := [], ageFrom := 0,
    paused := 0, pausedSince := none, doneTeams := [], retSum := 0, restarts := [], sel := none, cobj := 0,
    watch := none, wver := none, miss := [], guarded := none }

def placedTeam : Team :=
  { run := 1, num := 0, core := 0, slots := [0], freed := [], groups := 1, scrBase := 0, scrUnits := 0, scrAt := [], tiles := [],
    fpctl := 0, raised := (0, 0), raceMode := 0, hint := 0, ret := 0, rtime := 0, since := 0, trace := Trace.init, slices := [],
    drainBy := none, saveBy := none, saveAt := none, lostHandles := [] }

/-- A chip with the placed team on core 0, its context bound to partition 0 with cluster 0. -/
def Chip.withTeam (c : Chip) (now : Nat) : Chip :=
  { c with
    slots := mset c.slots 0 { Slot.init with group := some (Group.start placedRun 1 0 now) }
    teams := mset c.teams 1 placedTeam
    runs := mset c.runs 1 placedRun
    parts := mset c.parts 0 { Partition.init with clmask := 1 }
    ctxs := mset c.ctxs 0 { Context.init with state := .active, root := some 0x1000 }
    cores := mset c.cores 0 Core.init
    memq := []
    mboxWin := none }

/-- Memory with the tables and the instruction at physical address 0x200000. -/
def placedMemory (m : List Host.Cell) (nbits w : Nat) : List Host.Cell :=
  Memory.writeAll m ((placedTables.flatMap fun t => (toLE 8 t.2).zipIdx.map fun b => (t.1 + b.2, b.1)) ++
    (placedBytes nbits w).zipIdx.map fun b => (0x200000 + b.2, b.1))

/-- A state whose next step runs a program instruction. -/
def placeProgram (s : State) (nbits w : Nat) : State :=
  { s with mem := placedMemory s.mem nbits w, chip := s.chip.withTeam s.clk, actor := (0, 0), agenda := [.path 0 0] }

/-- A phase that has just started: nothing counted, every register 0 (R242). -/
def Phase.start (key : Nat) : Phase :=
  { key := key, g := [], pc := 0, cnt := [], cycles := 0, fields := [], globals := [], pick := none, prios := [],
    prefetch := [], migrate := none, hint := none }

/-- A state whose next step runs a Belino word on the box of cluster 0, an EXIT word behind it. -/
def placeRoutine (s : State) (w : Nat) : State :=
  { s with
    chip := s.chip.modCluster 0 fun k => { k with box := { k.box with
      routines := mset k.box.routines 0 ⟨[w, 20], 0, 0, 0, [], false, 0⟩, phase := some (Phase.start 0) } }
    actor := (0, 0), agenda := [.box 0] }

/-- Whether a table word is a Belino word for the decoder. -/
def isBelinoWord (nbits w : Nat) : Bool :=
  match decodeTableWord nbits w with
  | some i => decide (some i = decodeBelino (w % 2 ^ nbits))
  | none => false

/-- A state with an instruction where the next step runs it. -/
def State.placed (s : State) (nbits w : Nat) : State :=
  if isBelinoWord nbits w then placeRoutine s (w % 2 ^ nbits) else placeProgram s nbits w

end Sys2Proof.Machine
end

