-- ==== Sys2Proof/Machine/Step.lean ====
section
/-! DEFINITION. One step: the next turn's instruction, event or command runs, and the state settles. -/

namespace Sys2Proof.Machine

/-- One step of the machine. -/
def step (s : State) : Host.Outcome State Fault Refusal :=
  match s.plan exec with
  | .stay t => .next t.settled
  | .run i t =>
    match exec i t with
    | .next u => .next u.settled
    | .fault f => .fault f
    | .refused r => .refused r

/-- A state whose next step runs the instruction whose bits are `w` (the bits above `nbits` are 0). -/
def State.withFetchWord (s : State) (nbits w : Nat) : State := s.placed nbits w

end Sys2Proof.Machine
end

