-- ==== Sys2Proof/Safety.lean ====
section
/-! DEFINITION. What counts as a safe run, and the terms that claims use: the path that acts, when an instruction may issue,
what a state's registers hold, and what an instruction leaves alone. -/

namespace Sys2Proof.Machine

/-! ## Runs -/

/-- The invariant that every step keeps: memory in canonical form. -/
abbrev State.Inv (s : State) : Prop := Memory.wf s.mem

/-- The machine goes on from a state. -/
def State.runs (s : State) : Prop := ∃ t, step s = .next t

/-- A run of `n` steps that never stops and keeps the invariant. -/
def State.safe : Nat → State → Prop
  | 0, s => s.Inv
  | n + 1, s => s.Inv ∧ ∃ t, step s = .next t ∧ State.safe n t

/-! ## The acting path and its issue -/

/-- The path that acts in a state, with its group, team and run. -/
abbrev State.acts (s : State) (h : Here) : Prop := s.chip.here? s.actor.1 s.actor.2 = some h

/-- An instruction of the acting path that names these registers issues without waiting or trapping: its vector registers
are allocated (R18), no access in flight writes a register it names (R64), none comes late from a slow island (R187), and
every earlier result of the group can be read (R65). -/
abbrev State.mayIssue (s : State) (h : Here) (u : Uses) : Prop :=
  s.acts h ∧ (∀ r ∈ u.vs ++ u.vd, r < h.grp.alloc) ∧ s.chip.usesPending h.g h.mask u = false ∧
    u.slow s.clk h.grp.slow = false ∧ h.grp.hazards = []

/-- The path after an instruction of `len` bytes that only falls through (R31, R35, R50). -/
def Here.past (h : Here) (len stall now : Nat) : Path :=
  { h.path with pc := h.path.pc + BitVec.ofNat 64 len, readyAt := now + 1 + stall }

/-- The path after a control transfer to `pc`. -/
def Here.jumped (h : Here) (pc : Addr) (stall now : Nat) : Path := { h.path with pc := pc, readyAt := now + 1 + stall }

/-! ## What a state's registers hold -/

/-- A vector register of one lane of a group slot. -/
def State.vreg (s : State) (g r l : Nat) : VReg := ((s.chip.group? g).map fun x => x.vreg r l).getD VReg.zero
/-- A scalar register of a group slot. -/
def State.sreg (s : State) (g r : Nat) : Word := ((s.chip.group? g).map fun x => x.sreg r).getD 0
/-- A predicate register of a group slot. -/
def State.preg (s : State) (g r : Nat) : Word := ((s.chip.group? g).map fun x => x.preg r).getD 0
/-- A scalar pair of a group slot. -/
def State.spair (s : State) (g r : Nat) : Addr := s.sreg g (r + 1) ++ s.sreg g r
/-- FPCTL of a team (R46). -/
def State.fpctl (s : State) (tid : Nat) : Word := ((mget? s.chip.teams tid).map Team.fpctl).getD 0

/-! ## Exception flags -/

/-- The union of some lanes' exception flags (R80). -/
def flagsOf (fs : List (Nat × FpFlags)) : FpFlags := fs.foldl (fun a x => a ||| x.2) 0

/-- A team once flags have been raised at a clk and none traps: sticky in FPCTL, and known to an SWR of that clk (R46, R80). -/
def Team.flagged (x : Team) (now : Nat) (fl : FpFlags) : Team :=
  if fl = 0 then x
  else { x with fpctl := x.fpctl ||| ((fl.setWidth 32 : Word) <<< (6 : Nat))
                raised := (now, if x.raised.1 = now then x.raised.2 ||| fl else fl) }

/-- None of some flags is enabled in a team's FPCTL, so that they do not trap (R80). -/
abbrev Here.untrapped (h : Here) (fl : FpFlags) : Prop := fl &&& (h.team.fpctl.extractLsb' 1 5 : FpFlags) = 0

/-! ## What an instruction leaves alone -/

/-- Everything but the acting group's registers, its path and its team: memory, time, the other groups' slots, the other
teams, and every other table of the chip; of the acting group, every register but those listed and every other path. -/
def State.keepsBut (s t : State) (h : Here) (vd sd pd : List Nat) : Prop :=
  t.mem = s.mem ∧ t.clk = s.clk ∧ t.agenda = s.agenda ∧ t.actor = s.actor ∧ t.free = s.free ∧
  { t.chip with slots := s.chip.slots, teams := s.chip.teams } = s.chip ∧
  (∀ g, g ≠ h.g → t.chip.slot g = s.chip.slot g) ∧
  (∀ i, i ≠ h.tid → mget? t.chip.teams i = mget? s.chip.teams i) ∧
  (∀ q, q ≠ h.p → t.chip.path? h.g q = s.chip.path? h.g q) ∧
  (∀ r l, l < 32 → r ∉ vd → t.vreg h.g r l = s.vreg h.g r l) ∧
  (∀ r, r ∉ sd → t.sreg h.g r = s.sreg h.g r) ∧
  (∀ r, r ∉ pd → t.preg h.g r = s.preg h.g r)

/-- The team's record after an instruction: one more retired instruction, and the flags raised, 0 for none (R35, R46). -/
def State.retired (s t : State) (h : Here) (fl : FpFlags) : Prop :=
  mget? t.chip.teams h.tid = (mget? s.chip.teams h.tid).map fun x => ({ x with ret := x.ret + 1 }).flagged s.clk fl

/-- The state after an instruction of the acting path that retires, changes its team by `ft` and its group by `fg`, and
nothing else: memory, time and every other table stay (R31, R35). -/
def State.ended (s : State) (h : Here) (len stall : Nat) (ft : Team → Team) (fg : Group → Group) : State :=
  s.commit { s.tx with chip := ((s.chip.retire h len stall s.clk).modTeam h.tid ft).modGroup h.g fg }

/-! ## Results -/

/-- The instruction completes: every lane of lanes() has its result in register `d` with its tag, the other lanes and all
other registers stay, the lanes' flags accumulate, and the path goes on past the instruction. -/
def State.lanesGet (s : State) (h : Here) (i : Instr) (F : Form) (d : Nat) (tag : Nat → BitVec 4)
    (res : Nat → Nat × FpFlags) : Prop :=
  ∃ t, exec i s = .next t ∧ t.chip.path? h.g h.p = some (h.past F.len F.stall s.clk) ∧
    (∀ l, l < 32 → t.vreg h.g d l = if laneBit (h.lanes F.g) l then ⟨BitVec.ofNat 32 (res l).1, tag l⟩ else s.vreg h.g d l) ∧
    s.keepsBut t h [d] [] [] ∧
    s.retired t h (flagsOf ((lanesOf (h.lanes F.g)).map fun l => (l, (res l).2)))

/-- The instruction completes: register `d` holds `v`, everything else stays, and the path goes on past the instruction. -/
def State.scalarGets (s : State) (h : Here) (i : Instr) (F : Form) (d : Nat) (v : Word) : Prop :=
  ∃ t, exec i s = .next t ∧ t.chip.path? h.g h.p = some (h.past F.len F.stall s.clk) ∧ t.sreg h.g d = v ∧
    s.keepsBut t h [] [d] [] ∧ s.retired t h 0

/-- The instruction completes: the bits of predicate `d` that lanes() govern are those of `v`, the other bits and registers
stay, the flags accumulate, and the path goes on past the instruction. -/
def State.predGets (s : State) (h : Here) (i : Instr) (F : Form) (d : Nat) (v : Nat → Bool) (fl : FpFlags) : Prop :=
  ∃ t, exec i s = .next t ∧ t.chip.path? h.g h.p = some (h.past F.len F.stall s.clk) ∧
    (∀ l, l < 32 → (t.preg h.g d).getLsbD l = if laneBit (h.lanes F.g) l then v l else (s.preg h.g d).getLsbD l) ∧
    s.keepsBut t h [] [] [d] ∧ s.retired t h fl

/-- The instruction completes: the path goes to `pc`, and everything else stays but the scalar registers listed. -/
def State.goesTo (s : State) (h : Here) (i : Instr) (pc : Addr) (stall : Nat) (sd : List Nat) (link : Addr) : Prop :=
  ∃ t, exec i s = .next t ∧ t.chip.path? h.g h.p = some (h.jumped pc stall s.clk) ∧
    (sd = [] ∨ sd = [158, 159] ∧ t.spair h.g 158 = link) ∧ s.keepsBut t h [] sd [] ∧ s.retired t h 0

/-! ## Translation and code as a core's caches hold them -/

/-- Bytes of memory as a little-endian number (R5). -/
def Memory.nat (m : List Host.Cell) (a n : Nat) : Nat := fromLE ((List.range n).map fun i => Memory.read m (a + i))

/-- A translation that a core gives at once: through a weight-set window, or a cached leaf that admits the access, whose D
bit a write finds set, and which names no companion frame (R112, R321). -/
def Chip.hit (c : Chip) (core run ctx : Nat) (u : Use) (va : Nat) : Option Nat :=
  match c.window run u va with
  | some (.ok pa) => some pa
  | some (.error _) => none
  | none => ((c.core core).lookup ctx va).bind fun e =>
    if leafKind e.bits false u = 0 && bits e.bits 8 1 = 0 && !(u.write && bits e.bits 5 1 = 1 && bits e.bits 10 1 = 0) then
      some (e.pa + va % 2 ^ e.log2) else none

/-- A byte of code from a path's PC on, as the core's instruction cache holds it (R109). -/
def State.codeByte (s : State) (h : Here) (k : Nat) : Option Byte :=
  (s.chip.hit h.core h.runId h.ctx (Use.exec h.user) (h.path.pc.toNat + k)).bind fun pa =>
    (mget? (s.chip.core h.core).icache (pa / 128)).map fun l => l.getD (pa % 128) 0

/-- The first `n` bytes at a path's PC, where all of them are cached. -/
def State.code (s : State) (h : Here) (n : Nat) : List Byte := (List.range n).map fun k => (s.codeByte h k).getD 0
abbrev State.codeHot (s : State) (h : Here) (n : Nat) : Prop :=
  s.chip.region h.path.pc = .global ∧ ∀ k, k < n → (s.codeByte h k).isSome

/-- Nothing stands between an access and its bytes: no Update-only partials, no watch set, no traced run, no MONW's monitor, and
the TVL link is up (R117, R218, R280, R288, R298). -/
def Chip.plainMemory (c : Chip) : Prop :=
  (∀ e ∈ c.cores, e.2.partials = []) ∧ (∀ e ∈ c.ctxs, e.2.watch = []) ∧ (∀ e ∈ c.runs, e.2.traced = false) ∧
    c.link.retraining = none ∧ c.link.down = false ∧ ∀ m ∈ c.mons, m.test = none
abbrev State.plainMemory (s : State) : Prop := s.chip.plainMemory

/-! ## Taking a trap -/

/-- A group's registers are as they were. -/
def State.sameRegs (s t : State) (g : Nat) : Prop :=
  (∀ r l, t.vreg g r l = s.vreg g r l) ∧ (∀ r, t.sreg g r = s.sreg g r) ∧ ∀ r, t.preg g r = s.preg g r

/-- Whether a cause of an acting path goes to the launch's own handler (R253, R254). -/
abbrev Here.toUser (h : Here) (cause : Nat) : Prop :=
  h.path.level = .normal ∧ userCause cause h.run.trapv ∧ h.run.trapv.toNat / 2 ≠ 0

/-- Where the frame of a path's trap stands in physical memory (R255, R256). -/
def State.frameAt (s : State) (h : Here) (a : TrapArea) (toUser : Bool) : Nat :=
  a.pa + s.chip.frameOff h.ctx h.g h.p (if toUser then 0 else 1)

/-- A trap can be taken: not from supervisor level, into a trap area whose handler's address, where the supervisor's is
needed, is not 0; the path has no load outstanding, its code is cached, and memory is plain (R254). -/
def State.mayTrap (s : State) (h : Here) (a : TrapArea) (cause : Nat) : Prop :=
  s.acts h ∧ s.Inv ∧ s.plainMemory ∧ (s.chip.ctx h.ctx).area = some a ∧ h.path.level ≠ .supervisor ∧
    (¬ h.toUser cause → Memory.nat s.mem a.pa 8 ≠ 0) ∧ s.chip.pathLoads h.g h.p = [] ∧ s.codeHot h 2

/-- The instruction takes a trap (R253 to R259): the path stands at its handler, its lanes as they were, the frame holds the
instruction's address, the resume address, the mask and the cause, and no register changes; the instruction retires. -/
def State.traps (s : State) (h : Here) (i : Instr) (a : TrapArea) (cause data : Nat) (rpc : Addr) : Prop :=
  let user := decide (h.toUser cause)
  let code : Word := BitVec.ofNat 32 (cause + data * 65536)
  let at_ := s.frameAt h a user
  ∃ t, exec i s = .next t ∧ s.sameRegs t h.g ∧ s.retired t h 0 ∧
    (∃ q, t.chip.path? h.g h.p = some q ∧ q.level = (if user then .user else .supervisor) ∧ q.mask = h.mask ∧
      q.pc = (if user then (h.run.trapv >>> 1) <<< 1 else BitVec.ofNat 64 (Memory.nat s.mem a.pa 8)) ∧ q.cause = code ∧
      q.wait = none) ∧
    Memory.nat t.mem at_ 8 = h.path.pc.toNat ∧ Memory.nat t.mem (at_ + 8) 8 = rpc.toNat ∧
    Memory.nat t.mem (at_ + 16) 4 = h.mask.toNat ∧ Memory.nat t.mem (at_ + 20) 4 = code.toNat ∧
    ∀ x, x < at_ ∨ at_ + 1024 ≤ x → Memory.read t.mem x = Memory.read s.mem x

/-- Nobody waits in the machine: no side of any path is parked (R22). -/
abbrev State.nobodyWaits (s : State) : Prop := s.chip.parkedSides = []

/-! ## Memory as an access finds it -/

/-- Plain memory, and nobody waits. -/
def State.plain (s : State) : Prop := s.nobodyWaits ∧ s.plainMemory

/-- Nothing stands between a read and its bytes: no Update-only partials, no traced run, and the TVL link is up (R117, R280, R298). -/
def State.plainReads (s : State) : Prop :=
  (∀ e ∈ s.chip.cores, e.2.partials = []) ∧ (∀ e ∈ s.chip.runs, e.2.traced = false) ∧
    s.chip.link.retraining = none ∧ s.chip.link.down = false

/-- The context of a path has no frame window (R256), as a header whose line no core holds partials of says. -/
def State.noWindow (s : State) (h : Here) : Prop :=
  ∀ a, (s.chip.ctx h.ctx).area = some a →
    (∀ e ∈ s.chip.cores, e.2.partials = []) ∧ s.chip.link.retraining = none ∧ Memory.nat s.mem (a.pa + 0x28) 8 = 0

/-- No memory samples are taken for a path's context (R278). -/
def State.unsampled (s : State) (h : Here) : Prop := (s.chip.ctx h.ctx).sample = none

/-- Lanes with aligned global addresses that the path's core translates at once, lane `i` to `pa i` (R96, R112). -/
def State.reaches (s : State) (h : Here) (u : Use) (n : Nat) (ls : List (Nat × Addr)) (pa : Nat → Nat) : Prop :=
  s.noWindow h ∧ ∀ l ∈ ls, s.chip.region l.2 = .global ∧ l.2.toNat % n = 0 ∧
    s.chip.hit h.core h.runId h.ctx u l.2.toNat = some (pa l.1)

/-- Lanes bound to physical memory. -/
def placedLanes (ls : List (Nat × Addr)) (pa : Nat → Nat) : List LaneAcc := ls.map fun l => lane0 l.1 l.2 .memory (pa l.1) true

/-- Every pending access has found its physical bytes: no retired store still waits for a walk (R113). -/
def State.walked (s : State) : Prop := ∀ e ∈ s.chip.memq, ∀ x ∈ e.lanes, x.bound = true

/-- The acting path's core has the request-table entries that an access to some places needs (R115). -/
def State.hasRoom (s : State) (h : Here) (o : MemOp) : Prop := s.chip.requestRoom (slotCore h.g) (slotPart h.g) o.lines = true

/-- The state after an instruction of the acting path that retires and changes the chip by `f` and nothing else (R31, R35). -/
def State.onward (s : State) (h : Here) (F : Form) (f : Chip → Chip) : State :=
  { s with chip := f (s.chip.retire h F.len F.stall s.clk) }

/-- The chip with an access issued (R35). -/
def Chip.posted (c : Chip) (o : MemOp) : Chip := { c with memq := c.memq ++ [{ o with seq := c.seq }], seq := c.seq + 1 }

/-- A group's clock published and raised by 1 where an access releases (R152). -/
def Chip.published (c : Chip) (g : Nat) (rel : Bool) : Chip :=
  if rel then (c.setSlot g { c.slot g with clock := (c.slot g).clock + 1 }).modGroup g fun x => { x with relScope := 0 } else c

/-- A pending access that a home may now perform in plain memory: of a kind, not held, not acquiring, its lanes bound to
memory, each lane once (R126). -/
def State.ready (s : State) (seq : Nat) (o : MemOp) (kind : MemKind) : Prop :=
  s.plain ∧ s.Inv ∧ s.walked ∧ s.chip.op? seq = some o ∧ o.kind = kind ∧ o.held = false ∧ s.chip.mayPerform o = true ∧ o.acq = false ∧
    (∀ x ∈ o.lanes, x.space = .memory ∧ x.bound = true ∧ x.lane < 32) ∧ (o.lanes.map LaneAcc.lane).Nodup

/-- The pending accesses but one. -/
def Chip.dropped (c : Chip) (seq : Nat) : List MemOp := c.memq.filter fun e => e.seq ≠ seq

/-- Nothing of a chip changed but slots, pending accesses, marks and what homes keep of granules. -/
def homeOnly (c d : Chip) : Prop :=
  { d with slots := c.slots, memq := c.memq, seq := c.seq, marks := c.marks, poison := c.poison, lost := c.lost,
           recs := c.recs } = c

/-- Two tables agree but for some keys. -/
def agreesBut {α : Type} (a b : Map α) (ks : List Nat) : Prop := ∀ k, k ∉ ks → mget? a k = mget? b k

/-- The acting path has passed its instruction: it stands behind it, the instruction has retired, and time, the other slots and
every register of the group but those listed are as they were. -/
def State.goesOn (s t : State) (h : Here) (F : Form) (vd sd : List Nat) : Prop :=
  t.chip.path? h.g h.p = some (h.past F.len F.stall s.clk) ∧ s.retired t h 0 ∧ t.clk = s.clk ∧
    t.agenda = s.agenda ∧ t.actor = s.actor ∧ (∀ g, g ≠ h.g → t.chip.slot g = s.chip.slot g) ∧
    (∀ r l, l < 32 → r ∉ vd → t.vreg h.g r l = s.vreg h.g r l) ∧ (∀ r, r ∉ sd → t.sreg h.g r = s.sreg h.g r) ∧
    ∀ r, t.preg h.g r = s.preg h.g r

/-- The same, and memory as it was. -/
def State.passes (s t : State) (h : Here) (F : Form) (vd sd : List Nat) : Prop := s.goesOn t h F vd sd ∧ t.mem = s.mem

/-! ## Parking and resuming (R22) -/

/-- The acting path, without a stacked side, has parked on its instruction: it waits there, and no register and no memory
changed. -/
def State.parks (s t : State) (h : Here) (F : Form) (w : Wait) : Prop :=
  t.chip.path? h.g h.p = some { h.path with wait := some w, readyAt := s.clk + 1 + F.stall } ∧ s.sameRegs t h.g ∧
    t.mem = s.mem ∧ s.retired t h 0

/-- One side waits in the machine: the running side `x` of a path. -/
def State.waits (s : State) (k : Parked) (x : Path) : Prop :=
  s.chip.parkedSides = [k] ∧ k.side = none ∧ s.chip.path? k.g k.p = some x ∧ x.wait = some k.wait ∧ x.pc = k.pc ∧ x.mask = k.mask

/-- It has resumed past its instruction, and of its registers only those listed changed. -/
def State.resumes (s t : State) (k : Parked) (x : Path) (sd : List Nat) : Prop :=
  t.chip.path? k.g k.p = some { x with wait := none, pc := x.pc + 8 } ∧ (∀ r l, t.vreg k.g r l = s.vreg k.g r l) ∧
    (∀ r, r ∉ sd → t.sreg k.g r = s.sreg k.g r) ∧ ∀ r, t.preg k.g r = s.preg k.g r

/-! ## Edges -/

/-- An edge whose header an actor's core translates at once to `pa` and reads as `e`, in plain memory with the race mode OFF
(R226, R229). -/
def State.edgeAt (s : State) (who : Actor) (user : Bool) (va : Addr) (pa : Nat) (e : EdgeHdr) : Prop :=
  s.plainMemory ∧ s.Inv ∧ who.mode = 0 ∧ (∀ a, (s.chip.ctx who.ctx).area = some a → Memory.nat s.mem (a.pa + 0x28) 8 = 0) ∧
    s.chip.region va = .global ∧ va.toNat % 64 = 0 ∧ s.chip.hit who.core who.run who.ctx (Use.rmw user) va.toNat = some pa ∧
    EdgeHdr.of ((List.range 64).map fun i => Memory.read s.mem (pa + i)) = e ∧ e.bad = false

/-- An edge's slot that the actor's core translates at once to `sp`, apart from the header (R226). -/
def State.edgeSlot (s : State) (who : Actor) (u : Use) (va : Addr) (pa i sp : Nat) : Prop :=
  s.chip.hit who.core who.run who.ctx u (va.toNat + 64 + 8 * i) = some sp ∧ (sp + 8 ≤ pa ∨ pa + 64 ≤ sp)

/-- The header stands as `e`, and no byte outside its counters and the slot changed. -/
def State.edgeLeft (s t : State) (pa sp : Nat) (e : EdgeHdr) : Prop :=
  EdgeHdr.of ((List.range 64).map fun i => Memory.read t.mem (pa + i)) = e ∧
    ∀ a, (a < pa ∨ pa + 20 ≤ a) → (a < sp ∨ sp + 8 ≤ a) → Memory.read t.mem a = Memory.read s.mem a

/-! ## Leases, current and engines -/

/-- A cluster with no request waiting and room for one of `need` units (R183, R184). -/
def Cluster.roomFor (k : Cluster) (o : CqOwner) (need : Nat) (siding : Bool) : Prop :=
  k.reqs = [] ∧ k.holds o = false ∧ need ≠ 0 ∧ k.used + need ≤ k.budget ∧ (siding = true → k.sideUsed + need ≤ k.share)

/-- The cluster once it has been granted. -/
def Cluster.taking (k : Cluster) (o : CqOwner) (need : Nat) (siding : Bool) (prio now : Nat) : Cluster :=
  { k with reqs := [], grants := k.grants ++ [⟨o, need, siding, prio, now, false⟩] }

/-- What the core's MX reserves beside its lease's hold (R183, R184). -/
def Chip.standing (c : Chip) (core : Nat) : Nat :=
  cqSum ((c.cluster (coreCluster core)).grants.filter fun x => x.owner = .order core 0)

/-- A range whose pages an asynchronous operation's core translates at once, page by page to `pa`; none of it is poisoned. -/
def State.spans (s : State) (who : Actor) (u : Use) (va n : Nat) (pa : Nat → Nat) : Prop :=
  s.chip.globalRange va n = true ∧ ∀ p ∈ segments va n, s.chip.hit who.core who.run who.ctx u p.1 = some (pa p.1) ∧
    s.chip.poisoned (pa p.1) p.2 = false

/-- The pieces of such a range, and its bytes. -/
def piecesOf (va n : Nat) (pa : Nat → Nat) : List (Nat × Nat) := (segments va n).map fun p => (pa p.1, p.2)
def State.bytesAt (s : State) (ps : List (Nat × Nat)) : List Byte :=
  ps.flatMap fun p => (List.range p.2).map fun i => Memory.read s.mem (p.1 + i)

/-- The machine as an asynchronous operation of a context with the race mode OFF finds it. -/
def State.calm (s : State) (who : Actor) : Prop :=
  s.plain ∧ who.mode = 0 ∧ ∀ a, (s.chip.ctx who.ctx).area = some a → Memory.nat s.mem (a.pa + 0x28) 8 = 0

/-! ## The engine order -/

/-- A chip with an operation accepted into a core's engine order and its group's open set (R197, R198). -/
def Chip.accepting (c : Chip) (core g : Nat) (o : MatOp) : Chip :=
  let key := (c.core core).orderNext + 1
  (c.modCore core fun k => { k with orderNext := key, order := mset k.order key o }).modGroup g fun x =>
    { x with openSet := x.openSet ++ [key] }

/-- A core's engine order has room, and the acting team holds its MX (R186, R197). -/
def State.orderRoom (s : State) (h : Here) : Prop := ((s.chip.core h.core).order.filter fun e => e.2.status.isNone).length < 32
def State.holdsMx (s : State) (h : Here) : Prop :=
  ∃ uid l, s.chip.mxLease h.tid = some (uid, l) ∧ (l.state = .held ∨ l.state = .notice)

/-- An operand record of a team that an instruction takes, of a tag (R104). -/
def recordFits (units : Nat) (raw : BitVec 64) (ok : BitVec 4 → Bool) : Prop :=
  raw.getLsbD 63 = false ∧ (OpRec.of raw).len ≠ 0 ∧ (OpRec.of raw).tag ≠ 15 ∧ ok (OpRec.of raw).tag = true ∧
    (OpRec.of raw).endUnit ≤ units * 128

/-- An operation of a core's order in a machine in which nobody waits, its context's race mode OFF. -/
def State.orders (s : State) (core op : Nat) (o : MatOp) : Prop :=
  s.calm o.who ∧ o.who.core = core ∧ mget? (s.chip.core core).order op = some o

/-- Its turn has come, and the MX's standing reservation, or the room left, gives it its current (R184, R196). -/
def State.starts (s : State) (core op : Nat) (o : MatOp) : Prop :=
  let old := if o.kind.onMx then s.chip.standing core else 0
  s.orders core op o ∧ s.chip.matTurn core op s.clk o = true ∧
    (o.kind.need ≤ old ∨ (s.chip.cluster (coreCluster core)).roomFor (.order core op) (o.kind.need - old) false)

/-- A machine in which an operation of the order is now `o`, memory, groups and tiles as they were. -/
def State.orderGets (s t : State) (core op : Nat) (o : MatOp) : Prop :=
  t.mem = s.mem ∧ t.chip.slots = s.chip.slots ∧ (t.chip.core core).tiles = (s.chip.core core).tiles ∧
    mget? (t.chip.core core).order op = some o

/-- The adapters that the rows of an operation with .ad select (R202): its descriptor stands at `va` and passes its checks, the
matrices of every adapter that a row selects translate at once, and `ads` holds them; `bad` says whether some id names none.
`mv` is MV's column block. An operation without .ad has none. -/
def State.adapts (s : State) (o : MatOp) (va k : Nat) (mv : Option Nat) (rows : List Nat) (ads : List (Nat × Adapter)) (bad : Bool) :
    Prop :=
  if o.mods.getLsbD 3 = false then ads = [] ∧ bad = false
  else ∃ (dp : Nat → Nat) (ap : Nat → Nat → Nat) (bp : Nat → Nat → Nat → Nat),
    let u := Use.load o.who.user
    let b := s.bytesAt (piecesOf va 64 dp)
    let w := recNat b 0x18 4
    let count := recNat b 0x1C 4
    let k0 := if mv.isSome then 0 else recNat b 0x28 4
    let n0 := match mv with
      | some cb => 128 * cb
      | none => recNat b 0x2C 4
    let r := 4 * 2 ^ bits w 0 3
    let af := BitVec.ofNat 4 (bits w 4 4)
    let bf := BitVec.ofNat 4 (bits w 8 4)
    let id := fun i => (o.ids.getD i 0xFFFFFFFF).toNat
    let used := distinct ((rows.map id).filter fun a => a < count)
    let aAt := fun a => recNat b 0 8 + a * recNat b 0x10 4 + k0 * r * tagBytes af
    let bAt := fun a j => recNat b 8 8 + a * recNat b 0x14 4 + (j * recNat b 0x24 4 + n0) * tagBytes bf
    let aLen := k * r * tagBytes af
    let bLen := 128 * tagBytes bf
    va % 64 = 0 ∧ s.spans o.who u va 64 dp ∧
    (recNat b 0x10 4 % 16 = 0 ∧ recNat b 0x14 4 % 16 = 0 ∧ bits w 0 3 ≤ 4 ∧ bits w 3 1 = 0 ∧ bits w 12 20 = 0 ∧
      bits w 4 4 ∈ [4, 8, 9] ∧ bits w 8 4 ∈ [4, 8, 9] ∧ 1 ≤ count ∧ count ≤ 2 ^ 20 ∧ k0 + k ≤ recNat b 0x20 4 ∧
      n0 + 128 ≤ recNat b 0x24 4 ∧ ∀ x ∈ b.drop 0x30, x = 0) ∧
    (∀ a ∈ used, s.spans o.who u (aAt a) aLen (ap a) ∧ ∀ j, j < r → s.spans o.who u (bAt a j) bLen (bp a j)) ∧
    ads = (used.map fun a => (a, (⟨r, af, bf, s.bytesAt (piecesOf (aAt a) aLen (ap a)),
      (List.range r).map fun j => s.bytesAt (piecesOf (bAt a j) bLen (bp a j))⟩ : Adapter))) ∧
    bad = rows.any fun i => id i ≠ 0xFFFFFFFF && id i ≥ count

/-- An operation that has started, with what it will write and the words that its steps leave on the way (R185); `bad` says
whether an adapter id names none. -/
def MatOp.begun (o : MatOp) (now ends : Nat) (steps : List (Map Word)) (out : Map Word) (bad : Bool) : MatOp :=
  { o with read := true, startAt := some now, endsAt := ends, steps := steps, outTile := out, outStatus := if bad then 7 else 0 }

/-- An operation that has completed. -/
def MatOp.done (o : MatOp) : MatOp :=
  { o with steps := [], outTile := [], outBytes := [], outRegs := [], status := some o.outStatus, parked := none }

/-- Rows of a record in a core's scratch. -/
def Chip.recordRows (c : Chip) (who : Actor) (rcd : BitVec 64) (rows : List Nat) : List (Nat × List Byte) :=
  let r := OpRec.of rcd
  rows.map fun i => (i, (c.core who.core).bytes (c.teamLo who.tid + r.row i) r.rowBytes)

/-! ## Hardware's own accesses -/

/-- An address of a context that the base die and the distributors translate to `pa`, with nothing to set in its tables. -/
def State.mapped (s : State) (ctx : Nat) (write : Bool) (va pa : Nat) : Prop :=
  ∃ l, walk ctx ⟨!write, write, false, false⟩ va s.tx = .ok (.ok l, s.tx) ∧ bits l.bits 8 1 = 0 ∧ pa = l.pa + va % 2 ^ l.log2

/-- Memory now holds some bytes from `pa` on, and every other byte it held. -/
def State.stores (s t : State) (pa : Nat) (bs : List Byte) : Prop :=
  (∀ i, i < bs.length → Memory.read t.mem (pa + i) = bs.getD i 0) ∧
    ∀ a, a < pa ∨ pa + bs.length ≤ a → Memory.read t.mem a = Memory.read s.mem a

/-- A mark of a slot's groups that lies more than 2^14 behind the multiple of 2^14 which the slot's clock has crossed (R154). -/
def Chip.behind (c : Chip) (g : Nat) (m : BitVec 64) : Prop :=
  let crossed := ((c.slot g).clock.toNat / 2 ^ 14) * 2 ^ 14
  let d := (crossed + 2 ^ 16 - (markClk m).toNat) % 2 ^ 16
  markByGroup m = true ∧ agentSlot (BitVec.ofNat 20 (markAgent m)) = g ∧ 2 ^ 14 < d ∧ d < 2 ^ 15

/-- A mark that a run's LE left to age, as the same writer left it (R156). -/
def Run.leftBehind (r : Run) (k : Nat) (m : BitVec 64) : Prop := ∃ x, mget? r.toAge k = some x ∧ markWriter x = markWriter m

/-- The team that an uncorrectable error at a place kills (R121). -/
def Chip.eccTeam (c : Chip) (e : EccSite) : Option Nat :=
  match e with
  | .scratch k gran => c.scratchOwner k (16 * gran)
  | .group g => c.slotTeam g
  | .syncRequest g => c.slotTeam g
  | .tile k n => ((c.coreTeams k).find? fun t => t.2.tiles.contains n).map Prod.fst
  | .bslot k _ =>
    (c.leases.find? fun l => l.2.cls = 0 && l.2.place = k && (l.2.state = .held || l.2.state = .notice)).map fun l => l.2.tid
  | _ => none

/-- A die's counters of an ECC group after one more error, corrected or not. -/
def Chip.counted (c : Chip) (die grp : Nat) (corrected : Bool) : Chip :=
  c.modDie die fun d =>
    let n := (mget? d.ecc grp).getD (0, 0)
    { d with ecc := mset d.ecc grp (if corrected then (satInc n.1, n.2) else (n.1, satInc n.2)) }

/-! ## Launches and hooks -/

/-- A queue's record source and its slot as an actor's core translates them at once, each within a page: 256 bytes from `pa`
and from `sp`; the slot lies apart from the queue's TAIL (R236). -/
def State.enqAt (s : State) (who : Actor) (user : Bool) (e : Queue) (src : Addr) (pa sp : Nat) : Prop :=
  let tail := Memory.nat s.mem (e.hdr.toNat + 0x10) 4
  src.toNat % 4096 + 256 ≤ 4096 ∧ s.chip.hit who.core who.run who.ctx (Use.load user) src.toNat = some pa ∧
    s.chip.hit who.core who.run who.ctx (Use.store user) (e.ring.toNat + 256 * (tail % e.size)) = some sp ∧
    (sp + 256 ≤ e.hdr.toNat + 0x10 ∨ e.hdr.toNat + 0x14 ≤ sp)

/-- The record stands in the slot, TAIL has moved on, and no other byte changed; the queue keeps what the group knew (R143). -/
def State.enqueued (s t : State) (e : Queue) (pa sp : Nat) : Prop :=
  let hdr := e.hdr.toNat
  Memory.nat t.mem (hdr + 0x10) 4 = (Memory.nat s.mem (hdr + 0x10) 4 + 1) % 2 ^ 32 ∧
    (∀ i, i < 256 → Memory.read t.mem (sp + i) = Memory.read s.mem (pa + i)) ∧
    ∀ a, (a < sp ∨ sp + 256 ≤ a) → (a < hdr + 0x10 ∨ hdr + 0x14 ≤ a) → Memory.read t.mem a = Memory.read s.mem a

/-- Records that a queue holds: TAIL - HEAD, HEAD as the distributor counts it (R230). -/
def State.queued (s : State) (e : Queue) : Nat := (Memory.nat s.mem (e.hdr.toNat + 0x10) 4 + 2 ^ 32 - e.head) % 2 ^ 32

/-- A chip but for how long a rule has held its candidates' ages: every event that may change what R240 or R321 holds looks at
them again (R252). -/
def Chip.unpaused (c : Chip) : Chip :=
  { c with runs := c.runs.map fun e => (e.1, { e.2 with paused := 0, pausedSince := none })
           saved := c.saved.map fun e => (e.1, { e.2 with paused := 0, pausedSince := none }) }

/-- The marks of a second chip are those of a first, in global memory and in every scratchpad, but that those which a test on
their place and value admits are AGED; a scratch granule of a core stands at 2^60 + core × 2^30 + granule. Nothing else differs
but runs and slots. -/
def Chip.agesTo (c d : Chip) (old : Nat → BitVec 64 → Prop) : Prop :=
  let ages := fun (base : Nat) (m n : Map (BitVec 64)) => ∀ k,
    (mget? m k = none → mget? n k = none) ∧ ∀ x, mget? m k = some x →
      (old (base + k) x → mget? n k = some (agedMark x)) ∧ (¬ old (base + k) x → mget? n k = some x)
  ages 0 c.marks d.marks ∧
    (∀ i, ages (2 ^ 60 + i * 2 ^ 30) (c.core i).smarks (d.core i).smarks ∧ { d.core i with smarks := (c.core i).smarks } = c.core i) ∧
    { d with marks := c.marks, cores := c.cores, runs := c.runs, slots := c.slots } = c

/-- A cluster's box without one of its events. -/
def Cluster.without (k : Cluster) (e : HookEvent) : Cluster := { k with box := { k.box with events := k.box.events.erase e } }

/-- A cluster's box is `b` now; memory and every other table stay. -/
def State.boxGets (s t : State) (cl : Nat) (b : Box) : Prop :=
  t.mem = s.mem ∧ { t.chip with clusters := s.chip.clusters } = s.chip ∧ t.chip.cluster cl = { s.chip.cluster cl with box := b } ∧
    ∀ k, k ≠ cl → t.chip.cluster k = s.chip.cluster k

/-- A box has opened a phase of a call: its routine starts at 0 with no cycles spent (R242, R246). -/
def Box.opens (b : Box) (k : Call) : Prop :=
  b.call = some k ∧ ∃ f, b.phase = some f ∧ f.key = k.key ∧ f.pc = 0 ∧ f.cycles = 0 ∧ f.pick = none ∧ f.hint = none

/-! ## Encodings and the table of commands -/

/-- Whether an instruction is a Belino operation, whose words stand in routine images alone (R246). -/
def isBelino (i : Instr) : Bool :=
  match i with
  | .belinoLdi _ | .belinoMov _ | .belinoAdd _ | .belinoSub _ | .belinoAnd _ | .belinoOr _ | .belinoXor _ | .belinoShl _
  | .belinoShr _ | .belinoMin _ | .belinoMax _ | .belinoSel _ | .belinoCmplt _ | .belinoCmpeq _ | .belinoLdc _ | .belinoLdm _
  | .belinoStm _ | .belinoLoop _ | .belinoBrf _ | .belinoBrfZ _ | .belinoDec _ | .belinoExit _ => true
  | _ => false

/-- The commands that only the hypervisor's ring may give, with their OP and SUB (R300). -/
def hypCommands : List (Nat × Nat × (Cmd → Instr)) :=
  [(0x01, 0, .partcfg), (0x02, 0, .partreset), (0x03, 0, .ctxbind), (0x03, 1, .ctxfree), (0x04, 0, .preempt), (0x0D, 0, .vpsmap),
   (0x0F, 0, .sensclr), (0x14, 0, .evring)]

/-- The commands that a context's ring may give too, for its own context (R300). -/
def ownCommands : List (Nat × Nat × (Cmd → Instr)) :=
  [(0x05, 0, .qreg), (0x05, 1, .qstate), (0x06, 0, .traparea), (0x06, 1, .savepool), (0x07, 0, .root), (0x07, 1, .xlinv),
   (0x08, 0, .replay), (0x08, 1, .cancel), (0x09, 0, .barinit), (0x09, 1, .barinv), (0x0A, 0, .watchreg), (0x0B, 0, .rtnload),
   (0x0C, 0, .hold), (0x0C, 1, .resume), (0x0C, 2, .codeinv), (0x0C, 3, .sample), (0x0E, 0, .vpsreq), (0x0E, 1, .vpsquery),
   (0x10, 0, .energy), (0x11, 0, .attest), (0x12, 0, .resync), (0x13, 0, .wsdef), (0x13, 1, .wsnew), (0x13, 2, .wscommit),
   (0x13, 3, .wsdrop)]

/-! ## Management commands -/

/-- A ring's command that the chip is serving in plain memory: it stands at `pa`, its ring's header at `h`, and its word at
0x38 apart from HEAD (R299). -/
def State.serves (s : State) (ring pa h : Nat) : Prop :=
  s.plainMemory ∧ s.Inv ∧ s.chip.cmd = some ⟨ring, pa⟩ ∧ s.chip.ringHeader ring = some h ∧ (pa + 64 ≤ h + 8 ∨ h + 12 ≤ pa + 56)

/-- A command that passes the checks which all commands on a context share (R300, R301, R307). -/
def State.admits (s : State) (ring : Nat) (c : Cmd) (f : Fields) : Prop :=
  (ring = hypNum ∨ c.ctx = ring) ∧ c.headOk ⟨true, false, false⟩ = true ∧ c.fits f = true ∧ (s.chip.ctx c.ctx).state = .active

/-- An argument address whose `n` bytes stand from `pa` on: physical on the hypervisor's ring, else in one piece as the
context's tables map it (R301). -/
def argAt (y : Tx) (ring ctx : Nat) (write : Bool) (a n pa : Nat) : Prop :=
  if ring = hypNum then a + n ≤ 2 ^ 52 ∧ pa = a else hwBind ctx write a n y = .ok (.ok [(pa, n)], y)

/-- The pieces of physical memory at which an argument range stands (R301). -/
def piecesAt (y : Tx) (ring ctx : Nat) (write : Bool) (a n : Nat) (ps : List (Nat × Nat)) : Prop :=
  if ring = hypNum then a + n ≤ 2 ^ 52 ∧ ps = [(a, n)] else hwBind ctx write a n y = .ok (.ok ps, y)

/-- An argument range that must be one piece of physical memory, page by page (R255). -/
def blockAt (y : Tx) (ring ctx a n pa : Nat) : Prop :=
  if ring = hypNum then a + n ≤ 2 ^ 52 ∧ pa = a
  else n ≠ 0 ∧ hwBind ctx true a n y = .ok (.ok ((segments a n).map fun p => (pa + (p.1 - a), p.2)), y)

/-- The command has completed with a status and result: its word at 0x38 is written and HEAD counts it; `bs` stands from `out`
on, and every other byte and the time are as they were (R299). -/
def State.served (s t : State) (pa h status result out : Nat) (bs : List Byte) : Prop :=
  t.clk = s.clk ∧ Memory.nat t.mem (pa + 0x38) 8 = doneWord status result ∧
    Memory.nat t.mem (h + 8) 4 = (Memory.nat s.mem (h + 8) 4 + 1) % 2 ^ 32 ∧
    (∀ i, i < bs.length → Memory.read t.mem (out + i) = bs.getD i 0) ∧
    ∀ a, (a < pa + 0x38 ∨ pa + 0x40 ≤ a) → (a < h + 8 ∨ h + 12 ≤ a) → (a < out ∨ out + bs.length ≤ a) →
      Memory.read t.mem a = Memory.read s.mem a

/-- Bytes that a command writes lie apart from its word at 0x38 and from HEAD. -/
def apart (pa h out n : Nat) : Prop :=
  (out + n ≤ pa + 0x38 ∨ pa + 0x40 ≤ out) ∧ (out + n ≤ h + 8 ∨ h + 12 ≤ out)

/-- A chip is another but for what a write to memory clears: poison and lost records of the granules it covers. -/
def chipIs (d e : Chip) : Prop := { e with poison := d.poison, lost := d.lost } = d

end Sys2Proof.Machine
end

