-- ==== Sys2Proof/Certificates/Slice0/Obligations.lean ====
section
/-! DEFINITION. The statements for the provers, each citing the rules of spec/ that it formalises. -/

open Sys2Proof Sys2Proof.Machine

/-! ## Lane arithmetic -/

/-- ADD and SUB (R329, R412): in every lane of lanes() the sum or difference in the computing tag of the operands (R41, R43). -/
def Obligations.LaneAddSub : Prop :=
  ∀ (s : State) (h : Here) (tag : Nat → BitVec 4),
    let goes := fun (i : Instr) (sub : Bool) (F : Form) (d : Nat) (a b : Src) (rm : Rm) (sat : Bool) =>
      let res := fun l =>
        let m : FpMode := ⟨rm, sat && tag l ≠ tagADDR, h.ftz⟩
        if sub then laneSub m (tag l) (a.opnd h l) (b.opnd h l) else laneAdd m (tag l) (a.opnd h l) (b.opnd h l)
      s.mayIssue h (laneUses F d [a, b] []) →
      (∀ l, l < 32 → laneBit (h.lanes F.g) l → addTag (a.tag? h l) (b.tag? h l) = some (tag l)) →
      h.untrapped (flagsOf ((lanesOf (h.lanes F.g)).map fun l => (l, (res l).2))) → s.lanesGet h i F d tag res
    (∀ f, goes (.addCompact f) false (compactForm f) f.vd.toNat (compactA f) (compactB f) rmRne false) ∧
    (∀ f, goes (.subCompact f) true (compactForm f) f.vd.toNat (compactA f) (compactB f) rmRne false) ∧
    (∀ f, goes (.addBase f) false (baseForm f.stall) f.vd.toNat (trioA f) (trioB f) rmRne false) ∧
    (∀ f, goes (.subBase f) true (baseForm f.stall) f.vd.toNat (trioA f) (trioB f) rmRne false) ∧
    (∀ f, goes (.addi f) false (baseForm f.stall) f.vd.toNat (.v f.va.toNat) (.imm f.imm.toInt) rmRne false) ∧
    (∀ f, goes (.addX f) false (xFrame f) f.d.toNat (xA f) (xB f) f.rm (f.sat = 1)) ∧
    (∀ f, goes (.subX f) true (xFrame f) f.d.toNat (xA f) (xB f) f.rm (f.sat = 1))

/-- MUL, FMA, MULHI, ACS and DOT (R381, R363, R382, R328, R353): their results in the common tag of their operands, DOT's in
its accumulator's tag. -/
def Obligations.LaneProducts : Prop :=
  ∀ (s : State) (h : Here) (tag : Nat → BitVec 4),
    let goes := fun (i : Instr) (F : Form) (d : Nat) (srcs : List Src) (ok : BitVec 4 → Bool)
        (res : Nat → Nat × FpFlags) =>
      s.mayIssue h (laneUses F d srcs []) →
      (∀ l, l < 32 → laneBit (h.lanes F.g) l → commonTag h l srcs = some (tag l) ∧ ok (tag l)) →
      h.untrapped (flagsOf ((lanesOf (h.lanes F.g)).map fun l => (l, (res l).2))) → s.lanesGet h i F d tag res
    let mul := fun i F d a b rm sat => goes i F d [a, b] arithTag fun l =>
      laneMul ⟨rm, sat, h.ftz⟩ (tag l) (a.opnd h l) (b.opnd h l)
    let fma := fun i F d a b c rm sat => goes i F d [a, b, c] arithTag fun l =>
      laneFma ⟨rm, sat, h.ftz⟩ (tag l) (a.opnd h l) (b.opnd h l) (c.opnd h l)
    let dot := fun i F (d : Nat) a b rm sat =>
      let res := fun l => laneDot ⟨rm, sat, h.ftz⟩ (tag l) (h.v d l).bits.toNat (a.opnd h l) (b.opnd h l)
      s.mayIssue h (laneUses F d [a, b, .v d] []) →
      (∀ l, l < 32 → laneBit (h.lanes F.g) l → vectorTags h l [a, b] ≠ [] ∧ commonTag h l [a, b] = some (tag l) ∧
        dotAcc (tag l) = some (h.v d l).tag) →
      h.untrapped (flagsOf ((lanesOf (h.lanes F.g)).map fun l => (l, (res l).2))) →
      s.lanesGet h i F d (fun l => (h.v d l).tag) res
    (∀ f, mul (.mulCompact f) (compactForm f) f.vd.toNat (compactA f) (compactB f) rmRne false) ∧
    (∀ f, mul (.mulBase f) (baseForm f.stall) f.vd.toNat (trioA f) (trioB f) rmRne false) ∧
    (∀ f, mul (.mulX f) (xFrame f) f.d.toNat (xA f) (xB f) f.rm (f.sat = 1)) ∧
    (∀ f, fma (.fmaBase f) (baseForm f.stall) f.vd.toNat (trioA f) (trioB f) (.v f.vd.toNat) rmRne false) ∧
    (∀ f, fma (.fmaX f) (xFrame f) f.d.toNat (xA f) (xB f) (xC f) f.rm (f.sat = 1)) ∧
    (∀ f, goes (.mulhiX f) (xFrame f) f.d.toNat [xA f, xB f] tagIsInt fun l =>
      (laneMulhi (tag l) ((xA f).opnd h l) ((xB f).opnd h l), 0)) ∧
    (∀ f, goes (.acs f) (xFrame f) f.d.toNat [xA f, xB f, xC f] (fun t => tagIsInt t && tagWidth t ≠ 8) fun l =>
      (laneAcs (f.sat = 1) (tag l) ((xA f).raw h l) ((xB f).raw h l) ((xC f).raw h l), 0)) ∧
    (∀ f, dot (.dotBase f) (baseForm f.stall) f.vd.toNat (trioA f) (trioB f) rmRne false) ∧
    (∀ f, dot (.dotX f) (xFrame f) f.d.toNat (xA f) (xB f) f.rm (f.sat = 1))

/-- MIN, MAX, ABS and NEG (R373, R327, R385). -/
def Obligations.LaneMinMaxAbsNeg : Prop :=
  ∀ (s : State) (h : Here) (tag : Nat → BitVec 4),
    let goes := fun (i : Instr) (F : Form) (d : Nat) (srcs : List Src) (res : Nat → Nat × FpFlags) =>
      s.mayIssue h (laneUses F d srcs []) →
      (∀ l, l < 32 → laneBit (h.lanes F.g) l → commonTag h l srcs = some (tag l) ∧ arithTag (tag l)) →
      h.untrapped (flagsOf ((lanesOf (h.lanes F.g)).map fun l => (l, (res l).2))) → s.lanesGet h i F d tag res
    let pick := fun isMax i F d a b => goes i F d [a, b] fun l =>
      laneMinMax isMax ⟨rmRne, false, h.ftz⟩ (tag l) (a.opnd h l) (b.opnd h l)
    let abs := fun i F d (a : Src) sat => goes i F d [a] fun l => (laneAbs sat (tag l) (a.raw h l), 0)
    let neg := fun i F d (a : Src) sat => goes i F d [a] fun l => (laneNeg sat (tag l) (a.raw h l), 0)
    (∀ f, pick false (.minCompact f) (compactForm f) f.vd.toNat (compactA f) (compactB f)) ∧
    (∀ f, pick true (.maxCompact f) (compactForm f) f.vd.toNat (compactA f) (compactB f)) ∧
    (∀ f, pick false (.minBase f) (baseForm f.stall) f.vd.toNat (trioA f) (trioB f)) ∧
    (∀ f, pick true (.maxBase f) (baseForm f.stall) f.vd.toNat (trioA f) (trioB f)) ∧
    (∀ f, pick false (.minX f) (xFrame f) f.d.toNat (xA f) (xB f)) ∧
    (∀ f, pick true (.maxX f) (xFrame f) f.d.toNat (xA f) (xB f)) ∧
    (∀ f, abs (.absCompact f) (compactForm f) f.vd.toNat (compactB f) false) ∧
    (∀ f, abs (.absX f) (xFrame f) f.d.toNat (xA f) (f.sat = 1)) ∧
    (∀ f, neg (.negCompact f) (compactForm f) f.vd.toNat (compactB f) false) ∧
    (∀ f, neg (.negX f) (xFrame f) f.d.toNat (xA f) (f.sat = 1))

/-- AND, OR, XOR and NOT on the 32 bits of each lane, whatever the tags: the common tag stays, differing tags give RAW
(R331, R387, R386, R42). -/
def Obligations.LaneLogic : Prop :=
  ∀ (s : State) (h : Here),
    let goes := fun (op : Nat → Nat → Nat) (i : Instr) (F : Form) (d : Nat) (a b : Src) =>
      s.mayIssue h (laneUses F d [a, b] []) →
      s.lanesGet h i F d (fun l => logicTag h l [a, b]) fun l => (op (a.raw h l) (b.raw h l), 0)
    let not := fun (i : Instr) (F : Form) (d : Nat) (a : Src) =>
      s.mayIssue h (laneUses F d [a] []) →
      s.lanesGet h i F d (fun l => logicTag h l [a]) fun l => (2 ^ 32 - 1 - a.raw h l, 0)
    (∀ f, goes (· &&& ·) (.andCompact f) (compactForm f) f.vd.toNat (compactA f) (compactB f)) ∧
    (∀ f, goes (· ||| ·) (.orCompact f) (compactForm f) f.vd.toNat (compactA f) (compactB f)) ∧
    (∀ f, goes (· ^^^ ·) (.xorCompact f) (compactForm f) f.vd.toNat (compactA f) (compactB f)) ∧
    (∀ f, goes (· &&& ·) (.andBase f) (baseForm f.stall) f.vd.toNat (trioA f) (trioB f)) ∧
    (∀ f, goes (· ||| ·) (.orBase f) (baseForm f.stall) f.vd.toNat (trioA f) (trioB f)) ∧
    (∀ f, goes (· ^^^ ·) (.xorBase f) (baseForm f.stall) f.vd.toNat (trioA f) (trioB f)) ∧
    (∀ f, goes (· &&& ·) (.andi f) (baseForm f.stall) f.vd.toNat (.v f.va.toNat) (.imm f.imm.toNat)) ∧
    (∀ f, goes (· ||| ·) (.ori f) (baseForm f.stall) f.vd.toNat (.v f.va.toNat) (.imm f.imm.toNat)) ∧
    (∀ f, goes (· &&& ·) (.andX f) (xFrame f) f.d.toNat (xA f) (xB f)) ∧
    (∀ f, goes (· ||| ·) (.orX f) (xFrame f) f.d.toNat (xA f) (xB f)) ∧
    (∀ f, goes (· ^^^ ·) (.xorX f) (xFrame f) f.d.toNat (xA f) (xB f)) ∧
    (∀ f, not (.notCompact f) (compactForm f) f.vd.toNat (compactB f)) ∧
    (∀ f, not (.notX f) (xFrame f) f.d.toNat (xA f))

/-- SHL, SHR, BFE, BFI and BREV (R402, R336, R341): shifts element by element in A's layout, bit fields over the 32 bits. -/
def Obligations.LaneShifts : Prop :=
  ∀ (s : State) (h : Here),
    let goes := fun (i : Instr) (F : Form) (d : Nat) (srcs : List Src) (res : Nat → Nat) =>
      s.mayIssue h (laneUses F d srcs []) →
      s.lanesGet h i F d (fun l => logicTag h l srcs) fun l => (res l, 0)
    let shl := fun i F d (a b : Src) => goes i F d [a, b] fun l => laneShl (layoutTag h l a b) (a.raw h l) (b.opnd h l)
    let shr := fun i F d (a b : Src) => goes i F d [a, b] fun l => laneShr (layoutTag h l a b) (a.raw h l) (b.opnd h l)
    (∀ f, shl (.shlCompact f) (compactForm f) f.vd.toNat (compactA f) (compactB f)) ∧
    (∀ f, shr (.shrCompact f) (compactForm f) f.vd.toNat (compactA f) (compactB f)) ∧
    (∀ f, shl (.shlBase f) (baseForm f.stall) f.vd.toNat (trioA f) (trioB f)) ∧
    (∀ f, shr (.shrBase f) (baseForm f.stall) f.vd.toNat (trioA f) (trioB f)) ∧
    (∀ f, shl (.shli f) (baseForm f.stall) f.vd.toNat (.v f.va.toNat) (.imm f.imm.toNat)) ∧
    (∀ f, shr (.shri f) (baseForm f.stall) f.vd.toNat (.v f.va.toNat) (.imm f.imm.toNat)) ∧
    (∀ f, shl (.shlX f) (xFrame f) f.d.toNat (xA f) (xB f)) ∧
    (∀ f, shr (.shrX f) (xFrame f) f.d.toNat (xA f) (xB f)) ∧
    (∀ f, goes (.bfe f) (xFrame f) f.d.toNat [xA f, xB f] fun l =>
      laneBfe (layoutTag h l (xA f) (xB f) = tagI32) ((xA f).raw h l) ((xB f).raw h l)) ∧
    (∀ f, goes (.bfi f) (xFrame f) f.d.toNat [xA f, xB f, xC f] fun l =>
      laneBfi ((xA f).raw h l) ((xB f).raw h l) ((xC f).raw h l)) ∧
    (∀ f, goes (.brev f) (xFrame f) f.d.toNat [xA f] fun l => revBits 32 ((xA f).raw h l))

/-- MOV, MOVI, SEL, RETAG, POPC and CLZ (R377, R378, R400, R399, R393, R345). -/
def Obligations.LaneMoves : Prop :=
  ∀ (s : State) (h : Here),
    let goes := fun (i : Instr) (F : Form) (d : Nat) (srcs : List Src) (ps : List Nat) (tag : Nat → BitVec 4) (res : Nat → Nat) =>
      s.mayIssue h (laneUses F d srcs ps) → s.lanesGet h i F d tag fun l => (res l, 0)
    let mov := fun i F d (a : Src) => goes i F d [a] [] (fun l => (a.tag? h l).getD tagI32) fun l => a.raw h l
    let sel := fun i F d p neg (a b : Src) =>
      let pick := fun l => (h.pr p).getLsbD l != neg
      goes i F d [a, b] [p]
        (fun l => if pick l then ((a.tag? h l) <|> (b.tag? h l)).getD tagI32 else ((b.tag? h l) <|> (a.tag? h l)).getD tagI32)
        fun l => if pick l then a.raw h l else b.raw h l
    let count := fun i F d (a : Src) (n : Nat → Nat) => goes i F d [a] [] (fun _ => tagN32) fun l => n (a.raw h l)
    (∀ f, mov (.movCompact f) (compactForm f) f.vd.toNat (compactB f)) ∧
    (∀ f, f.dIsS = 0 → mov (.movGeneral f) (baseForm f.stall) f.d.toNat (if f.aIsS = 1 then .s f.a.toNat else .v f.a.toNat)) ∧
    (∀ f, mov (.movX f) (xFrame f) f.d.toNat (xA f)) ∧
    (∀ f, goes (.moviBase f) (baseForm f.stall) f.vd.toNat [] [] (fun _ => tagI32)
      fun _ => (f.imm.signExtend 32).toNat) ∧
    (∀ f, f.a.getLsbD 4 = false → goes (.moviX f) (xFrame f) f.d.toNat [] [] (fun _ => f.a.extractLsb' 0 4)
      fun _ => ((f.c ++ f.b).signExtend 32).toNat) ∧
    (∀ f, f.a.getLsbD 4 = true → goes (.moviX f) (xFrame f) f.d.toNat [.v f.d.toNat] [] (fun _ => f.a.extractLsb' 0 4)
      fun l => (f.c ++ f.b).toNat * 2 ^ 16 + (h.v f.d.toNat l).bits.toNat % 2 ^ 16) ∧
    (∀ f, sel (.selCompact f) (compactForm f) f.vd.toNat 0 false (compactB f) (compactA f)) ∧
    (∀ f, sel (.selBase f) (baseForm f.stall) f.vd.toNat 0 false (trioA f) (trioB f)) ∧
    (∀ f, sel (.selX f) (xFrame f) f.d.toNat (f.c.toNat % 8) (f.c.getLsbD 3) (xA f) (xB f)) ∧
    (∀ f, goes (.retag f) (xFrame f) f.d.toNat [xA f] [] (fun _ => f.b.extractLsb' 0 4) fun l => (xA f).raw h l) ∧
    (∀ f, count (.popcCompact f) (compactForm f) f.vd.toNat (compactB f) (popCount 32)) ∧
    (∀ f, count (.popcX f) (xFrame f) f.d.toNat (xA f) (popCount 32)) ∧
    (∀ f, count (.clzX f) (xFrame f) f.d.toNat (xA f) clz32)

/-- PACK, UNPACK, CVT and the transcendentals (R388, R389, R351, R352, R395, R359, R349). -/
def Obligations.LaneConversions : Prop :=
  ∀ (s : State) (h : Here),
    let goes := fun (i : Instr) (F : Form) (d : Nat) (srcs : List Src) (ok : Nat → Prop) (tag : Nat → BitVec 4)
        (res : Nat → Nat × FpFlags) =>
      s.mayIssue h (laneUses F d srcs []) → (∀ l, l < 32 → laneBit (h.lanes F.g) l → ok l) →
      h.untrapped (flagsOf ((lanesOf (h.lanes F.g)).map fun l => (l, (res l).2))) → s.lanesGet h i F d tag res
    let trans := fun (i : XF → Instr) (fn : Nat) => ∀ f : XF,
      let t := fun l => ((xA f).tag? h l).getD tagF32
      goes (i f) (xFrame f) f.d.toNat [xA f] (fun l => t l = tagF32 ∨ t l = tagF16) t
        fun l => laneTrans fn ⟨f.rm, false, h.ftz⟩ (t l) ((xA f).raw h l)
    (∀ (f : XF) (t : Nat → BitVec 4),
      let dt := f.c.extractLsb' 0 4
      goes (.pack f) (xFrame f) f.d.toNat [xA f, xB f] (fun l => commonTag h l [xA f, xB f] = some (t l) ∧ packPairs (t l) dt)
        (fun _ => dt) fun l => lanePack ⟨f.rm, f.sat = 1, h.ftz⟩ (t l) dt ((xA f).raw h l) ((xB f).raw h l)) ∧
    (∀ f : XF,
      let dt := f.c.extractLsb' 0 4
      let t := fun l => ((xA f).tag? h l).getD tagI32
      goes (.unpack f) (xFrame f) f.d.toNat [xA f] (fun l => unpackPairs (t l) dt) (fun _ => dt)
        fun l => laneUnpack h.ftz (t l) dt (f.c.getLsbD 4) ((xA f).raw h l)) ∧
    (∀ f : XF,
      let ctl := (f.c ++ f.b).toNat
      let dt := BitVec.ofNat 4 ctl
      let t := fun l => ((xA f).tag? h l).getD tagI32
      let conv := fun l => convertElem (t l) dt f.rm (f.sat = 1) h.ftz (elem (tagWidth (t l)) (bits ctl 4 3) ((xA f).raw h l))
      goes (.cvt f) (xFrame f) f.d.toNat ([xA f] ++ if tagCount dt > 1 then [.v f.d.toNat] else [])
        (fun l => t l ≠ tagRAW ∧ t l ≠ tagADDR ∧ bits ctl 4 3 < tagCount (t l)) (fun _ => dt)
        fun l => (if tagCount dt = 1 then (conv l).1 else setElem (tagWidth dt) (bits ctl 7 3) (h.v f.d.toNat l).bits.toNat (conv l).1,
          (conv l).2)) ∧
    trans .rcp 0 ∧ trans .rsq 1 ∧ trans .exp2 2 ∧ trans .log2 3 ∧ trans .sin 4 ∧ trans .cos 5

/-! ## Scalar arithmetic -/

/-- SALU and SLI: Sd takes the operation's result on Sd and Sa modulo 2^32, and nothing else changes (R54, R330, R345, R373,
R377, R381, R382, R385 to R387, R393, R403, R405, R412). -/
def Obligations.ScalarBase : Prop :=
  ∀ (s : State) (h : Here), h.mask ≠ 0 →
    let two := fun (i : SsF → Instr) (op : Word → Word → Word) => ∀ f : SsF,
      s.mayIssue h ⟨[], [], [f.sd.toNat, f.sa.toNat], [f.sd.toNat], [], []⟩ →
      s.scalarGets h (i f) (baseForm f.stall) f.sd.toNat (op (h.s f.sd.toNat) (h.s f.sa.toNat))
    let one := fun (i : SsF → Instr) (op : Word → Word) => ∀ f : SsF,
      s.mayIssue h ⟨[], [], [f.sa.toNat], [f.sd.toNat], [], []⟩ →
      s.scalarGets h (i f) (baseForm f.stall) f.sd.toNat (op (h.s f.sa.toNat))
    two .addSalu (· + ·) ∧ two .subSalu (· - ·) ∧ two .mulSalu (· * ·) ∧ two .andSalu (· &&& ·) ∧ two .orSalu (· ||| ·) ∧
    two .xorSalu (· ^^^ ·) ∧ two .shlSalu (fun a b => a <<< (b.toNat % 32)) ∧ two .shrSalu (fun a b => a >>> (b.toNat % 32)) ∧
    two .sraSalu (fun a b => a.sshiftRight (b.toNat % 32)) ∧ two .minSalu (fun a b => if b.slt a then b else a) ∧
    two .maxSalu (fun a b => if a.slt b then b else a) ∧
    two .mulhiSalu (fun a b => BitVec.ofInt 32 (a.toInt * b.toInt / 2 ^ 32)) ∧
    one .movSalu (fun a => a) ∧ one .notSalu (fun a => ~~~a) ∧ one .negSalu (fun a => 0 - a) ∧
    one .clzSalu (fun a => BitVec.ofNat 32 (clz32 a.toNat)) ∧ one .popcSalu (fun a => BitVec.ofNat 32 (popCount 32 a.toNat)) ∧
    (∀ f : SiF, s.mayIssue h ⟨[], [], [], [f.sd.toNat], [], []⟩ →
      s.scalarGets h (.sli f) (baseForm f.stall) f.sd.toNat (f.imm.signExtend 32)) ∧
    (∀ f : GmovF, f.dIsS = 1 → f.aIsS = 1 → s.mayIssue h ⟨[], [], [f.a.toNat], [f.d.toNat], [], []⟩ →
      s.scalarGets h (.movGeneral f) (baseForm f.stall) f.d.toNat (h.s f.a.toNat)) ∧
    (∀ f : GmovF, f.dIsS = 1 → f.aIsS = 0 → s.mayIssue h ⟨[f.a.toNat], [], [], [f.d.toNat], [], []⟩ →
      s.scalarGets h (.movGeneral f) (baseForm f.stall) f.d.toNat (h.v f.a.toNat (lowLane h.mask)).bits)

/-- XSCALAR minors 0 to 16: the same operations on Sa and Sb or a sign-extended immediate, once for the group when any active
lane's guard is true (R56, R325). -/
def Obligations.ScalarExtended : Prop :=
  ∀ (s : State) (h : Here) (f : ScalarF), h.lanes f.g ≠ 0 →
    let b : Word := if f.imm = 1 then (f.c ++ f.b).signExtend 32 else h.s f.b.toNat
    let a : Word := h.s f.sa.toNat
    let two := fun (i : ScalarF → Instr) (v : Word) =>
      s.mayIssue h ⟨[], [], f.sa.toNat :: (if f.imm = 1 then [] else [f.b.toNat]), [f.sd.toNat], guardPs f.g, []⟩ →
      s.scalarGets h (i f) (xForm f.stall f.g) f.sd.toNat v
    let one := fun (i : ScalarF → Instr) (v : Word) =>
      s.mayIssue h ⟨[], [], [f.sa.toNat], [f.sd.toNat], guardPs f.g, []⟩ →
      s.scalarGets h (i f) (xForm f.stall f.g) f.sd.toNat v
    two .addXscalar (a + b) ∧ two .subXscalar (a - b) ∧ two .mulXscalar (a * b) ∧ two .andXscalar (a &&& b) ∧
    two .orXscalar (a ||| b) ∧ two .xorXscalar (a ^^^ b) ∧ two .shlXscalar (a <<< (b.toNat % 32)) ∧
    two .shrXscalar (a >>> (b.toNat % 32)) ∧ two .sraXscalar (a.sshiftRight (b.toNat % 32)) ∧
    two .minXscalar (if b.slt a then b else a) ∧ two .maxXscalar (if a.slt b then b else a) ∧
    two .mulhiXscalar (BitVec.ofInt 32 (a.toInt * b.toInt / 2 ^ 32)) ∧ one .movXscalar a ∧ one .notXscalar (~~~a) ∧
    one .negXscalar (0 - a) ∧ one .clzXscalar (BitVec.ofNat 32 (clz32 a.toNat)) ∧
    one .popcXscalar (BitVec.ofNat 32 (popCount 32 a.toNat))

/-! ## Predicates and lanes -/

/-- CMP, PLOP, PMOV and VOTE (R346, R391, R392, R417): the bits of Pd that lanes() govern, or a scalar register. -/
def Obligations.Predicates : Prop :=
  ∀ (s : State) (h : Here) (f : XF),
    let F := xFrame f
    let d := f.d.toNat % 8
    let a := f.a.toNat % 8
    let L := h.lanes f.g
    let votes := fun (mode : Nat) => f.c.toNat % 8 = mode
    let count := h.pr a &&& L
    let yes : Prop := (votes 0 ∧ count ≠ 0) ∨ (votes 1 ∧ count = L) ∨ (votes 2 ∧ count = 0) ∨ (votes 3 ∧ count ≠ 0) ∨
      (votes 4 ∧ ∀ l, l < 32 → laneBit L l → (h.v f.a.toNat l).bits = (h.v f.a.toNat (lowLane L)).bits)
    let voteUses := fun (sd pd : List Nat) => (⟨if f.c.toNat % 8 = 4 then [f.a.toNat] else [], [], [], sd,
      guardPs f.g ++ (if f.c.toNat % 8 = 4 then [] else [a]), pd⟩ : Uses)
    (∀ tag : Nat → BitVec 4,
      let r := fun l => laneCmp (f.d.toNat / 8 % 16) h.ftz (tag l) ((xA f).opnd h l) ((xB f).opnd h l)
      s.mayIssue h ⟨(xA f).vs ++ (xB f).vs, [], (xA f).ss ++ (xB f).ss, [], guardPs f.g ++ [], [d]⟩ →
      (∀ l, l < 32 → laneBit L l → commonTag h l [xA f, xB f] = some (tag l) ∧
        (tag l = tagI32 ∨ tag l = tagN32 ∨ tag l = tagF32)) →
      h.untrapped (flagsOf ((lanesOf L).map fun l => (l, (r l).2))) →
      s.predGets h (.cmp f) F d (fun l => (r l).1) (flagsOf ((lanesOf L).map fun l => (l, (r l).2)))) ∧
    (s.mayIssue h ⟨[], [], [], [], guardPs f.g ++ [a, f.b.toNat % 8], [d]⟩ →
      s.predGets h (.plop f) F d
        (fun l => f.c.getLsbD ((if (h.pr a).getLsbD l then 2 else 0) + (if (h.pr (f.b.toNat % 8)).getLsbD l then 1 else 0))) 0) ∧
    (f.cl.getLsbD 0 = true → L ≠ 0 → s.mayIssue h ⟨[], [], [], [f.d.toNat], guardPs f.g ++ [a], []⟩ →
      s.scalarGets h (.pmov f) F f.d.toNat (h.pr a)) ∧
    (f.cl.getLsbD 0 = false → f.cl.getLsbD 1 = true → s.mayIssue h ⟨[], [], [f.a.toNat], [], guardPs f.g ++ [], [d]⟩ →
      s.predGets h (.pmov f) F d (fun l => (h.s f.a.toNat).getLsbD l) 0) ∧
    (f.cl.getLsbD 0 = false → f.cl.getLsbD 1 = false → s.mayIssue h ⟨[], [], [], [], guardPs f.g ++ [a], [d]⟩ →
      s.predGets h (.pmov f) F d (fun l => (h.pr a).getLsbD l) 0) ∧
    (f.cl.getLsbD 0 = true → f.c.toNat % 8 ≤ 4 → s.mayIssue h (voteUses [f.d.toNat] []) →
      (yes → f.c.toNat % 8 ≠ 3 → s.scalarGets h (.vote f) F f.d.toNat 1) ∧ (¬ yes → s.scalarGets h (.vote f) F f.d.toNat 0) ∧
      (votes 3 → s.scalarGets h (.vote f) F f.d.toNat count)) ∧
    (f.cl.getLsbD 0 = false → f.c.toNat % 8 ≤ 4 → s.mayIssue h (voteUses [] [d]) →
      (yes → s.predGets h (.vote f) F d (fun _ => true) 0) ∧ (¬ yes → s.predGets h (.vote f) F d (fun _ => false) 0))

/-- SHFL, LGET, LPUT and XRED (R401, R372, R418, R419): exchanges between lanes and reductions over lanes(). -/
def Obligations.CrossLane : Prop :=
  ∀ (s : State) (h : Here) (f : XF),
    let F := xFrame f
    let a := f.a.toNat
    let d := f.d.toNat
    let L := h.lanes f.g
    let k := fun l => (xB f).raw h l % 32
    let want := fun l : Nat => if f.rm = 0 then (k l : Int) else if f.rm = 1 then (l : Int) - k l
      else if f.rm = 2 then (l : Int) + k l else (l ^^^ k l : Nat)
    let src := fun l => if 0 ≤ want l ∧ want l ≤ 31 ∧ laneBit h.mask (want l).toNat then (want l).toNat else l
    let op := f.c.toNat % 16
    let m : FpMode := ⟨f.rm, f.sat = 1, h.ftz⟩
    let leaves := (List.range 32).map fun l => if laneBit L l then some (h.v a l).bits.toNat else none
    let ends := fun (fl : FpFlags) (vd sd : List Nat) (t : State) =>
      t.chip.path? h.g h.p = some (h.past F.len F.stall s.clk) ∧ s.keepsBut t h vd sd [] ∧
        s.retired t h fl
    (s.mayIssue h ⟨[a] ++ (xB f).vs, [d], (xB f).ss, [], guardPs f.g, []⟩ →
      ∃ t, exec (.shfl f) s = .next t ∧ ends 0 [d] [] t ∧
        ∀ l, l < 32 → t.vreg h.g d l = if laneBit L l then h.v a (src l) else s.vreg h.g d l) ∧
    (L ≠ 0 → s.mayIssue h ⟨[a], [], pickSs f, [d], guardPs f.g, []⟩ →
      s.scalarGets h (.lget f) F d (h.v a (pickLane h f)).bits) ∧
    (L ≠ 0 → pickLane h f < 32 → s.mayIssue h ⟨[], [d], a :: pickSs f, [], guardPs f.g, []⟩ →
      ∃ t, exec (.lput f) s = .next t ∧ ends 0 [d] [] t ∧
        ∀ l, l < 32 → t.vreg h.g d l = if l = pickLane h f then ⟨h.s a, tagI32⟩ else s.vreg h.g d l) ∧
    (∀ tag : BitVec 4, L ≠ 0 → (∀ l, l < 32 → laneBit L l → (h.v a l).tag = tag) → xredTag op tag →
      (op ≠ 6 → op ≠ 7 →
        let r := xredValue op m tag leaves
        h.untrapped r.2 →
        (f.cl.getLsbD 0 = true → s.mayIssue h ⟨[a], [], [], [d], guardPs f.g, []⟩ →
          ∃ t, exec (.xred f) s = .next t ∧ ends r.2 [] [d] t ∧ t.sreg h.g d = BitVec.ofNat 32 r.1) ∧
        (f.cl.getLsbD 0 = false → s.mayIssue h ⟨[a], [d], [], [], guardPs f.g, []⟩ →
          ∃ t, exec (.xred f) s = .next t ∧ ends r.2 [d] [] t ∧
            ∀ l, l < 32 → t.vreg h.g d l = if laneBit L l then ⟨BitVec.ofNat 32 r.1, tag⟩ else s.vreg h.g d l)) ∧
      (op = 6 ∨ op = 7 →
        let r := xredIndex (op = 7) m tag leaves
        h.untrapped r.2.2 →
        (f.cl.getLsbD 0 = true → s.mayIssue h ⟨[a], [], [], [d, d + 1], guardPs f.g, []⟩ →
          ∃ t, exec (.xred f) s = .next t ∧ ends r.2.2 [] [d, d + 1] t ∧ t.sreg h.g d = BitVec.ofNat 32 r.1 ∧
            t.sreg h.g (d + 1) = BitVec.ofNat 32 r.2.1) ∧
        (f.cl.getLsbD 0 = false → s.mayIssue h ⟨[a], [d, d + 1], [], [], guardPs f.g, []⟩ →
          ∃ t, exec (.xred f) s = .next t ∧ ends r.2.2 [d, d + 1] [] t ∧
            ∀ l, l < 32 →
              t.vreg h.g d l = (if laneBit L l then ⟨BitVec.ofNat 32 r.1, tag⟩ else s.vreg h.g d l) ∧
              t.vreg h.g (d + 1) l =
                (if laneBit L l then ⟨BitVec.ofNat 32 r.2.1, tagN32⟩ else s.vreg h.g (d + 1) l))))

/-! ## Control flow -/

/-- STALL, BRA, CALL, BRP on the whole path, BR, JMP and RET (R410, R340, R343, R342, R339, R365, R398): where the path goes,
and the link that CALL and a linking JMP leave in S158:S159. -/
def Obligations.Branches : Prop :=
  ∀ (s : State) (h : Here),
    let away := fun {n : Nat} (off : BitVec n) => h.path.pc + 2 * off.signExtend 64
    (∀ f : StallF, s.mayIssue h Uses.none →
      s.goesTo h (.stall f) (h.path.pc + 4) (f.stall.toNat + f.n.toNat) [] 0) ∧
    (∀ f : BrF, s.mayIssue h Uses.none → s.goesTo h (.bra f) (away f.off) f.stall.toNat [] 0) ∧
    (∀ f : BrF, s.mayIssue h { Uses.none with sd := [158, 159] } →
      s.goesTo h (.call f) (away f.off) f.stall.toNat [158, 159] (h.path.pc + 4)) ∧
    (∀ f : BpF, s.mayIssue h { Uses.none with ps := [f.p.toNat] } →
      let m := h.pr f.p.toNat &&& h.mask
      let goes := fun pc => s.goesTo h (.brp f) pc f.stall.toNat [] 0
      (f.mode = 0 → goes (if m ≠ 0 then away f.off else h.path.pc + 4)) ∧
      (f.mode = 1 → goes (if m = h.mask then away f.off else h.path.pc + 4)) ∧
      (f.mode = 2 → goes (if m = 0 then away f.off else h.path.pc + 4)) ∧
      (f.mode = 3 → m = 0 → goes (h.path.pc + 4)) ∧
      (f.mode = 3 → m ≠ 0 → m = h.mask ∨ away f.off = h.path.pc + 4 → goes (away f.off))) ∧
    (∀ f : BrXF, h.lanes f.g ≠ 0 →
      s.mayIssue h { Uses.none with ss := f.sa.toNat :: (if f.imm = 1 then [] else [f.sb.toNat]), ps := guardPs f.g } →
      let a : Word := h.s f.sa.toNat
      let b : Word := if f.imm = 1 then f.sb.signExtend 32 else h.s f.sb.toNat
      let goes := fun (cond : Nat) (hit : Bool) => f.cond.toNat = cond →
        s.goesTo h (.br f) (if hit then away f.off else h.path.pc + 8) f.stall.toNat [] 0
      goes 0 (a = b) ∧ goes 1 (a ≠ b) ∧ goes 2 (a.slt b) ∧ goes 3 (!a.slt b) ∧ goes 4 (a.ult b) ∧ goes 5 (!a.ult b)) ∧
    (∀ f : JmpF, h.lanes f.g ≠ 0 →
      let dest := h.pair f.sa.toNat
      dest.getLsbD 0 = false → dest.toNat < 0xFF * 2 ^ 48 →
      (f.l = 0 → s.mayIssue h { Uses.none with ss := [f.sa.toNat, f.sa.toNat + 1], ps := guardPs f.g } →
        s.goesTo h (.jmp f) dest f.stall.toNat [] 0) ∧
      (f.l = 1 → s.mayIssue h { Uses.none with ss := [f.sa.toNat, f.sa.toNat + 1], sd := [158, 159], ps := guardPs f.g } →
        s.goesTo h (.jmp f) dest f.stall.toNat [158, 159] (h.path.pc + 8)) ∧
      (s.mayIssue h { Uses.none with ss := [f.sa.toNat, f.sa.toNat + 1], ps := guardPs f.g } →
        s.goesTo h (.ret f) dest f.stall.toNat [] 0))

/-- A per-lane branch whose lanes part splits the path: the lanes taken stand at the target and the others past the branch,
in a free entry of the path table; with none free, and at handler level, the higher side goes on the stack (R21, R52, R259,
R342).

PATH_HOLD_EXEMPT, SIDE_RELEASE_SWAP and PATH_HOLD_STOP (R22, R276): 4096 clk of a hold exempt a path; after 4096 clk of running
the lowest stacked side takes over, shielded; a path asked to hold stops at supervisor level with its frame. -/
def Obligations.SplitsAndSides : Prop :=
  (∀ (s : State) (h : Here) (f : BpF),
     let m := h.pr f.p.toNat &&& h.mask
     let rest := h.mask &&& ~~~m
     let fall := h.path.pc + 4
     let dest := h.path.pc + 2 * f.off.signExtend 64
     s.mayIssue h { Uses.none with ps := [f.p.toNat] } → f.mode = 3 → m ≠ 0 → m ≠ h.mask → dest ≠ fall →
     (∀ q, h.path.level = .normal → h.grp.freePath = some q →
       ∃ t, exec (.brp f) s = .next t ∧ s.retired t h 0 ∧ t.mem = s.mem ∧
         t.chip.path? h.g h.p = some { h.jumped fall f.stall.toNat s.clk with mask := rest } ∧
         t.chip.path? h.g q = some { Path.start dest m s.clk with readyAt := s.clk + 1 + f.stall.toNat } ∧
         (∀ r l, t.vreg h.g r l = s.vreg h.g r l) ∧ (∀ r, t.sreg h.g r = s.sreg h.g r) ∧ ∀ r, t.preg h.g r = s.preg h.g r) ∧
     ((h.path.level = .normal → h.grp.freePath = none) → h.path.sides.length < 16 →
       let low := if fall.toNat ≤ dest.toNat then (fall, rest) else (dest, m)
       let high := if fall.toNat ≤ dest.toNat then (dest, m) else (fall, rest)
       ∃ t, exec (.brp f) s = .next t ∧ s.retired t h 0 ∧ s.keepsBut t h [] [] [] ∧
         t.chip.path? h.g h.p = some { (h.jumped low.1 f.stall.toNat s.clk).setSides (⟨high.1, high.2, none⟩ :: h.path.sides) with
           mask := low.2 })) ∧
  ∀ (s : State) (g p : Nat) (x : Path), s.chip.path? g p = some x →
    (∀ t, x.heldSince = some t → t + 4096 ≤ s.clk →
      exec (.pathHoldExempt g p) s = .next { s with chip := s.chip.modPath g p fun x => { x with exempt := true, heldSince := none } }) ∧
    (∀ y r, x.runSince + 4096 ≤ s.clk → x.parked s.clk = false → takeLowest x.sides = some (y, r) →
      ∃ t, exec (.sideReleaseSwap g p) s = .next t ∧ t.mem = s.mem ∧ s.sameRegs t g ∧
        t.chip.path? g p = some { x.setSides (⟨x.pc, x.mask, x.wait⟩ :: r) with
          pc := y.pc, mask := y.mask, wait := none, shielded := true, runSince := s.clk }) ∧
    ∀ (h : Here) (a : TrapArea), s.plainMemory → s.chip.here? g p = some h → (s.chip.ctx h.ctx).area = some a → x.level ≠ .supervisor →
      x.holdReq = true → x.dbgHeld = false → x.wait = none → x.blocked = none → x.readyAt ≤ s.clk →
      ∃ t q, exec (.pathHoldStop g p) s = .next t ∧ t.chip.path? g p = some q ∧ q.dbgHeld = true ∧ q.holdReq = false ∧
        q.pc = x.pc ∧ q.mask = x.mask ∧ q.level = x.level ∧ q.cause = BitVec.ofNat 32 causeHold ∧
        (q.supFrame.map fun k => (k.pc, k.mask, k.nested)) = some (x.pc, x.mask, decide (x.level = .user))

/-! ## Special registers -/

/-- SRD (R44, R61, R261, R406, R407): what each number reads, once for the group, as a scalar, a pair of scalars, or in a
vector register with tag N32; LVLk, LANE and the like lane by lane. Numbers from 0x200 only at supervisor level. -/
def Obligations.SpecialReads : Prop :=
  ∀ (s : State) (h : Here) (f : SrdF), h.lanes f.g ≠ 0 →
    let F := xForm f.stall f.g
    let d := f.d.toNat
    let toV := f.vd = 1 ∧ s.mayIssue h { Uses.none with vd := [d], ps := guardPs f.g }
    let toS := f.vd = 0 ∧ s.mayIssue h { Uses.none with sd := [d], ps := guardPs f.g }
    let lanes := fun (num : Nat) (w : Nat → Word) => f.num.toNat = num →
      (toV → s.lanesGet h (.srd f) F d (fun _ => tagN32) fun l => ((w l).toNat, 0)) ∧
      (toS → s.scalarGets h (.srd f) F d (w (lowLane h.mask)))
    let word := fun (num : Nat) (w : Word) => lanes num fun _ => w
    let pair := fun (num : Nat) (v : Addr) => f.num.toNat = num → toS →
      ∃ t, exec (.srd f) s = .next t ∧ t.chip.path? h.g h.p = some (h.past 8 f.stall.toNat s.clk) ∧ t.spair h.g d = v ∧
        s.keepsBut t h [] [d, d + 1] [] ∧ s.retired t h 0
    let level := h.path.level
    word 0x000 (BitVec.ofNat 32 (0x0101 + Config.stepping.toNat * 65536)) ∧ lanes 0x001 (fun l => BitVec.ofNat 32 l) ∧
    word 0x002 (BitVec.ofNat 32 h.grp.index) ∧ word 0x003 h.team.num ∧ word 0x004 (BitVec.ofNat 32 h.p) ∧
    word 0x005 (BitVec.ofNat 32 h.agent.toNat) ∧ word 0x006 (BitVec.ofNat 32 (placeOf h.g)) ∧
    word 0x007 (BitVec.ofNat 32 h.ctx) ∧ (∀ k, k < 8 → lanes (8 + k) (lvlWord h k)) ∧
    pair 0x010 (BitVec.ofNat 64 s.clk) ∧ word 0x012 h.run.lid ∧ word 0x014 h.mask ∧ word 0x018 h.team.fpctl ∧
    word 0x013 (BitVec.ofNat 32 ((if h.check then 1 else 0) + (if h.run.idem then 2 else 0) + (if h.traced then 4 else 0))) ∧
    word 0x020 h.path.cause ∧ word 0x030 h.grp.emu.w0 ∧ word 0x031 h.grp.emu.w1 ∧ pair 0x032 h.grp.emu.pc ∧
    pair 0x034 h.grp.emu.next ∧ word 0x036 h.grp.emu.dec ∧ word 0x037 h.grp.emu.ops ∧ word 0x038 h.grp.emu.mask ∧
    word 0x039 h.grp.emu.imm ∧ word 0x03A h.grp.emu.cls ∧ word 0x040 (h.team.raceMode.setWidth 32) ∧
    pair 0x041 (BitVec.ofNat 64 h.run.rlog) ∧ word 0x048 (s.chip.leasest h.grp) ∧
    word 0x04C (h.team.ret.extractLsb' 0 32) ∧
    (∀ a, (s.chip.ctx h.ctx).area = some a → (∀ e ∈ s.chip.cores, e.2.partials = []) → s.chip.link.retraining = none →
      let fwin := Memory.nat s.mem (a.pa + 0x28) 8
      pair 0x022 (if fwin ≠ 0 then BitVec.ofNat 64 fwin
        else a.va + BitVec.ofNat 64 (s.chip.frameOff h.ctx h.g h.p (levelCode level)))) ∧
    (level = .supervisor → ∀ a, (s.chip.ctx h.ctx).area = some a → pair 0x200 a.va) ∧
    (level = .supervisor → pair 0x202 (BitVec.ofNat 64 h.run.flog)) ∧
    (level = .supervisor → ∀ fr, h.path.supFrame = some fr →
      word 0x204 (BitVec.ofNat 32 ((if fr.nested then 1 else 0) + 2 * min 31 (deferredLate h.grp))))

/-- SWR, RCHK, PROG and YIELD (R46, R61, R164, R394, R406, R420): the one thing each writes; nothing else changes. -/
def Obligations.SpecialWrites : Prop :=
  ∀ (s : State) (h : Here),
    (∀ f : SwrF, h.lanes f.g ≠ 0 →
      (f.num = 0x018 → s.mayIssue h { Uses.none with ss := [f.sa.toNat], ps := guardPs f.g } →
        exec (.swr f) s =
          .next (s.ended h 8 f.stall.toNat (fun t => { t with fpctl := (h.s f.sa.toNat &&& 0x7FF) ||| (if t.raised.1 = s.clk then
            (t.raised.2.setWidth 32 : Word) <<< (6 : Nat) else 0) }) fun x => x)) ∧
      (f.num = 0x034 → s.mayIssue h { Uses.none with ss := [f.sa.toNat, f.sa.toNat + 1], ps := guardPs f.g } →
        exec (.swr f) s = .next (s.ended h 8 f.stall.toNat (fun t => t) fun x =>
          { x with emu := { x.emu with next := h.pair f.sa.toNat } }))) ∧
    (∀ f : RchkF, h.lanes f.g ≠ 0 → s.mayIssue h { Uses.none with sd := [f.sd.toNat], ps := guardPs f.g } →
      exec (.rchk f) s = .next (s.ended h 8 f.stall.toNat (fun t => { t with raceMode := f.mode }) fun x =>
        x.setS f.sd.toNat (h.team.raceMode.setWidth 32))) ∧
    (∀ f : ScalarPairF, h.lanes f.g ≠ 0 → s.mayIssue h { Uses.none with ss := [f.sa.toNat], ps := guardPs f.g } →
      exec (.prog f) s = .next (s.ended h 8 f.stall.toNat (fun t =>
        { t with hint := if (h.s f.sa.toNat).getLsbD 16 then (h.s f.sa.toNat).setWidth 17 else 0 }) fun x => x)) ∧
    (∀ f : YieldF, h.lanes f.g ≠ 0 → s.mayIssue h { Uses.none with ps := guardPs f.g } →
      exec (.yield f) s = .next (s.ended h 8 f.stall.toNat (fun t => t) fun x =>
        { x with paths := mmod x.paths h.p fun q =>
          { q.releaseSwap s.clk with yieldUntil := s.clk + max f.n.toNat 1 } }))

/-! ## Traps -/

/-- TRAP, SYS, BKPT with no debugger and an unassigned encoding take their traps (R60, R62, R337, R413, R416): USER with the
next instruction as resume address; PRIV 0x8000 + code; BKPT with the code; ILLEGAL with the EMU block filled. -/
def Obligations.TrapInstructions : Prop :=
  ∀ (s : State) (h : Here) (a : TrapArea),
    (∀ f : CodeF, h.lanes f.g ≠ 0 → s.mayIssue h { Uses.none with ps := guardPs f.g } →
      (s.mayTrap h a causeUser → s.traps h (.trap f) a causeUser f.code.toNat (h.path.pc + 8)) ∧
      (s.mayTrap h a causePriv → s.traps h (.sys f) a causePriv (0x8000 + f.code.toNat % 2 ^ 15) h.path.pc) ∧
      (s.mayTrap h a causeBkpt → Memory.nat s.mem (a.pa + 0x20) 4 % 2 = 0 →
        s.traps h (.bkpt f) a causeBkpt f.code.toNat h.path.pc)) ∧
    (∀ f : UnassignedF, s.mayTrap h a causeIllegal → h.grp.emu.busy = none ∨ h.grp.emu.busy = some h.p →
      s.traps h (.unassignedEncoding f) a causeIllegal 0 (h.path.pc + BitVec.ofNat 64 f.len) ∧
      ∃ t, exec (.unassignedEncoding f) s = .next t ∧ (t.chip.group? h.g).map Group.emu =
        some (mkEmu f.w0 f.w1 f.len h.path.pc (if f.len = 8
          then h.lanes (Dec.guard (f.w0.toNat + f.w1.toNat * 2 ^ 32)) else h.mask) h.p))


/-! ## Memory instructions -/

/-- LD and SLD (R52, R115, R258, R368, R404): with every lane's address aligned, translated and unpoisoned, and request-table
entries free, the access joins the pending ones with its lanes, registers, tag and instruction words, and nothing else
changes. SLD makes one access, at the lowest lane of lanes(). -/
def Obligations.GlobalLoads : Prop :=
  ∀ (s : State) (h : Here) (pa : Nat → Nat), s.plain → s.walked → s.unsampled h → h.team.raceMode ≠ 2 →
    (s.chip.pathLoads h.g h.p).length < 8 →
    let goes := fun (i : Instr) (m : MemForm) (u : Uses) (ls : List (Nat × Addr)) (o : MemOp) =>
      let n := m.type.size
      s.mayIssue h u → h.lanes m.form.g ≠ 0 → s.reaches h (Use.load h.user) n ls pa →
      let op := { o with lanes := placedLanes ls pa, size := n, dst := m.vt, regs := m.type.regs, acq := m.sync, scope := m.scope }
      (∀ l ∈ ls, s.chip.poisoned (pa l.1) n = false) → s.hasRoom h op →
      exec i s = .next (s.onward h m.form fun c => c.posted op)
    let wide := fun i m =>
      (∀ r, m.vi = some r → ∀ l, l < 32 → laneBit (h.lanes m.form.g) l → (indexOf (h.v r l)).isSome) →
      goes i m (m.uses false) (m.addrs h) { MemOp.at_ h i with kind := .load, tag := m.type.tag }
    let one := fun i m =>
      goes i m { Uses.none with ss := [m.sa, m.sa + 1], sd := m.regs, ps := guardPs m.form.g }
        [(lowLane (h.lanes m.form.g), h.pair m.sa + BitVec.ofInt 64 (m.off * m.type.size))]
        { MemOp.at_ h i with kind := .sload }
    (∀ f, wide (.ldBase f) (memBase f)) ∧ (∀ f, wide (.ld f) (memX f)) ∧ (∀ f, one (.sldBase f) (memBase f)) ∧
    (∀ f, one (.sld f) (memX f))

/-- ST (R52, R115, R127, R152, R409): with typed data of its tag, and every lane's address aligned and translated, the access
retires into the store queue with the bytes of its registers; a release publishes the group's clock. -/
def Obligations.GlobalStores : Prop :=
  ∀ (s : State) (h : Here) (pa : Nat → Nat), s.plain → s.walked → s.unsampled h → h.team.raceMode ≠ 2 →
    let goes := fun (i : Instr) (m : MemForm) =>
      let n := m.type.size
      s.mayIssue h (m.uses true) → h.lanes m.form.g ≠ 0 →
      (m.sync = true → (h.slot.clock + 1).toNat % 2 ^ 14 ≠ 0) →
      (∀ r, m.vi = some r → ∀ l, l < 32 → laneBit (h.lanes m.form.g) l → (indexOf (h.v r l)).isSome) →
      (5 ≤ m.ty → ∀ l, l < 32 → laneBit (h.lanes m.form.g) l → (h.v m.vt l).tag = m.type.tag) →
      s.reaches h (Use.store h.user) n (m.addrs h) pa →
      let op := { MemOp.at_ h i with
        kind := .store, size := n, rel := m.sync, scope := m.scope
        lanes := (placedLanes (m.addrs h) pa).map fun x =>
          { x with data := fromLE (h.grp.laneBytes m.vt m.type.regs n x.lane) } }
      s.hasRoom h op →
      exec i s = .next (s.onward h m.form fun c => (c.published h.g m.sync).posted op)
    (∀ f, goes (.stBase f) (memBase f)) ∧ ∀ f, goes (.st f) (memX f)

/-- ATOM and MRED (R115, R332, R333, R379, R380): operands that carry the operation's tag go with the access to the lanes'
addresses, base plus index; a release publishes the group's clock. -/
def Obligations.Reductions : Prop :=
  ∀ (s : State) (h : Here) (pa : Nat → Nat), s.plain → s.walked → s.unsampled h → h.team.raceMode ≠ 2 →
    (∀ f : AtomF,
      let regs := if f.w = 1 then 2 else 1
      let span := fun r => (List.range regs).map fun k => r + k
      let vb := f.vb.toNat
      let vd := f.vd.toNat
      let ls := indexedAddrs h f.sa.toNat f.vi.toNat (h.lanes f.g)
      s.mayIssue h { Uses.none with vs := f.vi.toNat :: span vb ++ (if f.op = 7 then span vd else []), vd := span vd,
                                    ss := [f.sa.toNat, f.sa.toNat + 1], ps := guardPs f.g } →
      h.lanes f.g ≠ 0 → (s.chip.pathLoads h.g h.p).length < 8 →
      (ordRel f.order = true → (h.slot.clock + 1).toNat % 2 ^ 14 ≠ 0) →
      (∀ l, l < 32 → laneBit (h.lanes f.g) l → (indexOf (h.v f.vi.toNat l)).isSome ∧
        atomTag f.op.toNat (f.w = 1) (h.v vb l).tag ∧ ∀ k, k < regs → (h.v (vb + k) l).tag = (h.v vb l).tag ∧
          (f.op = 7 → (h.v (vd + k) l).tag = (h.v vb l).tag)) →
      s.reaches h (Use.rmw h.user) (4 * regs) ls pa → (∀ l ∈ ls, s.chip.poisoned (pa l.1) (4 * regs) = false) →
      let op := { MemOp.at_ h (.atom f) with
        kind := .atom, size := 4 * regs, dst := vd, regs := regs, acq := ordAcq f.order, rel := ordRel f.order
        scope := scopeOrSy f.scope, op := f.op.toNat
        lanes := (placedLanes ls pa).map fun x => { x with
          data := h.grp.laneNat vb regs x.lane + (h.v vb x.lane).tag.toNat * 2 ^ 64
          cmp := h.grp.laneNat vd regs x.lane } }
      s.hasRoom h op →
      exec (.atom f) s = .next (s.onward h (xForm f.stall f.g) fun c => (c.published h.g (ordRel f.order)).posted op)) ∧
    (∀ f : MredF,
      let regs := if f.fmt = 3 then 2 else 1
      let vb := f.vb.toNat
      let ls := indexedAddrs h f.sa.toNat f.vi.toNat (h.lanes f.g)
      s.mayIssue h { Uses.none with vs := f.vi.toNat :: (List.range regs).map fun k => vb + k,
                                    ss := [f.sa.toNat, f.sa.toNat + 1], ps := guardPs f.g } →
      h.lanes f.g ≠ 0 → (ordRel f.order = true → (h.slot.clock + 1).toNat % 2 ^ 14 ≠ 0) →
      (∀ l, l < 32 → laneBit (h.lanes f.g) l → (indexOf (h.v f.vi.toNat l)).isSome ∧
        ∀ k, k < regs → mredTag f.fmt.toNat (h.v (vb + k) l).tag) →
      s.reaches h (Use.rmw h.user) (4 * regs) ls pa →
      let op := { MemOp.at_ h (.mred f) with
        kind := .mred, size := 4 * regs, rel := ordRel f.order, scope := scopeOrSy f.scope, op := f.op.toNat
        fmt := f.fmt.toNat
        lanes := (placedLanes ls pa).map fun x => { x with data := h.grp.laneNat vb regs x.lane } }
      s.hasRoom h op →
      exec (.mred f) s = .next (s.onward h (xForm f.stall f.g) fun c => (c.published h.g (ordRel f.order)).posted op))

/-- LDS, FEW_FILL_OBTAINED and STS (R102 to R104, R370, R411): in bounds and aligned, a load's registers take the team's scratch
bytes as it issues and FEC empties their granules, a FEW read only once they are full; a store writes the bytes of its
registers, the highest of lanes that name the same place standing, and FES fills them. Nothing else of the storage changes. -/
def Obligations.ScratchAccess : Prop :=
  ∀ (s : State) (h : Here) (m : MemForm), s.plain → s.unsampled h → s.chip.groupOps h.g = [] → h.team.raceMode = 0 → h.lanes m.form.g ≠ 0 →
    let n := m.type.size
    let ls := m.scrAddrs h
    let at_ := fun a : Addr => h.team.scrLo + a.toNat
    let core := fun t : State => t.chip.core h.core
    let full := scrFullGrans h n ls
    (∀ r, m.vi = some r → ∀ l, l < 32 → laneBit (h.lanes m.form.g) l → (indexOf (h.v r l)).isSome) →
    (∀ l ∈ ls, l.2.toNat + n ≤ h.team.scrSize ∧ l.2.toNat % n = 0) →
    let loads := fun (out : Host.Outcome State Fault Refusal) =>
      s.mayIssue h (m.uses false) → (m.few = true → ∀ g ∈ full, (core s).isFull g) →
      ∃ t, out = .next t ∧ s.passes t h m.form m.regs [] ∧ (core t).scratch = (core s).scratch ∧
        (∀ k, k ≠ h.core → t.chip.core k = s.chip.core k) ∧
        (∀ g, (core t).isFull g = ((core s).isFull g && !(m.fec && full.contains g))) ∧
        (∀ k l, k < m.type.regs → l < 32 → t.vreg h.g (m.vt + k) l =
          match ls.find? fun x => x.1 = l with
          | some x => ⟨BitVec.ofNat 32 (fromLE ((((core s).bytes (at_ x.2) n).drop (4 * k)).take 4)), m.type.tag⟩
          | none => s.vreg h.g (m.vt + k) l)
    let stores := fun (out : Host.Outcome State Fault Refusal) =>
      s.mayIssue h (m.uses true) → (m.sync = true → (h.slot.clock + 1).toNat % 2 ^ 14 ≠ 0) →
      (5 ≤ m.ty → ∀ l, l < 32 → laneBit (h.lanes m.form.g) l → (h.v m.vt l).tag = m.type.tag) →
      (∀ l ∈ ls, s.chip.matHolds h.core (fun w => w.slot = h.g && w.agent = h.agent) (at_ l.2) n = false) →
      (∀ e ∈ (s.chip.core h.core).order, e.2.kind = .tdrn → e.2.startAt = none → e.2.status ≠ none) →
      ∃ t, out = .next t ∧ t.chip.path? h.g h.p = some (h.past m.form.len m.form.stall s.clk) ∧ s.sameRegs t h.g ∧ t.mem = s.mem ∧
        s.retired t h 0 ∧ (∀ k, k ≠ h.core → t.chip.core k = s.chip.core k) ∧
        (∀ g, (core t).isFull g = ((core s).isFull g || (m.fes && full.contains g))) ∧
        (∀ l ∈ ls, (∀ l' ∈ ls, l.1 < l'.1 → l'.2 ≠ l.2) → ∀ j, j < n →
          (core t).byte (at_ l.2 + j) = (h.grp.laneBytes m.vt m.type.regs n l.1).getD j 0) ∧
        (∀ a, (∀ l ∈ ls, a < at_ l.2 ∨ at_ l.2 + n ≤ a) → (core t).byte a = (core s).byte a)
    (∀ f, m = memBase f → loads (exec (.ldsBase f) s) ∧ stores (exec (.stsBase f) s)) ∧
    (∀ f, m = memX f → loads (exec (.lds f) s) ∧ stores (exec (.sts f) s) ∧
      ∀ o, s.actor = (h.g, h.p) → h.team.saveBy = none → h.path.wait = none → h.path.blocked = none → h.path.dbgHeld = false →
        h.path.heldSince = none → h.path.readyAt ≤ s.clk → h.path.yieldUntil ≤ s.clk → f.few = 1 →
        s.noWindow h → s.codeHot h 8 → wordLength (leNat (s.code h 2)) = 8 → decode (s.code h 8) = some (.lds f, []) →
        loads (exec (.fewFillObtained h.g h.p) { s with actor := o }))

/-- PF, CCTL, ICINV and FE (R110, R344, R362, R364, R390): what each leaves changed, and nothing else. A hint's range is at most
1 MiB; its pages translate at once here. -/
def Obligations.HintInstructions : Prop :=
  ∀ (s : State) (h : Here) (f : RangeF) (pa : Nat → Nat), s.plain → s.noWindow h → h.lanes f.g ≠ 0 →
    let F := xForm f.stall f.g
    let sa := f.sa.toNat
    let a := h.pair sa
    let n := min (h.s f.sb.toNat).toNat (2 ^ 20)
    let lines := (segments a.toNat n).flatMap fun p => linesOf (pa p.1) p.2
    let finds := fun u => s.mayIssue h { Uses.none with ss := [sa, sa + 1, f.sb.toNat], ps := guardPs f.g } ∧ s.chip.region a = .global ∧
      ∀ p ∈ segments a.toNat n, s.chip.hit h.core h.runId h.ctx u p.1 = some (pa p.1)
    let touch : Use := ⟨false, false, false, h.user⟩
    (finds (Use.load h.user) → exec (.pf f) s = .next (s.onward h F id)) ∧
    (finds touch → f.op = 0 → exec (.cctl f) s = .next (s.onward h F id)) ∧
    (finds touch → f.op = 1 → (∀ e ∈ s.chip.marks, e.1 / 4 ∉ lines) → exec (.cctl f) s = .next (s.onward h F id)) ∧
    (finds touch → f.op = 2 → n ≠ 0 →
      exec (.cctl f) s = .next (s.onward h F fun c => { c with lowpri := distinct (distinct lines ++ c.lowpri) })) ∧
    (finds touch → n ≠ 0 → (∀ o ∈ s.chip.groupOps h.g, o.kind = .load ∨ o.kind = .sload) →
      exec (.icinv f) s = .next (s.onward h F fun c =>
        c.modCore h.core fun k => { k with icache := k.icache.filter fun e => !lines.contains e.1 })) ∧
    (let o := (h.s sa).toNat
     let size := (h.s f.sb.toNat).toNat
     s.mayIssue h { Uses.none with ss := [sa, f.sb.toNat], ps := guardPs f.g } → o % 16 = 0 → size % 16 = 0 → size ≠ 0 →
     o + size ≤ h.team.scrSize → (∀ e ∈ s.chip.groupOps h.g, e.acq = false) →
     exec (.fe f) s = .next (s.onward h F fun c =>
       c.modCore h.core fun k => k.markFull (fullGrans (h.team.scrLo + o) size) (f.op = 1)))

/-! ## What homes and queues do with accesses -/

/-- LOAD_DATA_RETURN with the race mode OFF (R64, R367, R368, R404): the bytes at each lane's place arrive in its registers, low register first and
zero-extended, with the access's tag; the access is gone, and no other register and no memory changes. -/
def Obligations.LoadReturns : Prop :=
  ∀ (s : State) (seq : Nat) (o : MemOp),
    let g := o.who.slot
    let word := fun (pa k : Nat) => (BitVec.ofNat 32 (Memory.nat s.mem (pa + 4 * k) (min 4 (o.size - 4 * k))) : Word)
    s.chip.stillThere o.who = true → o.who.mode = 0 → (∀ x ∈ o.lanes, s.chip.poisoned x.pa o.size = false) →
    (s.ready seq o .load →
      ∃ t, exec (.loadDataReturn seq) s = .next t ∧ t.mem = s.mem ∧ t.chip.memq = s.chip.dropped seq ∧ homeOnly s.chip t.chip ∧
        (∀ x ∈ o.lanes, ∀ k, k < o.regs → t.vreg g (o.dst + k) x.lane = ⟨word x.pa k, o.tag⟩) ∧
        (∀ r l, l < 32 → (r < o.dst ∨ o.dst + o.regs ≤ r ∨ l ∉ o.lanes.map LaneAcc.lane) → t.vreg g r l = s.vreg g r l) ∧
        (∀ r, t.sreg g r = s.sreg g r) ∧ ∀ r, t.preg g r = s.preg g r) ∧
    (s.ready seq o .sload → ∀ x, o.lanes = [x] →
      ∃ t, exec (.loadDataReturn seq) s = .next t ∧ t.mem = s.mem ∧ t.chip.memq = s.chip.dropped seq ∧ homeOnly s.chip t.chip ∧
        (∀ k, k < o.regs → t.sreg g (o.dst + k) = word x.pa k) ∧
        (∀ r, r < o.dst ∨ o.dst + o.regs ≤ r → t.sreg g r = s.sreg g r) ∧
        (∀ r l, t.vreg g r l = s.vreg g r l) ∧ ∀ r, t.preg g r = s.preg g r)

/-- STORE_PERFORM and ATOM_HOME_PERFORM with the race mode OFF (R118, R120, R127, R333): a store's bytes stand at each lane's
place and no other byte of memory changes; an ATOM of one lane writes its operation's result and returns what stood there,
with the operand's tag. The access is gone. -/
def Obligations.StoresPerform : Prop :=
  ∀ (s : State) (seq : Nat) (o : MemOp), o.who.mode = 0 →
    (s.ready seq o .store →
      ∃ t, exec (.storePerform seq) s = .next t ∧ t.chip.memq = s.chip.dropped seq ∧ homeOnly s.chip t.chip ∧
        s.sameRegs t o.who.slot ∧
        (∀ x ∈ o.lanes, (∀ y ∈ o.lanes, x = y ∨ x.pa + o.size ≤ y.pa ∨ y.pa + o.size ≤ x.pa) →
          Memory.nat t.mem x.pa o.size = x.data % 2 ^ (8 * o.size)) ∧
        ∀ a, (∀ x ∈ o.lanes, a < x.pa ∨ x.pa + o.size ≤ a) → Memory.read t.mem a = Memory.read s.mem a) ∧
    (∀ x, o.lanes = [x] → s.ready seq o .atom → s.chip.stillThere o.who = true → o.rel = false →
      s.chip.poisoned x.pa o.size = false →
      let old := Memory.nat s.mem x.pa o.size
      let tag := BitVec.ofNat 4 (x.data / 2 ^ 64)
      ∃ t, exec (.atomHomePerform seq) s = .next t ∧ t.chip.memq = s.chip.dropped seq ∧ homeOnly s.chip t.chip ∧
        Memory.nat t.mem x.pa o.size =
          atomCombine o.op (o.size = 8) tag old (x.data % 2 ^ 64) x.cmp % 2 ^ (8 * o.size) ∧
        (∀ a, a < x.pa ∨ x.pa + o.size ≤ a → Memory.read t.mem a = Memory.read s.mem a) ∧
        ∀ k, k < o.regs → t.vreg o.who.slot (o.dst + k) x.lane =
          ⟨BitVec.ofNat 32 (old / 2 ^ (32 * k)), tag⟩)

/-- MRED_COMBINE, L1_LINE_EVICT and L2_LINE_EVICT (R92, R93, R116, R117, R166, R305, R380): a contribution combines into the partial
of its word, which starts at the operation's identity; a partial that leaves L1 combines into memory at the word; a line with
marks that leaves L2 where no summary table covers it comes back with SUMMARY marks, and one without marks changes nothing. -/
def Obligations.PartialsCombine : Prop :=
  ∀ (s : State),
    (∀ (seq : Nat) (o : MemOp) (x : LaneAcc),
      let core := o.who.core
      let at_ := (s.chip.core core).partials
      let p := (mget? at_ x.pa).getD ⟨o.op, o.fmt, redStart o.op o.fmt, []⟩
      s.chip.op? seq = some o → o.kind = .mred → o.held = false → o.rel = false → o.who.mode = 0 → s.chip.mayPerform o = true →
      s.walked →
      o.lanes.find? (fun l => l.lane = x.lane) = some x → x.space = .memory →
      (∀ e ∈ at_, e.1 / 128 = x.pa / 128 → e.2.op = o.op ∧ e.2.fmt = o.fmt) → (s.chip.core core).takesLine (x.pa / 128) = true →
      ∃ t, exec (.mredCombine seq x.lane) s = .next t ∧ t.mem = s.mem ∧ s.sameRegs t o.who.slot ∧
        (t.chip.core core).partials =
          mset at_ x.pa { p with value := redCombine o.op o.fmt p.value x.data, who := p.who ++ [(o.who, o.scope)] } ∧
        let rest := o.lanes.filter fun l => l ≠ x
        (rest ≠ [] → t.chip.op? seq = some { o with lanes := rest }) ∧ (rest = [] → t.chip.memq = s.chip.dropped seq)) ∧
    (∀ (core line pa : Nat) (p : Partial), s.Inv → s.nobodyWaits → (∀ e ∈ s.chip.ctxs, e.2.watch = []) →
      (∀ e ∈ s.chip.runs, e.2.traced = false) → s.chip.link.down = false → (∀ m ∈ s.chip.mons, m.test = none) → s.chip.partialsOf (fun k => k = core) line = [(core, pa, p)] →
      let w := redWidth p.fmt
      ∃ t, exec (.l1LineEvict core line) s = .next t ∧ t.chip.partialsOf (fun k => k = core) line = [] ∧
        t.chip.slots = s.chip.slots ∧ t.chip.memq = s.chip.memq ∧
        Memory.nat t.mem pa w = redCombine p.op p.fmt (Memory.nat s.mem pa w) p.value % 2 ^ (8 * w) ∧
        ∀ a, a < pa ∨ pa + w ≤ a → Memory.read t.mem a = Memory.read s.mem a) ∧
    (∀ line : Nat, s.chip.summaryAt (line / 32) = none →
      ((∀ e ∈ s.chip.marks, e.1 / 4 ≠ line) → exec (.l2LineEvict line) s = .next s) ∧
      ((∃ e ∈ s.chip.marks, e.1 / 4 = line) → exec (.l2LineEvict line) s = .next { s with chip := { s.chip with
        marks := [0, 1, 2, 3].foldl (fun m i => mset m (line * 4 + i) markSummary) s.chip.marks } }))

/-- STORE_WALK_FAULT and STORE_LATE_REPORT (R113, R262): a retired store whose walk faults is held with the address; its report
goes to the first path of its group, to the context's report ring once the group has left, or to the fault log once the
team is gone. -/
def Obligations.StoreFaults : Prop :=
  ∀ (s : State) (seq : Nat) (o : MemOp),
    s.chip.op? seq = some o →
    let marked := fun (c : Chip) (f : MemOp → MemOp) => { c with memq := c.memq.map fun e => if e.seq = seq then f e else e }
    (∀ x, o.kind = .store → o.held = false → o.lanes = [x] → x.bound = false → (s.chip.ctx o.who.ctx).root = none →
      s.chip.window o.who.run (Use.store o.who.user) x.va.toNat = none →
      (s.chip.core o.who.core).lookup o.who.ctx x.va.toNat = none →
      exec (.storeWalkFault seq) s =
        .next { s with chip := marked s.chip fun e => { e with held := true, reported := false, faultVa := x.va } }) ∧
    (o.held = true →
      (∀ x p q, o.reported = false → s.chip.stillThere o.who = true → s.chip.group? o.who.slot = some x → x.paths.head? = some (p, q) →
        exec (.storeLateReport seq) s =
          .next { s with chip := (marked s.chip fun e => { e with reported := true }).modPath o.who.slot p fun y =>
            { y with late := y.late ++ [seq], blocked := none } }) ∧
      (o.reported = false → s.chip.stillThere o.who = false → (mget? s.chip.teams o.who.tid).isSome → (s.chip.ctx o.who.ctx).area = none →
        exec (.storeLateReport seq) s =
          .next { s with chip := marked s.chip fun e => { e with reported := true, exited := true } }) ∧
      (∀ r, s.chip.stillThere o.who = false → mget? s.chip.teams o.who.tid = none → mget? s.chip.runs o.who.run = some r → r.flog = 0 →
        exec (.storeLateReport seq) s = .next { s with chip := { s.chip with memq := s.chip.dropped seq } }))

/-- MEMORY_SAMPLE (R278, R279): the due sample of a completed access is written at the ring's next record, with the agent, pc,
mask, launch, clk, lanes, sectors and replays of the access, and WR rises by 1. Which data came last and the clk spent are free values.

ASYNC_PAGE_FAULT and STALL_SAMPLE (R114, R278): a sector, an operation of an engine order or an ENG operation whose address
does not translate parks; a period of a partition of a core gives its next path's sample. -/
def Obligations.SamplesAndRequestFaults : Prop :=
  (∀ (s : State) (g p : Nat) (d : Due) (r : SampleRing),
     s.plain → s.Inv →
     (s.chip.core (slotCore g)).due.find? (fun d => d.slot = g && d.path = p && (match d.seq with
       | some n => !(s.chip.memq.any fun o => o.seq = n) && !s.chip.inReplay g n
       | none => true)) = some d →
     ∀ base len, (s.chip.ctx d.ctx).sample = some r → r.pieces = [(base, len)] →
     let size := Memory.nat s.mem base 4
     let wr := Memory.nat s.mem (base + 8) 4
     let at_ := base + 64 + 64 * (wr % size)
     64 + 64 * size ≤ len →
     (wr + 2 ^ 32 - Memory.nat s.mem (base + 4) 4) % 2 ^ 32 < size → wr + 1 < 2 ^ 32 →
     ∃ t, exec (.memorySample g p) s = .next t ∧ t.free = s.free + 2 ∧
       (t.chip.core (slotCore g)).due = (s.chip.core (slotCore g)).due.erase d ∧ t.chip.slots = s.chip.slots ∧
       Memory.nat t.mem at_ 4 = 1 + 2 ^ 8 + p % 4 * 2 ^ 10 ∧ Memory.nat t.mem (at_ + 4) 4 = d.agent.toNat ∧
       Memory.nat t.mem (at_ + 8) 8 = d.pc.toNat ∧ Memory.nat t.mem (at_ + 16) 4 = d.mask.toNat ∧
       Memory.nat t.mem (at_ + 20) 4 = d.lid.toNat ∧ Memory.nat t.mem (at_ + 24) 8 = s.clk % 2 ^ 64 ∧
       Memory.nat t.mem (at_ + 32) 4 = d.lanes.toNat ∧ Memory.nat t.mem (at_ + 36) 2 = d.sect % 2 ^ 16 ∧
       Memory.nat t.mem (at_ + 38) 1 = min d.again 255 ∧
       Memory.nat t.mem (base + 8) 4 = wr + 1 ∧
       ∀ a, (a < at_ ∨ at_ + 64 ≤ a) → (a < base + 8 ∨ base + 12 ≤ a) → Memory.read t.mem a = Memory.read s.mem a) ∧
  ∀ (s : State), s.chip.link.retraining = none →
    (∀ (cp sector d : Nat) (va : Addr) (o : CopyOp), mget? s.chip.copies cp = some o → sector < 2 ^ 24 → sector ∈ o.inflight →
      o.failed = false → probe (sectorPlan o sector) s.tx = .ok (some (d, va), s.tx) →
      ∃ t, exec (.asyncPageFault (4 * (cp * 2 ^ 24 + sector))) s = .next t ∧ mget? t.chip.copies cp =
        some { o with inflight := o.inflight.erase sector, parked := o.parked ++ [(sector, va)] }) ∧
    (∀ (core key d : Nat) (va : Addr) (o : MatOp), mget? (s.chip.core core).order key = some o → key < 2 ^ 20 → o.parked = none →
      matFault core key s.tx = .ok (some (d, va), s.tx) →
      ∃ t, exec (.asyncPageFault (4 * (core * 2 ^ 20 + key) + 1)) s = .next t ∧
        mget? (t.chip.core core).order key = some { o with parked := some va }) ∧
    (∀ (op d : Nat) (va : Addr) (o : EngOp), mget? s.chip.engops op = some o → s.chip.engTurn op o = true →
      probe (engPlan o) s.tx = .ok (some (d, va), s.tx) →
      ∃ t, exec (.asyncPageFault (4 * op + 2)) s = .next t ∧ mget? t.chip.engops op = some { o with parked := some va }) ∧
    ∀ (cx core part : Nat) (r : SampleRing), (s.chip.ctx cx).sample = some r → r.sper ≠ 0 → part < 4 →
      let key := core * 4 + part
      let n := (s.clk - r.since) / r.sper
      mgetD r.done 0 key < n →
      ∃ t, exec (.stallSample cx core part) s = .next t ∧
        (t.chip.ctx cx).sample = some { r with done := mset r.done key n, turn := mset r.turn key (mgetD r.turn 0 key + 1) } ∧
        (s.chip.pathsOf cx core part = [] → t.mem = s.mem)

/-! ## Synchronisation -/

/-- FENCE, FBEG, FWAIT and FENCE_COMPLETE (R135, R137, R152, R360): a fence that covers nothing completes at once, an .ar one
publishing the clock and leaving its scope over the stores that follow; FBEG answers its token and leaves the accesses
covered outstanding; FWAIT goes on where no fence of the token is outstanding and else parks until it completes. -/
def Obligations.Fences : Prop :=
  ∀ (s : State) (h : Here) (f : FenceF), h.lanes f.g ≠ 0 →
    let F := xForm f.stall f.g
    let cov := s.chip.fenceCovers h.g f.kind.toNat
    let ar := f.kind = 0
    let clean := cov = [] → ar → (h.slot.clock + 1).toNat % 2 ^ 14 ≠ 0
    let left := fun (t : State) (fs : List Fence) => ∃ x, t.chip.group? h.g = some x ∧ x.fences = fs ∧
      (cov = [] → x.relScope = (if ar then (if f.scope.toNat < 2 then 0 else f.scope.toNat) else h.grp.relScope)) ∧
      (t.chip.slot h.g).clock = (if cov = [] ∧ ar then h.slot.clock + 1 else h.slot.clock)
    (s.mayIssue h { Uses.none with ps := guardPs f.g } → h.fenceFull = none → clean →
      (cov = [] → ∃ t, exec (.fence f) s = .next t ∧ s.passes t h F [] [] ∧ left t h.grp.fences) ∧
      (cov ≠ [] → h.path.sides = [] →
        let n := 65536 + s.chip.seq
        ∃ t, exec (.fence f) s = .next t ∧ s.parks t h F (.fence n) ∧
          left t (h.grp.fences ++ [⟨n, f.kind.toNat, f.scope.toNat, cov⟩]))) ∧
    (s.mayIssue h { Uses.none with sd := [f.sd.toNat], ps := guardPs f.g } → h.fenceFull = none → clean →
      let n := (h.grp.fenceSerial + 1) % 65536
      ∃ t, exec (.fbeg f) s = .next t ∧ s.passes t h F [] [f.sd.toNat] ∧
        t.sreg h.g f.sd.toNat = fenceToken n f.scope.toNat f.kind.toNat ∧
        left t (if cov = [] then h.grp.fences else h.grp.fences ++ [⟨n, f.kind.toNat, f.scope.toNat, cov⟩])) ∧
    (s.mayIssue h { Uses.none with ss := [f.sa.toNat], ps := guardPs f.g } →
      let mine := h.grp.fences.find? fun x => x.serial < 65536 && fenceToken x.serial x.scope x.kind = h.s f.sa.toNat
      (mine = none → exec (.fwait f) s = .next (s.onward h F id)) ∧
      ∀ x, mine = some x → h.path.sides = [] →
        ∃ t, exec (.fwait f) s = .next t ∧ s.parks t h F (.fence x.serial)) ∧
    ∀ (g : Nat) (x : Group) (y : Fence), s.chip.group? g = some x → x.fences.find? (fun z => z.serial = y.serial) = some y →
      (∀ n ∈ y.covers, (∀ o ∈ s.chip.memq, o.seq ≠ n) ∧ s.chip.inReplay g n = false) →
      (y.kind = 0 → ((s.chip.slot g).clock + 1).toNat % 2 ^ 14 ≠ 0) →
      let ends := fun (t : State) => exec (.fenceComplete g y.serial) s = .next t ∧ t.mem = s.mem ∧
        (t.chip.group? g).map Group.fences = some (x.fences.filter fun z => z.serial ≠ y.serial) ∧
        (t.chip.slot g).clock = (if y.kind = 0 then (s.chip.slot g).clock + 1 else (s.chip.slot g).clock)
      (s.nobodyWaits → ∃ t, ends t) ∧
      ∀ k q, s.waits k q → k.g = g → k.wait = .fence y.serial → ∃ t, ends t ∧ s.resumes t k q []

/-- MONW, MONW_TIMEOUT and MONITOR_OVERFLOW_EVAL with the race mode OFF (R217 to R219, R376): a comparison that holds answers 0 at
once, a timeout of 0 answers 1; else the path parks on a monitor entry with its deadline. At the deadline one more
evaluation answers 0 or 1; an overflow entry is evaluated every 4096 clk. -/
def Obligations.Monitors : Prop :=
  ∀ (s : State) (pa : Nat),
    (∀ (h : Here) (f : MonwF), s.plain → h.team.raceMode = 0 → h.lanes f.g ≠ 0 → s.chip.groupOps h.g = [] →
      let F := xForm f.stall f.g
      let wide := f.w = 1
      let n := if wide then 8 else 4
      let sb := f.sb.toNat
      let va := h.pair f.sa.toNat
      let value := if wide then (h.pair sb).toNat else (h.s sb).toNat
      let limit := (h.s f.sc.toNat).toNat
      let hit := monCompare f.cmp.toNat (f.sg = 1) wide (Memory.nat s.mem pa n) value
      s.mayIssue h { Uses.none with
        ss := [f.sa.toNat, f.sa.toNat + 1, sb, f.sc.toNat] ++ (if wide then [sb + 1] else []), sd := [f.sd.toNat], ps := guardPs f.g } →
      s.reaches h (Use.load h.user) n [(lowLane h.mask, va)] (fun _ => pa) → s.chip.poisoned pa n = false →
      (hit = true ∨ limit = 0 → ∃ t, exec (.monw f) s = .next t ∧ s.passes t h F [] [f.sd.toNat] ∧
        t.sreg h.g f.sd.toNat = if hit then 0 else 1) ∧
      (hit = false → limit ≠ 0 → h.path.sides = [] → s.chip.mons.length < 512 →
        ∃ t, exec (.monw f) s = .next t ∧
          s.parks t h F (.monw va pa wide f.cmp.toNat (f.sg = 1) value
            (if limit = 0xFFFFFFFF then none else some (s.clk + limit)) f.sd.toNat (scopeOrSy f.scope) 0) ∧
          t.chip.mons = s.chip.mons ++
            [⟨h.g, h.p, pa, false, s.clk + 4096, some ⟨wide, f.cmp.toNat, f.sg = 1, value⟩, false⟩])) ∧
    (∀ (k : Parked) (x : Path) (h : Here) (va : Addr) (wide signed : Bool) (cmp value sd scope : Nat) (d : Option Nat),
      s.waits k x → s.plainReads → s.chip.here? k.g k.p = some h →
      k.wait = .monw va pa wide cmp signed value d sd scope 0 →
      let hit := monCompare cmp signed wide (Memory.nat s.mem pa (if wide then 8 else 4)) value
      let ends := fun (i : Instr) => ∃ t, exec i s = .next t ∧ t.mem = s.mem ∧ s.resumes t k x [sd] ∧
        t.sreg k.g sd = if hit then 0 else 1
      (∀ n, d = some n → n ≤ s.clk → ends (.monwTimeout k.g k.p)) ∧
      (hit = true → (∃ m, s.chip.mons.find? (fun m => m.slot = k.g && m.path = k.p && m.overflow && m.evalAt ≤ s.clk) = some m ∧ m.pa = pa) →
        ends (.monitorOverflowEval k.g k.p))) ∧
    ∀ (g p : Nat) (m : Monitor), s.nobodyWaits →
      s.chip.mons.find? (fun m => m.slot = g && m.path = p && m.overflow && m.evalAt ≤ s.clk) = some m →
      exec (.monitorOverflowEval g p) s = .next { s with chip := { s.chip with
        mons := s.chip.mons.map fun x => if x = m then { x with evalAt := s.clk + 4096 } else x } }

/-- BAR, BARRIER_ARRIVAL_MESSAGE and BARRIER_RELEASE (R140, R155, R221 to R224, R335): an arrival publishes the group's clock and
joins the open phase; BAR.a goes on with 0, BAR waits, BAR.w goes on once its arrival is released; a message is counted;
a release ends the phase, raises LE above team level, and the waits go on with 0. -/
def Obligations.Barriers : Prop :=
  ∀ (s : State),
    (∀ (h : Here) (f : BarF) (dom : Nat), h.lanes f.g ≠ 0 →
      let F := xForm f.stall f.g
      let ret := if f.nd = 1 then none else some f.sd.toNat
      let handle := if f.hs = 1 then (h.s f.sa.toNat).toNat % 4096 else f.handle.toNat
      let e := (mgetD (s.chip.ctx h.ctx).bars 0 handle).toNat
      s.mayIssue h { Uses.none with ss := if f.hs = 1 then [f.sa.toNat] else [], sd := ret.toList, ps := guardPs f.g } →
      (handle = 0 ∧ dom = 2 ∨ 0 < handle ∧ handle < 1024 ∧ e % 2 = 1 ∧ e / 2 % 8 = dom ∧ 2 ≤ dom) →
      (2 < dom → h.run.coResident dom = true ∧ ∃ l ∈ h.run.levels, l.dom = dom) →
      let arrives := fun (t : State) (split : Bool) =>
        (t.chip.slot h.g).clock = h.slot.clock + 1 ∧
        (t.chip.group? h.g).map Group.arrivals = some (h.grp.arrivals ++ [⟨handle, split, false, dom, 0, []⟩]) ∧
        ∃ i b, mget? t.chip.bars i = some b ∧ b.handle = handle ∧ b.run = h.runId ∧ b.domain = dom ∧
          mget? b.arrived (barKey h.team.num h.grp.index) = some h.slot.clock
      (f.mode = 0 ∨ f.mode = 1 → s.chip.groupOps h.g = [] → (h.slot.clock + 1).toNat % 2 ^ 14 ≠ 0 →
        (∀ a ∈ h.grp.arrivals, a.handle ≠ handle) →
        (f.mode = 0 → h.path.sides = [] → ∃ t, exec (.bar f) s = .next t ∧ s.parks t h F (.bar handle ret) ∧ arrives t false) ∧
        (f.mode = 1 → h.grp.arrivals.length < 4 →
          ∃ t, exec (.bar f) s = .next t ∧ s.passes t h F [] ret.toList ∧ arrives t true ∧ ∀ r ∈ ret, t.sreg h.g r = 0)) ∧
      (∀ a, f.mode = 2 → h.grp.arrivals.find? (fun a => a.handle = handle) = some a →
        (a.released = true → ∃ t, exec (.bar f) s = .next t ∧ s.passes t h F [] ret.toList ∧ (∀ r ∈ ret, t.sreg h.g r = 0) ∧
          (t.chip.group? h.g).map Group.arrivals = some (h.grp.arrivals.filter fun y => y.handle ≠ handle)) ∧
        (a.released = false → h.path.sides = [] → ∃ t, exec (.bar f) s = .next t ∧ s.parks t h F (.bar handle ret)))) ∧
    (∀ (key n : Nat) (b : BarPhase), mget? s.chip.bars key = some b → 2 < b.domain →
      (s.chip.phaseTeams b).find? (fun n => !b.counted.contains n && (s.chip.teamOf b.run n).isSome && s.chip.teamArrived b n) =
        some n →
      exec (.barrierArrivalMessage key) s =
        .next { s with chip := { s.chip with bars := mset s.chip.bars key { b with counted := b.counted ++ [n] } } }) ∧
    ∀ (key : Nat) (b : BarPhase) (r : Run), mget? s.chip.bars key = some b → s.chip.phaseReady b = true →
      mget? s.chip.runs b.run = some r →
      (2 < b.domain → (r.le + 1).toNat % 64 ≠ 0 →
        ∃ t, exec (.barrierRelease key) s = .next t ∧ mget? t.chip.bars key = none ∧ t.mem = s.mem ∧
          (mget? t.chip.runs b.run).map Run.le = some (r.le + 1)) ∧
      ∀ (k : Parked) (x : Path) (y : Group) (i : Nat) (t0 : Team) (a : Arrival) (sd : Nat), b.domain = 2 →
        s.waits k x → k.wait = .bar b.handle (some sd) → s.chip.teamOf b.run b.inst = some (i, t0) → t0.slots = [k.g] →
        mget? s.chip.teams i = some t0 → s.chip.group? k.g = some y → y.tid = i →
        y.arrivals.find? (fun a => a.handle = b.handle && !a.released) = some a →
        ∃ t, exec (.barrierRelease key) s = .next t ∧ mget? t.chip.bars key = none ∧ t.mem = s.mem ∧ s.resumes t k x [sd] ∧
          t.sreg k.g sd = 0 ∧
          (t.chip.group? k.g).map Group.arrivals = some (y.arrivals.filter fun z => z.handle ≠ b.handle)

/-- EPUSH, EPOP and EDGE_PARK_RETRY with the race mode OFF (R226 to R228, R358, R361): a push stores its value at the tail and a pop
takes it from the head, the counters follow, and the status is 0; without room or value a form that does not block
answers 1 or 2, and another parks at the header; a retry of the first to park there completes it. -/
def Obligations.Edges : Prop :=
  ∀ (s : State) (pa sp : Nat) (e : EdgeHdr),
    let after := { e with tail := (e.tail + 1) % e.cap, free := e.free - 1, fill := e.fill + 1 }
    let drained := { e with head := (e.head + 1) % e.cap, free := e.free + 1, fill := e.fill - 1 }
    let value := BitVec.ofNat 64 (Memory.nat s.mem sp 8)
    (∀ (h : Here) (f : EdgeF), s.nobodyWaits → h.lanes f.g ≠ 0 → s.chip.groupOps h.g = [] →
      let F := xForm f.stall f.g
      let va := h.pair f.se.toNat
      let sb := f.sb.toNat
      let sd := f.sd.toNat
      s.edgeAt h.actor h.user va pa e →
      (s.mayIssue h { Uses.none with ss := [f.se.toNat, f.se.toNat + 1, sb, sb + 1], sd := [sd], ps := guardPs f.g } →
        e.closed = false →
        (e.free ≠ 0 → s.edgeSlot h.actor (Use.store h.user) va pa e.tail sp → (h.slot.clock + 1).toNat % 2 ^ 14 ≠ 0 →
          ∃ t, exec (.epush f) s = .next t ∧ s.goesOn t h F [] [sd] ∧ t.sreg h.g sd = 0 ∧ s.edgeLeft t pa sp after ∧
            Memory.nat t.mem sp 8 = (h.pair sb).toNat ∧ (t.chip.slot h.g).clock = h.slot.clock + 1) ∧
        (e.free = 0 → f.nb = 1 →
          ∃ t, exec (.epush f) s = .next t ∧ s.passes t h F [] [sd] ∧ t.sreg h.g sd = 1) ∧
        (e.free = 0 → f.nb = 0 → h.path.sides = [] → s.chip.mons.length < 512 →
          ∃ t, exec (.epush f) s = .next t ∧ s.parks t h F (.epush va (h.pair sb) sd))) ∧
      (s.mayIssue h { Uses.none with ss := [f.se.toNat, f.se.toNat + 1], sd := [sd, sd + 1, sb], ps := guardPs f.g } →
        sb ≠ sd → sb ≠ sd + 1 →
        (e.fill ≠ 0 → s.edgeSlot h.actor (Use.load h.user) va pa e.head sp → s.chip.poisoned sp 8 = false →
          ∃ t, exec (.epop f) s = .next t ∧ s.goesOn t h F [] [sd, sd + 1, sb] ∧ t.spair h.g sd = value ∧ t.sreg h.g sb = 0 ∧
            s.edgeLeft t pa sp drained ∧ Memory.nat t.mem sp 8 = Memory.nat s.mem sp 8) ∧
        (e.fill = 0 → e.closed = true ∨ f.nb = 1 →
          ∃ t, exec (.epop f) s = .next t ∧ s.passes t h F [] [sd, sd + 1, sb] ∧ t.spair h.g sd = 0 ∧
            t.sreg h.g sb = if e.closed then 3 else 2) ∧
        (e.fill = 0 → e.closed = false → f.nb = 0 → h.path.sides = [] → s.chip.mons.length < 512 →
          ∃ t, exec (.epop f) s = .next t ∧ s.parks t h F (.epop va sd sb)))) ∧
    ∀ (k : Parked) (x : Path) (h : Here) (va : Addr) (who : Actor), s.waits k x → s.chip.here? k.g k.p = some h →
      s.chip.parkedActor k = some who → who.mode = 0 →
      let user := decide (x.level ≠ .supervisor)
      s.edgeAt who user va pa e →
      (∀ m ∈ s.chip.mons, m.slot = k.g → m.path = k.p → m.pa = pa → m.overflow = false) →
      (∀ v sd, k.wait = .epush va v sd → s.chip.firstAtEdge k true pa = true → e.closed = false → e.free ≠ 0 →
        s.edgeSlot who (Use.store user) va pa e.tail sp → (h.slot.clock + 1).toNat % 2 ^ 14 ≠ 0 →
        ∃ t, exec (.edgeParkRetry k.g k.p) s = .next t ∧ s.resumes t k x [sd] ∧ t.sreg k.g sd = 0 ∧ s.edgeLeft t pa sp after ∧
          Memory.nat t.mem sp 8 = v.toNat) ∧
      (∀ sd sc, k.wait = .epop va sd sc → sc ≠ sd → sc ≠ sd + 1 → s.chip.firstAtEdge k false pa = true → e.fill ≠ 0 →
        s.edgeSlot who (Use.load user) va pa e.head sp → s.chip.poisoned sp 8 = false →
        ∃ t, exec (.edgeParkRetry k.g k.p) s = .next t ∧ s.resumes t k x [sd, sd + 1, sc] ∧ t.spair k.g sd = value ∧
          t.sreg k.g sc = 0 ∧ s.edgeLeft t pa sp drained)

/-! ## Sleeping engines -/

/-- LEASE, LREL and LSTAT (R171 to R175, R179): a lease enters the lowest free entry of its class queue under a new serial and
answers its handle, parking unless .nb; a full queue answers all ones to .nb; LREL ends a lease with nothing outstanding
and frees its unit, and a stale handle does nothing; LSTAT answers the lease's word, 0 for a stale handle. -/
def Obligations.Leases : Prop :=
  ∀ (s : State) (h : Here),
    (∀ (f : LeaseF) (slot : Nat), h.lanes f.g ≠ 0 →
      let F := xForm f.stall f.g
      let cls := f.cls.toNat
      let place := queuePlace cls h.core
      let sd := f.sd.toNat
      let key := queueKey cls place
      s.mayIssue h { Uses.none with sd := [sd], ps := guardPs f.g } → (cls = 0 → s.chip.mxLease h.tid = none) →
      h.grp.freeLease = some slot →
      (∀ q, s.chip.freeEntry cls place = some q →
        let l : Lease :=
          { cls := cls, place := place, qidx := q, serial := mgetD s.chip.leaseSerial 0 key + 1, tid := h.tid, slot := h.g
            index := h.grp.index, lslot := slot, ctx := h.ctx, want := f.unit.toNat, since := s.clk, aged := false, state := .queued
            unit := 0, grantAt := 0, heldAt := 0, wakeAt := 0, revokeAt := 0, opser := 0 }
        let queued := fun (t : State) => t.sreg h.g sd = l.handle ∧
          t.chip.leases = mset s.chip.leases s.chip.leaseNext l ∧ t.chip.leaseNext = s.chip.leaseNext + 1 ∧
          t.chip.leaseSerial = mset s.chip.leaseSerial key l.serial ∧
          (t.chip.group? h.g).map Group.leases = some (mset h.grp.leases slot s.chip.leaseNext)
        (f.nb = 1 → ∃ t, exec (.lease f) s = .next t ∧ s.passes t h F [] [sd] ∧ queued t) ∧
        (f.nb = 0 → h.path.sides = [] → ∃ t, exec (.lease f) s = .next t ∧ t.mem = s.mem ∧ queued t ∧
          t.chip.path? h.g h.p = some { h.path with wait := some (.lease s.chip.leaseNext sd), readyAt := s.clk + 1 + F.stall })) ∧
      (s.chip.freeEntry cls place = none → f.nb = 1 → s.scalarGets h (.lease f) F sd 0xFFFFFFFF)) ∧
    (∀ (f : LrelF), h.lanes f.g ≠ 0 →
      let F := xForm f.stall f.g
      s.mayIssue h { Uses.none with ss := [f.sa.toNat], ps := guardPs f.g } →
      (s.chip.leaseBy h.tid (h.s f.sa.toNat) = none → exec (.lrel f) s = .next (s.onward h F id)) ∧
      ∀ uid l, s.chip.leaseBy h.tid (h.s f.sa.toNat) = some (uid, l) → mget? s.chip.leases uid = some l → s.nobodyWaits →
        (l.state = .queued ∨ l.state = .held ∧ s.chip.leaseDrained uid = true) →
        ∃ t, exec (.lrel f) s = .next t ∧ t.mem = s.mem ∧ t.chip.path? h.g h.p = some (h.past F.len F.stall s.clk) ∧
          (∀ g, s.sameRegs t g) ∧ s.retired t h 0 ∧ mget? t.chip.leases uid = none ∧
          (l.state = .held → t.chip.unit l.cls l.place l.unit =
            ⟨none, if f.ret = 1 ∧ l.cls = 0 then some l.tid else none, false⟩)) ∧
    ∀ (f : ScalarPairF), h.lanes f.g ≠ 0 →
      s.mayIssue h { Uses.none with ss := [f.sa.toNat], sd := [f.sd.toNat], ps := guardPs f.g } →
      s.scalarGets h (.lstat f) (xForm f.stall f.g) f.sd.toNat (match s.chip.leaseBy h.tid (h.s f.sa.toNat) with
        | some (_, l) => s.chip.leaseWord s.clk l
        | none => 0)

/-- LEASE_GRANT, LEASE_WAKE_COMPLETE, LEASE_ENTRY_AGED, LEASE_NOTICE and LEASE_REVOKE (R175 to R178, R185): the best entry of a free
unit is granted where its current fits, and wakes for 60, 900 or 1800 clk; an awake lease is HELD and its LEASE goes on;
an entry that has waited 16 lease bounds is aged; a forced holder has 2000 clk of grace, then is REVOKED, and its idle
unit passes on. -/
def Obligations.LeaseEvents : Prop :=
  ∀ (s : State) (q e uid : Nat) (l : Lease),
    (s.chip.leases.find? fun l => queueKey l.2.cls l.2.place = q && l.2.qidx = e) = some (uid, l) → mget? s.chip.leases uid = some l →
    let now := s.clk
    let becomes := fun (i : Instr) (m : Lease) => exec i s =
      .next { s with chip := { s.chip with leases := mmod s.chip.leases uid fun _ => m } }
    (∀ unit, l.state = .queued → unit < classUnits l.cls → (s.chip.unit l.cls l.place unit).lease = none →
      (s.chip.bestLease l.cls l.place unit).map Prod.fst = some uid →
      (s.chip.cluster l.cluster).roomFor (.lease uid) 1 (l.cls ≠ 0) →
      let u := s.chip.unit l.cls l.place unit
      let wake := if l.cls = 0 then (if u.warm ∨ u.retained.isSome then 60 else 900) else 1800
      ∃ t, exec (.leaseGrant q e unit) s = .next t ∧ t.mem = s.mem ∧ t.chip.slots = s.chip.slots ∧
        mget? t.chip.leases uid = some { l with state := .waking, unit := unit, grantAt := now, wakeAt := now + wake } ∧
        (t.chip.unit l.cls l.place unit).lease = some uid ∧
        (t.chip.cluster l.cluster).used = (s.chip.cluster l.cluster).used + 1) ∧
    (l.state = .waking → l.wakeAt ≤ now →
      let held := { l with state := .held, heldAt := now }
      (s.nobodyWaits → (∀ e ∈ s.chip.leases, e.1 = uid → e.2 = l) → becomes (.leaseWakeComplete q e) held) ∧
      ∀ k x sd, s.waits k x → k.wait = .lease uid sd →
        ∃ t, exec (.leaseWakeComplete q e) s = .next t ∧ s.resumes t k x [] ∧ mget? t.chip.leases uid = some held) ∧
    (l.state = .queued → l.aged = false → l.since + 16 * s.chip.lbound l ≤ now → (∀ e ∈ s.chip.leases, e.1 = uid → e.2 = l) →
      becomes (.leaseEntryAged q e) { l with aged := true }) ∧
    (∀ y, l.state = .held → y ∈ s.chip.queueLeases l.cls l.place → s.chip.noneComing y.2 = true → s.chip.forced now y.2 = some uid →
      s.chip.leaseGroup uid = [uid] → (∀ e ∈ s.chip.leases, e.1 = uid → e.2 = l) →
      becomes (.leaseNotice q e) { l with state := .notice, revokeAt := now + 2000 }) ∧
    (l.state = .notice → l.revokeAt ≤ now → l.cls ≠ 0 → s.nobodyWaits → (∀ o ∈ s.chip.engops, o.2.lease ≠ uid) →
      (∀ o ∈ s.chip.copies, o.2.lease ≠ some uid) → (s.chip.unit l.cls l.place l.unit).lease = some uid →
      ∃ t, exec (.leaseRevoke q e) s = .next t ∧ t.mem = s.mem ∧ t.chip.slots = s.chip.slots ∧
        mget? t.chip.leases uid = some { l with state := .revoked } ∧ (t.chip.unit l.cls l.place l.unit).lease = none ∧
        (t.chip.cluster l.cluster).holds (.lease uid) = false)

/-- CQ_GRANT, CQ_REQUEST_AGED, CQ_OVER_BUDGET, CQ_BUDGET_CHANGE, ISLAND_ENTER and ISLAND_EXIT (R183, R184, R187): a request that fits
is granted; one of 65536 clk is aged; over budget for 4096 clk a held lease gets NOTICE; a new budget cancels nothing; a
pair of cores is an island while an MV runs on it and 256 clk longer. -/
def Obligations.Current : Prop :=
  ∀ (s : State),
    (∀ (cl : Nat) (r : Cq) (id : Nat), let k := s.chip.cluster cl
      s.nobodyWaits → k.reqs = [r] → r.owner = .eng id ∨ r.owner = .copy id → k.used + r.need ≤ k.budget →
      (r.siding = true → k.sideUsed + r.need ≤ k.share) →
      ∃ t, exec (.cqGrant cl) s = .next t ∧ t.mem = s.mem ∧ { t.chip with clusters := s.chip.clusters } = s.chip ∧
        t.chip.cluster cl = { k with reqs := [], grants := k.grants ++ [r] }) ∧
    (∀ (cl req : Nat) (r : Cq), (s.chip.cluster cl).reqs[req]? = some r → r.since + 65536 ≤ s.clk →
      exec (.cqRequestAged cl req) s =
        .next { s with chip := s.chip.modCluster cl fun k => { k with reqs := k.reqs.set req { r with aged := true } } }) ∧
    (∀ (cl since uid : Nat) (l : Lease), (s.chip.cluster cl).overSince = some since → (s.chip.cluster cl).over = true →
      since + 4096 ≤ s.clk → (s.chip.leases.filter fun l => l.2.cluster = cl && l.2.state = .held) = [(uid, l)] →
      s.chip.leaseGroup uid = [uid] → mget? s.chip.leases uid = some l →
      ∃ t, exec (.cqOverBudget cl) s = .next t ∧ t.mem = s.mem ∧ { t.chip with leases := s.chip.leases } = s.chip ∧
        mget? t.chip.leases uid = some { l with state := .notice, revokeAt := s.clk + 2000 }) ∧
    (∀ (cl budget share : Nat), (s.chip.cluster cl).reqs = [] →
      ∃ t, exec (.cqBudgetChange cl budget share) s = .next t ∧ t.mem = s.mem ∧ { t.chip with clusters := s.chip.clusters } = s.chip ∧
        (t.chip.cluster cl).budget = budget ∧ (t.chip.cluster cl).share = share ∧
        (t.chip.cluster cl).grants = (s.chip.cluster cl).grants) ∧
    ∀ core : Nat,
      let pair := fun (v : Bool) => ((s.chip.modCore core fun k => { k with island := v }).modCore (neighbour core) fun k =>
        { k with island := v })
      let over' := fun (k : Core) => k.runsMv = false ∧ ∀ t, k.mvEnd = some t → t + 256 ≤ s.clk
      ((s.chip.core core).island = false → (s.chip.core core).runsMv = true ∨ (s.chip.core (neighbour core)).runsMv = true →
        exec (.islandEnter core) s = .next { s with chip := pair true }) ∧
      ((s.chip.core core).island = true → over' (s.chip.core core) → over' (s.chip.core (neighbour core)) →
        exec (.islandExit core) s = .next { s with chip := pair false })

/-- ENG, EWAIT, ENG_OP_START and ENG_OP_COMPLETE (R179 to R183): ENG queues an operation under the lease's next token; EWAIT answers
a finished operation's status, STALE for a token that is none of the lease's 16 last, and parks on one outstanding; a
DIGEST operation in its turn with 16 CQ reads its source and holds its SHA-256 or CRC-64 for its destination; at the end
an operation's bytes stand in memory and its status is set. -/
def Obligations.Engines : Prop :=
  ∀ (s : State),
    (∀ (h : Here) (f : EngF) (uid : Nat) (l : Lease), h.lanes f.g ≠ 0 →
      let sb := f.sb.toNat
      s.mayIssue h { Uses.none with ss := [f.sa.toNat, sb, sb + 1], sd := [f.sd.toNat], ps := guardPs f.g } →
      s.chip.leaseBy h.tid (h.s f.sa.toNat) = some (uid, l) → l.state = .held ∨ l.state = .notice → l.cls ≠ 0 →
      (s.chip.leaseOps uid).length < 8 → s.noWindow h →
      exec (.eng f) s = .next (s.onward h (xForm f.stall f.g) fun c =>
        { c with
          engops := mset c.engops c.engNext
            { lease := uid, cls := l.cls, token := l.token l.opser, after := c.seq, desc := h.pair sb, who := h.actor, started := false
              startAt := 0, parked := none, status := none, out := [], outStatus := 0, feed := false }
          engNext := c.engNext + 1
          leases := mmod c.leases uid fun x => { x with opser := x.opser + 1 } }.modGroup h.g fun x =>
            x.setS f.sd.toNat (l.token l.opser))) ∧
    (∀ (h : Here) (f : ScalarPairF), h.lanes f.g ≠ 0 →
      let F := xForm f.stall f.g
      let tok := h.s f.sa.toNat
      s.mayIssue h { Uses.none with ss := [f.sa.toNat], sd := [f.sd.toNat], ps := guardPs f.g } →
      (∀ st, s.chip.ewaitStatus h.tid tok = some st →
        ∃ t, exec (.ewait f) s = .next t ∧ s.passes t h F [] [f.sd.toNat] ∧ t.sreg h.g f.sd.toNat = BitVec.ofNat 32 st) ∧
      (s.chip.ewaitStatus h.tid tok = none → h.path.sides = [] →
        ∃ t, exec (.ewait f) s = .next t ∧ s.parks t h F (.ewait tok f.sd.toNat))) ∧
    (∀ (op : Nat) (o : EngOp) (dpa pa ta : Nat → Nat), mget? s.chip.engops op = some o → o.cls = 2 → s.chip.engTurn op o = true →
      s.calm o.who → (s.chip.cluster (coreCluster o.who.core)).roomFor (.eng op) 16 true → o.desc.toNat % 64 = 0 →
      s.spans o.who (Use.load o.who.user) o.desc.toNat 64 dpa →
      let d := EngDesc.of (s.bytesAt (piecesOf o.desc.toNat 64 dpa))
      let n := if d.op = 0 then 32 else 8
      d.fits 2 = true → s.spans o.who (Use.load o.who.user) d.src d.count pa → s.spans o.who (Use.store o.who.user) d.dst n ta →
      let src := s.bytesAt (piecesOf d.src d.count pa)
      ∃ t, exec (.engOpStart op) s = .next t ∧ t.mem = s.mem ∧ t.chip.slots = s.chip.slots ∧
        mget? t.chip.engops op = some { o with
          started := true, startAt := s.clk, outStatus := 0
          out := cutBytes (piecesOf d.dst n ta) (if d.op = 0 then sha256 src else toLE 8 (crc64 src).toNat) }) ∧
    ∀ (op pa : Nat) (o : EngOp) (bs : List Byte), mget? s.chip.engops op = some o → o.started = true → o.status = none → o.feed = false →
      o.who.mode = 0 → s.plain → s.Inv → o.out = [(pa, bs)] →
      ∃ t, exec (.engOpComplete op) s = .next t ∧ t.chip.slots = s.chip.slots ∧
        mget? t.chip.engops op = some { o with status := some o.outStatus, parked := none } ∧
        (∀ i, i < bs.length → Memory.read t.mem (pa + i) = bs.getD i 0) ∧
        ∀ a, a < pa ∨ pa + bs.length ≤ a → Memory.read t.mem a = Memory.read s.mem a

/-! ## Copies -/

/-- COPY, COBJ and CPWAIT on a completion object in scratch, and COPY_SECTOR_START, COPY_SECTOR_COMPLETE of a .g2s copy and
COPY_DIGEST_CHECK (R207 to R216): a copy of one slice is posted and adds B to EXPECTED; COBJ zeroes the object; CPWAIT answers the
STATUS of a complete object, else parks; sectors start in stream order with 2 CQ, land their bytes in the record's rows and
add them to ARRIVED; a verified copy adds B where the stream's SHA-256 is DIGEST, else sets STATUS 11. -/
def Obligations.Copies : Prop :=
  ∀ (s : State),
    let untouched := fun (t : State) (core lo : Nat) =>
      (∀ a, (a < lo ∨ lo + 16 ≤ a) → (t.chip.core core).byte a = (s.chip.core core).byte a) ∧
      ∀ k, k ≠ core → (t.chip.core k).scratch = (s.chip.core k).scratch
    (∀ (h : Here) (f : CopyF) (pa off : Nat), h.lanes f.g ≠ 0 → s.calm h.actor → s.chip.groupOps h.g = [] →
      let dir := f.dir.toNat
      let sa := f.sa.toNat
      let sr := f.sr.toNat
      let va := h.pair sa
      let rcd := if dir = 2 then 0 else h.pair sr
      let r := OpRec.of rcd
      let desc := (List.range 64).map fun i => Memory.read s.mem (pa + i)
      let d := Box4.of desc
      let lo := h.team.scrLo + off
      let b := (s.chip.core h.core).bytes lo 16
      dir ≤ 2 → f.dg = 0 →
      s.mayIssue h { Uses.none with
        ss := [f.ss.toNat, sa, sa + 1] ++ (if dir = 2 then [] else [sr, sr + 1]) ++ [], ps := guardPs f.g } →
      s.reaches h (Use.load h.user) 64 [(lowLane h.mask, va)] (fun _ => pa) → s.chip.poisoned pa 64 = false →
      h.s f.ss.toNat = 0 → d.slices = 0 → boxFits d dir false rcd = true →
      (dir ≠ 2 → rcd.getLsbD 63 = false ∧ r.len ≠ 0 ∧ r.tag ≠ 15 ∧ r.endUnit ≤ h.team.scrUnits * 128) →
      (∀ a, a = d.gbase ∨ a ∈ d.rows ∨ (dir = 2 ∧ a = d.dbase) → s.chip.region a = .global) →
      objScratch d.obj = some off → off % 16 = 0 → off + 16 ≤ h.team.scrSize → h.team.slices = [] →
      recNat b 8 2 < 0xFFFF → recNat b 0 4 + d.bytes < 2 ^ 32 → s.chip.movingCopies h.core < 64 →
      (h.slot.clock + 1).toNat % 2 ^ 14 ≠ 0 →
      ∃ t, exec (.copy f) s = .next t ∧ t.chip.path? h.g h.p = some (h.past 8 f.stall.toNat s.clk) ∧ s.sameRegs t h.g ∧
        t.mem = s.mem ∧ s.retired t h 0 ∧ untouched t h.core lo ∧
        (t.chip.core h.core).bytes lo 16 = toLE 4 (recNat b 0 4 + d.bytes) ++ b.drop 4 ∧
        (t.chip.slot h.g).clock = h.slot.clock + 1 ∧ t.chip.copyNext = s.chip.copyNext + 1 ∧
        t.chip.copies = mset s.chip.copies s.chip.copyNext
          { core := h.core, who := h.actor, after := [(h.actor, s.chip.seq)], opm := [], dir := dir, rcd := rcd, dg := false
            lease := none, desc := desc, obj := d.obj, total := d.bytes, next := 0, inflight := [], parked := []
            again := [], landed := 0, feed := [], feedOp := none, checked := false, failed := false }) ∧
    (∀ (h : Here) (f : ObjF) (off : Nat), h.lanes f.g ≠ 0 → s.plain → h.team.raceMode = 0 → s.chip.groupOps h.g = [] →
      let F := xForm f.stall f.g
      let sa := f.sa.toNat
      let sd := f.sd.toNat
      let obj := h.pair sa
      let lo := h.team.scrLo + off
      let b := (s.chip.core h.core).bytes lo 16
      objScratch obj = some off → off % 16 = 0 → off + 16 ≤ h.team.scrSize →
      (s.mayIssue h { Uses.none with ss := [sa, sa + 1], ps := guardPs f.g } →
        ∃ t, exec (.cobj f) s = .next t ∧ s.passes t h F [] [] ∧ (t.chip.core h.core).bytes lo 16 = List.replicate 16 0 ∧
          untouched t h.core lo) ∧
      (s.mayIssue h { Uses.none with ss := [sa, sa + 1], sd := [sd], ps := guardPs f.g } →
        (objDone b = true →
          ∃ t, exec (.cpwait f) s = .next t ∧ s.passes t h F [] [sd] ∧ t.sreg h.g sd = BitVec.ofNat 32 (recNat b 12 1)) ∧
        (objDone b = false → h.path.sides = [] → ∃ t, exec (.cpwait f) s = .next t ∧ s.parks t h F (.cpwait obj sd)))) ∧
    ∀ (cp : Nat) (o : CopyOp) (team : Team) (off : Nat), s.calm o.who → mget? s.chip.copies cp = some o → o.failed = false →
      mget? s.chip.teams o.who.tid = some team → team.core = o.core → objScratch o.obj = some off → off % 16 = 0 →
      let lo := team.scrLo + off
      let b := (s.chip.core o.core).bytes lo 16
      let arrives := fun (n : Nat) => b.take 4 ++ toLE 4 (recNat b 4 4 + n) ++ b.drop 8
      let keeps := fun (t : State) => t.mem = s.mem ∧ t.chip.slots = s.chip.slots
      let cl := coreCluster o.core
      (o.next < o.sectors → o.again = [] → o.inflight.length + o.parked.length < 32 →
        s.chip.requestRoom o.core (slotPart o.who.slot) 1 = true → s.chip.saving o.who.tid = false → (∀ a ∈ o.after, s.chip.drained a.1 a.2 = true) → o.feedOp = none →
        (s.chip.cluster cl).roomFor (.copy cp) 2 false →
        ∃ t, exec (.copySectorStart cp) s = .next t ∧ keeps t ∧
          mget? t.chip.copies cp = some { o with next := o.next + 1, inflight := o.inflight ++ [o.next] } ∧
          t.chip.cluster cl = (s.chip.cluster cl).taking (.copy cp) 2 false (s.chip.ctxPrio o.who.ctx) s.clk) ∧
      (∀ (sector : Nat) (pa : Nat → Nat), sector ∈ o.inflight → o.dir = 0 → o.dg = false →
        let d := Box4.of o.desc
        let n := (o.span sector).2
        let r := OpRec.of o.rcd
        let e := fun k => d.elem ((o.span sector).1 / d.size + k)
        let place := fun (u : Nat × Nat) => team.scrLo + r.row u.1 + 16 * u.2
        d.esz ≤ 4 → (∀ k, k < n / d.size → s.chip.region (e k) = .global ∧ (e k).toNat % d.size = 0 ∧
          s.chip.hit o.who.core o.who.run o.who.ctx (Use.load o.who.user) (e k).toNat = some (pa k) ∧
          s.chip.poisoned (pa k) d.size = false) →
        (∀ u ∈ o.units sector, place u + 16 ≤ lo ∨ lo + 16 ≤ place u) →
        let data := (List.range (n / d.size)).flatMap fun k => (List.range d.size).map fun i => Memory.read s.mem (pa k + i)
        let filled := (o.units sector).zipIdx.foldl (fun (k : Core) u => k.setBytes (place u.1) ((data.drop (16 * u.2)).take 16))
          (s.chip.core o.core)
        ∃ t, exec (.copySectorComplete cp sector) s = .next t ∧ keeps t ∧
          mget? t.chip.copies cp = some { o with inflight := o.inflight.erase sector, landed := o.landed + n } ∧
          (t.chip.core o.core).bytes lo 16 = arrives n ∧
          ∀ a, (a < lo ∨ lo + 16 ≤ a) → (t.chip.core o.core).byte a = filled.byte a) ∧
      (o.dg = true → o.checked = false → o.landed = o.total →
        let good := decide (sha256 (mvals o.feed).flatten = (o.desc.drop 0x40).take 32)
        ∃ t, exec (.copyDigestCheck cp) s = .next t ∧ keeps t ∧
          mget? t.chip.copies cp = some { o with checked := true, feed := [], failed := !good } ∧ untouched t o.core lo ∧
          (t.chip.core o.core).bytes lo 16 =
            (if good then arrives o.total else b.take 12 ++ toLE 1 (if recNat b 12 1 = 0 then 11 else recNat b 12 1) ++ b.drop 13) ∧
          ∀ e x, o.feedOp = some e → mget? s.chip.engops e = some x →
            mget? t.chip.engops e = some { x with status := some 0, parked := none })

/-! ## The matrix unit -/

/-- BLD, MMA, MV, TZERO, TMOV and TDRN are accepted into the engine order (R186, R194, R195, R197, R201, R204, R205), MBAT closes
the open set, MWAIT answers a batch's status or parks, and TALLOC and TFREE change the team's tiles (R191, R198). -/
def Obligations.MatrixIssue : Prop :=
  ∀ (s : State) (h : Here),
    let op := fun (kind : MatKind) (mods : BitVec 6) (mask : BitVec 32) => MatOp.init kind h s.chip.seq mods mask
    let accepts := fun (i : Instr) (F : Form) (o : MatOp) => exec i s = .next (s.onward h F fun c => c.accepting h.core h.g o)
    (∀ (f : MatF), s.orderRoom h →
      let F := xForm f.stall f.g
      let mask := h.lanes f.g
      let a := f.a.toNat
      let b := f.b.toNat
      let c := f.c.toNat
      let ad := f.mods.getLsbD 3
      let ids := fun (on : Bool) => if on then idsOf h c else []
      let tagged := ad = true → ∀ i, i < 32 → mask.getLsbD i → (h.v c i).tag = tagI32 ∨ (h.v c i).tag = tagN32
      (s.mayIssue h { Uses.none with ss := [a, a + 1], ps := guardPs f.g } → s.holdsMx h → h.lanes f.g ≠ 0 →
        recordFits h.team.scrUnits (h.pair a) (loadTag f.mods) → loadFits f.mods (OpRec.of (h.pair a)) = true →
        accepts (.bld f) F { op .bld f.mods h.mask with rcd := h.pair a, bslot := f.d.toNat % 4 }) ∧
      (∀ tile, h.team.tiles[f.d.toNat]? = some tile →
        (s.mayIssue h { Uses.none with
            ss := [a, a + 1] ++ (if ad then [b, b + 1] else []), vs := if ad then [c] else [], ps := guardPs f.g } →
          s.holdsMx h → recordFits h.team.scrUnits (h.pair a) mmaTag → tagged → (ad = true → s.noWindow h) →
          exec (.mma f) s = .next (s.onward h F fun x =>
            let y := x.accepting h.core h.g { op .mma f.mods mask with
              rcd := h.pair a, tile := tile, bslot := bits f.mods.toNat 4 2, desc := if ad then h.pair b else 0
              ids := ids ad, seqP := h.grp.mmaP }
            if f.mods.getLsbD 2 then y.modGroup h.g fun g => { g with mmaP := g.mmaP + 1 } else y)) ∧
        (s.mayIssue h { Uses.none with ss := [a, a + 1, b], vs := if ad then [c] else [], ps := guardPs f.g } →
          s.holdsMx h → tagged → s.noWindow h →
          accepts (.mv f) F { op .mv f.mods mask with
            tile := tile, bslot := bits f.mods.toNat 4 2, desc := h.pair a, sb := h.s b, ids := ids ad }) ∧
        (f.mods.getLsbD 0 = false → s.mayIssue h { Uses.none with ss := [b, b + 1] ++ [a, a + 1], ps := guardPs f.g } →
          recordFits h.team.scrUnits (h.pair a) drainTag →
          (OpRec.of (h.pair a)).rows = 32 → (OpRec.of (h.pair a)).len = 8 * tagBytes (OpRec.of (h.pair a)).tag → s.noWindow h →
          accepts (.tdrn f) F { op .tdrn f.mods mask with
            tile := tile, desc := h.pair b, rcd := h.pair a, dtag := (OpRec.of (h.pair a)).tag.toNat }) ∧
        ∀ pa, f.mods.getLsbD 0 = true → s.mayIssue h { Uses.none with ss := [b, b + 1] ++ [], ps := guardPs f.g } →
          s.calm h.actor → (h.pair b).toNat % 64 = 0 →
          s.reaches h (Use.load h.user) 4 [(0, h.pair b + 4)] (fun _ => pa) → s.chip.poisoned pa 4 = false →
          let dt := BitVec.ofNat 4 (bits (Memory.nat s.mem pa 4) 2 4)
          let regs := (List.range (drainRegs dt)).map fun q => a + q
          drainTag dt = true → a + drainRegs dt ≤ h.grp.alloc → s.chip.usesPending h.g mask { Uses.none with vd := regs } = false →
          ∃ t, exec (.tdrn f) s = .next t ∧ s.passes t h F [] [] ∧
            (t.chip.core h.core).order = mset (s.chip.core h.core).order ((s.chip.core h.core).orderNext + 1)
              { op .tdrn f.mods mask with tile := tile, desc := h.pair b, vd := a, dtag := dt.toNat } ∧
            (t.chip.group? h.g).map Group.openSet = some (h.grp.openSet ++ [(s.chip.core h.core).orderNext + 1]))) ∧
    (∀ (f : TileF) (tile : Nat), s.orderRoom h → s.mayIssue h { Uses.none with ps := guardPs f.g } →
      h.team.tiles[f.d.toNat]? = some tile →
      let F := xForm f.stall f.g
      let mask := h.lanes f.g
      accepts (.tzero f) F { op .tzero 0 mask with tile := tile } ∧
      ∀ src, h.team.tiles[f.a.toNat]? = some src →
        accepts (.tmov f) F { op .tmov 0 mask with tile := tile, tile2 := src }) ∧
    ∀ (f : ScalarPairF), h.lanes f.g ≠ 0 →
      let F := xForm f.stall f.g
      let sa := f.sa.toNat
      let sd := f.sd.toNat
      let tiles := h.team.tiles
      (s.mayIssue h { Uses.none with sd := [sd], ps := guardPs f.g } →
        exec (.mbat f) s = .next (s.onward h F fun c => c.modGroup h.g fun x =>
          ({ x with batches := ⟨x.batchNo, x.openSet⟩ :: x.batches, openSet := [], batchNo := (x.batchNo + 1) % 65536 } : Group).setS
            sd (BitVec.ofNat 32 h.grp.batchNo))) ∧
      (s.mayIssue h { Uses.none with ss := [sa], sd := [sd], ps := guardPs f.g } →
        (∀ st, s.chip.mwaitStatus h.core h.grp (h.s sa).toNat = some st →
          s.scalarGets h (.mwait f) F sd (BitVec.ofNat 32 st)) ∧
        (s.chip.mwaitStatus h.core h.grp (h.s sa).toNat = none → h.path.sides = [] →
          ∃ t, exec (.mwait f) s = .next t ∧ s.parks t h F (.mwait (h.s sa).toNat sd))) ∧
      (f.map = 1 → s.mayIssue h { Uses.none with sd := [sd, sd + 1], ps := guardPs f.g } →
        exec (.talloc f) s = .next (s.onward h F fun c => c.modGroup h.g fun x => x.setPair sd (tileMap tiles))) ∧
      (f.map = 0 → s.mayIssue h { Uses.none with ss := [sa], sd := [sd], ps := guardPs f.g } →
        let more := (s.chip.freeTiles h.core).take (min (h.s sa).toNat 16 - tiles.length)
        exec (.talloc f) s = .next (s.onward h F fun c =>
          ((c.modCore h.core fun k => { k with tiles := k.tiles.filter fun e => !more.contains (e.1 / 4096) }).modTeam h.tid fun t =>
            { t with tiles := t.tiles ++ more }).modGroup h.g fun x => x.setS sd (BitVec.ofNat 32 (tiles.length + more.length)))) ∧
      (s.mayIssue h { Uses.none with ss := [sa], ps := guardPs f.g } →
        let n := (h.s sa).toNat
        (tiles.length ≤ n → exec (.tfree f) s = .next (s.onward h F id)) ∧
        (n < tiles.length → (∀ e ∈ (s.chip.core h.core).order, e.2.status = none →
            e.2.tile ∉ tiles.drop n ∧ e.2.tile2 ∉ tiles.drop n) →
          exec (.tfree f) s = .next (s.onward h F fun c => c.modTeam h.tid fun t => { t with tiles := t.tiles.take n })))

/-- The engine order's starts (R194, R196, R199, R201 to R205): in its turn, with its current, a BLD empties its slot and reads its
rows; an MMA or MV takes its rows, its slot, its stream and its adapters, both sides of a pair at the later of their times and 8 clk; a
drain reads its descriptor; each holds what it will write. -/
def Obligations.MatrixStarts : Prop :=
  ∀ (s : State) (core op : Nat) (o : MatOp),
    let now := s.clk
    let r := OpRec.of o.rcd
    let tile := fun (n i c : Nat) => s.chip.tileVal core n i c
    let begins := fun (i : Instr) (ends : Nat) (out : Map Word) (bad : Bool) =>
      ∃ t, exec i s = .next t ∧ ∃ steps, s.orderGets t core op (o.begun now ends steps out bad)
    (o.kind = .bld → s.starts core op o → r.few = false →
      let rows := (s.chip.recordRows o.who o.rcd (List.range r.rows)).map Prod.snd
      let n := sparseN o.mods
      let d := (loadRows n r.tag).1
      let k := if n ≠ 0 then 64 * (256 / n) else if r.tag = tagQC4 then 512 else if r.tag = tagBF16 then 128 else 256
      let dense : BLoad := ⟨r.tag.toNat, k, n, 0, rows.take d, (rows.drop d).flatten⟩
      let out := if o.mods.getLsbD 0 then (some (⟨r.tag.toNat, (vectorK r.len).getD 0, 0, r.rows, rows, []⟩ : BLoad), 0)
        else if n ≠ 0 ∧ dense.increasing = false then (none, 6) else (some dense, 0)
      ∃ t, exec (.bldStart core op) s = .next t ∧ mget? (t.chip.core core).bslots o.bslot = none ∧
        s.orderGets t core op { o with read := true, startAt := some now, endsAt := now + 136, load := out.1, outStatus := out.2 }) ∧
    (∀ l ads bad, o.kind = .mma → s.starts core op o → o.mods.getLsbD 2 = false → r.few = false →
      s.chip.mmaLoad core o = .ok l → s.adapts o o.desc.toNat l.k none (lanesOf o.mask) ads bad →
      begins (.mmaStart core op) (now + l.occupancy + 24)
        (matOut s.chip core o r.tag l.k (s.chip.recordRows o.who o.rcd (lanesOf o.mask)) (fun row n acc => l.accumulate r.tag row n acc) ads) bad) ∧
    (o.kind = .mma → s.starts core op o → o.mods.getLsbD 2 = true → s.chip.runPairs o = true → (s.chip.twinOp core o).isSome →
      o.readyAt = none →
      ∃ t, exec (.mmaPairReady core op) s = .next t ∧ s.orderGets t core op { o with readyAt := some now }) ∧
    (∀ (q t1 t2 : Nat) (p : MatOp) (l m : BLoad), o.kind = .mma → s.orders core op o → s.chip.twinOp core o = some (q, p) →
      s.orders (pairCore core) q p → o.readyAt = some t1 → p.readyAt = some t2 → max t1 t2 + 8 ≤ now →
      o.startAt = none → o.status = none → o.parked = none → p.parked = none → s.chip.pairMatch core o p = true →
      let even := if core % 2 = 0 then core else pairCore core
      let e := if core % 2 = 0 then (op, o) else (q, p)
      let u := if core % 2 = 0 then (q, p) else (op, o)
      let er := OpRec.of e.2.rcd
      let rows := s.chip.recordRows e.2.who e.2.rcd (lanesOf (e.2.mask ||| u.2.mask))
      let out := fun (k : Nat) (x : MatOp) (l : BLoad) (ads : List (Nat × Adapter)) =>
        let ta := (OpRec.of x.rcd).tag
        matOut s.chip k x ta l.k (rows.filter fun y => x.mask.getLsbD y.1) (fun row n acc => l.accumulate ta row n acc) ads
      er.few = false → s.chip.mmaLoad even e.2 = .ok l → s.chip.mmaLoad (even + 1) u.2 = .ok m →
      ∀ a1 b1 a2 b2, s.adapts e.2 e.2.desc.toNat l.k none (lanesOf e.2.mask) a1 b1 →
      s.adapts u.2 u.2.desc.toNat m.k none (lanesOf u.2.mask) a2 b2 →
      ∃ t, exec (.mmaPairStart core op) s = .next t ∧
        (∃ steps, s.orderGets t even e.1 (e.2.begun now (now + l.occupancy + 24) steps (out even e.2 l a1) b1)) ∧
        ∃ steps, s.orderGets t (even + 1) u.1 (u.2.begun now (now + l.occupancy + 24) steps (out (even + 1) u.2 m a2) b2)) ∧
    (∀ (l : BLoad) (dp wp sp up : Nat → Nat), o.kind = .mv → s.starts core op o →
      mget? (s.chip.core core).bslots o.bslot = some l → l.vecs ≠ 0 → o.desc.toNat % 64 = 0 →
      let u := Use.load o.who.user
      s.spans o.who u o.desc.toNat 64 dp →
      let b := s.bytesAt (piecesOf o.desc.toNat 64 dp)
      let w := recNat b 8 4
      let t4 := BitVec.ofNat 4 (bits w 0 4)
      let k := 256 * (bits w 12 4 + 1)
      let cb := o.sb.toNat
      let rowLen := if t4 = tagQC4 then 64 else 128
      let wa := recNat b 0 8 + cb * recNat b 0x10 8
      let sa := recNat b 0x18 8 + cb * (k / 64) * 128
      let ua := recNat b 0x20 8 + 4 * (cb * (k / 256) * 128)
      t4 = tagF8A ∨ t4 = tagF8B ∨ t4 = tagI8 ∨ t4 = tagQC4 → bits w 4 8 = 0 → recNat b 0xC 4 = 0 → recNat b 0 8 % 128 = 0 →
      recNat b 0x10 8 % 128 = 0 → (t4 ≠ tagQC4 → recNat b 0x20 8 = 0) → (∀ x ∈ b.drop 0x30, x = 0) → l.k = k →
      streamPair l.tag4 t4 = true → cb < bits w 16 16 →
      s.spans o.who u wa (k * rowLen) wp → s.spans o.who u sa (k / 64 * 128) sp →
      (t4 = tagQC4 → s.spans o.who u ua (4 * (k / 256) * 128) up) →
      let ws := s.bytesAt (piecesOf wa (k * rowLen) wp)
      let wt : Weights := ⟨t4, (List.range k).map fun i => (ws.drop (i * rowLen)).take rowLen, s.bytesAt (piecesOf sa (k / 64 * 128) sp)
        , if t4 = tagQC4 then s.bytesAt (piecesOf ua (4 * (k / 256) * 128) up) else []⟩
      let rows := ((lanesOf o.mask).filter fun i => i < l.vecs).map fun i => (i, l.rows.getD i [])
      ∀ ads bad, s.adapts o (recNat b 0x28 8) k (some cb) (rows.map Prod.fst) ads bad →
      begins (.mvStart core op) 0
        (matOut s.chip core o l.tag4 k rows (fun row n acc => wt.accumulate l.tag4 k row n acc) ads) bad) ∧
    (∀ (dp : Nat → Nat) (team : Team) (run : Run), o.kind = .tdrn → s.starts core op o → o.desc.toNat % 64 = 0 →
      mget? s.chip.teams o.who.tid = some team → mget? s.chip.runs o.who.run = some run →
      s.spans o.who (Use.load o.who.user) o.desc.toNat 64 dp →
      let d := Drain.of (s.bytesAt (piecesOf o.desc.toNat 64 dp))
      let rr := OpRec.of d.resrec
      let dt := BitVec.ofNat 4 o.dtag
      let rows := lanesOf o.mask
      d.clean = true → (d.res = true → recordFits team.scrUnits d.resrec residualTag ∧ rr.rows = 32 ∧
        rr.len = 8 * tagBytes rr.tag ∧ rr.few = false) →
      let res := s.chip.recordRows o.who d.resrec rows
      let elem := fun i n => d.elem run.lid dt (o.mods.getLsbD 3) i n (tile o.tile i n)
        (if d.res then some (rr.tag, rowElem rr.tag (((res.find? fun x => x.1 = i).map Prod.snd).getD []) n) else none)
      let n := 4 / tagBytes dt
      let cw := bits o.mods.toNat 1 2
      let regs := rows.flatMap fun i => (List.range (drainRegs dt)).map fun q =>
        (o.vd + q, i, BitVec.ofNat 32 (packElems (8 * tagBytes dt) ((List.range n).map fun j => elem i (32 * cw + q * n + j))))
      let bytes := rows.flatMap fun i => (List.range 128).map fun n =>
        (team.scrLo + r.row i + n * tagBytes dt, toLE (tagBytes dt) (elem i n))
      ∃ t, exec (.tdrnStart core op) s = .next t ∧ s.orderGets t core op { o with
        startAt := some now, outBytes := if o.mods.getLsbD 0 then [] else bytes, outRegs := if o.mods.getLsbD 0 then regs else [] }) ∧
    (o.kind = .tzero → s.starts core op o →
      begins (.tzeroStart core op) (now + 8) (tileRows o.tile (lanesOf o.mask) fun _ _ => 0) false) ∧
    (o.kind = .tmov → s.starts core op o →
      begins (.tmovStart core op) (now + 8) (tileRows o.tile (lanesOf o.mask) fun i n => tile o.tile2 i n) false)

/-- The engine order's completions (R194, R196, R201, R203 to R205): a BLD fills its slot, an MMA, MV, TZERO or TMOV writes its
tile words, a TDRN its scratch bytes or registers; each takes its status. -/
def Obligations.MatrixCompletions : Prop :=
  ∀ (s : State) (core op : Nat) (o : MatOp), s.orders core op o → o.running = true →
    let lands := fun (i : Instr) => ∃ t, exec i s = .next t ∧ t.mem = s.mem ∧ t.chip.slots = s.chip.slots ∧
      (t.chip.core core).scratch = (s.chip.core core).scratch ∧ mget? (t.chip.core core).order op = some o.done ∧
      (t.chip.core core).tiles = o.outTile.foldl (fun m e => mput 0 m e.1 e.2) (s.chip.core core).tiles
    let plain := o.outBytes = [] ∧ o.outRegs = [] ∧ o.endsAt ≤ s.clk
    (∀ l, o.kind = .bld → o.read = true → o.endsAt ≤ s.clk → o.load = some l →
      (∀ uid, (s.chip.unit 0 core 0).lease = some uid → ∃ x, mget? s.chip.leases uid = some x ∧ x.state ≠ .revoked) →
      ∃ t, exec (.bldComplete core op) s = .next t ∧ mget? (t.chip.core core).bslots o.bslot = some l ∧
        s.orderGets t core op { o with load := none, status := some o.outStatus, parked := none }) ∧
    (o.kind = .mma → plain → lands (.mmaComplete core op)) ∧
    (o.kind = .mv → o.outBytes = [] → o.outRegs = [] →
      lands (.mvComplete core op) ∧ ∃ t, exec (.mvComplete core op) s = .next t ∧ (t.chip.core core).mvEnd = some s.clk) ∧
    (o.kind = .tzero → plain → lands (.tzeroComplete core op)) ∧
    (o.kind = .tmov → plain → lands (.tmovComplete core op)) ∧
    (o.kind = .tdrn → o.outTile = [] →
      ∃ t, exec (.tdrnComplete core op) s = .next t ∧ t.mem = s.mem ∧ mget? (t.chip.core core).order op = some o.done ∧
        (t.chip.core core).scratch = (o.outBytes.foldl (fun (k : Core) e => k.setBytes e.1 e.2) (s.chip.core core)).scratch ∧
        t.chip.group? o.who.slot = (s.chip.group? o.who.slot).map fun g =>
          o.outRegs.foldl (fun (g : Group) e => g.setV e.1 e.2.1 ⟨e.2.2, BitVec.ofNat 4 o.dtag⟩) g)

/-! ## Ends of lanes, returns and sides -/

/-- EXIT and TRET (R23, R258 to R260, R358): EXIT takes its lanes from the path and the group; a path without lanes leaves, or its
lowest stacked side takes over; TRET returns to the mask and the resume address of its frame, EMU.NEXT after ILLEGAL, and
to the level it came from. -/
def Obligations.ExitAndReturn : Prop :=
  ∀ (s : State) (h : Here) (f : GuardF), s.nobodyWaits → s.mayIssue h { Uses.none with ps := guardPs f.g } → h.lanes f.g ≠ 0 →
    let F := xForm f.stall f.g
    let past := h.past F.len F.stall s.clk
    let leaves := ∃ t, exec (.exit f) s = .next t ∧ t.mem = s.mem ∧ s.sameRegs t h.g ∧ s.retired t h 0 ∧
      (t.chip.group? h.g).map Group.live = some (h.grp.live &&& ~~~h.lanes f.g)
    let path := fun (q : Option Path) => ∃ t, exec (.exit f) s = .next t ∧ t.chip.path? h.g h.p = q
    (h.path.level = .normal → leaves) ∧
    (h.path.level = .normal → h.mask &&& ~~~h.lanes f.g ≠ 0 → path (some { past with mask := h.mask &&& ~~~h.lanes f.g })) ∧
    (h.path.level = .normal → h.lanes f.g = h.mask → h.path.sides = [] → path none) ∧
    (∀ x r, h.path.level = .normal → h.lanes f.g = h.mask → takeLow h.path.sides = some (x, r) → x.wait = none →
      path (some { past with stack := r, pc := x.pc, mask := x.mask, wait := none, shielded := false, runSince := s.clk })) ∧
    ∀ (fr : Frame), h.path.level ≠ .normal → s.plainReads → h.path.hstack = [] → (∀ o ∈ s.chip.groupOps h.g, o.held = true) →
      let sup := decide (h.path.level = .supervisor)
      let illegal := decide (fr.cause.toNat % 256 = causeIllegal)
      (if sup then h.path.supFrame else h.path.userFrame) = some fr → fr.replays = [] → fr.heldStore = none →
      (∀ x ∈ h.path.stack ++ h.path.ustack, x.wait = none) →
      let target := if illegal then h.grp.emu.next else BitVec.ofNat 64 (Memory.nat s.mem (s.chip.framePa h + 8) 8)
      target.getLsbD 0 = false →
      ∃ t, exec (.tret f) s = .next t ∧ t.mem = s.mem ∧ s.sameRegs t h.g ∧ s.retired t h 0 ∧
        t.chip.path? h.g h.p = some { past with
          level := if sup && fr.nested then .user else .normal, mask := fr.mask, pc := target
          hstack := if sup && fr.nested then h.path.ustack else [], ustack := [], supFrame := none
          userFrame := if sup then h.path.userFrame else none, dbgHeld := false }

/-- REGSET, REGSET_GROWTH_GRANT and REGSET_DEADLOCK (R18, R274, R396, R397): a shrink drops the registers above the count; a growth
takes its blocks where no earlier grower waits and they are free, else .nb answers the count it has and another waits in
order; a granted one grows; where all of a core's groups wait and one unit holds it, its growers are refused. -/
def Obligations.RegisterGrowth : Prop :=
  ∀ (s : State),
    (∀ (h : Here) (f : RegsetF), h.lanes f.g ≠ 0 →
      let F := xForm f.stall f.g
      let sd := f.sd.toNat
      let n := if f.imm = 1 then f.n.toNat else (h.s f.sa.toNat).toNat
      let old := h.grp.alloc
      let part := slotPart h.g
      let first := ∀ e, (s.chip.growersOf h.core part).head? = some e → e.1 = h.g ∧ e.2.1 = h.p
      let fits := s.chip.blocksUsed h.core part + (n - old) / 8 ≤ 128
      let mine := fun (e : Nat × Nat × Nat × Nat) => e.1 = h.g && e.2.1 = h.p
      let set := fun (x : Group) (k : Nat) => x.setS sd (BitVec.ofNat 32 k)
      let grows := fun (out : Host.Outcome State Fault Refusal) (s' : State) => out = .next (s'.onward h F fun c =>
        ((c.modCore h.core fun k => { k with growers := k.growers.filter fun e => !mine e }).modGroup h.g fun x =>
          set { x with alloc := n } n))
      s.mayIssue h { Uses.none with ss := if f.imm = 1 then [] else [f.sa.toNat], sd := [sd], ps := guardPs f.g } →
      n % 8 = 0 → 8 ≤ n → n ≤ 128 →
      (n < old → (∀ k, n ≤ k → k < old → s.chip.regPending h.g (BitVec.allOnes 32) .vector k = false) →
        exec (.regset f) s = .next (s.onward h F fun c => c.modGroup h.g fun x =>
          set { x with alloc := n, v := x.v.filter fun e => e.1 / 32 < n
                       hazards := x.hazards.filter fun z => z.file ≠ .vector || z.idx < n } n)) ∧
      (n = old → s.scalarGets h (.regset f) F sd (BitVec.ofNat 32 old)) ∧
      (old < n → h.path.refuseGrow = false → first → fits → grows (exec (.regset f) s) s ∧
        ∀ o, s.noWindow h → s.chip.growersOf h.core part ≠ [] → s.actor = (h.g, h.p) → h.team.saveBy = none → h.path.blocked = none →
          h.path.dbgHeld = false → h.path.heldSince = none → s.codeHot h 8 → wordLength (leNat (s.code h 2)) = 8 →
          decode (s.code h 8) = some (.regset f, []) →
          grows (exec (.regsetGrowthGrant h.core part) { s with actor := o }) s) ∧
      (old < n → h.path.refuseGrow = false → ¬ (first ∧ fits) → f.nb = 1 → s.scalarGets h (.regset f) F sd (BitVec.ofNat 32 old)) ∧
      (old < n → h.path.refuseGrow = false → ¬ (first ∧ fits) → f.nb = 0 → (∀ e ∈ (s.chip.core h.core).growers, mine e = false) →
        ∃ t, exec (.regset f) s = .next t ∧ s.sameRegs t h.g ∧ t.mem = s.mem ∧ t.chip.path? h.g h.p = some h.path ∧
          (t.chip.core h.core).growers = (s.chip.core h.core).growers ++ [(h.g, h.p, h.path.pc.toNat, n)])) ∧
    ∀ (core tid : Nat) (team : Team) (r : Run), s.chip.allGrow core = true → s.chip.coreTeams core = [(tid, team)] →
      mget? s.chip.runs team.run = some r → team.saveBy = none →
      let tight := [0, 1, 2, 3].flatMap fun p => (s.chip.growersOf core p).filter fun e =>
        match s.chip.group? e.1 with
        | some x => s.chip.blocksUsed core p + (e.2.2.2 - x.alloc) / 8 > 128
        | none => false
      tight ≠ [] → exec (.regsetDeadlock core) s = .next { s with chip := tight.foldl (fun c e =>
        c.modPath e.1 e.2.1 fun x => { x with refuseGrow := true }) s.chip }

/-! ## Completion, errors, aging -/

/-- GROUP_SLOT_FREE, TEAM_COMPLETE and LAUNCH_COMPLETE (R36, R153, R235): an exited group with nothing to come leaves its slot; a
team with nothing left leaves its core, counted as done, its directory entries DEPARTED; a dispatched run whose teams are
all done or dead is complete, its entries DONE, and its completion object holds 1, the status, the teams and the launch. -/
def Obligations.Completion : Prop :=
  ∀ (s : State),
    (∀ (g : Nat) (x : Group), s.chip.group? g = some x → x.live = 0 → s.chip.saving x.tid = false → s.chip.drainsTo g = false →
      s.chip.opmOnGroup g = false → (∀ o ∈ s.chip.groupOps g, o.kind = .store ∨ o.kind = .mred) →
      ∃ t, exec (.groupSlotFree g) s = .next t ∧ t.mem = s.mem ∧ t.chip.slot g = { s.chip.slot g with group := none } ∧
        (∀ k, k ≠ g → t.chip.slot k = s.chip.slot k) ∧ t.chip.mons = (s.chip.dropMonitors [g]).mons ∧
        t.chip.teams = mmod s.chip.teams x.tid fun y => { y with freed := y.freed ++ [g] }) ∧
    (∀ (tid : Nat) (x : Team) (r : Run), mget? s.chip.teams tid = some x → mget? s.chip.runs x.run = some r →
      s.chip.teamDone tid x = true → r.traced = false → (s.chip.part r.part).resetting = false →
      ∃ t, exec (.teamComplete tid) s = .next t ∧ t.mem = s.mem ∧ mget? t.chip.teams tid = none ∧
        ((mget? t.chip.runs x.run).map fun y => (y.doneTeams, y.retSum, y.status)) =
          some (r.doneTeams ++ [x.num.toNat], r.retSum + x.ret.toNat, r.status) ∧
        ∀ g ∈ x.slots, (t.chip.slot g).dir = (s.chip.slot g).dir.map fun e =>
          (e.1, if e.2.run = x.run && e.2.team = x.num && e.2.state = .resident then { e.2 with state := .departed } else e.2)) ∧
    ∀ (id : Nat) (r : Run), s.plain → s.Inv → mget? s.chip.runs id = some r → r.status = .dispatched →
      r.total ≤ r.doneTeams.length + r.deadTeams.length → (∀ o ∈ s.chip.memq, o.who.run ≠ id) →
      (∀ w ∈ s.chip.regionq, w.run ≠ id) → (∀ o ∈ s.chip.copies, o.2.who.run = id → o.2.moving = false) → r.outEdges = [] →
      let status := if r.lost then 6 else if r.fault then 1 else 0
      let completes := fun (t : State) => (mget? t.chip.runs id).map Run.status = some .complete ∧
        ∀ g, (t.chip.slot g).dir = (s.chip.slot g).dir.map fun d => (d.1, if d.2.run = id then { d.2 with state := .done } else d.2)
      (r.cobj = 0 → ∃ t, exec (.launchComplete id) s = .next t ∧ completes t ∧ t.mem = s.mem) ∧
      ∀ pa, r.cobj ≠ 0 → r.cobj.toNat % 16 = 0 → s.mapped r.ctx true r.cobj.toNat pa →
        ∃ t, exec (.launchComplete id) s = .next t ∧ completes t ∧
          s.stores t pa (toLE 4 1 ++ toLE 4 status ++ toLE 4 r.doneTeams.length ++ toLE 4 r.lid.toNat)

/-- ECC_CORRECTED and PATROL_SCRUB (R122): for every die and counter group, in every state, the event completes and counts one
corrected error; nothing else changes.

SLOT_CLOCK_AGING, EPOCH_AGING and MARK_AGING_FINISH (R154, R156): in every state in which a slot's clock or a run's LE ages, the
event completes; the marks of the slot that lie more than 2^14 behind the multiple of 2^14 which its clock has crossed, or the
marks that the LE left to age and no later write has replaced, become AGED, every other mark stays, and with the finish the
aging has ended.

ECC_UNCORRECTABLE (R120 to R122): in a machine in which nobody waits the event completes at every kind of place: the error is
counted; the team that holds the structure is killed, or the copy of a cache goes, the granules of an L2 line or of memory are
poisoned, a mark is summarised, an asynchronous operation ends with ECC, or a mailbox fails. -/
def Obligations.AgingAndErrors : Prop :=
  (∀ (s : State) (die grp : Nat), die < 4 → grp < 10 →
    exec (.eccCorrected die grp) s = .next { s with chip := s.chip.counted die grp true }) ∧
  (∀ (s : State) (die grp : Nat), die < 4 → grp = 5 ∨ grp = 6 →
    exec (.patrolScrub die grp) s = .next { s with chip := s.chip.counted die grp true }) ∧
  (∀ (s : State) (g : Nat), (s.chip.slot g).aging = true →
    ∃ t, exec (.slotClockAging g) s = .next t ∧ t.mem = s.mem ∧ t.clk = s.clk ∧ t.chip.slots = s.chip.slots ∧
      t.chip.runs = s.chip.runs ∧ s.chip.agesTo t.chip (fun _ m => s.chip.behind g m)) ∧
  (∀ (s : State) (g : Nat), (s.chip.slot g).aging = true →
    ∃ t, exec (.markAgingFinish false g) s = .next t ∧ t.mem = s.mem ∧ t.clk = s.clk ∧
      t.chip.slot g = { s.chip.slot g with aging := false } ∧ (∀ k, k ≠ g → t.chip.slot k = s.chip.slot k) ∧
      t.chip.runs = s.chip.runs ∧ s.chip.agesTo t.chip (fun _ m => s.chip.behind g m)) ∧
  (∀ (s : State) (id : Nat) (r : Run), mget? s.chip.runs id = some r → r.leAging = true →
    ∃ t, exec (.epochAging id) s = .next t ∧ t.mem = s.mem ∧ t.clk = s.clk ∧ t.chip.slots = s.chip.slots ∧
      t.chip.runs = s.chip.runs ∧ s.chip.agesTo t.chip r.leftBehind) ∧
  (∀ (s : State) (id : Nat) (r : Run), mget? s.chip.runs id = some r → r.leAging = true →
    ∃ t, exec (.markAgingFinish true id) s = .next t ∧ t.mem = s.mem ∧ t.clk = s.clk ∧ t.chip.slots = s.chip.slots ∧
      mget? t.chip.runs id = some { r with leAging := false, toAge := [] } ∧
      (∀ k, k ≠ id → mget? t.chip.runs k = mget? s.chip.runs k) ∧ s.chip.agesTo t.chip r.leftBehind) ∧
  (∀ (s : State) (e : EccSite) (tid : Nat) (x : Team) (r : Run), s.nobodyWaits → s.chip.link.retraining = none →
    s.chip.eccTeam e = some tid → mget? s.chip.teams tid = some x → mget? s.chip.runs x.run = some r → r.idem = false →
    s.chip.opmAgainst tid = false →
    ∃ t, exec (.eccUncorrectable e) s = .next t ∧ mget? t.chip.teams tid = none ∧
      ((mget? t.chip.runs x.run).map fun y => (y.fault, mgetD y.restarts 0 x.num.toNat)) = some (true, 255)) ∧
  (∀ (s : State) (core line : Nat), s.nobodyWaits →
    exec (.eccUncorrectable (.l1Shared core line)) s = .next { s with chip := s.chip.counted (coreDie core) 4 false }) ∧
  (∀ (s : State) (core line : Nat), s.nobodyWaits →
    let c := s.chip.modCore core fun x => { x with icache := merase x.icache line }
    exec (.eccUncorrectable (.icache core line)) s = .next { s with chip := c.counted (coreDie core) 4 false }) ∧
  (∀ (s : State) (core line : Nat), s.nobodyWaits → (∀ w ∈ s.chip.wsets, w.versions = []) →
    ∃ t, exec (.eccUncorrectable (.partials core line)) s = .next t ∧ t.mem = s.mem ∧
      (t.chip.core core).partials = (s.chip.core core).partials.filter (fun x => x.1 / 128 ≠ line) ∧
      ∀ e ∈ (s.chip.core core).partials, e.1 / 128 = line → e.1 / 32 ∈ t.chip.poison) ∧
  (∀ (s : State) (die : Nat) (hbm : Bool) (gran : Nat), s.nobodyWaits → (∀ w ∈ s.chip.wsets, w.versions = []) →
    gran ∉ s.chip.poison →
    let c : Chip := { s.chip with poison := s.chip.poison ++ [gran] }
    exec (.eccUncorrectable (.granule die hbm gran)) s = .next { s with chip := c.counted die (if hbm then 6 else 5) false }) ∧
  (∀ (s : State) (die line : Nat), s.nobodyWaits → s.plainMemory →
    exec (.eccUncorrectable (.directory die line)) s = .next { s with chip := s.chip.counted die 5 false }) ∧
  (∀ (s : State) (id : Nat) (o : CopyOp), s.nobodyWaits → s.chip.link.retraining = none → mget? s.chip.copies id = some o →
    o.moving = true → ∃ t, exec (.eccUncorrectable (.asyncCopy id)) s = .next t ∧
      mget? t.chip.copies id = some { o with failed := true, next := o.sectors, parked := [], again := [] }) ∧
  (∀ (s : State) (core key : Nat) (o : MatOp), s.nobodyWaits → mget? (s.chip.core core).order key = some o → o.status = none →
    ∃ t, exec (.eccUncorrectable (.asyncOrder core key)) s = .next t ∧ (t.chip.core core).tiles = (s.chip.core core).tiles ∧
      mget? (t.chip.core core).order key = some { o with status := some 2, parked := none }) ∧
  (∀ (s : State) (id : Nat) (o : EngOp), s.nobodyWaits → s.chip.link.retraining = none → mget? s.chip.engops id = some o →
    o.status = none → ∃ t, exec (.eccUncorrectable (.asyncEng id)) s = .next t ∧
      mget? t.chip.engops id = some { o with status := some 2, parked := none }) ∧
  (∀ (s : State) (die gran : Nat), s.nobodyWaits →
    let c : Chip := { s.chip with marks := mset s.chip.marks gran markSummary }
    exec (.eccUncorrectable (.mark die gran)) s = .next { s with chip := c.counted die 8 false }) ∧
  (∀ (s : State) (core gran : Nat), s.nobodyWaits →
    let c := s.chip.modCore core fun x => { x with smarks := mput markClear x.smarks gran markSummary }
    exec (.eccUncorrectable (.scratchMark core gran)) s = .next { s with chip := c.counted (coreDie core) 8 false }) ∧
  ∀ (s : State) (die : Nat), s.nobodyWaits → s.chip.link.retraining = none →
    (∀ k ∈ s.chip.clusters, ∀ r ∈ k.2.box.routines, r.2.mlog2 = 0 ∨ r.2.mdie ≠ die) →
    ∃ t, exec (.eccUncorrectable (.mailbox die)) s = .next t ∧ (t.chip.die die).mboxFailed = true

/-! ## Launches -/

/-- QUEUE_RECORD_ACCEPT, LAUNCH_HEAD, ENQ and ENQ_PARK_RETRY (R231 to R236, R238, R355): a record that R234 accepts becomes a run
at the end of its queue and HEAD moves on; a record refused moves HEAD alone; a queue's first run becomes head with its
ranges; ENQ copies its record into the slot at TAIL with status 0, answers 1 to .nb where the queue is full and 2 where it
does not run, or parks until the slot frees. -/
def Obligations.Queues : Prop :=
  ∀ (s : State) (q : Nat) (e : Queue), mget? s.chip.queues q = some e → s.plainMemory → s.Inv →
    let ctx := e.ctx
    (∀ pa, e.state = .running → (s.chip.ctx ctx).state = .active → s.queued e ≠ 0 → s.queued e ≤ e.size →
      let hdr := e.hdr.toNat
      let va := e.ring.toNat + 256 * (e.head % e.size)
      let part := (s.chip.ctx ctx).part
      let c := s.chip
      s.mapped ctx false va pa → va % 4096 + 256 ≤ 4096 → c.poisoned pa 256 = false →
      let r := Run.make c c.lidNext ctx part q ((List.range 256).map fun i => Memory.read s.mem (pa + i))
      let good := r.recordOk c && r.shapeOk && r.levelsOk && r.everFits (c.part part)
      r.traced = false → r.rlog = 0 → r.outEdges = [] → r.compa = 0 →
      let next := (e.head + 1) % 2 ^ 32
      let taken := { r with cobj := 0, wver := c.currentVersion r, know := mgetD e.edges [] e.head }
      ∃ t, exec (.queueRecordAccept q) s = .next t ∧ s.stores t (hdr + 0x14) (toLE 4 next) ∧
        mget? t.chip.queues q = some { e with
          head := next, edges := merase e.edges e.head, line := e.line ++ (if good then [c.runNext] else []) } ∧
        if good then
          t.chip.unpaused.runs = ({ c with runs := mset c.runs c.runNext taken } : Chip).unpaused.runs ∧
          t.chip.runNext = c.runNext + 1 ∧ t.chip.lidNext = (if c.lidNext + 1 = 0 then 1 else c.lidNext + 1)
        else t.chip.unpaused.runs = c.unpaused.runs ∧ t.chip.lidNext = c.lidNext) ∧
    (∀ (id : Nat) (r : Run), e.line.head? = some id → mget? s.chip.runs id = some r → r.status = .queued →
      (s.chip.part r.part).resetting = false →
      let head := { r.split (s.chip.part r.part) with status := .head, ageFrom := s.clk, paused := 0, pausedSince := none }
      ∃ t, exec (.launchHead q) s = .next t ∧ t.mem = s.mem ∧ t.clk = s.clk ∧
        t.chip.unpaused = (s.chip.modRun id fun _ => head).unpaused) ∧
    (∀ (h : Here) (f : EnqF) (pa sp : Nat), h.lanes f.g ≠ 0 → s.calm h.actor → s.chip.groupOps h.g = [] → e.ctx = h.ctx → e.dev = true →
      let F := xForm f.stall f.g
      let sa := f.sa.toNat
      let sd := f.sd.toNat
      let src := h.pair sa
      let answers := fun (st : Word) => ∃ t, exec (.enq f) s = .next t ∧ s.passes t h F [] [sd] ∧ t.sreg h.g sd = st
      q ≤ 4095 → (h.s f.sq.toNat).toNat = q → src.toNat % 64 = 0 →
      s.mayIssue h { Uses.none with ss := [sa, sa + 1, f.sq.toNat], sd := [sd], ps := guardPs f.g } →
      (∀ k, k < 4 → s.chip.region (src + BitVec.ofNat 64 (64 * k)) = .global ∧ s.chip.poisoned (pa + 64 * k) 64 = false ∧
        s.chip.hit h.core h.runId h.ctx (Use.load h.user) (src + BitVec.ofNat 64 (64 * k)).toNat = some (pa + 64 * k)) →
      (e.state = .running → s.queued e < e.size → s.enqAt h.actor h.user e src pa sp → (h.slot.clock + 1).toNat % 2 ^ 14 ≠ 0 →
        ∃ t, exec (.enq f) s = .next t ∧ s.goesOn t h F [] [sd] ∧ t.sreg h.g sd = 0 ∧ s.enqueued t e pa sp ∧
          (t.chip.slot h.g).clock = h.slot.clock + 1 ∧ ∃ know, mget? t.chip.queues q = some { e with
            edges := mset e.edges (Memory.nat s.mem (e.hdr.toNat + 0x10) 4) know }) ∧
      (e.state ≠ .running → answers 2) ∧
      (e.state = .running → e.size ≤ s.queued e → f.nb = 1 → answers 1) ∧
      (e.state = .running → e.size ≤ s.queued e → f.nb = 0 → h.path.sides = [] → s.chip.mons.length < 512 →
        ∃ t, exec (.enq f) s = .next t ∧ s.parks t h F (.enq q src sd))) ∧
    ∀ (k : Parked) (x : Path) (h : Here) (who : Actor) (src : Addr) (sd pa sp : Nat), s.chip.here? k.g k.p = some h →
      s.waits k x → s.chip.monitorDue k s.clk = true → k.wait = .enq q src sd → s.chip.parkedActor k = some who → e.state = .running → s.queued e < e.size →
      s.enqAt who (x.level ≠ .supervisor) e src pa sp → (h.slot.clock + 1).toNat % 2 ^ 14 ≠ 0 →
      ∃ t, exec (.enqParkRetry k.g k.p) s = .next t ∧ s.resumes t k x [sd] ∧ t.sreg k.g sd = 0 ∧ s.enqueued t e pa sp

/-- RELAUNCH and RELAUNCH_SELECT (R152, R289 to R292): every RELAUNCH publishes its group's clock; a handle that names no live set
answers 1, a set that relaunches 2, a queue that does not run 3; .free clears the bitmap and frees the set; another mode takes the
bitmap's tiles as its snapshot, clears it, selects the teams, of which any make a run that joins the queue at this moment with the
current version of its weights, and parks; RELAUNCH_SELECT answers the number of teams with status OK. That the run joins at the
RELAUNCH itself is the model's choice (assumption 92). -/
def Obligations.Relaunches : Prop :=
  ∀ (s : State), s.chip.link.retraining = none → s.Inv →
    (∀ (h : Here) (f : RelaunchF), s.nobodyWaits → h.lanes f.g ≠ 0 → f.sb = 0 → s.chip.groupOps h.g = [] →
      let F := xForm f.stall f.g
      let sd := f.sd.toNat
      let handle := h.s f.sa.toNat
      let x := s.chip.ctx h.ctx
      let released := fun (t : State) => (t.chip.slot h.g).clock = h.slot.clock + 1
      let answers := fun (st : Nat) => ∃ t, exec (.relaunch f) s = .next t ∧ s.passes t h F [] [sd, sd + 1] ∧ released t ∧
        t.spair h.g sd = BitVec.ofNat 64 (st * 2 ^ 32)
      s.mayIssue h { Uses.none with ss := [f.sa.toNat] ++ [], sd := [sd, sd + 1], ps := guardPs f.g } →
      (h.slot.clock + 1).toNat % 2 ^ 14 ≠ 0 →
      (x.watchOf handle.toNat = none → answers 1) ∧
      ∀ set w, x.watchOf handle.toNat = some (set, w) →
        let cleared := fun (t : State) => s.stores t w.bmap (List.replicate (w.tlen / 8) 0)
        (w.state = .relaunching → answers 2) ∧
        (w.state ≠ .relaunching → f.mode = 2 →
          ∃ t, exec (.relaunch f) s = .next t ∧ s.goesOn t h F [] [sd, sd + 1] ∧ released t ∧ t.spair h.g sd = 0 ∧ cleared t ∧
            (t.chip.ctx h.ctx).watch = mset x.watch set { w with state := .free }) ∧
        (w.state ≠ .relaunching → f.mode ≠ 2 → (mget? s.chip.runs w.run).bind (fun r => mget? s.chip.queues r.queue) = none →
          answers 3) ∧
        ∀ r qe, w.state ≠ .relaunching → f.mode ≠ 2 → mget? s.chip.runs w.run = some r → mget? s.chip.queues r.queue = some qe →
          (qe.state ≠ .running → answers 3) ∧
          ∀ snap sel : List Nat, qe.state = .running → h.path.sides = [] →
            (∀ tile, tile ∈ snap ↔ w.tbase ≤ tile ∧ tile < w.tbase + w.tlen / 8 * 8 ∧
              (Memory.read s.mem (w.bmap + (tile - w.tbase) / 8)).getLsbD ((tile - w.tbase) % 8) = true) →
            (∀ u : State, { u.chip with slots := s.chip.slots, teams := s.chip.teams } = s.chip → cleared u →
              ∀ ts : List Nat, (∀ e, e ∈ ts ↔ e ∈ snap) → selectTeams r w f.mode.toNat ts u.tx = .ok (sel, u.tx)) →
            r.traced = false → r.rlog = 0 → r.outEdges = [] →
            ∃ t, exec (.relaunch f) s = .next t ∧ cleared t ∧ s.sameRegs t h.g ∧ released t ∧
              t.chip.path? h.g h.p = some { h.path with
                wait := some (.relaunch 0 w.run sel.length sd), readyAt := s.clk + 1 + F.stall } ∧
              (sel = [] → t.chip.runs = s.chip.runs ∧ (t.chip.ctx h.ctx).watch = x.watch) ∧
              (sel ≠ [] → (t.chip.ctx h.ctx).watch = mset x.watch set { w with state := .relaunching } ∧
                t.chip.runNext = s.chip.runNext + 1 ∧
                ((mget? t.chip.queues r.queue).map Queue.line) = some (qe.line ++ [s.chip.runNext]) ∧
                ∃ know, mget? t.chip.runs s.chip.runNext = some { Run.make s.chip r.lid r.ctx r.part r.queue r.record with
                  sel := some sel, cobj := 0, watch := some handle, wver := s.chip.currentVersion r, know := know })) ∧
    ∀ (k : Parked) (x : Path) (run count sd : Nat), s.waits k x → k.wait = .relaunch 0 run count sd →
      ∃ t, exec (.relaunchSelect k.g k.p) s = .next t ∧ t.mem = s.mem ∧ s.resumes t k x [sd, sd + 1] ∧
        t.spair k.g sd = BitVec.ofNat 64 count

/-! ## Hooks, the guard, pre-emption -/

/-- HOOK_ENQ, HOOK_PICK, HOOK_TICK, HOOK_BLOCK and HOOK_WAKE (R242, R244, R245): the event leaves its box's queue; a hook with a
phase-H routine opens its phase on a snapshot, one without routines takes its defaults, and writes nothing; a new period raises
TICK, and PICK where a candidate is eligible. -/
def Obligations.Hooks : Prop :=
  ∀ (s : State) (cl : Nat), s.chip.link.retraining = none →
    let k := s.chip.cluster cl
    let b := k.box
    let serves := fun (hook subject : Nat) => b.serves ⟨hook, subject⟩ = true
    let default := fun (i : Instr) (hook subject : Nat) => b.routines = [] →
      ∃ t, exec i s = .next t ∧ s.boxGets t cl { b with events := b.events.erase ⟨hook, subject⟩ }
    let opens := fun (i : Instr) (call : Call) => (b.routineFor call).isSome →
      ∃ t, exec i s = .next t ∧ (t.chip.cluster cl).box.opens call ∧
        (t.chip.cluster cl).box.events = b.events.erase ⟨call.hook, call.subject⟩
    (∀ (id : Nat) (r : Run), mget? s.chip.runs id = some r → (s.chip.part r.part).clusters.head? = some cl → serves 0 id →
      default (.hookEnq id) 0 id ∧ opens (.hookEnq id) (Call.start 0 id r.ctx [.run id])) ∧
    (∀ (tid : Nat) (x : Team) (r : Run), mget? s.chip.teams tid = some x → mget? s.chip.runs x.run = some r → coreCluster x.core = cl →
      (serves 4 tid → default (.hookWake tid) 4 tid ∧ opens (.hookWake tid) (Call.start 4 tid r.ctx [.run x.run])) ∧
      (serves 3 tid → default (.hookBlock tid) 3 tid)) ∧
    (∀ part : Nat, s.chip.partOf cl = some part → serves 1 0 →
      (s.chip.candidates part s.clk = [] →
        ∃ t, exec (.hookPick cl) s = .next t ∧ t.mem = s.mem ∧ t.chip.teams = s.chip.teams ∧ t.chip.cluster cl = k.without ⟨1, 0⟩) ∧
      ∀ infos, s.chip.guards part s.clk = [] → infos ≠ [] →
        let y : Tx := { s.tx with chip := s.chip.modCluster cl fun k => k.without ⟨1, 0⟩ }
        eligible cl y = .ok (infos, y) →
        opens (.hookPick cl) (Call.start 1 0 0 (((firstPerCtx infos []).take 16).map CandInfo.cand))) ∧
    ∀ infos, (s.chip.partOf cl).isSome → eligible cl s.tx = .ok (infos, s.tx) →
      (b.tickAt < s.clk / 4096 → b.events = [] →
        ∃ t, exec (.hookTick cl) s = .next t ∧ s.boxGets t cl { b with
          tickAt := s.clk / 4096, events := ⟨2, 0⟩ :: if infos = [] then [] else [⟨1, 0⟩] }) ∧
      (s.clk / 4096 ≤ b.tickAt → serves 2 0 → infos = [] → b.routines = [] →
        ∃ t, exec (.hookTick cl) s = .next t ∧ s.boxGets t cl { b with events := b.events.erase ⟨2, 0⟩ }) ∧
      (s.clk / 4096 ≤ b.tickAt → serves 2 0 →
        opens (.hookTick cl) (Call.start 2 0 0 ((infos.take 16).map CandInfo.cand)))

/-- AGE_GUARD_TRIGGER and AGE_GUARD_PREEMPT (R252, R267, R268): a candidate whose age has reached the bound is guarded and raises
PICK; 4096 clk later, where it fits no cluster, the fewest units whose going lets it fit are pre-empted: an idempotent one
that has hardly begun is flushed, and its launch is head again.

WATCHDOG_FIRST_EXPIRY and WATCHDOG_SECOND_EXPIRY (R275): after W periods without progress a queue's units are pre-empted, one
near its end by a drain of 12000 clk; after W more a team that is not being saved is killed, its launch fails, and the
queue stops. -/
def Obligations.GuardAndWatchdog : Prop :=
  (∀ (s : State) (id part : Nat) (r : Run), mget? s.chip.runs id = some r → r.status = .head → r.part = part →
     let p := s.chip.part part
     (∀ y, refreshAllAges s.tx = .ok ((), s.tx) → r.guarded = none → r.pausedSince = none →
       (s.chip.candidates part s.clk).find? (fun x => x.cand = .run id) = some y → p.sbound * 4096 ≤ y.age →
       ∃ t, exec (.ageGuardTrigger (2 * id)) s = .next t ∧ t.mem = s.mem ∧
         (mget? t.chip.runs id).map Run.guarded = some (some s.clk) ∧
         ∀ k ∈ p.clusters, (s.chip.cluster k).box.events.length < 64 → ⟨1, 0⟩ ∈ (t.chip.cluster k).box.events) ∧
     ∀ (cl t0 v u : Nat) (x : Run), r.guarded = some t0 → t0 + 4096 ≤ s.clk → s.chip.partOf cl = some part →
       s.chip.link.retraining = none →
       s.chip.residentUnits (fun _ _ t => coreCluster t.core = cl) = [(v, u)] → mget? s.chip.runs v = some x →
       (∀ e ∈ s.chip.unitTeams v u, e.2.saveBy = none ∧ s.chip.opmAgainst e.1 = false) → s.chip.unitTeams v u ≠ [] →
       canPreempt [(v, u)] s.tx = .ok (true, s.tx) → fitsWithout cl (.run id) [] s.tx = .ok (false, s.tx) →
       fitsWithout cl (.run id) [(v, u)] s.tx = .ok (true, s.tx) →
       chooseUnit x ((s.chip.unitTeams v u).map Prod.snd) s.clk false = .flush →
       ∃ t, exec (.ageGuardPreempt (2 * id) cl) s = .next t ∧ (mget? t.chip.runs id).map Run.guarded = some (some s.clk) ∧
         (mget? t.chip.runs v).map Run.status = some .head ∧ ∀ e ∈ s.chip.unitTeams v u, mget? t.chip.teams e.1 = none) ∧
  ∀ (s : State) (q : Nat) (e : Queue), mget? s.chip.queues q = some e → e.w ≠ 0 → e.wdFrom + e.w * 4096 ≤ s.clk →
    s.chip.link.retraining = none →
    (∀ (id u : Nat) (r : Run), e.wdFired = false → s.chip.residentUnits (fun _ r _ => r.queue = q) = [(id, u)] →
      mget? s.chip.runs id = some r → (∀ t ∈ s.chip.unitTeams id u, t.2.saveBy = none) →
      chooseUnit r ((s.chip.unitTeams id u).map Prod.snd) s.clk true = .drain →
      ∃ t, exec (.watchdogFirstExpiry q) s = .next t ∧ t.mem = s.mem ∧
        mget? t.chip.queues q = some { e with wdFired := true, wdFrom := s.clk } ∧
        ∀ x ∈ s.chip.unitTeams id u, (mget? t.chip.teams x.1).map Team.drainBy = some (some (s.clk + 12000))) ∧
    ∀ (tid : Nat) (x : Team) (r : Run), e.wdFired = true → s.chip.teams = [(tid, x)] → mget? s.chip.runs x.run = some r →
      r.queue = q → x.saveBy = none → s.chip.opmAgainst tid = false →
      ∃ t, exec (.watchdogSecondExpiry q) s = .next t ∧ t.chip.teams = [] ∧
        ((mget? t.chip.runs x.run).map fun y => (y.fault, mgetD y.restarts 0 x.num.toNat)) = some (true, 255) ∧
        (mget? t.chip.queues q).map (fun y => (y.state, y.wdFired)) = some (.stopped, false)

/-- DRAIN_TIMEOUT, SAVE_COMPLETE, SAVE_BOUND_EXPIRY and UNIT_RESTORE (R266 to R273): a drain that has timed out becomes a save with
room in the pool and 120000 clk to finish; a quiet team's record is written and the team leaves its core; a save past its
bound loses the context; a saved unit of one team starts again on a core that covers it. -/
def Obligations.Saves : Prop :=
  ∀ (s : State) (tid : Nat) (x : Team) (r : Run), s.plain → s.Inv → mget? s.chip.runs x.run = some r →
    (∀ (pool : List (Nat × Nat)) (a b : Nat), mget? s.chip.teams tid = some x → x.drainBy = some b → b ≤ s.clk →
      s.chip.unitTeams x.run (x.num.toNat / r.unitSize) = [(tid, x)] →
      (∀ g ∈ s.chip.teamGroups tid x, ∀ e ∈ g.2.paths, e.2.late = []) →
      (s.chip.ctx r.ctx).pool = some pool → poolFit (poolSize pool) (s.chip.ctx r.ctx).used (s.chip.recordSize tid x) = some a →
      ∃ t, exec (.drainTimeout tid) s = .next t ∧ mget? t.chip.teams tid = some { x with
          saveAt := some (a, s.chip.recordSize tid x), saveBy := some (s.clk + 120000), drainBy := none } ∧
        (t.chip.ctx r.ctx).used = (s.chip.ctx r.ctx).used ++ [(a, s.chip.recordSize tid x)]) ∧
    (∀ (a n pa m : Nat) (pool rest : List (Nat × Nat)), mget? s.chip.teams tid = some x → s.chip.unitTeams x.run (x.num.toNat / r.unitSize) = [(tid, x)] →
      s.chip.unitQuiet [(tid, x)] = true → x.saveAt = some (a, n) → r.traced = false → (s.chip.part r.part).resetting = false →
      let size := s.chip.recordSize tid x
      let pieces := subPieces pool a size
      (s.chip.ctx r.ctx).pool = some pool → pieces = (pa, m) :: rest → 16 ≤ m →
      (∀ p ∈ rest, p.1 + p.2 ≤ pa ∨ pa + 16 ≤ p.1) →
      ∃ t, exec (.saveComplete tid) s = .next t ∧ mget? t.chip.teams tid = none ∧ t.chip.savedNext = s.chip.savedNext + 1 ∧
        ((mget? t.chip.saved s.chip.savedNext).map fun y => (y.tid, y.addr, y.size, y.pieces, y.ctx, y.unit)) =
          some (tid, a, size, pieces, r.ctx, x.num.toNat / r.unitSize) ∧
        ((mget? t.chip.saved s.chip.savedNext).map Saved.groups) = some ((s.chip.teamGroups tid x).map Prod.snd) ∧
        Memory.nat t.mem pa 4 = size % 2 ^ 32 ∧ Memory.nat t.mem (pa + 4) 4 = r.lid.toNat ∧
        Memory.nat t.mem (pa + 8) 4 = r.runNo.toNat ∧ Memory.nat t.mem (pa + 12) 4 = x.num.toNat ∧
        ∀ i, (∀ p ∈ pieces, i < p.1 ∨ p.1 + p.2 ≤ i) → Memory.read t.mem i = Memory.read s.mem i) ∧
    (∀ b, mget? s.chip.teams tid = some x → x.saveBy = some b → b ≤ s.clk →
      (∀ e ∈ s.chip.teams, s.chip.opmAgainst e.1 = false ∧ ∃ y, mget? s.chip.runs e.2.run = some y ∧ y.ctx = r.ctx) →
      ∃ t, exec (.saveBoundExpiry tid) s = .next t ∧ (t.chip.ctx r.ctx).state = .lost ∧ t.chip.teams = [] ∧
        (t.chip.part r.part).resetting = false) ∧
    ∀ (sv cl core : Nat) (y : Saved), mget? s.chip.saved sv = some y → y.team = x → y.tid = tid → y.chosen = some cl →
      s.chip.saved.find? (fun e => e.2.team.run = x.run && e.2.team.num.toNat = y.unit) = some (sv, y) →
      s.chip.savedUnit y = [(sv, y)] → (∀ part, s.chip.partOf cl = some part → s.chip.guardsLet part s.clk (.saved sv) = true) →
      r.spans 4 = false → r.spans 5 = false → saveIntact y s.tx = .ok (true, s.tx) → y.unit = x.num.toNat → y.frames = [] →
      (s.chip.part r.part).resetting = false → (s.chip.ctx r.ctx).state = .active → s.chip.wholeVersion r = true →
      r.inEdges = [] → r.unitSize = 1 → r.chunk = 1 → r.declares 3 = false → r.unitDom ≤ 4 →
      (∀ g ∈ y.groups, ∀ e ∈ g.paths, pathParked 0 0 e.2 = []) →
      core ∈ clusterCores cl → s.chip.canRestore core y = true →
      ∃ t k, exec (.unitRestore sv cl) s = .next t ∧ k ∈ clusterCores cl ∧ mget? t.chip.saved sv = none ∧
        ((mget? t.chip.teams tid).map fun z => (z.run, z.num, z.core, z.since, z.ret, z.scrUnits)) =
          some (x.run, x.num, k, s.clk, x.ret, x.scrUnits) ∧
        (t.chip.ctx y.ctx).used = (s.chip.ctx y.ctx).used.filter fun u => u ≠ (y.addr, y.size)

/-! ## Belino -/

/-- Belino's register operations and LDC (R246, R247, R424): within the phase's allowance one cycle, LDC four, sets one register, of
which G0 stays 0, and the program counter moves on; past it the routine falls back. -/
def Obligations.BelinoRegisters : Prop :=
  ∀ (s : State) (f : BelinoF) (p : Phase) (rt : Routine),
    let cl := s.actor.1
    let b := (s.chip.cluster cl).box
    let x := p.reg f.a
    let y := p.reg (f.imm.setWidth 4)
    let gets := fun (i : Instr) (cost : Nat) (v : Addr) =>
      (p.cycles + cost ≤ allowance (p.key / 1024) →
        ∃ t q, exec i s = .next t ∧ s.boxGets t cl { b with phase := some q } ∧ q.pc = p.pc + 1 ∧ q.cycles = p.cycles + cost ∧
          (∀ r, q.reg r = if r = 0 then 0 else if r = f.d then v else p.reg r) ∧
          { q with g := p.g, pc := p.pc, cycles := p.cycles } = p) ∧
      (allowance (p.key / 1024) < p.cycles + cost → b.call = none → s.chip.evring = none →
        ∃ t, exec i s = .next t ∧ s.mem = t.mem ∧ (t.chip.cluster cl).box = { b with
          phase := none, routines := mmod b.routines p.key fun r => { r with fallback := true, overruns := r.overruns + 1 } })
    b.phase = some p → mget? b.routines p.key = some rt →
    gets (.belinoLdi f) 1 (f.imm.signExtend 64) ∧ gets (.belinoMov f) 1 x ∧ gets (.belinoAdd f) 1 (x + y) ∧
    gets (.belinoSub f) 1 (x - y) ∧ gets (.belinoAnd f) 1 (x &&& y) ∧ gets (.belinoOr f) 1 (x ||| y) ∧
    gets (.belinoXor f) 1 (x ^^^ y) ∧ gets (.belinoShl f) 1 (x <<< (y.toNat % 64)) ∧ gets (.belinoShr f) 1 (x >>> (y.toNat % 64)) ∧
    gets (.belinoMin f) 1 (if y.toNat < x.toNat then y else x) ∧ gets (.belinoMax f) 1 (if x.toNat < y.toNat then y else x) ∧
    gets (.belinoSel f) 1 (if x ≠ 0 then y else p.reg f.d) ∧ gets (.belinoCmplt f) 1 (if x.toNat < y.toNat then 1 else 0) ∧
    gets (.belinoCmpeq f) 1 (if x = y then 1 else 0) ∧
    gets (.belinoLdc f) 4 (p.counter ((f.imm.toNat + x.toNat) % 2 ^ 64))

/-- Belino's LDM, STM, LOOP, BRF, BRFZ, DEC and EXIT (R244, R246, R424, R425): words of the routine's scratch or its mailbox window;
a LOOP repeats its body until its count; a taken branch goes on and clears the counters it passes; DEC writes a decision;
EXIT ends the phase. -/
def Obligations.BelinoControl : Prop :=
  ∀ (s : State) (f : BelinoF) (p : Phase) (rt : Routine),
    let cl := s.actor.1
    let b := (s.chip.cluster cl).box
    let x := p.reg f.a
    let imm := f.imm.toNat
    let left := allowance (p.key / 1024) - p.cycles
    let runs := fun (i : Instr) (cost : Nat) (q : Phase) => cost ≤ left → p.cycles ≤ allowance (p.key / 1024) →
      ∃ t, exec i s = .next t ∧ s.boxGets t cl { b with phase := some { q with cycles := p.cycles + cost } }
    let on := { p with pc := p.pc + 1 }
    let branch := { p with pc := p.pc + 1 + imm, cnt := p.cnt.filter fun e => p.pc + 1 + imm ≤ e.1 }
    let n := mgetD p.cnt 0 p.pc + 1
    let far := f.imm.getLsbD 15
    let w := (imm % 2 ^ 15 + x.toNat) % (if far then 2 ^ rt.mlog2 else 128)
    let cost := if far = false then 2 else if rt.mdie = cl / 10 then 12 else 40
    b.phase = some p → mget? b.routines p.key = some rt →
    runs (.belinoLdm f) cost (on.setReg f.d
      (if far then mgetD (s.chip.die rt.mdie).mailbox 0 (rt.mbase + w) else mgetD rt.scratch 0 w)) ∧
    (p.cycles + cost ≤ allowance (p.key / 1024) →
      ∃ t, exec (.belinoStm f) s = .next t ∧ t.mem = s.mem ∧ (t.chip.cluster cl).box.phase = some { on with cycles := p.cycles + cost } ∧
        (far = true → t.chip.dies = (s.chip.modDie rt.mdie fun d => { d with mailbox := mput 0 d.mailbox (rt.mbase + w) (p.reg f.d) }).dies ∧
          (t.chip.cluster cl).box.routines = b.routines) ∧
        (far = false → t.chip.dies = s.chip.dies ∧ (t.chip.cluster cl).box.routines =
          mmod b.routines p.key fun r => { r with scratch := mput 0 r.scratch w (p.reg f.d) })) ∧
    runs (.belinoLoop f) 1 (if n < imm % 256 then { p with cnt := mput 0 p.cnt p.pc n, pc := p.pc - imm / 256 }
      else { on with cnt := mput 0 p.cnt p.pc 0 }) ∧
    runs (.belinoBrf f) 1 (if x ≠ 0 then branch else on) ∧
    runs (.belinoBrfZ f) 1 (if x = 0 then branch else on) ∧
    (imm = 0 → runs (.belinoDec f) 1 { on with pick := some (x.toNat % 256) }) ∧
    (imm = 1 → runs (.belinoDec f) 1 { on with prios := (p.prios ++ [x]).take 4 }) ∧
    (imm = 2 → runs (.belinoDec f) 1 { on with prefetch := (p.prefetch ++ [x]).take 4 }) ∧
    (imm = 3 → runs (.belinoDec f) 1 { on with migrate := some (x.toNat % 256) }) ∧
    (imm = 4 → runs (.belinoDec f) 1 { on with hint := some (x.toNat % 512) }) ∧
    ∀ k, p.cycles + 1 ≤ allowance (p.key / 1024) → b.call = some k → k.phaseT = true → k.hook = 0 ∨ k.hook = 4 → p.prios = [] →
      ∃ t, exec (.belinoExit f) s = .next t ∧ s.boxGets t cl { b with call := none, phase := none }

/-! ## Management commands -/

/-- The commands on a context (R302, R303, R307): each takes effect, writes DONE with STATUS OK and its result, and counts HEAD. -/
def Obligations.ContextCommands : Prop :=
  ∀ (s : State) (ring pa h : Nat) (c : Cmd), s.serves ring pa h → s.chip.stage = 0 →
    let admits := fun (f : Fields) => s.admits ring c f
    let k := c.ctx
    let x := s.chip.ctx k
    let does := fun (i : Instr) (result : Nat) (d : Chip) =>
      ∃ t, exec i s = .next t ∧ s.served t pa h 0 result 0 [] ∧ chipIs d t.chip
    let a := c.a08.toNat
    (admits { Fields.none with m08 := full } → a % 4096 = 0 → a < 2 ^ 52 →
      does (.root c) 0 (s.chip.modCtx k fun y => { y with root := some a })) ∧
    (admits { Fields.none with m08 := full, m10 := full } → a % 4096 = 0 →
      does (.xlinv c) 0 { s.chip with cores := s.chip.cores.map fun y => (y.1, { y.2 with tlb := y.2.tlb.filter fun e =>
        !(e.ctx = k && (c.a10 = 0 || (e.va < a + c.a10.toNat && a < e.va + 2 ^ e.log2))) }) }) ∧
    (∀ base, admits { Fields.none with m08 := full, m10 := if ring = hypNum then full else 0, m18 := 2 ^ 32 - 1 } → a % 4096 = 0 →
      let size := c.a18.toNat * 4096
      areaBytes (s.chip.part x.part).coreCount ≤ size → base + size ≤ 2 ^ 52 →
      (if ring = hypNum then base = c.a10.toNat else blockAt s.tx ring k a size base) →
      does (.traparea c) 0 (s.chip.modCtx k fun y => { y with area := some ⟨c.a08, base, size⟩ })) ∧
    (∀ ps, admits { Fields.none with m08 := full, m10 := full } → a % 4096 = 0 → c.a10.toNat % 4096 = 0 →
      piecesAt s.tx ring k true a c.a10.toNat ps →
      does (.savepool c) 0 (s.chip.modCtx k fun y => { y with pool := some ps })) ∧
    (∀ page, admits { Fields.none with m08 := full } → namedPage k a s.tx = .ok (page, s.tx) →
      (∀ w ∈ s.chip.regionq, s.chip.regionOn w k page = false) → ∃ t, exec (.replay c) s = .next t ∧
      s.served t pa h 0 (s.chip.parkedCount k page % 65536) 0 [] ∧ t.chip.parkedCount k page = 0 ∧ t.chip.memq = s.chip.memq.map fun o =>
        if o.awaitsReplay k page then { o with held := false, reported := false } else o) ∧
    (∀ page, admits { Fields.none with m08 := full } → s.nobodyWaits → namedPage k a s.tx = .ok (page, s.tx) →
      (∀ o ∈ s.chip.copies, o.2.parkedOn k page = []) → (∀ w ∈ s.chip.regionq, s.chip.regionOn w k page = false) →
      (∀ e ∈ s.chip.cores, ∀ o ∈ e.2.order, o.2.parkedOn k page = false) → (∀ o ∈ s.chip.engops, o.2.parkedOn k page = false) →
      ∃ t, exec (.cancel c) s = .next t ∧ s.served t pa h 0 ((s.chip.memq.filter fun o => o.awaitsReplay k page).length % 65536) 0 [] ∧
        t.chip.memq = s.chip.memq.filter fun o => !o.awaitsReplay k page) ∧
    (admits { Fields.none with m08 := 0x3FF + 15 * 2 ^ 32 } → s.nobodyWaits → c.w08 ≠ 0 → ∃ t, exec (.barinit c) s = .next t ∧
      s.served t pa h 0 0 0 [] ∧ (t.chip.ctx k).bars = mset x.bars c.w08 (BitVec.ofNat 32 c.w0C) ∧
      ∀ g ∈ s.chip.ctxGroups k, ∀ y, t.chip.group? g = some y → ∀ e ∈ y.arrivals, e.handle ≠ c.w08) ∧
    (admits { Fields.none with m08 := 0x3FF } → s.nobodyWaits → c.w08 ≠ 0 → ∃ t, exec (.barinv c) s = .next t ∧
      s.served t pa h 0 0 0 [] ∧ (∀ e, mget? x.bars c.w08 = some e → mget? (t.chip.ctx k).bars c.w08 = some (e &&& ~~~(1 : Word))) ∧
      ∀ g ∈ s.chip.ctxGroups k, ∀ y, t.chip.group? g = some y → ∀ e ∈ y.arrivals, e.handle ≠ c.w08) ∧
    (admits { Fields.none with m08 := 7, m10 := full, m18 := 2 ^ 40 - 1, m20 := 2 ^ 32 - 1 } →
      let n := c.a20.toNat
      c.a10.toNat % 64 = 0 → c.a10.toNat + n / 8 ≤ 2 ^ 52 → n % 512 = 0 → 512 ≤ n → n ≤ 2 ^ 31 →
      does (.watchreg c) 0 (s.chip.modCtx k fun y => { y with watch :=
        [(c.w08, ⟨c.a10.toNat, c.a18.toNat, n, .free, 0, 0, 0, false⟩)] })) ∧
    (∀ p, (ring = hypNum ∨ k = ring) → c.headOk ⟨true, false, false⟩ = true →
      c.fits { Fields.none with m08 := full, m10 := 2 ^ 32 - 1 } = true →
      argAt s.tx ring k false a c.w10 p → s.chip.poisoned p c.w10 = false →
      let i := Image.of ((List.range c.w10).map fun j => Memory.read s.mem (p + j))
      let y := if i.phaseT then x else Context.init
      let key := routineKey i.hook (if i.phaseT then some i.ctx else none)
      (ring = hypNum ∨ i.phaseT = true ∧ i.ctx = k) → (if i.phaseT then i.ctx = k ∧ x.state = .active else k = 0) →
      (imageStatus y c.w10 i ≠ 0 → ∃ t, exec (.rtnload c) s = .next t ∧ s.served t pa h 4 (imageStatus y c.w10 i) 0 [] ∧
        chipIs s.chip t.chip) ∧
      (imageStatus y c.w10 i = 0 → (∀ b, (s.chip.cluster b).box.phase.map Phase.key ≠ some key) →
        ∃ t, exec (.rtnload c) s = .next t ∧ s.served t pa h 0 0 0 [] ∧ ∀ b,
          let was := s.chip.cluster b
          let rs := if b ∈ s.chip.loadTargets y i.phaseT then mset was.box.routines key (i.routine y) else was.box.routines
          t.chip.cluster b = { was with box := { was.box with routines := rs } })) ∧
    (∀ (y : Group) (tm : Team) (r : Run),
      let id : BitVec 20 := BitVec.ofNat 20 (bits c.w08 0 20)
      let g := agentSlot id
      let named := fun (p : Nat) => bits c.w08 24 1 = 1 ∨ p = bits c.w08 20 2
      admits debugFields → s.chip.group? g = some y → mget? s.chip.teams y.tid = some tm → mget? s.chip.runs tm.run = some r →
      s.chip.agent g = id → r.ctx = k → (bits c.w08 24 1 = 0 → (s.chip.path? g (bits c.w08 20 2)).isSome) →
      (∃ t, exec (.hold c) s = .next t ∧ s.served t pa h 0 0 0 [] ∧ ∀ p z, s.chip.path? g p = some z → named p →
        t.chip.path? g p = some (if z.dbgHeld then z else { z with holdReq := true })) ∧
      ∀ z, bits c.w08 24 1 = 0 → s.chip.path? g (bits c.w08 20 2) = some z → z.dbgHeld = true → z.level = .supervisor →
        does (.resume c) 0 (s.chip.modPath g (bits c.w08 20 2) fun z => { z with dbgHeld := false })) ∧
    (∀ ps, admits { Fields.none with m08 := full, m10 := 2 ^ 32 - 1 } → c.w10 ≤ 2 ^ 20 →
      hwBind k false a c.w10 s.tx = .ok (.ok ps, s.tx) →
      does (.codeinv c) 0 { s.chip with cores := s.chip.cores.map fun y =>
        (y.1, if (s.chip.part x.part).clusters.contains (coreCluster y.1) then
          { y.2 with icache := y.2.icache.filter fun e => !(ps.flatMap fun p => linesOf p.1 p.2).contains e.1 } else y.2) }) ∧
    (admits { Fields.none with m08 := full, m10 := full } → a = 0 →
      does (.sample c) 0 (s.chip.modCtx k fun y => { y with sample := none })) ∧
    (∀ p ps, admits { Fields.none with m08 := full, m10 := full } → a ≠ 0 → 256 ≤ c.w10 → c.w10 ≤ 2 ^ 24 → 1 ≤ c.w14 → c.w14 ≤ 2 ^ 16 →
      argAt s.tx ring k false a 64 p → s.chip.poisoned p 64 = false →
      piecesAt s.tx ring k true a (64 + 64 * Memory.nat s.mem p 4) ps → ∃ t, exec (.sample c) s = .next t ∧ s.served t pa h 0 0 0 [] ∧
        t.chip.ctx k = { x with sample := some ⟨ps, c.w10, c.w14, s.clk, [], []⟩ }) ∧
    (admits { Fields.none with m08 := 7 } → does (.vpsreq c) 0 (s.chip.modCtx k fun y => { y with vpsReq := some c.w08 })) ∧
    ∀ p, admits { Fields.none with m08 := full } → (s.chip.part x.part).vps.length = 8 → argAt s.tx ring k true a 16 p →
      apart pa h p 16 → ∃ t, exec (.vpsquery c) s = .next t ∧
        s.served t pa h 0 0 p ((s.chip.part x.part).vps.flatMap fun e => toLE 2 e.rel) ∧ chipIs s.chip t.chip

/-- Which commands there are and which ring may give them (R300): the listed OP and SUB codes name the commands, and every other
pair the unlisted one, which receives BADCMD; a command for the hypervisor's ring alone receives PERM from a context's ring, as
does any other that names a context not its ring's own, and a phase-H routine load from a context's ring. -/
def Obligations.CommandAccess : Prop :=
  (∀ op sub : Nat, ∀ c : Cmd, op < 256 → sub < 256 →
    (∀ make, (op, sub, make) ∈ hypCommands ++ ownCommands → decodeCommand (Enc.cmd op sub c) = make c) ∧
    ((∀ e ∈ hypCommands ++ ownCommands, (e.1, e.2.1) ≠ (op, sub)) →
      decodeCommand (Enc.cmd op sub c) = .unlistedCommand (BitVec.ofNat 8 op) (BitVec.ofNat 8 sub) c)) ∧
  ∀ (s : State) (ring pa h : Nat) (c : Cmd), s.serves ring pa h → s.chip.stage = 0 →
    let refused := fun (i : Instr) (status : Nat) => ∃ t, exec i s = .next t ∧ s.served t pa h status 0 0 [] ∧ chipIs s.chip t.chip
    (∀ op sub, refused (.unlistedCommand op sub c) 1) ∧
    (ring ≠ hypNum → ∀ e ∈ hypCommands, refused (e.2.2 c) 2) ∧
    (ring ≠ hypNum → c.ctx ≠ ring → ∀ e ∈ ownCommands, refused (e.2.2 c) 2) ∧
    ∀ p, ring ≠ hypNum → c.ctx = ring → c.headOk ⟨true, false, false⟩ = true →
      c.fits { Fields.none with m08 := full, m10 := 2 ^ 32 - 1 } = true → argAt s.tx ring ring false c.a08.toNat c.w10 p →
      s.chip.poisoned p c.w10 = false → (Image.of ((List.range c.w10).map fun j => Memory.read s.mem (p + j))).phaseT = false →
      refused (.rtnload c) 2

/-- The fields that every command checks (R301), the package in recovery, which serves ATTEST and RESYNC alone (R314), and the
commands on the device: a reserved bit receives BADARG and changes nothing else; PARTCFG, PARTRESET, CTXBIND, CTXFREE, PREEMPT,
QREG, QSTATE, EVRING, VPSMAP, SENSCLR, ENERGY, ATTEST and RESYNC take their effects (R230, R302, R304, R305, R307 to R309, R311,
R313, R315, R316). -/
def Obligations.DeviceCommands : Prop :=
  ∀ (s : State) (ring pa h : Nat) (c : Cmd), s.serves ring pa h →
    let k := c.ctx
    let x := s.chip.ctx k
    let a := c.a08.toNat
    let serves := fun (i : Instr) (status result : Nat) (d : Chip) =>
      ∃ t, exec i s = .next t ∧ s.served t pa h status result 0 [] ∧ chipIs d t.chip
    let bytes := fun (p n : Nat) => (List.range n).map fun j => Memory.read s.mem (p + j)
    let dev := fun (f : Fields) => ring = hypNum ∧ c.headOk ⟨false, false, false⟩ = true ∧ c.fits f = true
    let part := fun (f : Fields) => ring = hypNum ∧ c.headOk ⟨false, true, false⟩ = true ∧ c.fits f = true ∧
      (s.chip.part c.part).resetting = false
    (s.chip.stage ≠ 0 → ∀ e ∈ hypCommands ++ ownCommands, e.1 ≠ 0x11 → e.1 ≠ 0x12 → exec (e.2.2 c) s = .next s) ∧
    (ring = hypNum → bits c.head.toNat 9 6 ≠ 0 ∨ bits c.head.toNat 21 11 ≠ 0 →
      ∀ e ∈ hypCommands ++ ownCommands, s.chip.stage = 0 ∨ e.1 = 0x11 ∨ e.1 = 0x12 → serves (e.2.2 c) 4 0 s.chip) ∧
    (∀ p, c.headOk ⟨true, false, false⟩ = true → (ring = hypNum ∧ k = 0) ∨ ((ring = hypNum ∨ k = ring) ∧ (x.state = .active ∨ x.state = .lost)) →
      (c.fits ⟨full, full, full, full, full, 0⟩ = true → a % 64 = 0 → argAt s.tx ring k true a 704 p → apart pa h p 704 →
        let body := s.chip.reportBody s.clk (toLE 8 c.a10.toNat ++ toLE 8 c.a18.toNat ++ toLE 8 c.a20.toNat ++ toLE 8 c.a28.toNat)
        ∃ t, exec (.attest c) s = .next t ∧ chipIs s.chip t.chip ∧
          s.served t pa h 0 0 p (body ++ (List.range 384).map (Config.signature body))) ∧
      let d := { s.chip with resyncSeq := s.chip.resyncSeq + 1 }
      c.fits { Fields.none with m08 := full } = true → a % 4096 = 0 → argAt { s.tx with chip := d } ring k true a 4096 p →
      apart pa h p 4096 → ∃ t, exec (.resync c) s = .next t ∧ chipIs d t.chip ∧
        s.served t pa h 0 d.resyncSeq.toNat p (d.summary s.clk ring ++ sha256 (d.summary s.clk ring))) ∧
    (s.chip.stage = 0 →
      (part { Fields.none with m08 := full } → a + 64 ≤ 2 ^ 52 → s.chip.poisoned a 64 = false →
        let b := bytes a 64
        let p := (s.chip.part c.part).ofRecord b
        (recordRanges b && s.chip.configOk c.part p) = false → serves (.partcfg c) 4 0 s.chip) ∧
      (part { Fields.none with m08 := full } → a + 64 ≤ 2 ^ 52 → s.chip.poisoned a 64 = false →
        let b := bytes a 64
        let p := (s.chip.part c.part).ofRecord b
        recordRanges b = true → s.chip.configOk c.part p = true →
        (s.chip.partTeams c.part ≠ [] → serves (.partcfg c) 3 0 s.chip) ∧
        (s.chip.partTeams c.part = [] → ∃ t, exec (.partcfg c) s = .next t ∧ s.served t pa h 0 0 0 [] ∧
          t.chip.part c.part = p ∧ t.chip.mrLocked = true)) ∧
      (ring = hypNum → c.headOk ⟨false, true, false⟩ = true → c.fits Fields.none = true → s.chip.partTeams c.part = [] →
        let p := s.chip.part c.part
        (p.resetCmd = none → p.resetting = false → s.nobodyWaits →
          (∀ l ∈ s.chip.leases, l.2.partOf s.chip = c.part → l.2.state = .revoked) →
          let stops := fun (y : Context) => if y.part = c.part && y.state = .active then { y with state := .stopped } else y
          let begun := s.chip.modPart c.part fun p => { p with resetCmd := some (0, 0), resetting := true }
          exec (.partreset c) s = .next { s with chip := { begun with ctxs := s.chip.ctxs.map fun y => (y.1, stops y.2) } }) ∧
        ∀ n, p.resetCmd = some n → p.resetting = true → s.chip.marks = [] → ∃ t, exec (.partreset c) s = .next t ∧
          s.served t pa h 0 (n.1 % 65536 + n.2 % 65536 * 65536) 0 [] ∧ t.chip.part c.part = { p with resetting := false, resetCmd := none } ∧
          ∀ y, (s.chip.ctx y).part = c.part → (s.chip.ctx y).state = .stopped → (t.chip.ctx y).state = .active) ∧
      (ring = hypNum → c.headOk ⟨true, true, false⟩ = true →
        c.fits { Fields.none with m08 := 7 + (2 ^ 21 - 1 - 12) * 2 ^ 32, m10 := full } = true → x.state = .free →
        let p := s.chip.part c.part
        let lg := bits c.w0C 4 4
        let base := bits c.w0C 8 13
        p.resetting = false → c.w08 ≤ p.priocap → p.hasDie (bits c.w0C 0 2) = true →
        (if lg = 0 then base = 0 else 3 ≤ lg ∧ lg ≤ 13 ∧ base % 2 ^ lg = 0 ∧ base + 2 ^ lg ≤ 8192) →
        c.a10.toNat % 64 = 0 → c.a10.toNat < 2 ^ 52 →
        (64 ≤ (s.chip.boundTo c.part).length → serves (.ctxbind c) 5 0 s.chip) ∧
        ((s.chip.boundTo c.part).length < 64 → serves (.ctxbind c) 0 0 (s.chip.modCtx k fun _ =>
          { Context.init with state := .active, part := c.part, prio := c.w08, mbDie := bits c.w0C 0 2, mbLog2 := lg, mbBase := base,
                              ring := c.a10.toNat }))) ∧
      (ring = hypNum → c.headOk ⟨true, false, false⟩ = true → c.fits Fields.none = true → x.state = .active ∨ x.state = .lost →
        (s.chip.hasTeams k = true → serves (.ctxfree c) 3 0 s.chip) ∧
        (s.chip.hasTeams k = false → ∃ t, exec (.ctxfree c) s = .next t ∧ s.served t pa h 0 0 0 [] ∧ t.chip.ctx k = Context.init ∧
          t.chip.queues = s.chip.queues.filter (fun q => q.2.ctx ≠ k) ∧ t.chip.wsets = s.chip.wsets.filter (fun w => w.byPart || w.owner ≠ k) ∧
          ∀ r ∈ t.chip.runs, r.2.ctx = k → r.2.live = false)) ∧
      (ring = hypNum → s.admits ring c { Fields.none with m08 := 2 ^ 32 - 1 } →
        let us := s.chip.residentUnits fun _ r _ => r.ctx = k && (c.w08 = 0 || r.lid.toNat = c.w08)
        (us = [] → serves (.preempt c) 0 0 s.chip) ∧
        ∀ id u r, us = [(id, u)] → mget? s.chip.runs id = some r → (∀ t ∈ s.chip.unitTeams id u, t.2.saveBy = none) →
          s.chip.unitTeams id u ≠ [] → chooseUnit r ((s.chip.unitTeams id u).map Prod.snd) s.clk true = .drain →
          ∃ t, exec (.preempt c) s = .next t ∧ s.served t pa h 0 1 0 [] ∧
            ∀ y ∈ s.chip.unitTeams id u, (mget? t.chip.teams y.1).map Team.drainBy = some (some (s.clk + 12000))) ∧
      (∀ p j, s.admits ring c { Fields.none with m08 := 0x710FFF + 0xFFFF * 2 ^ 32, m10 := full } →
        let q := bits c.w08 0 12
        let hdr := bytes p 64
        bits c.w08 20 3 ≤ x.prio → c.a10.toNat % 64 = 0 → (∀ e, mget? s.chip.queues q = some e → e.ctx = k) →
        argAt s.tx ring k false c.a10.toNat 64 p → p < 2 ^ 52 → s.chip.poisoned p 64 = false → recNat hdr 0 8 % 256 = 0 → 1 ≤ j → j ≤ 16 →
        recNat hdr 8 4 = 2 ^ j → apart pa h (p + 0x18) 1 →
        ∃ t, exec (.qreg c) s = .next t ∧ s.served t pa h 0 0 (p + 0x18) [0] ∧ mget? t.chip.queues q = some
          { ctx := k, hdr := BitVec.ofNat 64 p, dev := bits c.w08 16 1 = 1, prio := bits c.w08 20 3, w := c.w0C,
            ring := BitVec.ofNat 64 (recNat hdr 0 8), size := 2 ^ j, state := .running, pol := 0,
            head := ((mget? s.chip.queues q).map Queue.head).getD (recNat hdr 0x14 4)
            edges := ((mget? s.chip.queues q).map Queue.edges).getD []
            line := ((mget? s.chip.queues q).map Queue.line).getD [], wdFrom := s.clk, wdFired := false }) ∧
      (∀ e, s.admits ring c { Fields.none with m08 := 0x30FFF } →
        let q := bits c.w08 0 12
        let to_ := bits c.w08 16 2
        let hdr := bytes e.hdr.toNat 64
        mget? s.chip.queues q = some e → e.ctx = k → apart pa h (e.hdr.toNat + 0x18) 1 →
        (to_ = 2 → ∃ t, exec (.qstate c) s = .next t ∧ s.served t pa h 0 e.state.code (e.hdr.toNat + 0x18) [2] ∧
          mget? t.chip.queues q = some { e with state := .stopped }) ∧
        (to_ = 3 → (∀ r ∈ s.chip.runs, r.2.queue = q → r.2.ctx = k → r.2.live = false) →
          serves (.qstate c) 0 e.state.code { s.chip with queues := merase s.chip.queues q }) ∧
        ∀ j, to_ = 0 → e.hdr.toNat + 64 ≤ 2 ^ 52 → s.chip.poisoned e.hdr.toNat 64 = false → recNat hdr 0 8 % 256 = 0 → 1 ≤ j → j ≤ 16 →
          recNat hdr 8 4 = 2 ^ j → ∃ t, exec (.qstate c) s = .next t ∧ s.served t pa h 0 e.state.code (e.hdr.toNat + 0x18) [0] ∧
            mget? t.chip.queues q = some { e with ring := BitVec.ofNat 64 (recNat hdr 0 8), size := 2 ^ j, state := .running }) ∧
      (dev { Fields.none with m08 := full, m10 := 1 + (2 ^ 32 - 1) * 2 ^ 32 } → a < 2 ^ 52 →
        serves (.evring c) 0 0 { s.chip with evring := some (a, bits c.w10 0 1 = 1, BitVec.ofNat 32 c.w14) }) ∧
      (part { Fields.none with m08 := full } → a + 64 ≤ 2 ^ 52 → s.chip.poisoned a 64 = false →
        let raw := numbersOf 8 8 (bytes a 64)
        (vpsOk raw = true → serves (.vpsmap c) 0 0 (s.chip.modPart c.part fun p => { p with vps := raw.map VpsEntry.of })) ∧
        (vpsOk raw = false → serves (.vpsmap c) 4 0 s.chip)) ∧
      (dev { Fields.none with m08 := 0xFFFF } →
        let d := bits c.w08 0 8
        let j := bits c.w08 8 8
        d ≤ 48 → (j = 0xFF ∨ ∃ ks ∈ sensorKinds d, j ∈ ks) →
        serves (.sensclr c) 0 0 { s.chip with sensors := s.chip.sensors.filter fun e => !(e.1 = d && (j = 0xFF || e.2 = j)) }) ∧
      ∀ p, let kind := bits c.w08 0 2
        let key := if kind = 0 then k else if kind = 1 then 512 else 513 + c.part
        (ring = hypNum ∨ kind = 0 ∧ k = ring) → kind ≠ 3 → c.headOk ⟨kind = 0, kind = 2, false⟩ = true →
        c.fits { Fields.none with m08 := 3, m10 := full } = true → (kind = 0 → x.state = .active ∨ x.state = .lost) →
        (kind = 2 → (s.chip.part c.part).resetting = false) →
        (∀ fr e, argAt { s.tx with free := fr, chip := { s.chip with energy := e } } ring k true c.a10.toNat 8 p) →
        apart pa h p 8 → ∃ t n, n < 2 ^ 64 ∧ exec (.energy c) s = .next t ∧ s.served t pa h 0 0 p (toLE 8 n) ∧
          mgetD t.chip.energy 0 key = n)

/-- WSDEF, WSNEW, WSCOMMIT, WSDROP, SHARD_DIGEST_COMPLETE and WEIGHT_PATROL (R319 to R322): a set is defined; a version gets its
number and storage at a base that the model leaves free; a shard is CHECKING until its digest is computed on a DIGEST engine that
the partition's manager leases at priority 7, and VALID, TIERED or CORRUPT then; the patrol checks it again; a version that a
launch binds is not dropped. That the manager asks for its engine at the first of these events is the model's choice
(assumption 100). -/
def Obligations.WeightSets : Prop :=
  ∀ (s : State), s.plainMemory → s.Inv → s.chip.saved = [] → (∀ r ∈ s.chip.runs, r.2.status ≠ .head) →
    (∀ (ring pa h : Nat) (c : Cmd), s.serves ring pa h → s.chip.stage = 0 →
      let x := s.chip.ctx c.ctx
      let owner := if c.po then c.part else c.ctx
      let part := if c.po then c.part else x.part
      let on := fun (f : Fields) => (ring = hypNum ∨ c.ctx = ring ∧ c.po = false) ∧ c.headOk ⟨!c.po, c.po, true⟩ = true ∧
        c.fits f = true ∧ if c.po then (s.chip.part c.part).resetting = false else x.state = .active
      let serves := fun (i : Instr) (status result : Nat) (ok : Chip → Prop) =>
        ∃ t, exec i s = .next t ∧ s.served t pa h status result 0 [] ∧ ok t.chip
      let num := bits c.w08 0 8
      let set := s.chip.setAt c.po owner
      (on { Fields.none with m08 := 0xFF, m10 := full, m18 := 2 ^ 32 - 1 } →
        let n := c.a18.toNat
        let base := c.a10.toNat
        c.w08 ≠ 0 → base % 2 ^ 21 = 0 → 1 ≤ n → n ≤ 524288 → base + n * 2 ^ 21 ≤ 2 ^ 56 →
        (set c.w08 = none → serves (.wsdef c) 0 0 (chipIs { s.chip with wsets := s.chip.wsets ++
          [{ byPart := c.po, owner := owner, num := c.w08, base := base, units := n, current := none, next := 1, versions := [] }] })) ∧
        ∀ i w, set c.w08 = some (i, w) →
          (w.versions ≠ [] → serves (.wsdef c) 3 0 (chipIs s.chip)) ∧
          (w.versions = [] → serves (.wsdef c) 0 0 fun d => d.wsets[i]? = some { w with base := base, units := n })) ∧
      (∀ i w, on { Fields.none with m08 := 0xFF + (2 ^ 32 - 1) * 2 ^ 32 } → set c.w08 = some (i, w) →
        (4 ≤ w.versions.length → serves (.wsnew c) 5 0 (chipIs s.chip)) ∧
        (w.versions.length < 4 → (s.chip.part part).privws = false → ∃ base, base < 2 ^ 31 ∧
          serves (.wsnew c) 0 (base + w.next % 65536 * 2 ^ 32) fun d => d.wsets[i]? = some { w with next := w.next + 1, versions :=
            w.versions ++ [⟨w.next, base * 2 ^ 21, c.w0C, min c.w0C (s.chip.weightRoom part), [], 0⟩] })) ∧
      ∀ i w v, set num = some (i, w) → w.version (bits c.w08 16 16) = some v →
        (on { Fields.none with m08 := 0xFFFF00FF } →
          (s.chip.versionBound w v.num = true → serves (.wsdrop c) 3 0 (chipIs s.chip)) ∧
          (s.chip.versionBound w v.num = false → serves (.wsdrop c) 0 0 fun d => d.wsets[i]? = some { w with
            versions := w.versions.filter fun y => y.num ≠ v.num, current := if w.current = some v.num then none else w.current })) ∧
        (on ⟨0xFFFF00FF + (2 ^ 32 - 1 - 0xFFC) * 2 ^ 32, full, full, full, full, full⟩ →
          let n := bits c.w0C 12 20
          let off := c.a10.toNat
          let size := n * 2 ^ 21
          let current := bits c.w0C 1 1 = 1
          (current → bits c.w0C 0 1 = 1) → 1 ≤ n → n ≤ 512 → off % 2 ^ 21 = 0 → off + size ≤ w.bytes → off + size ≤ v.units * 2 ^ 21 →
          (∀ y ∈ v.shards, y.off + y.size ≤ off ∨ off + size ≤ y.off) →
          let shard : Shard := { off := off, size := size, digest := c.a30 ++ c.a28 ++ c.a20 ++ c.a18, state := .checking,
                                 tier := v.resident * 2 ^ 21 < off + size, checkedAt := 0 }
          (4096 ≤ v.shards.length → serves (.wscommit c) 5 0 (chipIs s.chip)) ∧
          (v.shards.length < 4096 → serves (.wscommit c) 0 0 fun d => d.wsets[i]? = some { w with
            versions := w.versions.map fun y => if y.num = v.num then { y with shards := y.shards ++ [shard] } else y
            current := if current then some v.num else w.current }))) ∧
    ∀ (ws ver k : Nat) (w : WSet) (v : WVer) (x : Shard), s.chip.wsets[ws]? = some w → s.chip.shardAt ws ver k = some (v, x) →
      let part := s.chip.setPart w
      let asks := fun (i : Instr) => s.chip.managerLease part = none → (s.chip.part part).clusters ≠ [] →
        (∀ cl ∈ (s.chip.part part).clusters, s.chip.freeEntry 2 cl ≠ none) →
        ∃ t uid l, exec i s = .next t ∧ t.mem = s.mem ∧ t.chip.wsets = s.chip.wsets ∧ t.chip.managerLease part = some (uid, l) ∧
          l.cls = 2 ∧ l.place ∈ (s.chip.part part).clusters ∧ l.state = .queued ∧ t.chip.leasePrio l = 7
      let bytes := (List.range x.size).map fun j => Memory.read s.mem (v.pa + x.off + j)
      let good := sha256 bytes = toLE 32 x.digest.toNat
      let bad := s.chip.poisoned (v.pa + x.off) x.size
      let gets := fun (i : Instr) (y : Shard) => ∃ t, exec i s = .next t ∧ t.mem = s.mem ∧ t.chip.cores = s.chip.cores ∧
        t.chip.slots = s.chip.slots ∧ (t.chip.shardAt ws ver k).map Prod.snd = some y
      (x.state = .checking → asks (.shardDigestComplete ws ver k)) ∧
      (x.state = .valid ∨ x.state = .tiered → asks (.weightPatrol ws ver k)) ∧
      ((s.chip.managerLease part).any (fun l => l.2.state = .held) = true → s.chip.evring = none →
      (x.state = .checking →
        (bad = true → gets (.shardDigestComplete ws ver k) { x with state := .corrupt }) ∧
        (bad = false → gets (.shardDigestComplete ws ver k)
          { x with state := if good then if x.tier then .tiered else .valid else .corrupt, checkedAt := s.clk })) ∧
      (x.state = .valid ∨ x.state = .tiered → gets (.weightPatrol ws ver k)
        { x with state := if bad = false ∧ good then x.state else .corrupt, checkedAt := s.clk }))

/-! ## The package -/

/-- The link, firmware, power, sensors and spares (R160, R297, R298, R309 to R318): companion accesses perform at their homes;
the ninth failure retrains the link, which goes down after 10 ms; a reset measures its four images in order up to one that
fails; a cluster takes its P-state's budget; the sensors and units that fail are recorded, and a spare core or channel group
takes a failed one's place. -/
def Obligations.PackageEvents : Prop :=
  ∀ (s : State), s.Inv →
    let link := s.chip.link
    let linked := fun (l : Link) => (Host.Outcome.next { s with chip := { s.chip with link := l } } : Host.Outcome State Fault Refusal)
    (s.plain → ∀ (addr : Nat), (∀ bytes : List Byte, addr + bytes.length ≤ 2 ^ 52 →
      ∃ t, exec (.tvlCompanionWrite addr bytes) s = .next t ∧ s.stores t addr bytes ∧ t.chip.link = { link with fails := 0 } ∧
        (∀ g, mget? t.chip.marks g = if g ∈ granulesOf addr bytes.length then some markClear else mget? s.chip.marks g) ∧
        t.chip.recs = s.chip.recs.filter fun r => !(granulesOf addr bytes.length).contains r.gran) ∧
      ∀ n, addr + n ≤ 2 ^ 52 → exec (.tvlCompanionRead addr n) s = linked { link with fails := 0 }) ∧
    (link.up = true → exec .tvlFlitCrcFail s = linked (if 8 ≤ link.fails then
      { link with fails := 0, retraining := some s.clk, retrains := satInc link.retrains } else { link with fails := link.fails + 1 })) ∧
    (link.up = false → exec .tvlFlitCrcFail s = .next s) ∧
    (∀ t0, link.retraining = some t0 → s.nobodyWaits →
      (s.clk ≤ t0 + 6000000 → exec .tvlRetrainComplete s = linked { link with retraining := none }) ∧
      (t0 + 6000000 ≤ s.clk → s.chip.evring = none →
        (∀ o ∈ s.chip.memq, ∀ x ∈ o.lanes, x.space = .memory → s.chip.tiered x.pa o.size = false) →
        exec .tvlLinkdown s = .next { s with free := s.free + 2, chip := { s.chip with
          link := { link with retraining := none, down := true }, evDropped := satInc s.chip.evDropped } })) ∧
    (∀ images : List FirmwareImage, images.length = 4 →
      let good := fun (n : Nat) => (images.take n).all FirmwareImage.valid
      let failed := if good 4 then 0 else if good 3 then 4 else if good 2 then 3 else if good 1 then 2 else 1
      ∃ mr ring window, let c := { Chip.reset with mr := mr, stage := failed, hypRing := some ring, mboxWin := some (window, 65536) }
        exec (.packageReset images) s = .next { s with clk := 0, free := s.free + 2, chip := c } ∧
        ring % 64 = 0 ∧ window % 65536 = 0 ∧ ∀ k, mgetD mr 0 k = match images[k]? with
          | some i => if good (k + 1) then BitVec.ofNat 256 (fromLE (sha256 (toLE 32 0 ++ toLE 32 i.digest.toNat))) else 0
          | none => 0) ∧
    (∀ (k : Nat) (v : BitVec 256), 4 ≤ k → k ≤ 7 →
      (s.chip.mrLocked = false → exec (.configDeclare k v) s = .next { s with chip := { s.chip with mr := mput 0 s.chip.mr k v } }) ∧
      (s.chip.mrLocked = true → exec (.configDeclare k v) s = .next s)) ∧
    (∀ (cl part : Nat) (e : VpsEntry),
      let k := s.chip.cluster cl
      s.chip.partOf cl = some part → (s.chip.part part).vps[s.chip.vpsEntry (s.chip.part part) cl]? = some e → k.reqs = [] →
      let since := if e.budget < k.used ∨ e.share < k.sideUsed then some (k.overSince.getD s.clk) else none
      ∃ t, exec (.clusterVpsChange cl) s = .next t ∧ t.mem = s.mem ∧ t.chip.cluster cl = { k with
          vps := s.chip.vpsEntry (s.chip.part part) cl, budget := e.budget, share := e.share, overSince := since } ∧
        ∀ j, j ≠ cl → t.chip.cluster j = s.chip.cluster j) ∧
    (∀ cl entry : Nat, cl < 40 → entry < 8 →
      (∃ t, exec (.powerCapChange cl entry) s = .next t ∧ t.mem = s.mem ∧ (t.chip.cluster cl).cap = entry) ∧
      (entry = 0 ∨ (∀ u ∈ s.chip.units, u.2.retained = none) →
        exec (.powerCapChange cl entry) s = .next { s with chip := s.chip.modCluster cl fun k => { k with cap := entry } })) ∧
    (∀ domain k : Nat, (∃ ks ∈ sensorKinds domain, k ∈ ks) → s.chip.votedOut domain k = false → s.chip.evring = none →
      let d := { s.chip with sensors := s.chip.sensors ++ [(domain, k)] }
      let e := if d.fewSensors domain then { d with evDropped := satInc d.evDropped } else d
      (s.chip.voteOut domain k s.clk = true → exec (.sensorVoteOut domain k) s = .next { s with chip := e }) ∧
      (s.chip.voteOut domain k s.clk = false → exec (.sensorVoteOut domain k) s = .next s)) ∧
    (∀ core : Nat, core < 320 → s.plain → s.chip.evring = none → s.chip.teams = [] → s.chip.leases = [] → s.chip.marks = [] →
      (∀ p ∈ s.chip.parts, p.2.resetting = false) →
      let die := coreDie core
      ∃ t, exec (.coreTestFail core) s = .next t ∧ t.mem = s.mem ∧ (∀ p, (t.chip.part p).resetting = false) ∧
        (t.chip.die die).spares = (if (s.chip.die die).spares.length < 4 then (s.chip.die die).spares ++ [core] else (s.chip.die die).spares) ∧
        (4 ≤ (s.chip.die die).spares.length → ∀ p, s.chip.partOf (coreCluster core) = some p →
          (t.chip.part p).clmask = (s.chip.part p).clmask &&& ~~~(BitVec.ofNat 40 (2 ^ coreCluster core)))) ∧
    (∀ group base len : Nat, group < 128 → mget? s.chip.spareGroups (group / 16) = none → s.chip.wsets = [] →
      (∃ p ∈ s.chip.parts, p.2.resetting = true ∧ group ∈ p.2.groups) →
      exec (.channelGroupSpare group base len) s = .next { s with chip := { s.chip with
        spareGroups := mset s.chip.spareGroups (group / 16) group
        poison := s.chip.poison ++ (s.chip.granulesIn group base len).filter fun g => !s.chip.poison.contains g } }) ∧
    (∀ unit : Nat, s.chip.evring = none → (∀ k, (s.chip.cluster k).box.phase = none) →
      (unit < 40 → (s.chip.cluster unit).box.failed = false → ∃ t, exec (.signalBoxFail false unit) s = .next t ∧
        s.mem = t.mem ∧ t.chip.cluster unit = { s.chip.cluster unit with box := { (s.chip.cluster unit).box with failed := true } }) ∧
      (unit < 4 → (s.chip.die unit).mboxFailed = false → ∃ t, exec (.signalBoxFail true unit) s = .next t ∧
        t.mem = s.mem ∧ (t.chip.die unit).mboxFailed = true ∧ ∀ e ∈ s.chip.clusters,
          (s.chip.cluster e.1).box.routines.any (fun r => r.2.mlog2 ≠ 0 && r.2.mdie = unit) = true → (t.chip.cluster e.1).box.failed = true))

/-! ## Whole-machine statements -/

/-- BRA (R340): the whole path goes to pc + 2 × offset, the signed field [31:10], within -4 MiB and 4 MiB - 2; the field [9:7]
delays the instruction at the target; 0xFFFF802B is a BRA back by 0x40 bytes. -/
def Obligations.BranchAlways : Prop :=
  (∀ (s : State) (h : Here) (stall : BitVec 3) (off : BitVec 22), s.mayIssue h Uses.none →
    s.goesTo h (.bra ⟨stall, off⟩) (h.path.pc + BitVec.ofInt 64 (2 * off.toInt)) stall.toNat [] 0) ∧
  (∀ (stall : BitVec 3) (off : BitVec 22), decodeWord (0x2B + stall.toNat * 2 ^ 7 + off.toNat * 2 ^ 10) = .bra ⟨stall, off⟩ ∧
    -4 * 2 ^ 20 ≤ 2 * off.toInt ∧ 2 * off.toInt ≤ 4 * 2 ^ 20 - 2) ∧
  decodeWord 0xFFFF802B = .bra ⟨0, BitVec.ofInt 22 (-32)⟩

/-- Words of several families as the spec's worked encodings give them. -/
def Obligations.DecodeWords : Prop :=
  decodeWord 0x1076 = .maxCompact ⟨0, 4, 3⟩ ∧ decodeWord 0x03040405 = .subBase ⟨0, 1, 2, 3, 0⟩ ∧
  decodeWord 0x020A1023 = .shri ⟨0, 4, 5, 2⟩ ∧ decodeWord 0x341C0C27 = .negSalu ⟨0, 3, 7⟩ ∧
  decodeWord 0x08080C33 = .stBase ⟨0, 3, 4, 4⟩ ∧ decodeWord 0x0002002D = .call ⟨0, 128⟩ ∧
  decodeWord 0x21A18004002C2861 = .fmaX ⟨0, 10, 11, 0, 0, ⟨0, 0, 0⟩, 12, 13, 1, 0⟩ ∧
  decodeWord 0x0000200008240C63 = .unassignedEncoding ⟨8, 0x08240C63, 0x00002000⟩ ∧
  decodeWord 0x0000000208240C63 = .pmov ⟨0, 3, 9, 2, 0, ⟨0, 0, 0⟩, 0, 0, 0, 0⟩ ∧
  decodeWord 0x0002200244241465 = .lget ⟨0, 5, 9, 1, 1, ⟨0, 0, 0⟩, 17, 0, 0, 0⟩ ∧
  decodeWord 0x0003001118100067 = .br ⟨0, 0, 4, 1, 1, ⟨0, 0, 0⟩, 24⟩ ∧
  decodeWord 0xC041200514282069 = .atom ⟨0, 8, 10, 5, 0, ⟨0, 0, 0⟩, 9, 2, 0, 3⟩ ∧
  decodeWord 0x000060070078A06B = .epop ⟨0, 40, 30, 0, ⟨0, 0, 0⟩, 3⟩ ∧
  decodeWord 0x001FE0032000286D = .lease ⟨0, 10, 0, 1, ⟨0, 0, 0⟩, 255⟩ ∧
  decodeWord 0x000000070014086F = .tmov ⟨0, 2, 5, ⟨0, 0, 0⟩⟩ ∧ decodeWord 0x0004200000000071 = .trap ⟨0, ⟨0, 0, 0⟩, 0x21⟩

/-- Decoding gives back what was encoded (R47 to R62, R246, R299): every well-formed program instruction, Belino operation and
listed command decodes from its own words, and the program decoder drops no bit of any word. -/
def Obligations.DecodeInvertsEncode : Prop :=
  (∀ (i : Instr) (n w : Nat) (rest : List Byte), i.wf = true → i.enc = some (n, w) →
    (isCommand i = true → decodeCommand w = i ∨ ∃ op sub c, i = .unlistedCommand op sub c) ∧
    (isBelino i = true → decodeBelino w = some i) ∧
    (isCommand i = false → isBelino i = false → (∀ f, i ≠ .unassignedEncoding f) → decode (leBytes n w ++ rest) = some (i, rest))) ∧
  ∀ w, (decodeWord w).enc = some (wordLength w, trimWord w)

/-- A step runs the decoded instruction (R22, R30, R31, R32, R47): where a path's turn has come and its stall is over, its own or
one that a merge brings, the issue check settles its group's sides, and the instruction whose bytes its core's caches hold at its
PC runs: as the ready path of least rank of its issue slot, whose use is noted, or, where it is not ready, without effect on the
slots. What named a path that the merge brought in names the merged one. After it the holds of every group stand as its paths do. -/
def Obligations.StepRunsDecoded : Prop :=
  ∀ (s : State) (g p n : Nat) (x y : Group) (p0 : Path) (j : Nat) (h : Here) (i : Instr), s.turn exec = .path g p →
    let rs := s.readyPaths exec
    let won := rs.find? fun r => r.g = g && r.p = p
    (∀ r, won = some r → s.turnPick rs r = r) → (won = none → s.readyPath exec g p = none) →
    let s' : State := match won with
      | some r => s.moved.countWaits rs r
      | none => s.moved
    s'.chip.group? g = some x → mget? x.paths p = some p0 → p0.dbgHeld = false → p0.wait = none → p0.blocked = none →
    p0.issueAt ≤ s.clk → s'.chip.saving x.tid = false →
    let t : State := { s' with actor := (g, j), chip := (s'.chip.setGroup g y).renamePaths g j (x.gone y) }
    x.issueCheck p s.clk = (y, j) → t.acts h → t.noWindow h → (slotClass i = 1 → (t.chip.pathLoads g j).length < 8) → h.path.issueAt ≤ s.clk → h.path.heldSince = none → h.path.holdReq = false →
    h.path.level = .supervisor ∨ h.path.late = [] → t.codeHot h n → decode (t.code h n) = some (i, []) →
    step s = match exec i t with
      | .next u => .next u.settled
      | .fault f => .fault f
      | .refused r => .refused r

/-- The machine right after package reset, as the spec gives it (R44, R178, R252, R305, R307, R314): CLOCK is 0, no agent exists, no
context is bound, no queue is registered, every partition has its reset configuration, and memory is in canonical form. -/
def Obligations.ResetState : Prop :=
  let c := State.reset.chip
  State.reset.Inv ∧ State.reset.clk = 0 ∧ (∀ g, c.group? g = none) ∧ (∀ k, (c.ctx k).state = .free) ∧ (∀ q, mget? c.queues q = none) ∧
    (∀ k, mgetD c.mr 0 k = 0) ∧ c.link.down = false ∧ c.sensors = [] ∧
    ∀ k, let p := c.part k
      p.clmask = 0 ∧ p.ch0 = 0 ∧ p.ch1 = 0 ∧ p.lbound = 16 ∧ p.sbound = 64 ∧ p.priocap = 7 ∧ p.vpsdef = 0 ∧ p.floor = 7 ∧
        p.privws = false ∧ p.sumbase = 0 ∧ p.sumfrm = 0 ∧ p.sumlen = 0 ∧ p.pper = 3600

/-- Every step keeps memory in its canonical form: equal memories are equal data. -/
def Obligations.StepKeepsMemory : Prop := ∀ s t : State, s.Inv → step s = .next t → t.Inv
end

