-- ==== Sys2Proof/Laws/Memory.lean ====
section
/-! SUPPORT. Laws of physical memory: its canonical form is kept, and a byte reads back as it was written. -/

namespace Sys2Proof.Machine

theorem Memory.write_keys (m : List Host.Cell) (k : Nat) (v : Byte) :
    ∀ c ∈ Memory.write m k v, c ∈ m ∨ c = (k, v) := by
  induction m with
  | nil =>
    intro c hc
    by_cases hv : v = Memory.unlisted <;> simp [Memory.write, hv] at hc
    exact .inr hc
  | cons e r ih =>
    obtain ⟨j, w⟩ := e
    intro c hc
    unfold Memory.write at hc
    split at hc
    · split at hc
      · exact .inl hc
      · rcases List.mem_cons.mp hc with h | h
        · exact .inr h
        · exact .inl h
    · split at hc
      · split at hc
        · exact .inl (List.mem_cons_of_mem _ hc)
        · rcases List.mem_cons.mp hc with h | h
          · exact .inr h
          · exact .inl (List.mem_cons_of_mem _ h)
      · rcases List.mem_cons.mp hc with h | h
        · exact .inl (by simp [h])
        · rcases ih c h with h' | h'
          · exact .inl (List.mem_cons_of_mem _ h')
          · exact .inr h'

/-- One write keeps the canonical form. -/
theorem Memory.write_wf {m : List Host.Cell} (h : Memory.wf m) (k : Nat) (v : Byte) : Memory.wf (Memory.write m k v) := by
  obtain ⟨hp, hn⟩ := h
  induction m with
  | nil => by_cases hv : v = Memory.unlisted <;> simp [Memory.write, hv, Memory.wf]
  | cons e r ih =>
    obtain ⟨j, w⟩ := e
    obtain ⟨hj, hr⟩ := List.pairwise_cons.mp hp
    have hw : w ≠ Memory.unlisted := hn (j, w) List.mem_cons_self
    have hn' : ∀ c ∈ r, c.2 ≠ Memory.unlisted := fun c hc => hn c (List.mem_cons_of_mem _ hc)
    unfold Memory.write
    split
    · rename_i hk
      split
      · exact ⟨hp, hn⟩
      · rename_i hv
        refine ⟨List.pairwise_cons.mpr ⟨?_, hp⟩, ?_⟩
        · intro c hc
          rcases List.mem_cons.mp hc with h | h
          · simpa [h] using hk
          · exact Nat.lt_trans hk (hj c h)
        · intro c hc
          rcases List.mem_cons.mp hc with h | h
          · simpa [h] using hv
          · exact hn c h
    · split
      · split
        · exact ⟨hr, hn'⟩
        · rename_i hkj hv
          refine ⟨List.pairwise_cons.mpr ⟨fun c hc => by simpa [hkj] using hj c hc, hr⟩, ?_⟩
          intro c hc
          rcases List.mem_cons.mp hc with h | h
          · simpa [h] using hv
          · exact hn' c h
      · rename_i h1 h2
        obtain ⟨ip, iv⟩ := ih hr hn'
        refine ⟨List.pairwise_cons.mpr ⟨?_, ip⟩, ?_⟩
        · intro c hc
          rcases Memory.write_keys r k v c hc with h | h
          · exact hj c h
          · simp only [h]; omega
        · intro c hc
          rcases List.mem_cons.mp hc with h | h
          · simpa [h] using hw
          · exact iv c h

/-- Any list of writes keeps the canonical form. -/
theorem Memory.writeAll_wf {m : List Host.Cell} (h : Memory.wf m) (log : List (Nat × Byte)) :
    Memory.wf (Memory.writeAll m log) := by
  induction log with
  | nil => exact h
  | cons c r ih => exact Memory.write_wf ih c.1 c.2

/-- A byte below every listed address reads as unlisted. -/
theorem Memory.read_below {m : List Host.Cell} {k : Nat} (h : ∀ c ∈ m, k < c.1) : Memory.read m k = Memory.unlisted := by
  induction m with
  | nil => rfl
  | cons e r ih =>
    obtain ⟨j, w⟩ := e
    have hj : k < j := h (j, w) List.mem_cons_self
    have hne : j ≠ k := by omega
    simpa [Memory.read, hne] using ih fun c hc => h c (List.mem_cons_of_mem _ hc)

/-- In canonical form a written byte reads back. -/
theorem Memory.read_write_same {m : List Host.Cell} (h : Memory.wf m) (k : Nat) (v : Byte) :
    Memory.read (Memory.write m k v) k = v := by
  induction m with
  | nil => by_cases hv : v = Memory.unlisted <;> simp [Memory.write, Memory.read, hv]
  | cons e r ih =>
    obtain ⟨j, w⟩ := e
    obtain ⟨hp, hn⟩ := h
    obtain ⟨hj, hr⟩ := List.pairwise_cons.mp hp
    have hn' : ∀ c ∈ r, c.2 ≠ Memory.unlisted := fun c hc => hn c (List.mem_cons_of_mem _ hc)
    unfold Memory.write
    split
    · rename_i hk
      split
      · rename_i hv
        have hne : j ≠ k := by omega
        have := Memory.read_below (m := r) (k := k) fun c hc => Nat.lt_trans hk (hj c hc)
        simp [Memory.read, hne, this, hv]
      · simp [Memory.read]
    · split
      · rename_i hkj
        split
        · rename_i hv
          rw [hv]
          exact Memory.read_below fun c hc => by simpa [hkj] using hj c hc
        · simp [Memory.read]
      · rename_i h1 h2
        have hne : j ≠ k := fun h => h2 h.symm
        simpa [Memory.read, hne] using ih ⟨hr, hn'⟩

/-- A write leaves every other byte alone. -/
theorem Memory.read_write_other (m : List Host.Cell) {k a : Nat} (v : Byte) (h : a ≠ k) :
    Memory.read (Memory.write m k v) a = Memory.read m a := by
  induction m with
  | nil => by_cases hv : v = Memory.unlisted <;> simp [Memory.write, Memory.read, hv, Ne.symm h]
  | cons e r ih =>
    obtain ⟨j, w⟩ := e
    unfold Memory.write
    split
    · split
      · rfl
      · simp [Memory.read, Ne.symm h]
    · split
      · rename_i hkj
        subst hkj
        split <;> simp [Memory.read, Ne.symm h]
      · by_cases h3 : j = a <;> simp [Memory.read, h3, ih]

/-- A byte that no write of a list names reads as before. -/
theorem Memory.read_writeAll_other (m : List Host.Cell) {log : List (Nat × Byte)} {a : Nat} (h : ∀ c ∈ log, c.1 ≠ a) :
    Memory.read (Memory.writeAll m log) a = Memory.read m a := by
  induction log with
  | nil => rfl
  | cons c r ih =>
    have h1 : a ≠ c.1 := fun e => h c List.mem_cons_self e.symm
    show Memory.read (Memory.write (Memory.writeAll m r) c.1 c.2) a = _
    rw [Memory.read_write_other _ _ h1]
    exact ih fun x hx => h x (List.mem_cons_of_mem _ hx)

/-- A byte that one write of a list names reads as that write gave it, where no other write names it. -/
theorem Memory.read_writeAll_mem {m : List Host.Cell} (hw : Memory.wf m) {log : List (Nat × Byte)}
    (hd : log.Pairwise fun x y => x.1 ≠ y.1) {c : Nat × Byte} (hc : c ∈ log) :
    Memory.read (Memory.writeAll m log) c.1 = c.2 := by
  induction log with
  | nil => simp at hc
  | cons e r ih =>
    obtain ⟨h1, h2⟩ := List.pairwise_cons.mp hd
    show Memory.read (Memory.write (Memory.writeAll m r) e.1 e.2) c.1 = c.2
    rcases List.mem_cons.mp hc with h | h
    · subst h
      exact Memory.read_write_same (Memory.writeAll_wf hw r) c.1 c.2
    · rw [Memory.read_write_other _ _ (h1 c h).symm]
      exact ih h2 h

/-- The log of a block of bytes written at an address. -/
def blockLog (a : Nat) (bs : List Byte) : List (Nat × Byte) := (bs.zipIdx.map fun p => (a + p.2, p.1)).reverse

theorem mem_blockLog {a : Nat} {bs : List Byte} {c : Nat × Byte} (h : c ∈ blockLog a bs) : a ≤ c.1 ∧ c.1 < a + bs.length := by
  simp only [blockLog, List.mem_reverse, List.mem_map] at h
  obtain ⟨p, hp, rfl⟩ := h
  have := List.mem_zipIdx hp
  simp at this ⊢
  exact this.1

/-- A block that has been written reads as its bytes. -/
theorem Memory.read_block {m : List Host.Cell} (hw : Memory.wf m) (a : Nat) (bs : List Byte) {k : Nat} (hk : k < bs.length) :
    Memory.read (Memory.writeAll m (blockLog a bs)) (a + k) = bs[k] := by
  have hd : (blockLog a bs).Pairwise fun x y => x.1 ≠ y.1 := by
    unfold blockLog
    rw [List.pairwise_reverse, List.pairwise_map, List.zipIdx_eq_zip_range']
    refine List.Pairwise.imp (R := fun x y => x.2 < y.2) (fun h => by simp; omega) ?_
    have h1 : ((bs.zip (List.range' 0 bs.length)).map Prod.snd).Pairwise (· < ·) := by
      rw [List.map_snd_zip (by simp)]
      exact List.pairwise_lt_range'
    exact List.pairwise_map.mp h1
  have hm : (a + k, bs[k]) ∈ blockLog a bs := by
    simp only [blockLog, List.mem_reverse, List.mem_map]
    refine ⟨(bs[k], k), ?_, rfl⟩
    rw [List.mem_iff_getElem]
    exact ⟨k, by simpa using hk, by simp⟩
  exact Memory.read_writeAll_mem hw hd hm

/-- A block leaves the bytes outside it alone. -/
theorem Memory.read_block_other (m : List Host.Cell) {a x : Nat} {bs : List Byte} (h : x < a ∨ a + bs.length ≤ x) :
    Memory.read (Memory.writeAll m (blockLog a bs)) x = Memory.read m x :=
  Memory.read_writeAll_other m fun c hc => by have := mem_blockLog hc; omega

/-- A field of a block that has been written. -/
theorem Memory.read_field {m : List Host.Cell} (hw : Memory.wf m) (a : Nat) (bs : List Byte) {off n : Nat}
    (hn : off + n ≤ bs.length) :
    (List.range n).map (fun i => Memory.read (Memory.writeAll m (blockLog a bs)) (a + off + i)) = (bs.drop off).take n := by
  apply List.ext_getElem
  · simp; omega
  · intro i h1 h2
    simp at h1
    simp only [List.getElem_map, List.getElem_range, List.getElem_take, List.getElem_drop]
    rw [show a + off + i = a + (off + i) by omega]
    exact Memory.read_block hw a bs (by omega)

@[simp] theorem Memory.writeAll_nil (m : List Host.Cell) : Memory.writeAll m [] = m := rfl

end Sys2Proof.Machine
end

