-- ==== Sys2Proof/Laws/Tables.lean ====
section
/-! SUPPORT. Laws of the sparse tables: what reading an entry gives after an entry is written, erased or changed. They hold
of every list, sorted or not. -/

namespace Sys2Proof.Machine

variable {α : Type}

@[simp] theorem mget_mset_same (m : Map α) (k : Nat) (v : α) : mget? (mset m k v) k = some v := by
  induction m with
  | nil => simp [mset, mget?]
  | cons e r ih =>
    obtain ⟨j, w⟩ := e
    by_cases h1 : k < j
    · simp [mset, mget?, h1]
    · by_cases h2 : k = j
      · simp [mset, mget?, h2]
      · simp [mset, mget?, h1, h2, ih, show j ≠ k from fun h => h2 h.symm]

theorem mget_mset_other (m : Map α) {k i : Nat} (v : α) (h : i ≠ k) : mget? (mset m k v) i = mget? m i := by
  induction m with
  | nil => simp [mset, mget?, Ne.symm h]
  | cons e r ih =>
    obtain ⟨j, w⟩ := e
    by_cases h1 : k < j
    · simp [mset, mget?, h1, Ne.symm h]
    · by_cases h2 : k = j
      · subst h2
        simp [mset, mget?, Ne.symm h]
      · simp only [mset, mget?, h1, h2, if_false, ih]

theorem mget_mset (m : Map α) (k i : Nat) (v : α) : mget? (mset m k v) i = if i = k then some v else mget? m i := by
  by_cases h : i = k
  · simp [h]
  · simp [h, mget_mset_other]

@[simp] theorem mget_merase_same (m : Map α) (k : Nat) : mget? (merase m k) k = none := by
  induction m with
  | nil => rfl
  | cons e r ih =>
    obtain ⟨j, w⟩ := e
    by_cases h : j = k
    · simpa [merase, h] using ih
    · simpa [merase, mget?, h] using ih

theorem mget_merase_other (m : Map α) {k i : Nat} (h : i ≠ k) : mget? (merase m k) i = mget? m i := by
  induction m with
  | nil => rfl
  | cons e r ih =>
    obtain ⟨j, w⟩ := e
    by_cases h1 : j = k
    · subst h1
      simpa [merase, mget?, Ne.symm h] using ih
    · by_cases h2 : j = i
      · subst h2
        simp [merase, mget?, h1]
      · simpa [merase, mget?, h1, h2] using ih

theorem mget_mput [DecidableEq α] (d : α) (m : Map α) (k i : Nat) (v : α) :
    (mget? (mput d m k v) i).getD d = if i = k then v else (mget? m i).getD d := by
  unfold mput
  by_cases h : i = k
  · subst h
    by_cases hv : v = d <;> simp [hv]
  · by_cases hv : v = d
    · simp [hv, h, mget_merase_other]
    · simp [hv, h, mget_mset_other]

theorem mgetD_mput [DecidableEq α] (d : α) (m : Map α) (k i : Nat) (v : α) :
    mgetD (mput d m k v) d i = if i = k then v else mgetD m d i := mget_mput d m k i v

theorem mget_mmod (m : Map α) (k i : Nat) (f : α → α) :
    mget? (mmod m k f) i = if i = k then (mget? m i).map f else mget? m i := by
  induction m with
  | nil => simp [mmod, mget?]
  | cons e r ih =>
    obtain ⟨j, w⟩ := e
    by_cases h : j = k
    · subst h
      by_cases h2 : j = i
      · subst h2
        simp [mmod, mget?]
      · have h2' : ¬ i = j := fun h => h2 h.symm
        simpa [mmod, mget?, h2, h2'] using ih
    · by_cases h2 : j = i
      · subst h2
        simp [mmod, mget?, h]
      · simpa [mmod, mget?, h, h2] using ih

@[simp] theorem mget_mmod_same (m : Map α) (k : Nat) (f : α → α) : mget? (mmod m k f) k = (mget? m k).map f := by
  simp [mget_mmod]

theorem mget_mmod_other (m : Map α) {k i : Nat} (f : α → α) (h : i ≠ k) : mget? (mmod m k f) i = mget? m i := by
  simp [mget_mmod, h]

end Sys2Proof.Machine
end

