-- ==== Sys2Proof/Laws/State.lean ====
section
/-! SUPPORT. Reading a field after an update, one lemma for each field and update, and reading a table entry after it is
changed. -/

namespace Sys2Proof.Machine

/-! ## Updates of the chip leave its other fields -/

@[simp] theorem Chip.setSlot_teams (c : Chip) (g : Nat) (x : Slot) : (c.setSlot g x).teams = c.teams := rfl
@[simp] theorem Chip.setSlot_teamNext (c : Chip) (g : Nat) (x : Slot) : (c.setSlot g x).teamNext = c.teamNext := rfl
@[simp] theorem Chip.setSlot_runs (c : Chip) (g : Nat) (x : Slot) : (c.setSlot g x).runs = c.runs := rfl
@[simp] theorem Chip.setSlot_runNext (c : Chip) (g : Nat) (x : Slot) : (c.setSlot g x).runNext = c.runNext := rfl
@[simp] theorem Chip.setSlot_lidNext (c : Chip) (g : Nat) (x : Slot) : (c.setSlot g x).lidNext = c.lidNext := rfl
@[simp] theorem Chip.setSlot_saved (c : Chip) (g : Nat) (x : Slot) : (c.setSlot g x).saved = c.saved := rfl
@[simp] theorem Chip.setSlot_savedNext (c : Chip) (g : Nat) (x : Slot) : (c.setSlot g x).savedNext = c.savedNext := rfl
@[simp] theorem Chip.setSlot_cores (c : Chip) (g : Nat) (x : Slot) : (c.setSlot g x).cores = c.cores := rfl
@[simp] theorem Chip.setSlot_clusters (c : Chip) (g : Nat) (x : Slot) : (c.setSlot g x).clusters = c.clusters := rfl
@[simp] theorem Chip.setSlot_dies (c : Chip) (g : Nat) (x : Slot) : (c.setSlot g x).dies = c.dies := rfl
@[simp] theorem Chip.setSlot_parts (c : Chip) (g : Nat) (x : Slot) : (c.setSlot g x).parts = c.parts := rfl
@[simp] theorem Chip.setSlot_ctxs (c : Chip) (g : Nat) (x : Slot) : (c.setSlot g x).ctxs = c.ctxs := rfl
@[simp] theorem Chip.setSlot_queues (c : Chip) (g : Nat) (x : Slot) : (c.setSlot g x).queues = c.queues := rfl
@[simp] theorem Chip.setSlot_memq (c : Chip) (g : Nat) (x : Slot) : (c.setSlot g x).memq = c.memq := rfl
@[simp] theorem Chip.setSlot_seq (c : Chip) (g : Nat) (x : Slot) : (c.setSlot g x).seq = c.seq := rfl
@[simp] theorem Chip.setSlot_leases (c : Chip) (g : Nat) (x : Slot) : (c.setSlot g x).leases = c.leases := rfl
@[simp] theorem Chip.setSlot_leaseNext (c : Chip) (g : Nat) (x : Slot) : (c.setSlot g x).leaseNext = c.leaseNext := rfl
@[simp] theorem Chip.setSlot_leaseSerial (c : Chip) (g : Nat) (x : Slot) : (c.setSlot g x).leaseSerial = c.leaseSerial := rfl
@[simp] theorem Chip.setSlot_units (c : Chip) (g : Nat) (x : Slot) : (c.setSlot g x).units = c.units := rfl
@[simp] theorem Chip.setSlot_engops (c : Chip) (g : Nat) (x : Slot) : (c.setSlot g x).engops = c.engops := rfl
@[simp] theorem Chip.setSlot_engNext (c : Chip) (g : Nat) (x : Slot) : (c.setSlot g x).engNext = c.engNext := rfl
@[simp] theorem Chip.setSlot_copies (c : Chip) (g : Nat) (x : Slot) : (c.setSlot g x).copies = c.copies := rfl
@[simp] theorem Chip.setSlot_copyNext (c : Chip) (g : Nat) (x : Slot) : (c.setSlot g x).copyNext = c.copyNext := rfl
@[simp] theorem Chip.setSlot_marks (c : Chip) (g : Nat) (x : Slot) : (c.setSlot g x).marks = c.marks := rfl
@[simp] theorem Chip.setSlot_poison (c : Chip) (g : Nat) (x : Slot) : (c.setSlot g x).poison = c.poison := rfl
@[simp] theorem Chip.setSlot_lost (c : Chip) (g : Nat) (x : Slot) : (c.setSlot g x).lost = c.lost := rfl
@[simp] theorem Chip.setSlot_recs (c : Chip) (g : Nat) (x : Slot) : (c.setSlot g x).recs = c.recs := rfl
@[simp] theorem Chip.setSlot_mons (c : Chip) (g : Nat) (x : Slot) : (c.setSlot g x).mons = c.mons := rfl
@[simp] theorem Chip.setSlot_bars (c : Chip) (g : Nat) (x : Slot) : (c.setSlot g x).bars = c.bars := rfl
@[simp] theorem Chip.setSlot_barNext (c : Chip) (g : Nat) (x : Slot) : (c.setSlot g x).barNext = c.barNext := rfl
@[simp] theorem Chip.setSlot_mboxWin (c : Chip) (g : Nat) (x : Slot) : (c.setSlot g x).mboxWin = c.mboxWin := rfl
@[simp] theorem Chip.setSlot_hypRing (c : Chip) (g : Nat) (x : Slot) : (c.setSlot g x).hypRing = c.hypRing := rfl
@[simp] theorem Chip.setSlot_cmd (c : Chip) (g : Nat) (x : Slot) : (c.setSlot g x).cmd = c.cmd := rfl
@[simp] theorem Chip.setSlot_evring (c : Chip) (g : Nat) (x : Slot) : (c.setSlot g x).evring = c.evring := rfl
@[simp] theorem Chip.setSlot_evDropped (c : Chip) (g : Nat) (x : Slot) : (c.setSlot g x).evDropped = c.evDropped := rfl
@[simp] theorem Chip.setSlot_mr (c : Chip) (g : Nat) (x : Slot) : (c.setSlot g x).mr = c.mr := rfl
@[simp] theorem Chip.setSlot_mrLocked (c : Chip) (g : Nat) (x : Slot) : (c.setSlot g x).mrLocked = c.mrLocked := rfl
@[simp] theorem Chip.setSlot_stage (c : Chip) (g : Nat) (x : Slot) : (c.setSlot g x).stage = c.stage := rfl
@[simp] theorem Chip.setSlot_resyncSeq (c : Chip) (g : Nat) (x : Slot) : (c.setSlot g x).resyncSeq = c.resyncSeq := rfl
@[simp] theorem Chip.setSlot_link (c : Chip) (g : Nat) (x : Slot) : (c.setSlot g x).link = c.link := rfl
@[simp] theorem Chip.setSlot_sensors (c : Chip) (g : Nat) (x : Slot) : (c.setSlot g x).sensors = c.sensors := rfl
@[simp] theorem Chip.setSlot_spareGroups (c : Chip) (g : Nat) (x : Slot) : (c.setSlot g x).spareGroups = c.spareGroups := rfl
@[simp] theorem Chip.setSlot_wsets (c : Chip) (g : Nat) (x : Slot) : (c.setSlot g x).wsets = c.wsets := rfl
@[simp] theorem Chip.setSlot_tier (c : Chip) (g : Nat) (x : Slot) : (c.setSlot g x).tier = c.tier := rfl
@[simp] theorem Chip.setSlot_lowpri (c : Chip) (g : Nat) (x : Slot) : (c.setSlot g x).lowpri = c.lowpri := rfl
@[simp] theorem Chip.setSlot_regionq (c : Chip) (g : Nat) (x : Slot) : (c.setSlot g x).regionq = c.regionq := rfl
@[simp] theorem Chip.setSlot_folded (c : Chip) (g : Nat) (x : Slot) : (c.setSlot g x).folded = c.folded := rfl
@[simp] theorem Chip.setSlot_combined (c : Chip) (g : Nat) (x : Slot) : (c.setSlot g x).combined = c.combined := rfl
@[simp] theorem Chip.setSlot_interrupts (c : Chip) (g : Nat) (x : Slot) : (c.setSlot g x).interrupts = c.interrupts := rfl
@[simp] theorem Chip.setSlot_energy (c : Chip) (g : Nat) (x : Slot) : (c.setSlot g x).energy = c.energy := rfl

@[simp] theorem Chip.setGroup_teams (c : Chip) (g : Nat) (x : Group) : (c.setGroup g x).teams = c.teams := rfl
@[simp] theorem Chip.setGroup_teamNext (c : Chip) (g : Nat) (x : Group) : (c.setGroup g x).teamNext = c.teamNext := rfl
@[simp] theorem Chip.setGroup_runs (c : Chip) (g : Nat) (x : Group) : (c.setGroup g x).runs = c.runs := rfl
@[simp] theorem Chip.setGroup_runNext (c : Chip) (g : Nat) (x : Group) : (c.setGroup g x).runNext = c.runNext := rfl
@[simp] theorem Chip.setGroup_lidNext (c : Chip) (g : Nat) (x : Group) : (c.setGroup g x).lidNext = c.lidNext := rfl
@[simp] theorem Chip.setGroup_saved (c : Chip) (g : Nat) (x : Group) : (c.setGroup g x).saved = c.saved := rfl
@[simp] theorem Chip.setGroup_savedNext (c : Chip) (g : Nat) (x : Group) : (c.setGroup g x).savedNext = c.savedNext := rfl
@[simp] theorem Chip.setGroup_cores (c : Chip) (g : Nat) (x : Group) : (c.setGroup g x).cores = c.cores := rfl
@[simp] theorem Chip.setGroup_clusters (c : Chip) (g : Nat) (x : Group) : (c.setGroup g x).clusters = c.clusters := rfl
@[simp] theorem Chip.setGroup_dies (c : Chip) (g : Nat) (x : Group) : (c.setGroup g x).dies = c.dies := rfl
@[simp] theorem Chip.setGroup_parts (c : Chip) (g : Nat) (x : Group) : (c.setGroup g x).parts = c.parts := rfl
@[simp] theorem Chip.setGroup_ctxs (c : Chip) (g : Nat) (x : Group) : (c.setGroup g x).ctxs = c.ctxs := rfl
@[simp] theorem Chip.setGroup_queues (c : Chip) (g : Nat) (x : Group) : (c.setGroup g x).queues = c.queues := rfl
@[simp] theorem Chip.setGroup_memq (c : Chip) (g : Nat) (x : Group) : (c.setGroup g x).memq = c.memq := rfl
@[simp] theorem Chip.setGroup_seq (c : Chip) (g : Nat) (x : Group) : (c.setGroup g x).seq = c.seq := rfl
@[simp] theorem Chip.setGroup_leases (c : Chip) (g : Nat) (x : Group) : (c.setGroup g x).leases = c.leases := rfl
@[simp] theorem Chip.setGroup_leaseNext (c : Chip) (g : Nat) (x : Group) : (c.setGroup g x).leaseNext = c.leaseNext := rfl
@[simp] theorem Chip.setGroup_leaseSerial (c : Chip) (g : Nat) (x : Group) : (c.setGroup g x).leaseSerial = c.leaseSerial := rfl
@[simp] theorem Chip.setGroup_units (c : Chip) (g : Nat) (x : Group) : (c.setGroup g x).units = c.units := rfl
@[simp] theorem Chip.setGroup_engops (c : Chip) (g : Nat) (x : Group) : (c.setGroup g x).engops = c.engops := rfl
@[simp] theorem Chip.setGroup_engNext (c : Chip) (g : Nat) (x : Group) : (c.setGroup g x).engNext = c.engNext := rfl
@[simp] theorem Chip.setGroup_copies (c : Chip) (g : Nat) (x : Group) : (c.setGroup g x).copies = c.copies := rfl
@[simp] theorem Chip.setGroup_copyNext (c : Chip) (g : Nat) (x : Group) : (c.setGroup g x).copyNext = c.copyNext := rfl
@[simp] theorem Chip.setGroup_marks (c : Chip) (g : Nat) (x : Group) : (c.setGroup g x).marks = c.marks := rfl
@[simp] theorem Chip.setGroup_poison (c : Chip) (g : Nat) (x : Group) : (c.setGroup g x).poison = c.poison := rfl
@[simp] theorem Chip.setGroup_lost (c : Chip) (g : Nat) (x : Group) : (c.setGroup g x).lost = c.lost := rfl
@[simp] theorem Chip.setGroup_recs (c : Chip) (g : Nat) (x : Group) : (c.setGroup g x).recs = c.recs := rfl
@[simp] theorem Chip.setGroup_mons (c : Chip) (g : Nat) (x : Group) : (c.setGroup g x).mons = c.mons := rfl
@[simp] theorem Chip.setGroup_bars (c : Chip) (g : Nat) (x : Group) : (c.setGroup g x).bars = c.bars := rfl
@[simp] theorem Chip.setGroup_barNext (c : Chip) (g : Nat) (x : Group) : (c.setGroup g x).barNext = c.barNext := rfl
@[simp] theorem Chip.setGroup_mboxWin (c : Chip) (g : Nat) (x : Group) : (c.setGroup g x).mboxWin = c.mboxWin := rfl
@[simp] theorem Chip.setGroup_hypRing (c : Chip) (g : Nat) (x : Group) : (c.setGroup g x).hypRing = c.hypRing := rfl
@[simp] theorem Chip.setGroup_cmd (c : Chip) (g : Nat) (x : Group) : (c.setGroup g x).cmd = c.cmd := rfl
@[simp] theorem Chip.setGroup_evring (c : Chip) (g : Nat) (x : Group) : (c.setGroup g x).evring = c.evring := rfl
@[simp] theorem Chip.setGroup_evDropped (c : Chip) (g : Nat) (x : Group) : (c.setGroup g x).evDropped = c.evDropped := rfl
@[simp] theorem Chip.setGroup_mr (c : Chip) (g : Nat) (x : Group) : (c.setGroup g x).mr = c.mr := rfl
@[simp] theorem Chip.setGroup_mrLocked (c : Chip) (g : Nat) (x : Group) : (c.setGroup g x).mrLocked = c.mrLocked := rfl
@[simp] theorem Chip.setGroup_stage (c : Chip) (g : Nat) (x : Group) : (c.setGroup g x).stage = c.stage := rfl
@[simp] theorem Chip.setGroup_resyncSeq (c : Chip) (g : Nat) (x : Group) : (c.setGroup g x).resyncSeq = c.resyncSeq := rfl
@[simp] theorem Chip.setGroup_link (c : Chip) (g : Nat) (x : Group) : (c.setGroup g x).link = c.link := rfl
@[simp] theorem Chip.setGroup_sensors (c : Chip) (g : Nat) (x : Group) : (c.setGroup g x).sensors = c.sensors := rfl
@[simp] theorem Chip.setGroup_spareGroups (c : Chip) (g : Nat) (x : Group) : (c.setGroup g x).spareGroups = c.spareGroups := rfl
@[simp] theorem Chip.setGroup_wsets (c : Chip) (g : Nat) (x : Group) : (c.setGroup g x).wsets = c.wsets := rfl
@[simp] theorem Chip.setGroup_tier (c : Chip) (g : Nat) (x : Group) : (c.setGroup g x).tier = c.tier := rfl
@[simp] theorem Chip.setGroup_lowpri (c : Chip) (g : Nat) (x : Group) : (c.setGroup g x).lowpri = c.lowpri := rfl
@[simp] theorem Chip.setGroup_regionq (c : Chip) (g : Nat) (x : Group) : (c.setGroup g x).regionq = c.regionq := rfl
@[simp] theorem Chip.setGroup_folded (c : Chip) (g : Nat) (x : Group) : (c.setGroup g x).folded = c.folded := rfl
@[simp] theorem Chip.setGroup_combined (c : Chip) (g : Nat) (x : Group) : (c.setGroup g x).combined = c.combined := rfl
@[simp] theorem Chip.setGroup_interrupts (c : Chip) (g : Nat) (x : Group) : (c.setGroup g x).interrupts = c.interrupts := rfl
@[simp] theorem Chip.setGroup_energy (c : Chip) (g : Nat) (x : Group) : (c.setGroup g x).energy = c.energy := rfl

@[simp] theorem Chip.setCore_slots (c : Chip) (k : Nat) (x : Core) : (c.setCore k x).slots = c.slots := rfl
@[simp] theorem Chip.setCore_teams (c : Chip) (k : Nat) (x : Core) : (c.setCore k x).teams = c.teams := rfl
@[simp] theorem Chip.setCore_teamNext (c : Chip) (k : Nat) (x : Core) : (c.setCore k x).teamNext = c.teamNext := rfl
@[simp] theorem Chip.setCore_runs (c : Chip) (k : Nat) (x : Core) : (c.setCore k x).runs = c.runs := rfl
@[simp] theorem Chip.setCore_runNext (c : Chip) (k : Nat) (x : Core) : (c.setCore k x).runNext = c.runNext := rfl
@[simp] theorem Chip.setCore_lidNext (c : Chip) (k : Nat) (x : Core) : (c.setCore k x).lidNext = c.lidNext := rfl
@[simp] theorem Chip.setCore_saved (c : Chip) (k : Nat) (x : Core) : (c.setCore k x).saved = c.saved := rfl
@[simp] theorem Chip.setCore_savedNext (c : Chip) (k : Nat) (x : Core) : (c.setCore k x).savedNext = c.savedNext := rfl
@[simp] theorem Chip.setCore_clusters (c : Chip) (k : Nat) (x : Core) : (c.setCore k x).clusters = c.clusters := rfl
@[simp] theorem Chip.setCore_dies (c : Chip) (k : Nat) (x : Core) : (c.setCore k x).dies = c.dies := rfl
@[simp] theorem Chip.setCore_parts (c : Chip) (k : Nat) (x : Core) : (c.setCore k x).parts = c.parts := rfl
@[simp] theorem Chip.setCore_ctxs (c : Chip) (k : Nat) (x : Core) : (c.setCore k x).ctxs = c.ctxs := rfl
@[simp] theorem Chip.setCore_queues (c : Chip) (k : Nat) (x : Core) : (c.setCore k x).queues = c.queues := rfl
@[simp] theorem Chip.setCore_memq (c : Chip) (k : Nat) (x : Core) : (c.setCore k x).memq = c.memq := rfl
@[simp] theorem Chip.setCore_seq (c : Chip) (k : Nat) (x : Core) : (c.setCore k x).seq = c.seq := rfl
@[simp] theorem Chip.setCore_leases (c : Chip) (k : Nat) (x : Core) : (c.setCore k x).leases = c.leases := rfl
@[simp] theorem Chip.setCore_leaseNext (c : Chip) (k : Nat) (x : Core) : (c.setCore k x).leaseNext = c.leaseNext := rfl
@[simp] theorem Chip.setCore_leaseSerial (c : Chip) (k : Nat) (x : Core) : (c.setCore k x).leaseSerial = c.leaseSerial := rfl
@[simp] theorem Chip.setCore_units (c : Chip) (k : Nat) (x : Core) : (c.setCore k x).units = c.units := rfl
@[simp] theorem Chip.setCore_engops (c : Chip) (k : Nat) (x : Core) : (c.setCore k x).engops = c.engops := rfl
@[simp] theorem Chip.setCore_engNext (c : Chip) (k : Nat) (x : Core) : (c.setCore k x).engNext = c.engNext := rfl
@[simp] theorem Chip.setCore_copies (c : Chip) (k : Nat) (x : Core) : (c.setCore k x).copies = c.copies := rfl
@[simp] theorem Chip.setCore_copyNext (c : Chip) (k : Nat) (x : Core) : (c.setCore k x).copyNext = c.copyNext := rfl
@[simp] theorem Chip.setCore_marks (c : Chip) (k : Nat) (x : Core) : (c.setCore k x).marks = c.marks := rfl
@[simp] theorem Chip.setCore_poison (c : Chip) (k : Nat) (x : Core) : (c.setCore k x).poison = c.poison := rfl
@[simp] theorem Chip.setCore_lost (c : Chip) (k : Nat) (x : Core) : (c.setCore k x).lost = c.lost := rfl
@[simp] theorem Chip.setCore_recs (c : Chip) (k : Nat) (x : Core) : (c.setCore k x).recs = c.recs := rfl
@[simp] theorem Chip.setCore_mons (c : Chip) (k : Nat) (x : Core) : (c.setCore k x).mons = c.mons := rfl
@[simp] theorem Chip.setCore_bars (c : Chip) (k : Nat) (x : Core) : (c.setCore k x).bars = c.bars := rfl
@[simp] theorem Chip.setCore_barNext (c : Chip) (k : Nat) (x : Core) : (c.setCore k x).barNext = c.barNext := rfl
@[simp] theorem Chip.setCore_mboxWin (c : Chip) (k : Nat) (x : Core) : (c.setCore k x).mboxWin = c.mboxWin := rfl
@[simp] theorem Chip.setCore_hypRing (c : Chip) (k : Nat) (x : Core) : (c.setCore k x).hypRing = c.hypRing := rfl
@[simp] theorem Chip.setCore_cmd (c : Chip) (k : Nat) (x : Core) : (c.setCore k x).cmd = c.cmd := rfl
@[simp] theorem Chip.setCore_evring (c : Chip) (k : Nat) (x : Core) : (c.setCore k x).evring = c.evring := rfl
@[simp] theorem Chip.setCore_evDropped (c : Chip) (k : Nat) (x : Core) : (c.setCore k x).evDropped = c.evDropped := rfl
@[simp] theorem Chip.setCore_mr (c : Chip) (k : Nat) (x : Core) : (c.setCore k x).mr = c.mr := rfl
@[simp] theorem Chip.setCore_mrLocked (c : Chip) (k : Nat) (x : Core) : (c.setCore k x).mrLocked = c.mrLocked := rfl
@[simp] theorem Chip.setCore_stage (c : Chip) (k : Nat) (x : Core) : (c.setCore k x).stage = c.stage := rfl
@[simp] theorem Chip.setCore_resyncSeq (c : Chip) (k : Nat) (x : Core) : (c.setCore k x).resyncSeq = c.resyncSeq := rfl
@[simp] theorem Chip.setCore_link (c : Chip) (k : Nat) (x : Core) : (c.setCore k x).link = c.link := rfl
@[simp] theorem Chip.setCore_sensors (c : Chip) (k : Nat) (x : Core) : (c.setCore k x).sensors = c.sensors := rfl
@[simp] theorem Chip.setCore_spareGroups (c : Chip) (k : Nat) (x : Core) : (c.setCore k x).spareGroups = c.spareGroups := rfl
@[simp] theorem Chip.setCore_wsets (c : Chip) (k : Nat) (x : Core) : (c.setCore k x).wsets = c.wsets := rfl
@[simp] theorem Chip.setCore_tier (c : Chip) (k : Nat) (x : Core) : (c.setCore k x).tier = c.tier := rfl
@[simp] theorem Chip.setCore_lowpri (c : Chip) (k : Nat) (x : Core) : (c.setCore k x).lowpri = c.lowpri := rfl
@[simp] theorem Chip.setCore_regionq (c : Chip) (k : Nat) (x : Core) : (c.setCore k x).regionq = c.regionq := rfl
@[simp] theorem Chip.setCore_folded (c : Chip) (k : Nat) (x : Core) : (c.setCore k x).folded = c.folded := rfl
@[simp] theorem Chip.setCore_combined (c : Chip) (k : Nat) (x : Core) : (c.setCore k x).combined = c.combined := rfl
@[simp] theorem Chip.setCore_interrupts (c : Chip) (k : Nat) (x : Core) : (c.setCore k x).interrupts = c.interrupts := rfl
@[simp] theorem Chip.setCore_energy (c : Chip) (k : Nat) (x : Core) : (c.setCore k x).energy = c.energy := rfl

@[simp] theorem Chip.modCore_slots (c : Chip) (k : Nat) (f : Core → Core) : (c.modCore k f).slots = c.slots := rfl
@[simp] theorem Chip.modCore_teams (c : Chip) (k : Nat) (f : Core → Core) : (c.modCore k f).teams = c.teams := rfl
@[simp] theorem Chip.modCore_teamNext (c : Chip) (k : Nat) (f : Core → Core) : (c.modCore k f).teamNext = c.teamNext := rfl
@[simp] theorem Chip.modCore_runs (c : Chip) (k : Nat) (f : Core → Core) : (c.modCore k f).runs = c.runs := rfl
@[simp] theorem Chip.modCore_runNext (c : Chip) (k : Nat) (f : Core → Core) : (c.modCore k f).runNext = c.runNext := rfl
@[simp] theorem Chip.modCore_lidNext (c : Chip) (k : Nat) (f : Core → Core) : (c.modCore k f).lidNext = c.lidNext := rfl
@[simp] theorem Chip.modCore_saved (c : Chip) (k : Nat) (f : Core → Core) : (c.modCore k f).saved = c.saved := rfl
@[simp] theorem Chip.modCore_savedNext (c : Chip) (k : Nat) (f : Core → Core) : (c.modCore k f).savedNext = c.savedNext := rfl
@[simp] theorem Chip.modCore_clusters (c : Chip) (k : Nat) (f : Core → Core) : (c.modCore k f).clusters = c.clusters := rfl
@[simp] theorem Chip.modCore_dies (c : Chip) (k : Nat) (f : Core → Core) : (c.modCore k f).dies = c.dies := rfl
@[simp] theorem Chip.modCore_parts (c : Chip) (k : Nat) (f : Core → Core) : (c.modCore k f).parts = c.parts := rfl
@[simp] theorem Chip.modCore_ctxs (c : Chip) (k : Nat) (f : Core → Core) : (c.modCore k f).ctxs = c.ctxs := rfl
@[simp] theorem Chip.modCore_queues (c : Chip) (k : Nat) (f : Core → Core) : (c.modCore k f).queues = c.queues := rfl
@[simp] theorem Chip.modCore_memq (c : Chip) (k : Nat) (f : Core → Core) : (c.modCore k f).memq = c.memq := rfl
@[simp] theorem Chip.modCore_seq (c : Chip) (k : Nat) (f : Core → Core) : (c.modCore k f).seq = c.seq := rfl
@[simp] theorem Chip.modCore_leases (c : Chip) (k : Nat) (f : Core → Core) : (c.modCore k f).leases = c.leases := rfl
@[simp] theorem Chip.modCore_leaseNext (c : Chip) (k : Nat) (f : Core → Core) : (c.modCore k f).leaseNext = c.leaseNext := rfl
@[simp] theorem Chip.modCore_leaseSerial (c : Chip) (k : Nat) (f : Core → Core) : (c.modCore k f).leaseSerial = c.leaseSerial := rfl
@[simp] theorem Chip.modCore_units (c : Chip) (k : Nat) (f : Core → Core) : (c.modCore k f).units = c.units := rfl
@[simp] theorem Chip.modCore_engops (c : Chip) (k : Nat) (f : Core → Core) : (c.modCore k f).engops = c.engops := rfl
@[simp] theorem Chip.modCore_engNext (c : Chip) (k : Nat) (f : Core → Core) : (c.modCore k f).engNext = c.engNext := rfl
@[simp] theorem Chip.modCore_copies (c : Chip) (k : Nat) (f : Core → Core) : (c.modCore k f).copies = c.copies := rfl
@[simp] theorem Chip.modCore_copyNext (c : Chip) (k : Nat) (f : Core → Core) : (c.modCore k f).copyNext = c.copyNext := rfl
@[simp] theorem Chip.modCore_marks (c : Chip) (k : Nat) (f : Core → Core) : (c.modCore k f).marks = c.marks := rfl
@[simp] theorem Chip.modCore_poison (c : Chip) (k : Nat) (f : Core → Core) : (c.modCore k f).poison = c.poison := rfl
@[simp] theorem Chip.modCore_lost (c : Chip) (k : Nat) (f : Core → Core) : (c.modCore k f).lost = c.lost := rfl
@[simp] theorem Chip.modCore_recs (c : Chip) (k : Nat) (f : Core → Core) : (c.modCore k f).recs = c.recs := rfl
@[simp] theorem Chip.modCore_mons (c : Chip) (k : Nat) (f : Core → Core) : (c.modCore k f).mons = c.mons := rfl
@[simp] theorem Chip.modCore_bars (c : Chip) (k : Nat) (f : Core → Core) : (c.modCore k f).bars = c.bars := rfl
@[simp] theorem Chip.modCore_barNext (c : Chip) (k : Nat) (f : Core → Core) : (c.modCore k f).barNext = c.barNext := rfl
@[simp] theorem Chip.modCore_mboxWin (c : Chip) (k : Nat) (f : Core → Core) : (c.modCore k f).mboxWin = c.mboxWin := rfl
@[simp] theorem Chip.modCore_hypRing (c : Chip) (k : Nat) (f : Core → Core) : (c.modCore k f).hypRing = c.hypRing := rfl
@[simp] theorem Chip.modCore_cmd (c : Chip) (k : Nat) (f : Core → Core) : (c.modCore k f).cmd = c.cmd := rfl
@[simp] theorem Chip.modCore_evring (c : Chip) (k : Nat) (f : Core → Core) : (c.modCore k f).evring = c.evring := rfl
@[simp] theorem Chip.modCore_evDropped (c : Chip) (k : Nat) (f : Core → Core) : (c.modCore k f).evDropped = c.evDropped := rfl
@[simp] theorem Chip.modCore_mr (c : Chip) (k : Nat) (f : Core → Core) : (c.modCore k f).mr = c.mr := rfl
@[simp] theorem Chip.modCore_mrLocked (c : Chip) (k : Nat) (f : Core → Core) : (c.modCore k f).mrLocked = c.mrLocked := rfl
@[simp] theorem Chip.modCore_stage (c : Chip) (k : Nat) (f : Core → Core) : (c.modCore k f).stage = c.stage := rfl
@[simp] theorem Chip.modCore_resyncSeq (c : Chip) (k : Nat) (f : Core → Core) : (c.modCore k f).resyncSeq = c.resyncSeq := rfl
@[simp] theorem Chip.modCore_link (c : Chip) (k : Nat) (f : Core → Core) : (c.modCore k f).link = c.link := rfl
@[simp] theorem Chip.modCore_sensors (c : Chip) (k : Nat) (f : Core → Core) : (c.modCore k f).sensors = c.sensors := rfl
@[simp] theorem Chip.modCore_spareGroups (c : Chip) (k : Nat) (f : Core → Core) : (c.modCore k f).spareGroups = c.spareGroups := rfl
@[simp] theorem Chip.modCore_wsets (c : Chip) (k : Nat) (f : Core → Core) : (c.modCore k f).wsets = c.wsets := rfl
@[simp] theorem Chip.modCore_tier (c : Chip) (k : Nat) (f : Core → Core) : (c.modCore k f).tier = c.tier := rfl
@[simp] theorem Chip.modCore_lowpri (c : Chip) (k : Nat) (f : Core → Core) : (c.modCore k f).lowpri = c.lowpri := rfl
@[simp] theorem Chip.modCore_regionq (c : Chip) (k : Nat) (f : Core → Core) : (c.modCore k f).regionq = c.regionq := rfl
@[simp] theorem Chip.modCore_folded (c : Chip) (k : Nat) (f : Core → Core) : (c.modCore k f).folded = c.folded := rfl
@[simp] theorem Chip.modCore_combined (c : Chip) (k : Nat) (f : Core → Core) : (c.modCore k f).combined = c.combined := rfl
@[simp] theorem Chip.modCore_interrupts (c : Chip) (k : Nat) (f : Core → Core) : (c.modCore k f).interrupts = c.interrupts := rfl
@[simp] theorem Chip.modCore_energy (c : Chip) (k : Nat) (f : Core → Core) : (c.modCore k f).energy = c.energy := rfl

@[simp] theorem Chip.modCluster_slots (c : Chip) (k : Nat) (f : Cluster → Cluster) : (c.modCluster k f).slots = c.slots := rfl
@[simp] theorem Chip.modCluster_teams (c : Chip) (k : Nat) (f : Cluster → Cluster) : (c.modCluster k f).teams = c.teams := rfl
@[simp] theorem Chip.modCluster_teamNext (c : Chip) (k : Nat) (f : Cluster → Cluster) : (c.modCluster k f).teamNext = c.teamNext := rfl
@[simp] theorem Chip.modCluster_runs (c : Chip) (k : Nat) (f : Cluster → Cluster) : (c.modCluster k f).runs = c.runs := rfl
@[simp] theorem Chip.modCluster_runNext (c : Chip) (k : Nat) (f : Cluster → Cluster) : (c.modCluster k f).runNext = c.runNext := rfl
@[simp] theorem Chip.modCluster_lidNext (c : Chip) (k : Nat) (f : Cluster → Cluster) : (c.modCluster k f).lidNext = c.lidNext := rfl
@[simp] theorem Chip.modCluster_saved (c : Chip) (k : Nat) (f : Cluster → Cluster) : (c.modCluster k f).saved = c.saved := rfl
@[simp] theorem Chip.modCluster_savedNext (c : Chip) (k : Nat) (f : Cluster → Cluster) : (c.modCluster k f).savedNext = c.savedNext := rfl
@[simp] theorem Chip.modCluster_cores (c : Chip) (k : Nat) (f : Cluster → Cluster) : (c.modCluster k f).cores = c.cores := rfl
@[simp] theorem Chip.modCluster_dies (c : Chip) (k : Nat) (f : Cluster → Cluster) : (c.modCluster k f).dies = c.dies := rfl
@[simp] theorem Chip.modCluster_parts (c : Chip) (k : Nat) (f : Cluster → Cluster) : (c.modCluster k f).parts = c.parts := rfl
@[simp] theorem Chip.modCluster_ctxs (c : Chip) (k : Nat) (f : Cluster → Cluster) : (c.modCluster k f).ctxs = c.ctxs := rfl
@[simp] theorem Chip.modCluster_queues (c : Chip) (k : Nat) (f : Cluster → Cluster) : (c.modCluster k f).queues = c.queues := rfl
@[simp] theorem Chip.modCluster_memq (c : Chip) (k : Nat) (f : Cluster → Cluster) : (c.modCluster k f).memq = c.memq := rfl
@[simp] theorem Chip.modCluster_seq (c : Chip) (k : Nat) (f : Cluster → Cluster) : (c.modCluster k f).seq = c.seq := rfl
@[simp] theorem Chip.modCluster_leases (c : Chip) (k : Nat) (f : Cluster → Cluster) : (c.modCluster k f).leases = c.leases := rfl
@[simp] theorem Chip.modCluster_leaseNext (c : Chip) (k : Nat) (f : Cluster → Cluster) : (c.modCluster k f).leaseNext = c.leaseNext := rfl
@[simp] theorem Chip.modCluster_leaseSerial (c : Chip) (k : Nat) (f : Cluster → Cluster) : (c.modCluster k f).leaseSerial = c.leaseSerial := rfl
@[simp] theorem Chip.modCluster_units (c : Chip) (k : Nat) (f : Cluster → Cluster) : (c.modCluster k f).units = c.units := rfl
@[simp] theorem Chip.modCluster_engops (c : Chip) (k : Nat) (f : Cluster → Cluster) : (c.modCluster k f).engops = c.engops := rfl
@[simp] theorem Chip.modCluster_engNext (c : Chip) (k : Nat) (f : Cluster → Cluster) : (c.modCluster k f).engNext = c.engNext := rfl
@[simp] theorem Chip.modCluster_copies (c : Chip) (k : Nat) (f : Cluster → Cluster) : (c.modCluster k f).copies = c.copies := rfl
@[simp] theorem Chip.modCluster_copyNext (c : Chip) (k : Nat) (f : Cluster → Cluster) : (c.modCluster k f).copyNext = c.copyNext := rfl
@[simp] theorem Chip.modCluster_marks (c : Chip) (k : Nat) (f : Cluster → Cluster) : (c.modCluster k f).marks = c.marks := rfl
@[simp] theorem Chip.modCluster_poison (c : Chip) (k : Nat) (f : Cluster → Cluster) : (c.modCluster k f).poison = c.poison := rfl
@[simp] theorem Chip.modCluster_lost (c : Chip) (k : Nat) (f : Cluster → Cluster) : (c.modCluster k f).lost = c.lost := rfl
@[simp] theorem Chip.modCluster_recs (c : Chip) (k : Nat) (f : Cluster → Cluster) : (c.modCluster k f).recs = c.recs := rfl
@[simp] theorem Chip.modCluster_mons (c : Chip) (k : Nat) (f : Cluster → Cluster) : (c.modCluster k f).mons = c.mons := rfl
@[simp] theorem Chip.modCluster_bars (c : Chip) (k : Nat) (f : Cluster → Cluster) : (c.modCluster k f).bars = c.bars := rfl
@[simp] theorem Chip.modCluster_barNext (c : Chip) (k : Nat) (f : Cluster → Cluster) : (c.modCluster k f).barNext = c.barNext := rfl
@[simp] theorem Chip.modCluster_mboxWin (c : Chip) (k : Nat) (f : Cluster → Cluster) : (c.modCluster k f).mboxWin = c.mboxWin := rfl
@[simp] theorem Chip.modCluster_hypRing (c : Chip) (k : Nat) (f : Cluster → Cluster) : (c.modCluster k f).hypRing = c.hypRing := rfl
@[simp] theorem Chip.modCluster_cmd (c : Chip) (k : Nat) (f : Cluster → Cluster) : (c.modCluster k f).cmd = c.cmd := rfl
@[simp] theorem Chip.modCluster_evring (c : Chip) (k : Nat) (f : Cluster → Cluster) : (c.modCluster k f).evring = c.evring := rfl
@[simp] theorem Chip.modCluster_evDropped (c : Chip) (k : Nat) (f : Cluster → Cluster) : (c.modCluster k f).evDropped = c.evDropped := rfl
@[simp] theorem Chip.modCluster_mr (c : Chip) (k : Nat) (f : Cluster → Cluster) : (c.modCluster k f).mr = c.mr := rfl
@[simp] theorem Chip.modCluster_mrLocked (c : Chip) (k : Nat) (f : Cluster → Cluster) : (c.modCluster k f).mrLocked = c.mrLocked := rfl
@[simp] theorem Chip.modCluster_stage (c : Chip) (k : Nat) (f : Cluster → Cluster) : (c.modCluster k f).stage = c.stage := rfl
@[simp] theorem Chip.modCluster_resyncSeq (c : Chip) (k : Nat) (f : Cluster → Cluster) : (c.modCluster k f).resyncSeq = c.resyncSeq := rfl
@[simp] theorem Chip.modCluster_link (c : Chip) (k : Nat) (f : Cluster → Cluster) : (c.modCluster k f).link = c.link := rfl
@[simp] theorem Chip.modCluster_sensors (c : Chip) (k : Nat) (f : Cluster → Cluster) : (c.modCluster k f).sensors = c.sensors := rfl
@[simp] theorem Chip.modCluster_spareGroups (c : Chip) (k : Nat) (f : Cluster → Cluster) : (c.modCluster k f).spareGroups = c.spareGroups := rfl
@[simp] theorem Chip.modCluster_wsets (c : Chip) (k : Nat) (f : Cluster → Cluster) : (c.modCluster k f).wsets = c.wsets := rfl
@[simp] theorem Chip.modCluster_tier (c : Chip) (k : Nat) (f : Cluster → Cluster) : (c.modCluster k f).tier = c.tier := rfl
@[simp] theorem Chip.modCluster_lowpri (c : Chip) (k : Nat) (f : Cluster → Cluster) : (c.modCluster k f).lowpri = c.lowpri := rfl
@[simp] theorem Chip.modCluster_regionq (c : Chip) (k : Nat) (f : Cluster → Cluster) : (c.modCluster k f).regionq = c.regionq := rfl
@[simp] theorem Chip.modCluster_folded (c : Chip) (k : Nat) (f : Cluster → Cluster) : (c.modCluster k f).folded = c.folded := rfl
@[simp] theorem Chip.modCluster_combined (c : Chip) (k : Nat) (f : Cluster → Cluster) : (c.modCluster k f).combined = c.combined := rfl
@[simp] theorem Chip.modCluster_interrupts (c : Chip) (k : Nat) (f : Cluster → Cluster) : (c.modCluster k f).interrupts = c.interrupts := rfl
@[simp] theorem Chip.modCluster_energy (c : Chip) (k : Nat) (f : Cluster → Cluster) : (c.modCluster k f).energy = c.energy := rfl

@[simp] theorem Chip.modDie_slots (c : Chip) (k : Nat) (f : Die → Die) : (c.modDie k f).slots = c.slots := rfl
@[simp] theorem Chip.modDie_teams (c : Chip) (k : Nat) (f : Die → Die) : (c.modDie k f).teams = c.teams := rfl
@[simp] theorem Chip.modDie_teamNext (c : Chip) (k : Nat) (f : Die → Die) : (c.modDie k f).teamNext = c.teamNext := rfl
@[simp] theorem Chip.modDie_runs (c : Chip) (k : Nat) (f : Die → Die) : (c.modDie k f).runs = c.runs := rfl
@[simp] theorem Chip.modDie_runNext (c : Chip) (k : Nat) (f : Die → Die) : (c.modDie k f).runNext = c.runNext := rfl
@[simp] theorem Chip.modDie_lidNext (c : Chip) (k : Nat) (f : Die → Die) : (c.modDie k f).lidNext = c.lidNext := rfl
@[simp] theorem Chip.modDie_saved (c : Chip) (k : Nat) (f : Die → Die) : (c.modDie k f).saved = c.saved := rfl
@[simp] theorem Chip.modDie_savedNext (c : Chip) (k : Nat) (f : Die → Die) : (c.modDie k f).savedNext = c.savedNext := rfl
@[simp] theorem Chip.modDie_cores (c : Chip) (k : Nat) (f : Die → Die) : (c.modDie k f).cores = c.cores := rfl
@[simp] theorem Chip.modDie_clusters (c : Chip) (k : Nat) (f : Die → Die) : (c.modDie k f).clusters = c.clusters := rfl
@[simp] theorem Chip.modDie_parts (c : Chip) (k : Nat) (f : Die → Die) : (c.modDie k f).parts = c.parts := rfl
@[simp] theorem Chip.modDie_ctxs (c : Chip) (k : Nat) (f : Die → Die) : (c.modDie k f).ctxs = c.ctxs := rfl
@[simp] theorem Chip.modDie_queues (c : Chip) (k : Nat) (f : Die → Die) : (c.modDie k f).queues = c.queues := rfl
@[simp] theorem Chip.modDie_memq (c : Chip) (k : Nat) (f : Die → Die) : (c.modDie k f).memq = c.memq := rfl
@[simp] theorem Chip.modDie_seq (c : Chip) (k : Nat) (f : Die → Die) : (c.modDie k f).seq = c.seq := rfl
@[simp] theorem Chip.modDie_leases (c : Chip) (k : Nat) (f : Die → Die) : (c.modDie k f).leases = c.leases := rfl
@[simp] theorem Chip.modDie_leaseNext (c : Chip) (k : Nat) (f : Die → Die) : (c.modDie k f).leaseNext = c.leaseNext := rfl
@[simp] theorem Chip.modDie_leaseSerial (c : Chip) (k : Nat) (f : Die → Die) : (c.modDie k f).leaseSerial = c.leaseSerial := rfl
@[simp] theorem Chip.modDie_units (c : Chip) (k : Nat) (f : Die → Die) : (c.modDie k f).units = c.units := rfl
@[simp] theorem Chip.modDie_engops (c : Chip) (k : Nat) (f : Die → Die) : (c.modDie k f).engops = c.engops := rfl
@[simp] theorem Chip.modDie_engNext (c : Chip) (k : Nat) (f : Die → Die) : (c.modDie k f).engNext = c.engNext := rfl
@[simp] theorem Chip.modDie_copies (c : Chip) (k : Nat) (f : Die → Die) : (c.modDie k f).copies = c.copies := rfl
@[simp] theorem Chip.modDie_copyNext (c : Chip) (k : Nat) (f : Die → Die) : (c.modDie k f).copyNext = c.copyNext := rfl
@[simp] theorem Chip.modDie_marks (c : Chip) (k : Nat) (f : Die → Die) : (c.modDie k f).marks = c.marks := rfl
@[simp] theorem Chip.modDie_poison (c : Chip) (k : Nat) (f : Die → Die) : (c.modDie k f).poison = c.poison := rfl
@[simp] theorem Chip.modDie_lost (c : Chip) (k : Nat) (f : Die → Die) : (c.modDie k f).lost = c.lost := rfl
@[simp] theorem Chip.modDie_recs (c : Chip) (k : Nat) (f : Die → Die) : (c.modDie k f).recs = c.recs := rfl
@[simp] theorem Chip.modDie_mons (c : Chip) (k : Nat) (f : Die → Die) : (c.modDie k f).mons = c.mons := rfl
@[simp] theorem Chip.modDie_bars (c : Chip) (k : Nat) (f : Die → Die) : (c.modDie k f).bars = c.bars := rfl
@[simp] theorem Chip.modDie_barNext (c : Chip) (k : Nat) (f : Die → Die) : (c.modDie k f).barNext = c.barNext := rfl
@[simp] theorem Chip.modDie_mboxWin (c : Chip) (k : Nat) (f : Die → Die) : (c.modDie k f).mboxWin = c.mboxWin := rfl
@[simp] theorem Chip.modDie_hypRing (c : Chip) (k : Nat) (f : Die → Die) : (c.modDie k f).hypRing = c.hypRing := rfl
@[simp] theorem Chip.modDie_cmd (c : Chip) (k : Nat) (f : Die → Die) : (c.modDie k f).cmd = c.cmd := rfl
@[simp] theorem Chip.modDie_evring (c : Chip) (k : Nat) (f : Die → Die) : (c.modDie k f).evring = c.evring := rfl
@[simp] theorem Chip.modDie_evDropped (c : Chip) (k : Nat) (f : Die → Die) : (c.modDie k f).evDropped = c.evDropped := rfl
@[simp] theorem Chip.modDie_mr (c : Chip) (k : Nat) (f : Die → Die) : (c.modDie k f).mr = c.mr := rfl
@[simp] theorem Chip.modDie_mrLocked (c : Chip) (k : Nat) (f : Die → Die) : (c.modDie k f).mrLocked = c.mrLocked := rfl
@[simp] theorem Chip.modDie_stage (c : Chip) (k : Nat) (f : Die → Die) : (c.modDie k f).stage = c.stage := rfl
@[simp] theorem Chip.modDie_resyncSeq (c : Chip) (k : Nat) (f : Die → Die) : (c.modDie k f).resyncSeq = c.resyncSeq := rfl
@[simp] theorem Chip.modDie_link (c : Chip) (k : Nat) (f : Die → Die) : (c.modDie k f).link = c.link := rfl
@[simp] theorem Chip.modDie_sensors (c : Chip) (k : Nat) (f : Die → Die) : (c.modDie k f).sensors = c.sensors := rfl
@[simp] theorem Chip.modDie_spareGroups (c : Chip) (k : Nat) (f : Die → Die) : (c.modDie k f).spareGroups = c.spareGroups := rfl
@[simp] theorem Chip.modDie_wsets (c : Chip) (k : Nat) (f : Die → Die) : (c.modDie k f).wsets = c.wsets := rfl
@[simp] theorem Chip.modDie_tier (c : Chip) (k : Nat) (f : Die → Die) : (c.modDie k f).tier = c.tier := rfl
@[simp] theorem Chip.modDie_lowpri (c : Chip) (k : Nat) (f : Die → Die) : (c.modDie k f).lowpri = c.lowpri := rfl
@[simp] theorem Chip.modDie_regionq (c : Chip) (k : Nat) (f : Die → Die) : (c.modDie k f).regionq = c.regionq := rfl
@[simp] theorem Chip.modDie_folded (c : Chip) (k : Nat) (f : Die → Die) : (c.modDie k f).folded = c.folded := rfl
@[simp] theorem Chip.modDie_combined (c : Chip) (k : Nat) (f : Die → Die) : (c.modDie k f).combined = c.combined := rfl
@[simp] theorem Chip.modDie_interrupts (c : Chip) (k : Nat) (f : Die → Die) : (c.modDie k f).interrupts = c.interrupts := rfl
@[simp] theorem Chip.modDie_energy (c : Chip) (k : Nat) (f : Die → Die) : (c.modDie k f).energy = c.energy := rfl

@[simp] theorem Chip.modPart_slots (c : Chip) (k : Nat) (f : Partition → Partition) : (c.modPart k f).slots = c.slots := rfl
@[simp] theorem Chip.modPart_teams (c : Chip) (k : Nat) (f : Partition → Partition) : (c.modPart k f).teams = c.teams := rfl
@[simp] theorem Chip.modPart_teamNext (c : Chip) (k : Nat) (f : Partition → Partition) : (c.modPart k f).teamNext = c.teamNext := rfl
@[simp] theorem Chip.modPart_runs (c : Chip) (k : Nat) (f : Partition → Partition) : (c.modPart k f).runs = c.runs := rfl
@[simp] theorem Chip.modPart_runNext (c : Chip) (k : Nat) (f : Partition → Partition) : (c.modPart k f).runNext = c.runNext := rfl
@[simp] theorem Chip.modPart_lidNext (c : Chip) (k : Nat) (f : Partition → Partition) : (c.modPart k f).lidNext = c.lidNext := rfl
@[simp] theorem Chip.modPart_saved (c : Chip) (k : Nat) (f : Partition → Partition) : (c.modPart k f).saved = c.saved := rfl
@[simp] theorem Chip.modPart_savedNext (c : Chip) (k : Nat) (f : Partition → Partition) : (c.modPart k f).savedNext = c.savedNext := rfl
@[simp] theorem Chip.modPart_cores (c : Chip) (k : Nat) (f : Partition → Partition) : (c.modPart k f).cores = c.cores := rfl
@[simp] theorem Chip.modPart_clusters (c : Chip) (k : Nat) (f : Partition → Partition) : (c.modPart k f).clusters = c.clusters := rfl
@[simp] theorem Chip.modPart_dies (c : Chip) (k : Nat) (f : Partition → Partition) : (c.modPart k f).dies = c.dies := rfl
@[simp] theorem Chip.modPart_ctxs (c : Chip) (k : Nat) (f : Partition → Partition) : (c.modPart k f).ctxs = c.ctxs := rfl
@[simp] theorem Chip.modPart_queues (c : Chip) (k : Nat) (f : Partition → Partition) : (c.modPart k f).queues = c.queues := rfl
@[simp] theorem Chip.modPart_memq (c : Chip) (k : Nat) (f : Partition → Partition) : (c.modPart k f).memq = c.memq := rfl
@[simp] theorem Chip.modPart_seq (c : Chip) (k : Nat) (f : Partition → Partition) : (c.modPart k f).seq = c.seq := rfl
@[simp] theorem Chip.modPart_leases (c : Chip) (k : Nat) (f : Partition → Partition) : (c.modPart k f).leases = c.leases := rfl
@[simp] theorem Chip.modPart_leaseNext (c : Chip) (k : Nat) (f : Partition → Partition) : (c.modPart k f).leaseNext = c.leaseNext := rfl
@[simp] theorem Chip.modPart_leaseSerial (c : Chip) (k : Nat) (f : Partition → Partition) : (c.modPart k f).leaseSerial = c.leaseSerial := rfl
@[simp] theorem Chip.modPart_units (c : Chip) (k : Nat) (f : Partition → Partition) : (c.modPart k f).units = c.units := rfl
@[simp] theorem Chip.modPart_engops (c : Chip) (k : Nat) (f : Partition → Partition) : (c.modPart k f).engops = c.engops := rfl
@[simp] theorem Chip.modPart_engNext (c : Chip) (k : Nat) (f : Partition → Partition) : (c.modPart k f).engNext = c.engNext := rfl
@[simp] theorem Chip.modPart_copies (c : Chip) (k : Nat) (f : Partition → Partition) : (c.modPart k f).copies = c.copies := rfl
@[simp] theorem Chip.modPart_copyNext (c : Chip) (k : Nat) (f : Partition → Partition) : (c.modPart k f).copyNext = c.copyNext := rfl
@[simp] theorem Chip.modPart_marks (c : Chip) (k : Nat) (f : Partition → Partition) : (c.modPart k f).marks = c.marks := rfl
@[simp] theorem Chip.modPart_poison (c : Chip) (k : Nat) (f : Partition → Partition) : (c.modPart k f).poison = c.poison := rfl
@[simp] theorem Chip.modPart_lost (c : Chip) (k : Nat) (f : Partition → Partition) : (c.modPart k f).lost = c.lost := rfl
@[simp] theorem Chip.modPart_recs (c : Chip) (k : Nat) (f : Partition → Partition) : (c.modPart k f).recs = c.recs := rfl
@[simp] theorem Chip.modPart_mons (c : Chip) (k : Nat) (f : Partition → Partition) : (c.modPart k f).mons = c.mons := rfl
@[simp] theorem Chip.modPart_bars (c : Chip) (k : Nat) (f : Partition → Partition) : (c.modPart k f).bars = c.bars := rfl
@[simp] theorem Chip.modPart_barNext (c : Chip) (k : Nat) (f : Partition → Partition) : (c.modPart k f).barNext = c.barNext := rfl
@[simp] theorem Chip.modPart_mboxWin (c : Chip) (k : Nat) (f : Partition → Partition) : (c.modPart k f).mboxWin = c.mboxWin := rfl
@[simp] theorem Chip.modPart_hypRing (c : Chip) (k : Nat) (f : Partition → Partition) : (c.modPart k f).hypRing = c.hypRing := rfl
@[simp] theorem Chip.modPart_cmd (c : Chip) (k : Nat) (f : Partition → Partition) : (c.modPart k f).cmd = c.cmd := rfl
@[simp] theorem Chip.modPart_evring (c : Chip) (k : Nat) (f : Partition → Partition) : (c.modPart k f).evring = c.evring := rfl
@[simp] theorem Chip.modPart_evDropped (c : Chip) (k : Nat) (f : Partition → Partition) : (c.modPart k f).evDropped = c.evDropped := rfl
@[simp] theorem Chip.modPart_mr (c : Chip) (k : Nat) (f : Partition → Partition) : (c.modPart k f).mr = c.mr := rfl
@[simp] theorem Chip.modPart_mrLocked (c : Chip) (k : Nat) (f : Partition → Partition) : (c.modPart k f).mrLocked = c.mrLocked := rfl
@[simp] theorem Chip.modPart_stage (c : Chip) (k : Nat) (f : Partition → Partition) : (c.modPart k f).stage = c.stage := rfl
@[simp] theorem Chip.modPart_resyncSeq (c : Chip) (k : Nat) (f : Partition → Partition) : (c.modPart k f).resyncSeq = c.resyncSeq := rfl
@[simp] theorem Chip.modPart_link (c : Chip) (k : Nat) (f : Partition → Partition) : (c.modPart k f).link = c.link := rfl
@[simp] theorem Chip.modPart_sensors (c : Chip) (k : Nat) (f : Partition → Partition) : (c.modPart k f).sensors = c.sensors := rfl
@[simp] theorem Chip.modPart_spareGroups (c : Chip) (k : Nat) (f : Partition → Partition) : (c.modPart k f).spareGroups = c.spareGroups := rfl
@[simp] theorem Chip.modPart_wsets (c : Chip) (k : Nat) (f : Partition → Partition) : (c.modPart k f).wsets = c.wsets := rfl
@[simp] theorem Chip.modPart_tier (c : Chip) (k : Nat) (f : Partition → Partition) : (c.modPart k f).tier = c.tier := rfl
@[simp] theorem Chip.modPart_lowpri (c : Chip) (k : Nat) (f : Partition → Partition) : (c.modPart k f).lowpri = c.lowpri := rfl
@[simp] theorem Chip.modPart_regionq (c : Chip) (k : Nat) (f : Partition → Partition) : (c.modPart k f).regionq = c.regionq := rfl
@[simp] theorem Chip.modPart_folded (c : Chip) (k : Nat) (f : Partition → Partition) : (c.modPart k f).folded = c.folded := rfl
@[simp] theorem Chip.modPart_combined (c : Chip) (k : Nat) (f : Partition → Partition) : (c.modPart k f).combined = c.combined := rfl
@[simp] theorem Chip.modPart_interrupts (c : Chip) (k : Nat) (f : Partition → Partition) : (c.modPart k f).interrupts = c.interrupts := rfl
@[simp] theorem Chip.modPart_energy (c : Chip) (k : Nat) (f : Partition → Partition) : (c.modPart k f).energy = c.energy := rfl

@[simp] theorem Chip.modCtx_slots (c : Chip) (k : Nat) (f : Context → Context) : (c.modCtx k f).slots = c.slots := rfl
@[simp] theorem Chip.modCtx_teams (c : Chip) (k : Nat) (f : Context → Context) : (c.modCtx k f).teams = c.teams := rfl
@[simp] theorem Chip.modCtx_teamNext (c : Chip) (k : Nat) (f : Context → Context) : (c.modCtx k f).teamNext = c.teamNext := rfl
@[simp] theorem Chip.modCtx_runs (c : Chip) (k : Nat) (f : Context → Context) : (c.modCtx k f).runs = c.runs := rfl
@[simp] theorem Chip.modCtx_runNext (c : Chip) (k : Nat) (f : Context → Context) : (c.modCtx k f).runNext = c.runNext := rfl
@[simp] theorem Chip.modCtx_lidNext (c : Chip) (k : Nat) (f : Context → Context) : (c.modCtx k f).lidNext = c.lidNext := rfl
@[simp] theorem Chip.modCtx_saved (c : Chip) (k : Nat) (f : Context → Context) : (c.modCtx k f).saved = c.saved := rfl
@[simp] theorem Chip.modCtx_savedNext (c : Chip) (k : Nat) (f : Context → Context) : (c.modCtx k f).savedNext = c.savedNext := rfl
@[simp] theorem Chip.modCtx_cores (c : Chip) (k : Nat) (f : Context → Context) : (c.modCtx k f).cores = c.cores := rfl
@[simp] theorem Chip.modCtx_clusters (c : Chip) (k : Nat) (f : Context → Context) : (c.modCtx k f).clusters = c.clusters := rfl
@[simp] theorem Chip.modCtx_dies (c : Chip) (k : Nat) (f : Context → Context) : (c.modCtx k f).dies = c.dies := rfl
@[simp] theorem Chip.modCtx_parts (c : Chip) (k : Nat) (f : Context → Context) : (c.modCtx k f).parts = c.parts := rfl
@[simp] theorem Chip.modCtx_queues (c : Chip) (k : Nat) (f : Context → Context) : (c.modCtx k f).queues = c.queues := rfl
@[simp] theorem Chip.modCtx_memq (c : Chip) (k : Nat) (f : Context → Context) : (c.modCtx k f).memq = c.memq := rfl
@[simp] theorem Chip.modCtx_seq (c : Chip) (k : Nat) (f : Context → Context) : (c.modCtx k f).seq = c.seq := rfl
@[simp] theorem Chip.modCtx_leases (c : Chip) (k : Nat) (f : Context → Context) : (c.modCtx k f).leases = c.leases := rfl
@[simp] theorem Chip.modCtx_leaseNext (c : Chip) (k : Nat) (f : Context → Context) : (c.modCtx k f).leaseNext = c.leaseNext := rfl
@[simp] theorem Chip.modCtx_leaseSerial (c : Chip) (k : Nat) (f : Context → Context) : (c.modCtx k f).leaseSerial = c.leaseSerial := rfl
@[simp] theorem Chip.modCtx_units (c : Chip) (k : Nat) (f : Context → Context) : (c.modCtx k f).units = c.units := rfl
@[simp] theorem Chip.modCtx_engops (c : Chip) (k : Nat) (f : Context → Context) : (c.modCtx k f).engops = c.engops := rfl
@[simp] theorem Chip.modCtx_engNext (c : Chip) (k : Nat) (f : Context → Context) : (c.modCtx k f).engNext = c.engNext := rfl
@[simp] theorem Chip.modCtx_copies (c : Chip) (k : Nat) (f : Context → Context) : (c.modCtx k f).copies = c.copies := rfl
@[simp] theorem Chip.modCtx_copyNext (c : Chip) (k : Nat) (f : Context → Context) : (c.modCtx k f).copyNext = c.copyNext := rfl
@[simp] theorem Chip.modCtx_marks (c : Chip) (k : Nat) (f : Context → Context) : (c.modCtx k f).marks = c.marks := rfl
@[simp] theorem Chip.modCtx_poison (c : Chip) (k : Nat) (f : Context → Context) : (c.modCtx k f).poison = c.poison := rfl
@[simp] theorem Chip.modCtx_lost (c : Chip) (k : Nat) (f : Context → Context) : (c.modCtx k f).lost = c.lost := rfl
@[simp] theorem Chip.modCtx_recs (c : Chip) (k : Nat) (f : Context → Context) : (c.modCtx k f).recs = c.recs := rfl
@[simp] theorem Chip.modCtx_mons (c : Chip) (k : Nat) (f : Context → Context) : (c.modCtx k f).mons = c.mons := rfl
@[simp] theorem Chip.modCtx_bars (c : Chip) (k : Nat) (f : Context → Context) : (c.modCtx k f).bars = c.bars := rfl
@[simp] theorem Chip.modCtx_barNext (c : Chip) (k : Nat) (f : Context → Context) : (c.modCtx k f).barNext = c.barNext := rfl
@[simp] theorem Chip.modCtx_mboxWin (c : Chip) (k : Nat) (f : Context → Context) : (c.modCtx k f).mboxWin = c.mboxWin := rfl
@[simp] theorem Chip.modCtx_hypRing (c : Chip) (k : Nat) (f : Context → Context) : (c.modCtx k f).hypRing = c.hypRing := rfl
@[simp] theorem Chip.modCtx_cmd (c : Chip) (k : Nat) (f : Context → Context) : (c.modCtx k f).cmd = c.cmd := rfl
@[simp] theorem Chip.modCtx_evring (c : Chip) (k : Nat) (f : Context → Context) : (c.modCtx k f).evring = c.evring := rfl
@[simp] theorem Chip.modCtx_evDropped (c : Chip) (k : Nat) (f : Context → Context) : (c.modCtx k f).evDropped = c.evDropped := rfl
@[simp] theorem Chip.modCtx_mr (c : Chip) (k : Nat) (f : Context → Context) : (c.modCtx k f).mr = c.mr := rfl
@[simp] theorem Chip.modCtx_mrLocked (c : Chip) (k : Nat) (f : Context → Context) : (c.modCtx k f).mrLocked = c.mrLocked := rfl
@[simp] theorem Chip.modCtx_stage (c : Chip) (k : Nat) (f : Context → Context) : (c.modCtx k f).stage = c.stage := rfl
@[simp] theorem Chip.modCtx_resyncSeq (c : Chip) (k : Nat) (f : Context → Context) : (c.modCtx k f).resyncSeq = c.resyncSeq := rfl
@[simp] theorem Chip.modCtx_link (c : Chip) (k : Nat) (f : Context → Context) : (c.modCtx k f).link = c.link := rfl
@[simp] theorem Chip.modCtx_sensors (c : Chip) (k : Nat) (f : Context → Context) : (c.modCtx k f).sensors = c.sensors := rfl
@[simp] theorem Chip.modCtx_spareGroups (c : Chip) (k : Nat) (f : Context → Context) : (c.modCtx k f).spareGroups = c.spareGroups := rfl
@[simp] theorem Chip.modCtx_wsets (c : Chip) (k : Nat) (f : Context → Context) : (c.modCtx k f).wsets = c.wsets := rfl
@[simp] theorem Chip.modCtx_tier (c : Chip) (k : Nat) (f : Context → Context) : (c.modCtx k f).tier = c.tier := rfl
@[simp] theorem Chip.modCtx_lowpri (c : Chip) (k : Nat) (f : Context → Context) : (c.modCtx k f).lowpri = c.lowpri := rfl
@[simp] theorem Chip.modCtx_regionq (c : Chip) (k : Nat) (f : Context → Context) : (c.modCtx k f).regionq = c.regionq := rfl
@[simp] theorem Chip.modCtx_folded (c : Chip) (k : Nat) (f : Context → Context) : (c.modCtx k f).folded = c.folded := rfl
@[simp] theorem Chip.modCtx_combined (c : Chip) (k : Nat) (f : Context → Context) : (c.modCtx k f).combined = c.combined := rfl
@[simp] theorem Chip.modCtx_interrupts (c : Chip) (k : Nat) (f : Context → Context) : (c.modCtx k f).interrupts = c.interrupts := rfl
@[simp] theorem Chip.modCtx_energy (c : Chip) (k : Nat) (f : Context → Context) : (c.modCtx k f).energy = c.energy := rfl

@[simp] theorem Chip.modTeam_slots (c : Chip) (k : Nat) (f : Team → Team) : (c.modTeam k f).slots = c.slots := rfl
@[simp] theorem Chip.modTeam_teamNext (c : Chip) (k : Nat) (f : Team → Team) : (c.modTeam k f).teamNext = c.teamNext := rfl
@[simp] theorem Chip.modTeam_runs (c : Chip) (k : Nat) (f : Team → Team) : (c.modTeam k f).runs = c.runs := rfl
@[simp] theorem Chip.modTeam_runNext (c : Chip) (k : Nat) (f : Team → Team) : (c.modTeam k f).runNext = c.runNext := rfl
@[simp] theorem Chip.modTeam_lidNext (c : Chip) (k : Nat) (f : Team → Team) : (c.modTeam k f).lidNext = c.lidNext := rfl
@[simp] theorem Chip.modTeam_saved (c : Chip) (k : Nat) (f : Team → Team) : (c.modTeam k f).saved = c.saved := rfl
@[simp] theorem Chip.modTeam_savedNext (c : Chip) (k : Nat) (f : Team → Team) : (c.modTeam k f).savedNext = c.savedNext := rfl
@[simp] theorem Chip.modTeam_cores (c : Chip) (k : Nat) (f : Team → Team) : (c.modTeam k f).cores = c.cores := rfl
@[simp] theorem Chip.modTeam_clusters (c : Chip) (k : Nat) (f : Team → Team) : (c.modTeam k f).clusters = c.clusters := rfl
@[simp] theorem Chip.modTeam_dies (c : Chip) (k : Nat) (f : Team → Team) : (c.modTeam k f).dies = c.dies := rfl
@[simp] theorem Chip.modTeam_parts (c : Chip) (k : Nat) (f : Team → Team) : (c.modTeam k f).parts = c.parts := rfl
@[simp] theorem Chip.modTeam_ctxs (c : Chip) (k : Nat) (f : Team → Team) : (c.modTeam k f).ctxs = c.ctxs := rfl
@[simp] theorem Chip.modTeam_queues (c : Chip) (k : Nat) (f : Team → Team) : (c.modTeam k f).queues = c.queues := rfl
@[simp] theorem Chip.modTeam_memq (c : Chip) (k : Nat) (f : Team → Team) : (c.modTeam k f).memq = c.memq := rfl
@[simp] theorem Chip.modTeam_seq (c : Chip) (k : Nat) (f : Team → Team) : (c.modTeam k f).seq = c.seq := rfl
@[simp] theorem Chip.modTeam_leases (c : Chip) (k : Nat) (f : Team → Team) : (c.modTeam k f).leases = c.leases := rfl
@[simp] theorem Chip.modTeam_leaseNext (c : Chip) (k : Nat) (f : Team → Team) : (c.modTeam k f).leaseNext = c.leaseNext := rfl
@[simp] theorem Chip.modTeam_leaseSerial (c : Chip) (k : Nat) (f : Team → Team) : (c.modTeam k f).leaseSerial = c.leaseSerial := rfl
@[simp] theorem Chip.modTeam_units (c : Chip) (k : Nat) (f : Team → Team) : (c.modTeam k f).units = c.units := rfl
@[simp] theorem Chip.modTeam_engops (c : Chip) (k : Nat) (f : Team → Team) : (c.modTeam k f).engops = c.engops := rfl
@[simp] theorem Chip.modTeam_engNext (c : Chip) (k : Nat) (f : Team → Team) : (c.modTeam k f).engNext = c.engNext := rfl
@[simp] theorem Chip.modTeam_copies (c : Chip) (k : Nat) (f : Team → Team) : (c.modTeam k f).copies = c.copies := rfl
@[simp] theorem Chip.modTeam_copyNext (c : Chip) (k : Nat) (f : Team → Team) : (c.modTeam k f).copyNext = c.copyNext := rfl
@[simp] theorem Chip.modTeam_marks (c : Chip) (k : Nat) (f : Team → Team) : (c.modTeam k f).marks = c.marks := rfl
@[simp] theorem Chip.modTeam_poison (c : Chip) (k : Nat) (f : Team → Team) : (c.modTeam k f).poison = c.poison := rfl
@[simp] theorem Chip.modTeam_lost (c : Chip) (k : Nat) (f : Team → Team) : (c.modTeam k f).lost = c.lost := rfl
@[simp] theorem Chip.modTeam_recs (c : Chip) (k : Nat) (f : Team → Team) : (c.modTeam k f).recs = c.recs := rfl
@[simp] theorem Chip.modTeam_mons (c : Chip) (k : Nat) (f : Team → Team) : (c.modTeam k f).mons = c.mons := rfl
@[simp] theorem Chip.modTeam_bars (c : Chip) (k : Nat) (f : Team → Team) : (c.modTeam k f).bars = c.bars := rfl
@[simp] theorem Chip.modTeam_barNext (c : Chip) (k : Nat) (f : Team → Team) : (c.modTeam k f).barNext = c.barNext := rfl
@[simp] theorem Chip.modTeam_mboxWin (c : Chip) (k : Nat) (f : Team → Team) : (c.modTeam k f).mboxWin = c.mboxWin := rfl
@[simp] theorem Chip.modTeam_hypRing (c : Chip) (k : Nat) (f : Team → Team) : (c.modTeam k f).hypRing = c.hypRing := rfl
@[simp] theorem Chip.modTeam_cmd (c : Chip) (k : Nat) (f : Team → Team) : (c.modTeam k f).cmd = c.cmd := rfl
@[simp] theorem Chip.modTeam_evring (c : Chip) (k : Nat) (f : Team → Team) : (c.modTeam k f).evring = c.evring := rfl
@[simp] theorem Chip.modTeam_evDropped (c : Chip) (k : Nat) (f : Team → Team) : (c.modTeam k f).evDropped = c.evDropped := rfl
@[simp] theorem Chip.modTeam_mr (c : Chip) (k : Nat) (f : Team → Team) : (c.modTeam k f).mr = c.mr := rfl
@[simp] theorem Chip.modTeam_mrLocked (c : Chip) (k : Nat) (f : Team → Team) : (c.modTeam k f).mrLocked = c.mrLocked := rfl
@[simp] theorem Chip.modTeam_stage (c : Chip) (k : Nat) (f : Team → Team) : (c.modTeam k f).stage = c.stage := rfl
@[simp] theorem Chip.modTeam_resyncSeq (c : Chip) (k : Nat) (f : Team → Team) : (c.modTeam k f).resyncSeq = c.resyncSeq := rfl
@[simp] theorem Chip.modTeam_link (c : Chip) (k : Nat) (f : Team → Team) : (c.modTeam k f).link = c.link := rfl
@[simp] theorem Chip.modTeam_sensors (c : Chip) (k : Nat) (f : Team → Team) : (c.modTeam k f).sensors = c.sensors := rfl
@[simp] theorem Chip.modTeam_spareGroups (c : Chip) (k : Nat) (f : Team → Team) : (c.modTeam k f).spareGroups = c.spareGroups := rfl
@[simp] theorem Chip.modTeam_wsets (c : Chip) (k : Nat) (f : Team → Team) : (c.modTeam k f).wsets = c.wsets := rfl
@[simp] theorem Chip.modTeam_tier (c : Chip) (k : Nat) (f : Team → Team) : (c.modTeam k f).tier = c.tier := rfl
@[simp] theorem Chip.modTeam_lowpri (c : Chip) (k : Nat) (f : Team → Team) : (c.modTeam k f).lowpri = c.lowpri := rfl
@[simp] theorem Chip.modTeam_regionq (c : Chip) (k : Nat) (f : Team → Team) : (c.modTeam k f).regionq = c.regionq := rfl
@[simp] theorem Chip.modTeam_folded (c : Chip) (k : Nat) (f : Team → Team) : (c.modTeam k f).folded = c.folded := rfl
@[simp] theorem Chip.modTeam_combined (c : Chip) (k : Nat) (f : Team → Team) : (c.modTeam k f).combined = c.combined := rfl
@[simp] theorem Chip.modTeam_interrupts (c : Chip) (k : Nat) (f : Team → Team) : (c.modTeam k f).interrupts = c.interrupts := rfl
@[simp] theorem Chip.modTeam_energy (c : Chip) (k : Nat) (f : Team → Team) : (c.modTeam k f).energy = c.energy := rfl

@[simp] theorem Chip.modRun_slots (c : Chip) (k : Nat) (f : Run → Run) : (c.modRun k f).slots = c.slots := rfl
@[simp] theorem Chip.modRun_teams (c : Chip) (k : Nat) (f : Run → Run) : (c.modRun k f).teams = c.teams := rfl
@[simp] theorem Chip.modRun_teamNext (c : Chip) (k : Nat) (f : Run → Run) : (c.modRun k f).teamNext = c.teamNext := rfl
@[simp] theorem Chip.modRun_runNext (c : Chip) (k : Nat) (f : Run → Run) : (c.modRun k f).runNext = c.runNext := rfl
@[simp] theorem Chip.modRun_lidNext (c : Chip) (k : Nat) (f : Run → Run) : (c.modRun k f).lidNext = c.lidNext := rfl
@[simp] theorem Chip.modRun_saved (c : Chip) (k : Nat) (f : Run → Run) : (c.modRun k f).saved = c.saved := rfl
@[simp] theorem Chip.modRun_savedNext (c : Chip) (k : Nat) (f : Run → Run) : (c.modRun k f).savedNext = c.savedNext := rfl
@[simp] theorem Chip.modRun_cores (c : Chip) (k : Nat) (f : Run → Run) : (c.modRun k f).cores = c.cores := rfl
@[simp] theorem Chip.modRun_clusters (c : Chip) (k : Nat) (f : Run → Run) : (c.modRun k f).clusters = c.clusters := rfl
@[simp] theorem Chip.modRun_dies (c : Chip) (k : Nat) (f : Run → Run) : (c.modRun k f).dies = c.dies := rfl
@[simp] theorem Chip.modRun_parts (c : Chip) (k : Nat) (f : Run → Run) : (c.modRun k f).parts = c.parts := rfl
@[simp] theorem Chip.modRun_ctxs (c : Chip) (k : Nat) (f : Run → Run) : (c.modRun k f).ctxs = c.ctxs := rfl
@[simp] theorem Chip.modRun_queues (c : Chip) (k : Nat) (f : Run → Run) : (c.modRun k f).queues = c.queues := rfl
@[simp] theorem Chip.modRun_memq (c : Chip) (k : Nat) (f : Run → Run) : (c.modRun k f).memq = c.memq := rfl
@[simp] theorem Chip.modRun_seq (c : Chip) (k : Nat) (f : Run → Run) : (c.modRun k f).seq = c.seq := rfl
@[simp] theorem Chip.modRun_leases (c : Chip) (k : Nat) (f : Run → Run) : (c.modRun k f).leases = c.leases := rfl
@[simp] theorem Chip.modRun_leaseNext (c : Chip) (k : Nat) (f : Run → Run) : (c.modRun k f).leaseNext = c.leaseNext := rfl
@[simp] theorem Chip.modRun_leaseSerial (c : Chip) (k : Nat) (f : Run → Run) : (c.modRun k f).leaseSerial = c.leaseSerial := rfl
@[simp] theorem Chip.modRun_units (c : Chip) (k : Nat) (f : Run → Run) : (c.modRun k f).units = c.units := rfl
@[simp] theorem Chip.modRun_engops (c : Chip) (k : Nat) (f : Run → Run) : (c.modRun k f).engops = c.engops := rfl
@[simp] theorem Chip.modRun_engNext (c : Chip) (k : Nat) (f : Run → Run) : (c.modRun k f).engNext = c.engNext := rfl
@[simp] theorem Chip.modRun_copies (c : Chip) (k : Nat) (f : Run → Run) : (c.modRun k f).copies = c.copies := rfl
@[simp] theorem Chip.modRun_copyNext (c : Chip) (k : Nat) (f : Run → Run) : (c.modRun k f).copyNext = c.copyNext := rfl
@[simp] theorem Chip.modRun_marks (c : Chip) (k : Nat) (f : Run → Run) : (c.modRun k f).marks = c.marks := rfl
@[simp] theorem Chip.modRun_poison (c : Chip) (k : Nat) (f : Run → Run) : (c.modRun k f).poison = c.poison := rfl
@[simp] theorem Chip.modRun_lost (c : Chip) (k : Nat) (f : Run → Run) : (c.modRun k f).lost = c.lost := rfl
@[simp] theorem Chip.modRun_recs (c : Chip) (k : Nat) (f : Run → Run) : (c.modRun k f).recs = c.recs := rfl
@[simp] theorem Chip.modRun_mons (c : Chip) (k : Nat) (f : Run → Run) : (c.modRun k f).mons = c.mons := rfl
@[simp] theorem Chip.modRun_bars (c : Chip) (k : Nat) (f : Run → Run) : (c.modRun k f).bars = c.bars := rfl
@[simp] theorem Chip.modRun_barNext (c : Chip) (k : Nat) (f : Run → Run) : (c.modRun k f).barNext = c.barNext := rfl
@[simp] theorem Chip.modRun_mboxWin (c : Chip) (k : Nat) (f : Run → Run) : (c.modRun k f).mboxWin = c.mboxWin := rfl
@[simp] theorem Chip.modRun_hypRing (c : Chip) (k : Nat) (f : Run → Run) : (c.modRun k f).hypRing = c.hypRing := rfl
@[simp] theorem Chip.modRun_cmd (c : Chip) (k : Nat) (f : Run → Run) : (c.modRun k f).cmd = c.cmd := rfl
@[simp] theorem Chip.modRun_evring (c : Chip) (k : Nat) (f : Run → Run) : (c.modRun k f).evring = c.evring := rfl
@[simp] theorem Chip.modRun_evDropped (c : Chip) (k : Nat) (f : Run → Run) : (c.modRun k f).evDropped = c.evDropped := rfl
@[simp] theorem Chip.modRun_mr (c : Chip) (k : Nat) (f : Run → Run) : (c.modRun k f).mr = c.mr := rfl
@[simp] theorem Chip.modRun_mrLocked (c : Chip) (k : Nat) (f : Run → Run) : (c.modRun k f).mrLocked = c.mrLocked := rfl
@[simp] theorem Chip.modRun_stage (c : Chip) (k : Nat) (f : Run → Run) : (c.modRun k f).stage = c.stage := rfl
@[simp] theorem Chip.modRun_resyncSeq (c : Chip) (k : Nat) (f : Run → Run) : (c.modRun k f).resyncSeq = c.resyncSeq := rfl
@[simp] theorem Chip.modRun_link (c : Chip) (k : Nat) (f : Run → Run) : (c.modRun k f).link = c.link := rfl
@[simp] theorem Chip.modRun_sensors (c : Chip) (k : Nat) (f : Run → Run) : (c.modRun k f).sensors = c.sensors := rfl
@[simp] theorem Chip.modRun_spareGroups (c : Chip) (k : Nat) (f : Run → Run) : (c.modRun k f).spareGroups = c.spareGroups := rfl
@[simp] theorem Chip.modRun_wsets (c : Chip) (k : Nat) (f : Run → Run) : (c.modRun k f).wsets = c.wsets := rfl
@[simp] theorem Chip.modRun_tier (c : Chip) (k : Nat) (f : Run → Run) : (c.modRun k f).tier = c.tier := rfl
@[simp] theorem Chip.modRun_lowpri (c : Chip) (k : Nat) (f : Run → Run) : (c.modRun k f).lowpri = c.lowpri := rfl
@[simp] theorem Chip.modRun_regionq (c : Chip) (k : Nat) (f : Run → Run) : (c.modRun k f).regionq = c.regionq := rfl
@[simp] theorem Chip.modRun_folded (c : Chip) (k : Nat) (f : Run → Run) : (c.modRun k f).folded = c.folded := rfl
@[simp] theorem Chip.modRun_combined (c : Chip) (k : Nat) (f : Run → Run) : (c.modRun k f).combined = c.combined := rfl
@[simp] theorem Chip.modRun_interrupts (c : Chip) (k : Nat) (f : Run → Run) : (c.modRun k f).interrupts = c.interrupts := rfl
@[simp] theorem Chip.modRun_energy (c : Chip) (k : Nat) (f : Run → Run) : (c.modRun k f).energy = c.energy := rfl

/-! ## Register writes leave the other fields of a group -/

@[simp] theorem Group.setV_tid (x : Group) (r i : Nat) (v : VReg) : (x.setV r i v).tid = x.tid := rfl
@[simp] theorem Group.setV_index (x : Group) (r i : Nat) (v : VReg) : (x.setV r i v).index = x.index := rfl
@[simp] theorem Group.setV_alloc (x : Group) (r i : Nat) (v : VReg) : (x.setV r i v).alloc = x.alloc := rfl
@[simp] theorem Group.setV_live (x : Group) (r i : Nat) (v : VReg) : (x.setV r i v).live = x.live := rfl
@[simp] theorem Group.setV_s (x : Group) (r i : Nat) (v : VReg) : (x.setV r i v).s = x.s := rfl
@[simp] theorem Group.setV_p (x : Group) (r i : Nat) (v : VReg) : (x.setV r i v).p = x.p := rfl
@[simp] theorem Group.setV_paths (x : Group) (r i : Nat) (v : VReg) : (x.setV r i v).paths = x.paths := rfl
@[simp] theorem Group.setV_emu (x : Group) (r i : Nat) (v : VReg) : (x.setV r i v).emu = x.emu := rfl
@[simp] theorem Group.setV_leases (x : Group) (r i : Nat) (v : VReg) : (x.setV r i v).leases = x.leases := rfl
@[simp] theorem Group.setV_openSet (x : Group) (r i : Nat) (v : VReg) : (x.setV r i v).openSet = x.openSet := rfl
@[simp] theorem Group.setV_batchNo (x : Group) (r i : Nat) (v : VReg) : (x.setV r i v).batchNo = x.batchNo := rfl
@[simp] theorem Group.setV_batches (x : Group) (r i : Nat) (v : VReg) : (x.setV r i v).batches = x.batches := rfl
@[simp] theorem Group.setV_fences (x : Group) (r i : Nat) (v : VReg) : (x.setV r i v).fences = x.fences := rfl
@[simp] theorem Group.setV_fenceSerial (x : Group) (r i : Nat) (v : VReg) : (x.setV r i v).fenceSerial = x.fenceSerial := rfl
@[simp] theorem Group.setV_chk (x : Group) (r i : Nat) (v : VReg) : (x.setV r i v).chk = x.chk := rfl
@[simp] theorem Group.setV_relScope (x : Group) (r i : Nat) (v : VReg) : (x.setV r i v).relScope = x.relScope := rfl
@[simp] theorem Group.setV_acqLoads (x : Group) (r i : Nat) (v : VReg) : (x.setV r i v).acqLoads = x.acqLoads := rfl
@[simp] theorem Group.setV_fenceGate (x : Group) (r i : Nat) (v : VReg) : (x.setV r i v).fenceGate = x.fenceGate := rfl
@[simp] theorem Group.setV_arrivals (x : Group) (r i : Nat) (v : VReg) : (x.setV r i v).arrivals = x.arrivals := rfl
@[simp] theorem Group.setV_hazards (x : Group) (r i : Nat) (v : VReg) : (x.setV r i v).hazards = x.hazards := rfl
@[simp] theorem Group.setV_slow (x : Group) (r i : Nat) (v : VReg) : (x.setV r i v).slow = x.slow := rfl
@[simp] theorem Group.setV_mmaP (x : Group) (r i : Nat) (v : VReg) : (x.setV r i v).mmaP = x.mmaP := rfl

@[simp] theorem Group.setS_tid (x : Group) (r : Nat) (v : Word) : (x.setS r v).tid = x.tid := rfl
@[simp] theorem Group.setS_index (x : Group) (r : Nat) (v : Word) : (x.setS r v).index = x.index := rfl
@[simp] theorem Group.setS_alloc (x : Group) (r : Nat) (v : Word) : (x.setS r v).alloc = x.alloc := rfl
@[simp] theorem Group.setS_live (x : Group) (r : Nat) (v : Word) : (x.setS r v).live = x.live := rfl
@[simp] theorem Group.setS_v (x : Group) (r : Nat) (v : Word) : (x.setS r v).v = x.v := rfl
@[simp] theorem Group.setS_p (x : Group) (r : Nat) (v : Word) : (x.setS r v).p = x.p := rfl
@[simp] theorem Group.setS_paths (x : Group) (r : Nat) (v : Word) : (x.setS r v).paths = x.paths := rfl
@[simp] theorem Group.setS_emu (x : Group) (r : Nat) (v : Word) : (x.setS r v).emu = x.emu := rfl
@[simp] theorem Group.setS_leases (x : Group) (r : Nat) (v : Word) : (x.setS r v).leases = x.leases := rfl
@[simp] theorem Group.setS_openSet (x : Group) (r : Nat) (v : Word) : (x.setS r v).openSet = x.openSet := rfl
@[simp] theorem Group.setS_batchNo (x : Group) (r : Nat) (v : Word) : (x.setS r v).batchNo = x.batchNo := rfl
@[simp] theorem Group.setS_batches (x : Group) (r : Nat) (v : Word) : (x.setS r v).batches = x.batches := rfl
@[simp] theorem Group.setS_fences (x : Group) (r : Nat) (v : Word) : (x.setS r v).fences = x.fences := rfl
@[simp] theorem Group.setS_fenceSerial (x : Group) (r : Nat) (v : Word) : (x.setS r v).fenceSerial = x.fenceSerial := rfl
@[simp] theorem Group.setS_chk (x : Group) (r : Nat) (v : Word) : (x.setS r v).chk = x.chk := rfl
@[simp] theorem Group.setS_relScope (x : Group) (r : Nat) (v : Word) : (x.setS r v).relScope = x.relScope := rfl
@[simp] theorem Group.setS_acqLoads (x : Group) (r : Nat) (v : Word) : (x.setS r v).acqLoads = x.acqLoads := rfl
@[simp] theorem Group.setS_fenceGate (x : Group) (r : Nat) (v : Word) : (x.setS r v).fenceGate = x.fenceGate := rfl
@[simp] theorem Group.setS_arrivals (x : Group) (r : Nat) (v : Word) : (x.setS r v).arrivals = x.arrivals := rfl
@[simp] theorem Group.setS_hazards (x : Group) (r : Nat) (v : Word) : (x.setS r v).hazards = x.hazards := rfl
@[simp] theorem Group.setS_slow (x : Group) (r : Nat) (v : Word) : (x.setS r v).slow = x.slow := rfl
@[simp] theorem Group.setS_mmaP (x : Group) (r : Nat) (v : Word) : (x.setS r v).mmaP = x.mmaP := rfl

@[simp] theorem Group.setP_tid (x : Group) (r : Nat) (v : Word) : (x.setP r v).tid = x.tid := rfl
@[simp] theorem Group.setP_index (x : Group) (r : Nat) (v : Word) : (x.setP r v).index = x.index := rfl
@[simp] theorem Group.setP_alloc (x : Group) (r : Nat) (v : Word) : (x.setP r v).alloc = x.alloc := rfl
@[simp] theorem Group.setP_live (x : Group) (r : Nat) (v : Word) : (x.setP r v).live = x.live := rfl
@[simp] theorem Group.setP_v (x : Group) (r : Nat) (v : Word) : (x.setP r v).v = x.v := rfl
@[simp] theorem Group.setP_s (x : Group) (r : Nat) (v : Word) : (x.setP r v).s = x.s := rfl
@[simp] theorem Group.setP_paths (x : Group) (r : Nat) (v : Word) : (x.setP r v).paths = x.paths := rfl
@[simp] theorem Group.setP_emu (x : Group) (r : Nat) (v : Word) : (x.setP r v).emu = x.emu := rfl
@[simp] theorem Group.setP_leases (x : Group) (r : Nat) (v : Word) : (x.setP r v).leases = x.leases := rfl
@[simp] theorem Group.setP_openSet (x : Group) (r : Nat) (v : Word) : (x.setP r v).openSet = x.openSet := rfl
@[simp] theorem Group.setP_batchNo (x : Group) (r : Nat) (v : Word) : (x.setP r v).batchNo = x.batchNo := rfl
@[simp] theorem Group.setP_batches (x : Group) (r : Nat) (v : Word) : (x.setP r v).batches = x.batches := rfl
@[simp] theorem Group.setP_fences (x : Group) (r : Nat) (v : Word) : (x.setP r v).fences = x.fences := rfl
@[simp] theorem Group.setP_fenceSerial (x : Group) (r : Nat) (v : Word) : (x.setP r v).fenceSerial = x.fenceSerial := rfl
@[simp] theorem Group.setP_chk (x : Group) (r : Nat) (v : Word) : (x.setP r v).chk = x.chk := rfl
@[simp] theorem Group.setP_relScope (x : Group) (r : Nat) (v : Word) : (x.setP r v).relScope = x.relScope := rfl
@[simp] theorem Group.setP_acqLoads (x : Group) (r : Nat) (v : Word) : (x.setP r v).acqLoads = x.acqLoads := rfl
@[simp] theorem Group.setP_fenceGate (x : Group) (r : Nat) (v : Word) : (x.setP r v).fenceGate = x.fenceGate := rfl
@[simp] theorem Group.setP_arrivals (x : Group) (r : Nat) (v : Word) : (x.setP r v).arrivals = x.arrivals := rfl
@[simp] theorem Group.setP_hazards (x : Group) (r : Nat) (v : Word) : (x.setP r v).hazards = x.hazards := rfl
@[simp] theorem Group.setP_slow (x : Group) (r : Nat) (v : Word) : (x.setP r v).slow = x.slow := rfl
@[simp] theorem Group.setP_mmaP (x : Group) (r : Nat) (v : Word) : (x.setP r v).mmaP = x.mmaP := rfl

@[simp] theorem Group.setPair_tid (x : Group) (r : Nat) (v : Addr) : (x.setPair r v).tid = x.tid := rfl
@[simp] theorem Group.setPair_index (x : Group) (r : Nat) (v : Addr) : (x.setPair r v).index = x.index := rfl
@[simp] theorem Group.setPair_alloc (x : Group) (r : Nat) (v : Addr) : (x.setPair r v).alloc = x.alloc := rfl
@[simp] theorem Group.setPair_live (x : Group) (r : Nat) (v : Addr) : (x.setPair r v).live = x.live := rfl
@[simp] theorem Group.setPair_v (x : Group) (r : Nat) (v : Addr) : (x.setPair r v).v = x.v := rfl
@[simp] theorem Group.setPair_p (x : Group) (r : Nat) (v : Addr) : (x.setPair r v).p = x.p := rfl
@[simp] theorem Group.setPair_paths (x : Group) (r : Nat) (v : Addr) : (x.setPair r v).paths = x.paths := rfl
@[simp] theorem Group.setPair_emu (x : Group) (r : Nat) (v : Addr) : (x.setPair r v).emu = x.emu := rfl
@[simp] theorem Group.setPair_leases (x : Group) (r : Nat) (v : Addr) : (x.setPair r v).leases = x.leases := rfl
@[simp] theorem Group.setPair_openSet (x : Group) (r : Nat) (v : Addr) : (x.setPair r v).openSet = x.openSet := rfl
@[simp] theorem Group.setPair_batchNo (x : Group) (r : Nat) (v : Addr) : (x.setPair r v).batchNo = x.batchNo := rfl
@[simp] theorem Group.setPair_batches (x : Group) (r : Nat) (v : Addr) : (x.setPair r v).batches = x.batches := rfl
@[simp] theorem Group.setPair_fences (x : Group) (r : Nat) (v : Addr) : (x.setPair r v).fences = x.fences := rfl
@[simp] theorem Group.setPair_fenceSerial (x : Group) (r : Nat) (v : Addr) : (x.setPair r v).fenceSerial = x.fenceSerial := rfl
@[simp] theorem Group.setPair_chk (x : Group) (r : Nat) (v : Addr) : (x.setPair r v).chk = x.chk := rfl
@[simp] theorem Group.setPair_relScope (x : Group) (r : Nat) (v : Addr) : (x.setPair r v).relScope = x.relScope := rfl
@[simp] theorem Group.setPair_acqLoads (x : Group) (r : Nat) (v : Addr) : (x.setPair r v).acqLoads = x.acqLoads := rfl
@[simp] theorem Group.setPair_fenceGate (x : Group) (r : Nat) (v : Addr) : (x.setPair r v).fenceGate = x.fenceGate := rfl
@[simp] theorem Group.setPair_arrivals (x : Group) (r : Nat) (v : Addr) : (x.setPair r v).arrivals = x.arrivals := rfl
@[simp] theorem Group.setPair_hazards (x : Group) (r : Nat) (v : Addr) : (x.setPair r v).hazards = x.hazards := rfl
@[simp] theorem Group.setPair_slow (x : Group) (r : Nat) (v : Addr) : (x.setPair r v).slow = x.slow := rfl
@[simp] theorem Group.setPair_mmaP (x : Group) (r : Nat) (v : Addr) : (x.setPair r v).mmaP = x.mmaP := rfl

/-! ## The state after a transaction -/

@[simp] theorem State.commit_clk (s : State) (t : Tx) : (s.commit t).clk = s.clk := rfl
@[simp] theorem State.commit_agenda (s : State) (t : Tx) : (s.commit t).agenda = s.agenda := rfl
@[simp] theorem State.commit_actor (s : State) (t : Tx) : (s.commit t).actor = s.actor := rfl
@[simp] theorem State.commit_chip (s : State) (t : Tx) : (s.commit t).chip = t.chip := rfl
@[simp] theorem State.commit_free (s : State) (t : Tx) : (s.commit t).free = t.free := rfl
@[simp] theorem State.commit_mem (s : State) (t : Tx) : (s.commit t).mem = Memory.writeAll s.mem t.log := rfl
@[simp] theorem State.tx_chip (s : State) : s.tx.chip = s.chip := rfl
@[simp] theorem State.tx_base (s : State) : s.tx.base = s.mem := rfl
@[simp] theorem State.tx_log (s : State) : s.tx.log = [] := rfl
@[simp] theorem State.tx_clk (s : State) : s.tx.clk = s.clk := rfl
@[simp] theorem State.tx_actor (s : State) : s.tx.actor = s.actor := rfl
@[simp] theorem State.tx_free (s : State) : s.tx.free = s.free := rfl

/-! ## Table entries of the chip -/

theorem Chip.slot_setSlot (c : Chip) (g i : Nat) (x : Slot) : (c.setSlot g x).slot i = if i = g then x else c.slot i := by
  simp only [Chip.slot, Chip.setSlot, mgetD, mget_mset]
  split <;> rfl

theorem Chip.core_setCore (c : Chip) (g i : Nat) (x : Core) : (c.setCore g x).core i = if i = g then x else c.core i := by
  simp only [Chip.core, Chip.setCore, mgetD, mget_mset]
  split <;> rfl

theorem Chip.core_modCore (c : Chip) (k i : Nat) (f : Core → Core) :
    (c.modCore k f).core i = if i = k then f (c.core k) else c.core i := by
  simp only [Chip.modCore, Chip.core_setCore]

theorem Chip.cluster_modCluster (c : Chip) (k i : Nat) (f : Cluster → Cluster) :
    (c.modCluster k f).cluster i = if i = k then f (c.cluster k) else c.cluster i := by
  simp only [Chip.cluster, Chip.modCluster, mgetD, mget_mset]
  split <;> rfl

theorem Chip.die_modDie (c : Chip) (k i : Nat) (f : Die → Die) :
    (c.modDie k f).die i = if i = k then f (c.die k) else c.die i := by
  simp only [Chip.die, Chip.modDie, mgetD, mget_mset]
  split <;> rfl

theorem Chip.part_modPart (c : Chip) (k i : Nat) (f : Partition → Partition) :
    (c.modPart k f).part i = if i = k then f (c.part k) else c.part i := by
  simp only [Chip.part, Chip.modPart, mgetD, mget_mset]
  split <;> rfl

theorem Chip.ctx_modCtx (c : Chip) (k i : Nat) (f : Context → Context) :
    (c.modCtx k f).ctx i = if i = k then f (c.ctx k) else c.ctx i := by
  simp only [Chip.ctx, Chip.modCtx, mgetD, mget_mset]
  split <;> rfl

@[simp] theorem Chip.slot_setSlot_same (c : Chip) (g : Nat) (x : Slot) : (c.setSlot g x).slot g = x := by
  simp [Chip.slot_setSlot]

@[simp] theorem Chip.group_setGroup (c : Chip) (g : Nat) (x : Group) : (c.setGroup g x).group? g = some x := by
  simp [Chip.group?, Chip.setGroup]

theorem Chip.group_setGroup_other (c : Chip) {g i : Nat} (x : Group) (h : i ≠ g) : (c.setGroup g x).group? i = c.group? i := by
  simp [Chip.group?, Chip.setGroup, Chip.slot_setSlot, h]

theorem Chip.group_modGroup (c : Chip) (g i : Nat) (f : Group → Group) :
    (c.modGroup g f).group? i = if i = g then (c.group? g).map f else c.group? i := by
  unfold Chip.modGroup
  split
  · rename_i x hx
    by_cases h : i = g
    · subst h; simp [hx]
    · simp [h, Chip.group_setGroup_other]
  · rename_i hx
    by_cases h : i = g
    · subst h; simp [hx]
    · simp [h]

@[simp] theorem Chip.group_modGroup_same (c : Chip) (g : Nat) (f : Group → Group) :
    (c.modGroup g f).group? g = (c.group? g).map f := by simp [Chip.group_modGroup]

@[simp] theorem Chip.modGroup_teams (c : Chip) (g : Nat) (f : Group → Group) : (c.modGroup g f).teams = c.teams := by
  unfold Chip.modGroup
  split <;> rfl
@[simp] theorem Chip.modGroup_teamNext (c : Chip) (g : Nat) (f : Group → Group) : (c.modGroup g f).teamNext = c.teamNext := by
  unfold Chip.modGroup
  split <;> rfl
@[simp] theorem Chip.modGroup_runs (c : Chip) (g : Nat) (f : Group → Group) : (c.modGroup g f).runs = c.runs := by
  unfold Chip.modGroup
  split <;> rfl
@[simp] theorem Chip.modGroup_runNext (c : Chip) (g : Nat) (f : Group → Group) : (c.modGroup g f).runNext = c.runNext := by
  unfold Chip.modGroup
  split <;> rfl
@[simp] theorem Chip.modGroup_lidNext (c : Chip) (g : Nat) (f : Group → Group) : (c.modGroup g f).lidNext = c.lidNext := by
  unfold Chip.modGroup
  split <;> rfl
@[simp] theorem Chip.modGroup_saved (c : Chip) (g : Nat) (f : Group → Group) : (c.modGroup g f).saved = c.saved := by
  unfold Chip.modGroup
  split <;> rfl
@[simp] theorem Chip.modGroup_savedNext (c : Chip) (g : Nat) (f : Group → Group) : (c.modGroup g f).savedNext = c.savedNext := by
  unfold Chip.modGroup
  split <;> rfl
@[simp] theorem Chip.modGroup_cores (c : Chip) (g : Nat) (f : Group → Group) : (c.modGroup g f).cores = c.cores := by
  unfold Chip.modGroup
  split <;> rfl
@[simp] theorem Chip.modGroup_clusters (c : Chip) (g : Nat) (f : Group → Group) : (c.modGroup g f).clusters = c.clusters := by
  unfold Chip.modGroup
  split <;> rfl
@[simp] theorem Chip.modGroup_dies (c : Chip) (g : Nat) (f : Group → Group) : (c.modGroup g f).dies = c.dies := by
  unfold Chip.modGroup
  split <;> rfl
@[simp] theorem Chip.modGroup_parts (c : Chip) (g : Nat) (f : Group → Group) : (c.modGroup g f).parts = c.parts := by
  unfold Chip.modGroup
  split <;> rfl
@[simp] theorem Chip.modGroup_ctxs (c : Chip) (g : Nat) (f : Group → Group) : (c.modGroup g f).ctxs = c.ctxs := by
  unfold Chip.modGroup
  split <;> rfl
@[simp] theorem Chip.modGroup_queues (c : Chip) (g : Nat) (f : Group → Group) : (c.modGroup g f).queues = c.queues := by
  unfold Chip.modGroup
  split <;> rfl
@[simp] theorem Chip.modGroup_memq (c : Chip) (g : Nat) (f : Group → Group) : (c.modGroup g f).memq = c.memq := by
  unfold Chip.modGroup
  split <;> rfl
@[simp] theorem Chip.modGroup_seq (c : Chip) (g : Nat) (f : Group → Group) : (c.modGroup g f).seq = c.seq := by
  unfold Chip.modGroup
  split <;> rfl
@[simp] theorem Chip.modGroup_leases (c : Chip) (g : Nat) (f : Group → Group) : (c.modGroup g f).leases = c.leases := by
  unfold Chip.modGroup
  split <;> rfl
@[simp] theorem Chip.modGroup_leaseNext (c : Chip) (g : Nat) (f : Group → Group) : (c.modGroup g f).leaseNext = c.leaseNext := by
  unfold Chip.modGroup
  split <;> rfl
@[simp] theorem Chip.modGroup_leaseSerial (c : Chip) (g : Nat) (f : Group → Group) : (c.modGroup g f).leaseSerial = c.leaseSerial := by
  unfold Chip.modGroup
  split <;> rfl
@[simp] theorem Chip.modGroup_units (c : Chip) (g : Nat) (f : Group → Group) : (c.modGroup g f).units = c.units := by
  unfold Chip.modGroup
  split <;> rfl
@[simp] theorem Chip.modGroup_engops (c : Chip) (g : Nat) (f : Group → Group) : (c.modGroup g f).engops = c.engops := by
  unfold Chip.modGroup
  split <;> rfl
@[simp] theorem Chip.modGroup_engNext (c : Chip) (g : Nat) (f : Group → Group) : (c.modGroup g f).engNext = c.engNext := by
  unfold Chip.modGroup
  split <;> rfl
@[simp] theorem Chip.modGroup_copies (c : Chip) (g : Nat) (f : Group → Group) : (c.modGroup g f).copies = c.copies := by
  unfold Chip.modGroup
  split <;> rfl
@[simp] theorem Chip.modGroup_copyNext (c : Chip) (g : Nat) (f : Group → Group) : (c.modGroup g f).copyNext = c.copyNext := by
  unfold Chip.modGroup
  split <;> rfl
@[simp] theorem Chip.modGroup_marks (c : Chip) (g : Nat) (f : Group → Group) : (c.modGroup g f).marks = c.marks := by
  unfold Chip.modGroup
  split <;> rfl
@[simp] theorem Chip.modGroup_poison (c : Chip) (g : Nat) (f : Group → Group) : (c.modGroup g f).poison = c.poison := by
  unfold Chip.modGroup
  split <;> rfl
@[simp] theorem Chip.modGroup_lost (c : Chip) (g : Nat) (f : Group → Group) : (c.modGroup g f).lost = c.lost := by
  unfold Chip.modGroup
  split <;> rfl
@[simp] theorem Chip.modGroup_recs (c : Chip) (g : Nat) (f : Group → Group) : (c.modGroup g f).recs = c.recs := by
  unfold Chip.modGroup
  split <;> rfl
@[simp] theorem Chip.modGroup_mons (c : Chip) (g : Nat) (f : Group → Group) : (c.modGroup g f).mons = c.mons := by
  unfold Chip.modGroup
  split <;> rfl
@[simp] theorem Chip.modGroup_bars (c : Chip) (g : Nat) (f : Group → Group) : (c.modGroup g f).bars = c.bars := by
  unfold Chip.modGroup
  split <;> rfl
@[simp] theorem Chip.modGroup_barNext (c : Chip) (g : Nat) (f : Group → Group) : (c.modGroup g f).barNext = c.barNext := by
  unfold Chip.modGroup
  split <;> rfl
@[simp] theorem Chip.modGroup_mboxWin (c : Chip) (g : Nat) (f : Group → Group) : (c.modGroup g f).mboxWin = c.mboxWin := by
  unfold Chip.modGroup
  split <;> rfl
@[simp] theorem Chip.modGroup_hypRing (c : Chip) (g : Nat) (f : Group → Group) : (c.modGroup g f).hypRing = c.hypRing := by
  unfold Chip.modGroup
  split <;> rfl
@[simp] theorem Chip.modGroup_cmd (c : Chip) (g : Nat) (f : Group → Group) : (c.modGroup g f).cmd = c.cmd := by
  unfold Chip.modGroup
  split <;> rfl
@[simp] theorem Chip.modGroup_evring (c : Chip) (g : Nat) (f : Group → Group) : (c.modGroup g f).evring = c.evring := by
  unfold Chip.modGroup
  split <;> rfl
@[simp] theorem Chip.modGroup_evDropped (c : Chip) (g : Nat) (f : Group → Group) : (c.modGroup g f).evDropped = c.evDropped := by
  unfold Chip.modGroup
  split <;> rfl
@[simp] theorem Chip.modGroup_mr (c : Chip) (g : Nat) (f : Group → Group) : (c.modGroup g f).mr = c.mr := by
  unfold Chip.modGroup
  split <;> rfl
@[simp] theorem Chip.modGroup_mrLocked (c : Chip) (g : Nat) (f : Group → Group) : (c.modGroup g f).mrLocked = c.mrLocked := by
  unfold Chip.modGroup
  split <;> rfl
@[simp] theorem Chip.modGroup_stage (c : Chip) (g : Nat) (f : Group → Group) : (c.modGroup g f).stage = c.stage := by
  unfold Chip.modGroup
  split <;> rfl
@[simp] theorem Chip.modGroup_resyncSeq (c : Chip) (g : Nat) (f : Group → Group) : (c.modGroup g f).resyncSeq = c.resyncSeq := by
  unfold Chip.modGroup
  split <;> rfl
@[simp] theorem Chip.modGroup_link (c : Chip) (g : Nat) (f : Group → Group) : (c.modGroup g f).link = c.link := by
  unfold Chip.modGroup
  split <;> rfl
@[simp] theorem Chip.modGroup_sensors (c : Chip) (g : Nat) (f : Group → Group) : (c.modGroup g f).sensors = c.sensors := by
  unfold Chip.modGroup
  split <;> rfl
@[simp] theorem Chip.modGroup_spareGroups (c : Chip) (g : Nat) (f : Group → Group) : (c.modGroup g f).spareGroups = c.spareGroups := by
  unfold Chip.modGroup
  split <;> rfl
@[simp] theorem Chip.modGroup_wsets (c : Chip) (g : Nat) (f : Group → Group) : (c.modGroup g f).wsets = c.wsets := by
  unfold Chip.modGroup
  split <;> rfl
@[simp] theorem Chip.modGroup_tier (c : Chip) (g : Nat) (f : Group → Group) : (c.modGroup g f).tier = c.tier := by
  unfold Chip.modGroup
  split <;> rfl
@[simp] theorem Chip.modGroup_lowpri (c : Chip) (g : Nat) (f : Group → Group) : (c.modGroup g f).lowpri = c.lowpri := by
  unfold Chip.modGroup
  split <;> rfl
@[simp] theorem Chip.modGroup_regionq (c : Chip) (g : Nat) (f : Group → Group) : (c.modGroup g f).regionq = c.regionq := by
  unfold Chip.modGroup
  split <;> rfl
@[simp] theorem Chip.modGroup_folded (c : Chip) (g : Nat) (f : Group → Group) : (c.modGroup g f).folded = c.folded := by
  unfold Chip.modGroup
  split <;> rfl
@[simp] theorem Chip.modGroup_combined (c : Chip) (g : Nat) (f : Group → Group) : (c.modGroup g f).combined = c.combined := by
  unfold Chip.modGroup
  split <;> rfl
@[simp] theorem Chip.modGroup_interrupts (c : Chip) (g : Nat) (f : Group → Group) : (c.modGroup g f).interrupts = c.interrupts := by
  unfold Chip.modGroup
  split <;> rfl
@[simp] theorem Chip.modGroup_energy (c : Chip) (g : Nat) (f : Group → Group) : (c.modGroup g f).energy = c.energy := by
  unfold Chip.modGroup
  split <;> rfl
@[simp] theorem Chip.modPath_teams (c : Chip) (g p : Nat) (f : Path → Path) : (c.modPath g p f).teams = c.teams :=
  Chip.modGroup_teams c g _
@[simp] theorem Chip.modPath_teamNext (c : Chip) (g p : Nat) (f : Path → Path) : (c.modPath g p f).teamNext = c.teamNext :=
  Chip.modGroup_teamNext c g _
@[simp] theorem Chip.modPath_runs (c : Chip) (g p : Nat) (f : Path → Path) : (c.modPath g p f).runs = c.runs :=
  Chip.modGroup_runs c g _
@[simp] theorem Chip.modPath_runNext (c : Chip) (g p : Nat) (f : Path → Path) : (c.modPath g p f).runNext = c.runNext :=
  Chip.modGroup_runNext c g _
@[simp] theorem Chip.modPath_lidNext (c : Chip) (g p : Nat) (f : Path → Path) : (c.modPath g p f).lidNext = c.lidNext :=
  Chip.modGroup_lidNext c g _
@[simp] theorem Chip.modPath_saved (c : Chip) (g p : Nat) (f : Path → Path) : (c.modPath g p f).saved = c.saved :=
  Chip.modGroup_saved c g _
@[simp] theorem Chip.modPath_savedNext (c : Chip) (g p : Nat) (f : Path → Path) : (c.modPath g p f).savedNext = c.savedNext :=
  Chip.modGroup_savedNext c g _
@[simp] theorem Chip.modPath_cores (c : Chip) (g p : Nat) (f : Path → Path) : (c.modPath g p f).cores = c.cores :=
  Chip.modGroup_cores c g _
@[simp] theorem Chip.modPath_clusters (c : Chip) (g p : Nat) (f : Path → Path) : (c.modPath g p f).clusters = c.clusters :=
  Chip.modGroup_clusters c g _
@[simp] theorem Chip.modPath_dies (c : Chip) (g p : Nat) (f : Path → Path) : (c.modPath g p f).dies = c.dies :=
  Chip.modGroup_dies c g _
@[simp] theorem Chip.modPath_parts (c : Chip) (g p : Nat) (f : Path → Path) : (c.modPath g p f).parts = c.parts :=
  Chip.modGroup_parts c g _
@[simp] theorem Chip.modPath_ctxs (c : Chip) (g p : Nat) (f : Path → Path) : (c.modPath g p f).ctxs = c.ctxs :=
  Chip.modGroup_ctxs c g _
@[simp] theorem Chip.modPath_queues (c : Chip) (g p : Nat) (f : Path → Path) : (c.modPath g p f).queues = c.queues :=
  Chip.modGroup_queues c g _
@[simp] theorem Chip.modPath_memq (c : Chip) (g p : Nat) (f : Path → Path) : (c.modPath g p f).memq = c.memq :=
  Chip.modGroup_memq c g _
@[simp] theorem Chip.modPath_seq (c : Chip) (g p : Nat) (f : Path → Path) : (c.modPath g p f).seq = c.seq :=
  Chip.modGroup_seq c g _
@[simp] theorem Chip.modPath_leases (c : Chip) (g p : Nat) (f : Path → Path) : (c.modPath g p f).leases = c.leases :=
  Chip.modGroup_leases c g _
@[simp] theorem Chip.modPath_leaseNext (c : Chip) (g p : Nat) (f : Path → Path) : (c.modPath g p f).leaseNext = c.leaseNext :=
  Chip.modGroup_leaseNext c g _
@[simp] theorem Chip.modPath_leaseSerial (c : Chip) (g p : Nat) (f : Path → Path) : (c.modPath g p f).leaseSerial = c.leaseSerial :=
  Chip.modGroup_leaseSerial c g _
@[simp] theorem Chip.modPath_units (c : Chip) (g p : Nat) (f : Path → Path) : (c.modPath g p f).units = c.units :=
  Chip.modGroup_units c g _
@[simp] theorem Chip.modPath_engops (c : Chip) (g p : Nat) (f : Path → Path) : (c.modPath g p f).engops = c.engops :=
  Chip.modGroup_engops c g _
@[simp] theorem Chip.modPath_engNext (c : Chip) (g p : Nat) (f : Path → Path) : (c.modPath g p f).engNext = c.engNext :=
  Chip.modGroup_engNext c g _
@[simp] theorem Chip.modPath_copies (c : Chip) (g p : Nat) (f : Path → Path) : (c.modPath g p f).copies = c.copies :=
  Chip.modGroup_copies c g _
@[simp] theorem Chip.modPath_copyNext (c : Chip) (g p : Nat) (f : Path → Path) : (c.modPath g p f).copyNext = c.copyNext :=
  Chip.modGroup_copyNext c g _
@[simp] theorem Chip.modPath_marks (c : Chip) (g p : Nat) (f : Path → Path) : (c.modPath g p f).marks = c.marks :=
  Chip.modGroup_marks c g _
@[simp] theorem Chip.modPath_poison (c : Chip) (g p : Nat) (f : Path → Path) : (c.modPath g p f).poison = c.poison :=
  Chip.modGroup_poison c g _
@[simp] theorem Chip.modPath_lost (c : Chip) (g p : Nat) (f : Path → Path) : (c.modPath g p f).lost = c.lost :=
  Chip.modGroup_lost c g _
@[simp] theorem Chip.modPath_recs (c : Chip) (g p : Nat) (f : Path → Path) : (c.modPath g p f).recs = c.recs :=
  Chip.modGroup_recs c g _
@[simp] theorem Chip.modPath_mons (c : Chip) (g p : Nat) (f : Path → Path) : (c.modPath g p f).mons = c.mons :=
  Chip.modGroup_mons c g _
@[simp] theorem Chip.modPath_bars (c : Chip) (g p : Nat) (f : Path → Path) : (c.modPath g p f).bars = c.bars :=
  Chip.modGroup_bars c g _
@[simp] theorem Chip.modPath_barNext (c : Chip) (g p : Nat) (f : Path → Path) : (c.modPath g p f).barNext = c.barNext :=
  Chip.modGroup_barNext c g _
@[simp] theorem Chip.modPath_mboxWin (c : Chip) (g p : Nat) (f : Path → Path) : (c.modPath g p f).mboxWin = c.mboxWin :=
  Chip.modGroup_mboxWin c g _
@[simp] theorem Chip.modPath_hypRing (c : Chip) (g p : Nat) (f : Path → Path) : (c.modPath g p f).hypRing = c.hypRing :=
  Chip.modGroup_hypRing c g _
@[simp] theorem Chip.modPath_cmd (c : Chip) (g p : Nat) (f : Path → Path) : (c.modPath g p f).cmd = c.cmd :=
  Chip.modGroup_cmd c g _
@[simp] theorem Chip.modPath_evring (c : Chip) (g p : Nat) (f : Path → Path) : (c.modPath g p f).evring = c.evring :=
  Chip.modGroup_evring c g _
@[simp] theorem Chip.modPath_evDropped (c : Chip) (g p : Nat) (f : Path → Path) : (c.modPath g p f).evDropped = c.evDropped :=
  Chip.modGroup_evDropped c g _
@[simp] theorem Chip.modPath_mr (c : Chip) (g p : Nat) (f : Path → Path) : (c.modPath g p f).mr = c.mr :=
  Chip.modGroup_mr c g _
@[simp] theorem Chip.modPath_mrLocked (c : Chip) (g p : Nat) (f : Path → Path) : (c.modPath g p f).mrLocked = c.mrLocked :=
  Chip.modGroup_mrLocked c g _
@[simp] theorem Chip.modPath_stage (c : Chip) (g p : Nat) (f : Path → Path) : (c.modPath g p f).stage = c.stage :=
  Chip.modGroup_stage c g _
@[simp] theorem Chip.modPath_resyncSeq (c : Chip) (g p : Nat) (f : Path → Path) : (c.modPath g p f).resyncSeq = c.resyncSeq :=
  Chip.modGroup_resyncSeq c g _
@[simp] theorem Chip.modPath_link (c : Chip) (g p : Nat) (f : Path → Path) : (c.modPath g p f).link = c.link :=
  Chip.modGroup_link c g _
@[simp] theorem Chip.modPath_sensors (c : Chip) (g p : Nat) (f : Path → Path) : (c.modPath g p f).sensors = c.sensors :=
  Chip.modGroup_sensors c g _
@[simp] theorem Chip.modPath_spareGroups (c : Chip) (g p : Nat) (f : Path → Path) : (c.modPath g p f).spareGroups = c.spareGroups :=
  Chip.modGroup_spareGroups c g _
@[simp] theorem Chip.modPath_wsets (c : Chip) (g p : Nat) (f : Path → Path) : (c.modPath g p f).wsets = c.wsets :=
  Chip.modGroup_wsets c g _
@[simp] theorem Chip.modPath_tier (c : Chip) (g p : Nat) (f : Path → Path) : (c.modPath g p f).tier = c.tier :=
  Chip.modGroup_tier c g _
@[simp] theorem Chip.modPath_lowpri (c : Chip) (g p : Nat) (f : Path → Path) : (c.modPath g p f).lowpri = c.lowpri :=
  Chip.modGroup_lowpri c g _
@[simp] theorem Chip.modPath_regionq (c : Chip) (g p : Nat) (f : Path → Path) : (c.modPath g p f).regionq = c.regionq :=
  Chip.modGroup_regionq c g _
@[simp] theorem Chip.modPath_folded (c : Chip) (g p : Nat) (f : Path → Path) : (c.modPath g p f).folded = c.folded :=
  Chip.modGroup_folded c g _
@[simp] theorem Chip.modPath_combined (c : Chip) (g p : Nat) (f : Path → Path) : (c.modPath g p f).combined = c.combined :=
  Chip.modGroup_combined c g _
@[simp] theorem Chip.modPath_interrupts (c : Chip) (g p : Nat) (f : Path → Path) : (c.modPath g p f).interrupts = c.interrupts :=
  Chip.modGroup_interrupts c g _
@[simp] theorem Chip.modPath_energy (c : Chip) (g p : Nat) (f : Path → Path) : (c.modPath g p f).energy = c.energy :=
  Chip.modGroup_energy c g _

theorem Chip.agent_modGroup (c : Chip) (g i : Nat) (f : Group → Group) : (c.modGroup g f).agent i = c.agent i := by
  unfold Chip.modGroup
  split
  · by_cases h : i = g
    · subst h; simp [Chip.agent, Chip.setGroup]
    · simp [Chip.agent, Chip.setGroup, Chip.slot_setSlot, h]
  · rfl

@[simp] theorem Chip.setCore_group (c : Chip) (k : Nat) (f : Core) (g : Nat) : (c.setCore k f).group? g = c.group? g := rfl
@[simp] theorem Chip.modCore_group (c : Chip) (k : Nat) (f : Core → Core) (g : Nat) : (c.modCore k f).group? g = c.group? g := rfl
@[simp] theorem Chip.modCluster_group (c : Chip) (k : Nat) (f : Cluster → Cluster) (g : Nat) : (c.modCluster k f).group? g = c.group? g := rfl
@[simp] theorem Chip.modDie_group (c : Chip) (k : Nat) (f : Die → Die) (g : Nat) : (c.modDie k f).group? g = c.group? g := rfl
@[simp] theorem Chip.modPart_group (c : Chip) (k : Nat) (f : Partition → Partition) (g : Nat) : (c.modPart k f).group? g = c.group? g := rfl
@[simp] theorem Chip.modCtx_group (c : Chip) (k : Nat) (f : Context → Context) (g : Nat) : (c.modCtx k f).group? g = c.group? g := rfl
@[simp] theorem Chip.modTeam_group (c : Chip) (k : Nat) (f : Team → Team) (g : Nat) : (c.modTeam k f).group? g = c.group? g := rfl
@[simp] theorem Chip.modRun_group (c : Chip) (k : Nat) (f : Run → Run) (g : Nat) : (c.modRun k f).group? g = c.group? g := rfl

/-! ## Registers of a group -/

theorem Group.sreg_setS (x : Group) (r i : Nat) (v : Word) : (x.setS r v).sreg i = if i = r then v else x.sreg i :=
  mgetD_mput 0 x.s r i v

theorem Group.preg_setP (x : Group) (r i : Nat) (v : Word) : (x.setP r v).preg i = if i = r then v else x.preg i :=
  mgetD_mput 0 x.p r i v

theorem Group.vreg_setV (x : Group) (r l : Nat) (v : VReg) (r' l' : Nat) (hl : l < 32) (hl' : l' < 32) :
    (x.setV r l v).vreg r' l' = if r' = r ∧ l' = l then v else x.vreg r' l' := by
  have h : (r' * 32 + l' = r * 32 + l) ↔ (r' = r ∧ l' = l) := by omega
  show mgetD (mput VReg.zero x.v (r * 32 + l) v) VReg.zero (r' * 32 + l') = _
  rw [mgetD_mput]
  by_cases hc : r' = r ∧ l' = l
  · rw [if_pos hc, if_pos (h.mpr hc)]
  · rw [if_neg hc, if_neg fun e => hc (h.mp e)]
    rfl

@[simp] theorem Group.vreg_setS (x : Group) (r : Nat) (v : Word) (r' l : Nat) : (x.setS r v).vreg r' l = x.vreg r' l := rfl
@[simp] theorem Group.preg_setS (x : Group) (r : Nat) (v : Word) (i : Nat) : (x.setS r v).preg i = x.preg i := rfl
@[simp] theorem Group.sreg_setV (x : Group) (r l : Nat) (v : VReg) (i : Nat) : (x.setV r l v).sreg i = x.sreg i := rfl
@[simp] theorem Group.preg_setV (x : Group) (r l : Nat) (v : VReg) (i : Nat) : (x.setV r l v).preg i = x.preg i := rfl
@[simp] theorem Group.vreg_setP (x : Group) (r : Nat) (v : Word) (r' l : Nat) : (x.setP r v).vreg r' l = x.vreg r' l := rfl
@[simp] theorem Group.sreg_setP (x : Group) (r : Nat) (v : Word) (i : Nat) : (x.setP r v).sreg i = x.sreg i := rfl

end Sys2Proof.Machine
end

