-- ==== Sys2Proof/Laws/Act.lean ====
section
/-! SUPPORT. Laws of transactions: what each step of one gives, and the state that a meaning answers from it. -/

namespace Sys2Proof.Machine

variable {α β : Type}

/-! ## Steps of a transaction -/

@[simp] theorem bind_run (a : Act α) (f : α → Act β) (t : Tx) :
    (a >>= f) t = match a t with
      | .ok (x, u) => f x u
      | .error e => .error e := by
  show (a t >>= fun p => f p.1 p.2) = _
  rcases a t with _ | ⟨x, u⟩ <;> rfl

theorem bind_next {a : Act α} {f : α → Act β} {t u : Tx} {x : α} (h : a t = .ok (x, u)) : (a >>= f) t = f x u := by
  simp [h]

theorem bind_stop {a : Act α} {f : α → Act β} {t : Tx} {e : Stop} (h : a t = .error e) : (a >>= f) t = .error e := by
  simp [h]

@[simp] theorem pure_run (x : α) (t : Tx) : (pure x : Act α) t = .ok (x, t) := rfl
@[simp] theorem get_run (t : Tx) : (get : Act Tx) t = .ok (t, t) := rfl
@[simp] theorem set_run (u t : Tx) : (set u : Act PUnit) t = .ok ((), u) := rfl
@[simp] theorem getChip_run (t : Tx) : getChip t = .ok (t.chip, t) := rfl
@[simp] theorem clock_run (t : Tx) : clock t = .ok (t.clk, t) := rfl
@[simp] theorem modChip_run (f : Chip → Chip) (t : Tx) : modChip f t = .ok ((), { t with chip := f t.chip }) := rfl
@[simp] theorem stop_run (e : Stop) (t : Tx) : (stop e : Act α) t = .error e := rfl
@[simp] theorem notReady_run (t : Tx) : (notReady : Act α) t = .error .notReady := rfl
@[simp] theorem trap_run (c d : Nat) (a : Addr) (l : Nat) (t : Tx) :
    (trap c d a l : Act α) t = .error (.trap ⟨c, d, a, l, 0, [], false, 0, 0⟩) := rfl
@[simp] theorem freeValue_run (t : Tx) : freeValue t = .ok (Config.freeWord t.free, { t with free := t.free + 1 }) := rfl
@[simp] theorem modSlot_run (g : Nat) (f : Slot → Slot) (t : Tx) :
    modSlot g f t = .ok ((), { t with chip := t.chip.setSlot g (f (t.chip.slot g)) }) := rfl
@[simp] theorem modGroup_run (g : Nat) (f : Group → Group) (t : Tx) :
    modGroup g f t = .ok ((), { t with chip := t.chip.modGroup g f }) := rfl
@[simp] theorem modPath_run (g p : Nat) (f : Path → Path) (t : Tx) :
    modPath g p f t = .ok ((), { t with chip := t.chip.modPath g p f }) := rfl
@[simp] theorem modTeam_run (i : Nat) (f : Team → Team) (t : Tx) :
    modTeam i f t = .ok ((), { t with chip := t.chip.modTeam i f }) := rfl
@[simp] theorem modRun_run (i : Nat) (f : Run → Run) (t : Tx) :
    modRun i f t = .ok ((), { t with chip := t.chip.modRun i f }) := rfl
@[simp] theorem modCore_run (i : Nat) (f : Core → Core) (t : Tx) :
    modCore i f t = .ok ((), { t with chip := t.chip.modCore i f }) := rfl
@[simp] theorem modCluster_run (i : Nat) (f : Cluster → Cluster) (t : Tx) :
    modCluster i f t = .ok ((), { t with chip := t.chip.modCluster i f }) := rfl
@[simp] theorem modCtx_run (i : Nat) (f : Context → Context) (t : Tx) :
    modCtx i f t = .ok ((), { t with chip := t.chip.modCtx i f }) := rfl
@[simp] theorem modPart_run (i : Nat) (f : Partition → Partition) (t : Tx) :
    modPart i f t = .ok ((), { t with chip := t.chip.modPart i f }) := rfl
@[simp] theorem modDie_run (i : Nat) (f : Die → Die) (t : Tx) :
    modDie i f t = .ok ((), { t with chip := t.chip.modDie i f }) := rfl
@[simp] theorem writeBytes_run (a : Nat) (bs : List Byte) (t : Tx) :
    writeBytes a bs t = .ok ((), { t with log := (bs.zipIdx.map fun p => (a + p.2, p.1)).reverse ++ t.log }) := rfl
@[simp] theorem readBytes_run (a n : Nat) (t : Tx) :
    readBytes a n t = .ok ((List.range n).map fun i => t.byte (a + i), t) := rfl

theorem ite_run (c : Prop) [Decidable c] (a b : Act α) (t : Tx) : (if c then a else b) t = if c then a t else b t := by
  split <;> rfl

@[simp] theorem whenSome_none (f : α → Act Unit) : whenSome none f = pure () := rfl
@[simp] theorem whenSome_some (x : α) (f : α → Act Unit) : whenSome (some x) f = f x := rfl
@[simp] theorem each_nil (f : α → Act Unit) : each [] f = pure () := rfl
@[simp] theorem each_cons (x : α) (r : List α) (f : α → Act Unit) : each (x :: r) f = (f x >>= fun _ => each r f) := rfl
@[simp] theorem mapAct_nil (f : α → Act β) : mapAct [] f = pure [] := rfl
@[simp] theorem someOr_some (x : α) : someOr (some x) = pure x := rfl
@[simp] theorem someOr_none : (someOr none : Act α) = notReady := rfl
@[simp] theorem enabled_true : enabled true = pure () := rfl
@[simp] theorem enabled_false : enabled false = notReady := rfl

/-- What the choice of a second transaction gives. -/
theorem orElse_run (a b : Act Unit) (t : Tx) :
    orElse a b t = match a t with
      | .error .notReady => b t
      | r => r := rfl

theorem here_run {t : Tx} {h : Here} (hh : t.chip.here? t.actor.1 t.actor.2 = some h) : here t = .ok (h, t) := by
  unfold here
  simp only [bind_run, get_run, hh]
  rfl

/-! ## Meanings -/

theorem runZha_next {len : Nat} {body : Act Unit} {s : State} {t : Tx} (h : body s.tx = .ok ((), t)) :
    runZha len body s = .next (s.commit t) := by simp [runZha, h]

theorem runZha_waits {len : Nat} {body : Act Unit} {s : State} (h : body s.tx = .error .notReady) :
    runZha len body s = .next s := by simp [runZha, h]

theorem runZha_traps {len : Nat} {body : Act Unit} {s : State} {i : TrapInfo} {t : Tx} (h : body s.tx = .error (.trap i))
    (h' : takeTrap s.actor.1 s.actor.2 i len none none [] true s.tx = .ok ((), t)) :
    runZha len body s = .next (s.commit t) := by simp [runZha, h, h']

theorem runEvent_next {body : Act Unit} {s : State} {t : Tx} (h : body s.tx = .ok ((), t)) :
    runEvent body s = .next (s.commit t) := by simp [runEvent, h]

theorem runEvent_waits {body : Act Unit} {s : State} (h : body s.tx = .error .notReady) :
    runEvent body s = .next s := by simp [runEvent, h]

/-! ## What a meaning can do to memory and the clock -/

/-- What the commit of any transaction keeps. -/
theorem State.commit_wf {s : State} (h : Memory.wf s.mem) (t : Tx) : Memory.wf (s.commit t).mem := Memory.writeAll_wf h t.log

theorem runZha_keeps {len : Nat} {body : Act Unit} {s t : State} (h : runZha len body s = .next t) :
    t = s ∨ ∃ u, t = s.commit u := by
  unfold runZha at h
  split at h
  · simp at h; exact .inr ⟨_, h.symm⟩
  · simp at h
  · simp at h; exact .inl h.symm
  · split at h
    · simp at h; exact .inr ⟨_, h.symm⟩
    · simp at h
    · simp at h; exact .inl h.symm

theorem runEvent_keeps {body : Act Unit} {s t : State} (h : runEvent body s = .next t) : t = s ∨ ∃ u, t = s.commit u := by
  unfold runEvent at h
  split at h
  · simp at h; exact .inr ⟨_, h.symm⟩
  · simp at h
  · simp at h; exact .inl h.symm

theorem runZha_wf {len : Nat} {body : Act Unit} {s t : State} (h : runZha len body s = .next t) (hw : Memory.wf s.mem) :
    Memory.wf t.mem := by
  rcases runZha_keeps h with h | ⟨u, h⟩
  · exact h ▸ hw
  · exact h ▸ State.commit_wf hw u

theorem runEvent_wf {body : Act Unit} {s t : State} (h : runEvent body s = .next t) (hw : Memory.wf s.mem) :
    Memory.wf t.mem := by
  rcases runEvent_keeps h with h | ⟨u, h⟩
  · exact h ▸ hw
  · exact h ▸ State.commit_wf hw u

end Sys2Proof.Machine
end

