-- ==== Sys2Proof/Laws/Lane.lean ====
section
/-! SUPPORT. Laws of issue and of results in registers: what an instruction that issues leaves in its path, its team and its
group, said once for vector, scalar and predicate results. -/

namespace Sys2Proof.Machine

/-! ## The acting path -/

theorem Chip.here_eq {c : Chip} {g p : Nat} {h : Here} (ha : c.here? g p = some h) :
    h.g = g ∧ h.p = p ∧ c.group? g = some h.grp ∧ mget? h.grp.paths p = some h.path ∧ h.tid = h.grp.tid ∧
      mget? c.teams h.tid = some h.team ∧ h.runId = h.team.run ∧ mget? c.runs h.runId = some h.run ∧ h.slot = c.slot g := by
  unfold Chip.here? at ha
  simp only [Option.bind_eq_bind, Option.bind_eq_some_iff] at ha
  obtain ⟨grp, hg, path, hp, team, ht, run, hr, he⟩ := ha
  simp only [Option.pure_def, Option.some.injEq] at he
  subst he
  exact ⟨rfl, rfl, hg, hp, rfl, ht, rfl, hr, rfl⟩

theorem State.acts_eq {s : State} {h : Here} (ha : s.acts h) :
    s.chip.group? h.g = some h.grp ∧ mget? h.grp.paths h.p = some h.path ∧ mget? s.chip.teams h.tid = some h.team ∧
      mget? s.chip.runs h.runId = some h.run := by
  obtain ⟨h1, h2, h3, h4, _, h6, _, h8, _⟩ := Chip.here_eq ha
  exact ⟨h1 ▸ h3, h2 ▸ h4, h6, h8⟩

/-! ## Issue -/

theorem advance_run (h : Here) (len stall : Nat) (t : Tx) :
    advance h len stall t = .ok ((), { t with chip := t.chip.retire h len stall t.clk }) := rfl

/-- An instruction that may issue runs its body on the path as it stands, on the chip after retirement. -/
theorem issue_next {s : State} {h : Here} {u : Uses} (hi : s.mayIssue h u) (len stall : Nat) (body : Here → Act Unit) :
    issue len stall u body s.tx = body h { s.tx with chip := s.chip.retire h len stall s.clk } := by
  obtain ⟨ha, hv, hp, hs, hz⟩ := hi
  have hh : here s.tx = .ok (h, s.tx) := here_run ha
  have hv' : ((u.vs ++ u.vd).any fun r => decide (r ≥ h.grp.alloc)) = false := by
    rw [List.any_eq_false]
    intro r hr
    simpa using hv r hr
  have hview : h.grp.view h.mask s.clk = h.grp := by simp [Group.view, hz]
  simp only [issue, bind_run, hh, getChip_run, clock_run, State.tx_chip, State.tx_clk, hv', hp, hs, hz, List.any_nil, Bool.and_false,
    Bool.or_self, Bool.false_eq_true, if_false, advance_run, hview]

/-- A vector register at or beyond the allocation stops the issue with BOUND 2 (R18). -/
theorem issue_bound {s : State} {h : Here} {u : Uses} (ha : s.acts h) (hv : ∃ r ∈ u.vs ++ u.vd, h.grp.alloc ≤ r)
    (len stall : Nat) (body : Here → Act Unit) :
    issue len stall u body s.tx = .error (.trap ⟨causeBound, 2, 0, 0, 0, [], false, 0, 0⟩) := by
  obtain ⟨r, hr, hle⟩ := hv
  have hh : here s.tx = .ok (h, s.tx) := here_run ha
  have hv' : ((u.vs ++ u.vd).any fun r => decide (r ≥ h.grp.alloc)) = true := by
    rw [List.any_eq_true]
    exact ⟨r, hr, by simpa using hle⟩
  simp only [issue, bind_run, hh, getChip_run, clock_run, hv', if_true, trap_run]

/-! ## The chip after retirement -/

/-- The acting group after an instruction has retired. -/
def Here.groupPast (h : Here) (len stall now : Nat) : Group :=
  { h.grp with
    hazards := ageHazards h.mask (1 + stall) now h.grp.hazards
    paths := mmod h.grp.paths h.p fun x => { x with pc := x.pc + BitVec.ofNat 64 len, readyAt := now + 1 + stall } }

theorem Chip.retire_group {c : Chip} {h : Here} (hg : c.group? h.g = some h.grp) (len stall now : Nat) :
    (c.retire h len stall now).group? h.g = some (h.groupPast len stall now) := by
  simp only [Chip.retire, Chip.modPath, Chip.group_modGroup_same, Chip.modTeam_group, hg]
  rfl

theorem Chip.retire_teams (c : Chip) (h : Here) (len stall now : Nat) :
    (c.retire h len stall now).teams = mmod c.teams h.tid fun t => { t with ret := t.ret + 1 } := by
  simp [Chip.retire, Chip.modTeam]

theorem Chip.slot_modGroup_other (c : Chip) {g i : Nat} (f : Group → Group) (hi : i ≠ g) : (c.modGroup g f).slot i = c.slot i := by
  unfold Chip.modGroup
  split
  · simp [Chip.setGroup, Chip.slot_setSlot, hi]
  · rfl

theorem Chip.retire_slot_other (c : Chip) (h : Here) (len stall now : Nat) {i : Nat} (hi : i ≠ h.g) :
    (c.retire h len stall now).slot i = c.slot i := by
  simp only [Chip.retire, Chip.modPath, Chip.slot_modGroup_other _ _ hi]
  rfl

theorem Chip.modGroup_rest (c : Chip) (g : Nat) (f : Group → Group) (S : Map Slot) (T : Map Team) :
    { c.modGroup g f with slots := S, teams := T } = { c with slots := S, teams := T } := by
  unfold Chip.modGroup
  split <;> rfl

theorem Chip.retire_rest (c : Chip) (h : Here) (len stall now : Nat) (S : Map Slot) (T : Map Team) :
    { c.retire h len stall now with slots := S, teams := T } = { c with slots := S, teams := T } := by
  simp only [Chip.retire, Chip.modPath, Chip.modGroup_rest]
  rfl

/-! ## The end of an instruction that changes only its group and its team -/

theorem State.ended_group {s : State} {h : Here} (ha : s.acts h) (len stall : Nat) (ft : Team → Team) (fg : Group → Group) :
    (s.ended h len stall ft fg).chip.group? h.g = some (fg (h.groupPast len stall s.clk)) := by
  have hg := Chip.retire_group (State.acts_eq ha).1 len stall s.clk
  simp [State.ended, hg]

theorem State.ended_path {s : State} {h : Here} (ha : s.acts h) (len stall : Nat) (ft : Team → Team) (fg : Group → Group)
    (hp : ∀ x, (fg x).paths = x.paths) :
    (s.ended h len stall ft fg).chip.path? h.g h.p = some (h.past len stall s.clk) := by
  rw [Chip.path?, State.ended_group ha]
  simp [hp, Here.groupPast, (State.acts_eq ha).2.1, Here.past]

theorem State.ended_team {s : State} {h : Here} (ha : s.acts h) (len stall : Nat) (ft : Team → Team) (fg : Group → Group) :
    mget? (s.ended h len stall ft fg).chip.teams h.tid = some (ft { h.team with ret := h.team.ret + 1 }) := by
  simp [State.ended, Chip.modTeam, Chip.retire_teams, (State.acts_eq ha).2.2.1]

theorem State.ended_keeps {s : State} {h : Here} (ha : s.acts h) (len stall : Nat) (ft : Team → Team) (fg : Group → Group)
    {vd sd pd : List Nat} (hp : ∀ x, (fg x).paths = x.paths)
    (hv : ∀ x r l, l < 32 → r ∉ vd → (fg x).vreg r l = x.vreg r l) (hs : ∀ x r, r ∉ sd → (fg x).sreg r = x.sreg r)
    (hq : ∀ x r, r ∉ pd → (fg x).preg r = x.preg r) :
    s.keepsBut (s.ended h len stall ft fg) h vd sd pd := by
  obtain ⟨hg, hpath, -, -⟩ := State.acts_eq ha
  have hE := State.ended_group ha len stall ft fg
  refine ⟨rfl, rfl, rfl, rfl, rfl, ?_, ?_, ?_, ?_, ?_, ?_, ?_⟩
  · simp only [State.ended, State.commit_chip, Chip.modGroup_rest]
    exact Chip.retire_rest s.chip h len stall s.clk _ _
  · intro g hne
    simp only [State.ended, State.commit_chip, Chip.slot_modGroup_other _ _ hne]
    exact Chip.retire_slot_other s.chip h len stall s.clk hne
  · intro i hne
    simp [State.ended, Chip.modTeam, Chip.retire_teams, mget_mmod_other _ _ hne]
  · intro q hne
    rw [Chip.path?, hE, Chip.path?, hg]
    simp [hp, Here.groupPast, mget_mmod_other _ _ hne]
  · intro r l hl hr
    simp only [State.vreg, hE, hg, Option.map_some, Option.getD_some, hv _ r l hl hr]
    rfl
  · intro r hr
    simp only [State.sreg, hE, hg, Option.map_some, Option.getD_some, hs _ r hr]
    rfl
  · intro r hr
    simp only [State.preg, hE, hg, Option.map_some, Option.getD_some, hq _ r hr]
    rfl

/-! ## Lanes of a mask -/

@[simp] theorem mem_lanesOf (m : BitVec 32) (i : Nat) : i ∈ lanesOf m ↔ i < 32 ∧ laneBit m i = true := by
  simp [lanesOf]

/-! ## Results in vector registers -/

theorem Group.setV_fold_vreg (r : Nat) (f : Nat → VReg) (ls : List Nat) (hls : ∀ i ∈ ls, i < 32) (x : Group) (r' l : Nat) (hl : l < 32) :
    (ls.foldl (fun x i => x.setV r i (f i)) x).vreg r' l = if r' = r ∧ l ∈ ls then f l else x.vreg r' l := by
  induction ls generalizing x with
  | nil => simp
  | cons i rest ih =>
    have hi : i < 32 := hls i List.mem_cons_self
    rw [List.foldl_cons, ih (fun j hj => hls j (List.mem_cons_of_mem _ hj)), Group.vreg_setV _ _ _ _ _ _ hi hl]
    by_cases hr : r' = r
    · by_cases hm : l ∈ rest
      · simp [hr, hm]
      · by_cases he : l = i <;> simp [hr, hm, he]
    · simp [hr]

theorem Group.setV_fold_keeps (r : Nat) (f : Nat → VReg) (ls : List Nat) (x : Group) :
    (ls.foldl (fun x i => x.setV r i (f i)) x).s = x.s ∧ (ls.foldl (fun x i => x.setV r i (f i)) x).p = x.p ∧
      (ls.foldl (fun x i => x.setV r i (f i)) x).paths = x.paths ∧ (ls.foldl (fun x i => x.setV r i (f i)) x).hazards = x.hazards := by
  induction ls generalizing x with
  | nil => simp
  | cons i rest ih => simpa using ih (x.setV r i (f i))

/-- A group without results still to be read loses nothing to a later write. -/
theorem Group.superseded_quiet {x : Group} (hz : x.hazards = []) (file : RegFile) (r : Nat) (lanes : BitVec 32) :
    x.superseded file r lanes = x := by
  cases x
  simp_all [Group.superseded]

theorem Group.wroteV_vreg (x : Group) (now lat stall r : Nat) (lanes : BitVec 32) (f : Nat → VReg) (r' l : Nat) (hl : l < 32) :
    (x.wroteV now lat stall r lanes f).vreg r' l = if r' = r ∧ laneBit lanes l then f l else x.vreg r' l := by
  have h := Group.setV_fold_vreg r f (lanesOf lanes) (fun i hi => ((mem_lanesOf _ _).mp hi).1) (x.superseded .vector r lanes) r' l hl
  have e : (x.wroteV now lat stall r lanes f).v = ((lanesOf lanes).foldl (fun x i => x.setV r i (f i)) (x.superseded .vector r lanes)).v := by
    unfold Group.wroteV
    dsimp only
    split <;> rfl
  simp only [Group.vreg, e] at h ⊢
  rw [h]
  simp [hl, Group.superseded]

theorem Group.wroteV_rest (x : Group) (now lat stall r : Nat) (lanes : BitVec 32) (f : Nat → VReg) :
    (x.wroteV now lat stall r lanes f).s = x.s ∧ (x.wroteV now lat stall r lanes f).p = x.p ∧
      (x.wroteV now lat stall r lanes f).paths = x.paths := by
  obtain ⟨h1, h2, h3, -⟩ := Group.setV_fold_keeps r f (lanesOf lanes) (x.superseded .vector r lanes)
  unfold Group.wroteV
  dsimp only
  split
  · exact ⟨h1, h2, h3⟩
  · exact ⟨h1, h2, h3⟩

/-! ## Results in scalar and predicate registers -/

theorem Group.wroteS_sreg {x : Group} (hz : x.hazards = []) (now lat stall r : Nat) (mask : BitVec 32) (v : Word) (i : Nat) :
    (x.wroteS now lat stall r mask v).sreg i = if i = r then v else x.sreg i := by
  have e : (x.wroteS now lat stall r mask v).s = (x.setS r v).s := by
    unfold Group.wroteS
    simp [hz, Group.superseded, Group.setS]
  show mgetD (x.wroteS now lat stall r mask v).s 0 i = _
  rw [e]
  exact Group.sreg_setS x r i v

theorem Group.wroteS_other (x : Group) (now lat stall r : Nat) (mask : BitVec 32) (v : Word) (i : Nat) (hi : i ≠ r) :
    (x.wroteS now lat stall r mask v).sreg i = x.sreg i := by
  unfold Group.wroteS
  dsimp only
  split
  · rfl
  · exact (Group.sreg_setS x r i v).trans (if_neg hi)

/-- An interlocked result in a group without results still to be read. -/
theorem Group.landS_quiet {x : Group} (hz : x.hazards = []) (now r : Nat) (mask : BitVec 32) (v : Word) :
    x.landS now r mask v = x.setS r v := by
  unfold Group.landS
  simp [hz, Group.superseded_quiet hz]

theorem Group.landS_rest (x : Group) (now r : Nat) (mask : BitVec 32) (v : Word) :
    (x.landS now r mask v).v = x.v ∧ (x.landS now r mask v).p = x.p ∧ (x.landS now r mask v).paths = x.paths := by
  unfold Group.landS
  dsimp only
  split <;> exact ⟨rfl, rfl, rfl⟩

theorem Group.wroteS_rest (x : Group) (now lat stall r : Nat) (mask : BitVec 32) (v : Word) :
    (x.wroteS now lat stall r mask v).v = x.v ∧ (x.wroteS now lat stall r mask v).p = x.p ∧
      (x.wroteS now lat stall r mask v).paths = x.paths := by
  unfold Group.wroteS
  dsimp only
  split <;> exact ⟨rfl, rfl, rfl⟩

theorem Group.wroteP_preg (x : Group) (now lat stall r : Nat) (lanes : BitVec 32) (v : Word) (i : Nat) :
    (x.wroteP now lat stall r lanes v).preg i = if i = r then (x.preg r &&& ~~~lanes) ||| (v &&& lanes) else x.preg i := by
  have e : (x.wroteP now lat stall r lanes v).p = (x.setP r ((x.preg r &&& ~~~lanes) ||| (v &&& lanes))).p := by
    unfold Group.wroteP
    dsimp only
    split <;> rfl
  show mgetD (x.wroteP now lat stall r lanes v).p 0 i = _
  rw [e]
  exact Group.preg_setP x r i _

theorem Group.wroteP_rest (x : Group) (now lat stall r : Nat) (lanes : BitVec 32) (v : Word) :
    (x.wroteP now lat stall r lanes v).v = x.v ∧ (x.wroteP now lat stall r lanes v).s = x.s ∧
      (x.wroteP now lat stall r lanes v).paths = x.paths := by
  unfold Group.wroteP
  dsimp only
  split <;> exact ⟨rfl, rfl, rfl⟩

@[simp] theorem writeV_run (h : Here) (lat stall r : Nat) (lanes : BitVec 32) (f : Nat → VReg) (t : Tx) :
    writeV h lat stall r lanes f t =
      .ok ((), { t with chip := t.chip.modGroup h.g fun x => x.wroteV t.clk lat stall r lanes f }) := rfl
@[simp] theorem writeS_run (h : Here) (lat stall r : Nat) (v : Word) (t : Tx) :
    writeS h lat stall r v t =
      .ok ((), { t with chip := t.chip.modGroup h.g fun x => x.wroteS t.clk lat stall r h.mask v }) := rfl
@[simp] theorem writeP_run (h : Here) (lat stall r : Nat) (lanes : BitVec 32) (v : Word) (t : Tx) :
    writeP h lat stall r lanes v t =
      .ok ((), { t with chip := t.chip.modGroup h.g fun x => x.wroteP t.clk lat stall r lanes v }) := rfl
@[simp] theorem setS_run (h : Here) (r : Nat) (v : Word) (t : Tx) :
    setS h r v t = .ok ((), { t with chip := t.chip.modGroup h.g fun x => x.landS t.clk r h.mask v }) := rfl
@[simp] theorem setPair_run (h : Here) (r : Nat) (v : Addr) (t : Tx) :
    setPair h r v t = .ok ((), { t with
      chip := (t.chip.modGroup h.g (Group.landS · t.clk r h.mask (v.extractLsb' 0 32))).modGroup h.g
        (Group.landS · t.clk (r + 1) h.mask (v.extractLsb' 32 32)) }) := rfl

end Sys2Proof.Machine
end

