-- ==== Sys2Proof/Laws/Alu.lean ====
section
/-! SUPPORT. Laws of the shapes that lane, predicate and scalar instructions share: where one may issue and no lane traps, it
ends with its result in its destination and everything else as it was. -/

namespace Sys2Proof.Machine

/-! ## Exception flags -/

theorem modTeam_id (c : Chip) (i : Nat) : (c.modTeam i fun t => { t with fpctl := t.fpctl }) = c := by
  have h : c.teams = mmod c.teams i id := by
    induction c.teams with
    | nil => rfl
    | cons e r ih =>
      obtain ⟨j, x⟩ := e
      by_cases hj : j = i
      · subst hj
        simpa [mmod] using ih
      · simpa [mmod, hj] using ih
  show { c with teams := mmod c.teams i id } = c
  rw [← h]

/-- Flags of which none is enabled are kept, and nothing traps. -/
theorem raiseFlags_run (h : Here) (fs : List (Nat × FpFlags)) (hn : h.untrapped (flagsOf fs))
    (t : Tx) :
    raiseFlags h fs t = .ok ((), { t with chip := t.chip.modTeam h.tid fun x => x.flagged t.clk (flagsOf fs) }) := by
  unfold raiseFlags
  have hn' : ¬ (fs.foldl (fun a x => a ||| x.2) (0 : FpFlags)) &&& (h.team.fpctl.extractLsb' 1 5 : FpFlags) ≠ 0 := by
    simpa [flagsOf, Here.untrapped] using hn
  simp only [hn', if_false]
  rfl

/-! ## Lane-wise instructions -/

theorem mget_map_mem {α : Type} (f : Nat → α) {ls : List Nat} {l : Nat} (hm : l ∈ ls) :
    mget? (ls.map fun i => (i, f i)) l = some (f l) := by
  induction ls with
  | nil => simp at hm
  | cons i r ih =>
    by_cases he : i = l
    · simp [mget?, he]
    · have hm' : l ∈ r := by
        rcases List.mem_cons.mp hm with e | e
        · exact absurd e.symm he
        · exact e
      simpa [mget?, he] using ih hm'

/-- A lane-wise instruction in which every lane has a result and no exception is enabled: each lane of lanes() takes its
result, other lanes and registers stay, flags accumulate, and the path goes on past the instruction. -/
theorem laneOp_next {s : State} {h : Here} {F : Form} {d : Nat} {srcs : List Src} {ps : List Nat}
    {f : Here → Nat → Option LaneOut} (hi : s.mayIssue h (laneUses F d srcs ps)) (res : Nat → LaneOut)
    (hr : ∀ l, l < 32 → laneBit (h.lanes F.g) l → f h l = some (res l))
    (hf : flagsOf ((lanesOf (h.lanes F.g)).map fun l => (l, (res l).flags)) &&& (h.team.fpctl.extractLsb' 1 5 : FpFlags) = 0)
    (n : Nat) :
    ∃ t, runZha n (laneOp F d srcs ps f) s = .next t ∧
      t.chip.path? h.g h.p = some (h.past F.len F.stall s.clk) ∧
      (∀ l, l < 32 → t.vreg h.g d l = if laneBit (h.lanes F.g) l then (res l).reg else s.vreg h.g d l) ∧
      s.keepsBut t h [d] [] [] ∧
      s.retired t h (flagsOf ((lanesOf (h.lanes F.g)).map fun l => (l, (res l).flags))) := by
  have ha := hi.1
  obtain ⟨hg, -, ht, -⟩ := State.acts_eq ha
  have hmap : (lanesOf (h.lanes F.g)).map (fun i => (i, f h i)) = (lanesOf (h.lanes F.g)).map fun i => (i, some (res i)) :=
    List.map_congr_left fun i hm => by
      obtain ⟨h1, h2⟩ := (mem_lanesOf _ _).mp hm
      rw [hr i h1 h2]
  have hfind : ((lanesOf (h.lanes F.g)).map fun i => (i, some (res i))).find? (fun r => r.2.isNone) = none := by
    rw [List.find?_eq_none]
    intro x hx
    obtain ⟨i, -, rfl⟩ := List.mem_map.mp hx
    simp
  have hos : ((lanesOf (h.lanes F.g)).map fun i => (i, some (res i))).filterMap (fun r => r.2.map fun o => (r.1, o)) =
      (lanesOf (h.lanes F.g)).map fun i => (i, res i) := by
    induction lanesOf (h.lanes F.g) with
    | nil => rfl
    | cons i r ih => simp [ih]
  have hfl : ((lanesOf (h.lanes F.g)).map fun i => (i, res i)).map (fun o => (o.1, o.2.flags)) =
      (lanesOf (h.lanes F.g)).map fun l => (l, (res l).flags) := by simp
  generalize hfs : flagsOf ((lanesOf (h.lanes F.g)).map fun l => (l, (res l).flags)) = fl at hf ⊢
  generalize hlat : ((lanesOf (h.lanes F.g)).map fun i => (i, res i)).foldl (fun m o => max m o.2.lat) 0 = lat
  let fg : Group → Group := fun x => x.wroteV s.clk lat F.stall d (h.lanes F.g) fun i =>
    (mget? ((lanesOf (h.lanes F.g)).map fun i => (i, res i)) i).elim VReg.zero LaneOut.reg
  have hbody : laneOp F d srcs ps f s.tx =
      .ok ((), { s.tx with chip := ((s.chip.retire h F.len F.stall s.clk).modTeam h.tid fun x =>
        x.flagged s.clk fl).modGroup h.g fg }) := by
    rw [laneOp]
    refine (issue_next (u := laneUses F d srcs ps) hi F.len F.stall _).trans ?_
    simp only [hmap, hfind, hos, hfl, bind_run]
    rw [raiseFlags_run h _ (hfs ▸ hf)]
    simp only [writeV_run, hlat, hfs, State.tx_clk, fg]
  have hvreg : ∀ x r l, l < 32 → (fg x).vreg r l = if r = d ∧ laneBit (h.lanes F.g) l then (res l).reg else x.vreg r l := by
    intro x r l hl
    simp only [fg]
    rw [Group.wroteV_vreg _ _ _ _ _ _ _ _ _ hl]
    by_cases hc : r = d ∧ laneBit (h.lanes F.g) l
    · rw [if_pos hc, if_pos hc]
      have hm : l ∈ lanesOf (h.lanes F.g) := (mem_lanesOf _ _).mpr ⟨hl, hc.2⟩
      have : mget? ((lanesOf (h.lanes F.g)).map fun i => (i, res i)) l = some (res l) := mget_map_mem res hm
      simp [this]
    · rw [if_neg hc, if_neg hc]
  refine ⟨s.ended h F.len F.stall (fun x => x.flagged s.clk fl) fg, ?_, ?_, ?_, ?_, ?_⟩
  · exact runZha_next hbody
  · exact State.ended_path ha _ _ _ _ fun x => (Group.wroteV_rest x _ _ _ _ _ _).2.2
  · intro l hl
    have hE := State.ended_group ha F.len F.stall (fun x => x.flagged s.clk fl) fg
    simp only [State.vreg, hE, hg, Option.map_some, Option.getD_some]
    rw [hvreg _ _ _ hl]
    simp only [true_and]
    rfl
  · refine State.ended_keeps ha _ _ _ _ (fun x => (Group.wroteV_rest x _ _ _ _ _ _).2.2) ?_ ?_ ?_
    · intro x r l hl hr'
      rw [hvreg _ _ _ hl, if_neg]
      rintro ⟨rfl, -⟩
      simp at hr'
    · intro x r _
      show mgetD _ _ _ = mgetD _ _ _
      rw [(Group.wroteV_rest x _ _ _ _ _ _).1]
    · intro x r _
      show mgetD _ _ _ = mgetD _ _ _
      rw [(Group.wroteV_rest x _ _ _ _ _ _).2.1]
  · rw [State.retired, State.ended_team ha, ht]
    rfl

/-- The union of no flags. -/
theorem flagsOf_none (ls : List Nat) : flagsOf (ls.map fun l => (l, (0 : FpFlags))) = 0 := by
  unfold flagsOf
  induction ls with
  | nil => rfl
  | cons i r ih => simpa using ih

theorem untrapped_zero (h : Here) : h.untrapped 0 := by simp [Here.untrapped]

/-- An instruction that is a lane-wise operation, every lane with its result and no exception enabled, completes. -/
theorem lanesGet_of {s : State} {h : Here} {F : Form} {d n : Nat} {srcs : List Src} {ps : List Nat}
    {f : Here → Nat → Option LaneOut} {i : Instr} (hx : exec i s = runZha n (laneOp F d srcs ps f) s)
    (hi : s.mayIssue h (laneUses F d srcs ps)) (tag : Nat → BitVec 4) (lat : Nat → Nat) (res : Nat → Nat × FpFlags)
    (hr : ∀ l, l < 32 → laneBit (h.lanes F.g) l → f h l = some (LaneOut.of (tag l) (lat l) (res l)))
    (hf : h.untrapped (flagsOf ((lanesOf (h.lanes F.g)).map fun l => (l, (res l).2)))) : s.lanesGet h i F d tag res := by
  obtain ⟨t, h1, h2, h3, h4, h5⟩ := laneOp_next hi (fun l => LaneOut.of (tag l) (lat l) (res l)) hr hf n
  exact ⟨t, hx.trans h1, h2, h3, h4, h5⟩

/-- The same without flags. -/
theorem lanesGet_quiet {s : State} {h : Here} {F : Form} {d n : Nat} {srcs : List Src} {ps : List Nat}
    {f : Here → Nat → Option LaneOut} {i : Instr} (hx : exec i s = runZha n (laneOp F d srcs ps f) s)
    (hi : s.mayIssue h (laneUses F d srcs ps)) (tag : Nat → BitVec 4) (lat : Nat → Nat) (res : Nat → Nat)
    (hr : ∀ l, l < 32 → laneBit (h.lanes F.g) l → f h l = some (LaneOut.of (tag l) (lat l) (res l, 0))) :
    s.lanesGet h i F d tag fun l => (res l, 0) :=
  lanesGet_of hx hi tag lat (fun l => (res l, 0)) hr (by rw [flagsOf_none]; exact untrapped_zero h)

/-! ## The shared lane operations -/

/-- ADD and SUB complete where the tags of every lane compute. -/
theorem addOp_gets {s : State} {h : Here} {tag : Nat → BitVec 4} {i : Instr} {n : Nat} {sub : Bool} {F : Form} {d : Nat}
    {a b : Src} {rm : Rm} {sat : Bool} (hx : exec i s = runZha n (addOp sub F d a b rm sat) s)
    (hi : s.mayIssue h (laneUses F d [a, b] []))
    (ht : ∀ l, l < 32 → laneBit (h.lanes F.g) l → addTag (a.tag? h l) (b.tag? h l) = some (tag l)) (res : Nat → Nat × FpFlags)
    (hr : res = fun l => if sub then laneSub ⟨rm, sat && tag l ≠ tagADDR, h.ftz⟩ (tag l) (a.opnd h l) (b.opnd h l)
      else laneAdd ⟨rm, sat && tag l ≠ tagADDR, h.ftz⟩ (tag l) (a.opnd h l) (b.opnd h l))
    (hf : h.untrapped (flagsOf ((lanesOf (h.lanes F.g)).map fun l => (l, (res l).2)))) : s.lanesGet h i F d tag res := by
  subst hr
  refine lanesGet_of hx hi tag (fun l => arithLat (tag l)) _ ?_ hf
  intro l hl hb
  simp only [ht l hl hb, Option.map_some]

/-- Arithmetic in the common tag completes where every lane has one that the operation takes. -/
theorem arithOp_gets {s : State} {h : Here} {tag : Nat → BitVec 4} {i : Instr} {n : Nat} {F : Form} {d : Nat} {srcs : List Src}
    {ok : BitVec 4 → Bool} {lat : BitVec 4 → Nat} {g : Here → Nat → BitVec 4 → Nat × FpFlags}
    (hx : exec i s = runZha n (arithOp F d srcs ok lat g) s) (hi : s.mayIssue h (laneUses F d srcs []))
    (ht : ∀ l, l < 32 → laneBit (h.lanes F.g) l → commonTag h l srcs = some (tag l) ∧ ok (tag l))
    (hf : h.untrapped (flagsOf ((lanesOf (h.lanes F.g)).map fun l => (l, (g h l (tag l)).2)))) :
    s.lanesGet h i F d tag fun l => g h l (tag l) := by
  refine lanesGet_of hx hi tag (fun l => lat (tag l)) _ ?_ hf
  intro l hl hb
  simp only [(ht l hl hb).1, (ht l hl hb).2, if_true]

/-- DOT completes where every lane's factors share a tag whose accumulator tag the destination holds. -/
theorem dotOp_gets {s : State} {h : Here} {tag : Nat → BitVec 4} {i : Instr} {n : Nat} {F : Form} {d : Nat} {a b : Src} {rm : Rm}
    {sat : Bool} (hx : exec i s = runZha n (dotOp F d a b rm sat) s) (hi : s.mayIssue h (laneUses F d [a, b, .v d] []))
    (ht : ∀ l, l < 32 → laneBit (h.lanes F.g) l → vectorTags h l [a, b] ≠ [] ∧ commonTag h l [a, b] = some (tag l) ∧
      dotAcc (tag l) = some (h.v d l).tag) (res : Nat → Nat × FpFlags)
    (hr : res = fun l => laneDot ⟨rm, sat, h.ftz⟩ (tag l) (h.v d l).bits.toNat (a.opnd h l) (b.opnd h l))
    (hf : h.untrapped (flagsOf ((lanesOf (h.lanes F.g)).map fun l => (l, (res l).2)))) :
    s.lanesGet h i F d (fun l => (h.v d l).tag) res := by
  subst hr
  refine lanesGet_of hx hi _ (fun l => 6) _ ?_ hf
  intro l hl hb
  obtain ⟨h1, h2, h3⟩ := ht l hl hb
  simp [h1, h2, h3]

/-- Logic over the 32 bits completes whatever the tags. -/
theorem logicOp_gets {s : State} {h : Here} {i : Instr} {n : Nat} {F : Form} {d : Nat} {srcs : List Src} {f : Here → Nat → Nat}
    (hx : exec i s = runZha n (logicOp F d srcs f) s) (hi : s.mayIssue h (laneUses F d srcs [])) :
    s.lanesGet h i F d (fun l => logicTag h l srcs) fun l => (f h l, 0) :=
  lanesGet_quiet hx hi _ (fun _ => 4) _ fun _ _ _ => rfl

/-- The common tag of a single source. -/
theorem logicTag_one (h : Here) (l : Nat) (a : Src) : logicTag h l [a] = (a.tag? h l).getD tagI32 := by
  cases a <;> simp [logicTag, commonTag, vectorTags, Src.tag?, List.filterMap]

/-- A move of one source completes with its bits and tag. -/
theorem movOp_gets {s : State} {h : Here} {i : Instr} {n : Nat} {F : Form} {d : Nat} {a : Src}
    (hx : exec i s = runZha n (movOp F d a) s) (hi : s.mayIssue h (laneUses F d [a] [])) :
    s.lanesGet h i F d (fun l => (a.tag? h l).getD tagI32) fun l => (a.raw h l, 0) := by
  have := logicOp_gets (f := fun h i => a.raw h i) hx hi
  simpa only [logicTag_one] using this

/-- POPC and CLZ complete. -/
theorem countOp_gets {s : State} {h : Here} {i : Instr} {n : Nat} {F : Form} {d : Nat} {a : Src} {f : Nat → Nat}
    (hx : exec i s = runZha n (countOp F d a f) s) (hi : s.mayIssue h (laneUses F d [a] [])) :
    s.lanesGet h i F d (fun _ => tagN32) fun l => (f (a.raw h l), 0) :=
  lanesGet_quiet hx hi _ (fun _ => 4) _ fun _ _ _ => rfl

/-- SEL completes with the chosen operand. -/
theorem selOp_gets {s : State} {h : Here} {i : Instr} {n : Nat} {F : Form} {d p : Nat} {neg : Bool} {a b : Src}
    (hx : exec i s = runZha n (selOp F d p neg a b) s) (hi : s.mayIssue h (laneUses F d [a, b] [p])) :
    s.lanesGet h i F d
      (fun l => if (h.pr p).getLsbD l != neg then ((a.tag? h l) <|> (b.tag? h l)).getD tagI32
        else ((b.tag? h l) <|> (a.tag? h l)).getD tagI32)
      fun l => (if (h.pr p).getLsbD l != neg then a.raw h l else b.raw h l, 0) := by
  refine lanesGet_quiet hx hi _ (fun _ => 4) _ fun l _ _ => ?_
  by_cases hp : ((h.pr p).getLsbD l != neg) = true
  · simp only [hp, if_true]
  · simp only [hp]
    rfl

/-! ## Scalar instructions -/

/-- A scalar instruction that some lane's guard admits writes its register. -/
theorem scalarOp_next {s : State} {h : Here} {F : Form} {d : Nat} {ss : List Nat} {f : Here → Word}
    (hi : s.mayIssue h ⟨[], [], ss, [d], guardPs F.g, []⟩) (hl : h.lanes F.g ≠ 0) (n : Nat) :
    ∃ t, runZha n (scalarOp F d ss f) s = .next t ∧
      t.chip.path? h.g h.p = some (h.past F.len F.stall s.clk) ∧
      t.sreg h.g d = f h ∧ s.keepsBut t h [] [d] [] ∧ s.retired t h 0 := by
  have ha := hi.1
  obtain ⟨hg, -, ht, -⟩ := State.acts_eq ha
  let fg : Group → Group := fun x => x.wroteS s.clk 2 F.stall d h.mask (f h)
  have hid : ((s.chip.retire h F.len F.stall s.clk).modTeam h.tid fun x => { x with fpctl := x.fpctl }) =
      s.chip.retire h F.len F.stall s.clk := modTeam_id _ _
  have hbody : scalarOp F d ss f s.tx =
      .ok ((), { s.tx with chip := ((s.chip.retire h F.len F.stall s.clk).modTeam h.tid fun x =>
        { x with fpctl := x.fpctl }).modGroup h.g fg }) := by
    rw [scalarOp]
    refine (issue_next hi F.len F.stall _).trans ?_
    rw [hid]
    simp only [onceIf, hl, if_false, writeS_run, State.tx_clk, fg]
  refine ⟨s.ended h F.len F.stall (fun x => { x with fpctl := x.fpctl }) fg, runZha_next hbody, ?_, ?_, ?_, ?_⟩
  · exact State.ended_path ha _ _ _ _ fun x => (Group.wroteS_rest x _ _ _ _ _ _).2.2
  · have hE := State.ended_group ha F.len F.stall (fun x => { x with fpctl := x.fpctl }) fg
    have hz : (h.groupPast F.len F.stall s.clk).hazards = [] := by simp [Here.groupPast, hi.2.2.2.2, ageHazards]
    simp [State.sreg, hE, fg, Group.wroteS_sreg hz]
  · refine State.ended_keeps ha _ _ _ _ (fun x => (Group.wroteS_rest x _ _ _ _ _ _).2.2) ?_ ?_ ?_
    · intro x r l _ _
      show mgetD _ _ _ = mgetD _ _ _
      rw [(Group.wroteS_rest x _ _ _ _ _ _).1]
    · intro x r hr
      exact Group.wroteS_other _ _ _ _ _ _ _ _ (by simpa using hr)
    · intro x r _
      show mgetD _ _ _ = mgetD _ _ _
      rw [(Group.wroteS_rest x _ _ _ _ _ _).2.1]
  · rw [State.retired, State.ended_team ha, ht]
    rfl

/-- An instruction that is a scalar operation completes. -/
theorem scalarGets_of {s : State} {h : Here} {F : Form} {d n : Nat} {ss : List Nat} {f : Here → Word} {i : Instr}
    (hx : exec i s = runZha n (scalarOp F d ss f) s) (hi : s.mayIssue h ⟨[], [], ss, [d], guardPs F.g, []⟩)
    (hl : h.lanes F.g ≠ 0) : s.scalarGets h i F d (f h) := by
  obtain ⟨t, h1, h2⟩ := scalarOp_next (f := f) hi hl n
  exact ⟨t, hx.trans h1, h2⟩

/-! ## Predicate instructions -/

/-- The bits of a sum of distinct powers of two. -/
theorem sumBits (f : Nat → Bool) (n : Nat) :
    (List.range n).foldl (fun a i => a + if f i then 2 ^ i else 0) 0 < 2 ^ n ∧
      ∀ i, Nat.testBit ((List.range n).foldl (fun a i => a + if f i then 2 ^ i else 0) 0) i = (decide (i < n) && f i) := by
  induction n with
  | zero => simp
  | succ n ih =>
    obtain ⟨ih1, ih2⟩ := ih
    rw [List.range_succ, List.foldl_append]
    simp only [List.foldl_cons, List.foldl_nil]
    generalize (List.range n).foldl (fun a i => a + if f i then 2 ^ i else 0) 0 = a at ih1 ih2 ⊢
    cases hf : f n
    · refine ⟨by simp; rw [Nat.pow_succ]; omega, fun i => ?_⟩
      simp only [Bool.false_eq_true, if_false, Nat.add_zero, ih2]
      rcases Nat.lt_trichotomy i n with h | h | h
      · simp [h, Nat.lt_succ_of_lt h]
      · subst h; simp [hf]
      · simp [Nat.not_lt.mpr (Nat.le_of_lt h), Nat.not_lt.mpr h]
    · refine ⟨by simp; rw [Nat.pow_succ]; omega, fun i => ?_⟩
      simp only [if_true]
      rw [Nat.add_comm]
      rcases Nat.lt_trichotomy i n with h | h | h
      · rw [Nat.testBit_two_pow_add_gt h, ih2]; simp [h, Nat.lt_succ_of_lt h]
      · subst h; rw [Nat.testBit_two_pow_add_eq, ih2]; simp [hf]
      · have hlt : 2 ^ n + a < 2 ^ i := by
          have : 2 ^ (n + 1) ≤ 2 ^ i := Nat.pow_le_pow_right (by decide) h
          rw [Nat.pow_succ] at this
          omega
        rw [Nat.testBit_lt_two_pow hlt]
        simp [Nat.not_lt.mpr h]

/-- A mask made of bits has those bits. -/
theorem maskOf_bit (f : Nat → Bool) (l : Nat) (hl : l < 32) : (maskOf f).getLsbD l = f l := by
  unfold maskOf
  rw [BitVec.getLsbD_ofNat, (sumBits f 32).2]
  simp [hl]

/-- A predicate instruction in which every lane has a result and no exception is enabled. -/
theorem predOp_next {s : State} {h : Here} {F : Form} {lat d : Nat} {u : Uses} {f : Here → Nat → Option (Bool × FpFlags)}
    (hi : s.mayIssue h { u with ps := guardPs F.g ++ u.ps, pd := [d] }) (res : Nat → Bool × FpFlags)
    (hr : ∀ l, l < 32 → laneBit (h.lanes F.g) l → f h l = some (res l))
    (hf : h.untrapped (flagsOf ((lanesOf (h.lanes F.g)).map fun l => (l, (res l).2)))) (n : Nat) :
    ∃ t, runZha n (predOp F lat d u f) s = .next t ∧ t.chip.path? h.g h.p = some (h.past F.len F.stall s.clk) ∧
      (∀ l, l < 32 → (t.preg h.g d).getLsbD l = if laneBit (h.lanes F.g) l then (res l).1 else (s.preg h.g d).getLsbD l) ∧
      s.keepsBut t h [] [] [d] ∧
      s.retired t h (flagsOf ((lanesOf (h.lanes F.g)).map fun l => (l, (res l).2))) := by
  have ha := hi.1
  obtain ⟨hg, -, ht, -⟩ := State.acts_eq ha
  have hmap : (lanesOf (h.lanes F.g)).map (fun i => (i, f h i)) = (lanesOf (h.lanes F.g)).map fun i => (i, some (res i)) :=
    List.map_congr_left fun i hm => by
      obtain ⟨h1, h2⟩ := (mem_lanesOf _ _).mp hm
      rw [hr i h1 h2]
  have hfind : ((lanesOf (h.lanes F.g)).map fun i => (i, some (res i))).find? (fun r => r.2.isNone) = none := by
    rw [List.find?_eq_none]
    intro x hx
    obtain ⟨i, -, rfl⟩ := List.mem_map.mp hx
    simp
  have hfl : ((lanesOf (h.lanes F.g)).map fun i => (i, some (res i))).map (fun r => (r.1, (r.2.map Prod.snd).getD 0)) =
      (lanesOf (h.lanes F.g)).map fun l => (l, (res l).2) := by simp
  generalize hfs : flagsOf ((lanesOf (h.lanes F.g)).map fun l => (l, (res l).2)) = fl at hf ⊢
  let w := maskOf fun i => ((lanesOf (h.lanes F.g)).map fun i => (i, some (res i))).any fun r =>
    r.1 = i && (r.2.map Prod.fst).getD false
  let fg : Group → Group := fun x => x.wroteP s.clk lat F.stall d (h.lanes F.g) w
  have hbody : predOp F lat d u f s.tx =
      .ok ((), { s.tx with chip := ((s.chip.retire h F.len F.stall s.clk).modTeam h.tid fun x =>
        x.flagged s.clk fl).modGroup h.g fg }) := by
    rw [predOp]
    refine (issue_next hi F.len F.stall _).trans ?_
    simp only [hmap, hfind, hfl, bind_run]
    rw [raiseFlags_run h _ (hfs ▸ hf)]
    simp only [writeP_run, hfs, State.tx_clk, fg, w]
  have hw : ∀ l, l < 32 → laneBit (h.lanes F.g) l → w.getLsbD l = (res l).1 := by
    intro l hl hb
    simp only [w]
    rw [maskOf_bit _ _ hl, Bool.eq_iff_iff, List.any_eq_true]
    constructor
    · rintro ⟨x, hx, hx'⟩
      obtain ⟨i, -, rfl⟩ := List.mem_map.mp hx
      simp at hx'
      rw [← hx'.1]; exact hx'.2
    · intro hv
      exact ⟨(l, some (res l)), List.mem_map.mpr ⟨l, (mem_lanesOf _ _).mpr ⟨hl, hb⟩, rfl⟩, by simp [hv]⟩
  have hp : ∀ x i, (fg x).preg i = if i = d then (x.preg d &&& ~~~(h.lanes F.g)) ||| (w &&& h.lanes F.g) else x.preg i :=
    fun x i => Group.wroteP_preg _ _ _ _ _ _ _ _
  refine ⟨s.ended h F.len F.stall (fun x => x.flagged s.clk fl) fg, runZha_next hbody, ?_, ?_, ?_, ?_⟩
  · exact State.ended_path ha _ _ _ _ fun x => (Group.wroteP_rest x _ _ _ _ _ _).2.2
  · intro l hl
    have hE := State.ended_group ha F.len F.stall (fun x => x.flagged s.clk fl) fg
    simp only [State.preg, hE, hg, Option.map_some, Option.getD_some, hp, if_true]
    by_cases hb : laneBit (h.lanes F.g) l
    · have hb' : (h.lanes F.g).getLsbD l = true := hb
      have hv : (w[l]'hl) = (res l).1 := hw l hl hb
      have hm : ((h.lanes F.g)[l]'hl) = true := hb'
      simp [hb, hl, hm, hv]
    · have hb' : (h.lanes F.g).getLsbD l = false := by simpa [laneBit] using hb
      have hm : ((h.lanes F.g)[l]'hl) = false := hb'
      have hq : (h.groupPast F.len F.stall s.clk).preg d = h.grp.preg d := rfl
      simp [hb, hl, hm, hq]
  · refine State.ended_keeps ha _ _ _ _ (fun x => (Group.wroteP_rest x _ _ _ _ _ _).2.2) ?_ ?_ ?_
    · intro x r l _ _
      show mgetD _ _ _ = mgetD _ _ _
      rw [(Group.wroteP_rest x _ _ _ _ _ _).1]
    · intro x r _
      show mgetD _ _ _ = mgetD _ _ _
      rw [(Group.wroteP_rest x _ _ _ _ _ _).2.1]
    · intro x r hr
      rw [hp, if_neg]
      rintro rfl
      simp at hr
  · rw [State.retired, State.ended_team ha, ht]
    rfl

/-- An instruction that is a predicate operation completes. -/
theorem predGets_of {s : State} {h : Here} {F : Form} {lat d n : Nat} {u : Uses} {f : Here → Nat → Option (Bool × FpFlags)}
    {i : Instr} (hx : exec i s = runZha n (predOp F lat d u f) s)
    (hi : s.mayIssue h { u with ps := guardPs F.g ++ u.ps, pd := [d] }) (res : Nat → Bool × FpFlags)
    (hr : ∀ l, l < 32 → laneBit (h.lanes F.g) l → f h l = some (res l))
    (hf : h.untrapped (flagsOf ((lanesOf (h.lanes F.g)).map fun l => (l, (res l).2)))) :
    s.predGets h i F d (fun l => (res l).1) (flagsOf ((lanesOf (h.lanes F.g)).map fun l => (l, (res l).2))) := by
  obtain ⟨t, h1, h2⟩ := predOp_next hi res hr hf n
  exact ⟨t, hx.trans h1, h2⟩

end Sys2Proof.Machine
end

