-- ==== Sys2Proof/Laws/Home.lean ====
section
/-! SUPPORT. Laws of a home where memory is plain: a read gives the bytes of memory and changes nothing, a write changes its
bytes and what the home keeps of their granules. -/

namespace Sys2Proof.Machine

theorem each_id {α : Type} {f : α → Act Unit} {t : Tx} : (xs : List α) → (∀ x ∈ xs, f x t = .ok ((), t)) → each xs f t = .ok ((), t)
  | [], _ => rfl
  | x :: r, h => by
    rw [each_cons, bind_next (h x List.mem_cons_self)]
    exact each_id r fun y hy => h y (List.mem_cons_of_mem _ hy)

theorem mget_mem {α : Type} : {m : Map α} → {k : Nat} → {v : α} → mget? m k = some v → (k, v) ∈ m
  | (j, w) :: r, k, v, h => by
    unfold mget? at h
    split at h
    · simp_all
    · exact List.mem_cons_of_mem _ (mget_mem h)

/-- Plain memory rests on these fields alone. -/
theorem Chip.plainMemory_of_eq {c d : Chip} (h : c.plainMemory) (h1 : d.cores = c.cores) (h2 : d.ctxs = c.ctxs) (h3 : d.runs = c.runs)
    (h4 : d.link = c.link) (h5 : d.mons = c.mons) : d.plainMemory := by
  unfold Chip.plainMemory
  rw [h1, h2, h3, h4, h5]
  exact h

/-! ## Recall (R117) -/

theorem Chip.partialsOf_none {c : Chip} (h : ∀ e ∈ c.cores, e.2.partials = []) (on : Nat → Bool) (line : Nat) :
    c.partialsOf on line = [] := by
  unfold Chip.partialsOf
  rw [List.flatMap_eq_nil_iff]
  intro e he
  simp [h e he]

theorem recallFrom_none {t : Tx} (h : ∀ e ∈ t.chip.cores, e.2.partials = []) (on : Nat → Bool) (line : Nat) :
    recallFrom on line t = .ok ((), t) := by
  unfold recallFrom
  simp [Chip.partialsOf_none h]

theorem recallLine_none {t : Tx} (h : ∀ e ∈ t.chip.cores, e.2.partials = []) (line : Nat) : recallLine line t = .ok ((), t) :=
  recallFrom_none h _ _

theorem recallRange_none {t : Tx} (h : ∀ e ∈ t.chip.cores, e.2.partials = []) (pa n : Nat) : recallRange pa n t = .ok ((), t) :=
  each_id _ fun _ _ => recallLine_none h _

theorem awaitLink_up {t : Tx} (h : t.chip.link.retraining = none) (pa n : Nat) : awaitLink pa n t = .ok ((), t) := by
  simp [awaitLink, h]

/-! ## Reads and writes -/

theorem homeRead_plain {t : Tx} (hp : ∀ e ∈ t.chip.cores, e.2.partials = []) (hl : t.chip.link.retraining = none) (pa n : Nat) :
    homeRead pa n t = .ok ((List.range n).map fun i => t.byte (pa + i), t) := by
  unfold homeRead
  simp only [bind_run, awaitLink_up hl, recallRange_none hp, readBytes_run]

theorem homeNat_plain {t : Tx} (hp : ∀ e ∈ t.chip.cores, e.2.partials = []) (hl : t.chip.link.retraining = none) (pa n : Nat) :
    homeNat pa n t = .ok (fromLE ((List.range n).map fun i => t.byte (pa + i)), t) := by
  unfold homeNat
  simp only [bind_run, homeRead_plain hp hl, pure_run]

/-- At the start of a transaction the bytes are those of memory. -/
theorem homeNat_start {s : State} {c : Chip} (hp : ∀ e ∈ c.cores, e.2.partials = []) (hl : c.link.retraining = none) (pa n : Nat) :
    homeNat pa n { s.tx with chip := c } = .ok (Memory.nat s.mem pa n, { s.tx with chip := c }) :=
  homeNat_plain (t := { s.tx with chip := c }) hp hl pa n

theorem watchTile_none {t : Tx} (h : ∀ e ∈ t.chip.ctxs, e.2.watch = []) (tile : Nat) : watchTile tile t = .ok ((), t) := by
  unfold watchTile
  simp only [bind_run, getChip_run]
  refine each_id _ fun x hx => ?_
  obtain ⟨e, he, rfl⟩ := List.mem_map.mp hx
  simp [h e he, mvals]

theorem filterTile_none {t : Tx} (h : ∀ e ∈ t.chip.runs, e.2.traced = false) (run : Nat) (team : Word) (tile : Nat) :
    filterTile run team tile t = .ok ((), t) := by
  unfold filterTile
  simp only [bind_run, getChip_run]
  cases hr : mget? t.chip.runs run with
  | none => rfl
  | some r =>
    have := h _ (mget_mem hr)
    simp [this]

theorem noteWrite_plain {t : Tx} (h : t.chip.plainMemory) (pa n : Nat) (by_ : Option (Nat × Word)) :
    noteWrite pa n by_ t = .ok ((), t) := by
  unfold noteWrite
  refine each_id _ fun x _ => ?_
  rw [bind_next (watchTile_none h.2.1 x)]
  cases by_ with
  | none => rfl
  | some b => exact filterTile_none h.2.2.1 _ _ _

theorem noteMonitors_none {t : Tx} (h : ∀ m ∈ t.chip.mons, m.test = none) (pa n : Nat) : noteMonitors pa n t = .ok ((), t) := by
  unfold noteMonitors
  simp only [bind_run, getChip_run]
  refine each_id _ fun m hm => ?_
  rw [h m (List.mem_of_mem_filter hm)]
  rfl

/-- What a home keeps of the granules of a range that has been written: poison of whole granules and lost bits go. -/
def Chip.written (c : Chip) (pa n : Nat) : Chip :=
  { c with
    poison := c.poison.filter fun g => !(wholeGranules pa n).contains g
    lost := c.lost.filter fun g => !(granulesOf pa n).contains g }

@[simp] theorem Chip.written_group? (c : Chip) (pa n g : Nat) : (c.written pa n).group? g = c.group? g := rfl
@[simp] theorem Chip.written_teams (c : Chip) (pa n : Nat) : (c.written pa n).teams = c.teams := rfl
@[simp] theorem Chip.written_runs (c : Chip) (pa n : Nat) : (c.written pa n).runs = c.runs := rfl
@[simp] theorem Chip.written_cores (c : Chip) (pa n : Nat) : (c.written pa n).cores = c.cores := rfl
@[simp] theorem Chip.written_slots (c : Chip) (pa n : Nat) : (c.written pa n).slots = c.slots := rfl

theorem homeWrite_plain {t : Tx} (h : t.chip.plainMemory) (pa : Nat) (bs : List Byte) (by_ : Option (Nat × Word)) :
    homeWrite pa bs by_ t = .ok ((), { t with
      chip := t.chip.written pa bs.length
      log := (bs.zipIdx.map fun p => (pa + p.2, p.1)).reverse ++ t.log }) := by
  unfold homeWrite
  have hc : t.chip.cutOff pa bs.length = false := by simp [Chip.cutOff, h.2.2.2.2.1]
  rw [bind_next (awaitLink_up h.2.2.2.1 _ _), bind_next (recallRange_none h.1 _ _), bind_next (getChip_run t)]
  simp only [hc, Bool.false_eq_true, if_false]
  rw [bind_next (writeBytes_run _ _ t), bind_next (modChip_run _ _)]
  let u : Tx := { t with
    chip := t.chip.written pa bs.length
    log := (bs.zipIdx.map fun p => (pa + p.2, p.1)).reverse ++ t.log }
  have hu : u.chip.plainMemory := h
  show (noteWrite pa bs.length by_ >>= fun _ => noteMonitors pa bs.length) u = .ok ((), u)
  rw [bind_next (noteWrite_plain hu _ _ _)]
  exact noteMonitors_none hu.2.2.2.2.2 _ _

/-! ## The frame window (R256) -/

theorem frameWindow_none {s : State} {h : Here} (hw : s.noWindow h) {t : Tx} (hc : t.chip.ctxs = s.chip.ctxs)
    (hk : t.chip.cores = s.chip.cores) (hi : t.chip.link = s.chip.link) (hb : t.base = s.mem)
    (hl : t.log = []) : frameWindow h.ctx t = .ok (0, t) := by
  have hx : t.chip.ctx h.ctx = s.chip.ctx h.ctx := by simp [Chip.ctx, hc]
  unfold frameWindow
  simp only [bind_run, getChip_run, hx]
  cases ha : (s.chip.ctx h.ctx).area with
  | none => rfl
  | some a =>
    obtain ⟨h1, h2, hz⟩ := hw a ha
    have hr : ∀ k, t.byte k = Memory.read s.mem k := by
      intro k
      simp [Tx.byte, hl, hb, logRead]
    show homeNat (a.pa + 0x28) 8 t = _
    rw [homeNat_plain (hk ▸ h1) (hi ▸ h2), ← hz, Memory.nat]
    congr 3
    exact List.map_congr_left fun i _ => hr _

theorem meetsWindow_zero (va n : Nat) : meetsWindow 0 va n = false := by simp [meetsWindow]

end Sys2Proof.Machine
end

