-- ==== Sys2Proof/Laws/Fetch.lean ====
section
/-! SUPPORT. Laws of translation and fetch where a core's caches hold what is asked: the answer, and that nothing changes. -/

namespace Sys2Proof.Machine

theorem noteTier_none {leaf : Nat} (h : bits leaf 8 1 = 0) (pa : Nat) : noteTier leaf pa = pure () := by
  simp [noteTier, h]

/-- A translation that the caches give changes nothing. -/
theorem translate_hit {core run ctx : Nat} {u : Use} {va pa : Nat} {t : Tx} (h : t.chip.hit core run ctx u va = some pa) :
    translate core run ctx u va t = .ok (.ok pa, t) := by
  unfold Chip.hit at h
  unfold translate
  simp only [bind_run, getChip_run]
  cases hw : t.chip.window run u va with
  | some r =>
    cases r with
    | ok p =>
      simp only [hw, Option.some.injEq] at h
      simp [h]
    | error k => simp [hw] at h
  | none =>
    simp only [hw] at h
    obtain ⟨e, he, h⟩ := Option.bind_eq_some_iff.mp h
    split at h
    · rename_i hc
      simp only [Bool.and_eq_true, decide_eq_true_eq, Bool.not_eq_true'] at hc
      obtain ⟨⟨h1, h2⟩, h3⟩ := hc
      simp only [Option.some.injEq] at h
      simp only [he, h3, Bool.false_eq_true, if_false, h1, bind_run, noteTier_none h2, pure_run, h]
    · simp at h

/-- A cached byte of code is fetched and nothing changes. -/
theorem fetchByte_hot {core run ctx : Nat} {user : Bool} {va : Nat} {t : Tx} {b : Byte}
    (h : ((t.chip.hit core run ctx (Use.exec user) va).bind fun pa =>
      (mget? (t.chip.core core).icache (pa / 128)).map fun l => l.getD (pa % 128) 0) = some b) :
    fetchByte core run ctx user va t = .ok (.ok b, t) := by
  obtain ⟨pa, h1, h2⟩ := Option.bind_eq_some_iff.mp h
  obtain ⟨l, h3, h4⟩ := Option.map_eq_some_iff.mp h2
  unfold fetchByte
  simp only [bind_run, translate_hit h1, getChip_run, h3, pure_run, h4]

theorem fetchBytes_hot {core run ctx : Nat} {user : Bool} {t : Tx} (f : Nat → Byte) (n va : Nat)
    (h : ∀ k, k < n → fetchByte core run ctx user (va + k) t = .ok (.ok (f k), t)) :
    fetchBytes core run ctx user va n t = .ok (.ok ((List.range n).map f), t) := by
  induction n generalizing va f with
  | zero => rfl
  | succ n ih =>
    unfold fetchBytes
    have h0 := h 0 (by omega)
    rw [Nat.add_zero] at h0
    have h1 := ih (fun k => f (k + 1)) (va + 1) fun k hk => by
      have := h (k + 1) (by omega)
      rw [show va + 1 + k = va + (k + 1) by omega]
      exact this
    simp only [bind_run, h0, h1, pure_run]
    rw [List.range_succ_eq_map]
    simp [Function.comp_def]

/-- Cached code is fetched and nothing changes. -/
theorem State.fetch_hot {s : State} {h : Here} {n : Nat} (hc : s.codeHot h n) :
    fetchBytes h.core h.runId h.ctx h.user h.path.pc.toNat n s.tx = .ok (.ok (s.code h n), s.tx) := by
  refine fetchBytes_hot (fun k => (s.codeByte h k).getD 0) n _ fun k hk => ?_
  obtain ⟨b, hb⟩ := Option.isSome_iff_exists.mp (hc.2 k hk)
  rw [hb]
  exact fetchByte_hot hb

/-- The length code of a frame from cached code. -/
theorem frameIlen_hot {s : State} {h : Here} (hc : s.codeHot h 2) : ∃ n, frameIlen h s.tx = .ok (n, s.tx) := by
  unfold frameIlen
  have hr : s.tx.chip.region h.path.pc = .global := hc.1
  simp only [bind_run, getChip_run, hr, ne_eq, not_true_eq_false, if_false, State.fetch_hot hc]
  exact ⟨_, rfl⟩

/-- Cached code of one byte or more is fetched as an instruction's bytes are, and nothing changes. -/
theorem fetchCode_hot {s : State} {h : Here} {n : Nat} (hn : 0 < n) (hc : s.codeHot h n) :
    fetchCode h.core h.runId h.ctx h.user h.path.pc.toNat n s.tx = .ok (.ok (s.code h n), s.tx) := by
  obtain ⟨b, hb⟩ := Option.isSome_iff_exists.mp (hc.2 (n - 1) (by omega))
  have h1 := fetchByte_hot (t := s.tx) hb
  rw [← Nat.add_sub_assoc hn] at h1
  unfold fetchCode
  simp only [bind_run, h1, State.fetch_hot hc]

/-- The first two bytes of longer code. -/
theorem State.code_take (s : State) (h : Here) {n : Nat} (hn : 2 ≤ n) : (s.code h n).take 2 = s.code h 2 := by
  unfold State.code
  rw [← List.map_take, List.take_range, Nat.min_eq_left hn]

theorem wordLength_two (w : Nat) : 2 ≤ wordLength w := by
  unfold wordLength
  split
  · decide
  · split <;> decide

/-- An instruction that cached code decodes to is fetched and nothing changes. -/
theorem fetchInstr_hot {s : State} {h : Here} {i : Instr} {r : List Byte} (hw : s.noWindow h)
    (hc : s.codeHot h (wordLength (leNat (s.code h 2)))) (h2 : s.codeHot h 2)
    (hd : decode (s.code h (wordLength (leNat (s.code h 2)))) = some (i, r)) : fetchInstr h s.tx = .ok (i, s.tx) := by
  unfold fetchInstr
  have hr : s.tx.chip.region h.path.pc = .global := hc.1
  have hn : 0 < wordLength (leNat (s.code h 2)) := Nat.lt_of_lt_of_le (by decide) (wordLength_two _)
  have hf : frameWindow h.ctx s.tx = .ok (0, s.tx) := frameWindow_none hw rfl rfl rfl rfl rfl
  simp only [bind_run, getChip_run, hr, hf, meetsWindow_zero, Bool.false_eq_true, if_false,
    fetchCode_hot (by decide) h2, pure_run, fetchCode_hot hn hc, State.code_take s h (wordLength_two _), hd]

end Sys2Proof.Machine
end

