-- ==== Sys2Proof/Laws/Group.lean ====
section
/-! SUPPORT. Laws of instructions whose whole effect is on their group and team: how changes compose, and what the state that
ends them holds. -/

namespace Sys2Proof.Machine

/-! ## Changes of one group, composed -/

theorem mset_mset {α : Type} (m : Map α) (k : Nat) (v w : α) : mset (mset m k v) k w = mset m k w := by
  induction m with
  | nil => simp [mset]
  | cons e r ih =>
    obtain ⟨j, x⟩ := e
    by_cases h1 : k < j
    · simp [mset, h1]
    · by_cases h2 : k = j
      · simp [mset, h2]
      · simp [mset, h1, h2, ih]

theorem Chip.modGroup_modGroup (c : Chip) (g : Nat) (f f' : Group → Group) :
    (c.modGroup g f).modGroup g f' = c.modGroup g fun x => f' (f x) := by
  cases hg : c.group? g with
  | none =>
    have h1 : ∀ q : Group → Group, c.modGroup g q = c := fun q => by simp [Chip.modGroup, hg]
    simp only [h1]
  | some x =>
    have h1 : ∀ q : Group → Group, c.modGroup g q = c.setGroup g (q x) := fun q => by simp [Chip.modGroup, hg]
    have h2 : (c.setGroup g (f x)).group? g = some (f x) := by
      simp [Chip.setGroup, Chip.group?, Chip.setSlot, Chip.slot, mgetD]
    simp only [h1]
    rw [Chip.modGroup, h2]
    simp [Chip.setGroup, Chip.setSlot, Chip.slot, mgetD, mset_mset]

theorem Chip.modPath_eq (c : Chip) (g p : Nat) (f : Path → Path) :
    c.modPath g p f = c.modGroup g fun x => { x with paths := mmod x.paths p f } := rfl

/-- A team change and a group change stand in either order. -/
theorem Chip.modTeam_modGroup (c : Chip) (t g : Nat) (f : Team → Team) (f' : Group → Group) :
    (c.modGroup g f').modTeam t f = (c.modTeam t f).modGroup g f' := by
  unfold Chip.modGroup
  rw [Chip.modTeam_group]
  split <;> rfl

/-! ## Instructions that end with a change of their group and team -/

/-- An instruction that may issue and whose body changes only its team and its group. -/
theorem body_next {s : State} {h : Here} {u : Uses} {i : Instr} {n len stall : Nat} {body : Here → Act Unit}
    (hx : exec i s = runZha n (issue len stall u body) s) (hi : s.mayIssue h u) (ft : Team → Team) (fg : Group → Group)
    (hb : ∀ c : Chip, body h { s.tx with chip := c } = .ok ((), { s.tx with chip := (c.modTeam h.tid ft).modGroup h.g fg })) :
    exec i s = .next (s.ended h len stall ft fg) :=
  hx.trans (runZha_next ((issue_next hi len stall body).trans (hb _)))

/-- The team as it is. -/
def sameTeam (t : Team) : Team := { t with fpctl := t.fpctl }

theorem Chip.modTeam_same (c : Chip) (i : Nat) : c.modTeam i sameTeam = c := modTeam_id c i

/-- The same for a body that changes only its group. -/
theorem group_next {s : State} {h : Here} {u : Uses} {i : Instr} {n len stall : Nat} {body : Here → Act Unit}
    (hx : exec i s = runZha n (issue len stall u body) s) (hi : s.mayIssue h u) (fg : Group → Group)
    (hb : ∀ c : Chip, body h { s.tx with chip := c } = .ok ((), { s.tx with chip := c.modGroup h.g fg })) :
    exec i s = .next (s.ended h len stall sameTeam fg) :=
  body_next hx hi sameTeam fg fun c => by rw [hb, Chip.modTeam_same]

theorem State.ended_retired {s : State} {h : Here} (ha : s.acts h) (len stall : Nat) (fg : Group → Group) :
    s.retired (s.ended h len stall sameTeam fg) h 0 := by
  rw [State.retired, State.ended_team ha, (State.acts_eq ha).2.2.1]
  rfl

/-- With nothing still to be read before an instruction, nothing is after it. -/
theorem Here.groupPast_hazards {h : Here} (hz : h.grp.hazards = []) (len stall now : Nat) :
    (h.groupPast len stall now).hazards = [] := by
  simp [Here.groupPast, hz, ageHazards]

/-- The end of an instruction that changes one scalar register and what is not a register. -/
theorem State.ended_scalar {s : State} {h : Here} {i : Instr} {F : Form} {d : Nat} {v : Word} {fg : Group → Group}
    (ha : s.acts h) (hz : h.grp.hazards = []) (hx : exec i s = .next (s.ended h F.len F.stall sameTeam fg))
    (hv : ∀ x, (fg x).v = x.v) (hd : ∀ x : Group, x.hazards = [] → (fg x).sreg d = v)
    (hs : ∀ x r, r ≠ d → (fg x).sreg r = x.sreg r) (hp : ∀ x, (fg x).p = x.p)
    (hq : ∀ x, (fg x).paths = x.paths) : s.scalarGets h i F d v := by
  refine ⟨_, hx, State.ended_path ha _ _ _ _ hq, ?_, ?_, State.ended_retired ha _ _ _⟩
  · simp [State.sreg, State.ended_group ha, hd _ (Here.groupPast_hazards hz F.len F.stall s.clk)]
  · refine State.ended_keeps ha _ _ _ _ hq ?_ ?_ ?_
    · intro x r l _ _
      simp [Group.vreg, hv]
    · intro x r hr
      exact hs x r (by simpa using hr)
    · intro x r _
      simp [Group.preg, hp]

/-- The end of a control transfer: the path at its target, and at most the link pair changed. -/
theorem State.ended_goes {s : State} {h : Here} {i : Instr} {len stall : Nat} {pc link : Addr} {sd : List Nat} {fg : Group → Group}
    (ha : s.acts h) (hz : h.grp.hazards = []) (hx : exec i s = .next (s.ended h len stall sameTeam fg)) (hv : ∀ x, (fg x).v = x.v)
    (hs : ∀ x r, r ∉ sd → (fg x).sreg r = x.sreg r) (hp : ∀ x, (fg x).p = x.p)
    (hq : ∀ x, (fg x).paths = mmod x.paths h.p fun q => { q with pc := pc })
    (hl : sd = [] ∨ sd = [158, 159] ∧ ∀ x : Group, x.hazards = [] → (fg x).sreg 159 ++ (fg x).sreg 158 = link) :
    s.goesTo h i pc stall sd link := by
  obtain ⟨hg, hpath, ht, -⟩ := State.acts_eq ha
  have hE := State.ended_group ha len stall sameTeam fg
  refine ⟨_, hx, ?_, ?_, ?_, State.ended_retired ha _ _ _⟩
  · rw [Chip.path?, hE]
    simp [hq, Here.groupPast, hpath, Here.jumped]
  · rcases hl with h0 | ⟨h0, h1⟩
    · exact .inl h0
    · refine .inr ⟨h0, ?_⟩
      simp [State.spair, State.sreg, hE, h1 _ (Here.groupPast_hazards hz len stall s.clk)]
  · refine ⟨rfl, rfl, rfl, rfl, rfl, ?_, ?_, ?_, ?_, ?_, ?_, ?_⟩
    · simp only [State.ended, State.commit_chip, Chip.modGroup_rest]
      exact Chip.retire_rest s.chip h len stall s.clk _ _
    · intro g hne
      simp only [State.ended, State.commit_chip, Chip.slot_modGroup_other _ _ hne]
      exact Chip.retire_slot_other s.chip h len stall s.clk hne
    · intro j hne
      simp [State.ended, Chip.modTeam, Chip.retire_teams, mget_mmod_other _ _ hne]
    · intro q hne
      rw [Chip.path?, hE, Chip.path?, hg]
      simp [hq, Here.groupPast, mget_mmod_other _ _ hne]
    · intro r l hl' _
      simp only [State.vreg, hE, hg, Option.map_some, Option.getD_some, Group.vreg, hv]
      rfl
    · intro r hr
      simp only [State.sreg, hE, hg, Option.map_some, Option.getD_some, hs _ r hr]
      rfl
    · intro r _
      simp only [State.preg, hE, hg, Option.map_some, Option.getD_some, Group.preg, hp]
      rfl

end Sys2Proof.Machine
end

