-- ==== Sys2Proof/Laws/Mem.lean ====
section
/-! SUPPORT. Laws of memory accesses in a plain state: the checks over lanes, translation, recall, judgement, marks, and reads and
writes at the home. -/

namespace Sys2Proof.Machine

/-! ## Walking lists -/

theorem mapAct_id {α β : Type} {f : α → Act β} {g : α → β} {t : Tx} :
    (xs : List α) → (∀ x ∈ xs, f x t = .ok (g x, t)) → mapAct xs f t = .ok (xs.map g, t)
  | [], _ => rfl
  | x :: r, h => by
    show (f x >>= fun y => mapAct r f >>= fun ys => pure (y :: ys)) t = _
    simp only [bind_run, h x List.mem_cons_self, mapAct_id r fun y hy => h y (List.mem_cons_of_mem _ hy), pure_run, List.map_cons]

theorem distinct_sub {α : Type} [DecidableEq α] {x : α} : {xs : List α} → x ∈ distinct xs → x ∈ xs
  | [], h => by simp [distinct] at h
  | y :: r, h => by
    simp only [distinct, List.mem_cons, List.mem_filter] at h ⊢
    rcases h with h | ⟨h, -⟩
    · exact .inl h
    · exact .inr (distinct_sub h)

/-! ## Checks over lanes (R96, R256) -/

theorem checkLanes_none {ls : List (Nat × Addr)} {bad : Addr → Bool} (h : ∀ l ∈ ls, bad l.2 = false) (cause data : Nat) :
    checkLanes ls bad cause data = pure () := by
  have : ls.find? (fun l => bad l.2) = none := by
    rw [List.find?_eq_none]
    intro l hl
    simp [h l hl]
  simp [checkLanes, this]

/-- The lanes of a plain global access pass every space check. -/
theorem checkSpaces_global {s : State} {h : Here} (hw : s.noWindow h) {t : Tx}
    (hc : t.chip.ctxs = s.chip.ctxs) (hk : t.chip.cores = s.chip.cores) (hi : t.chip.link = s.chip.link) (hb : t.base = s.mem)
    (hl : t.log = []) {ls : List (Nat × Addr)} (hr : ∀ l ∈ ls, t.chip.region l.2 = .global) (u : FormUse) (n : Nat) :
    checkSpaces h u n ls t = .ok ((), t) := by
  unfold checkSpaces
  have h1 : ∀ d, checkLanes ls (fun a => t.chip.region a = .bad) causeAccess d = pure () :=
    fun d => checkLanes_none (fun l hl => by simp [hr l hl]) _ _
  have h2 : ∀ d, checkLanes ls (fun a => inWindow 0 a && !(u.frame && h.path.level ≠ .normal && reachesFrame 0 n a)) causeAccess d =
      pure () := fun d => checkLanes_none (fun l _ => by simp [inWindow]) _ _
  have h3 : ∀ d, checkLanes ls (fun a => t.chip.region a = .opm) causeAccess d = pure () :=
    fun d => checkLanes_none (fun l hl => by simp [hr l hl]) _ _
  have h4 : ∀ d, checkLanes ls (fun a => t.chip.region a = .mailbox) causeAccess d = pure () :=
    fun d => checkLanes_none (fun l hl => by simp [hr l hl]) _ _
  have h5 : ∀ (q : Addr → Bool) d, checkLanes ls (fun a => decide (t.chip.region a = .opm) && q a) causeAccess d = pure () :=
    fun q d => checkLanes_none (fun l hl => by simp [hr l hl]) _ _
  simp only [bind_run, getChip_run, frameWindow_none hw hc hk hi hb hl, h1, h2, h3, h4, h5, pure_run, ite_self, ite_run]

theorem checkAlign_ok {n : Nat} {ls : List (Nat × Addr)} (h : ∀ l ∈ ls, l.2.toNat % n = 0) : checkAlign n ls = pure () :=
  checkLanes_none (fun l hl => by simp [h l hl]) _ _

/-- A translation that the caches give is one that needs no walk. -/
theorem Chip.hit_cached {c : Chip} {core run ctx : Nat} {u : Use} {va pa : Nat} (h : c.hit core run ctx u va = some pa) :
    c.cached core run ctx u va = true := by
  unfold Chip.hit at h
  unfold Chip.cached
  cases hw : c.window run u va with
  | some r => simp
  | none =>
    simp only [hw] at h
    obtain ⟨e, he, h⟩ := Option.bind_eq_some_iff.mp h
    split at h
    · rename_i hc
      simp only [Bool.and_eq_true] at hc
      simp [he, hc.2]
    · simp at h

/-- Lanes that the caches translate bind to physical memory, and nothing changes. -/
theorem bindLanes_global {s : State} {h : Here} (hw : s.noWindow h) {t : Tx}
    (hc : t.chip.ctxs = s.chip.ctxs) (hk : t.chip.cores = s.chip.cores) (hi : t.chip.link = s.chip.link) (hb : t.base = s.mem)
    (hl : t.log = []) (u : Use) (late : Bool) (n : Nat) (pa : Nat → Nat) : (ls : List (Nat × Addr)) →
    (∀ l ∈ ls, t.chip.region l.2 = .global ∧ t.chip.hit h.core h.runId h.ctx u l.2.toNat = some (pa l.1)) →
    bindLanes h u late n ls t = .ok (placedLanes ls pa, t)
  | [], _ => rfl
  | (i, a) :: r, hs => by
    obtain ⟨h1, h2⟩ := hs (i, a) List.mem_cons_self
    have ih := bindLanes_global hw hc hk hi hb hl u late n pa r fun l hl => hs l (List.mem_cons_of_mem _ hl)
    have hf : reachesFrame 0 n a = false := by simp [reachesFrame, inWindow]
    unfold bindLanes
    simp only [bind_run, getChip_run, frameWindow_none hw hc hk hi hb hl, hf, Bool.false_eq_true, if_false, h1, Chip.hit_cached h2,
      Bool.not_true, Bool.and_false, translate_hit h2, pure_run, ih]
    rfl

/-! ## Recall and judgement (R117, R163) -/

/-- With the race mode OFF every access is judged ORDERED, and nothing changes (R163). -/
theorem judgeAll_off {a : Access} (ha : a.who.mode = 0) {t : Tx} (h : ∀ e ∈ t.chip.cores, e.2.partials = []) (gs : GranLanes) :
    judgeAll a gs t = .ok ((distinct (gs.map Prod.snd)).map fun g => (g, ⟨0, false, 0, 0⟩,
      (gs.filter fun x => x.2 = g).foldl (fun n x => n ||| 2 ^ x.1) 0), t) := by
  unfold judgeAll
  refine mapAct_id _ fun g _ => ?_
  have hj : judge a g t = .ok (⟨0, false, 0, 0⟩, t) := by simp [judge, ha]
  by_cases hk : (a.kind ≠ 5 && g.core.isNone) = true
  · simp only [bind_run, hk, if_true, recallLine_none h, hj, pure_run]
  · simp only [bind_run, hk, if_false, pure_run, hj, Bool.false_eq_true]

theorem verdictRecs_off (a : Access) (gs : List Gran) (f : Gran → Nat) :
    verdictRecs a (gs.map fun g => (g, ⟨0, false, 0, 0⟩, f g)) = [] := by
  unfold verdictRecs
  rw [List.filter_eq_nil_iff.mpr]
  · rfl
  · intro v hv
    obtain ⟨g, -, rfl⟩ := List.mem_map.mp hv
    simp

theorem raceTrap_off {a : Access} (ha : a.who.mode = 0) (gs : GranLanes) (vs : List (Gran × Verdict × Nat)) : raceTrap a gs vs = none := by
  simp [raceTrap, ha]

theorem checkAccess_off {a : Access} (ha : a.who.mode = 0) {t : Tx} (h : ∀ e ∈ t.chip.cores, e.2.partials = []) (gs : GranLanes) :
    checkAccess a gs t = .ok ((), t) := by
  unfold checkAccess
  simp only [bind_run, judgeAll_off ha h gs, raceTrap_off ha, verdictRecs_off, each_nil, pure_run]

/-! ## Marks -/

theorem markOf_run {t : Tx} (gran : Nat) : ∃ m, markOf gran t = .ok (m, t) := by
  unfold markOf
  simp only [bind_run, getChip_run]
  cases mget? t.chip.marks gran with
  | some m => exact ⟨m, rfl⟩
  | none =>
    unfold summaryOf
    simp only [bind_run, getChip_run]
    cases t.chip.summaryAt (gran / 128) with
    | none => exact ⟨_, rfl⟩
    | some a => exact ⟨_, rfl⟩

/-- Reads of global granules change marks of those granules and nothing else. -/
theorem markReads_run (a : Access) : (gs : List Gran) → (hg : ∀ g ∈ gs, g.core = none) → (t : Tx) →
    ∃ marks, each gs (markRead a) t = .ok ((), { t with chip := { t.chip with marks := marks } }) ∧
      agreesBut marks t.chip.marks (gs.map Gran.idx)
  | [], _, t => ⟨t.chip.marks, rfl, fun _ _ => rfl⟩
  | g :: r, hg, t => by
    obtain ⟨m, hm⟩ := markOf_run (t := t) g.idx
    have hn := hg g List.mem_cons_self
    have hgm : granMark g t = .ok (m, t) := by simp [granMark, hn, hm]
    obtain ⟨M, hM⟩ : ∃ M, M = mset t.chip.marks g.idx (readMark (t.chip.leOf a.who) a.who (if a.sync then a.scope else 0) m) := ⟨_, rfl⟩
    obtain ⟨marks, h1, h2⟩ := markReads_run a r (fun x hx => hg x (List.mem_cons_of_mem _ hx)) { t with chip := { t.chip with marks := M } }
    refine ⟨marks, ?_, ?_⟩
    · rw [each_cons, bind_run]
      have : markRead a g t = .ok ((), { t with chip := { t.chip with marks := M } }) := by
        unfold markRead
        simp only [bind_run, getChip_run, hgm, setGranMark, hn, setMark, modChip_run, hM]
      rw [this]
      exact h1
    · intro k hk
      simp only [List.map_cons, List.mem_cons, not_or] at hk
      rw [h2 k hk.2]
      simp [hM, mget_mset, hk.1]

end Sys2Proof.Machine
end

