-- ==== Sys2Proof/Laws/PerInstr.lean ====
section
/-! SUPPORT. Statements made per instruction: every instruction's words fit in the bytes that its encoding gives it. -/

set_option Elab.async false

namespace Sys2Proof

theorem Enc.compact_lt {op : Nat} (h0 : op < 16) (f : CompactF) : Enc.compact op f < 2 ^ (8 * 2) := by
  simp only [Enc.compact]
  omega
theorem Enc.trio_lt {major : Nat} (h0 : major < 64) (f : TrioF) : Enc.trio major f < 2 ^ (8 * 4) := by
  simp only [Enc.trio, Enc.base]
  omega
theorem Enc.duoi_lt {major : Nat} (h0 : major < 64) (f : DuoiF) : Enc.duoi major f < 2 ^ (8 * 4) := by
  simp only [Enc.duoi, Enc.base]
  omega
theorem Enc.movi_lt (f : MoviF) : Enc.movi f < 2 ^ (8 * 4) := by
  simp only [Enc.movi, Enc.base]
  omega
theorem Enc.ss_lt {minor : Nat} (h0 : minor < 64) (f : SsF) : Enc.ss minor f < 2 ^ (8 * 4) := by
  simp only [Enc.ss, Enc.base]
  omega
theorem Enc.si_lt (f : SiF) : Enc.si f < 2 ^ (8 * 4) := by
  simp only [Enc.si, Enc.base]
  omega
theorem Enc.br_lt {major : Nat} (h0 : major < 64) (f : BrF) : Enc.br major f < 2 ^ (8 * 4) := by
  simp only [Enc.br, Enc.base]
  omega
theorem Enc.bp_lt (f : BpF) : Enc.bp f < 2 ^ (8 * 4) := by
  simp only [Enc.bp, Enc.base]
  omega
theorem Enc.mem_lt {major : Nat} (h0 : major < 64) (f : MemF) : Enc.mem major f < 2 ^ (8 * 4) := by
  simp only [Enc.mem, Enc.base]
  omega
theorem Enc.gmov_lt (f : GmovF) : Enc.gmov f < 2 ^ (8 * 4) := by
  simp only [Enc.gmov, Enc.base]
  omega
theorem Enc.stallF_lt (f : StallF) : Enc.stallF f < 2 ^ (8 * 4) := by
  simp only [Enc.stallF, Enc.base]
  omega
theorem Enc.x_lt {major : Nat} (h0 : major < 64) {minor : Nat} (h1 : minor < 256) (f : XF) : Enc.x major minor f < 2 ^ (8 * 8) := by
  simp only [Enc.x, Enc.xb, Enc.base]
  omega
theorem Enc.scalar_lt {minor : Nat} (h0 : minor < 256) (f : ScalarF) : Enc.scalar minor f < 2 ^ (8 * 8) := by
  simp only [Enc.scalar, Enc.xb, Enc.base]
  omega
theorem Enc.brX_lt (f : BrXF) : Enc.brX f < 2 ^ (8 * 8) := by
  simp only [Enc.brX, Enc.xb, Enc.base]
  omega
theorem Enc.jmp_lt {minor : Nat} (h0 : minor < 256) (f : JmpF) : Enc.jmp minor f < 2 ^ (8 * 8) := by
  simp only [Enc.jmp, Enc.xb, Enc.base]
  omega
theorem Enc.srd_lt (f : SrdF) : Enc.srd f < 2 ^ (8 * 8) := by
  simp only [Enc.srd, Enc.xb, Enc.base]
  omega
theorem Enc.swr_lt (f : SwrF) : Enc.swr f < 2 ^ (8 * 8) := by
  simp only [Enc.swr, Enc.xb, Enc.base]
  omega
theorem Enc.memX_lt {minor : Nat} (h0 : minor < 256) (f : MemXF) : Enc.memX minor f < 2 ^ (8 * 8) := by
  simp only [Enc.memX, Enc.xb, Enc.base]
  omega
theorem Enc.atom_lt (f : AtomF) : Enc.atom f < 2 ^ (8 * 8) := by
  simp only [Enc.atom, Enc.xb, Enc.base]
  omega
theorem Enc.mred_lt (f : MredF) : Enc.mred f < 2 ^ (8 * 8) := by
  simp only [Enc.mred, Enc.xb, Enc.base]
  omega
theorem Enc.range_lt {minor : Nat} (h0 : minor < 256) (f : RangeF) : Enc.range minor f < 2 ^ (8 * 8) := by
  simp only [Enc.range, Enc.xb, Enc.base]
  omega
theorem Enc.fence_lt {minor : Nat} (h0 : minor < 256) (f : FenceF) : Enc.fence minor f < 2 ^ (8 * 8) := by
  simp only [Enc.fence, Enc.xb, Enc.base]
  omega
theorem Enc.bar_lt (f : BarF) : Enc.bar f < 2 ^ (8 * 8) := by
  simp only [Enc.bar, Enc.xb, Enc.base]
  omega
theorem Enc.monw_lt (f : MonwF) : Enc.monw f < 2 ^ (8 * 8) := by
  simp only [Enc.monw, Enc.xb, Enc.base]
  omega
theorem Enc.yield_lt (f : YieldF) : Enc.yield f < 2 ^ (8 * 8) := by
  simp only [Enc.yield, Enc.xb, Enc.base]
  omega
theorem Enc.edge_lt {minor : Nat} (h0 : minor < 256) (f : EdgeF) : Enc.edge minor f < 2 ^ (8 * 8) := by
  simp only [Enc.edge, Enc.xb, Enc.base]
  omega
theorem Enc.copy_lt (f : CopyF) : Enc.copy f < 2 ^ (8 * 8) := by
  simp only [Enc.copy, Enc.xb, Enc.base]
  omega
theorem Enc.obj_lt {minor : Nat} (h0 : minor < 256) (f : ObjF) : Enc.obj minor f < 2 ^ (8 * 8) := by
  simp only [Enc.obj, Enc.xb, Enc.base]
  omega
theorem Enc.lease_lt (f : LeaseF) : Enc.lease f < 2 ^ (8 * 8) := by
  simp only [Enc.lease, Enc.xb, Enc.base]
  omega
theorem Enc.lrel_lt (f : LrelF) : Enc.lrel f < 2 ^ (8 * 8) := by
  simp only [Enc.lrel, Enc.xb, Enc.base]
  omega
theorem Enc.scalarPair_lt {major : Nat} (h0 : major < 64) {minor : Nat} (h1 : minor < 256) (f : ScalarPairF) : Enc.scalarPair major minor f < 2 ^ (8 * 8) := by
  simp only [Enc.scalarPair, Enc.xb, Enc.base]
  omega
theorem Enc.eng_lt (f : EngF) : Enc.eng f < 2 ^ (8 * 8) := by
  simp only [Enc.eng, Enc.xb, Enc.base]
  omega
theorem Enc.mat_lt {minor : Nat} (h0 : minor < 256) (f : MatF) : Enc.mat minor f < 2 ^ (8 * 8) := by
  simp only [Enc.mat, Enc.xb, Enc.base]
  omega
theorem Enc.tile_lt {minor : Nat} (h0 : minor < 256) (f : TileF) : Enc.tile minor f < 2 ^ (8 * 8) := by
  simp only [Enc.tile, Enc.xb, Enc.base]
  omega
theorem Enc.code_lt {minor : Nat} (h0 : minor < 256) (f : CodeF) : Enc.code minor f < 2 ^ (8 * 8) := by
  simp only [Enc.code, Enc.xb, Enc.base]
  omega
theorem Enc.guardF_lt {minor : Nat} (h0 : minor < 256) (f : GuardF) : Enc.guardF minor f < 2 ^ (8 * 8) := by
  simp only [Enc.guardF, Enc.xb, Enc.base]
  omega
theorem Enc.regset_lt (f : RegsetF) : Enc.regset f < 2 ^ (8 * 8) := by
  simp only [Enc.regset, Enc.xb, Enc.base]
  omega
theorem Enc.rchk_lt (f : RchkF) : Enc.rchk f < 2 ^ (8 * 8) := by
  simp only [Enc.rchk, Enc.xb, Enc.base]
  omega
theorem Enc.enq_lt (f : EnqF) : Enc.enq f < 2 ^ (8 * 8) := by
  simp only [Enc.enq, Enc.xb, Enc.base]
  omega
theorem Enc.relaunch_lt (f : RelaunchF) : Enc.relaunch f < 2 ^ (8 * 8) := by
  simp only [Enc.relaunch, Enc.xb, Enc.base]
  omega
theorem Enc.belino_lt {op : Nat} (h0 : op < 256) (f : BelinoF) : Enc.belino op f < 2 ^ (8 * 4) := by
  simp only [Enc.belino]
  omega
theorem Enc.cmd_lt {op : Nat} (h0 : op < 256) {sub : Nat} (h1 : sub < 256) (c : Cmd) : Enc.cmd op sub c < 2 ^ (8 * 56) := by
  simp only [Enc.cmd]
  omega

namespace Laws.Fits

/-- The word of a well-formed instruction is below 2 to the bits of the bytes that its encoding gives it, 8 for an unassigned one. -/
def Statement (i : Instr) : Prop :=
  i.wf = true → ∀ n w, i.enc = some (n, w) → w < 2 ^ (8 * n) ∨ w < 2 ^ 64 ∧ ∃ f, i = .unassignedEncoding f

theorem ofEnc {i : Instr} {n w : Nat} (h : i.enc = some (n, w)) (hw : w < 2 ^ (8 * n)) : Statement i := by
  intro _ m v hv
  rw [h] at hv
  cases hv
  exact .inl hw

theorem ofNone {i : Instr} (h : i.enc = none) : Statement i := by
  intro _ m v hv
  rw [h] at hv
  cases hv

theorem movCompact (f : CompactF) : Statement (.movCompact f) := ofEnc rfl (Enc.compact_lt (by omega) _)
theorem addCompact (f : CompactF) : Statement (.addCompact f) := ofEnc rfl (Enc.compact_lt (by omega) _)
theorem subCompact (f : CompactF) : Statement (.subCompact f) := ofEnc rfl (Enc.compact_lt (by omega) _)
theorem mulCompact (f : CompactF) : Statement (.mulCompact f) := ofEnc rfl (Enc.compact_lt (by omega) _)
theorem andCompact (f : CompactF) : Statement (.andCompact f) := ofEnc rfl (Enc.compact_lt (by omega) _)
theorem orCompact (f : CompactF) : Statement (.orCompact f) := ofEnc rfl (Enc.compact_lt (by omega) _)
theorem xorCompact (f : CompactF) : Statement (.xorCompact f) := ofEnc rfl (Enc.compact_lt (by omega) _)
theorem notCompact (f : CompactF) : Statement (.notCompact f) := ofEnc rfl (Enc.compact_lt (by omega) _)
theorem shlCompact (f : CompactF) : Statement (.shlCompact f) := ofEnc rfl (Enc.compact_lt (by omega) _)
theorem shrCompact (f : CompactF) : Statement (.shrCompact f) := ofEnc rfl (Enc.compact_lt (by omega) _)
theorem minCompact (f : CompactF) : Statement (.minCompact f) := ofEnc rfl (Enc.compact_lt (by omega) _)
theorem maxCompact (f : CompactF) : Statement (.maxCompact f) := ofEnc rfl (Enc.compact_lt (by omega) _)
theorem absCompact (f : CompactF) : Statement (.absCompact f) := ofEnc rfl (Enc.compact_lt (by omega) _)
theorem negCompact (f : CompactF) : Statement (.negCompact f) := ofEnc rfl (Enc.compact_lt (by omega) _)
theorem popcCompact (f : CompactF) : Statement (.popcCompact f) := ofEnc rfl (Enc.compact_lt (by omega) _)
theorem selCompact (f : CompactF) : Statement (.selCompact f) := ofEnc rfl (Enc.compact_lt (by omega) _)
theorem stall (f : StallF) : Statement (.stall f) := ofEnc rfl (Enc.stallF_lt  _)
theorem addBase (f : TrioF) : Statement (.addBase f) := ofEnc rfl (Enc.trio_lt (by omega) _)
theorem subBase (f : TrioF) : Statement (.subBase f) := ofEnc rfl (Enc.trio_lt (by omega) _)
theorem mulBase (f : TrioF) : Statement (.mulBase f) := ofEnc rfl (Enc.trio_lt (by omega) _)
theorem fmaBase (f : TrioF) : Statement (.fmaBase f) := ofEnc rfl (Enc.trio_lt (by omega) _)
theorem minBase (f : TrioF) : Statement (.minBase f) := ofEnc rfl (Enc.trio_lt (by omega) _)
theorem maxBase (f : TrioF) : Statement (.maxBase f) := ofEnc rfl (Enc.trio_lt (by omega) _)
theorem andBase (f : TrioF) : Statement (.andBase f) := ofEnc rfl (Enc.trio_lt (by omega) _)
theorem orBase (f : TrioF) : Statement (.orBase f) := ofEnc rfl (Enc.trio_lt (by omega) _)
theorem xorBase (f : TrioF) : Statement (.xorBase f) := ofEnc rfl (Enc.trio_lt (by omega) _)
theorem shlBase (f : TrioF) : Statement (.shlBase f) := ofEnc rfl (Enc.trio_lt (by omega) _)
theorem shrBase (f : TrioF) : Statement (.shrBase f) := ofEnc rfl (Enc.trio_lt (by omega) _)
theorem selBase (f : TrioF) : Statement (.selBase f) := ofEnc rfl (Enc.trio_lt (by omega) _)
theorem addi (f : DuoiF) : Statement (.addi f) := ofEnc rfl (Enc.duoi_lt (by omega) _)
theorem andi (f : DuoiF) : Statement (.andi f) := ofEnc rfl (Enc.duoi_lt (by omega) _)
theorem ori (f : DuoiF) : Statement (.ori f) := ofEnc rfl (Enc.duoi_lt (by omega) _)
theorem shli (f : DuoiF) : Statement (.shli f) := ofEnc rfl (Enc.duoi_lt (by omega) _)
theorem shri (f : DuoiF) : Statement (.shri f) := ofEnc rfl (Enc.duoi_lt (by omega) _)
theorem moviBase (f : MoviF) : Statement (.moviBase f) := ofEnc rfl (Enc.movi_lt  _)
theorem addSalu (f : SsF) : Statement (.addSalu f) := ofEnc rfl (Enc.ss_lt (by omega) _)
theorem subSalu (f : SsF) : Statement (.subSalu f) := ofEnc rfl (Enc.ss_lt (by omega) _)
theorem mulSalu (f : SsF) : Statement (.mulSalu f) := ofEnc rfl (Enc.ss_lt (by omega) _)
theorem andSalu (f : SsF) : Statement (.andSalu f) := ofEnc rfl (Enc.ss_lt (by omega) _)
theorem orSalu (f : SsF) : Statement (.orSalu f) := ofEnc rfl (Enc.ss_lt (by omega) _)
theorem xorSalu (f : SsF) : Statement (.xorSalu f) := ofEnc rfl (Enc.ss_lt (by omega) _)
theorem shlSalu (f : SsF) : Statement (.shlSalu f) := ofEnc rfl (Enc.ss_lt (by omega) _)
theorem shrSalu (f : SsF) : Statement (.shrSalu f) := ofEnc rfl (Enc.ss_lt (by omega) _)
theorem sraSalu (f : SsF) : Statement (.sraSalu f) := ofEnc rfl (Enc.ss_lt (by omega) _)
theorem minSalu (f : SsF) : Statement (.minSalu f) := ofEnc rfl (Enc.ss_lt (by omega) _)
theorem maxSalu (f : SsF) : Statement (.maxSalu f) := ofEnc rfl (Enc.ss_lt (by omega) _)
theorem movSalu (f : SsF) : Statement (.movSalu f) := ofEnc rfl (Enc.ss_lt (by omega) _)
theorem notSalu (f : SsF) : Statement (.notSalu f) := ofEnc rfl (Enc.ss_lt (by omega) _)
theorem negSalu (f : SsF) : Statement (.negSalu f) := ofEnc rfl (Enc.ss_lt (by omega) _)
theorem mulhiSalu (f : SsF) : Statement (.mulhiSalu f) := ofEnc rfl (Enc.ss_lt (by omega) _)
theorem clzSalu (f : SsF) : Statement (.clzSalu f) := ofEnc rfl (Enc.ss_lt (by omega) _)
theorem popcSalu (f : SsF) : Statement (.popcSalu f) := ofEnc rfl (Enc.ss_lt (by omega) _)
theorem sli (f : SiF) : Statement (.sli f) := ofEnc rfl (Enc.si_lt  _)
theorem bra (f : BrF) : Statement (.bra f) := ofEnc rfl (Enc.br_lt (by omega) _)
theorem call (f : BrF) : Statement (.call f) := ofEnc rfl (Enc.br_lt (by omega) _)
theorem brp (f : BpF) : Statement (.brp f) := ofEnc rfl (Enc.bp_lt  _)
theorem ldBase (f : MemF) : Statement (.ldBase f) := ofEnc rfl (Enc.mem_lt (by omega) _)
theorem stBase (f : MemF) : Statement (.stBase f) := ofEnc rfl (Enc.mem_lt (by omega) _)
theorem ldsBase (f : MemF) : Statement (.ldsBase f) := ofEnc rfl (Enc.mem_lt (by omega) _)
theorem stsBase (f : MemF) : Statement (.stsBase f) := ofEnc rfl (Enc.mem_lt (by omega) _)
theorem sldBase (f : MemF) : Statement (.sldBase f) := ofEnc rfl (Enc.mem_lt (by omega) _)
theorem dotBase (f : TrioF) : Statement (.dotBase f) := ofEnc rfl (Enc.trio_lt (by omega) _)
theorem movGeneral (f : GmovF) : Statement (.movGeneral f) := ofEnc rfl (Enc.gmov_lt  _)
theorem unassignedEncoding (f : UnassignedF) : Statement (.unassignedEncoding f) := by
  intro _ n w h
  cases h
  exact .inr ⟨by omega, f, rfl⟩
theorem addX (f : XF) : Statement (.addX f) := ofEnc rfl (Enc.x_lt (by omega) (by omega) _)
theorem subX (f : XF) : Statement (.subX f) := ofEnc rfl (Enc.x_lt (by omega) (by omega) _)
theorem mulX (f : XF) : Statement (.mulX f) := ofEnc rfl (Enc.x_lt (by omega) (by omega) _)
theorem mulhiX (f : XF) : Statement (.mulhiX f) := ofEnc rfl (Enc.x_lt (by omega) (by omega) _)
theorem fmaX (f : XF) : Statement (.fmaX f) := ofEnc rfl (Enc.x_lt (by omega) (by omega) _)
theorem minX (f : XF) : Statement (.minX f) := ofEnc rfl (Enc.x_lt (by omega) (by omega) _)
theorem maxX (f : XF) : Statement (.maxX f) := ofEnc rfl (Enc.x_lt (by omega) (by omega) _)
theorem absX (f : XF) : Statement (.absX f) := ofEnc rfl (Enc.x_lt (by omega) (by omega) _)
theorem negX (f : XF) : Statement (.negX f) := ofEnc rfl (Enc.x_lt (by omega) (by omega) _)
theorem andX (f : XF) : Statement (.andX f) := ofEnc rfl (Enc.x_lt (by omega) (by omega) _)
theorem orX (f : XF) : Statement (.orX f) := ofEnc rfl (Enc.x_lt (by omega) (by omega) _)
theorem xorX (f : XF) : Statement (.xorX f) := ofEnc rfl (Enc.x_lt (by omega) (by omega) _)
theorem notX (f : XF) : Statement (.notX f) := ofEnc rfl (Enc.x_lt (by omega) (by omega) _)
theorem shlX (f : XF) : Statement (.shlX f) := ofEnc rfl (Enc.x_lt (by omega) (by omega) _)
theorem shrX (f : XF) : Statement (.shrX f) := ofEnc rfl (Enc.x_lt (by omega) (by omega) _)
theorem selX (f : XF) : Statement (.selX f) := ofEnc rfl (Enc.x_lt (by omega) (by omega) _)
theorem movX (f : XF) : Statement (.movX f) := ofEnc rfl (Enc.x_lt (by omega) (by omega) _)
theorem moviX (f : XF) : Statement (.moviX f) := ofEnc rfl (Enc.x_lt (by omega) (by omega) _)
theorem dotX (f : XF) : Statement (.dotX f) := ofEnc rfl (Enc.x_lt (by omega) (by omega) _)
theorem acs (f : XF) : Statement (.acs f) := ofEnc rfl (Enc.x_lt (by omega) (by omega) _)
theorem popcX (f : XF) : Statement (.popcX f) := ofEnc rfl (Enc.x_lt (by omega) (by omega) _)
theorem clzX (f : XF) : Statement (.clzX f) := ofEnc rfl (Enc.x_lt (by omega) (by omega) _)
theorem brev (f : XF) : Statement (.brev f) := ofEnc rfl (Enc.x_lt (by omega) (by omega) _)
theorem bfe (f : XF) : Statement (.bfe f) := ofEnc rfl (Enc.x_lt (by omega) (by omega) _)
theorem bfi (f : XF) : Statement (.bfi f) := ofEnc rfl (Enc.x_lt (by omega) (by omega) _)
theorem cmp (f : XF) : Statement (.cmp f) := ofEnc rfl (Enc.x_lt (by omega) (by omega) _)
theorem plop (f : XF) : Statement (.plop f) := ofEnc rfl (Enc.x_lt (by omega) (by omega) _)
theorem pmov (f : XF) : Statement (.pmov f) := ofEnc rfl (Enc.x_lt (by omega) (by omega) _)
theorem vote (f : XF) : Statement (.vote f) := ofEnc rfl (Enc.x_lt (by omega) (by omega) _)
theorem shfl (f : XF) : Statement (.shfl f) := ofEnc rfl (Enc.x_lt (by omega) (by omega) _)
theorem xred (f : XF) : Statement (.xred f) := ofEnc rfl (Enc.x_lt (by omega) (by omega) _)
theorem lget (f : XF) : Statement (.lget f) := ofEnc rfl (Enc.x_lt (by omega) (by omega) _)
theorem lput (f : XF) : Statement (.lput f) := ofEnc rfl (Enc.x_lt (by omega) (by omega) _)
theorem pack (f : XF) : Statement (.pack f) := ofEnc rfl (Enc.x_lt (by omega) (by omega) _)
theorem unpack (f : XF) : Statement (.unpack f) := ofEnc rfl (Enc.x_lt (by omega) (by omega) _)
theorem cvt (f : XF) : Statement (.cvt f) := ofEnc rfl (Enc.x_lt (by omega) (by omega) _)
theorem retag (f : XF) : Statement (.retag f) := ofEnc rfl (Enc.x_lt (by omega) (by omega) _)
theorem rcp (f : XF) : Statement (.rcp f) := ofEnc rfl (Enc.x_lt (by omega) (by omega) _)
theorem rsq (f : XF) : Statement (.rsq f) := ofEnc rfl (Enc.x_lt (by omega) (by omega) _)
theorem exp2 (f : XF) : Statement (.exp2 f) := ofEnc rfl (Enc.x_lt (by omega) (by omega) _)
theorem log2 (f : XF) : Statement (.log2 f) := ofEnc rfl (Enc.x_lt (by omega) (by omega) _)
theorem sin (f : XF) : Statement (.sin f) := ofEnc rfl (Enc.x_lt (by omega) (by omega) _)
theorem cos (f : XF) : Statement (.cos f) := ofEnc rfl (Enc.x_lt (by omega) (by omega) _)
theorem addXscalar (f : ScalarF) : Statement (.addXscalar f) := ofEnc rfl (Enc.scalar_lt (by omega) _)
theorem subXscalar (f : ScalarF) : Statement (.subXscalar f) := ofEnc rfl (Enc.scalar_lt (by omega) _)
theorem mulXscalar (f : ScalarF) : Statement (.mulXscalar f) := ofEnc rfl (Enc.scalar_lt (by omega) _)
theorem andXscalar (f : ScalarF) : Statement (.andXscalar f) := ofEnc rfl (Enc.scalar_lt (by omega) _)
theorem orXscalar (f : ScalarF) : Statement (.orXscalar f) := ofEnc rfl (Enc.scalar_lt (by omega) _)
theorem xorXscalar (f : ScalarF) : Statement (.xorXscalar f) := ofEnc rfl (Enc.scalar_lt (by omega) _)
theorem shlXscalar (f : ScalarF) : Statement (.shlXscalar f) := ofEnc rfl (Enc.scalar_lt (by omega) _)
theorem shrXscalar (f : ScalarF) : Statement (.shrXscalar f) := ofEnc rfl (Enc.scalar_lt (by omega) _)
theorem sraXscalar (f : ScalarF) : Statement (.sraXscalar f) := ofEnc rfl (Enc.scalar_lt (by omega) _)
theorem minXscalar (f : ScalarF) : Statement (.minXscalar f) := ofEnc rfl (Enc.scalar_lt (by omega) _)
theorem maxXscalar (f : ScalarF) : Statement (.maxXscalar f) := ofEnc rfl (Enc.scalar_lt (by omega) _)
theorem movXscalar (f : ScalarF) : Statement (.movXscalar f) := ofEnc rfl (Enc.scalar_lt (by omega) _)
theorem notXscalar (f : ScalarF) : Statement (.notXscalar f) := ofEnc rfl (Enc.scalar_lt (by omega) _)
theorem negXscalar (f : ScalarF) : Statement (.negXscalar f) := ofEnc rfl (Enc.scalar_lt (by omega) _)
theorem mulhiXscalar (f : ScalarF) : Statement (.mulhiXscalar f) := ofEnc rfl (Enc.scalar_lt (by omega) _)
theorem clzXscalar (f : ScalarF) : Statement (.clzXscalar f) := ofEnc rfl (Enc.scalar_lt (by omega) _)
theorem popcXscalar (f : ScalarF) : Statement (.popcXscalar f) := ofEnc rfl (Enc.scalar_lt (by omega) _)
theorem br (f : BrXF) : Statement (.br f) := ofEnc rfl (Enc.brX_lt  _)
theorem jmp (f : JmpF) : Statement (.jmp f) := ofEnc rfl (Enc.jmp_lt (by omega) _)
theorem ret (f : JmpF) : Statement (.ret f) := ofEnc rfl (Enc.jmp_lt (by omega) _)
theorem srd (f : SrdF) : Statement (.srd f) := ofEnc rfl (Enc.srd_lt  _)
theorem swr (f : SwrF) : Statement (.swr f) := ofEnc rfl (Enc.swr_lt  _)
theorem ld (f : MemXF) : Statement (.ld f) := ofEnc rfl (Enc.memX_lt (by omega) _)
theorem st (f : MemXF) : Statement (.st f) := ofEnc rfl (Enc.memX_lt (by omega) _)
theorem lds (f : MemXF) : Statement (.lds f) := ofEnc rfl (Enc.memX_lt (by omega) _)
theorem sts (f : MemXF) : Statement (.sts f) := ofEnc rfl (Enc.memX_lt (by omega) _)
theorem sld (f : MemXF) : Statement (.sld f) := ofEnc rfl (Enc.memX_lt (by omega) _)
theorem atom (f : AtomF) : Statement (.atom f) := ofEnc rfl (Enc.atom_lt  _)
theorem mred (f : MredF) : Statement (.mred f) := ofEnc rfl (Enc.mred_lt  _)
theorem pf (f : RangeF) : Statement (.pf f) := ofEnc rfl (Enc.range_lt (by omega) _)
theorem cctl (f : RangeF) : Statement (.cctl f) := ofEnc rfl (Enc.range_lt (by omega) _)
theorem icinv (f : RangeF) : Statement (.icinv f) := ofEnc rfl (Enc.range_lt (by omega) _)
theorem fe (f : RangeF) : Statement (.fe f) := ofEnc rfl (Enc.range_lt (by omega) _)
theorem fence (f : FenceF) : Statement (.fence f) := ofEnc rfl (Enc.fence_lt (by omega) _)
theorem fbeg (f : FenceF) : Statement (.fbeg f) := ofEnc rfl (Enc.fence_lt (by omega) _)
theorem fwait (f : FenceF) : Statement (.fwait f) := ofEnc rfl (Enc.fence_lt (by omega) _)
theorem bar (f : BarF) : Statement (.bar f) := ofEnc rfl (Enc.bar_lt  _)
theorem monw (f : MonwF) : Statement (.monw f) := ofEnc rfl (Enc.monw_lt  _)
theorem yield (f : YieldF) : Statement (.yield f) := ofEnc rfl (Enc.yield_lt  _)
theorem epush (f : EdgeF) : Statement (.epush f) := ofEnc rfl (Enc.edge_lt (by omega) _)
theorem epop (f : EdgeF) : Statement (.epop f) := ofEnc rfl (Enc.edge_lt (by omega) _)
theorem copy (f : CopyF) : Statement (.copy f) := ofEnc rfl (Enc.copy_lt  _)
theorem cobj (f : ObjF) : Statement (.cobj f) := ofEnc rfl (Enc.obj_lt (by omega) _)
theorem cpwait (f : ObjF) : Statement (.cpwait f) := ofEnc rfl (Enc.obj_lt (by omega) _)
theorem lease (f : LeaseF) : Statement (.lease f) := ofEnc rfl (Enc.lease_lt  _)
theorem lrel (f : LrelF) : Statement (.lrel f) := ofEnc rfl (Enc.lrel_lt  _)
theorem lstat (f : ScalarPairF) : Statement (.lstat f) := ofEnc rfl (Enc.scalarPair_lt (by omega) (by omega) _)
theorem eng (f : EngF) : Statement (.eng f) := ofEnc rfl (Enc.eng_lt  _)
theorem ewait (f : ScalarPairF) : Statement (.ewait f) := ofEnc rfl (Enc.scalarPair_lt (by omega) (by omega) _)
theorem bld (f : MatF) : Statement (.bld f) := ofEnc rfl (Enc.mat_lt (by omega) _)
theorem mma (f : MatF) : Statement (.mma f) := ofEnc rfl (Enc.mat_lt (by omega) _)
theorem mv (f : MatF) : Statement (.mv f) := ofEnc rfl (Enc.mat_lt (by omega) _)
theorem mbat (f : ScalarPairF) : Statement (.mbat f) := ofEnc rfl (Enc.scalarPair_lt (by omega) (by omega) _)
theorem mwait (f : ScalarPairF) : Statement (.mwait f) := ofEnc rfl (Enc.scalarPair_lt (by omega) (by omega) _)
theorem tzero (f : TileF) : Statement (.tzero f) := ofEnc rfl (Enc.tile_lt (by omega) _)
theorem tdrn (f : MatF) : Statement (.tdrn f) := ofEnc rfl (Enc.mat_lt (by omega) _)
theorem tmov (f : TileF) : Statement (.tmov f) := ofEnc rfl (Enc.tile_lt (by omega) _)
theorem talloc (f : ScalarPairF) : Statement (.talloc f) := ofEnc rfl (Enc.scalarPair_lt (by omega) (by omega) _)
theorem tfree (f : ScalarPairF) : Statement (.tfree f) := ofEnc rfl (Enc.scalarPair_lt (by omega) (by omega) _)
theorem trap (f : CodeF) : Statement (.trap f) := ofEnc rfl (Enc.code_lt (by omega) _)
theorem tret (f : GuardF) : Statement (.tret f) := ofEnc rfl (Enc.guardF_lt (by omega) _)
theorem bkpt (f : CodeF) : Statement (.bkpt f) := ofEnc rfl (Enc.code_lt (by omega) _)
theorem sys (f : CodeF) : Statement (.sys f) := ofEnc rfl (Enc.code_lt (by omega) _)
theorem exit (f : GuardF) : Statement (.exit f) := ofEnc rfl (Enc.guardF_lt (by omega) _)
theorem regset (f : RegsetF) : Statement (.regset f) := ofEnc rfl (Enc.regset_lt  _)
theorem prog (f : ScalarPairF) : Statement (.prog f) := ofEnc rfl (Enc.scalarPair_lt (by omega) (by omega) _)
theorem rchk (f : RchkF) : Statement (.rchk f) := ofEnc rfl (Enc.rchk_lt  _)
theorem enq (f : EnqF) : Statement (.enq f) := ofEnc rfl (Enc.enq_lt  _)
theorem relaunch (f : RelaunchF) : Statement (.relaunch f) := ofEnc rfl (Enc.relaunch_lt  _)
theorem belinoLdi (f : BelinoF) : Statement (.belinoLdi f) := ofEnc rfl (Enc.belino_lt (by omega) _)
theorem belinoMov (f : BelinoF) : Statement (.belinoMov f) := ofEnc rfl (Enc.belino_lt (by omega) _)
theorem belinoAdd (f : BelinoF) : Statement (.belinoAdd f) := ofEnc rfl (Enc.belino_lt (by omega) _)
theorem belinoSub (f : BelinoF) : Statement (.belinoSub f) := ofEnc rfl (Enc.belino_lt (by omega) _)
theorem belinoAnd (f : BelinoF) : Statement (.belinoAnd f) := ofEnc rfl (Enc.belino_lt (by omega) _)
theorem belinoOr (f : BelinoF) : Statement (.belinoOr f) := ofEnc rfl (Enc.belino_lt (by omega) _)
theorem belinoXor (f : BelinoF) : Statement (.belinoXor f) := ofEnc rfl (Enc.belino_lt (by omega) _)
theorem belinoShl (f : BelinoF) : Statement (.belinoShl f) := ofEnc rfl (Enc.belino_lt (by omega) _)
theorem belinoShr (f : BelinoF) : Statement (.belinoShr f) := ofEnc rfl (Enc.belino_lt (by omega) _)
theorem belinoMin (f : BelinoF) : Statement (.belinoMin f) := ofEnc rfl (Enc.belino_lt (by omega) _)
theorem belinoMax (f : BelinoF) : Statement (.belinoMax f) := ofEnc rfl (Enc.belino_lt (by omega) _)
theorem belinoSel (f : BelinoF) : Statement (.belinoSel f) := ofEnc rfl (Enc.belino_lt (by omega) _)
theorem belinoCmplt (f : BelinoF) : Statement (.belinoCmplt f) := ofEnc rfl (Enc.belino_lt (by omega) _)
theorem belinoCmpeq (f : BelinoF) : Statement (.belinoCmpeq f) := ofEnc rfl (Enc.belino_lt (by omega) _)
theorem belinoLdc (f : BelinoF) : Statement (.belinoLdc f) := ofEnc rfl (Enc.belino_lt (by omega) _)
theorem belinoLdm (f : BelinoF) : Statement (.belinoLdm f) := ofEnc rfl (Enc.belino_lt (by omega) _)
theorem belinoStm (f : BelinoF) : Statement (.belinoStm f) := ofEnc rfl (Enc.belino_lt (by omega) _)
theorem belinoLoop (f : BelinoF) : Statement (.belinoLoop f) := ofEnc rfl (Enc.belino_lt (by omega) _)
theorem belinoBrf (f : BelinoF) : Statement (.belinoBrf f) := ofEnc rfl (Enc.belino_lt (by omega) _)
theorem belinoBrfZ (f : BelinoF) : Statement (.belinoBrfZ f) := by
  intro hf n w h
  cases h
  have hd : f.d = 0 := by simpa [Instr.wf] using hf
  have h0 : f.d.toNat = 0 := by rw [hd]; rfl
  exact .inl (by unfold Enc.belino; omega)
theorem belinoDec (f : BelinoF) : Statement (.belinoDec f) := ofEnc rfl (Enc.belino_lt (by omega) _)
theorem belinoExit (f : BelinoF) : Statement (.belinoExit f) := ofEnc rfl (Enc.belino_lt (by omega) _)
theorem pathHoldExempt (g : Nat) (p : Nat) : Statement (.pathHoldExempt g p) := ofNone rfl
theorem sideReleaseSwap (g : Nat) (p : Nat) : Statement (.sideReleaseSwap g p) := ofNone rfl
theorem groupSlotFree (g : Nat) : Statement (.groupSlotFree g) := ofNone rfl
theorem teamComplete (t : Nat) : Statement (.teamComplete t) := ofNone rfl
theorem launchComplete (r : Nat) : Statement (.launchComplete r) := ofNone rfl
theorem regsetGrowthGrant (core : Nat) (part : Nat) : Statement (.regsetGrowthGrant core part) := ofNone rfl
theorem regsetDeadlock (core : Nat) : Statement (.regsetDeadlock core) := ofNone rfl
theorem storePerform (op : Nat) : Statement (.storePerform op) := ofNone rfl
theorem loadDataReturn (op : Nat) : Statement (.loadDataReturn op) := ofNone rfl
theorem atomHomePerform (op : Nat) : Statement (.atomHomePerform op) := ofNone rfl
theorem mredCombine (op : Nat) (lane : Nat) : Statement (.mredCombine op lane) := ofNone rfl
theorem l1LineEvict (core : Nat) (line : Nat) : Statement (.l1LineEvict core line) := ofNone rfl
theorem l2LineEvict (line : Nat) : Statement (.l2LineEvict line) := ofNone rfl
theorem storeWalkFault (op : Nat) : Statement (.storeWalkFault op) := ofNone rfl
theorem storeLateReport (op : Nat) : Statement (.storeLateReport op) := ofNone rfl
theorem asyncPageFault (req : Nat) : Statement (.asyncPageFault req) := ofNone rfl
theorem fewFillObtained (g : Nat) (p : Nat) : Statement (.fewFillObtained g p) := ofNone rfl
theorem fenceComplete (g : Nat) (serial : Nat) : Statement (.fenceComplete g serial) := ofNone rfl
theorem eccCorrected (die : Nat) (grp : Nat) : Statement (.eccCorrected die grp) := ofNone rfl
theorem eccUncorrectable (e : EccSite) : Statement (.eccUncorrectable e) := ofNone rfl
theorem patrolScrub (die : Nat) (grp : Nat) : Statement (.patrolScrub die grp) := ofNone rfl
theorem slotClockAging (g : Nat) : Statement (.slotClockAging g) := ofNone rfl
theorem epochAging (r : Nat) : Statement (.epochAging r) := ofNone rfl
theorem leaseGrant (q : Nat) (e : Nat) (unit : Nat) : Statement (.leaseGrant q e unit) := ofNone rfl
theorem leaseWakeComplete (q : Nat) (e : Nat) : Statement (.leaseWakeComplete q e) := ofNone rfl
theorem leaseEntryAged (q : Nat) (e : Nat) : Statement (.leaseEntryAged q e) := ofNone rfl
theorem leaseNotice (q : Nat) (e : Nat) : Statement (.leaseNotice q e) := ofNone rfl
theorem leaseRevoke (q : Nat) (e : Nat) : Statement (.leaseRevoke q e) := ofNone rfl
theorem cqGrant (cl : Nat) : Statement (.cqGrant cl) := ofNone rfl
theorem cqRequestAged (cl : Nat) (req : Nat) : Statement (.cqRequestAged cl req) := ofNone rfl
theorem cqOverBudget (cl : Nat) : Statement (.cqOverBudget cl) := ofNone rfl
theorem cqBudgetChange (cl : Nat) (budget : Nat) (share : Nat) : Statement (.cqBudgetChange cl budget share) := ofNone rfl
theorem engOpStart (op : Nat) : Statement (.engOpStart op) := ofNone rfl
theorem engOpComplete (op : Nat) : Statement (.engOpComplete op) := ofNone rfl
theorem islandEnter (core : Nat) : Statement (.islandEnter core) := ofNone rfl
theorem islandExit (core : Nat) : Statement (.islandExit core) := ofNone rfl
theorem bldStart (core : Nat) (op : Nat) : Statement (.bldStart core op) := ofNone rfl
theorem bldComplete (core : Nat) (op : Nat) : Statement (.bldComplete core op) := ofNone rfl
theorem mmaStart (core : Nat) (op : Nat) : Statement (.mmaStart core op) := ofNone rfl
theorem mmaComplete (core : Nat) (op : Nat) : Statement (.mmaComplete core op) := ofNone rfl
theorem mmaPairReady (core : Nat) (op : Nat) : Statement (.mmaPairReady core op) := ofNone rfl
theorem mmaPairStart (core : Nat) (op : Nat) : Statement (.mmaPairStart core op) := ofNone rfl
theorem mvStart (core : Nat) (op : Nat) : Statement (.mvStart core op) := ofNone rfl
theorem mvComplete (core : Nat) (op : Nat) : Statement (.mvComplete core op) := ofNone rfl
theorem tdrnStart (core : Nat) (op : Nat) : Statement (.tdrnStart core op) := ofNone rfl
theorem tdrnComplete (core : Nat) (op : Nat) : Statement (.tdrnComplete core op) := ofNone rfl
theorem tzeroStart (core : Nat) (op : Nat) : Statement (.tzeroStart core op) := ofNone rfl
theorem tzeroComplete (core : Nat) (op : Nat) : Statement (.tzeroComplete core op) := ofNone rfl
theorem tmovStart (core : Nat) (op : Nat) : Statement (.tmovStart core op) := ofNone rfl
theorem tmovComplete (core : Nat) (op : Nat) : Statement (.tmovComplete core op) := ofNone rfl
theorem copySectorStart (cp : Nat) : Statement (.copySectorStart cp) := ofNone rfl
theorem copySectorComplete (cp : Nat) (sector : Nat) : Statement (.copySectorComplete cp sector) := ofNone rfl
theorem copyDigestCheck (cp : Nat) : Statement (.copyDigestCheck cp) := ofNone rfl
theorem monwTimeout (g : Nat) (p : Nat) : Statement (.monwTimeout g p) := ofNone rfl
theorem monitorOverflowEval (g : Nat) (p : Nat) : Statement (.monitorOverflowEval g p) := ofNone rfl
theorem barrierArrivalMessage (key : Nat) : Statement (.barrierArrivalMessage key) := ofNone rfl
theorem barrierRelease (key : Nat) : Statement (.barrierRelease key) := ofNone rfl
theorem edgeParkRetry (g : Nat) (p : Nat) : Statement (.edgeParkRetry g p) := ofNone rfl
theorem enqParkRetry (g : Nat) (p : Nat) : Statement (.enqParkRetry g p) := ofNone rfl
theorem queueRecordAccept (q : Nat) : Statement (.queueRecordAccept q) := ofNone rfl
theorem launchHead (q : Nat) : Statement (.launchHead q) := ofNone rfl
theorem hookEnq (r : Nat) : Statement (.hookEnq r) := ofNone rfl
theorem hookPick (cl : Nat) : Statement (.hookPick cl) := ofNone rfl
theorem hookTick (cl : Nat) : Statement (.hookTick cl) := ofNone rfl
theorem hookBlock (t : Nat) : Statement (.hookBlock t) := ofNone rfl
theorem hookWake (t : Nat) : Statement (.hookWake t) := ofNone rfl
theorem ageGuardTrigger (cand : Nat) : Statement (.ageGuardTrigger cand) := ofNone rfl
theorem ageGuardPreempt (cand : Nat) (cl : Nat) : Statement (.ageGuardPreempt cand cl) := ofNone rfl
theorem drainTimeout (t : Nat) : Statement (.drainTimeout t) := ofNone rfl
theorem saveComplete (t : Nat) : Statement (.saveComplete t) := ofNone rfl
theorem saveBoundExpiry (t : Nat) : Statement (.saveBoundExpiry t) := ofNone rfl
theorem unitRestore (sv : Nat) (cl : Nat) : Statement (.unitRestore sv cl) := ofNone rfl
theorem watchdogFirstExpiry (q : Nat) : Statement (.watchdogFirstExpiry q) := ofNone rfl
theorem watchdogSecondExpiry (q : Nat) : Statement (.watchdogSecondExpiry q) := ofNone rfl
theorem pathHoldStop (g : Nat) (p : Nat) : Statement (.pathHoldStop g p) := ofNone rfl
theorem stallSample (cx : Nat) (core : Nat) (part : Nat) : Statement (.stallSample cx core part) := ofNone rfl
theorem memorySample (g : Nat) (p : Nat) : Statement (.memorySample g p) := ofNone rfl
theorem relaunchSelect (g : Nat) (p : Nat) : Statement (.relaunchSelect g p) := ofNone rfl
theorem partcfg (c : Cmd) : Statement (.partcfg c) := ofEnc rfl (Enc.cmd_lt (by omega) (by omega) _)
theorem partreset (c : Cmd) : Statement (.partreset c) := ofEnc rfl (Enc.cmd_lt (by omega) (by omega) _)
theorem ctxbind (c : Cmd) : Statement (.ctxbind c) := ofEnc rfl (Enc.cmd_lt (by omega) (by omega) _)
theorem ctxfree (c : Cmd) : Statement (.ctxfree c) := ofEnc rfl (Enc.cmd_lt (by omega) (by omega) _)
theorem preempt (c : Cmd) : Statement (.preempt c) := ofEnc rfl (Enc.cmd_lt (by omega) (by omega) _)
theorem qreg (c : Cmd) : Statement (.qreg c) := ofEnc rfl (Enc.cmd_lt (by omega) (by omega) _)
theorem qstate (c : Cmd) : Statement (.qstate c) := ofEnc rfl (Enc.cmd_lt (by omega) (by omega) _)
theorem traparea (c : Cmd) : Statement (.traparea c) := ofEnc rfl (Enc.cmd_lt (by omega) (by omega) _)
theorem savepool (c : Cmd) : Statement (.savepool c) := ofEnc rfl (Enc.cmd_lt (by omega) (by omega) _)
theorem root (c : Cmd) : Statement (.root c) := ofEnc rfl (Enc.cmd_lt (by omega) (by omega) _)
theorem xlinv (c : Cmd) : Statement (.xlinv c) := ofEnc rfl (Enc.cmd_lt (by omega) (by omega) _)
theorem replay (c : Cmd) : Statement (.replay c) := ofEnc rfl (Enc.cmd_lt (by omega) (by omega) _)
theorem cancel (c : Cmd) : Statement (.cancel c) := ofEnc rfl (Enc.cmd_lt (by omega) (by omega) _)
theorem barinit (c : Cmd) : Statement (.barinit c) := ofEnc rfl (Enc.cmd_lt (by omega) (by omega) _)
theorem barinv (c : Cmd) : Statement (.barinv c) := ofEnc rfl (Enc.cmd_lt (by omega) (by omega) _)
theorem watchreg (c : Cmd) : Statement (.watchreg c) := ofEnc rfl (Enc.cmd_lt (by omega) (by omega) _)
theorem rtnload (c : Cmd) : Statement (.rtnload c) := ofEnc rfl (Enc.cmd_lt (by omega) (by omega) _)
theorem hold (c : Cmd) : Statement (.hold c) := ofEnc rfl (Enc.cmd_lt (by omega) (by omega) _)
theorem resume (c : Cmd) : Statement (.resume c) := ofEnc rfl (Enc.cmd_lt (by omega) (by omega) _)
theorem codeinv (c : Cmd) : Statement (.codeinv c) := ofEnc rfl (Enc.cmd_lt (by omega) (by omega) _)
theorem sample (c : Cmd) : Statement (.sample c) := ofEnc rfl (Enc.cmd_lt (by omega) (by omega) _)
theorem vpsmap (c : Cmd) : Statement (.vpsmap c) := ofEnc rfl (Enc.cmd_lt (by omega) (by omega) _)
theorem vpsreq (c : Cmd) : Statement (.vpsreq c) := ofEnc rfl (Enc.cmd_lt (by omega) (by omega) _)
theorem vpsquery (c : Cmd) : Statement (.vpsquery c) := ofEnc rfl (Enc.cmd_lt (by omega) (by omega) _)
theorem sensclr (c : Cmd) : Statement (.sensclr c) := ofEnc rfl (Enc.cmd_lt (by omega) (by omega) _)
theorem energy (c : Cmd) : Statement (.energy c) := ofEnc rfl (Enc.cmd_lt (by omega) (by omega) _)
theorem attest (c : Cmd) : Statement (.attest c) := ofEnc rfl (Enc.cmd_lt (by omega) (by omega) _)
theorem resync (c : Cmd) : Statement (.resync c) := ofEnc rfl (Enc.cmd_lt (by omega) (by omega) _)
theorem wsdef (c : Cmd) : Statement (.wsdef c) := ofEnc rfl (Enc.cmd_lt (by omega) (by omega) _)
theorem wsnew (c : Cmd) : Statement (.wsnew c) := ofEnc rfl (Enc.cmd_lt (by omega) (by omega) _)
theorem wscommit (c : Cmd) : Statement (.wscommit c) := ofEnc rfl (Enc.cmd_lt (by omega) (by omega) _)
theorem wsdrop (c : Cmd) : Statement (.wsdrop c) := ofEnc rfl (Enc.cmd_lt (by omega) (by omega) _)
theorem evring (c : Cmd) : Statement (.evring c) := ofEnc rfl (Enc.cmd_lt (by omega) (by omega) _)
theorem unlistedCommand (op : BitVec 8) (sub : BitVec 8) (c : Cmd) : Statement (.unlistedCommand op sub c) := ofEnc rfl (Enc.cmd_lt (by omega) (by omega) _)
theorem tvlCompanionWrite (addr : Nat) (bytes : List Byte) : Statement (.tvlCompanionWrite addr bytes) := ofNone rfl
theorem tvlCompanionRead (addr : Nat) (len : Nat) : Statement (.tvlCompanionRead addr len) := ofNone rfl
theorem tvlFlitCrcFail : Statement (.tvlFlitCrcFail) := ofNone rfl
theorem tvlRetrainComplete : Statement (.tvlRetrainComplete) := ofNone rfl
theorem tvlLinkdown : Statement (.tvlLinkdown) := ofNone rfl
theorem packageReset (images : List FirmwareImage) : Statement (.packageReset images) := ofNone rfl
theorem configDeclare (mr : Nat) (value : BitVec 256) : Statement (.configDeclare mr value) := ofNone rfl
theorem clusterVpsChange (cl : Nat) : Statement (.clusterVpsChange cl) := ofNone rfl
theorem powerCapChange (cl : Nat) (entry : Nat) : Statement (.powerCapChange cl entry) := ofNone rfl
theorem sensorVoteOut (domain : Nat) (sensor : Nat) : Statement (.sensorVoteOut domain sensor) := ofNone rfl
theorem coreTestFail (core : Nat) : Statement (.coreTestFail core) := ofNone rfl
theorem channelGroupSpare (group : Nat) (base : Nat) (len : Nat) : Statement (.channelGroupSpare group base len) := ofNone rfl
theorem signalBoxFail (mailbox : Bool) (unit : Nat) : Statement (.signalBoxFail mailbox unit) := ofNone rfl
theorem shardDigestComplete (ws : Nat) (ver : Nat) (shard : Nat) : Statement (.shardDigestComplete ws ver shard) := ofNone rfl
theorem weightPatrol (ws : Nat) (ver : Nat) (shard : Nat) : Statement (.weightPatrol ws ver shard) := ofNone rfl
theorem markAgingFinish (epoch : Bool) (id : Nat) : Statement (.markAgingFinish epoch id) := ofNone rfl

end Laws.Fits

end Sys2Proof
end

