-- ==== Sys2Proof/Laws/Trap.lean ====
section
/-! SUPPORT. The law of taking a trap: what the state holds once a path has entered its handler. -/

set_option Elab.async false

namespace Sys2Proof.Machine

theorem filter_none {α : Type} (l : List α) (p : α → Bool) (h : ∀ x, p x = true) : l.filter p = l :=
  List.filter_eq_self.mpr fun x _ => h x

/-- Where a trap that can be taken is routed. -/
theorem route_mayTrap {s : State} {h : Here} {a : TrapArea} {cause : Nat} (hm : s.mayTrap h a cause) :
    routeCause h.path.level cause h.run.trapv = some (!decide (h.toUser cause)) := by
  have hl := hm.2.2.2.2.1
  unfold Here.toUser
  generalize h.path.level = l at hl ⊢
  cases l with
  | supervisor => exact absurd rfl hl
  | user => simp [routeCause]
  | normal => simp [routeCause]

@[simp] theorem opaqueBytes_run (n : Nat) (t : Tx) :
    opaqueBytes n t = .ok ((List.range n).map (Config.opaqueByte t.free), { t with free := t.free + 1 }) := rfl

theorem toLE_length (n v : Nat) : (toLE n v).length = n := by
  induction n generalizing v with
  | zero => rfl
  | succ n ih => simp [toLE, ih]

/-- The rest of a frame without replay entries, from 0x018 on. -/
@[irreducible] def frameRest (h : Here) (t : TrapInfo) (ilen level : Nat) (nested : Bool) (spc : Addr) (now free : Nat) : List Byte :=
  let addressed := t.cause = causeAlign || t.cause = causePage || t.cause = causeAccess || t.cause = causeEcc ||
    t.cause = causeStoreLate || t.cause = causeRace
  toLE 8 (if addressed then t.faddr.toNat else 0) ++
    (toLE 4 (t.flane % 32 + h.p % 4 * 32 + ilen * 128 + (if nested then 512 else 0) + level * 1024 + 0 * 4096) ++
    (toLE 4 h.agent.toNat ++ (toLE 8 spc.toNat ++ (toLE 8 now ++ (List.replicate 72 0 ++
    ((List.range 64).map (Config.opaqueByte free) ++ List.replicate 832 0))))))

theorem frameRest_length (h : Here) (t : TrapInfo) (ilen level : Nat) (nested : Bool) (spc : Addr) (now free : Nat) :
    (frameRest h t ilen level nested spc now free).length = 1000 := by
  unfold frameRest
  simp [toLE_length, -List.reduceReplicate]

/-- A frame without replay entries. -/
@[irreducible] def frameBytes (pc rpc : Addr) (mask cause : Word) (rest : List Byte) : List Byte :=
  toLE 8 pc.toNat ++ toLE 8 rpc.toNat ++ toLE 4 mask.toNat ++ toLE 4 cause.toNat ++ rest

theorem frameBytes_length (pc rpc : Addr) (mask cause : Word) (rest : List Byte) :
    (frameBytes pc rpc mask cause rest).length = 24 + rest.length := by
  unfold frameBytes
  simp only [List.length_append, toLE_length]

/-- A frame's first 24 bytes. -/
theorem frameBytes_fields (pc rpc : Addr) (mask cause : Word) (rest : List Byte) :
    fromLE (((frameBytes pc rpc mask cause rest).drop 0).take 8) = pc.toNat ∧
      fromLE (((frameBytes pc rpc mask cause rest).drop 8).take 8) = rpc.toNat ∧
      fromLE (((frameBytes pc rpc mask cause rest).drop 16).take 4) = mask.toNat ∧
      fromLE (((frameBytes pc rpc mask cause rest).drop 20).take 4) = cause.toNat := by
  have h1 : pc.toNat < 2 ^ 64 := pc.isLt
  have h2 : rpc.toNat < 2 ^ 64 := rpc.isLt
  have h3 : mask.toNat < 2 ^ 32 := mask.isLt
  have h4 : cause.toNat < 2 ^ 32 := cause.isLt
  unfold frameBytes
  simp only [toLE, List.cons_append, List.nil_append, List.drop_zero, List.drop_succ_cons, List.take_succ_cons, List.take_zero, fromLE,
    BitVec.toNat_ofNat]
  refine ⟨?_, ?_, ?_, ?_⟩ <;> omega

/-- A frame without replay entries is one block. -/
theorem writeFrame_run (at_ : Nat) (h : Here) (rpc : Addr) (cause : Word) (t : TrapInfo) (ilen level : Nat) (nested : Bool) (spc : Addr)
    {x : Tx} (hx : x.chip.plainMemory) : writeFrame at_ h rpc cause t ilen level nested [] spc x = .ok ((), { x with
      chip := x.chip.written at_ 1024
      log := blockLog at_ (frameBytes h.path.pc rpc h.path.mask cause (frameRest h t ilen level nested spc x.clk x.free)) ++ x.log
      free := x.free + 1 }) := by
  have hlen := frameBytes_length h.path.pc rpc h.path.mask cause (frameRest h t ilen level nested spc x.clk x.free)
  rw [frameRest_length] at hlen
  unfold writeFrame
  rw [bind_next (clock_run x), bind_next (opaqueBytes_run 64 x)]
  have hw := homeWrite_plain (t := { x with free := x.free + 1 }) hx at_
    (frameBytes h.path.pc rpc h.path.mask cause (frameRest h t ilen level nested spc x.clk x.free)) none
  rw [hlen] at hw
  refine (bind_next (x := ()) (u := { x with
      chip := x.chip.written at_ 1024
      log := blockLog at_ (frameBytes h.path.pc rpc h.path.mask cause (frameRest h t ilen level nested spc x.clk x.free)) ++ x.log
      free := x.free + 1 }) ?_).trans rfl
  refine Eq.trans (congrArg (fun bs => homeWrite at_ bs none { x with free := x.free + 1 }) ?_) hw
  unfold frameBytes frameRest
  simp only [List.append_assoc, List.length_nil, -List.reduceReplicate]

theorem mkEmu_next (w0 w1 : Word) (len : Nat) (pc : Addr) (mask : BitVec 32) (path : Nat) :
    (mkEmu w0 w1 len pc mask path).next = pc + BitVec.ofNat 64 len := by
  unfold mkEmu
  rfl

theorem Chip.without_nil (c : Chip) : c.without [] = c := by
  cases c
  simp [Chip.without]

/-- The code that a trap leaves in the frame and the path. -/
def TrapInfo.code (t : TrapInfo) : Word := BitVec.ofNat 32 (t.cause + t.data * 65536)

/-- What the hardware keeps of a frame without replay entries. -/
def trapFrameOf (h : Here) (t : TrapInfo) : Frame :=
  { pc := h.path.pc, mask := h.path.mask, cause := t.code, nested := h.path.level = .user, replays := [], heldStore := none,
    serial := h.slot.inc.toNat }

/-- A handler is entered from a path with no access outstanding: one frame is written, hazards settle, the EMU block is as the
cause leaves it, and the path stands at its handler. -/
theorem enterHandler_run {h : Here} {a : TrapArea} {sup : Bool} {pc rpc : Addr} {t : TrapInfo} {len n : Nat} {x : Tx}
    (hil : frameIlen h x = .ok (n, x)) (hx : x.chip.plainMemory) :
    enterHandler h a sup pc t len rpc none [] [] x = .ok ((), { x with
      chip := ((x.chip.written (a.pa + x.chip.frameOff h.ctx h.g h.p (if sup then 1 else 0)) 1024).modGroup h.g fun y => { y.settleHazards h.path.mask with emu := trapEmu h t len }).modPath h.g h.p fun q =>
        q.atHandler sup pc t.code (trapFrameOf h t)
      log := blockLog (a.pa + x.chip.frameOff h.ctx h.g h.p (if sup then 1 else 0))
        (frameBytes h.path.pc rpc h.path.mask t.code
          (frameRest h t n (if sup then 1 else 0) (decide (h.path.level = .user)) 0 x.clk x.free)) ++ x.log
      free := x.free + 1 }) := by
  unfold enterHandler
  simp only [bind_run, getChip_run, hil, modChip_run, Chip.without_nil, List.append_nil, List.take_nil, writeFrame_run _ _ _ _ _ _ _ _ _ hx,
    modGroup_run, modPath_run]
  rfl

/-- A trap that can be taken is taken: the log is one frame, the team counts the instruction, the group's hazards settle, the
EMU block is as the cause leaves it, and the path stands at its handler. -/
theorem takeTrap_run {s : State} {h : Here} {a : TrapArea} {t : TrapInfo} (len : Nat) (hm : s.mayTrap h a t.cause)
    (hr : t.races = []) (hf : t.flags = 0)
    (hil : t.cause = causeIllegal → h.grp.emu.busy = none ∨ h.grp.emu.busy = some h.p) :
    ∃ rest, rest.length = 1000 ∧
      takeTrap s.actor.1 s.actor.2 t len none none [] true s.tx = .ok ((), { s.tx with
        chip := (((s.chip.modTeam h.tid fun x => { x with ret := x.ret + 1 }).written (s.frameAt h a (h.toUser t.cause)) 1024).modGroup
              h.g fun x =>
              { x.settleHazards h.path.mask with emu := trapEmu h t len }).modPath h.g h.p fun q =>
                q.atHandler (!decide (h.toUser t.cause))
                  (if decide (h.toUser t.cause) then (h.run.trapv >>> 1) <<< 1 else BitVec.ofNat 64 (Memory.nat s.mem a.pa 8))
                  t.code (trapFrameOf h t)
        log := blockLog (s.frameAt h a (h.toUser t.cause))
          (frameBytes h.path.pc (trapResume h t len) h.path.mask t.code rest)
        free := s.free + 1 }) := by
  obtain ⟨ha, hinv, hplain, harea, hl, hsv, hpl, hcode⟩ := id hm
  have hroute := route_mayTrap hm
  obtain ⟨e1, e2, -⟩ := Chip.here_eq ha
  have hh : s.chip.here? h.g h.p = some h := by rw [e1, e2]; exact ha
  have hbusy : (decide (t.cause = causeIllegal) && h.grp.emu.busy.isSome && decide (h.grp.emu.busy ≠ some h.p)) = false := by
    by_cases hc : t.cause = causeIllegal
    · rcases hil hc with h4 | h4 <;> simp [h4]
    · simp [hc]
  have hfin : (!decide (h.toUser t.cause) && decide (Memory.nat s.mem a.pa 8 = 0)) = false := by
    by_cases hu : h.toUser t.cause
    · simp [hu]
    · simp [hsv hu]
  rw [← e1, ← e2]
  unfold takeTrap
  simp only [bind_run, getChip_run, State.tx_chip, hh, hr, each_nil, pure_run, modTeam_run, hf, harea, hroute, if_true, clock_run,
    Team.raise]
  generalize hc1 : (s.chip.modTeam h.tid fun x => { x with ret := x.ret + 1 }) = c1
  obtain ⟨n, hilen⟩ := frameIlen_hot (s := { s with chip := c1 }) (h := h) (by subst hc1; exact hcode)
  have hoff : c1.frameOff h.ctx h.g h.p = s.chip.frameOff h.ctx h.g h.p := by subst hc1; rfl
  have hc1p : c1.plainMemory := by subst hc1; exact hplain
  have hrd : homeNat a.pa 8 { s.tx with chip := c1 } = .ok (Memory.nat s.mem a.pa 8, { s.tx with chip := c1 }) :=
    homeNat_start hc1p.1 hc1p.2.2.2.1 _ _
  simp only [hrd, hfin, hbusy, Bool.false_eq_true, if_false, hpl]
  refine ⟨_, frameRest_length h t n (if (!decide (h.toUser t.cause)) = true then 1 else 0) (decide (h.path.level = .user)) 0 s.clk s.free, ?_⟩
  refine (enterHandler_run hilen hc1p).trans ?_
  simp only [State.tx_chip, State.tx_clk, State.tx_free, State.tx_base, State.tx_actor, hoff, Option.getD_none, State.frameAt,
    State.tx_log, List.append_nil]
  cases hd : decide (h.toUser t.cause)
  · simp only [Bool.not_false, if_true, Bool.false_eq_true, if_false]
  · simp only [Bool.not_true, if_true, Bool.false_eq_true, if_false]

/-- A meaning that stops with a trap that can be taken takes it. -/
theorem traps_of {s : State} {h : Here} {a : TrapArea} {t : TrapInfo} {len : Nat} {body : Act Unit} {i : Instr}
    (hx : exec i s = runZha len body s) (hb : body s.tx = .error (.trap t)) (hm : s.mayTrap h a t.cause) (hr : t.races = [])
    (hf : t.flags = 0) (hil : t.cause = causeIllegal → h.grp.emu.busy = none ∨ h.grp.emu.busy = some h.p) :
    s.traps h i a t.cause t.data (trapResume h t len) ∧
      ∃ u, exec i s = .next u ∧ (u.chip.group? h.g).map Group.emu = some (trapEmu h t len) := by
  obtain ⟨rest, hlen, hrun⟩ := takeTrap_run len hm hr hf hil
  obtain ⟨ha, hinv, -⟩ := id hm
  obtain ⟨hg, hp, ht, -⟩ := State.acts_eq ha
  have hE := hx.trans (runZha_traps hb hrun)
  have hgrp : ∀ (F : Team → Team) (A N : Nat) (G : Group → Group) (P : Path → Path),
      ((((s.chip.modTeam h.tid F).written A N).modGroup h.g G).modPath h.g h.p P).group? h.g =
        some { G h.grp with paths := mmod (G h.grp).paths h.p P } := by
    intro F A N G P
    simp [Chip.modPath, hg]
  have hF := frameBytes_fields h.path.pc (trapResume h t len) h.path.mask t.code rest
  have hL := frameBytes_length h.path.pc (trapResume h t len) h.path.mask t.code rest
  rw [hlen] at hL
  generalize frameBytes h.path.pc (trapResume h t len) h.path.mask t.code rest = bs at hF hL hE
  constructor
  · refine ⟨_, hE, ⟨?_, ?_, ?_⟩, ?_,
      ⟨h.path.atHandler (!decide (h.toUser t.cause))
        (if decide (h.toUser t.cause) then (h.run.trapv >>> 1) <<< 1 else BitVec.ofNat 64 (Memory.nat s.mem a.pa 8)) t.code
        (trapFrameOf h t), ?_, ?_, ?_, ?_, ?_, ?_⟩, ?_, ?_, ?_, ?_, ?_⟩
    · intro r l
      simp only [State.vreg, State.commit_chip, hgrp, hg, Option.map_some, Option.getD_some]
      rfl
    · intro r
      simp only [State.sreg, State.commit_chip, hgrp, hg, Option.map_some, Option.getD_some]
      rfl
    · intro r
      simp only [State.preg, State.commit_chip, hgrp, hg, Option.map_some, Option.getD_some]
      rfl
    · simp [State.retired, Chip.modTeam, ht, Team.flagged]
    · rw [Chip.path?]
      simp only [State.commit_chip, hgrp, Option.bind_some, mget_mmod_same]
      show (mget? h.grp.paths h.p).map _ = _
      rw [hp]
      rfl
    · by_cases hu : h.toUser t.cause <;> simp [Path.atHandler, hu]
    · rfl
    · rfl
    · rfl
    · rfl
    · have h0 := Memory.read_field hinv (s.frameAt h a (decide (h.toUser t.cause))) bs (off := 0) (n := 8) (by omega)
      rw [Nat.add_zero] at h0
      rw [Memory.nat, ← hF.1]
      exact congrArg fromLE h0
    · rw [Memory.nat, ← hF.2.1]
      exact congrArg fromLE (Memory.read_field hinv _ _ (by omega))
    · rw [Memory.nat, Here.mask, ← hF.2.2.1]
      exact congrArg fromLE (Memory.read_field hinv _ _ (by omega))
    · refine Eq.trans ?_ hF.2.2.2
      exact congrArg fromLE (Memory.read_field hinv _ _ (by omega))
    · intro x hx'
      refine Memory.read_block_other _ ?_
      omega
  · refine ⟨_, hE, ?_⟩
    simp only [State.commit_chip, hgrp, Option.map_some]

end Sys2Proof.Machine
end

