-- ==== Sys2Proof/Tests/Slice0.lean ====
section
/-! SUPPORT. Tests: ill-formed terms that the checks refuse, words decoded as the spec's worked encodings read them, and single
steps whose results the spec's worked examples give. -/

set_option Elab.async false

namespace Sys2Proof.Tests
open Sys2Proof.Machine

/-! ## Decoding: the words are the worked encodings of the reference entries -/

theorem test_decode_compact :
    decodeWord 0x1076 = .maxCompact ⟨0, 4, 3⟩ ∧
    decodeWord 0x24B8 = .absCompact ⟨0, 9, 5⟩ ∧
    decodeWord 0x0C5C = .popcCompact ⟨0, 3, 2⟩ := by
  decide +kernel

theorem test_decode_lane_base :
    decodeWord 0x03040405 = .subBase ⟨0, 1, 2, 3, 0⟩ ∧
    decodeWord 0x0C102183 = .addBase ⟨3, 8, 8, 12, 0⟩ ∧
    decodeWord 0x94102013 = .xorBase ⟨0, 8, 8, 20, 1⟩ ∧
    decodeWord 0xFD0E081B = .addi ⟨0, 2, 7, 0xFD⟩ ∧
    decodeWord 0x0F060C1F = .ori ⟨0, 3, 3, 0x0F⟩ ∧
    decodeWord 0xF0060C1D = .andi ⟨0, 3, 3, 0xF0⟩ ∧
    decodeWord 0x020A1023 = .shri ⟨0, 4, 5, 2⟩ ∧
    decodeWord 0xFFFE1425 = .moviBase ⟨0, 5, 0x7FFF⟩ ∧
    decodeWord 0x03040419 = .selBase ⟨0, 1, 2, 3, 0⟩ ∧
    decodeWord 0x030422BB = .dotBase ⟨5, 8, 2, 3, 0⟩ ∧
    decodeWord 0x000D903D = .movGeneral ⟨0, 100, 3, 0, 0⟩ ∧
    decodeWord 0x04A01C3D = .movGeneral ⟨0, 7, 40, 1, 0⟩ := by
  decide +kernel

theorem test_decode_salu :
    decodeWord 0x3C1C0C27 = .clzSalu ⟨0, 3, 7⟩ ∧
    decodeWord 0x24100C27 = .minSalu ⟨0, 3, 4⟩ ∧
    decodeWord 0x341C0C27 = .negSalu ⟨0, 3, 7⟩ ∧
    decodeWord 0x08141027 = .mulSalu ⟨0, 4, 5⟩ ∧
    decodeWord 0x14181427 = .xorSalu ⟨0, 5, 6⟩ ∧
    decodeWord 0xFFFC1029 = .sli ⟨0, 4, 0x3FFF⟩ ∧
    decodeWord 0x48D010A9 = .sli ⟨1, 4, 0x1234⟩ := by
  decide +kernel

theorem test_decode_control :
    decodeWord 0x00001401 = .stall ⟨0, 5⟩ ∧
    decodeWord 0xFFFF802B = .bra ⟨0, 0x3FFFE0⟩ ∧
    decodeWord 0x0002002D = .call ⟨0, 128⟩ ∧
    decodeWord 0x0008082F = .brp ⟨0, 2, 0, 16⟩ ∧
    decodeWord 0x0003001118100067 = .br ⟨0, 0, 4, 1, 1, ⟨0, 0, 0⟩, 24⟩ ∧
    decodeWord 0x0000001200500067 = .jmp ⟨0, 20, 0, ⟨0, 0, 0⟩⟩ ∧
    decodeWord 0x0000001204500067 = .jmp ⟨0, 20, 1, ⟨0, 0, 0⟩⟩ ∧
    decodeWord 0x0000001302780067 = .ret ⟨0, 158, 0, ⟨0, 0, 0⟩⟩ := by
  decide +kernel

theorem test_decode_xalu :
    decodeWord 0x21A18004002C2861 = .fmaX ⟨0, 10, 11, 0, 0, ⟨0, 0, 0⟩, 12, 13, 1, 0⟩ ∧
    decodeWord 0x8000600200080461 = .mulX ⟨0, 1, 2, 0, 0, ⟨0, 0, 0⟩, 3, 0, 0, 1⟩ ∧
    decodeWord 0x0000600300080461 = .mulhiX ⟨0, 1, 2, 0, 0, ⟨0, 0, 0⟩, 3, 0, 0, 0⟩ ∧
    decodeWord 0x8000000700A4A061 = .absX ⟨0, 40, 41, 0, 0, ⟨0, 0, 0⟩, 0, 0, 0, 1⟩ ∧
    decodeWord 0x00A5400F00A4A061 = .selX ⟨0, 40, 41, 0, 0, ⟨0, 0, 0⟩, 42, 5, 0, 0⟩ ∧
    decodeWord 0x0101801740181461 = .bfe ⟨0, 5, 6, 0, 1, ⟨0, 0, 0⟩, 12, 8, 0, 0⟩ ∧
    decodeWord 0x0183001810342861 = .bfi ⟨0, 10, 13, 4, 0, ⟨0, 0, 0⟩, 24, 12, 0, 0⟩ ∧
    decodeWord 0x8080601300081861 = .acs ⟨0, 6, 2, 0, 0, ⟨0, 0, 0⟩, 3, 4, 0, 1⟩ := by
  decide +kernel

theorem test_decode_xpred :
    decodeWord 0x0000A00000104C63 = .cmp ⟨0, 0x13, 4, 0, 0, ⟨0, 0, 0⟩, 5, 0, 0, 0⟩ ∧
    decodeWord 0x0080600100080463 = .plop ⟨0, 1, 2, 0, 0, ⟨0, 0, 0⟩, 3, 4, 0, 0⟩ ∧
    decodeWord 0x0000000204102463 = .pmov ⟨0, 9, 4, 1, 0, ⟨0, 0, 0⟩, 0, 0, 0, 0⟩ ∧
    decodeWord 0x0000000208240C63 = .pmov ⟨0, 3, 9, 2, 0, ⟨0, 0, 0⟩, 0, 0, 0, 0⟩ ∧
    decodeWord 0x0020000304081463 = .vote ⟨0, 5, 2, 1, 0, ⟨0, 0, 0⟩, 0, 1, 0, 0⟩ := by
  decide +kernel

theorem test_decode_xlane :
    decodeWord 0x0000C00000141065 = .shfl ⟨0, 4, 5, 0, 0, ⟨0, 0, 0⟩, 6, 0, 0, 0⟩ ∧
    decodeWord 0x0002200244241465 = .lget ⟨0, 5, 9, 1, 1, ⟨0, 0, 0⟩, 17, 0, 0, 0⟩ ∧
    decodeWord 0x0000C00318142465 = .lput ⟨0, 9, 5, 6, 0, ⟨0, 0, 0⟩, 6, 0, 0, 0⟩ ∧
    decodeWord 0x00006007401C1C65 = .retag ⟨0, 7, 7, 0, 1, ⟨0, 0, 0⟩, 3, 0, 0, 0⟩ ∧
    decodeWord 0x00000008000C0865 = .rcp ⟨0, 2, 3, 0, 0, ⟨0, 0, 0⟩, 0, 0, 0, 0⟩ ∧
    decodeWord 0x4000000A000C0865 = .exp2 ⟨0, 2, 3, 0, 0, ⟨0, 0, 0⟩, 0, 0, 2, 0⟩ ∧
    decodeWord 0x0000000D000C0865 = .cos ⟨0, 2, 3, 0, 0, ⟨0, 0, 0⟩, 0, 0, 0, 0⟩ := by
  decide +kernel

theorem test_decode_xscalar :
    decodeWord 0x0002C00000545067 = .addXscalar ⟨0, 20, 21, 0, ⟨0, 0, 0⟩, 22, 0⟩ ∧
    decodeWord 0x0ACF000440101067 = .orXscalar ⟨0, 4, 4, 1, ⟨0, 0, 0⟩, 0x78, 0x56⟩ ∧
    decodeWord 0x00020006401010E7 = .shlXscalar ⟨1, 4, 4, 1, ⟨0, 0, 0⟩, 16, 0⟩ ∧
    decodeWord 0x0002001400001867 = .srd ⟨0, 6, 0, ⟨0, 0, 0⟩, 0x010⟩ ∧
    decodeWord 0x0000201408000C67 = .srd ⟨0, 3, 1, ⟨0, 0, 0⟩, 0x001⟩ ∧
    decodeWord 0x0003001500240067 = .swr ⟨0, 9, ⟨0, 0, 0⟩, 0x018⟩ := by
  decide +kernel

theorem test_decode_memory :
    decodeWord 0x08080C33 = .stBase ⟨0, 3, 4, 4⟩ ∧
    decodeWord 0x0000200430105069 = .sld ⟨0, 20, 4, 0, 0, 3, ⟨0, 0, 0⟩, 1, 0, 0, 0, 0⟩ ∧
    decodeWord 0xE000000128100C69 = .st ⟨0, 3, 4, 0, 1, 2, ⟨0, 0, 0⟩, 0, 0, 0, 0, 7⟩ ∧
    decodeWord 0x4001030268501469 = .lds ⟨0, 5, 20, 0, 1, 6, ⟨1, 1, 0⟩, 8, 0, 0, 0, 2⟩ ∧
    decodeWord 0x1000400320180869 = .sts ⟨0, 2, 6, 0, 0, 2, ⟨0, 0, 0⟩, 2, 0, 0, 1, 0⟩ ∧
    decodeWord 0xC041200514282069 = .atom ⟨0, 8, 10, 5, 0, ⟨0, 0, 0⟩, 9, 2, 0, 3⟩ ∧
    decodeWord 0x0041200600280069 = .mred ⟨0, 10, 0, 0, ⟨0, 0, 0⟩, 9, 2, 0, 0⟩ ∧
    decodeWord 0x0001000704180069 = .pf ⟨0, 6, 1, ⟨0, 0, 0⟩, 8⟩ ∧
    decodeWord 0x0001000804180069 = .cctl ⟨0, 6, 1, ⟨0, 0, 0⟩, 8⟩ ∧
    decodeWord 0x0001000900180069 = .icinv ⟨0, 6, 0, ⟨0, 0, 0⟩, 8⟩ ∧
    decodeWord 0x0000E00A04180069 = .fe ⟨0, 6, 1, ⟨0, 0, 0⟩, 7⟩ := by
  decide +kernel

theorem test_decode_sync :
    decodeWord 0x000000032000006B = .bar ⟨0, 0, 0, 0, 0, 1, ⟨0, 0, 0⟩, 0⟩ ∧
    decodeWord 0x02C280041C30546B = .monw ⟨0, 21, 12, 7, 0, 0, ⟨0, 0, 0⟩, 20, 22, 0⟩ ∧
    decodeWord 0x000000050000406B = .yield ⟨0, 16, ⟨0, 0, 0⟩⟩ ∧
    decodeWord 0x000500060078086B = .epush ⟨0, 2, 30, 0, ⟨0, 0, 0⟩, 40⟩ ∧
    decodeWord 0x000060070078A06B = .epop ⟨0, 40, 30, 0, ⟨0, 0, 0⟩, 3⟩ := by
  decide +kernel

theorem test_decode_async :
    decodeWord 0x000180000028146D = .copy ⟨0, 5, 10, 0, 0, ⟨0, 0, 0⟩, 12, 0⟩ ∧
    decodeWord 0x000000010050006D = .cobj ⟨0, 0, 20, ⟨0, 0, 0⟩⟩ ∧
    decodeWord 0x0000000200500C6D = .cpwait ⟨0, 3, 20, ⟨0, 0, 0⟩⟩ ∧
    decodeWord 0x001FE0032000286D = .lease ⟨0, 10, 0, 1, ⟨0, 0, 0⟩, 255⟩ ∧
    decodeWord 0x0000000500282C6D = .lstat ⟨0, 11, 10, 0, ⟨0, 0, 0⟩⟩ ∧
    decodeWord 0x000180060028506D = .eng ⟨0, 20, 10, ⟨0, 0, 0⟩, 12⟩ ∧
    decodeWord 0x000000070050546D = .ewait ⟨0, 21, 20, 0, ⟨0, 0, 0⟩⟩ := by
  decide +kernel

theorem test_decode_matrix :
    decodeWord 0x0000000004A00C6F = .bld ⟨0, 3, 40, 1, ⟨0, 0, 0⟩, 0, 0⟩ ∧
    decodeWord 0x028180016820086F = .mma ⟨0, 2, 8, 26, ⟨0, 0, 0⟩, 12, 20⟩ ∧
    decodeWord 0x02820002A038106F = .mv ⟨0, 4, 14, 40, ⟨0, 0, 0⟩, 16, 20⟩ ∧
    decodeWord 0x000000030000506F = .mbat ⟨0, 20, 0, 0, ⟨0, 0, 0⟩⟩ ∧
    decodeWord 0x000000040050546F = .mwait ⟨0, 21, 20, 0, ⟨0, 0, 0⟩⟩ ∧
    decodeWord 0x0000000500000C6F = .tzero ⟨0, 3, 0, ⟨0, 0, 0⟩⟩ ∧
    decodeWord 0x000000070014086F = .tmov ⟨0, 2, 5, ⟨0, 0, 0⟩⟩ ∧
    decodeWord 0x000000080014106F = .talloc ⟨0, 4, 5, 0, ⟨0, 0, 0⟩⟩ ∧
    decodeWord 0x000000090014006F = .tfree ⟨0, 0, 5, 0, ⟨0, 0, 0⟩⟩ := by
  decide +kernel

theorem test_decode_system :
    decodeWord 0x0004200000000071 = .trap ⟨0, ⟨0, 0, 0⟩, 0x21⟩ ∧
    decodeWord 0x0000000100000071 = .tret ⟨0, ⟨0, 0, 0⟩⟩ ∧
    decodeWord 0x0002400200000071 = .bkpt ⟨0, ⟨0, 0, 0⟩, 0x12⟩ ∧
    decodeWord 0x0000E00300000071 = .sys ⟨0, ⟨0, 0, 0⟩, 7⟩ ∧
    decodeWord 0x0000000400000071 = .exit ⟨0, ⟨0, 0, 0⟩⟩ ∧
    decodeWord 0x000C000504000C71 = .regset ⟨0, 3, 0, 1, 0, ⟨0, 0, 0⟩, 96⟩ ∧
    decodeWord 0x0000000600140071 = .prog ⟨0, 0, 5, 0, ⟨0, 0, 0⟩⟩ ∧
    decodeWord 0x0000000708000C71 = .rchk ⟨0, 3, 2, ⟨0, 0, 0⟩⟩ ∧
    decodeWord 0x0000E00804280871 = .enq ⟨0, 2, 10, 1, ⟨0, 0, 0⟩, 7⟩ ∧
    decodeWord 0x0001800904281071 = .relaunch ⟨0, 4, 10, 1, ⟨0, 0, 0⟩, 12⟩ ∧
    decodeWord 0x0000000B00000071 = .unassignedEncoding ⟨8, 0x00000071, 0x0000000B⟩ := by
  decide +kernel

/-- Belino words (R246): opcode in [7:0], d in [11:8], a in [15:12], the immediate above. -/
theorem test_decode_belino :
    decodeBelino 0x00050100 = some (.belinoLdi ⟨1, 0, 5⟩) ∧ decodeBelino 0x00021302 = some (.belinoAdd ⟨3, 1, 2⟩) ∧
    decodeBelino 20 = some (.belinoExit ⟨0, 0, 0⟩) ∧ decodeBelino 0x00101302 = none ∧ decodeBelino 21 = none := by
  decide +kernel

/-- Commands (R299, R300): OP in [7:0], SUB in [15:8], TAG above, then the word at 0x04. -/
theorem test_decode_command :
    decodeCommand (0x07 + 5 * 2 ^ 16 + 3 * 2 ^ 32 + 0x8000 * 2 ^ 64) = .root ⟨5, 3, 0x8000, 0, 0, 0, 0, 0⟩ ∧
    decodeCommand (0x07 + 2 * 2 ^ 8) = .unlistedCommand 7 2 ⟨0, 0, 0, 0, 0, 0, 0, 0⟩ := by
  decide +kernel

/-! ## Ill-formed terms: one for each check, which the check refuses, beside well-formed neighbours -/

def okG : Guard := ⟨0, 0, 0⟩
def badG : Guard := ⟨0, 1, 0⟩
/-- The standard frame with D 1, A 2, B 3. -/
def frame : XF := ⟨0, 1, 2, 0, 0, okG, 3, 0, 0, 0⟩
/-- The standard frame with an immediate, and with neither B nor C. -/
def immFrame (n : BitVec 8) : XF := { frame with imm := 1, b := n }
def unFrame : XF := { frame with b := 0 }
def memF : MemXF := ⟨0, 4, 6, 0, 0, 2, okG, 0, 0, 0, 0, 0⟩
def goodForms : List Instr :=
  [.shli ⟨0, 1, 2, 31⟩, .addSalu ⟨0, 159, 159⟩, .sli ⟨0, 159, 0⟩, .ldBase ⟨0, 1, 158, 0⟩, .movGeneral ⟨0, 127, 159, 0, 1⟩,
   .addX frame, .addX (immFrame 3), .minX { frame with rm := 3 }, .absX { unFrame with sat := 1 }, .notX unFrame,
   .selX { frame with c := 15 }, .moviX { immFrame 0 with a := 12 }, .cmp { frame with d := 63 }, .plop { frame with c := 15 },
   .pmov { unFrame with cl := 1, d := 159 }, .vote { unFrame with cl := 1, c := 3 }, .shfl (immFrame 31),
   .xred { unFrame with c := 7, d := 126 }, .lget { immFrame 31 with cl := 1 }, .pack { frame with c := 11 },
   .unpack { unFrame with c := 26 }, .cvt (immFrame 0xD), .retag (immFrame 14), .rcp unFrame]
def goodForms2 : List Instr :=
  [.addXscalar ⟨0, 1, 2, 0, okG, 159, 0⟩, .movXscalar ⟨0, 1, 2, 0, okG, 0, 0⟩, .br ⟨0, 159, 1, 0, 5, okG, 0⟩, .jmp ⟨0, 158, 1, okG⟩,
   .ret ⟨0, 158, 0, okG⟩, .srd ⟨0, 158, 0, okG, 0x10⟩, .swr ⟨0, 9, okG, 0x18⟩, .ld memF, .lds { memF with few := 1 },
   .sts { memF with fes := 1 }, .sld { memF with ty := 3 }, .atom ⟨0, 126, 10, 0, 6, okG, 126, 0, 1, 0⟩,
   .mred ⟨0, 10, 0, 5, okG, 126, 0, 3, 2⟩, .pf ⟨0, 6, 1, okG, 8⟩, .fence ⟨0, 0, 0, 1, 1, okG⟩, .fwait ⟨0, 0, 159, 0, 0, okG⟩,
   .bar ⟨0, 0, 9, 2, 1, 1, okG, 0⟩, .monw ⟨0, 1, 2, 7, 0, 1, okG, 158, 4, 0⟩, .epush ⟨0, 1, 2, 0, okG, 4⟩, .copy ⟨0, 1, 2, 2, 0, okG, 0, 0⟩,
   .lease ⟨0, 1, 3, 0, okG, 3⟩, .mbat ⟨0, 1, 0, 0, okG⟩, .talloc ⟨0, 2, 0, 1, okG⟩, .bld ⟨0, 3, 2, 6, okG, 0, 0⟩,
   .mma ⟨0, 15, 2, 8, okG, 4, 127⟩, .mv ⟨0, 15, 2, 9, okG, 4, 127⟩, .tdrn ⟨0, 15, 127, 15, okG, 4, 0⟩, .sys ⟨0, okG, 32767⟩,
   .regset ⟨0, 1, 0, 1, 0, okG, 128⟩, .rchk ⟨0, 1, 2, okG⟩, .enq ⟨0, 1, 2, 0, okG, 3⟩, .relaunch ⟨0, 2, 1, 2, okG, 0⟩,
   .belinoLoop ⟨0, 0, 0x0101⟩, .belinoDec ⟨0, 1, 4⟩]

/-- Guards, registers and immediates of the standard frame (R55 to R58). -/
def badFrames : List Instr :=
  [.shli ⟨0, 1, 2, 32⟩, .addSalu ⟨0, 160, 0⟩, .addSalu ⟨0, 0, 160⟩, .sli ⟨0, 160, 0⟩, .ldBase ⟨0, 1, 3, 0⟩, .stBase ⟨0, 1, 160, 0⟩,
   .movGeneral ⟨0, 128, 0, 0, 0⟩, .movGeneral ⟨0, 0, 160, 0, 1⟩, .movGeneral ⟨0, 160, 0, 1, 0⟩, .movGeneral ⟨0, 0, 128, 0, 0⟩,
   .addX { frame with g := badG }, .addX { frame with d := 128 }, .addX { frame with cl := 1 }, .addX { frame with a := 128 },
   .addX { frame with a := 160, cl := 2 }, .addX { frame with b := 160, cl := 4 }, .addX { frame with c := 1 }, .addX { frame with cl := 8 },
   .addX { immFrame 3 with cl := 4 }, .mulhiX { frame with sat := 1 }, .mulhiX { frame with rm := 1 }, .fmaX { immFrame 3 with c := 0 },
   .minX { frame with sat := 1 }, .absX { unFrame with rm := 1 }, .absX frame, .notX { unFrame with sat := 1 },
   .selX { frame with c := 16 }, .moviX { immFrame 0 with a := 5 }, .moviX { immFrame 0 with a := 32 }, .moviX { frame with a := 0, b := 0 },
   .acs { frame with rm := 1 }, .bfi { frame with sat := 1 }]

/-- Predicates, exchanges and conversions (R346, R351, R372, R388 to R392, R399, R401, R417 to R419). -/
def badLanes : List Instr :=
  [.cmp { frame with d := 64 }, .plop { frame with d := 8 }, .plop { frame with a := 8 }, .plop { frame with b := 8 }, .plop { frame with c := 16 },
   .pmov { unFrame with cl := 3 }, .pmov { unFrame with d := 8 }, .vote { unFrame with cl := 1, c := 5 }, .vote { unFrame with c := 3 },
   .vote { unFrame with cl := 1, a := 8 }, .vote { unFrame with cl := 1, c := 4, a := 128 }, .shfl (immFrame 32), .shfl { frame with cl := 2 },
   .xred { unFrame with c := 8 }, .xred { unFrame with c := 6, d := 127 }, .xred { unFrame with c := 6, d := 3, cl := 1 },
   .lget { immFrame 32 with cl := 1 }, .lget (immFrame 1), .lput (immFrame 1), .pack { frame with c := 3 }, .pack { frame with c := 12 },
   .unpack { unFrame with c := 8 }, .unpack { unFrame with c := 32 }, .cvt (immFrame 0xE), .cvt { immFrame 0 with c := 4 }, .cvt (immFrame 0x81),
   .retag (immFrame 15), .rcp { unFrame with sat := 1 }]

/-- Scalars, branches and special registers (R325, R339, R365, R398, R406). -/
def badScalars : List Instr :=
  [.addXscalar ⟨0, 1, 2, 0, badG, 3, 0⟩, .addXscalar ⟨0, 160, 2, 0, okG, 3, 0⟩, .addXscalar ⟨0, 1, 160, 0, okG, 3, 0⟩,
   .addXscalar ⟨0, 1, 2, 0, okG, 160, 0⟩, .addXscalar ⟨0, 1, 2, 0, okG, 3, 1⟩, .movXscalar ⟨0, 1, 2, 1, okG, 3, 0⟩,
   .movXscalar ⟨0, 1, 2, 0, okG, 3, 0⟩, .br ⟨0, 0, 160, 0, 0, okG, 0⟩, .br ⟨0, 0, 1, 0, 6, okG, 0⟩, .br ⟨0, 160, 1, 0, 0, okG, 0⟩,
   .jmp ⟨0, 159, 0, okG⟩, .ret ⟨0, 158, 1, okG⟩, .srd ⟨0, 159, 0, okG, 0x10⟩, .srd ⟨0, 158, 1, okG, 0x10⟩, .srd ⟨0, 1, 0, okG, 0x11⟩,
   .srd ⟨0, 160, 0, okG, 1⟩, .srd ⟨0, 128, 1, okG, 1⟩, .swr ⟨0, 160, okG, 0x18⟩, .swr ⟨0, 1, okG, 0x15⟩]

/-- Memory and synchronisation (R131, R136, R217, R221, R227, R332, R366, R368, R379). -/
def badMemory : List Instr :=
  [.ld { memF with g := badG }, .ld { memF with sa := 5 }, .ld { memF with ty := 14 }, .ld { memF with scope := 1 }, .ld { memF with ord := 1 },
   .ld { memF with vt := 5, ty := 3 }, .ld { memF with vt := 6, ty := 4 }, .ld { memF with vt := 128 }, .ld { memF with vi := 1, off := 128 },
   .ld { memF with few := 1 }, .lds { memF with fes := 1 }, .lds { memF with ord := 1, scope := 3 }, .sts { memF with few := 1 },
   .sld { memF with vi := 1 }, .sld { memF with ty := 0 }, .sld { memF with ty := 3, vt := 5 }, .sld { memF with vt := 160 },
   .atom ⟨0, 126, 10, 0, 1, okG, 126, 0, 1, 0⟩, .atom ⟨0, 127, 10, 0, 0, okG, 126, 0, 1, 0⟩, .atom ⟨0, 128, 10, 0, 0, okG, 0, 0, 0, 0⟩,
   .mred ⟨0, 10, 0, 6, okG, 0, 0, 0, 0⟩, .mred ⟨0, 10, 0, 0, okG, 0, 0, 0, 1⟩, .mred ⟨0, 10, 0, 3, okG, 0, 0, 2, 0⟩, .mred ⟨0, 10, 0, 0, okG, 127, 0, 3, 0⟩,
   .pf ⟨0, 6, 2, okG, 8⟩, .cctl ⟨0, 6, 3, okG, 8⟩, .icinv ⟨0, 6, 1, okG, 8⟩, .fe ⟨0, 160, 0, okG, 8⟩, .fe ⟨0, 6, 2, okG, 8⟩,
   .fence ⟨0, 0, 0, 1, 2, okG⟩, .fence ⟨0, 0, 0, 0, 0, okG⟩, .fence ⟨0, 1, 0, 1, 0, okG⟩, .fbeg ⟨0, 160, 0, 1, 0, okG⟩, .fwait ⟨0, 0, 1, 1, 0, okG⟩,
   .bar ⟨0, 0, 0, 3, 0, 1, okG, 0⟩, .bar ⟨0, 0, 9, 0, 1, 1, okG, 5⟩, .bar ⟨0, 0, 1, 0, 0, 1, okG, 5⟩, .bar ⟨0, 1, 0, 0, 0, 1, okG, 5⟩,
   .monw ⟨0, 1, 3, 7, 0, 0, okG, 1, 4, 0⟩, .monw ⟨0, 1, 2, 7, 0, 1, okG, 1, 4, 0⟩, .yield ⟨0, 1, badG⟩, .epush ⟨0, 1, 3, 0, okG, 4⟩,
   .epush ⟨0, 1, 2, 0, okG, 5⟩, .epop ⟨0, 3, 2, 0, okG, 5⟩]

/-- Copies, engines, the matrix unit and the system (R170, R179, R192, R201, R207, R236, R290, R337, R396). -/
def badSystem : List Instr :=
  [.copy ⟨0, 1, 2, 3, 0, okG, 4, 0⟩, .copy ⟨0, 1, 2, 2, 0, okG, 4, 0⟩, .copy ⟨0, 1, 2, 0, 0, okG, 4, 1⟩, .copy ⟨0, 1, 2, 0, 0, okG, 5, 0⟩,
   .cobj ⟨0, 1, 2, okG⟩, .cpwait ⟨0, 1, 3, okG⟩, .lease ⟨0, 1, 6, 0, okG, 255⟩, .lease ⟨0, 1, 3, 0, okG, 4⟩, .lrel ⟨0, 160, 0, okG⟩,
   .lstat ⟨0, 1, 2, 1, okG⟩, .mbat ⟨0, 1, 1, 0, okG⟩, .talloc ⟨0, 3, 0, 1, okG⟩, .talloc ⟨0, 2, 1, 1, okG⟩, .tfree ⟨0, 1, 5, 0, okG⟩,
   .eng ⟨0, 1, 2, okG, 3⟩, .bld ⟨0, 3, 2, 8, okG, 0, 0⟩, .bld ⟨0, 3, 2, 3, okG, 0, 0⟩, .bld ⟨0, 4, 2, 0, okG, 0, 0⟩, .bld ⟨0, 3, 3, 0, okG, 0, 0⟩,
   .mma ⟨0, 16, 2, 0, okG, 0, 0⟩, .mma ⟨0, 1, 2, 0, okG, 2, 0⟩, .mma ⟨0, 1, 2, 8, okG, 3, 0⟩, .mv ⟨0, 1, 2, 2, okG, 0, 0⟩, .mv ⟨0, 1, 2, 0, okG, 0, 1⟩,
   .tdrn ⟨0, 1, 2, 16, okG, 2, 0⟩, .tdrn ⟨0, 1, 2, 2, okG, 2, 0⟩, .tdrn ⟨0, 1, 128, 1, okG, 2, 0⟩, .tdrn ⟨0, 1, 2, 0, okG, 3, 0⟩, .tzero ⟨0, 1, 1, okG⟩,
   .tmov ⟨0, 1, 1, badG⟩, .trap ⟨0, badG, 0⟩, .sys ⟨0, okG, 32768⟩, .exit ⟨0, badG⟩, .regset ⟨0, 1, 1, 1, 0, okG, 96⟩,
   .regset ⟨0, 1, 0, 1, 0, okG, 0⟩, .regset ⟨0, 1, 0, 1, 0, okG, 12⟩, .regset ⟨0, 1, 0, 0, 0, okG, 8⟩, .rchk ⟨0, 1, 3, okG⟩,
   .enq ⟨0, 1, 3, 0, okG, 3⟩, .relaunch ⟨0, 2, 1, 3, okG, 0⟩, .relaunch ⟨0, 2, 1, 2, okG, 2⟩, .prog ⟨0, 1, 2, 0, okG⟩,
   .belinoLdi ⟨1, 1, 0⟩, .belinoMov ⟨1, 1, 1⟩, .belinoAdd ⟨1, 1, 16⟩, .belinoLoop ⟨0, 0, 0x0100⟩, .belinoLoop ⟨1, 0, 0x0101⟩,
   .belinoBrf ⟨1, 0, 0⟩, .belinoDec ⟨0, 0, 5⟩, .belinoExit ⟨0, 0, 1⟩]

theorem test_wf_accepts : goodForms.all Instr.wf = true ∧ goodForms2.all Instr.wf = true := by decide
theorem test_wf_frames : badFrames.all (fun i => !i.wf) = true := by decide
theorem test_wf_lanes : badLanes.all (fun i => !i.wf) = true := by decide
theorem test_wf_scalars : badScalars.all (fun i => !i.wf) = true := by decide
theorem test_wf_memory : badMemory.all (fun i => !i.wf) = true := by decide
theorem test_wf_system : badSystem.all (fun i => !i.wf) = true := by decide

/-! ## Single steps: results from the worked examples of the reference entries, and from the rules by hand -/

/-- The placed team's group alone, with some registers. -/
def lab (v : Map VReg) (s p : Map Word) : State :=
  { State.reset with chip := (Chip.reset.withTeam 0).modGroup 0 fun x => { x with v := v, s := s, p := p } }

/-- One register with the same bits and tag in every lane. -/
def all (r : Nat) (b : Word) (t : BitVec 4) : Map VReg := (List.range 32).map fun l => (r * 32 + l, ⟨b, t⟩)

def vAfter (i : Instr) (s : State) (r l : Nat) : Option VReg :=
  match exec i s with
  | .next t => some (t.vreg 0 r l)
  | _ => none
def sAfter (i : Instr) (s : State) (r : Nat) : Option Word :=
  match exec i s with
  | .next t => some (t.sreg 0 r)
  | _ => none
def pAfter (i : Instr) (s : State) (r : Nat) : Option Word :=
  match exec i s with
  | .next t => some (t.preg 0 r)
  | _ => none
def pcAfter (i : Instr) (s : State) : Option Addr :=
  match exec i s with
  | .next t => (t.chip.path? 0 0).map Path.pc
  | _ => none

/-- `SUB.rd V1, V2, V2` with 3.0 gives -0; as integers 5 - 7 wraps. -/
theorem test_sub : vAfter (.subX ⟨0, 1, 2, 0, 0, okG, 2, 0, 3, 0⟩) (lab (all 2 0x40400000 tagF32) [] []) 1 7 = some ⟨0x80000000, tagF32⟩ ∧
    vAfter (.subBase ⟨0, 1, 2, 3, 0⟩) (lab (all 2 5 tagI32 ++ all 3 7 tagI32) [] []) 1 31 = some ⟨0xFFFFFFFE, tagI32⟩ := by decide +kernel
/-- 0x8000_0000 times 2: the high half by tag. -/
theorem test_mulhi : vAfter (.mulhiX { frame with d := 1 }) (lab (all 2 0x80000000 tagI32 ++ all 3 2 tagI32) [] []) 1 0 = some ⟨0xFFFFFFFF, tagI32⟩ ∧
    vAfter (.mulhiX { frame with d := 1 }) (lab (all 2 0x80000000 tagN32 ++ all 3 2 tagN32) [] []) 1 0 = some ⟨1, tagN32⟩ := by decide +kernel
/-- I16x2 products: 90 000 wraps to 24 464, or clamps. -/
theorem test_mul : vAfter (.mulX frame) (lab (all 2 0xFFFE012C tagI16 ++ all 3 0x0007012C tagI16) [] []) 1 3 = some ⟨0xFFF25F90, tagI16⟩ ∧
    vAfter (.mulX { frame with sat := 1 }) (lab (all 2 0xFFFE012C tagI16 ++ all 3 0x0007012C tagI16) [] []) 1 3 = some ⟨0xFFF27FFF, tagI16⟩ := by
  decide +kernel
theorem test_neg : vAfter (.negX unFrame) (lab (all 2 0x80000005 tagI16) [] []) 1 3 = some ⟨0x8000FFFB, tagI16⟩ ∧
    vAfter (.negX { unFrame with sat := 1 }) (lab (all 2 0x80000005 tagI16) [] []) 1 3 = some ⟨0x7FFFFFFB, tagI16⟩ := by decide +kernel
theorem test_abs : vAfter (.absX unFrame) (lab (all 2 0x80F10380 tagI8) [] []) 1 3 = some ⟨0x800F0380, tagI8⟩ ∧
    vAfter (.absX { unFrame with sat := 1 }) (lab (all 2 0x80F10380 tagI8) [] []) 1 3 = some ⟨0x7F0F037F, tagI8⟩ := by decide +kernel
theorem test_shri : vAfter (.shri ⟨0, 4, 5, 2⟩) (lab (all 5 0x80F01004 tagI8) [] []) 4 0 = some ⟨0xE0FC0401, tagI8⟩ ∧
    vAfter (.shri ⟨0, 4, 5, 2⟩) (lab (all 5 0x80F01004 tagN8) [] []) 4 0 = some ⟨0x203C0401, tagN8⟩ := by decide +kernel
theorem test_bfe : vAfter (.bfe ⟨0, 5, 6, 0, 1, okG, 12, 8, 0, 0⟩) (lab (all 6 0xABCD1234 tagI32) [] []) 5 9 = some ⟨0xFFFFFFD1, tagI32⟩ ∧
    vAfter (.bfe ⟨0, 5, 6, 0, 1, okG, 12, 8, 0, 0⟩) (lab (all 6 0xABCD1234 tagN32) [] []) 5 9 = some ⟨0xD1, tagN32⟩ := by decide +kernel
theorem test_bits : vAfter (.brev unFrame) (lab (all 2 1 tagI32) [] []) 1 0 = some ⟨0x80000000, tagI32⟩ ∧
    vAfter (.clzX unFrame) (lab (all 2 0x0001F000 tagI32) [] []) 1 0 = some ⟨15, tagN32⟩ ∧
    vAfter (.popcCompact ⟨0, 3, 2⟩) (lab (all 3 0xF0F00001 tagI32) [] []) 2 0 = some ⟨9, tagN32⟩ := by decide +kernel
/-- COS of 0.5 gives +0 and of 1.0 gives -1.0: the argument counts half turns. -/
theorem test_cos : vAfter (.cos unFrame) (lab (all 2 0x3F000000 tagF32) [] []) 1 0 = some ⟨0, tagF32⟩ ∧
    vAfter (.cos unFrame) (lab (all 2 0x3F800000 tagF32) [] []) 1 0 = some ⟨0xBF800000, tagF32⟩ := by decide +kernel
/-- `SHFL.down V4, V5, 1` guarded by P1 = 0xFF: lanes 0-7 take lane i + 1's (a source lane needs no true guard), lane 8 is not written. -/
theorem test_shfl :
    let s := lab ((List.range 32).map fun l => (5 * 32 + l, ⟨BitVec.ofNat 32 (100 + l), tagI32⟩)) [] [(1, 0xFF)]
    let i : Instr := .shfl ⟨0, 4, 5, 0, 1, ⟨1, 1, 0⟩, 1, 0, 2, 0⟩
    vAfter i s 4 6 = some ⟨107, tagI32⟩ ∧ vAfter i s 4 7 = some ⟨108, tagI32⟩ ∧ vAfter i s 4 8 = some VReg.zero ∧
    vAfter (.shfl ⟨0, 4, 5, 0, 1, okG, 1, 0, 2, 0⟩) s 4 31 = some ⟨131, tagI32⟩ := by decide +kernel
/-- `LGET S5, V9, 17` and `LPUT V9, S5, S6`: one lane of V9. -/
theorem test_lget_lput :
    sAfter (.lget ⟨0, 5, 9, 1, 1, okG, 17, 0, 0, 0⟩) (lab [(9 * 32 + 17, ⟨77, tagF32⟩)] [] []) 5 = some 77 ∧
    vAfter (.lput ⟨0, 9, 5, 6, 0, okG, 6, 0, 0, 0⟩) (lab [] [(5, 99), (6, 4)] []) 9 4 = some ⟨99, tagI32⟩ := by decide +kernel
/-- `CMP.lt P3, V4, V5`, with the lanes of V4 rising and V5 at 16. -/
theorem test_cmp :
    pAfter (.cmp ⟨0, 0x13, 4, 0, 0, okG, 5, 0, 0, 0⟩)
      (lab ((List.range 32).map (fun l => (4 * 32 + l, ⟨BitVec.ofNat 32 l, tagI32⟩)) ++ all 5 16 tagI32) [] []) 3 = some 0xFFFF := by
  decide +kernel
/-- `PLOP.andn P1, P2, P3` and `VOTE.all S5, P2`. -/
theorem test_predicates : pAfter (.plop ⟨0, 1, 2, 0, 0, okG, 3, 4, 0, 0⟩) (lab [] [] [(2, 0xF0F0F0F0), (3, 0xFF00FF00)]) 1 = some 0x00F000F0 ∧
    sAfter (.vote ⟨0, 5, 2, 1, 0, okG, 0, 1, 0, 0⟩) (lab [] [] [(2, 0xFFFFFFFF)]) 5 = some 1 ∧
    sAfter (.pmov ⟨0, 9, 4, 1, 0, okG, 0, 0, 0, 0⟩) (lab [] [] [(4, 0x1234)]) 9 = some 0x1234 := by decide +kernel
/-- `SLI S4, -1`, `SHL S4, S4, 16` after 0x1234, and `OR S4, S4, 0x5678`. -/
theorem test_scalars : sAfter (.sli ⟨0, 4, 0x3FFF⟩) (lab [] [] []) 4 = some 0xFFFFFFFF ∧
    sAfter (.shlXscalar ⟨1, 4, 4, 1, okG, 16, 0⟩) (lab [] [(4, 0x1234)] []) 4 = some 0x12340000 ∧
    sAfter (.orXscalar ⟨0, 4, 4, 1, okG, 0x78, 0x56⟩) (lab [] [(4, 0x12340000)] []) 4 = some 0x12345678 := by decide +kernel
theorem test_branches : pcAfter (.bra ⟨0, 0x3FFFE0⟩) (lab [] [] []) = some (0 - 0x40) ∧
    pcAfter (.br ⟨0, 0, 4, 1, 1, okG, 24⟩) (lab [] [(4, 1)] []) = some 0x30 ∧ pcAfter (.br ⟨0, 0, 4, 1, 1, okG, 24⟩) (lab [] [] []) = some 8 ∧
    pcAfter (.call ⟨0, 128⟩) (lab [] [] []) = some 0x100 ∧ sAfter (.call ⟨0, 128⟩) (lab [] [] []) 158 = some 4 ∧
    pcAfter (.jmp ⟨0, 20, 0, okG⟩) (lab [] [(20, 0x500), (21, 1)] []) = some 0x100000500 := by decide +kernel
/-- SRD of LANE gives each lane its number, tagged N32; PROG and its progress have no result. -/
theorem test_special : vAfter (.srd ⟨0, 3, 1, okG, 0x001⟩) (lab [] [] []) 3 21 = some ⟨21, tagN32⟩ ∧
    pcAfter (.prog ⟨0, 0, 5, 0, okG⟩) (lab [] [(5, 0x1E000)] []) = some 8 ∧ pcAfter (.stall ⟨0, 5⟩) (lab [] [] []) = some 4 := by decide +kernel
/-- The placed word runs as the first instruction: `MOVI V5, -1` and a Belino EXIT. -/
theorem test_placed : (match step (State.reset.withFetchWord 32 0xFFFE1425) with
      | .next t => some (t.vreg 0 5 0)
      | _ => none) = some ⟨0xFFFFFFFF, tagI32⟩ ∧
    (match step (State.reset.withFetchWord 32 20) with
      | .next t => some (t.chip.cluster 0).box.phase
      | _ => none) = some none := by decide +kernel

end Sys2Proof.Tests
end

