-- ==== Sys2Proof/Tests/Witnesses.lean ====
section
/-! SUPPORT. Witnesses: for the statements with hypotheses, a state and operands that meet all of them together. Each theorem
is named after its statement, and says of a small state what the statement asks of one. -/

set_option Elab.async false

namespace Sys2Proof.Tests
open Sys2Proof Sys2Proof.Machine
set_option maxRecDepth 10000

/-! ## Small states -/

/-- The acting path of a state's first group meets `q`. -/
abbrev Has (s : State) (q : Here → Prop) : Prop := ∃ h ∈ s.chip.here? 0 0, q h

/-- A state with its acting path changed. -/
def State.pathed (s : State) (f : Path → Path) : State := { s with chip := s.chip.modPath 0 0 f }

/-- A frame of V1, V2 and V3, and one with S1, S2 and S3 unguarded. -/
def xab : XF := ⟨0, 1, 2, 0, 0, okG, 3, 0, 0, 0⟩
def sab : ScalarF := ⟨0, 1, 2, 0, okG, 3, 0⟩
def ints : State := lab (all 2 5 tagI32 ++ all 3 7 tagI32) [(2, 5), (3, 7)] [(1, 0xFF), (2, 0xF0), (4, 0xFFFFFFFF)]

/-- The context's trap area at 0x300000, the supervisor's handler at 0x5000, and a page of code and data at VA 0. -/
def trapped : State :=
  let c := (ints.chip.modCore 0 fun k => { k with icache := [(0x4000, List.replicate 128 0)], tlb := [⟨0, 0, 21, 0x200000, 0x673⟩] }).modCtx 0
    fun c => { c with area := some ⟨0x10000, 0x300000, 0x4000000⟩ }
  { ints with mem := Memory.writeAll [] [(0x300001, 0x50)], chip := c }

/-! ## Lanes -/

theorem witness_LaneAddSub : Has ints fun h =>
    ints.mayIssue h (laneUses (xFrame xab) 1 [xA xab, xB xab] []) ∧
    (∀ l, l < 32 → laneBit (h.lanes xab.g) l → addTag ((xA xab).tag? h l) ((xB xab).tag? h l) = some tagI32) ∧
    h.untrapped (flagsOf ((lanesOf (h.lanes xab.g)).map fun l =>
      (l, (laneAdd ⟨xab.rm, false, h.ftz⟩ tagI32 ((xA xab).opnd h l) ((xB xab).opnd h l)).2))) := by
  decide +kernel

theorem witness_LaneProducts : Has ints fun h =>
    ints.mayIssue h (laneUses (xFrame xab) 1 [xA xab, xB xab] []) ∧
    (∀ l, l < 32 → laneBit (h.lanes xab.g) l →
      commonTag h l [xA xab, xB xab] = some tagI32 ∧ arithTag tagI32 ∧ tagIsInt tagI32 ∧ tagWidth tagI32 ≠ 8) ∧
    h.untrapped (flagsOf ((lanesOf (h.lanes xab.g)).map fun l =>
      (l, (laneMul ⟨xab.rm, false, h.ftz⟩ tagI32 ((xA xab).opnd h l) ((xB xab).opnd h l)).2))) := by
  decide +kernel
theorem witness_LaneProducts_dot :
    let s := lab (all 1 9 tagI32 ++ all 2 0x01020304 tagI8 ++ all 3 0x05060708 tagI8) [] []
    Has s fun h =>
      s.mayIssue h (laneUses (xFrame xab) 1 [xA xab, xB xab, .v 1] []) ∧
      (∀ l, l < 32 → laneBit (h.lanes xab.g) l → vectorTags h l [xA xab, xB xab] ≠ [] ∧
        commonTag h l [xA xab, xB xab] = some tagI8 ∧ dotAcc tagI8 = some (h.v 1 l).tag) ∧
      h.untrapped (flagsOf ((lanesOf (h.lanes xab.g)).map fun l =>
        (l, (laneDot ⟨xab.rm, false, h.ftz⟩ tagI8 (h.v 1 l).bits.toNat ((xA xab).opnd h l) ((xB xab).opnd h l)).2))) := by
  decide +kernel

theorem witness_LaneMinMaxAbsNeg : Has ints fun h =>
    ints.mayIssue h (laneUses (xFrame xab) 1 [xA xab] []) ∧
    (∀ l, l < 32 → laneBit (h.lanes xab.g) l → commonTag h l [xA xab] = some tagI32 ∧ arithTag tagI32) ∧
    h.untrapped (flagsOf ((lanesOf (h.lanes xab.g)).map fun l =>
      (l, (laneMinMax true ⟨rmRne, false, h.ftz⟩ tagI32 ((xA xab).opnd h l) ((xB xab).opnd h l)).2))) := by
  decide +kernel

theorem witness_LaneLogic : Has ints fun h => ints.mayIssue h (laneUses (xFrame xab) 1 [xA xab, xB xab] []) := by decide +kernel
theorem witness_LaneShifts : Has ints fun h => ints.mayIssue h (laneUses (xFrame xab) 1 [xA xab, xB xab, xC xab] []) := by
  decide +kernel
theorem witness_LaneMoves : Has ints fun h => ints.mayIssue h (laneUses (xFrame xab) 1 [xA xab, xB xab] [1]) := by decide +kernel

/-- A source of F32 in V2 and V3: PACK to F16, CVT of its element 0, RCP. -/
def floats : State := lab (all 1 0 tagF16 ++ all 2 0x40400000 tagF32 ++ all 3 0x3F800000 tagF32) [] []
theorem witness_LaneConversions_pack : Has floats fun h =>
    floats.mayIssue h (laneUses (xFrame xab) 1 [xA xab, xB xab] []) ∧
    (∀ l, l < 32 → laneBit (h.lanes xab.g) l → commonTag h l [xA xab, xB xab] = some tagF32 ∧ packPairs tagF32 tagF16) ∧
    h.untrapped (flagsOf ((lanesOf (h.lanes xab.g)).map fun l =>
      (l, (lanePack ⟨xab.rm, false, h.ftz⟩ tagF32 tagF16 ((xA xab).raw h l) ((xB xab).raw h l)).2))) := by
  decide +kernel
theorem witness_LaneConversions_cvt : Has floats fun h =>
    floats.mayIssue h (laneUses (xFrame xab) 1 [xA xab, .v 1] []) ∧
    (∀ l, l < 32 → laneBit (h.lanes xab.g) l → let t := ((xA xab).tag? h l).getD tagI32
      t ≠ tagRAW ∧ t ≠ tagADDR ∧ 0 < tagCount t) ∧
    h.untrapped (flagsOf ((lanesOf (h.lanes xab.g)).map fun l =>
      (l, (convertElem tagF32 tagF16 xab.rm false h.ftz (elem 32 0 ((xA xab).raw h l))).2))) := by
  decide +kernel
theorem witness_LaneConversions_trans : Has floats fun h =>
    floats.mayIssue h (laneUses (xFrame xab) 1 [xA xab] []) ∧
    (∀ l, l < 32 → laneBit (h.lanes xab.g) l → ((xA xab).tag? h l).getD tagF32 = tagF32) ∧
    h.untrapped (flagsOf ((lanesOf (h.lanes xab.g)).map fun l =>
      (l, (laneTrans 0 ⟨xab.rm, false, h.ftz⟩ tagF32 ((xA xab).raw h l)).2))) := by
  decide +kernel

/-! ## Scalars, predicates, exchanges -/

theorem witness_ScalarBase : Has ints fun h => h.mask ≠ 0 ∧ ints.mayIssue h ⟨[], [], [1, 2], [1], [], []⟩ := by decide +kernel
theorem witness_ScalarExtended : Has ints fun h => h.lanes sab.g ≠ 0 ∧
    ints.mayIssue h ⟨[], [], sab.sa.toNat :: (if sab.imm = 1 then [] else [sab.b.toNat]), [sab.sd.toNat], guardPs sab.g, []⟩ := by
  decide +kernel

theorem witness_Predicates_cmp : Has ints fun h =>
    ints.mayIssue h ⟨(xA xab).vs ++ (xB xab).vs, [], (xA xab).ss ++ (xB xab).ss, [], guardPs xab.g ++ [], [1]⟩ ∧
    (∀ l, l < 32 → laneBit (h.lanes xab.g) l → commonTag h l [xA xab, xB xab] = some tagI32) ∧
    h.untrapped (flagsOf ((lanesOf (h.lanes xab.g)).map fun l =>
      (l, (laneCmp 0 h.ftz tagI32 ((xA xab).opnd h l) ((xB xab).opnd h l)).2))) := by
  decide +kernel
/-- P2 = 0xF0 under ANY and P4 under ALL answer 1, P4 under NONE 0, and P2 under BALLOT its count. -/
theorem witness_Predicates_vote : Has ints fun h =>
    let L := h.lanes okG
    ints.mayIssue h ⟨[], [], [], [1], guardPs okG ++ [2], []⟩ ∧ h.pr 2 &&& L ≠ 0 ∧ h.pr 4 &&& L = L ∧
    ¬ (h.pr 4 &&& L = 0) ∧ L ≠ 0 := by
  decide +kernel
theorem witness_CrossLane : Has ints fun h =>
    h.lanes xab.g ≠ 0 ∧ ints.mayIssue h ⟨[2] ++ (xB xab).vs, [1], (xB xab).ss, [], guardPs xab.g, []⟩ ∧ pickLane h xab < 32 ∧
    (∀ l, l < 32 → laneBit (h.lanes xab.g) l → (h.v 2 l).tag = tagI32) ∧ xredTag 0 tagI32 ∧ xredTag 6 tagI32 ∧
    let leaves := (List.range 32).map fun l => if laneBit (h.lanes xab.g) l then some (h.v 2 l).bits.toNat else none
    h.untrapped (xredValue 0 ⟨xab.rm, false, h.ftz⟩ tagI32 leaves).2 ∧
    h.untrapped (xredIndex false ⟨xab.rm, false, h.ftz⟩ tagI32 leaves).2.2 ∧
    ints.mayIssue h ⟨[2], [], [], [1, 2], guardPs xab.g, []⟩ := by
  decide +kernel

/-! ## Control flow -/

/-- A jump to S2:S3 at an even address below 0xFF × 2^48, with and without its link. -/
theorem witness_Branches :
    let s := lab [] [(2, 0x500), (3, 1)] [(1, 0xFF)]
    Has s fun h => h.lanes okG ≠ 0 ∧ (h.pair 2).getLsbD 0 = false ∧ (h.pair 2).toNat < 0xFF * 2 ^ 48 ∧
      s.mayIssue h { Uses.none with ss := [2, 3], sd := [158, 159], ps := guardPs okG } ∧ s.mayIssue h Uses.none := by
  decide +kernel
/-- A per-lane branch that lanes disagree about: not taken by none of them, nor by all. -/
theorem witness_Branches_lanes : Has ints fun h =>
    ints.mayIssue h { Uses.none with ps := [1] } ∧ h.pr 1 &&& h.mask ≠ 0 ∧ h.pr 1 &&& h.mask ≠ h.mask ∧ h.pr 5 &&& h.mask = 0 ∧
    h.pr 4 &&& h.mask = h.mask := by
  decide +kernel
theorem witness_SplitsAndSides_branch : Has ints fun h =>
    ints.mayIssue h { Uses.none with ps := [1] } ∧ h.pr 1 &&& h.mask ≠ 0 ∧ h.pr 1 &&& h.mask ≠ h.mask ∧
    h.path.level = .normal ∧ h.grp.freePath = some 1 ∧ h.path.pc + 0x20 ≠ h.path.pc + 4 := by
  decide +kernel
/-- At user level the side goes on the stack. -/
theorem witness_SplitsAndSides_stack :
    let s := State.pathed ints fun x => { x with level := .user }
    Has s fun h => s.mayIssue h { Uses.none with ps := [1] } ∧ h.pr 1 &&& h.mask ≠ 0 ∧ h.pr 1 &&& h.mask ≠ h.mask ∧
      h.path.level ≠ .normal ∧ h.path.sides.length < 16 := by
  decide +kernel
/-- A path held since clk 0, with two stacked sides, at clk 5000. -/
theorem witness_SplitsAndSides_hold :
    let s := { State.pathed ints fun x => { x with
      heldSince := some 0, mask := 0xFFFFFF, stack := [⟨0x40, 0xF0000000, none⟩, ⟨0x20, 0x0F000000, none⟩] } with clk := 5000 }
    ∃ x ∈ s.chip.path? 0 0, (∃ t ∈ x.heldSince, t + 4096 ≤ s.clk) ∧ x.runSince + 4096 ≤ s.clk ∧ x.parked s.clk = false ∧
      (takeLowest x.sides).isSome := by
  decide +kernel
theorem witness_SplitsAndSides_stop :
    let s := State.pathed trapped fun x => { x with holdReq := true }
    s.plainMemory ∧ Has s fun h => (s.chip.ctx h.ctx).area = some ⟨0x10000, 0x300000, 0x4000000⟩ ∧ h.path.level ≠ .supervisor ∧
      h.path.holdReq = true ∧ h.path.dbgHeld = false ∧ h.path.wait = none ∧ h.path.blocked = none ∧ h.path.readyAt ≤ s.clk := by
  unfold State.plainMemory Chip.plainMemory
  decide +kernel

/-! ## Special registers and traps -/

theorem witness_SpecialReads : Has ints fun h => h.lanes okG ≠ 0 ∧
    ints.mayIssue h { Uses.none with vd := [1], ps := guardPs okG } ∧ ints.mayIssue h { Uses.none with sd := [1], ps := guardPs okG } := by
  decide +kernel
/-- At supervisor level in a frame, with a trap area. -/
theorem witness_SpecialReads_supervisor :
    let s := State.pathed trapped fun x => { x with level := .supervisor, supFrame := some ⟨0x10, 0xFF, 0x20, true, [], none, 0⟩ }
    Has s fun h => h.lanes okG ≠ 0 ∧ s.mayIssue h { Uses.none with sd := [1], ps := guardPs okG } ∧ h.path.level = .supervisor ∧
      h.path.supFrame.isSome ∧ (s.chip.ctx h.ctx).area = some ⟨0x10000, 0x300000, 0x4000000⟩ ∧
      (∀ e ∈ s.chip.cores, e.2.partials = []) ∧ s.chip.link.retraining = none := by
  decide +kernel
theorem witness_SpecialWrites : Has ints fun h => h.lanes okG ≠ 0 ∧
    ints.mayIssue h { Uses.none with ss := [2, 3], ps := guardPs okG } ∧ ints.mayIssue h { Uses.none with sd := [2], ps := guardPs okG } := by
  decide +kernel
/-- A USER trap, a PRIV trap, a breakpoint with no debugger, and an unassigned encoding, each to the supervisor's handler. -/
theorem witness_TrapInstructions : Has trapped fun h => h.lanes okG ≠ 0 ∧
    trapped.mayIssue h { Uses.none with ps := guardPs okG } ∧ (∀ c ∈ [causeUser, causePriv, causeBkpt, causeIllegal], ¬ h.toUser c) ∧
    trapped.acts h ∧ trapped.Inv ∧ (trapped.chip.ctx h.ctx).area = some ⟨0x10000, 0x300000, 0x4000000⟩ ∧
    h.path.level ≠ .supervisor ∧ Memory.nat trapped.mem 0x300000 8 ≠ 0 ∧ trapped.chip.pathLoads h.g h.p = [] ∧ trapped.codeHot h 2 ∧
    Memory.nat trapped.mem 0x300020 4 % 2 = 0 ∧ h.grp.emu.busy = none := by
  decide +kernel
theorem witness_TrapInstructions_plain : trapped.plainMemory := by
  unfold State.plainMemory Chip.plainMemory
  decide +kernel

/-! ## Memory

A page of 2 MiB stands at VA 0 in the core's translation cache, and the context has no trap area, so no frame window. -/

theorem noWindow_of_no_area (s : State) (h : Here) (e : (s.chip.ctx h.ctx).area = none) : s.noWindow h := by
  intro a ha
  simp [e] at ha

/-- A page mapped, S6:S7 = 0x1000, S8 = 0x40, S10 = 5, and indices of 16 bytes a lane in V9. -/
def page : State :=
  let s := lab (all 2 5 tagI32 ++ all 3 7 tagI32 ++ (List.range 32).map fun l => (9 * 32 + l, ⟨BitVec.ofNat 32 (16 * l), tagN32⟩))
    [(6, 0x1000), (8, 0x40), (10, 5)] [(1, 0xFF)]
  { s with chip := s.chip.modCore 0 fun k => { k with tlb := [⟨0, 0, 21, 0x200000, 0x673⟩] } }

/-- The lanes' places of V9's indices. -/
def pa9 (l : Nat) : Nat := 0x201000 + 16 * l

/-- What the memory instructions ask of the machine around an access. -/
def quiet (s : State) (h : Here) : Prop :=
  (s.nobodyWaits ∧ s.plainMemory) ∧ s.walked ∧ s.unsampled h ∧ h.team.raceMode ≠ 2 ∧ (s.chip.ctx h.ctx).area = none ∧
    (s.chip.pathLoads h.g h.p).length < 8 ∧ (h.slot.clock + 1).toNat % 2 ^ 14 ≠ 0

def ldF : MemXF := ⟨0, 4, 6, 1, 0, 2, okG, 9, 0, 0, 0, 0⟩
theorem witness_GlobalLoads : Has page fun h =>
    quiet page h ∧ page.mayIssue h ((memX ldF).uses false) ∧ h.lanes okG ≠ 0 ∧
    (∀ r ∈ (memX ldF).vi, ∀ l, l < 32 → laneBit (h.lanes okG) l → (indexOf (h.v r l)).isSome) ∧
    (∀ l ∈ (memX ldF).addrs h, (page.chip.region l.2 = .global ∧ l.2.toNat % 4 = 0 ∧
      page.chip.hit h.core h.runId h.ctx (Use.load h.user) l.2.toNat = some (pa9 l.1)) ∧ page.chip.poisoned (pa9 l.1) 4 = false) ∧
    page.hasRoom h { MemOp.at_ h (.ld ldF) with
      kind := .load, tag := tagI32, lanes := placedLanes ((memX ldF).addrs h) pa9, size := 4, dst := 4, regs := 1 } := by
  unfold quiet State.plainMemory Chip.plainMemory State.walked State.unsampled State.hasRoom
  decide +kernel
/-- A typed store of V2. -/
def stF : MemXF := ⟨0, 2, 6, 1, 1, 5, okG, 9, 0, 0, 0, 2⟩
theorem witness_GlobalStores : Has page fun h =>
    quiet page h ∧ page.mayIssue h ((memX stF).uses true) ∧ h.lanes okG ≠ 0 ∧
    (∀ r ∈ (memX stF).vi, ∀ l, l < 32 → laneBit (h.lanes okG) l → (indexOf (h.v r l)).isSome) ∧
    (5 ≤ (memX stF).ty ∧ ∀ l, l < 32 → laneBit (h.lanes okG) l → (h.v 2 l).tag = (memX stF).type.tag) ∧
    (∀ l ∈ (memX stF).addrs h, page.chip.region l.2 = .global ∧ l.2.toNat % (memX stF).type.size = 0 ∧
      page.chip.hit h.core h.runId h.ctx (Use.store h.user) l.2.toNat = some (pa9 l.1)) ∧
    page.hasRoom h { MemOp.at_ h (.st stF) with
      kind := .store, size := 4, rel := true, scope := 2
      lanes := (placedLanes ((memX stF).addrs h) pa9).map fun x => { x with data := fromLE (h.grp.laneBytes 2 1 4 x.lane) } } := by
  unfold quiet State.plainMemory Chip.plainMemory State.walked State.unsampled State.hasRoom
  decide +kernel
/-- ATOM.add of V2 to the lanes' words, and MRED of the same. -/
theorem witness_Reductions : Has page fun h =>
    let ls := indexedAddrs h 6 9 (h.lanes okG)
    quiet page h ∧ page.mayIssue h { Uses.none with vs := [9, 2], vd := [4], ss := [6, 7], ps := guardPs okG } ∧ h.lanes okG ≠ 0 ∧
    (∀ l, l < 32 → laneBit (h.lanes okG) l →
      (indexOf (h.v 9 l)).isSome ∧ atomTag 0 false (h.v 2 l).tag ∧ mredTag 0 (h.v 2 l).tag) ∧
    (∀ l ∈ ls, (page.chip.region l.2 = .global ∧ l.2.toNat % 4 = 0 ∧
      page.chip.hit h.core h.runId h.ctx (Use.rmw h.user) l.2.toNat = some (pa9 l.1)) ∧ page.chip.poisoned (pa9 l.1) 4 = false) ∧
    page.hasRoom h { MemOp.at_ h (.atom ⟨0, 4, 6, 0, 0, okG, 2, 9, 0, 0⟩) with
      kind := .atom, size := 4, dst := 4, regs := 1, lanes := placedLanes ls pa9 } := by
  unfold quiet State.plainMemory Chip.plainMemory State.walked State.unsampled State.hasRoom
  decide +kernel

/-- Four units of scratch from unit 3 on, every granule full, its word at 0x1C0 in the code at PC 0. -/
def scratched : State :=
  let s := lab (all 2 5 tagI32 ++ (List.range 32).map fun l => (9 * 32 + l, ⟨BitVec.ofNat 32 (16 * l), tagN32⟩)) [(6, 0x40)] []
  let c := (s.chip.modTeam 1 fun t => { t with scrUnits := 4, scrBase := 3 }).modCore 0 fun k => { k with
    full := (List.range 64).map fun g => (3 * 128 + g, true), tlb := [⟨0, 0, 21, 0x200000, 0x673⟩]
    icache := [(0x4000, leBytes 8 ((Instr.lds ⟨0, 4, 6, 1, 0, 2, okG, 9, 1, 1, 0, 0⟩).enc.map Prod.snd |>.getD 0) ++ List.replicate 120 0)] }
  { s with chip := c }
def ldsF : MemXF := ⟨0, 4, 6, 1, 0, 2, okG, 9, 1, 1, 0, 0⟩
def stsF : MemXF := ⟨0, 2, 6, 1, 0, 5, okG, 9, 0, 0, 1, 0⟩
theorem witness_ScratchAccess_loads : Has scratched fun h =>
    let m := memX ldsF
    quiet scratched h ∧ scratched.chip.groupOps h.g = [] ∧ h.team.raceMode = 0 ∧ h.lanes m.form.g ≠ 0 ∧
    (∀ r ∈ m.vi, ∀ l, l < 32 → laneBit (h.lanes m.form.g) l → (indexOf (h.v r l)).isSome) ∧
    (∀ l ∈ m.scrAddrs h, l.2.toNat + m.type.size ≤ h.team.scrSize ∧ l.2.toNat % m.type.size = 0) ∧
    scratched.mayIssue h (m.uses false) ∧ m.few = true ∧
    (∀ g ∈ scrFullGrans h m.type.size (m.scrAddrs h), (scratched.chip.core h.core).isFull g) := by
  unfold quiet State.plainMemory Chip.plainMemory State.walked State.unsampled
  decide +kernel
theorem witness_ScratchAccess_retry : Has scratched fun h => scratched.actor = (h.g, h.p) ∧
    h.team.saveBy = none ∧ h.path.wait = none ∧ h.path.blocked = none ∧ h.path.dbgHeld = false ∧ h.path.heldSince = none ∧
    h.path.readyAt ≤ scratched.clk ∧ h.path.yieldUntil ≤ scratched.clk ∧ scratched.codeHot h 8 ∧
    wordLength (leNat (scratched.code h 2)) = 8 ∧ decode (scratched.code h 8) = some (.lds ldsF, []) := by
  decide +kernel
theorem witness_ScratchAccess_stores : Has scratched fun h =>
    let m := memX stsF
    quiet scratched h ∧ scratched.chip.groupOps h.g = [] ∧ h.team.raceMode = 0 ∧ h.lanes m.form.g ≠ 0 ∧
    (∀ r ∈ m.vi, ∀ l, l < 32 → laneBit (h.lanes m.form.g) l → (indexOf (h.v r l)).isSome) ∧
    (∀ l ∈ m.scrAddrs h, l.2.toNat + m.type.size ≤ h.team.scrSize ∧ l.2.toNat % m.type.size = 0) ∧
    scratched.mayIssue h (m.uses true) ∧ 5 ≤ m.ty ∧ (∀ l, l < 32 → laneBit (h.lanes m.form.g) l → (h.v m.vt l).tag = m.type.tag) ∧
    (∀ l ∈ m.scrAddrs h, scratched.chip.matHolds h.core (fun w => w.slot = h.g && w.agent = h.agent) (h.team.scrLo + l.2.toNat)
      m.type.size = false) ∧ (scratched.chip.core h.core).order = [] := by
  unfold quiet State.plainMemory Chip.plainMemory State.walked State.unsampled
  decide +kernel

/-- A hint over 0x40 bytes from 0x1000, which lie in one page; FE over scratch. -/
theorem witness_HintInstructions : Has page fun h =>
    quiet page h ∧ h.lanes okG ≠ 0 ∧ page.mayIssue h { Uses.none with ss := [6, 7, 8], ps := guardPs okG } ∧
    page.chip.region (h.pair 6) = .global ∧
    (∀ u ∈ [Use.load h.user, ⟨false, false, false, h.user⟩], ∀ p ∈ segments (h.pair 6).toNat 0x40,
      page.chip.hit h.core h.runId h.ctx u p.1 = some (0x200000 + p.1)) ∧ (h.s 8).toNat = 0x40 ∧ page.chip.marks = [] ∧
    page.chip.groupOps h.g = [] := by
  unfold quiet State.plainMemory Chip.plainMemory State.walked State.unsampled
  decide +kernel
theorem witness_HintInstructions_fe : Has scratched fun h =>
    let s := { scratched with chip := scratched.chip.modGroup 0 fun x => { x with s := [(6, 0x40), (8, 0x40)] } }
    s.nobodyWaits ∧ (h.s 6).toNat % 16 = 0 ∧ (h.s 6).toNat + 0x40 ≤ h.team.scrSize ∧ s.chip.groupOps h.g = [] := by
  decide +kernel

/-! ## Pending accesses -/

/-- The placed team's group as the agent of an access. -/
def agent0 (s : State) : Actor :=
  match s.chip.here? 0 0 with
  | some h => h.actor
  | none => ⟨0, 0, 0, 0, 0, 0, 0, 0, 0, 0, 0, ⟨[], [], 0, [], 0, false⟩, 0, 0, true⟩
/-- A pending access of one lane at 0x201000, and a state that holds it alone. -/
def pend (k : MemKind) : MemOp :=
  { MemOp.init (agent0 page) 0 0 with
    seq := 10, kind := k, dst := 4, regs := 1, tag := tagI32
    lanes := [⟨3, 0x1000, .memory, 0x201000, true, 7 + tagI32.toNat * 2 ^ 64, 0⟩] }
def pending (o : MemOp) : State := { page with chip := { page.chip with memq := [o], seq := 50 } }
/-- What `State.ready` asks for, and what its statements ask beside it. -/
def readyFor (o : MemOp) : Prop :=
  let s := pending o
  (s.nobodyWaits ∧ s.plainMemory) ∧ s.Inv ∧ s.walked ∧ s.chip.op? 10 = some o ∧ o.held = false ∧ s.chip.mayPerform o = true ∧
    o.acq = false ∧ (∀ x ∈ o.lanes, x.space = .memory ∧ x.bound = true ∧ x.lane < 32) ∧ (o.lanes.map LaneAcc.lane).Nodup ∧
    s.chip.stillThere o.who = true ∧ o.who.mode = 0 ∧ o.rel = false ∧ ∀ x ∈ o.lanes, s.chip.poisoned x.pa o.size = false

theorem witness_LoadReturns : readyFor (pend .load) ∧ readyFor (pend .sload) := by
  unfold readyFor State.plainMemory Chip.plainMemory State.walked
  decide +kernel
theorem witness_StoresPerform : readyFor (pend .store) ∧ readyFor (pend .atom) := by
  unfold readyFor State.plainMemory Chip.plainMemory State.walked
  decide +kernel
theorem witness_PartialsCombine_combine : readyFor (pend .mred) ∧ ((pend .mred).lanes.find? fun l => l.lane = 3).isSome ∧
    ((pending (pend .mred)).chip.core 0).partials = [] ∧ ((pending (pend .mred)).chip.core 0).takesLine (0x201000 / 128) = true := by
  unfold readyFor State.plainMemory Chip.plainMemory State.walked
  decide +kernel
/-- A core holds one partial of its line. -/
theorem witness_PartialsCombine_evict :
    let s := { page with chip := page.chip.modCore 0 fun k => { k with partials := [(0x201000, ⟨0, 0, 5, []⟩)] } }
    s.Inv ∧ s.nobodyWaits ∧ (∀ e ∈ s.chip.ctxs, e.2.watch = []) ∧ (∀ e ∈ s.chip.runs, e.2.traced = false) ∧ s.chip.link.down = false ∧
    s.chip.mons = [] ∧ s.chip.partialsOf (fun k => k = 0) (0x201000 / 128) = [(0, 0x201000, ⟨0, 0, 5, []⟩)] := by
  decide +kernel
/-- A line with a mark, and one without. -/
theorem witness_PartialsCombine_line :
    let s := { page with chip := { page.chip with marks := [(65664, 77)] } }
    s.chip.summaryAt (65664 / 4 / 32) = none ∧ (∃ e ∈ s.chip.marks, e.1 / 4 = 65664 / 4) ∧ ∀ e ∈ s.chip.marks, e.1 / 4 ≠ 5 := by
  decide +kernel

/-- A store whose lane has not found its place, in a context with no root and no cached translation. -/
def unwalked (held : Bool) : MemOp :=
  { pend .store with lanes := [⟨3, 0x1000, .memory, 0, false, 7, 0⟩], held := held }
def unmapped (held : Bool) : State :=
  let s := pending (unwalked held)
  { s with chip := (s.chip.modCore 0 fun k => { k with tlb := [] }).modCtx 0 fun c => { c with root := none } }
theorem witness_StoreFaults_walk :
    let s := unmapped false
    s.chip.op? 10 = some (unwalked false) ∧ (s.chip.ctx (unwalked false).who.ctx).root = none ∧
    s.chip.window 0 (Use.store true) 0x1000 = none ∧ (s.chip.core 0).lookup 0 0x1000 = none := by
  decide +kernel
/-- The report of a held store: to a path; to the context's ring; to a launch with no fault log. -/
theorem witness_StoreFaults_report :
    let s := unmapped true
    let o := unwalked true
    s.chip.op? 10 = some o ∧ o.reported = false ∧ s.chip.stillThere o.who = true ∧
    ((s.chip.group? 0).bind fun x => x.paths.head?).isSome := by
  decide +kernel
theorem witness_StoreFaults_left :
    let s := unmapped true
    let t := { s with chip := { s.chip with slots := mset s.chip.slots 0 Slot.init } }
    let o := unwalked true
    t.chip.op? 10 = some o ∧ t.chip.stillThere o.who = false ∧ (mget? t.chip.teams o.who.tid).isSome ∧
    (t.chip.ctx o.who.ctx).area = none ∧ (mget? t.chip.runs o.who.run).map Run.flog = some 0 := by
  decide +kernel

/-- Memory that holds some bytes at some places. -/
def laid (l : List (Nat × List Byte)) : List Host.Cell :=
  Memory.writeAll [] (l.flatMap fun e => e.2.zipIdx.map fun b => (e.1 + b.2, b.1))

/-- A sample ring of 4 records at 0x300000, a period of 100 clk, at clk 250; the placed path's completed access is due. -/
def dueSample : Due := ⟨0, 0, 0, 0, 0x20, 0xFF, 1, 0xF, 4, 0, none⟩
def sampled : State :=
  let c := (page.chip.modCore 0 fun k => { k with due := [dueSample] }).modCtx 0 fun c =>
    { c with sample := some ⟨[(0x300000, 0x140)], 100, 1, 0, [], []⟩ }
  { page with mem := [(0x300000, 4)], clk := 250, chip := c }
theorem witness_SamplesAndRequestFaults_memory :
    (sampled.nobodyWaits ∧ sampled.plainMemory) ∧ sampled.Inv ∧
    ((sampled.chip.core (slotCore 0)).due.find? fun d => d.slot = 0 && d.path = 0 && (match d.seq with
       | some n => !(sampled.chip.memq.any fun o => o.seq = n) && !sampled.chip.inReplay 0 n
       | none => true)) = some dueSample ∧
    (sampled.chip.ctx 0).sample.map SampleRing.pieces = some [(0x300000, 0x140)] ∧ Memory.nat sampled.mem 0x300000 4 = 4 ∧
    Memory.nat sampled.mem 0x300004 4 = 0 ∧ Memory.nat sampled.mem 0x300008 4 = 0 := by
  unfold State.plainMemory Chip.plainMemory
  decide +kernel
theorem witness_SamplesAndRequestFaults_stall :
    (sampled.chip.ctx 0).sample.map SampleRing.sper = some 100 ∧ (sampled.clk - 0) / 100 = 2 ∧
    sampled.chip.pathsOf 0 0 1 = [] := by
  decide +kernel

/-- A copy of 32 words from 0x1000 into one row of scratch, its object at scratch 0x100. -/
def box32 : List Byte :=
  toLE 8 0x1000 ++ toLE 8 (2 ^ 56 + 0x100) ++ toLE 2 32 ++ toLE 2 1 ++ toLE 2 1 ++ toLE 2 1 ++ List.replicate 12 0 ++
    toLE 4 (2 + 32 * tagI32.toNat) ++ List.replicate 24 0
def row128 : BitVec 64 := BitVec.ofNat 64 (8 * 2 ^ 16 + 2 ^ 32 + 8 * 2 ^ 44 + tagI32.toNat * 2 ^ 56)
def boxed : CopyOp :=
  { core := 0, who := agent0 page, after := [], opm := [], dir := 0, rcd := row128, dg := false, lease := none, desc := box32
    obj := BitVec.ofNat 64 (2 ^ 56 + 0x100), total := 128, next := 1, inflight := [0], parked := [], again := [], landed := 0, feed := []
    feedOp := none, checked := false, failed := false }
/-- Scratch for the placed team, a page mapped, and one copy. -/
def copying (o : CopyOp) : State :=
  let c := scratched.chip
  { scratched with chip := { c with copies := [(1, o)], copyNext := 2 } }
/-- The same with no translation cached and nothing in the tables. -/
def faulting (o : CopyOp) : State :=
  let s := copying o
  { s with chip := s.chip.modCore 0 fun k => { k with tlb := [] } }
theorem witness_SamplesAndRequestFaults_copy :
    let s := faulting boxed
    s.chip.link.retraining = none ∧ mget? s.chip.copies 1 = some boxed ∧ 0 ∈ boxed.inflight ∧ boxed.failed = false ∧
    (match probe (sectorPlan boxed 0) s.tx with
      | .ok (some (_, va), _) => va = 0x1000
      | _ => false) = true := by
  decide +kernel

/-! ## Synchronisation -/

/-- Nothing outstanding; and a pending store that a fence covers. -/
def fenceF : FenceF := ⟨0, 1, 2, 2, 0, okG⟩
theorem witness_Fences_done : Has page fun h => h.lanes okG ≠ 0 ∧ page.chip.fenceCovers h.g 0 = [] ∧ h.fenceFull = none ∧
    (h.slot.clock + 1).toNat % 2 ^ 14 ≠ 0 ∧ page.mayIssue h { Uses.none with ps := guardPs okG } ∧
    page.mayIssue h { Uses.none with sd := [1], ps := guardPs okG } ∧ page.mayIssue h { Uses.none with ss := [2], ps := guardPs okG } := by
  decide +kernel
theorem witness_Fences_covers :
    let s := pending (pend .store)
    Has s fun h => h.lanes okG ≠ 0 ∧ s.chip.fenceCovers h.g 0 ≠ [] ∧ h.path.sides = [] ∧ h.fenceFull = none ∧
      s.mayIssue h { Uses.none with ps := guardPs okG } := by
  decide +kernel
/-- A fence of the group that covers nothing outstanding, its token in S2, and the path that waits for it. -/
def fenced (w : Option Wait) : State :=
  let c := page.chip.modGroup 0 fun x => { x with
    s := [(2, fenceToken 5 2 0)], fences := [⟨5, 0, 2, [77]⟩], fenceSerial := 5, paths := mmod x.paths 0 fun y => { y with wait := w } }
  { page with chip := c }
theorem witness_Fences_wait : Has (fenced none) fun h =>
    (h.grp.fences.find? fun x => x.serial < 65536 && fenceToken x.serial x.scope x.kind = h.s 2) = some ⟨5, 0, 2, [77]⟩ ∧
    h.path.sides = [] ∧ (fenced none).mayIssue h { Uses.none with ss := [2], ps := guardPs okG } := by
  decide +kernel
theorem witness_Fences_complete :
    let s := fenced (some (.fence 5))
    (∃ k ∈ s.chip.parkedSides, s.chip.parkedSides = [k] ∧ k.side = none ∧ k.g = 0 ∧ k.wait = .fence 5 ∧
      ∃ x ∈ s.chip.path? k.g k.p, x.wait = some k.wait ∧ x.pc = k.pc ∧ x.mask = k.mask) ∧
    (fenced none).nobodyWaits ∧ (∀ o ∈ s.chip.memq, o.seq ≠ 77) ∧ s.chip.inReplay 0 77 = false ∧
    (∃ x ∈ s.chip.group? 0, x.fences.find? (fun z => z.serial = 5) = some ⟨5, 0, 2, [77]⟩) := by
  decide +kernel

/-- MONW on the word at 0x1000, which holds 7: its comparison with S8 = 7 holds, with S9 = 5 not, for S10 = 100 clk. -/
def watching (w : Option Wait) : State :=
  let c := page.chip.modGroup 0 fun x => { x with
    s := [(6, 0x1000), (8, 7), (9, 5), (10, 100)], paths := mmod x.paths 0 fun y => { y with wait := w } }
  { page with mem := [(0x201000, 7)], clk := 500, chip := c }
def monwF (b : BitVec 8) : MonwF := ⟨0, 1, 6, 0, 0, 0, okG, b, 10, 0⟩
theorem witness_Monitors : Has (watching none) fun h =>
    let s := watching none
    ((s.nobodyWaits ∧ s.plainMemory) ∧ h.team.raceMode = 0 ∧ h.lanes okG ≠ 0 ∧ s.chip.groupOps h.g = []) ∧
    s.mayIssue h { Uses.none with ss := [6, 7, 8, 10], sd := [1], ps := guardPs okG } ∧ (s.chip.ctx h.ctx).area = none ∧
    (s.chip.region (h.pair 6) = .global ∧ (h.pair 6).toNat % 4 = 0 ∧
      s.chip.hit h.core h.runId h.ctx (Use.load h.user) (h.pair 6).toNat = some 0x201000) ∧ s.chip.poisoned 0x201000 4 = false ∧
    monCompare 0 false false (Memory.nat s.mem 0x201000 4) 7 = true ∧ monCompare 0 false false (Memory.nat s.mem 0x201000 4) 5 = false ∧
    (h.s 10).toNat ≠ 0 ∧ h.path.sides = [] ∧ s.chip.mons.length < 512 := by
  unfold State.plainMemory Chip.plainMemory
  decide +kernel
/-- A path parked on it, its deadline behind; and with an overflow entry due. -/
def monWait (v : Nat) : Wait := .monw 0x1000 0x201000 false 0 false v (some 400) 1 0 0
def overflowing (v : Nat) : State :=
  let s := watching (some (monWait v))
  { s with chip := { s.chip with mons := [⟨0, 0, 0x201000, true, 450, none, false⟩] } }
theorem witness_Monitors_parked :
    let s := overflowing 7
    ((∀ e ∈ s.chip.cores, e.2.partials = []) ∧ (∀ e ∈ s.chip.runs, e.2.traced = false) ∧ s.chip.link.retraining = none ∧
      s.chip.link.down = false) ∧
    (∃ k ∈ s.chip.parkedSides, s.chip.parkedSides = [k] ∧ k.side = none ∧ k.g = 0 ∧ k.p = 0 ∧ k.wait = monWait 7 ∧
      ∃ x ∈ s.chip.path? k.g k.p, x.wait = some k.wait ∧ x.pc = k.pc ∧ x.mask = k.mask) ∧
    monCompare 0 false false (Memory.nat s.mem 0x201000 4) 7 = true ∧ 400 ≤ s.clk ∧
    (s.chip.mons.find? fun m => m.slot = 0 && m.path = 0 && m.overflow && m.evalAt ≤ s.clk) = some ⟨0, 0, 0x201000, true, 450, none, false⟩ := by
  decide +kernel

/-- BAR on team barrier 0; an arrival of BAR.a, pending and released; a phase that is ready to release. -/
def arrived (rel : Bool) : State :=
  { page with chip := page.chip.modGroup 0 fun x => { x with arrivals := [⟨0, true, rel, 2, 1, []⟩] } }
theorem witness_Barriers : Has page fun h => h.lanes okG ≠ 0 ∧
    page.mayIssue h { Uses.none with sd := [1], ps := guardPs okG } ∧ page.chip.groupOps h.g = [] ∧
    (h.slot.clock + 1).toNat % 2 ^ 14 ≠ 0 ∧ h.grp.arrivals = [] ∧ h.path.sides = [] := by
  decide +kernel
theorem witness_Barriers_wait : Has (arrived true) fun h => (arrived true).mayIssue h { Uses.none with sd := [1], ps := guardPs okG } ∧
    (h.grp.arrivals.find? fun a => a.handle = 0).map Arrival.released = some true ∧ h.path.sides = [] := by
  decide +kernel
def teamPhase : BarPhase := ⟨0, 1, 2, 0, [(0, 3)], []⟩
def releasing : State :=
  let c := (arrived false).chip.modPath 0 0 fun y => { y with wait := some (.bar 0 (some 1)) }
  { page with chip := { c with bars := [(4, teamPhase)] } }
theorem witness_Barriers_release :
    let s := releasing
    mget? s.chip.bars 4 = some teamPhase ∧ s.chip.phaseReady teamPhase = true ∧ (mget? s.chip.runs teamPhase.run).isSome ∧
    (∃ k ∈ s.chip.parkedSides, s.chip.parkedSides = [k] ∧ k.side = none ∧ k.g = 0 ∧ k.wait = .bar 0 (some 1) ∧
      ∃ x ∈ s.chip.path? k.g k.p, x.wait = some k.wait ∧ x.pc = k.pc ∧ x.mask = k.mask) ∧
    (∃ t ∈ s.chip.teamOf 1 0, t.2.slots = [0] ∧ mget? s.chip.teams t.1 = some t.2 ∧ ∃ y ∈ s.chip.group? 0, y.tid = t.1 ∧
      (y.arrivals.find? fun a => a.handle = 0 && !a.released).isSome) := by
  decide +kernel
/-- A phase above team level whose one team has arrived. -/
def widePhase (counted : List Nat) : BarPhase := ⟨5, 1, 3, 0, [(0, 3)], counted⟩
def arriving (counted : List Nat) : State :=
  let c := page.chip.modGroup 0 fun x => { x with arrivals := [⟨5, false, false, 3, 1, []⟩] }
  { page with chip := { c with bars := [(4, widePhase counted)] } }
theorem witness_Barriers_message :
    let s := arriving []
    mget? s.chip.bars 4 = some (widePhase []) ∧
    ((s.chip.phaseTeams (widePhase [])).find? fun n => !(widePhase []).counted.contains n && (s.chip.teamOf 1 n).isSome &&
      s.chip.teamArrived (widePhase []) n) = some 0 ∧
    (arriving [0]).chip.phaseReady (widePhase [0]) = true ∧ (mget? s.chip.runs 1).map (fun r => (r.le + 1).toNat % 64) = some 1 := by
  decide +kernel

/-- An edge of 2 slots at 0x1000, empty or with one value, and a path that pushes S8:S9 or pops. -/
def edgeHdr (fill : Nat) : EdgeHdr := ⟨2, 2 - fill, fill, 0, fill % 2, false, false⟩
def edged (fill : Nat) (w : Option Wait) : State :=
  let c := page.chip.modGroup 0 fun x => { x with
    s := [(6, 0x1000), (8, 7)], paths := mmod x.paths 0 fun y => { y with wait := w } }
  { page with mem := laid [(0x201000, (edgeHdr fill).bytes), (0x201040, [9])], chip := c }
def edgeF : EdgeF := ⟨0, 2, 6, 0, okG, 8⟩
/-- What an edge instruction asks of the machine. -/
def atEdge (s : State) (fill : Nat) : Prop :=
  s.plainMemory ∧ s.Inv ∧ (s.chip.ctx 0).area = none ∧ s.chip.region 0x1000 = .global ∧
    s.chip.hit 0 1 0 (Use.rmw true) 0x1000 = some 0x201000 ∧ s.chip.hit 0 1 0 (Use.load true) 0x1040 = some 0x201040 ∧
    s.chip.hit 0 1 0 (Use.store true) (0x1040 + 8 * (fill % 2)) = some (0x201040 + 8 * (fill % 2)) ∧ s.chip.poisoned 0x201040 8 = false ∧
    EdgeHdr.of ((List.range 64).map fun i => Memory.read s.mem (0x201000 + i)) = edgeHdr fill ∧ (edgeHdr fill).bad = false
theorem witness_Edges_push : atEdge (edged 0 none) 0 ∧ (edged 0 none).nobodyWaits ∧ Has (edged 0 none) fun h => h.lanes okG ≠ 0 ∧
    h.user = true ∧ h.core = 0 ∧ h.runId = 1 ∧ h.ctx = 0 ∧ h.actor.mode = 0 ∧ h.pair 6 = 0x1000 ∧ (edged 0 none).chip.groupOps h.g = [] ∧
    (edged 0 none).mayIssue h { Uses.none with ss := [6, 7, 8, 9], sd := [2], ps := guardPs okG } ∧
    (h.slot.clock + 1).toNat % 2 ^ 14 ≠ 0 ∧ h.path.sides = [] := by
  unfold atEdge State.plainMemory Chip.plainMemory
  decide +kernel
theorem witness_Edges_pop : atEdge (edged 1 none) 1 ∧ (edged 1 none).nobodyWaits ∧ Has (edged 1 none) fun h => h.lanes okG ≠ 0 ∧
    (edged 1 none).mayIssue h { Uses.none with ss := [6, 7], sd := [2, 3, 8], ps := guardPs okG } := by
  unfold atEdge State.plainMemory Chip.plainMemory
  decide +kernel
/-- A full edge, without room for a push. -/
theorem witness_Edges_full : atEdge (edged 2 none) 2 ∧ (edgeHdr 2).free = 0 ∧ (edgeHdr 0).fill = 0 := by
  unfold atEdge State.plainMemory Chip.plainMemory
  decide +kernel
theorem witness_Edges_retry :
    let t := edged 1 (some (.epop 0x1000 2 8))
    let s := { t with chip := { t.chip with mons := [⟨0, 0, 0x201000, false, 0, none, false⟩] } }
    atEdge s 1 ∧ (∃ k ∈ s.chip.parkedSides, s.chip.parkedSides = [k] ∧ k.side = none ∧ k.wait = .epop 0x1000 2 8 ∧
      (∃ x ∈ s.chip.path? k.g k.p, x.wait = some k.wait ∧ x.pc = k.pc ∧ x.mask = k.mask) ∧
      (s.chip.parkedActor k).map Actor.mode = some 0 ∧ s.chip.firstAtEdge k false 0x201000 = true) ∧ ∀ m ∈ s.chip.mons, m.overflow = false := by
  unfold atEdge State.plainMemory Chip.plainMemory
  decide +kernel

/-! ## Sleeping engines, current, copies -/

/-- A lease of the placed team's group on a class's unit 0 of cluster 0 (core 0 for MX), in a state. -/
def lease0 (cls : Nat) (st : LeaseState) : Lease :=
  { cls := cls, place := 0, qidx := 0, serial := 1, tid := 1, slot := 0, index := 0, lslot := 0, ctx := 0, want := 0xFF, since := 0
    aged := false, state := st, unit := 0, grantAt := 0, heldAt := 0, wakeAt := 60, revokeAt := 100, opser := 0 }
/-- That lease alone, its handle in S2, at a clk; its unit runs under it. -/
def leasing (l : Lease) (now : Nat) (w : Option Wait) : State :=
  let c := page.chip.modGroup 0 fun x => { x with
    s := [(2, l.handle), (6, 0x1000)], leases := [(0, 1)], paths := mmod x.paths 0 fun y => { y with wait := w } }
  { page with clk := now, chip := { c with
    leases := [(1, l)], leaseNext := 2, units := if l.state = .queued then [] else [(unitKey l.cls 0 0, ⟨some 1, none, false⟩)] } }
theorem witness_Leases_lease : Has page fun h => h.lanes okG ≠ 0 ∧ page.mayIssue h { Uses.none with sd := [1], ps := guardPs okG } ∧
    page.chip.mxLease h.tid = none ∧ h.grp.freeLease = some 0 ∧ page.chip.freeEntry 2 (queuePlace 2 h.core) = some 0 ∧
    h.path.sides = [] := by
  decide +kernel
/-- A queue whose 64 entries are taken. -/
theorem witness_Leases_full :
    let s := { page with chip := { page.chip with leases := (List.range 64).map fun i => (i + 1, { lease0 2 .queued with qidx := i, tid := 9 }) } }
    Has s fun h => h.grp.freeLease = some 0 ∧ s.chip.freeEntry 2 (queuePlace 2 h.core) = none ∧
      s.mayIssue h { Uses.none with sd := [1], ps := guardPs okG } := by
  decide +kernel
theorem witness_Leases_release :
    let s := leasing (lease0 2 .held) 500 none
    s.nobodyWaits ∧ Has s fun h => h.lanes okG ≠ 0 ∧ s.mayIssue h { Uses.none with ss := [2], ps := guardPs okG } ∧
      s.chip.leaseBy h.tid (h.s 2) = some (1, lease0 2 .held) ∧ mget? s.chip.leases 1 = some (lease0 2 .held) ∧
      s.chip.leaseDrained 1 = true ∧ s.chip.leaseBy h.tid (h.s 3) = none ∧
      s.mayIssue h { Uses.none with ss := [2], sd := [1], ps := guardPs okG } := by
  decide +kernel

/-- What every event of a lease asks: the entry is the lease. -/
def leaseIs (s : State) (l : Lease) : Prop :=
  (s.chip.leases.find? fun x => queueKey x.2.cls x.2.place = queueKey l.cls 0 && x.2.qidx = 0) = some (1, l) ∧
    mget? s.chip.leases 1 = some l ∧ ∀ e ∈ s.chip.leases, e.1 = 1 → e.2 = l
theorem witness_LeaseEvents_grant :
    let l := lease0 2 .queued
    let s := leasing l 500 none
    leaseIs s l ∧ 0 < classUnits 2 ∧ (s.chip.unit 2 0 0).lease = none ∧ (s.chip.bestLease 2 0 0).map Prod.fst = some 1 ∧
    ((s.chip.cluster 0).reqs = [] ∧ (s.chip.cluster 0).holds (.lease 1) = false ∧ (s.chip.cluster 0).used + 1 ≤ (s.chip.cluster 0).budget ∧
      (s.chip.cluster 0).sideUsed + 1 ≤ (s.chip.cluster 0).share) := by
  unfold leaseIs
  decide +kernel
/-- Its wake is over, alone and with the path that waits for it. -/
theorem witness_LeaseEvents_wake :
    let l := lease0 2 .waking
    let s := leasing l 500 (some (.lease 1 1))
    leaseIs s l ∧ l.wakeAt ≤ s.clk ∧ (leasing l 500 none).nobodyWaits ∧
    (∃ k ∈ s.chip.parkedSides, s.chip.parkedSides = [k] ∧ k.side = none ∧ k.wait = .lease 1 1 ∧
      ∃ x ∈ s.chip.path? k.g k.p, x.wait = some k.wait ∧ x.pc = k.pc ∧ x.mask = k.mask) := by
  unfold leaseIs
  decide +kernel
theorem witness_LeaseEvents_aged :
    let l := lease0 2 .queued
    let s := leasing l 2000000 none
    leaseIs s l ∧ l.aged = false ∧ l.since + 16 * s.chip.lbound l ≤ s.clk := by
  unfold leaseIs
  decide +kernel
/-- Both units of the class are held, and another team's entry has waited four lease bounds. -/
theorem witness_LeaseEvents_notice :
    let l := lease0 2 .held
    let t := leasing l 2000000 none
    let y : Lease := { lease0 2 .queued with qidx := 2, tid := 9 }
    let other : Lease := { lease0 2 .held with qidx := 1, unit := 1, heldAt := 5 }
    let s := { t with chip := { t.chip with
      leases := [(1, l), (2, y), (3, other)], units := [(unitKey 2 0 0, ⟨some 1, none, false⟩), (unitKey 2 0 1, ⟨some 3, none, false⟩)] } }
    leaseIs s l ∧ (2, y) ∈ s.chip.queueLeases l.cls l.place ∧ s.chip.noneComing y = true ∧ s.chip.forced s.clk y = some 1 ∧
    s.chip.leaseGroup 1 = [1] := by
  unfold leaseIs
  decide +kernel
theorem witness_LeaseEvents_revoke :
    let l := lease0 2 .notice
    let s := leasing l 500 none
    leaseIs s l ∧ l.revokeAt ≤ s.clk ∧ l.cls ≠ 0 ∧ s.nobodyWaits ∧ s.chip.engops = [] ∧ s.chip.copies = [] ∧
    (s.chip.unit l.cls l.place l.unit).lease = some 1 := by
  unfold leaseIs
  decide +kernel

/-- A cluster with one request, and one over its budget. -/
def cq0 : Cq := ⟨.eng 4, 16, true, 0, 0, false⟩
theorem witness_Current_requests :
    let s := { page with clk := 70000, chip := page.chip.modCluster 0 fun k => { k with reqs := [cq0] } }
    s.nobodyWaits ∧ (s.chip.cluster 0).reqs = [cq0] ∧ (s.chip.cluster 0).used + 16 ≤ (s.chip.cluster 0).budget ∧
    (s.chip.cluster 0).sideUsed + 16 ≤ (s.chip.cluster 0).share ∧ (s.chip.cluster 0).reqs[0]? = some cq0 ∧ cq0.since + 65536 ≤ s.clk := by
  decide +kernel
theorem witness_Current_over :
    let l := lease0 2 .held
    let t := leasing l 5000 none
    let s := { t with chip := t.chip.modCluster 0 fun k => { k with grants := [{ cq0 with owner := .lease 1 }], budget := 10, overSince := some 0 } }
    (s.chip.cluster 0).overSince = some 0 ∧ (s.chip.cluster 0).over = true ∧ 4096 ≤ s.clk ∧
    (s.chip.leases.filter fun l => l.2.cluster = 0 && l.2.state = .held) = [(1, l)] ∧ s.chip.leaseGroup 1 = [1] ∧
    mget? s.chip.leases 1 = some l ∧ (page.chip.cluster 0).reqs = [] := by
  decide +kernel
/-- An operation of core 0's engine order. -/
def mat (k : MatKind) (mods : BitVec 6) : MatOp :=
  match page.chip.here? 0 0 with
  | some h => { MatOp.init k h 5 mods 0xFFFFFFFF with tile := 1 }
  | none => ⟨k, agent0 page, 0, 0, 0, 0, 0, 0, mods, 0, [], 0, 0, 0, 0, false, none, none, 0, none, none, [], [], [], [], none, 0⟩
def ordering (o : MatOp) : State :=
  { page with clk := 1000, chip := page.chip.modCore 0 fun k => { k with order := [(1, o)], orderNext := 1, tiles := [(4096 + 5, 9)] } }
theorem witness_Current_island :
    let s := ordering { mat .mv 0 with startAt := some 10, endsAt := 2000 }
    let t := { page with clk := 1000, chip := page.chip.modCore 0 fun k => { k with island := true, mvEnd := some 500 } }
    ((s.chip.core 0).island = false ∧ (s.chip.core 0).runsMv = true) ∧ (t.chip.core 0).island = true ∧ (t.chip.core 0).runsMv = false ∧
    (∀ x ∈ (t.chip.core 0).mvEnd, x + 256 ≤ t.clk) ∧ (t.chip.core (neighbour 0)).runsMv = false ∧ (t.chip.core (neighbour 0)).mvEnd = none := by
  decide +kernel

/-- A DIGEST operation of a held lease: CRC-64 of 8 bytes at 0x2000 to 0x3000, its descriptor at 0x1000. -/
def digestDesc : List Byte := toLE 4 (1 + 256 * tagRAW.toNat) ++ toLE 4 8 ++ toLE 8 0x2000 ++ toLE 8 0x3000 ++ List.replicate 40 0
def engOp : EngOp :=
  { lease := 1, cls := 2, token := (lease0 2 .held).token 0, after := 0, desc := 0x1000, who := agent0 page, started := false, startAt := 0
    parked := none, status := none, out := [], outStatus := 0, feed := false }
def digesting (o : EngOp) : State :=
  let s := leasing (lease0 2 .held) 500 none
  { s with mem := laid [(0x201000, digestDesc), (0x202000, [1, 2, 3, 4, 5, 6, 7, 8])]
           chip := { s.chip with engops := [(4, o)], engNext := 5 } }
theorem witness_Engines_eng :
    let s := leasing (lease0 2 .held) 500 none
    Has s fun h => h.lanes okG ≠ 0 ∧ s.mayIssue h { Uses.none with ss := [2, 6, 7], sd := [1], ps := guardPs okG } ∧
      s.chip.leaseBy h.tid (h.s 2) = some (1, lease0 2 .held) ∧ (s.chip.leaseOps 1).length < 8 ∧ (s.chip.ctx h.ctx).area = none := by
  decide +kernel
/-- EWAIT on a finished operation, and on one outstanding. -/
theorem witness_Engines_wait :
    let s := fun st : Option Nat => digesting { engOp with status := st }
    Has (s none) fun h => h.lanes okG ≠ 0 ∧ (s none).mayIssue h { Uses.none with ss := [2], sd := [1], ps := guardPs okG } ∧ h.path.sides = [] ∧
      (s none).chip.ewaitStatus h.tid engOp.token = none ∧ (s (some 0)).chip.ewaitStatus h.tid engOp.token = some 0 := by
  decide +kernel
theorem witness_Engines_start :
    let s := digesting engOp
    let u := engOp.who.user
    let pa := fun v => 0x200000 + v
    (s.nobodyWaits ∧ s.plainMemory) ∧ engOp.who.mode = 0 ∧ (s.chip.ctx engOp.who.ctx).area = none ∧ mget? s.chip.engops 4 = some engOp ∧
    s.chip.engTurn 4 engOp = true ∧ ((s.chip.cluster 0).reqs = [] ∧ (s.chip.cluster 0).holds (.eng 4) = false ∧
      (s.chip.cluster 0).used + 16 ≤ (s.chip.cluster 0).budget ∧ (s.chip.cluster 0).sideUsed + 16 ≤ (s.chip.cluster 0).share) ∧
    (∀ e ∈ [(Use.load u, 0x1000, 64), (Use.load u, 0x2000, 8), (Use.store u, 0x3000, 8)], s.chip.globalRange e.2.1 e.2.2 = true ∧
      ∀ p ∈ segments e.2.1 e.2.2, s.chip.hit 0 1 0 e.1 p.1 = some (pa p.1) ∧ s.chip.poisoned (pa p.1) p.2 = false) ∧
    (engOp.who.core = 0 ∧ engOp.who.run = 1 ∧ engOp.who.ctx = 0) ∧
    let d := EngDesc.of (s.bytesAt (piecesOf 0x1000 64 pa))
    d.fits 2 = true ∧ d.op = 1 ∧ d.src = 0x2000 ∧ d.count = 8 ∧ d.dst = 0x3000 := by
  unfold State.plainMemory Chip.plainMemory
  decide +kernel
theorem witness_Engines_complete :
    let o := { engOp with started := true, out := [(0x203000, [1, 2])] }
    let s := digesting o
    mget? s.chip.engops 4 = some o ∧ o.status = none ∧ o.feed = false ∧ o.who.mode = 0 ∧ (s.nobodyWaits ∧ s.plainMemory) ∧ s.Inv := by
  unfold State.plainMemory Chip.plainMemory
  decide +kernel

/-- A COPY whose descriptor stands at 0x1000 (S6:S7) and record in S10:S11, to one row of scratch. -/
def posting : State :=
  let s := scratched
  { s with
    mem := laid [(0x201000, box32)]
    chip := s.chip.modGroup 0 fun x => { x with
      s := [(6, 0x1000), (10, row128.extractLsb' 0 32), (11, row128.extractLsb' 32 32), (12, 0x100), (13, 0x1000000)] } }
theorem witness_Copies_bytes : ((List.range 64).map fun i => Memory.read posting.mem (0x201000 + i)) = box32 := by decide +kernel
theorem witness_Copies_box : let d := Box4.of box32
    d.slices = 0 ∧ boxFits d 0 false row128 = true ∧ objScratch d.obj = some 0x100 ∧ d.bytes = 128 ∧ d.rows = [d.gbase] ∧
      d.gbase = 0x1000 := by
  decide +kernel
theorem witness_Copies_copy : Has posting fun h =>
    let b := (posting.chip.core h.core).bytes (h.team.scrLo + 0x100) 16
    h.lanes okG ≠ 0 ∧ (posting.nobodyWaits ∧ posting.plainMemory) ∧ h.actor.mode = 0 ∧ (posting.chip.ctx h.ctx).area = none ∧
    posting.chip.groupOps h.g = [] ∧ posting.mayIssue h { Uses.none with ss := [8, 6, 7] ++ [10, 11] ++ [], ps := guardPs okG } ∧
    (posting.chip.region (h.pair 6) = .global ∧ (h.pair 6).toNat % 64 = 0 ∧
      posting.chip.hit h.core h.runId h.ctx (Use.load h.user) (h.pair 6).toNat = some 0x201000) ∧
    posting.chip.poisoned 0x201000 64 = false ∧ h.s 8 = 0 ∧ h.pair 10 = row128 ∧
    ((h.pair 10).getLsbD 63 = false ∧ (OpRec.of (h.pair 10)).len ≠ 0 ∧ (OpRec.of (h.pair 10)).tag ≠ 15 ∧
      (OpRec.of (h.pair 10)).endUnit ≤ h.team.scrUnits * 128) ∧ posting.chip.region 0x1000 = .global ∧ 0x100 + 16 ≤ h.team.scrSize ∧ h.team.slices = [] ∧ recNat b 8 2 < 0xFFFF ∧
    recNat b 0 4 + 128 < 2 ^ 32 ∧ posting.chip.movingCopies h.core < 64 ∧ (h.slot.clock + 1).toNat % 2 ^ 14 ≠ 0 := by
  unfold State.plainMemory Chip.plainMemory
  decide +kernel
/-- COBJ and CPWAIT on the object at scratch 0x100: EXPECTED 0 is complete, 128 of none is not. -/
theorem witness_Copies_object : Has posting fun h =>
    h.lanes okG ≠ 0 ∧ h.team.raceMode = 0 ∧ objScratch (h.pair 12) = some 0x100 ∧
    posting.mayIssue h { Uses.none with ss := [12, 13], sd := [1], ps := guardPs okG } ∧
    posting.mayIssue h { Uses.none with ss := [12, 13], ps := guardPs okG } ∧
    objDone ((posting.chip.core h.core).bytes (h.team.scrLo + 0x100) 16) = true ∧
    objDone (toLE 4 128 ++ toLE 4 0 ++ toLE 2 1 ++ List.replicate 6 0) = false ∧ h.path.sides = [] := by
  decide +kernel
/-- What every event of a copy asks. -/
def copyIs (o : CopyOp) : Prop :=
  let s := copying o
  ((s.nobodyWaits ∧ s.plainMemory) ∧ o.who.mode = 0 ∧ (s.chip.ctx o.who.ctx).area = none) ∧ mget? s.chip.copies 1 = some o ∧
    o.failed = false ∧ (mget? s.chip.teams o.who.tid).map Team.core = some o.core ∧ objScratch o.obj = some 0x100
theorem witness_Copies_start :
    let o := { boxed with next := 0, inflight := [] }
    let s := copying o
    copyIs o ∧ o.next < o.sectors ∧ o.again = [] ∧ s.chip.requestRoom o.core (slotPart o.who.slot) 1 = true ∧
    s.chip.saving o.who.tid = false ∧ o.feedOp = none ∧ ((s.chip.cluster 0).reqs = [] ∧ (s.chip.cluster 0).holds (.copy 1) = false ∧
      (s.chip.cluster 0).used + 2 ≤ (s.chip.cluster 0).budget) := by
  unfold copyIs State.plainMemory Chip.plainMemory
  decide +kernel
theorem witness_Copies_land :
    let s := copying boxed
    let d := Box4.of boxed.desc
    let r := OpRec.of boxed.rcd
    copyIs boxed ∧ 0 ∈ boxed.inflight ∧ d.esz ≤ 4 ∧ (boxed.span 0).2 / d.size = 32 ∧
    (∀ k, k < 32 → s.chip.region (d.elem k) = .global ∧ (d.elem k).toNat % d.size = 0 ∧
      s.chip.hit 0 1 0 (Use.load true) (d.elem k).toNat = some (0x201000 + 4 * k) ∧ s.chip.poisoned (0x201000 + 4 * k) d.size = false) ∧
    (boxed.who.core = 0 ∧ boxed.who.run = 1 ∧ boxed.who.ctx = 0 ∧ boxed.who.user = true) ∧
    ∀ u ∈ boxed.units 0, r.row u.1 + 16 * u.2 + 16 ≤ 0x100 ∨ 0x100 + 16 ≤ r.row u.1 + 16 * u.2 := by
  unfold copyIs State.plainMemory Chip.plainMemory
  decide +kernel
theorem witness_Copies_digest :
    let o := { boxed with dg := true, inflight := [], landed := 128, feed := [(0, List.replicate 128 0)], desc := box32 ++ List.replicate 64 0 }
    copyIs o ∧ o.checked = false ∧ o.landed = o.total := by
  unfold copyIs State.plainMemory Chip.plainMemory
  decide +kernel

/-! ## The matrix unit -/

/-- A record of some rows of a tag, from unit 0 of scratch on, each row behind the last. -/
def recordOf (rows len : Nat) (t : BitVec 4) : BitVec 64 :=
  BitVec.ofNat 64 (len * 2 ^ 16 + rows * 2 ^ 32 + len * 2 ^ 44 + t.toNat * 2 ^ 56)
def pairAt (r : Nat) (v : BitVec 64) : Map Word := [(r, v.extractLsb' 0 32), (r + 1, v.extractLsb' 32 32)]
/-- 20 units of scratch, tiles 3 and 4, an MX lease held; S2:S3 a load's record, S4:S5 an MMA's, S8:S9 a drain's, S6:S7 = 0x1000,
where a drain's descriptor names F32; S12 = 0, the number of a closed batch. -/
def tiling : State :=
  let t := leasing (lease0 0 .held) 500 none
  let c := t.chip.modTeam 1 fun x => { x with scrUnits := 20, tiles := [3, 4] }
  { t with
    mem := laid [(0x201004, [BitVec.ofNat 8 (4 * tagF32.toNat)])]
    chip := c.modGroup 0 fun x => { x with
      s := pairAt 2 (recordOf 260 8 tagF8A) ++ pairAt 4 (recordOf 32 17 tagF8A) ++ [(6, 0x1000)] ++ pairAt 8 (recordOf 32 32 tagF32)
      batches := [⟨0, []⟩], batchNo := 1 } }
def bldF : MatF := ⟨0, 1, 2, 0, okG, 6, 0⟩
/-- What all of them ask: room in the order, and the MX held. -/
theorem witness_MatrixIssue : Has tiling fun h => h.lanes okG ≠ 0 ∧
    ((tiling.chip.core h.core).order.filter fun e => e.2.status.isNone).length < 32 ∧
    tiling.chip.mxLease h.tid = some (1, lease0 0 .held) ∧ h.team.tiles[1]? = some 4 ∧ h.team.tiles[0]? = some 3 ∧
    (tiling.chip.ctx h.ctx).area = none := by
  decide +kernel
theorem witness_MatrixIssue_bld : Has tiling fun h =>
    let r := OpRec.of (h.pair 2)
    tiling.mayIssue h { Uses.none with ss := [2, 3], ps := guardPs okG } ∧
    ((h.pair 2).getLsbD 63 = false ∧ r.len ≠ 0 ∧ r.tag ≠ 15 ∧ loadTag 0 r.tag = true ∧ r.endUnit ≤ h.team.scrUnits * 128) ∧
    loadFits 0 r = true := by
  decide +kernel
theorem witness_MatrixIssue_mma : Has tiling fun h =>
    let r := OpRec.of (h.pair 4)
    tiling.mayIssue h { Uses.none with ss := [4, 5, 6], vs := [9], ps := guardPs okG } ∧
    ((h.pair 4).getLsbD 63 = false ∧ r.len ≠ 0 ∧ r.tag ≠ 15 ∧ mmaTag r.tag = true ∧ r.endUnit ≤ h.team.scrUnits * 128) ∧
    ∀ i, i < 32 → (h.lanes okG).getLsbD i → (h.v 9 i).tag = tagI32 ∨ (h.v 9 i).tag = tagN32 := by
  decide +kernel
theorem witness_MatrixIssue_drain : Has tiling fun h =>
    let r := OpRec.of (h.pair 8)
    tiling.mayIssue h { Uses.none with ss := [6, 7, 8, 9], ps := guardPs okG } ∧
    ((h.pair 8).getLsbD 63 = false ∧ r.len ≠ 0 ∧ r.tag ≠ 15 ∧ drainTag r.tag = true ∧ r.endUnit ≤ h.team.scrUnits * 128) ∧
    r.rows = 32 ∧ r.len = 8 * tagBytes r.tag := by
  decide +kernel
/-- The form that drains into registers. -/
theorem witness_MatrixIssue_registers : Has tiling fun h =>
    let dt := BitVec.ofNat 4 (bits (Memory.nat tiling.mem 0x201004 4) 2 4)
    (tiling.nobodyWaits ∧ tiling.plainMemory) ∧ h.actor.mode = 0 ∧ (h.pair 6).toNat % 64 = 0 ∧
    (tiling.chip.region (h.pair 6 + 4) = .global ∧
      tiling.chip.hit h.core h.runId h.ctx (Use.load h.user) (h.pair 6 + 4).toNat = some 0x201004) ∧
    tiling.chip.poisoned 0x201004 4 = false ∧ drainTag dt = true ∧ 16 + drainRegs dt ≤ h.grp.alloc ∧
    tiling.chip.usesPending h.g (h.lanes okG) { Uses.none with vd := (List.range (drainRegs dt)).map fun q => 16 + q } = false := by
  unfold State.plainMemory Chip.plainMemory
  decide +kernel
/-- A batch all of whose operations have completed, and one that still runs. -/
theorem witness_MatrixIssue_wait : Has tiling fun h =>
    tiling.mayIssue h { Uses.none with ss := [12], sd := [1], ps := guardPs okG } ∧
    (tiling.chip.mwaitStatus h.core h.grp (h.s 12).toNat).isSome ∧ h.path.sides = [] ∧
    (ordering (mat .mma 0)).chip.mwaitStatus 0 { h.grp with batches := [⟨0, [1]⟩] } 0 = none := by
  decide +kernel

/-- An operation alone in core 0's order, its team's MX held, slot 2 loaded. -/
def load8 : BLoad := ⟨tagF8A.toNat, 256, 0, 0, [], []⟩
def starting (o : MatOp) : State :=
  { tiling with clk := 1000, chip := tiling.chip.modCore 0 fun k => { k with order := [(1, o)], orderNext := 1, bslots := [(2, load8)] } }
/-- What every start asks: the machine calm, the operation's turn, and room for its current. -/
def mayStart (o : MatOp) : Prop :=
  let s := starting o
  ((s.nobodyWaits ∧ s.plainMemory) ∧ o.who.mode = 0 ∧ (s.chip.ctx o.who.ctx).area = none) ∧ o.who.core = 0 ∧
    mget? (s.chip.core 0).order 1 = some o ∧ s.chip.matTurn 0 1 s.clk o = true ∧
    ((s.chip.cluster 0).reqs = [] ∧ (s.chip.cluster 0).holds (.order 0 1) = false ∧ s.chip.standing 0 = 0 ∧
      (s.chip.cluster 0).used + o.kind.need ≤ (s.chip.cluster 0).budget)
theorem witness_MatrixStarts_bld : mayStart { mat .bld 0 with rcd := recordOf 260 8 tagF8A, bslot := 2 } ∧
    (OpRec.of (recordOf 260 8 tagF8A)).few = false := by
  unfold mayStart State.plainMemory Chip.plainMemory
  decide +kernel
def mmaOp (mods : BitVec 6) : MatOp := { mat .mma mods with rcd := recordOf 32 17 tagF8A, bslot := 2 }
theorem witness_MatrixStarts_mma : mayStart (mmaOp 0) ∧ (OpRec.of (mmaOp 0).rcd).few = false ∧
    (starting (mmaOp 0)).chip.mmaLoad 0 (mmaOp 0) = .ok load8 := by
  unfold mayStart State.plainMemory Chip.plainMemory
  decide +kernel
/-- An MMA with an adapter descriptor at 0x1000: one adapter of rank 4, which lane 0 selects; lane 1 names none of the table. -/
def adapting : MatOp := { mmaOp 8 with desc := 0x1000, mask := 7, ids := [0, 9, 0xFFFFFFFF] }
def adapterTable : List Byte :=
  toLE 8 0x2000 ++ toLE 8 0x8000 ++ toLE 4 0x1000 ++ toLE 4 0x1000 ++ toLE 4 0x440 ++ toLE 4 1 ++ toLE 4 256 ++ toLE 4 128 ++
    List.replicate 24 0
def adapted : State := { starting adapting with mem := laid [(0x201000, adapterTable)] }
theorem witness_MatrixStarts_adapters : ∃ ads, adapted.adapts adapting 0x1000 256 none (lanesOf adapting.mask) ads true := by
  apply Exists.intro
  unfold State.adapts
  rw [if_neg (by decide)]
  refine ⟨fun v => 0x200000 + v, fun _ v => 0x200000 + v, fun _ _ v => 0x200000 + v, ?_, ?_, ?_, ?_, rfl, ?_⟩
  all_goals (try unfold State.spans)
  all_goals decide +kernel
/-- Two teams of a pair, on cores 0 and 1, each with an MMA.p that is ready. -/
def pairRecord : List Byte :=
  List.replicate 0x40 0 ++ toLE 4 (15 * 32) ++ List.replicate 4 0 ++ toLE 4 0x20003 ++ toLE 4 0x10007 ++ List.replicate 0xB0 0
def evenOp : MatOp := { mmaOp 4 with readyAt := some 900 }
def oddOp : MatOp := { evenOp with who := { evenOp.who with core := 1, tid := 2, team := 1 }, readyAt := some 950 }
def pairing : State :=
  let s := starting evenOp
  let k := s.chip.core 0
  { s with chip := { s.chip with
      runs := mmod s.chip.runs 1 fun r => { r with record := pairRecord }
      teams := mset s.chip.teams 2 { placedTeam with core := 1, num := 1, slots := [] }
      cores := mset s.chip.cores 1 { k with order := [(1, oddOp)] } } }
theorem witness_MatrixStarts_pair :
    let s := pairing
    (s.nobodyWaits ∧ s.plainMemory) ∧ evenOp.who.core = 0 ∧ oddOp.who.core = 1 ∧ (s.chip.ctx 0).area = none ∧
    mget? (s.chip.core 0).order 1 = some evenOp ∧ mget? (s.chip.core 1).order 1 = some oddOp ∧
    s.chip.twinOp 0 evenOp = some (1, oddOp) ∧ s.chip.runPairs evenOp = true ∧ max 900 950 + 8 ≤ s.clk ∧
    s.chip.pairMatch 0 evenOp oddOp = true ∧ (OpRec.of evenOp.rcd).few = false ∧ s.chip.mmaLoad 0 evenOp = .ok load8 ∧
    s.chip.mmaLoad 1 oddOp = .ok load8 ∧ evenOp.mods.getLsbD 3 = false := by
  unfold State.plainMemory Chip.plainMemory
  decide +kernel
/-- An MV of column block 0 on two vectors of K 256, its weight descriptor at 0x1000. -/
def mvOp : MatOp := { mat .mv 0 with desc := 0x1000, sb := 0, bslot := 2 }
def vectors2 : BLoad := ⟨tagF8A.toNat, 256, 0, 2, [], []⟩
def weightDesc : List Byte := toLE 8 0x4000 ++ toLE 4 (tagF8A.toNat + 65536) ++ toLE 4 0 ++ toLE 8 0x8000 ++ toLE 8 0x2000 ++ List.replicate 32 0
def streaming : State :=
  let s := starting mvOp
  { s with mem := laid [(0x201000, weightDesc)], chip := s.chip.modCore 0 fun k => { k with bslots := [(2, vectors2)] } }
theorem witness_MatrixStarts_mv :
    let s := streaming
    let b := s.bytesAt (piecesOf 0x1000 64 fun v => 0x200000 + v)
    let w := recNat b 8 4
    mayStart mvOp ∧ mget? (s.chip.core 0).bslots mvOp.bslot = some vectors2 ∧ BitVec.ofNat 4 (bits w 0 4) = tagF8A ∧
    256 * (bits w 12 4 + 1) = 256 ∧ bits w 4 8 = 0 ∧ recNat b 0xC 4 = 0 ∧ recNat b 0 8 % 128 = 0 ∧ recNat b 0x10 8 % 128 = 0 ∧
    recNat b 0x20 8 = 0 ∧ (∀ x ∈ b.drop 0x30, x = 0) ∧ streamPair vectors2.tag4 tagF8A = true ∧ mvOp.sb.toNat < bits w 16 16 := by
  unfold mayStart State.plainMemory Chip.plainMemory
  decide +kernel
theorem witness_MatrixStarts_stream :
    let s := streaming
    ∀ r ∈ [(0x1000, 64), (0x4000, 256 * 128), (0x2000, 4 * 128)], s.chip.globalRange r.1 r.2 = true ∧ ∀ p ∈ segments r.1 r.2,
      s.chip.hit 0 1 0 (Use.load mvOp.who.user) p.1 = some (0x200000 + p.1) ∧ s.chip.poisoned (0x200000 + p.1) p.2 = false := by
  decide +kernel
theorem witness_MatrixStarts_turns : mayStart (mat .tzero 0) ∧ mayStart { mat .tmov 0 with tile2 := 3 } := by
  unfold mayStart State.plainMemory Chip.plainMemory
  decide +kernel
/-- A drain into registers, its descriptor at 0x1000 clean and without a residual. -/
def drainOp : MatOp := { mat .tdrn 1 with desc := 0x1000, dtag := tagF32.toNat, vd := 16 }
theorem witness_MatrixStarts_drain :
    let s := starting drainOp
    let b := s.bytesAt (piecesOf 0x1000 64 fun v => 0x200000 + v)
    mayStart drainOp ∧ (mget? s.chip.teams drainOp.who.tid).isSome ∧ (mget? s.chip.runs drainOp.who.run).isSome ∧
    (s.chip.globalRange 0x1000 64 = true ∧ ∀ p ∈ segments 0x1000 64,
      s.chip.hit 0 1 0 (Use.load drainOp.who.user) p.1 = some (0x200000 + p.1) ∧ s.chip.poisoned (0x200000 + p.1) p.2 = false) ∧
    (Drain.of b).clean = true ∧ (Drain.of b).res = false := by
  unfold mayStart State.plainMemory Chip.plainMemory
  decide +kernel
theorem witness_MatrixCompletions :
    let run := fun k => { mat k 0 with startAt := some 10, endsAt := 20, read := true, load := some load8 }
    (∀ k ∈ [MatKind.bld, .mma, .mv, .tzero, .tmov, .tdrn], (run k).running = true ∧ (run k).outBytes = [] ∧ (run k).outRegs = [] ∧
      (run k).outTile = [] ∧ (run k).endsAt ≤ (starting (run k)).clk ∧ mget? ((starting (run k)).chip.core 0).order 1 = some (run k)) ∧
    (starting (run .bld)).chip.unit 0 0 0 = ⟨some 1, none, false⟩ ∧
    (mget? (starting (run .bld)).chip.leases 1).map Lease.state = some .held := by
  decide +kernel

/-! ## Ends of lanes, register growth, completion -/

theorem witness_ExitAndReturn : page.nobodyWaits ∧ Has page fun h => page.mayIssue h { Uses.none with ps := guardPs okG } ∧
    h.lanes okG = h.mask ∧ h.lanes okG ≠ 0 ∧ h.path.level = .normal ∧ h.path.sides = [] := by
  decide +kernel
/-- Half of the lanes exit; the other path has a stacked side. -/
theorem witness_ExitAndReturn_part :
    let s := State.pathed ints fun x => { x with stack := [⟨0x40, 0xF0, none⟩] }
    s.nobodyWaits ∧ Has s fun h => s.mayIssue h { Uses.none with ps := guardPs ⟨1, 1, 0⟩ } ∧ h.lanes ⟨1, 1, 0⟩ ≠ 0 ∧
      h.mask &&& ~~~h.lanes ⟨1, 1, 0⟩ ≠ 0 ∧ (takeLow h.path.sides).map (fun e => e.1.wait) = some none := by
  decide +kernel
theorem witness_ExitAndReturn_tret :
    let fr : Frame := ⟨0x10, 0xFF, 0x20, true, [], none, 0⟩
    let s := State.pathed trapped fun x => { x with level := .supervisor, supFrame := some fr }
    s.nobodyWaits ∧ Has s fun h => s.mayIssue h { Uses.none with ps := guardPs okG } ∧ h.lanes okG ≠ 0 ∧ h.path.level ≠ .normal ∧
      ((∀ e ∈ s.chip.cores, e.2.partials = []) ∧ (∀ e ∈ s.chip.runs, e.2.traced = false) ∧ s.chip.link.retraining = none ∧
        s.chip.link.down = false) ∧ h.path.hstack = [] ∧ s.chip.groupOps h.g = [] ∧ h.path.supFrame = some fr ∧
      (∀ x ∈ h.path.stack ++ h.path.ustack, x.wait = none) ∧ (BitVec.ofNat 64 (Memory.nat s.mem (s.chip.framePa h + 8) 8) : Addr).getLsbD 0 = false := by
  decide +kernel

def regsetF (n : BitVec 8) (nb : BitVec 1) : RegsetF := ⟨0, 1, 0, 1, nb, okG, n⟩
theorem witness_RegisterGrowth_shrink : Has page fun h => h.lanes okG ≠ 0 ∧
    page.mayIssue h { Uses.none with sd := [1], ps := guardPs okG } ∧ h.grp.alloc = 128 ∧
    ∀ k, 64 ≤ k → k < 128 → page.chip.regPending h.g (BitVec.allOnes 32) .vector k = false := by
  decide +kernel
/-- A group of 64 registers whose REGSET of 96 stands in its code, and waits as the first grower, granted or not. -/
def growing : State :=
  let t := scratched
  let c := (t.chip.modGroup 0 fun x => { x with alloc := 64 }).modCore 0 fun k => { k with
    growers := [(0, 0, 0, 96)]
    icache := [(0x4000, leBytes 8 ((Instr.regset (regsetF 96 0)).enc.map Prod.snd |>.getD 0) ++ List.replicate 120 0)] }
  { t with chip := c }
theorem witness_RegisterGrowth_grow : Has growing fun h => h.lanes okG ≠ 0 ∧
    growing.mayIssue h { Uses.none with sd := [1], ps := guardPs okG } ∧ h.grp.alloc < 96 ∧ h.path.refuseGrow = false ∧
    (growing.chip.growersOf h.core (slotPart h.g)).head? = some (0, 0, 0, 96) ∧
    growing.chip.blocksUsed h.core (slotPart h.g) + (96 - 64) / 8 ≤ 128 ∧ growing.actor = (h.g, h.p) ∧ h.team.saveBy = none ∧
    h.path.blocked = none ∧ h.path.dbgHeld = false ∧ h.path.heldSince = none ∧ growing.codeHot h 8 ∧
    wordLength (leNat (growing.code h 2)) = 8 ∧ decode (growing.code h 8) = some (.regset (regsetF 96 0), []) := by
  decide +kernel
/-- The one group of a core waits to grow where another grower stands before it. -/
theorem witness_RegisterGrowth_wait :
    let s := { growing with chip := growing.chip.modCore 0 fun k => { k with growers := [(0, 1, 8, 96)] } }
    let t := { s with chip := s.chip.modGroup 0 fun x => { x with paths := x.paths ++ [(1, Path.start 8 0xF0 0)] } }
    Has t fun h => (t.chip.growersOf h.core (slotPart h.g)).head? = some (0, 1, 8, 96) ∧
      ∀ e ∈ (t.chip.core h.core).growers, (e.1 = h.g && e.2.1 = h.p) = false := by
  decide +kernel
theorem witness_RegisterGrowth_deadlock :
    let s := { growing with chip := (growing.chip.modGroup 0 fun x => { x with alloc := 1024 }).modCore 0 fun k =>
      { k with growers := [(0, 0, 0, 1040)] } }
    s.chip.allGrow 0 = true ∧ (s.chip.coreTeams 0).map Prod.fst = [1] ∧ (mget? s.chip.runs 1).isSome ∧
    (∀ t ∈ s.chip.coreTeams 0, t.2.saveBy = none) ∧ s.chip.blocksUsed 0 0 + (1040 - 1024) / 8 > 128 := by
  decide +kernel

/-- The placed team's group has exited, and then left its slot. -/
def exited : State := { page with chip := page.chip.modGroup 0 fun x => { x with live := 0, paths := [] } }
def departed : State :=
  { page with chip := { page.chip with
    slots := mset page.chip.slots 0 { page.chip.slot 0 with group := none, dir := [(1, ⟨1, 0, 0, 0, .resident⟩)] }
    teams := mmod page.chip.teams 1 fun t => { t with freed := [0] } } }
theorem witness_Completion_slot : ∃ x ∈ exited.chip.group? 0, x.live = 0 ∧ exited.chip.saving x.tid = false ∧
    exited.chip.drainsTo 0 = false ∧ exited.chip.opmOnGroup 0 = false ∧ exited.chip.groupOps 0 = [] := by
  decide +kernel
theorem witness_Completion_team : ∃ x ∈ mget? departed.chip.teams 1, departed.chip.teamDone 1 x = true ∧
    (mget? departed.chip.runs x.run).map Run.traced = some false ∧ (departed.chip.part 0).resetting = false := by
  decide +kernel
/-- A run whose one team is done; its completion object at 0x100, mapped to 0x200100 by the placed tables. -/
def finished (cobj : Addr) : State :=
  { page with
    mem := Memory.writeAll [] (placedTables.flatMap fun t => (toLE 8 t.2).zipIdx.map fun b => (t.1 + b.2, b.1))
    chip := { page.chip with slots := [], teams := [], runs := mmod page.chip.runs 1 fun r => { r with doneTeams := [0], cobj := cobj } } }
theorem witness_Completion_launch :
    let s := finished 0x100
    (s.nobodyWaits ∧ s.plainMemory) ∧ s.Inv ∧ (∃ r ∈ mget? s.chip.runs 1, r.status = .dispatched ∧ r.total ≤ r.doneTeams.length ∧
      r.outEdges = [] ∧ r.cobj ≠ 0 ∧ r.cobj.toNat % 16 = 0 ∧ r.ctx = 0) ∧ s.chip.memq = [] ∧ s.chip.regionq = [] ∧ s.chip.copies = [] := by
  unfold State.plainMemory Chip.plainMemory
  decide +kernel
theorem witness_Completion_mapped :
    let s := finished 0x100
    (match walk 0 ⟨false, true, false, false⟩ 0x100 s.tx with
      | .ok (.ok l, t) => decide (t = s.tx ∧ bits l.bits 8 1 = 0 ∧ l.pa + 0x100 % 2 ^ l.log2 = 0x200100)
      | _ => false) = true := by
  decide +kernel

/-! ## Aging and errors -/

/-- A slot and a run that age; nobody waits. -/
theorem witness_AgingAndErrors :
    let s := { page with chip := (page.chip.setSlot 0 { page.chip.slot 0 with aging := true, clock := 0x8000 }).modRun 1 fun r =>
      { r with leAging := true, toAge := [(5, 77)] } }
    (s.chip.slot 0).aging = true ∧ (mget? s.chip.runs 1).map Run.leAging = some true ∧ s.nobodyWaits ∧ s.chip.link.retraining = none := by
  decide +kernel
/-- The place of a team that may not restart; a copy, an order entry and an ENG operation that run; no weight set, no routine. -/
theorem witness_AgingAndErrors_sites :
    page.chip.eccTeam (.group 0) = some 1 ∧ (mget? page.chip.teams 1).isSome ∧ (mget? page.chip.runs 1).map Run.idem = some false ∧
    page.chip.opmAgainst 1 = false ∧ page.chip.wsets = [] ∧ page.chip.poison = [] ∧ page.chip.clusters = [] ∧
    (copying boxed).nobodyWaits ∧ mget? (copying boxed).chip.copies 1 = some boxed ∧ boxed.moving = true ∧
    mget? ((ordering (mat .mma 0)).chip.core 0).order 1 = some (mat .mma 0) ∧ (mat .mma 0).status = none ∧
    mget? (digesting engOp).chip.engops 4 = some engOp ∧ engOp.status = none := by
  decide +kernel

/-! ## Queues and relaunches -/

/-- A launch record of one team: its only level is the package with one instance. -/
def goodRecord : List Byte := List.replicate 0x40 0 ++ toLE 4 (15 * 32) ++ List.replicate 4 0 ++ toLE 4 0x10007 ++ List.replicate 0xB4 0
/-- A queue of the context: header at physical 0x210000, ring of 4 records at virtual 0x2000. -/
def ring4 : Queue :=
  { ctx := 0, hdr := 0x210000, dev := true, prio := 0, w := 1, ring := 0x2000, size := 4, head := 0, edges := [], state := .running,
    pol := 0, line := [], wdFrom := 0, wdFired := false }
/-- The placed machine, its tables in memory, with queue 7 holding the record at slot 0. -/
def queueing (e : Queue) (tail : Nat) : State :=
  { page with
    mem := laid ((placedTables.map fun t => (t.1, toLE 8 t.2)) ++ [(0x202000, goodRecord), (0x210010, toLE 4 tail)])
    chip := { page.chip with queues := [(7, e)] } }
theorem witness_Queues_accept :
    let s := queueing ring4 1
    let r := Run.make s.chip s.chip.lidNext 0 0 7 ((List.range 256).map fun i => Memory.read s.mem (0x202000 + i))
    s.plainMemory ∧ s.Inv ∧ (s.chip.ctx 0).state = .active ∧ s.queued ring4 = 1 ∧ s.chip.poisoned 0x202000 256 = false ∧
    (r.recordOk s.chip && r.shapeOk && r.levelsOk && r.everFits (s.chip.part 0)) = true ∧ r.traced = false ∧ r.rlog = 0 ∧
    r.outEdges = [] ∧ r.compa = 0 := by
  unfold State.plainMemory Chip.plainMemory
  decide +kernel
theorem witness_Queues_mapped :
    let s := queueing ring4 1
    (match walk 0 ⟨true, false, false, false⟩ 0x2000 s.tx with
      | .ok (.ok l, t) => decide (t = s.tx ∧ bits l.bits 8 1 = 0 ∧ l.pa + 0x2000 % 2 ^ l.log2 = 0x202000)
      | _ => false) = true := by
  decide +kernel
/-- Run 2 stands at the head of the queue's line. -/
theorem witness_Queues_head :
    let s := queueing { ring4 with line := [2] } 0
    let t := { s with chip := { s.chip with runs := mset s.chip.runs 2 { placedRun with status := .queued, record := goodRecord } } }
    (mget? t.chip.queues 7).bind (fun e => e.line.head?) = some 2 ∧ (mget? t.chip.runs 2).map Run.status = some .queued ∧
    (t.chip.part 0).resetting = false ∧ t.plainMemory ∧ t.Inv := by
  unfold State.plainMemory Chip.plainMemory
  decide +kernel
/-- ENQ of the record at S6:S7 = 0x1000 to queue S10 = 5, with room, without, and to one that is broken. -/
def enqF (nb : BitVec 1) : EnqF := ⟨0, 1, 6, nb, okG, 10⟩
def enqueueing (e : Queue) (tail : Nat) : State :=
  let s := queueing e tail
  { s with chip := { s.chip with queues := [(5, e)] } }
theorem witness_Queues_enq :
    let s := enqueueing ring4 1
    Has s fun h =>
      h.lanes okG ≠ 0 ∧ (s.nobodyWaits ∧ s.plainMemory) ∧ h.actor.mode = 0 ∧ (s.chip.ctx h.actor.ctx).area = none ∧ s.chip.groupOps h.g = [] ∧ h.ctx = 0 ∧ (h.s 10).toNat = 5 ∧ (h.pair 6).toNat % 64 = 0 ∧
      s.mayIssue h { Uses.none with ss := [6, 7, 10], sd := [1], ps := guardPs okG } ∧
      (∀ k, k < 4 → s.chip.region (h.pair 6 + BitVec.ofNat 64 (64 * k)) = .global ∧ s.chip.poisoned (0x201000 + 64 * k) 64 = false ∧
        s.chip.hit h.core h.runId h.ctx (Use.load h.user) (h.pair 6 + BitVec.ofNat 64 (64 * k)).toNat = some (0x201000 + 64 * k)) ∧
      s.queued ring4 < 4 ∧ s.enqAt h.actor h.user ring4 (h.pair 6) 0x201000 0x202100 ∧ (h.slot.clock + 1).toNat % 2 ^ 14 ≠ 0 ∧
      h.path.sides = [] ∧ s.chip.mons.length < 512 ∧ (enqueueing ring4 4).queued ring4 = 4 := by
  unfold State.plainMemory Chip.plainMemory State.enqAt
  decide +kernel
/-- The placed path waits for room in queue 5; or for its relaunch to be taken. -/
def parkedAt (w : Wait) : Parked := ⟨0, 0, none, 0, 0xFFFFFFFF, w⟩
def asleep (s : State) (w : Wait) : State := State.pathed s fun x => { x with wait := some w }
theorem witness_Queues_retry :
    let w : Wait := .enq 5 0x1000 1
    let s := asleep (enqueueing ring4 1) w
    let k := parkedAt w
    (∃ x ∈ s.chip.path? 0 0, s.waits k x) ∧ Has s (fun _ => True) ∧ s.chip.monitorDue k s.clk = true ∧
    (∃ who ∈ s.chip.parkedActor k, s.enqAt who true ring4 0x1000 0x201000 0x202100) ∧ s.queued ring4 < 4 ∧
    ((s.chip.slot 0).clock + 1).toNat % 2 ^ 14 ≠ 0 := by
  unfold State.waits State.enqAt
  decide +kernel

/-- Watch set 5 of the context, which S10 names, watches 512 tiles; its bitmap at 0x220000 names tile 3; run 1 is its launch. -/
def watch5 (st : WatchState) : Watch := ⟨0x220000, 0, 512, st, 0, 0, 1, false⟩
def relaunchF (mode : BitVec 2) : RelaunchF := ⟨0, 20, 10, mode, okG, 0⟩
def relaunching (st : WatchState) (q : QState) : State :=
  let c := page.chip.modCtx 0 fun x => { x with watch := [(5, watch5 st)] }
  { page with mem := [(0x220000, 8)], chip := { c with queues := [(0, { ring4 with state := q })] } }
theorem witness_Relaunches :
    let s := relaunching .assigned .running
    s.chip.link.retraining = none ∧ s.Inv ∧ s.nobodyWaits ∧ Has s fun h =>
      h.lanes okG ≠ 0 ∧ s.chip.groupOps h.g = [] ∧ h.path.sides = [] ∧ (page.chip.ctx h.ctx).watchOf (h.s 10).toNat = none ∧
      (s.chip.ctx h.ctx).watchOf (h.s 10).toNat = some (5, watch5 .assigned) ∧
      s.mayIssue h { Uses.none with ss := [10] ++ [], sd := [20, 21], ps := guardPs okG } ∧ (h.slot.clock + 1).toNat % 2 ^ 14 ≠ 0 := by
  decide +kernel
/-- The set relaunches; its queue has stopped; there is none; it runs, and the launch has no trace, log or edge. -/
theorem witness_Relaunches_sets :
    let s := relaunching .assigned .running
    ((relaunching .relaunching .running).chip.ctx 0).watchOf 5 = some (5, watch5 .relaunching) ∧
    (mget? page.chip.runs 1).bind (fun r => mget? page.chip.queues r.queue) = none ∧
    (∃ r ∈ mget? s.chip.runs 1, (mget? (relaunching .assigned .stopped).chip.queues r.queue).map Queue.state = some .stopped ∧
      (mget? s.chip.queues r.queue).map Queue.state = some .running ∧ r.traced = false ∧ r.rlog = 0 ∧ r.outEdges = []) := by
  decide +kernel
theorem witness_Relaunches_bitmap : ∀ t, t < 512 →
    ((relaunching .assigned .running).mem.any fun e => e.1 = 0x220000 + t / 8 && e.2.getLsbD (t % 8)) = decide (t = 3) := by
  decide +kernel
theorem witness_Relaunches_wait :
    let w : Wait := .relaunch 0 1 0 20
    let s := asleep page w
    s.chip.link.retraining = none ∧ s.Inv ∧ ∃ x ∈ s.chip.path? 0 0, s.waits (parkedAt w) x := by
  unfold State.waits
  decide +kernel

/-! ## Hooks, the guard, pre-emption -/

/-- A record of one team that is idempotent; a head run of one team; the placed machine with it as run 2. -/
def idemRecord : List Byte :=
  List.replicate 0x40 0 ++ toLE 4 (15 * 32) ++ toLE 4 1 ++ toLE 4 0x10007 ++ List.replicate 0xB4 0
def headRun : Run := { { placedRun with record := goodRecord }.split (page.chip.part 0) with status := .head }
def heading (f : Run → Run) : State :=
  { page with chip := { page.chip with runs := mset page.chip.runs 2 (f headRun), queues := [(0, { ring4 with line := [2] })] } }
/-- Cluster 0's box with some events and, where asked, a phase-H routine of a hook. -/
def hooking (s : State) (events : List HookEvent) (routine : Option Nat) : State :=
  { s with chip := s.chip.modCluster 0 fun k => { k with box := { k.box with
      events := events, routines := (routine.map fun hook => (routineKey hook none, (⟨[20], 0, 0, 0, [], false, 0⟩ : Routine))).toList } } }
theorem witness_Hooks_enq :
    let d := hooking page [⟨0, 1⟩] none
    let o := hooking page [⟨0, 1⟩] (some 0)
    d.chip.link.retraining = none ∧ (mget? d.chip.runs 1).isSome ∧ (d.chip.part 0).clusters.head? = some 0 ∧
    (d.chip.cluster 0).box.serves ⟨0, 1⟩ = true ∧ (d.chip.cluster 0).box.routines = [] ∧
    (o.chip.cluster 0).box.serves ⟨0, 1⟩ = true ∧ ((o.chip.cluster 0).box.routineFor (Call.start 0 1 0 [.run 1])).isSome := by
  decide +kernel
theorem witness_Hooks_team :
    let d := hooking page [⟨4, 1⟩] none
    let o := hooking page [⟨4, 1⟩] (some 4)
    let b := hooking page [⟨3, 1⟩] none
    (mget? d.chip.teams 1).map Team.run = some 1 ∧ (mget? d.chip.teams 1).map (fun t => coreCluster t.core) = some 0 ∧
    (d.chip.cluster 0).box.serves ⟨4, 1⟩ = true ∧ (d.chip.cluster 0).box.routines = [] ∧
    (o.chip.cluster 0).box.serves ⟨4, 1⟩ = true ∧ ((o.chip.cluster 0).box.routineFor (Call.start 4 1 0 [.run 1])).isSome ∧
    (b.chip.cluster 0).box.serves ⟨3, 1⟩ = true ∧ (b.chip.cluster 0).box.routines = [] := by
  decide +kernel
/-- A pick with no candidate. -/
theorem witness_Hooks_pick :
    let d := hooking page [⟨1, 0⟩] none
    d.chip.partOf 0 = some 0 ∧ (d.chip.cluster 0).box.serves ⟨1, 0⟩ = true ∧ d.chip.candidates 0 d.clk = [] := by
  decide +kernel
/-- What is eligible for cluster 0. -/
def eligibleOf (s : State) : Option (List Cand) :=
  match eligible 0 s.tx with
  | .ok (l, t) => if t = s.tx then some (l.map CandInfo.cand) else none
  | _ => none
theorem witness_Hooks_eligible :
    let o := hooking (heading id) [⟨1, 0⟩] (some 1)
    let t := { o with chip := o.chip.modCluster 0 fun k => k.without ⟨1, 0⟩ }
    o.chip.guards 0 o.clk = [] ∧ (o.chip.cluster 0).box.serves ⟨1, 0⟩ = true ∧ eligibleOf t = some [.run 2] ∧
    ((o.chip.cluster 0).box.routineFor (Call.start 1 0 0 [.run 2])).isSome := by
  decide +kernel
/-- A new period, and a TICK in one, with and without a routine. -/
theorem witness_Hooks_tick :
    let n := { hooking page [] none with clk := 8192 }
    let d := hooking page [⟨2, 0⟩] none
    let o := hooking page [⟨2, 0⟩] (some 2)
    (n.chip.cluster 0).box.tickAt < n.clk / 4096 ∧ eligibleOf n = some [] ∧ (n.chip.cluster 0).box.events = [] ∧
    d.clk / 4096 ≤ (d.chip.cluster 0).box.tickAt ∧ (d.chip.cluster 0).box.serves ⟨2, 0⟩ = true ∧ eligibleOf d = some [] ∧
    (o.chip.cluster 0).box.serves ⟨2, 0⟩ = true ∧ eligibleOf o = some [] ∧
    ((o.chip.cluster 0).box.routineFor (Call.start 2 0 0 [])).isSome := by
  decide +kernel

/-- An old candidate, and a guarded one beside a unit of an idempotent launch that has hardly begun. -/
theorem witness_GuardAndWatchdog_trigger :
    let s := { heading id with clk := 64 * 4096 }
    (mget? s.chip.runs 2).map (fun r => (r.status, r.part, r.guarded, r.pausedSince)) = some (.head, 0, none, none) ∧
    (match refreshAllAges s.tx with
      | .ok (_, t) => decide (t = s.tx)
      | _ => false) = true ∧
    ((s.chip.candidates 0 s.clk).find? fun x => x.cand = .run 2).map (fun y => decide ((s.chip.part 0).sbound * 4096 ≤ y.age)) = some true := by
  decide +kernel
/-- A candidate of one team of 192 units of scratch, beside a unit of eight teams, one a core, that hold a unit each. -/
def guarding : State :=
  let levels := fun (w idem : Nat) => List.replicate 0x40 0 ++ toLE 4 w ++ toLE 4 idem ++ toLE 4 0x8000C ++ toLE 4 0x10007 ++ List.replicate 0xB0 (0 : Byte)
  let s := heading fun r => { r with
    guarded := some 0, record := List.replicate 0x40 0 ++ toLE 4 (15 * 32 + 192 * 1024) ++ List.replicate 4 0 ++ toLE 4 0x10007 ++ List.replicate 0xB4 0 }
  { s with clk := 5000, chip := { s.chip with
      runs := mmod s.chip.runs 1 fun r => { r with record := levels (15 * 32) 1 }
      teams := (List.range 8).map fun k => (k + 1, { placedTeam with
        num := BitVec.ofNat 32 k, core := k, slots := if k = 0 then [0] else [], scrUnits := 1, scrAt := [0], hint := 0x10001 }) } }
theorem witness_GuardAndWatchdog_preempt :
    let s := guarding
    (mget? s.chip.runs 2).map (fun r => (r.status, r.guarded)) = some (.head, some 0) ∧ s.chip.partOf 0 = some 0 ∧
    s.chip.link.retraining = none ∧ s.chip.residentUnits (fun _ _ t => coreCluster t.core = 0) = [(1, 0)] ∧
    (s.chip.unitTeams 1 0).map Prod.fst = [1, 2, 3, 4, 5, 6, 7, 8] ∧ (∀ e ∈ s.chip.unitTeams 1 0, e.2.saveBy = none ∧ s.chip.opmAgainst e.1 = false) ∧
    (mget? s.chip.runs 1).map (fun x => chooseUnit x ((s.chip.unitTeams 1 0).map Prod.snd) s.clk false) = some .flush := by
  decide +kernel
/-- Whether an act that answers a Boolean leaves its state and answers so. -/
def answersIn (s : State) (a : Act Bool) (b : Bool) : Bool :=
  match a s.tx with
  | .ok (x, t) => x = b && decide (t = s.tx)
  | _ => false
theorem witness_GuardAndWatchdog_leaves : answersIn guarding (canPreempt [(1, 0)]) true = true := by decide +kernel
theorem witness_GuardAndWatchdog_full : answersIn guarding (fitsWithout 0 (.run 2) []) false = true := by decide +kernel
theorem witness_GuardAndWatchdog_freed : answersIn guarding (fitsWithout 0 (.run 2) [(1, 0)]) true = true := by
  decide +kernel
/-- The watchdog's queue, its one unit near the end, unless it has fired. -/
def watched (fired : Bool) : State :=
  let e := { ring4 with w := 1, wdFired := fired }
  { page with clk := 600000, chip := { page.chip with queues := [(0, e)], teams := mmod page.chip.teams 1 fun t => { t with hint := 0x1FFFF, since := 599000 } } }
theorem witness_GuardAndWatchdog_first :
    let s := watched false
    (mget? s.chip.queues 0).map (fun e => (e.w, decide (e.wdFrom + e.w * 4096 ≤ s.clk))) = some (1, true) ∧
    s.chip.link.retraining = none ∧ s.chip.residentUnits (fun _ r _ => r.queue = 0) = [(1, 0)] ∧
    (∀ t ∈ s.chip.unitTeams 1 0, t.2.saveBy = none) ∧
    (mget? s.chip.runs 1).map (fun r => chooseUnit r ((s.chip.unitTeams 1 0).map Prod.snd) s.clk true) = some .drain := by
  decide +kernel
theorem witness_GuardAndWatchdog_second :
    let s := watched true
    (mget? s.chip.queues 0).map Queue.wdFired = some true ∧ s.chip.teams.map Prod.fst = [1] ∧
    (mget? s.chip.teams 1).map (fun x => (x.run, x.saveBy)) = some (1, none) ∧ (mget? s.chip.runs 1).map Run.queue = some 0 ∧
    s.chip.opmAgainst 1 = false := by
  decide +kernel

/-! ## Saves -/

/-- The placed team with a pool of 1 MiB at 0x400000 for its context, a drain that timed out, or a save. -/
def pooled (f : Team → Team) : State :=
  let c := page.chip.modCtx 0 fun x => { x with pool := some [(0x400000, 0x100000)], area := none }
  { page with clk := 200000, chip := { c with teams := mmod c.teams 1 f } }
def saveA : Nat := page.chip.recordSize 1 placedTeam
theorem witness_Saves_drain :
    let s := pooled fun t => { t with drainBy := some 100 }
    (s.nobodyWaits ∧ s.plainMemory) ∧ s.Inv ∧ (s.chip.unitTeams 1 0).map Prod.fst = [1] ∧
    (∃ x ∈ mget? s.chip.teams 1, x.drainBy = some 100 ∧ (mget? s.chip.runs x.run).map (fun r => x.num.toNat / r.unitSize) = some 0 ∧
      (∀ g ∈ s.chip.teamGroups 1 x, ∀ e ∈ g.2.paths, e.2.late = []) ∧
      poolFit (poolSize [(0x400000, 0x100000)]) (s.chip.ctx 0).used (s.chip.recordSize 1 x) = some 0) ∧
    (s.chip.ctx 0).pool = some [(0x400000, 0x100000)] := by
  unfold State.plainMemory Chip.plainMemory
  decide +kernel
theorem witness_Saves_complete :
    let s := pooled fun t => { t with saveBy := some 300000, saveAt := some (0, saveA) }
    (s.chip.unitQuiet (s.chip.unitTeams 1 0)) = true ∧ (s.chip.unitTeams 1 0).map Prod.fst = [1] ∧
    (mget? s.chip.teams 1).map Team.saveAt = some (some (0, saveA)) ∧ (mget? s.chip.runs 1).map Run.traced = some false ∧
    (s.chip.part 0).resetting = false ∧ 16 ≤ saveA ∧ subPieces [(0x400000, 0x100000)] 0 saveA = [(0x400000, saveA)] := by
  decide +kernel
theorem witness_Saves_expiry :
    let s := pooled fun t => { t with saveBy := some 300, saveAt := some (0, saveA) }
    (s.nobodyWaits ∧ s.plainMemory) ∧ s.Inv ∧ (mget? s.chip.teams 1).map Team.saveBy = some (some 300) ∧ 300 ≤ s.clk ∧
    ∀ e ∈ s.chip.teams, s.chip.opmAgainst e.1 = false ∧ (mget? s.chip.runs e.2.run).map Run.ctx = some 0 := by
  unfold State.plainMemory Chip.plainMemory
  decide +kernel
/-- The placed team, saved, its record of 64 bytes at 0x400000 intact, chosen for cluster 0. -/
def savedTeam (s : State) : Saved :=
  { tid := 1, team := placedTeam, groups := (s.chip.teamGroups 1 placedTeam).map Prod.snd, unit := 0, addr := 0, size := 64
    pieces := [(0x400000, 64)], scratch := [], full := [], smarks := [], recGran := [], tiles := [], mats := [], copies := [], held := []
    at_ := 0, part := 0, ctx := 0, paused := 0, pausedSince := none, guarded := none, miss := [], chosen := some 0, frames := [] }
def savedCrc : Nat := (crc64 (List.replicate 0x40 0)).toNat
def restoring : State :=
  let c := page.chip.modCtx 0 fun x => { x with pool := some [(0x400000, 0x100000)], used := [(0, 64)] }
  let c := { c with slots := [], teams := [], runs := mmod c.runs 1 fun r => { r with record := goodRecord }, saved := [(3, savedTeam page)] }
  { page with mem := laid [(0x400030, toLE 8 savedCrc)], chip := c }
theorem witness_Saves_restore :
    let s := restoring
    let y := savedTeam page
    (s.nobodyWaits ∧ s.plainMemory) ∧ s.Inv ∧ mget? s.chip.saved 3 = some y ∧
    (s.chip.saved.find? fun e => e.2.team.run = 1 && e.2.team.num.toNat = y.unit) = some (3, y) ∧ s.chip.savedUnit y = [(3, y)] ∧
    s.chip.partOf 0 = some 0 ∧ s.chip.guardsLet 0 s.clk (.saved 3) = true ∧ answersIn s (saveIntact y) true = true ∧
    (s.chip.ctx 0).state = .active ∧ (s.chip.part 0).resetting = false ∧
    (∃ r ∈ mget? s.chip.runs 1, r.spans 4 = false ∧ r.spans 5 = false ∧ s.chip.wholeVersion r = true ∧ r.inEdges = [] ∧
      r.unitSize = 1 ∧ r.chunk = 1 ∧ r.declares 3 = false ∧ r.unitDom ≤ 4) ∧
    (∀ g ∈ y.groups, ∀ e ∈ g.paths, pathParked 0 0 e.2 = []) ∧ 0 ∈ clusterCores 0 ∧ s.chip.canRestore 0 y = true := by
  unfold State.plainMemory Chip.plainMemory
  decide +kernel

/-! ## Belino -/

/-- A phase of 3 cycles at word 1 of a routine on the box of cluster 0, with words in its mailbox window and its scratch. -/
def phase3 : Phase := { Phase.start 0 with pc := 1, cycles := 3, g := [(2, 0xF0), (3, 5)] }
def routine7 : Routine := ⟨[1, 2, 20], 0, 7, 0, [(5, 9)], false, 0⟩
def phasing (call : Option Call) (p : Phase) : State :=
  { State.reset with actor := (0, 0), chip := Chip.reset.modCluster 0 fun k =>
      { k with box := { k.box with routines := [(p.key, routine7)], phase := some p, call := call } } }
theorem witness_BelinoRegisters :
    let s := phasing none phase3
    let b := (s.chip.cluster 0).box
    b.phase = some phase3 ∧ mget? b.routines phase3.key = some routine7 ∧ phase3.cycles + 4 ≤ allowance (phase3.key / 1024) ∧
    b.call = none ∧ s.chip.evring = none ∧ allowance 0 < { phase3 with cycles := allowance 0 }.cycles + 1 := by
  decide +kernel
/-- The routine's T phase of hook 0, which EXIT ends; near and far words. -/
theorem witness_BelinoControl :
    let k : Call := { Call.start 0 1 0 [.run 1] with phaseT := true }
    let b := ((phasing (some k) phase3).chip.cluster 0).box
    b.call = some k ∧ b.phase = some phase3 ∧ mget? b.routines phase3.key = some routine7 ∧ k.phaseT = true ∧ k.hook = 0 ∧
    phase3.prios = [] ∧ phase3.cycles + 1 ≤ allowance (phase3.key / 1024) ∧ 40 ≤ allowance (phase3.key / 1024) - phase3.cycles ∧
    (0x8002 : BitVec 16).getLsbD 15 = true ∧ (2 : BitVec 16).getLsbD 15 = false := by
  decide +kernel

/-! ## Management commands -/

/-- A command with some of its words; a chip serving one of the hypervisor's ring, its header at 0x500000, or of context 0's. -/
def word (head : Word) (a08 a10 a18 : Addr) : Cmd := ⟨0, head, a08, a10, a18, 0, 0, 0⟩
def commanding (s : State) (ring : Nat) : State :=
  let c := s.chip.modCtx 0 fun x => { x with ring := 0x500000 }
  { s with chip := { c with cmd := some ⟨ring, 0x500140⟩, hypRing := some 0x500000 } }
theorem witness_ContextCommands_rings : ∀ ring ∈ [hypNum, 0], (commanding page ring).serves ring 0x500140 0x500000 ∧
    (commanding page ring).chip.stage = 0 := by
  unfold State.serves State.plainMemory Chip.plainMemory
  decide +kernel
/-- Whether a command passes the checks of its context on the hypervisor's ring. -/
abbrev admitted (c : Cmd) (f : Fields) : Prop := (commanding page hypNum).admits hypNum c f
theorem witness_ContextCommands_words :
    admitted (word 0 0x1000 0 0) { Fields.none with m08 := full } ∧
    admitted (word 0 0x1000 0x2000 0) { Fields.none with m08 := full, m10 := full } ∧
    admitted (word 0 0x10000 0x300000 (areaBytes ((page.chip.part 0).coreCount) / 4096 + 1)) { Fields.none with m08 := full, m10 := full, m18 := 2 ^ 32 - 1 } ∧
    admitted (word 0 (7 + 3 * 2 ^ 32) 0 0) { Fields.none with m08 := 0x3FF + 15 * 2 ^ 32 } ∧
    admitted (word 0 7 0 0) { Fields.none with m08 := 0x3FF } ∧
    admitted { word 0 5 0x220000 3 with a20 := 512 } { Fields.none with m08 := 7, m10 := full, m18 := 2 ^ 40 - 1, m20 := 2 ^ 32 - 1 } ∧
    admitted (word 0 0 0 0) debugFields ∧ admitted (word 0 0x1000 256 0) { Fields.none with m08 := full, m10 := 2 ^ 32 - 1 } ∧
    admitted (word 0 0x300000 (256 + 2 ^ 32) 0) { Fields.none with m08 := full, m10 := full } ∧
    admitted (word 0 3 0 0) { Fields.none with m08 := 7 } := by
  unfold admitted State.admits
  decide +kernel
theorem witness_ContextCommands_sizes :
    areaBytes (page.chip.part 0).coreCount ≤ (areaBytes (page.chip.part 0).coreCount / 4096 + 1) * 4096 ∧
    0x300000 + (areaBytes (page.chip.part 0).coreCount / 4096 + 1) * 4096 ≤ 2 ^ 52 ∧ 0x10000 % 4096 = 0 ∧
    (word 0 (7 + 3 * 2 ^ 32) 0 0).w08 = 7 ∧ { word 0 5 0x220000 3 with a20 := 512 }.a20.toNat % 512 = 0 ∧
    (word 0 0x300000 (256 + 2 ^ 32) 0).w10 = 256 ∧ (word 0 0x300000 (256 + 2 ^ 32) 0).w14 = 1 ∧ apart 0x500140 0x500000 0x300000 16 := by
  unfold apart
  decide +kernel
/-- A context's ring: its tables map what the argument names in one piece. -/
theorem witness_ContextCommands_bound :
    let s := { commanding page 0 with mem := laid (placedTables.map fun t : Nat × Nat => (t.1, toLE 8 t.2)) }
    (∀ w : Bool, (match hwBind 0 w 0x3000 64 s.tx with
      | .ok (.ok ps, t) => decide (t = s.tx ∧ ps = [(0x203000, 64)])
      | _ => false) = true) ∧
    (match namedPage 0 0x3000 s.tx with
      | .ok (p, t) => decide (t = s.tx ∧ p = (0, 2 ^ 21))
      | _ => false) = true := by
  decide +kernel
/-- A store that waits for its page, exited; and a page on which nothing waits. -/
theorem witness_ContextCommands_parked :
    let o := { pend .store with held := true, exited := true, faultVa := 0x1000 }
    let s := commanding (pending o) hypNum
    o.awaitsReplay 0 (0, 2 ^ 21) = true ∧ s.chip.parkedCount 0 (0, 2 ^ 21) = 1 ∧ s.nobodyWaits ∧ s.chip.copies = [] ∧
    s.chip.regionq = [] ∧ s.chip.engops = [] ∧ ∀ e ∈ s.chip.cores, e.2.order = [] := by
  decide +kernel
/-- A routine image of hook 0, phase H, whose one word is EXIT; and one of hook 7. -/
theorem witness_ContextCommands_image :
    let good := Image.of (toLE 4 1 ++ List.replicate 12 0 ++ toLE 4 20)
    let bad := Image.of (toLE 4 (1 + 7 * 512) ++ List.replicate 12 0 ++ toLE 4 20)
    imageStatus Context.init 20 good = 0 ∧ good.phaseT = false ∧ imageStatus Context.init 20 bad ≠ 0 ∧ bad.phaseT = false ∧
    ∀ b, b < 40 → (page.chip.cluster b).box.phase = none := by
  decide +kernel
/-- The placed team's path, running, and held at supervisor level. -/
theorem witness_ContextCommands_debug :
    let s := State.pathed page fun x => { x with dbgHeld := true, level := .supervisor }
    s.chip.agent 0 = 0 ∧ agentSlot 0 = 0 ∧ (s.chip.group? 0).map Group.tid = some 1 ∧ (mget? s.chip.teams 1).map Team.run = some 1 ∧
    (mget? s.chip.runs 1).map Run.ctx = some 0 ∧ bits (word 0 0 0 0).w08 24 1 = 0 ∧
    (s.chip.path? 0 0).map (fun z => (z.dbgHeld, z.level)) = some (true, .supervisor) := by
  decide +kernel
/-- A partition with eight VPS entries, as VPSQUERY answers them. -/
theorem witness_ContextCommands_vps : ({ page.chip.part 0 with vps := (List.range 8).map fun _ => VpsEntry.of 0 } : Partition).vps.length = 8 := by
  decide +kernel

/-- The command decoder's two cases; and, on context 0's ring, a context that is not its own and an image of phase H. -/
theorem witness_CommandAccess :
    (∃ e ∈ hypCommands ++ ownCommands, (e.1, e.2.1) = (5, 1)) ∧ (∀ e ∈ hypCommands ++ ownCommands, (e.1, e.2.1) ≠ (0xFF, 0)) ∧
    (0 : Nat) ≠ hypNum ∧ (word 1 0 0 0).ctx ≠ 0 ∧ (word 0 0x1000 20 0).ctx = 0 ∧
    (word 0 0x1000 20 0).headOk ⟨true, false, false⟩ = true ∧
    (word 0 0x1000 20 0).fits { Fields.none with m08 := full, m10 := 2 ^ 32 - 1 } = true ∧
    (Image.of (toLE 4 1 ++ List.replicate 12 0 ++ toLE 4 20)).phaseT = false := by
  decide +kernel

/-- A package in recovery; a reserved bit of the word at 0x04. -/
theorem witness_DeviceCommands_checks :
    let s := commanding page hypNum
    { s.chip with stage := 3 }.stage ≠ 0 ∧ bits (word 0x200 0 0 0).head.toNat 9 6 ≠ 0 ∧ bits (word 0x200000 0 0 0).head.toNat 21 11 ≠ 0 ∧
    (word 0 0x300000 0 0).headOk ⟨true, false, false⟩ = true ∧ (s.chip.ctx 0).state = .active ∧
    (word 0 0x300000 0 0).fits ⟨full, full, full, full, full, 0⟩ = true ∧
    argAt s.tx hypNum 0 true 0x300000 704 0x300000 ∧ apart 0x500140 0x500000 0x300000 4096 := by
  unfold argAt apart
  decide +kernel
/-- A configuration record of cluster 1 for partition 1, and one with LBOUND 0. -/
def partRecord (lbound : Nat) : List Byte :=
  toLE 8 2 ++ List.replicate 16 0 ++ toLE 2 lbound ++ toLE 2 64 ++ toLE 4 7 ++ List.replicate 20 0 ++ toLE 4 3600 ++ List.replicate 8 0
theorem witness_DeviceCommands_partition :
    let s := commanding page hypNum
    let c := word 0x10000 0x300000 0 0
    c.headOk ⟨false, true, false⟩ = true ∧ c.fits { Fields.none with m08 := full } = true ∧ c.part = 1 ∧
    (s.chip.part 1).resetting = false ∧ s.chip.poisoned 0x300000 64 = false ∧ recordRanges (partRecord 0) = false ∧
    recordRanges (partRecord 16) = true ∧ s.chip.configOk 1 ((s.chip.part 1).ofRecord (partRecord 16)) = true ∧
    s.chip.partTeams 1 = [] ∧ s.chip.partTeams 0 ≠ [] ∧ (word 0x10000 0 0 0).fits Fields.none = true ∧
    (s.chip.part 1).resetCmd = none ∧ s.nobodyWaits ∧ s.chip.leases = [] ∧ s.chip.marks = [] := by
  decide +kernel
/-- CTXBIND of context 3 to partition 0 with a mailbox window of 8 words; CTXFREE, with and without teams; PREEMPT. -/
theorem witness_DeviceCommands_contexts :
    let s := commanding page hypNum
    let c := word 3 (2 + (3 * 16 + 8 * 256) * 2 ^ 32) 0x600000 0
    c.headOk ⟨true, true, false⟩ = true ∧ c.fits { Fields.none with m08 := 7 + (2 ^ 21 - 1 - 12) * 2 ^ 32, m10 := full } = true ∧
    (s.chip.ctx c.ctx).state = .free ∧ c.w08 ≤ (s.chip.part 0).priocap ∧ (s.chip.part 0).hasDie 0 = true ∧ bits c.w0C 4 4 = 3 ∧
    bits c.w0C 8 13 = 8 ∧ (s.chip.boundTo 0).length < 64 ∧ s.chip.hasTeams 0 = true ∧ s.chip.hasTeams 3 = false ∧
    s.admits hypNum (word 0 1 0 0) { Fields.none with m08 := 2 ^ 32 - 1 } ∧
    (s.chip.residentUnits fun _ r _ => r.ctx = 0 && r.lid.toNat = 1) = [(1, 0)] ∧
    (s.chip.residentUnits fun _ r _ => r.ctx = 0 && r.lid.toNat = 2) = [] ∧ (∀ t ∈ s.chip.unitTeams 1 0, t.2.saveBy = none) ∧
    (mget? (watched false).chip.runs 1).map (fun r =>
      chooseUnit r (((watched false).chip.unitTeams 1 0).map Prod.snd) 600000 true) = some .drain := by
  unfold State.admits
  decide +kernel
/-- A queue header of 16 records at physical 0x300000. -/
def header16 : List Byte := toLE 8 0x2000 ++ toLE 4 16 ++ List.replicate 52 0
theorem witness_DeviceCommands_queues :
    let s := { commanding page hypNum with mem := laid [(0x300000, header16)] }
    let c := word 0 7 0x300000 0
    s.admits hypNum c { Fields.none with m08 := 0x710FFF + 0xFFFF * 2 ^ 32, m10 := full } ∧ bits c.w08 20 3 ≤ (s.chip.ctx 0).prio ∧
    mget? s.chip.queues 7 = none ∧ s.chip.poisoned 0x300000 64 = false ∧ recNat header16 0 8 % 256 = 0 ∧ recNat header16 8 4 = 2 ^ 4 ∧
    apart 0x500140 0x500000 0x300018 1 ∧ ∀ r ∈ s.chip.runs, r.2.queue ≠ 7 := by
  unfold State.admits apart
  decide +kernel
/-- QSTATE to STOPPED, FREE and RUNNING; EVRING; a VPS map and one that is not monotone; SENSCLR; ENERGY of each kind. -/
theorem witness_DeviceCommands_states :
    let s := commanding page hypNum
    s.admits hypNum (word 0 0x20007 0 0) { Fields.none with m08 := 0x30FFF } ∧ bits (word 0 0x20007 0 0).w08 16 2 = 2 ∧
    bits (word 0 0x30007 0 0).w08 16 2 = 3 ∧ bits (word 0 7 0 0).w08 16 2 = 0 ∧ ring4.ctx = 0 ∧
    (word 0 0x600000 (1 + 5 * 2 ^ 32) 0).fits { Fields.none with m08 := full, m10 := 1 + (2 ^ 32 - 1) * 2 ^ 32 } = true ∧
    (word 0 0x104 0 0).fits { Fields.none with m08 := 0xFFFF } = true ∧ (∃ ks ∈ sensorKinds 4, 1 ∈ ks) ∧
    (∀ kind, kind < 3 → (word 0 (BitVec.ofNat 64 kind) 0x300000 0).headOk ⟨kind = 0, kind = 2, false⟩ = true ∧
      (word 0 (BitVec.ofNat 64 kind) 0x300000 0).fits { Fields.none with m08 := 3, m10 := full } = true) := by
  unfold State.admits
  decide +kernel
theorem witness_DeviceCommands_vps :
    let e := fun (rel budget share : Nat) => rel + 500 * 2 ^ 16 + budget * 2 ^ 32 + share * 2 ^ 40
    vpsOk (List.replicate 8 (e 1024 120 102)) = true ∧
    vpsOk [0, 0, 0, 0, 0, 0, 0, 0] = false := by
  decide +kernel

/-! ## Weight sets -/

/-- A set of the context: 4 units at virtual 0x40000000; its first version at 0x800000 with one shard of 2 MiB, VALID or CHECKING. -/
def shard0 (st : ShardState) : Shard := { off := 0, size := 2 ^ 21, digest := 5, state := st, tier := false, checkedAt := 0 }
def version1 (shards : List Shard) : WVer := ⟨1, 0x800000, 4, 4, shards, 0⟩
def set2 (vs : List WVer) : WSet :=
  { byPart := false, owner := 0, num := 2, base := 0x40000000, units := 4, current := none, next := 2, versions := vs }
def weighing (ws : List WSet) : State :=
  let s := commanding page hypNum
  { s with chip := { s.chip with wsets := ws } }
theorem witness_WeightSets :
    let s := weighing [set2 [version1 []]]
    s.serves hypNum 0x500140 0x500000 ∧ s.chip.saved = [] ∧ (∀ r ∈ s.chip.runs, r.2.status ≠ .head) ∧ s.chip.stage = 0 ∧
    s.chip.evring = none := by
  unfold State.serves State.plainMemory Chip.plainMemory
  decide +kernel
/-- WSDEF of a new set, of one with versions and of one without; WSNEW of a version, and of a fifth. -/
theorem witness_WeightSets_define :
    let c := word 0 3 0x40000000 4
    c.headOk ⟨true, false, true⟩ = true ∧ c.fits { Fields.none with m08 := 0xFF, m10 := full, m18 := 2 ^ 32 - 1 } = true ∧ c.w08 = 3 ∧
    (weighing [set2 [version1 []]]).chip.setAt false 0 3 = none ∧
    (weighing [set2 [version1 []]]).chip.setAt false 0 2 = some (0, set2 [version1 []]) ∧
    (weighing [set2 []]).chip.setAt false 0 2 = some (0, set2 []) ∧
    (word 0 (2 + 4 * 2 ^ 32) 0 0).fits { Fields.none with m08 := 0xFF + (2 ^ 32 - 1) * 2 ^ 32 } = true ∧
    ((weighing []).chip.part 0).privws = false := by
  decide +kernel
/-- WSDROP of a version that nothing binds, and of one that run 1 binds; WSCOMMIT of a shard behind another. -/
theorem witness_WeightSets_versions :
    let w := set2 [version1 [shard0 .valid]]
    let s := weighing [w]
    w.version (bits (word 0 0x10002 0 0).w08 16 16) = some (version1 [shard0 .valid]) ∧
    (word 0 0x10002 0 0).fits { Fields.none with m08 := 0xFFFF00FF } = true ∧ s.chip.versionBound w 1 = false ∧
    ({ s.chip with runs := mmod s.chip.runs 1 fun r => { r with
      wver := some 1, record := r.record.take 0x5C ++ toLE 4 2 ++ r.record.drop 0x60 } } : Chip).versionBound w 1 = true := by
  decide +kernel
theorem witness_WeightSets_commit :
    let c := word 0 (0x10002 + (1 + 2 + 4096) * 2 ^ 32) 0x200000 5
    c.fits ⟨0xFFFF00FF + (2 ^ 32 - 1 - 0xFFC) * 2 ^ 32, full, full, full, full, full⟩ = true ∧ bits c.w0C 12 20 = 1 ∧ bits c.w0C 1 1 = 1 ∧
    bits c.w0C 0 1 = 1 ∧ (∀ y ∈ (version1 [shard0 .valid]).shards, y.off + y.size ≤ c.a10.toNat ∨ c.a10.toNat + 2 ^ 21 ≤ y.off) ∧
    c.a10.toNat + 2 ^ 21 ≤ (set2 []).bytes := by
  decide +kernel
theorem witness_WeightSets_shard :
    (weighing [set2 [version1 [shard0 .checking]]]).chip.shardAt 0 1 0 = some (version1 [shard0 .checking], shard0 .checking) ∧
    (weighing []).chip.poison = [] ∧ (weighing [set2 [version1 [shard0 .tiered]]]).chip.shardAt 0 1 0 =
      some (version1 [shard0 .tiered], shard0 .tiered) := by
  decide +kernel

/-- The manager of the set's partition has no lease, and room for one; and holds a DIGEST engine of cluster 0. -/
theorem witness_WeightSets_manager :
    let s := weighing [set2 [version1 [shard0 .checking]]]
    let h := { s.chip with leases := [(9, { lease0 2 .held with ctx := managerNum 0, tid := 0 })] }
    s.chip.wsets[0]? = some (set2 [version1 [shard0 .checking]]) ∧ s.chip.setPart (set2 []) = 0 ∧ s.chip.managerLease 0 = none ∧
    (s.chip.part 0).clusters = [0] ∧ s.chip.freeEntry 2 0 ≠ none ∧ (h.managerLease 0).any (fun l => l.2.state = .held) = true := by
  decide +kernel

/-! ## The package -/

/-- The link retrains since clk 100: in time, and past its 10 ms. -/
def linked (now : Nat) : State :=
  { page with clk := now, chip := { page.chip with link := { page.chip.link with retraining := some 100 } } }
theorem witness_PackageEvents_link :
    (page.nobodyWaits ∧ page.plainMemory) ∧ page.Inv ∧ page.chip.link.up = true ∧ (linked 100).chip.link.up = false ∧
    (linked 100).nobodyWaits ∧ (linked 6000101).nobodyWaits ∧ (linked 6000101).chip.evring = none ∧ (linked 6000101).chip.memq = [] ∧
    page.chip.mrLocked = false := by
  unfold State.plainMemory Chip.plainMemory
  decide +kernel
/-- A cluster's P-state; a sensor that is good; a core of an idle package. -/
theorem witness_PackageEvents_health :
    let s := { page with chip := page.chip.modPart 0 fun p => { p with vps := (List.range 8).map fun _ => VpsEntry.of 0x1E0400 } }
    s.chip.partOf 0 = some 0 ∧ ((s.chip.part 0).vps[s.chip.vpsEntry (s.chip.part 0) 0]?).isSome ∧ (s.chip.cluster 0).reqs = [] ∧
    (∀ u ∈ page.chip.units, u.2.retained = none) ∧ (∃ ks ∈ sensorKinds 4, 1 ∈ ks) ∧ page.chip.votedOut 4 1 = false ∧
    page.chip.evring = none := by
  decide +kernel
theorem witness_PackageEvents_core :
    let s := { page with chip := { page.chip with teams := [], slots := [] } }
    (s.nobodyWaits ∧ s.plainMemory) ∧ s.Inv ∧ s.chip.teams = [] ∧ s.chip.leases = [] ∧ s.chip.marks = [] ∧
    (∀ p ∈ s.chip.parts, p.2.resetting = false) ∧ s.chip.partOf (coreCluster 5) = some 0 := by
  unfold State.plainMemory Chip.plainMemory
  decide +kernel
/-- A spare channel group of a partition in reset; boxes with no phase and one with a mailbox window on die 0. -/
theorem witness_PackageEvents_spares :
    let s := { page with chip := page.chip.modPart 0 fun p => { p with resetting := true, ch0 := 8 } }
    let b := { page with chip := page.chip.modCluster 0 fun k => { k with box := { k.box with routines := [(0, routine7)] } } }
    mget? s.chip.spareGroups (3 / 16) = none ∧ s.chip.wsets = [] ∧ (∃ p ∈ s.chip.parts, p.2.resetting = true ∧ 3 ∈ p.2.groups) ∧
    (∀ e ∈ b.chip.clusters, (b.chip.cluster e.1).box.phase = none) ∧ (b.chip.cluster 0).box.failed = false ∧
    (b.chip.die 0).mboxFailed = false ∧ (b.chip.cluster 0).box.routines.any (fun r => r.2.mlog2 ≠ 0 && r.2.mdie = 0) = true := by
  decide +kernel

/-! ## Whole-machine statements -/

theorem witness_BranchAlways : Has page fun h => page.mayIssue h Uses.none := by decide +kernel
/-- A program instruction, a Belino operation and a command, each well-formed, with their encodings. -/
theorem witness_DecodeInvertsEncode :
    (Instr.addX frame).wf = true ∧ ((Instr.addX frame).enc).isSome ∧ (Instr.belinoAdd ⟨1, 2, 3⟩).wf = true ∧
    isBelino (.belinoAdd ⟨1, 2, 3⟩) = true ∧ ((Instr.belinoAdd ⟨1, 2, 3⟩).enc).isSome ∧ (Instr.root (word 0 0x1000 0 0)).wf = true ∧
    isCommand (.root (word 0 0x1000 0 0)) = true ∧ ((Instr.root (word 0 0x1000 0 0)).enc).isSome := by
  decide +kernel
theorem witness_StepKeepsMemory : page.Inv ∧ State.reset.Inv := by decide +kernel
/-- The placed path's turn has come, with a MOVI in its core's caches at PC 0. -/
def turning : State :=
  { page with agenda := [.path 0 0], chip := page.chip.modCore 0 fun k => { k with
      icache := [(0x4000, leBytes 8 (((Instr.moviX { immFrame 0 with a := 12 }).enc.map Prod.snd).getD 0) ++ List.replicate 120 0)] } }
theorem witness_StepRunsDecoded_turn :
    let s := turning
    s.turn exec = .path 0 0 ∧ (s.readyPaths exec).map (fun r => (r.g, r.p, r.cls)) = [(0, 0, 0)] ∧
    (∀ r ∈ (s.readyPaths exec).find? fun r => r.g = 0 && r.p = 0, s.turnPick (s.readyPaths exec) r = r) := by
  decide +kernel
theorem witness_StepRunsDecoded :
    let s := turning
    let s' := s.moved.countWaits (s.readyPaths exec) ⟨0, 0, 0, false⟩
    ∃ x ∈ s'.chip.group? 0, ∃ p0 ∈ mget? x.paths 0, p0.dbgHeld = false ∧ p0.wait = none ∧ p0.blocked = none ∧ p0.issueAt ≤ s.clk ∧
      s'.chip.saving x.tid = false ∧
      let e := x.issueCheck 0 s.clk
      let t : State := { s' with actor := (0, e.2), chip := (s'.chip.setGroup 0 e.1).renamePaths 0 e.2 (x.gone e.1) }
      ∃ h ∈ t.chip.here? 0 e.2, t.acts h ∧ (s.chip.ctx h.ctx).area = none ∧ (t.chip.pathLoads 0 e.2).length < 8 ∧ h.path.issueAt ≤ s.clk ∧
        h.path.heldSince = none ∧ h.path.holdReq = false ∧ h.path.late = [] ∧ t.codeHot h 8 ∧
        (decode (t.code h 8)).map Prod.snd = some [] := by
  decide +kernel

end Sys2Proof.Tests
end

section
/-! The execution family: the step that runs the decoded instruction (O58). -/

namespace Sys2Proof.Machine

/-! ## Fetch of an instruction whose code is cached -/

/-- Bytes that decode to an instruction and nothing more are as many as the first two of them say. -/
theorem decode_length {bs : List Byte} {i : Instr} (h : decode bs = some (i, [])) :
    2 ≤ bs.length ∧ bs.length = wordLength (leNat (bs.take 2)) := by
  unfold decode at h
  dsimp only at h
  split at h
  · rename_i b0 b1 r
    have hpar : leNat ((b0 :: b1 :: r).take 2) % 2 = b0.toNat % 2 := by
      simp only [List.take_succ_cons, List.take_zero, leNat]
      omega
    have hw := wordLength_two (leNat ((b0 :: b1 :: r).take 2))
    split at h
    · rename_i hc
      simp only [Option.some.injEq, Prod.mk.injEq] at h
      have hd := List.drop_eq_nil_iff.mp h.2
      have hlen : 2 ≤ (b0 :: b1 :: r).length := by simp
      refine ⟨hlen, Nat.le_antisymm hd ?_⟩
      rcases hc with he | hn
      · have : wordLength (leNat ((b0 :: b1 :: r).take 2)) = 2 := by
          unfold wordLength
          rw [if_pos (hpar.trans he)]
        omega
      · exact hn
    · exact absurd h (by simp)
  · exact absurd h (by simp)

/-- The instruction that `n` cached bytes are is fetched, and nothing changes. -/
theorem fetchInstr_code {s : State} {h : Here} {i : Instr} {n : Nat} (hw : s.noWindow h) (hc : s.codeHot h n)
    (hd : decode (s.code h n) = some (i, [])) : fetchInstr h s.tx = .ok (i, s.tx) := by
  have hlen : (s.code h n).length = n := by simp [State.code]
  obtain ⟨h2, hn⟩ := decode_length hd
  rw [hlen] at h2 hn
  rw [State.code_take s h h2] at hn
  refine fetchInstr_hot (r := []) hw (hn ▸ hc) ⟨hc.1, fun k hk => hc.2 k (by omega)⟩ (by rw [← hn]; exact hd)

/-! ## The issue check of a path that can issue -/

@[simp] theorem State.commit_tx (s : State) : s.commit s.tx = s := rfl

theorem Chip.renamePath_group (c : Chip) (g i j k : Nat) : (c.renamePath g i j).group? k = c.group? k := rfl

theorem Chip.renamePaths_group (c : Chip) (g j k : Nat) (gone : List Nat) : (c.renamePaths g j gone).group? k = c.group? k := by
  induction gone generalizing c with
  | nil => rfl
  | cons i r ih => exact (ih (c.renamePath g i j)).trans (Chip.renamePath_group c g i j k)

/-- The path of a group once its issue check is over and what named a path that merged away names another. -/
theorem Chip.checked_here {c : Chip} {g j : Nat} {y : Group} {gone : List Nat} {h : Here}
    (hh : ((c.setGroup g y).renamePaths g j gone).here? g j = some h) : mget? y.paths j = some h.path := by
  obtain ⟨-, -, hg, hp, -⟩ := Chip.here_eq hh
  rw [Chip.renamePaths_group, Chip.group_setGroup] at hg
  rwa [Option.some.inj hg]

/-- A path whose turn it is, neither waiting nor stopped before or after its issue check, runs the instruction at its PC. -/
theorem issuePath_run {s : State} {g p n j : Nat} {x y : Group} {p0 : Path} {h : Here} {i : Instr}
    (hg : s.chip.group? g = some x) (hp : mget? x.paths p = some p0)
    (hfree : p0.dbgHeld = false ∧ p0.wait = none ∧ p0.blocked = none ∧ p0.issueAt ≤ s.clk ∧ s.chip.saving x.tid = false)
    (hy : x.issueCheck p s.clk = (y, j)) {t : State}
    (ht : t = { s with actor := (g, j), chip := (s.chip.setGroup g y).renamePaths g j (x.gone y) })
    (ha : t.acts h) (hw : t.noWindow h) (hM : slotClass i = 1 → (t.chip.pathLoads g j).length < 8)
    (hrun : h.path.issueAt ≤ s.clk ∧ h.path.heldSince = none ∧ h.path.holdReq = false ∧ (h.path.level = .supervisor ∨ h.path.late = []))
    (hc : t.codeHot h n) (hd : decode (t.code h n) = some (i, [])) : issuePath g p s = .run i t := by
  obtain ⟨hdbg, hwait, hblk, hat, hsave⟩ := hfree
  obtain ⟨hat', hheld, hreq, hlate⟩ := hrun
  have hq : mget? y.paths j = some h.path := by
    subst ht
    exact Chip.checked_here ha
  have hlate' : (if h.path.level = .supervisor then [] else h.path.late) = [] := by
    rcases hlate with hl | hl <;> simp [hl]
  have hloads : (decide (slotClass i = 1) && decide (8 ≤ (t.chip.pathLoads g j).length)) = false := by
    by_cases h1 : slotClass i = 1
    · have := hM h1
      simp [h1, this]
    · simp [h1]
  have ha' : t.chip.here? g j = some h := by
    subst ht
    exact ha
  have hchip : (s.chip.setGroup g y).renamePaths g j (x.gone y) = t.chip := by rw [ht]
  have hstate : { s with actor := (g, j), chip := t.chip } = t := by rw [ht]
  have hf := fetchInstr_code hw hc hd
  unfold issuePath
  simp only [hg, hp, hdbg, hwait, hblk, hsave, hy, hq, hheld, hreq, Nat.not_lt.mpr hat, Nat.not_lt.mpr hat', State.checked, hlate',
    Option.isSome_none, Bool.or_self, decide_false, Bool.false_eq_true, if_false, hchip, ha', hstate, hf, hloads, State.commit_tx]

/-! ## The turn of a path -/

/-- Reading a table whose entries have changed and whose keys have not. -/
theorem mget_map_keyed {α : Type} {F : Nat × α → Nat × α} (hF : ∀ e, (F e).1 = e.1) (m : Map α) (k : Nat) :
    mget? (m.map F) k = (mget? m k).map fun v => (F (k, v)).2 := by
  induction m with
  | nil => rfl
  | cons e r ih =>
    obtain ⟨j, v⟩ := e
    have hj := hF (j, v)
    by_cases h : j = k
    · subst h
      simp [mget?, hj]
    · simpa [mget?, hj, h] using ih

/-- The state in which a path's turn comes to its issue check: the waits of its slot counted where it is the slot's pick. -/
def State.granted (s : State) (rs : List Ready) (won : Option Ready) : State :=
  match won with
  | some r => s.moved.countWaits rs r
  | none => s.moved

theorem State.granted_clk (s : State) (rs : List Ready) (won : Option Ready) : (s.granted rs won).clk = s.clk := by
  cases won <;> rfl

/-- Counting waits leaves the clk from which a path can issue. -/
theorem State.countWaits_issueAt {s : State} {rs : List Ready} {won : Ready} {g p : Nat} {x : Group} {q : Path}
    (hg : (s.countWaits rs won).chip.group? g = some x) (hp : mget? x.paths p = some q) :
    (s.chip.path? g p).map Path.issueAt = some q.issueAt := by
  unfold State.countWaits Chip.group? Chip.slot mgetD at hg
  dsimp only [Chip.modCore_slots] at hg
  rw [mget_map_keyed (fun e => by split <;> rfl)] at hg
  unfold Chip.path? Chip.group? Chip.slot mgetD
  cases hs : mget? s.chip.slots g with
  | none => simp [hs, Slot.init] at hg
  | some v =>
    simp only [hs, Option.map_some, Option.getD_some] at hg ⊢
    split at hg
    · obtain ⟨z, hz, rfl⟩ := Option.map_eq_some_iff.mp hg
      dsimp only at hp
      rw [mget_map_keyed] at hp
      · obtain ⟨w, hw, rfl⟩ := Option.map_eq_some_iff.mp hp
        simp [hz, hw, Path.issueAt]
      · exact fun _ => rfl
    · dsimp only at hg
      simp [hg, hp]

theorem State.granted_issueAt {s : State} {rs : List Ready} {won : Option Ready} {g p : Nat} {x : Group} {q : Path}
    (hg : (s.granted rs won).chip.group? g = some x) (hp : mget? x.paths p = some q) :
    (s.chip.path? g p).map Path.issueAt = some q.issueAt := by
  cases won with
  | some r => exact State.countWaits_issueAt (s := s.moved) hg hp
  | none =>
    have hg' : s.chip.group? g = some x := hg
    simp [Chip.path?, hg', hp]

/-- The turn of a path that has its clk comes to its issue check, as the slot's pick or without one. -/
theorem State.plan_path {s : State} {g p : Nat} {rs : List Ready} {won : Option Ready} (hrs : s.readyPaths exec = rs)
    (hwon : (rs.find? fun r => r.g = g && r.p = p) = won) (ht : s.turn exec = .path g p)
    (hn : (s.chip.path? g p).elim s.clk Path.issueAt ≤ s.clk) (hpick : ∀ r, won = some r → s.turnPick rs r = r)
    (hnone : won = none → s.readyPath exec g p = none) : s.plan exec = issuePath g p (s.granted rs won) := by
  unfold State.plan
  simp only [ht, Nat.not_lt.mpr hn, if_false]
  unfold State.pathTurn
  simp only [hrs, hwon]
  cases won with
  | none => simp [hnone rfl, State.granted]
  | some r =>
    have hr' : s.moved.turnPick rs r = r := hpick r rfl
    have hgp := List.find?_some hwon
    simp only [Bool.and_eq_true, decide_eq_true_eq] at hgp
    obtain ⟨rfl, rfl⟩ := hgp
    simp only [hpick r rfl, if_true, State.fillSlot, hr', State.granted]

/-- A step whose turn comes to an instruction runs it and settles. -/
theorem step_run {s t : State} {i : Instr} (hp : s.plan exec = .run i t) :
    step s = match exec i t with
      | .next u => .next u.settled
      | .fault f => .fault f
      | .refused r => .refused r := by
  cases hx : exec i t <;> simp [step, hp, hx]

/-- Settles O58: the plan of the turn is the issue check, which finds nothing to wait for and fetches the cached instruction. -/
theorem stepRunsDecoded : Obligations.StepRunsDecoded := by
  intro s g p n x y p0 j h i ht rs won hpick hnone s' hg hp hdbg hwait hblk hat hsave t hy ha hw hM hat' hheld hreq hlate hc hd
  have hclk : s'.clk = s.clk := State.granted_clk s rs won
  obtain ⟨q, hq, hqa⟩ := Option.map_eq_some_iff.mp (State.granted_issueAt (rs := rs) (won := won) hg hp)
  have hn : (s.chip.path? g p).elim s.clk Path.issueAt ≤ s.clk := by
    rw [hq]
    exact hqa.trans_le hat
  have hplan : s.plan exec = .run i t := (State.plan_path rfl rfl ht hn hpick hnone).trans
    (issuePath_run hg hp ⟨hdbg, hwait, hblk, hclk ▸ hat, hsave⟩ (hclk ▸ hy) rfl ha hw hM ⟨hclk ▸ hat', hheld, hreq, hlate⟩ hc hd)
  exact step_run hplan

end Sys2Proof.Machine
end

section
/-! Transactions that end wherever memory is plain and leave every slot alone: the walks, the fetch, the frames and the reports. -/

namespace Sys2Proof.Machine

variable {α β : Type}

/-- A transaction that ends wherever memory is plain, and leaves memory plain and every slot as it was. -/
def Act.quiet (a : Act α) : Prop :=
  ∀ t : Tx, t.chip.plainMemory → ∃ x u, a t = .ok (x, u) ∧ u.chip.plainMemory ∧ u.chip.slots = t.chip.slots

/-! ## Quiet transactions compose -/

theorem quiet_pure (x : α) : (pure x : Act α).quiet := fun t h => ⟨x, t, rfl, h, rfl⟩

theorem quiet_bind {a : Act α} {f : α → Act β} (ha : a.quiet) (hf : ∀ x, (f x).quiet) : (a >>= f).quiet := by
  intro t h
  obtain ⟨x, u, hx, hu, hs⟩ := ha t h
  obtain ⟨y, v, hy, hv, hs'⟩ := hf x u hu
  exact ⟨y, v, (bind_next hx).trans hy, hv, hs'.trans hs⟩

theorem quiet_ite {c : Prop} [Decidable c] {a b : Act α} (ha : a.quiet) (hb : b.quiet) : (if c then a else b).quiet := by
  split
  · exact ha
  · exact hb

theorem quiet_getChip : getChip.quiet := fun t h => ⟨t.chip, t, rfl, h, rfl⟩
theorem quiet_clock : clock.quiet := fun t h => ⟨t.clk, t, rfl, h, rfl⟩
theorem quiet_freeValue : freeValue.quiet := fun t h => ⟨_, _, freeValue_run t, h, rfl⟩
theorem quiet_opaqueBytes (n : Nat) : (opaqueBytes n).quiet := fun t h => ⟨_, _, opaqueBytes_run n t, h, rfl⟩
theorem quiet_readBytes (a n : Nat) : (readBytes a n).quiet := fun t h => ⟨_, t, readBytes_run a n t, h, rfl⟩
theorem quiet_writeBytes (a : Nat) (bs : List Byte) : (writeBytes a bs).quiet := fun t h => ⟨_, _, writeBytes_run a bs t, h, rfl⟩

theorem quiet_modChip {f : Chip → Chip} (hp : ∀ c : Chip, c.plainMemory → (f c).plainMemory) (hs : ∀ c : Chip, (f c).slots = c.slots) :
    (modChip f).quiet := fun t h => ⟨(), _, modChip_run f t, hp _ h, hs _⟩

theorem quiet_each {f : α → Act Unit} (hf : ∀ x, (f x).quiet) (xs : List α) : (each xs f).quiet := by
  induction xs with
  | nil => exact quiet_pure ()
  | cons x r ih => exact quiet_bind (hf x) fun _ => ih

theorem quiet_mapAct {f : α → Act β} (hf : ∀ x, (f x).quiet) (xs : List α) : (mapAct xs f).quiet := by
  induction xs with
  | nil => exact quiet_pure []
  | cons x r ih => exact quiet_bind (hf x) fun y => quiet_bind ih fun ys => quiet_pure (y :: ys)

theorem quiet_whenSome {f : α → Act Unit} (hf : ∀ x, (f x).quiet) (o : Option α) : (whenSome o f).quiet := by
  cases o with
  | none => exact quiet_pure ()
  | some x => exact hf x

/-! ## Homes -/

theorem quiet_readNat (a n : Nat) : (readNat a n).quiet := quiet_bind (quiet_readBytes a n) fun _ => quiet_pure _
theorem quiet_writeNat (a n v : Nat) : (writeNat a n v).quiet := quiet_writeBytes a _
theorem quiet_recallLine (line : Nat) : (recallLine line).quiet := fun t h => ⟨(), t, recallLine_none h.1 line, h, rfl⟩
theorem quiet_homeRead (pa n : Nat) : (homeRead pa n).quiet := fun t h => ⟨_, t, homeRead_plain h.1 h.2.2.2.1 pa n, h, rfl⟩
theorem quiet_homeNat (pa n : Nat) : (homeNat pa n).quiet := quiet_bind (quiet_homeRead pa n) fun _ => quiet_pure _
theorem quiet_homeWrite (pa : Nat) (bs : List Byte) (by_ : Option (Nat × Word)) : (homeWrite pa bs by_).quiet :=
  fun _ h => ⟨(), _, homeWrite_plain h pa bs by_, h, rfl⟩

/-! ## Translation -/

theorem mem_mset {m : Map α} {k : Nat} {v : α} : ∀ e ∈ mset m k v, e ∈ m ∨ e = (k, v) := by
  induction m with
  | nil => simp [mset]
  | cons e r ih =>
    obtain ⟨j, w⟩ := e
    intro x hx
    unfold mset at hx
    split at hx
    · rcases List.mem_cons.mp hx with h | h
      · exact .inr h
      · exact .inl h
    · split at hx
      · rcases List.mem_cons.mp hx with h | h
        · exact .inr h
        · exact .inl (List.mem_cons_of_mem _ h)
      · rcases List.mem_cons.mp hx with h | h
        · exact .inl (by simp [h])
        · rcases ih x h with h' | h'
          · exact .inl (List.mem_cons_of_mem _ h')
          · exact .inr h'

/-- A core of a chip whose cores hold no partials holds none. -/
theorem Chip.core_partials {c : Chip} (h : ∀ e ∈ c.cores, e.2.partials = []) (k : Nat) : (c.core k).partials = [] := by
  unfold Chip.core mgetD
  cases hk : mget? c.cores k with
  | none => rfl
  | some x => exact h _ (mget_mem hk)

theorem quiet_modCore (k : Nat) {f : Core → Core} (hf : ∀ x, (f x).partials = x.partials) : (modCore k f).quiet := by
  refine quiet_modChip (fun c h => ?_) fun c => rfl
  refine ⟨fun e he => ?_, h.2⟩
  rcases mem_mset e he with h' | h'
  · exact h.1 e h'
  · rw [h', hf]
    exact Chip.core_partials h.1 k

theorem quiet_noteTier (leaf pa : Nat) : (noteTier leaf pa).quiet := by
  unfold noteTier
  exact quiet_ite (quiet_pure ()) (quiet_modChip (fun _ h => h) fun _ => rfl)

theorem quiet_walkFrom {touch : Nat → Act Unit} (ht : ∀ k, (touch k).quiet) (u : Use) (va level table : Nat) :
    (walkFrom touch u va level table).quiet := by
  have entry (ea n : Nat) : (mapAct (List.range n) fun i => readNat (ea + 8 * i) 8).quiet := quiet_mapAct (fun _ => quiet_readNat _ _) _
  induction level generalizing table with
  | zero =>
    refine quiet_bind (ht _) fun _ => quiet_bind (quiet_readNat _ _) fun e => quiet_ite (quiet_pure _)
      (quiet_ite (quiet_ite (quiet_bind (entry _ _) fun es => quiet_bind (quiet_pure _) fun alike => ?_)
        (quiet_bind (quiet_pure _) fun alike => ?_)) (quiet_ite (quiet_pure _) (quiet_pure _)))
    all_goals
      dsimp only
      generalize leafKind _ _ _ = k
      cases k with
      | zero => exact quiet_ite (quiet_bind (quiet_writeNat _ _ _) fun _ => quiet_pure _) (quiet_pure _)
      | succ k => exact quiet_pure _
  | succ n ih =>
    refine quiet_bind (ht _) fun _ => quiet_bind (quiet_readNat _ _) fun e => quiet_ite (quiet_pure _)
      (quiet_ite (quiet_ite (quiet_bind (entry _ _) fun es => quiet_bind (quiet_pure _) fun alike => ?_)
        (quiet_bind (quiet_pure _) fun alike => ?_)) (quiet_ite (quiet_pure _) (ih _)))
    all_goals
      dsimp only
      generalize leafKind _ _ _ = k
      cases k with
      | zero => exact quiet_ite (quiet_bind (quiet_writeNat _ _ _) fun _ => quiet_pure _) (quiet_pure _)
      | succ k => exact quiet_pure _

theorem quiet_walk (ctx : Nat) (u : Use) (va : Nat) : (walk ctx u va).quiet := by
  refine quiet_bind quiet_getChip fun c => ?_
  split
  · exact quiet_walkFrom quiet_recallLine _ _ _ _
  · exact quiet_pure _

theorem quiet_translate (core run ctx : Nat) (u : Use) (va : Nat) : (translate core run ctx u va).quiet := by
  refine quiet_bind quiet_getChip fun c => ?_
  split
  · exact quiet_pure _
  · split
    · refine quiet_ite (quiet_bind (quiet_walk _ _ _) fun r => ?_) ?_
      · split
        · exact quiet_pure _
        · exact quiet_bind (quiet_modCore _ fun _ => rfl) fun _ => quiet_bind (quiet_noteTier _ _) fun _ => quiet_pure _
      · split
        · exact quiet_bind (quiet_noteTier _ _) fun _ => quiet_pure _
        · exact quiet_pure _
    · refine quiet_bind (quiet_walk _ _ _) fun r => ?_
      split
      · exact quiet_pure _
      · exact quiet_bind (quiet_modCore _ fun _ => rfl) fun _ => quiet_bind (quiet_noteTier _ _) fun _ => quiet_pure _

/-! ## Fetch -/

theorem quiet_fillLine (core line : Nat) : (fillLine core line).quiet := by
  refine quiet_bind (quiet_homeRead _ _) fun l => quiet_bind quiet_getChip fun c =>
    quiet_bind (quiet_mapAct (fun e => quiet_bind (quiet_readBytes _ _) fun _ => quiet_pure _) _) fun fresh =>
      quiet_bind quiet_getChip fun c' => ?_
  exact quiet_ite (quiet_bind (quiet_pure _) fun _ => quiet_bind (quiet_modCore _ fun _ => rfl) fun _ => quiet_pure _)
    (quiet_bind quiet_freeValue fun _ => quiet_bind (quiet_modCore _ fun _ => rfl) fun _ => quiet_pure _)

theorem quiet_fetchByte (core run ctx : Nat) (user : Bool) (va : Nat) : (fetchByte core run ctx user va).quiet := by
  refine quiet_bind (quiet_translate _ _ _ _ _) fun r => ?_
  split
  · exact quiet_pure _
  · refine quiet_bind quiet_getChip fun c => ?_
    split
    · exact quiet_pure _
    · exact quiet_bind (quiet_fillLine _ _) fun _ => quiet_bind quiet_getChip fun _ => quiet_ite (quiet_pure _) (quiet_pure _)

theorem quiet_fetchBytes (core run ctx : Nat) (user : Bool) (va n : Nat) : (fetchBytes core run ctx user va n).quiet := by
  induction n generalizing va with
  | zero => exact quiet_pure _
  | succ n ih =>
    refine quiet_bind (quiet_fetchByte _ _ _ _ _) fun r => ?_
    split
    · exact quiet_pure _
    · refine quiet_bind (ih _) fun rs => ?_
      split
      · exact quiet_pure _
      · exact quiet_pure _

theorem quiet_frameIlen (h : Here) : (frameIlen h).quiet := by
  refine quiet_bind quiet_getChip fun c => quiet_ite (quiet_pure _) (quiet_bind (quiet_fetchBytes _ _ _ _ _ _) fun r => ?_)
  split
  · exact quiet_pure _
  · exact quiet_pure _

/-! ## Frames and reports -/

theorem quiet_writeFrame (at_ : Nat) (h : Here) (rpc : Addr) (cause : Word) (t : TrapInfo) (ilen level : Nat) (nested : Bool)
    (replays : List MemOp) (spc : Addr) : (writeFrame at_ h rpc cause t ilen level nested replays spc).quiet :=
  quiet_bind quiet_clock fun _ => quiet_bind (quiet_opaqueBytes _) fun _ => quiet_bind (quiet_homeWrite _ _ _) fun _ =>
    quiet_each (fun _ => quiet_bind (quiet_opaqueBytes _) fun _ => quiet_homeWrite _ _ _) _

theorem quiet_reportRing (x : Context) (cores : Nat) : (reportRing x cores).quiet := by
  unfold reportRing
  split
  · exact quiet_pure _
  · exact quiet_bind (quiet_homeNat _ _) fun _ => quiet_bind (quiet_homeNat _ _) fun _ => quiet_ite (quiet_pure _) (quiet_pure _)

theorem quiet_report (ctx : Nat) (r : FaultRec) : (report ctx r).quiet := by
  have drop (a : Nat) : (homeNat a 4 >>= fun n => homeWrite a (toLE 4 (satInc n)) none).quiet :=
    quiet_bind (quiet_homeNat _ _) fun _ => quiet_homeWrite _ _ _
  refine quiet_bind quiet_getChip fun c => quiet_whenSome (fun a => quiet_bind (quiet_reportRing _ _) fun ring => ?_) _
  split
  · exact drop _
  · exact quiet_bind (quiet_homeNat _ _) fun _ => quiet_bind (quiet_homeNat _ _) fun _ =>
      quiet_ite (quiet_bind quiet_clock fun _ => quiet_bind (quiet_homeWrite _ _ _) fun _ => quiet_homeWrite _ _ _) (drop _)

/-! ## A stop for the debugger (R276) -/

theorem Chip.path?_of_slots {c d : Chip} (h : d.slots = c.slots) (g p : Nat) : d.path? g p = c.path? g p := by
  simp [Chip.path?, Chip.group?, Chip.slot, h]

theorem Chip.path?_modPath (c : Chip) (g p : Nat) (f : Path → Path) : (c.modPath g p f).path? g p = (c.path? g p).map f := by
  simp only [Chip.path?, Chip.modPath, Chip.group_modGroup_same]
  cases c.group? g <;> simp

/-- A change of a group that is none of its paths. -/
theorem Chip.path?_modGroup (c : Chip) (g p : Nat) {f : Group → Group} (hf : ∀ x, (f x).paths = x.paths) :
    (c.modGroup g f).path? g p = c.path? g p := by
  simp only [Chip.path?, Chip.group_modGroup_same]
  cases c.group? g <;> simp [hf]

/-- Plain memory rests on no slot. -/
theorem Chip.plainMemory_modGroup {c : Chip} (h : c.plainMemory) (g : Nat) (f : Group → Group) : (c.modGroup g f).plainMemory :=
  Chip.plainMemory_of_eq h (by simp) (by simp) (by simp) (by simp) (by simp)

/-- What the hardware keeps of the frame that a stop for the debugger makes. -/
def holdFrameOf (h : Here) (code : Word) (replays : List MemOp) : Frame :=
  { pc := h.path.pc, mask := h.path.mask, cause := code, nested := h.path.level = .user, replays := replays, heldStore := none,
    serial := h.slot.inc.toNat }

/-- The path once it has stopped for the debugger: held, with a supervisor frame at its own place. -/
def Here.stopped (h : Here) (code : Word) (replays : List MemOp) : Path :=
  { h.path with cause := code, supFrame := some (holdFrameOf h code replays), dbgHeld := true, holdReq := false, heldSince := none }

/-- The chip with a path stopped for the debugger, its group's hazards settled (R66). -/
def Chip.holdPath (c : Chip) (h : Here) (code : Word) (replays : List MemOp) : Chip :=
  ((c.modGroup h.g fun x => x.settleHazards h.path.mask).modPath h.g h.p fun x =>
    { x with cause := code, supFrame := some (holdFrameOf h code replays) }).modPath h.g h.p fun x =>
      { x with dbgHeld := true, holdReq := false, heldSince := none }

theorem Chip.holdPath_path {c : Chip} {h : Here} (hp : c.path? h.g h.p = some h.path) (code : Word) (replays : List MemOp) :
    (c.holdPath h code replays).path? h.g h.p = some (h.stopped code replays) := by
  unfold Chip.holdPath
  have hz : (c.modGroup h.g fun x => x.settleHazards h.path.mask).path? h.g h.p = c.path? h.g h.p :=
    Chip.path?_modGroup _ _ _ fun _ => rfl
  rw [Chip.path?_modPath, Chip.path?_modPath, hz, hp]
  rfl

theorem Chip.holdPath_plain {c : Chip} (hc : c.plainMemory) (h : Here) (code : Word) (replays : List MemOp) :
    (c.holdPath h code replays).plainMemory :=
  Chip.plainMemory_modGroup (Chip.plainMemory_modGroup (Chip.plainMemory_modGroup hc _ _) _ _) _ _

/-- Where memory is plain, a path below supervisor level stops for the debugger with its frame. -/
theorem holdStop_run {t : Tx} {g p : Nat} {h : Here} {a : TrapArea} (hm : t.chip.plainMemory) (hh : t.chip.here? g p = some h)
    (ha : (t.chip.ctx h.ctx).area = some a) (hl : h.path.level ≠ .supervisor) (cause data kind : Nat) :
    ∃ u, holdStop g p cause data kind t = .ok ((), u) ∧
      u.chip.path? g p = some (h.stopped (BitVec.ofNat 32 (cause + data * 65536)) ((t.chip.pathLoads g p).take 8)) := by
  obtain ⟨rfl, rfl, hg, hp, -⟩ := Chip.here_eq hh
  have hpath : t.chip.path? h.g h.p = some h.path := by simp [Chip.path?, hg, hp]
  generalize hcode : (BitVec.ofNat 32 (cause + data * 65536) : Word) = code
  generalize hrep : (t.chip.pathLoads h.g h.p).take 8 = replays
  obtain ⟨n, t1, e1, p1, s1⟩ := quiet_frameIlen h t hm
  obtain ⟨_, t2, e2, p2, s2⟩ := quiet_writeFrame (a.pa + t.chip.frameOff h.ctx h.g h.p 1) h h.path.pc code
    ⟨cause, data, 0, 0, 0, [], false, 0, 0⟩ n 1 (h.path.level = .user) replays 0 { t1 with chip := t1.chip.without replays } p1
  have hpath2 : t2.chip.path? h.g h.p = some h.path := (Chip.path?_of_slots (s2.trans s1) _ _).trans hpath
  obtain ⟨_, t3, e3, -, s3⟩ := quiet_report h.ctx
    ⟨kind, cause, data, h.agent.toNat, h.path.pc, 0, h.run.lid, h.run.runNo, h.team.num, false, false, h.p, h.path.mask⟩
    { t2 with chip := t2.chip.holdPath h code replays } (Chip.holdPath_plain p2 _ _ _)
  refine ⟨t3, ?_, (Chip.path?_of_slots s3 _ _).trans (Chip.holdPath_path hpath2 code replays)⟩
  subst hcode hrep
  unfold holdStop
  rw [bind_next (getChip_run t)]
  simp only [hh, ha]
  exact (bind_next e1).trans <| (bind_next (modChip_run _ _)).trans <| (bind_next e2).trans e3

end Sys2Proof.Machine
end

section
/-! Splits of a path, its sides and its holds (O13). -/

namespace Sys2Proof.Machine

/-! ## Instructions whose effect on their group depends on the chip after retirement -/

/-- An instruction that may issue and whose body, on the chip after retirement, changes its group alone. -/
theorem retire_next {s : State} {h : Here} {u : Uses} {i : Instr} {n len stall : Nat} {body : Here → Act Unit}
    (hx : exec i s = runZha n (issue len stall u body) s) (hi : s.mayIssue h u) {fg : Group → Group}
    (hb : body h { s.tx with chip := s.chip.retire h len stall s.clk } =
      .ok ((), { s.tx with chip := (s.chip.retire h len stall s.clk).modGroup h.g fg })) :
    exec i s = .next (s.ended h len stall sameTeam fg) := by
  refine (hx.trans (runZha_next ((issue_next hi len stall body).trans hb))).trans ?_
  rw [State.ended, Chip.modTeam_same]

/-- The acting path once its instruction has retired. -/
theorem Chip.retire_path {s : State} {h : Here} (ha : s.acts h) (len stall : Nat) :
    (s.chip.retire h len stall s.clk).path? h.g h.p = some (h.past len stall s.clk) := by
  rw [Chip.path?, Chip.retire_group (State.acts_eq ha).1]
  simp [Here.groupPast, (State.acts_eq ha).2.1, Here.past]

/-- A group change that writes no register. -/
def Group.regsStay (fg : Group → Group) : Prop := ∀ x, (fg x).v = x.v ∧ (fg x).s = x.s ∧ (fg x).p = x.p

/-- Two groups with the same registers. -/
theorem State.sameRegs_of_group {s t : State} {g : Nat} {x y : Group} (hx : s.chip.group? g = some x) (hy : t.chip.group? g = some y)
    (hr : y.v = x.v ∧ y.s = x.s ∧ y.p = x.p) : s.sameRegs t g := by
  obtain ⟨hv, hs, hp⟩ := hr
  exact ⟨fun r l => by simp [State.vreg, hx, hy, Group.vreg, hv], fun r => by simp [State.sreg, hx, hy, Group.sreg, hs],
    fun r => by simp [State.preg, hx, hy, Group.preg, hp]⟩

/-- The end of an instruction that writes no register. -/
theorem State.ended_sameRegs {s : State} {h : Here} (ha : s.acts h) (len stall : Nat) (ft : Team → Team) {fg : Group → Group}
    (hr : Group.regsStay fg) : s.sameRegs (s.ended h len stall ft fg) h.g :=
  State.sameRegs_of_group (State.acts_eq ha).1 (State.ended_group ha len stall ft fg) (hr (h.groupPast len stall s.clk))

/-- The end of an instruction that changes its own path and writes no register. -/
theorem State.ended_moves {s : State} {h : Here} (ha : s.acts h) (len stall : Nat) {fg : Group → Group} {fp : Path → Path}
    (hr : Group.regsStay fg) (hq : ∀ x, (fg x).paths = mmod x.paths h.p fp) :
    (s.ended h len stall sameTeam fg).chip.path? h.g h.p = some (fp (h.past len stall s.clk)) ∧
      s.keepsBut (s.ended h len stall sameTeam fg) h [] [] [] := by
  obtain ⟨hg, hpath, -⟩ := State.acts_eq ha
  have hE := State.ended_group ha len stall sameTeam fg
  obtain ⟨hv, hs, hp⟩ := State.ended_sameRegs ha len stall sameTeam hr
  refine ⟨?_, rfl, rfl, rfl, rfl, rfl, ?_, ?_, ?_, ?_, fun r l _ _ => hv r l, fun r _ => hs r, fun r _ => hp r⟩
  · rw [Chip.path?, hE]
    simp [hq, Here.groupPast, hpath, Here.past]
  · simp only [State.ended, State.commit_chip, Chip.modGroup_rest]
    exact Chip.retire_rest s.chip h len stall s.clk _ _
  · intro g hne
    simp only [State.ended, State.commit_chip, Chip.slot_modGroup_other _ _ hne]
    exact Chip.retire_slot_other s.chip h len stall s.clk hne
  · intro j hne
    simp [State.ended, Chip.modTeam, Chip.retire_teams, mget_mmod_other _ _ hne]
  · intro q hne
    rw [Chip.path?, hE, Chip.path?, hg]
    simp [hq, Here.groupPast, mget_mmod_other _ _ hne]

/-! ## Splits (R21, R259) -/

/-- The group of a path that has split into a free entry `q` of the path table. -/
def splitFree (h : Here) (q : Nat) (fall taken : Addr) (mask : BitVec 32) (now ready : Nat) (x : Group) : Group :=
  { x with
    paths := mset (mmod x.paths h.p fun x => { x with pc := fall, mask := h.mask &&& ~~~mask }) q
      { Path.start taken mask now with readyAt := ready } }

theorem splitPath_free {s : State} {h : Here} {c : Chip} {x : Path} {q : Nat} (hl : h.path.level = .normal)
    (hq : h.grp.freePath = some q) (hx : c.path? h.g h.p = some x) (fall taken : Addr) (mask : BitVec 32) :
    splitPath h fall taken mask { s.tx with chip := c } =
      .ok ((), { s.tx with chip := c.modGroup h.g (splitFree h q fall taken mask s.clk x.readyAt) }) := by
  unfold splitPath
  simp only [bind_run, clock_run, getChip_run, hx, hl, if_true, hq, modPath_run, modGroup_run, Chip.modPath_eq, Chip.modGroup_modGroup]
  rfl

/-- The lower and the higher side of a split, by PC; the side that falls through goes first among equals. -/
def splitSides (h : Here) (fall taken : Addr) (mask : BitVec 32) : Side × Side :=
  if fall.toNat ≤ taken.toNat then (⟨fall, h.mask &&& ~~~mask, none⟩, ⟨taken, mask, none⟩)
  else (⟨taken, mask, none⟩, ⟨fall, h.mask &&& ~~~mask, none⟩)

/-- A path that has split onto its stack: the higher side is pushed and the lower one runs. -/
def Path.pushSplit (sides : Side × Side) (x : Path) : Path :=
  { x.setSides (sides.2 :: x.sides) with pc := sides.1.pc, mask := sides.1.mask }

theorem splitPath_stack {s : State} {h : Here} {c : Chip} (hq : h.path.level = .normal → h.grp.freePath = none)
    (hn : h.path.sides.length < 16) (fall taken : Addr) (mask : BitVec 32) :
    splitPath h fall taken mask { s.tx with chip := c } =
      .ok ((), { s.tx with chip := c.modPath h.g h.p (Path.pushSplit (splitSides h fall taken mask)) }) := by
  have hno : (if h.path.level = .normal then h.grp.freePath else none) = none := by
    split
    · exact hq ‹_›
    · rfl
  unfold splitPath
  simp only [bind_run, clock_run, getChip_run, hno, ge_iff_le, Nat.not_le.mpr hn, if_false]
  rfl

/-- BRP per lane, where the lanes part and lead to different places, splits the path. -/
theorem exec_brp_split {s : State} {h : Here} {f : BpF} (hi : s.mayIssue h { Uses.none with ps := [f.p.toNat] }) (hm : f.mode = 3)
    (h0 : h.pr f.p.toNat &&& h.mask ≠ 0) (h1 : h.pr f.p.toNat &&& h.mask ≠ h.mask)
    (hd : h.path.pc + 2 * f.off.signExtend 64 ≠ h.path.pc + 4) {fg : Group → Group}
    (hb : splitPath h (h.path.pc + 4) (h.path.pc + 2 * f.off.signExtend 64) (h.pr f.p.toNat &&& h.mask)
        { s.tx with chip := s.chip.retire h 4 f.stall.toNat s.clk } =
      .ok ((), { s.tx with chip := (s.chip.retire h 4 f.stall.toNat s.clk).modGroup h.g fg })) :
    exec (.brp f) s = .next (s.ended h 4 f.stall.toNat sameTeam fg) := by
  refine retire_next (i := .brp f) (n := 4) rfl hi ?_
  have hb' : (decide (h.pr f.p.toNat &&& h.mask = h.mask) || decide (branchTarget h f.off = h.path.pc + 4)) = false := by
    rw [Bool.or_eq_false_iff, decide_eq_false_iff_not, decide_eq_false_iff_not]
    exact ⟨h1, hd⟩
  simp only [hm, h0, if_false, hb', Bool.false_eq_true]
  exact hb

/-- A path that splits into a free entry: the lanes taken stand there at the target, the others past the branch. -/
theorem brp_splits_free {s : State} {h : Here} {f : BpF} {q : Nat} (hi : s.mayIssue h { Uses.none with ps := [f.p.toNat] })
    (hm : f.mode = 3) (h0 : h.pr f.p.toNat &&& h.mask ≠ 0) (h1 : h.pr f.p.toNat &&& h.mask ≠ h.mask)
    (hd : h.path.pc + 2 * f.off.signExtend 64 ≠ h.path.pc + 4) (hl : h.path.level = .normal) (hq : h.grp.freePath = some q) :
    ∃ t, exec (.brp f) s = .next t ∧ s.retired t h 0 ∧ t.mem = s.mem ∧
      t.chip.path? h.g h.p =
        some { h.jumped (h.path.pc + 4) f.stall.toNat s.clk with mask := h.mask &&& ~~~(h.pr f.p.toNat &&& h.mask) } ∧
      t.chip.path? h.g q = some { Path.start (h.path.pc + 2 * f.off.signExtend 64) (h.pr f.p.toNat &&& h.mask) s.clk with
        readyAt := s.clk + 1 + f.stall.toNat } ∧ s.sameRegs t h.g := by
  obtain ⟨-, hpath, -⟩ := State.acts_eq hi.1
  have hne : h.p ≠ q := by
    rintro rfl
    have := List.find?_some hq
    simp [hpath] at this
  have hE := State.ended_group hi.1 4 f.stall.toNat sameTeam
    (splitFree h q (h.path.pc + 4) (h.path.pc + 2 * f.off.signExtend 64) (h.pr f.p.toNat &&& h.mask) s.clk (s.clk + 1 + f.stall.toNat))
  refine ⟨_, exec_brp_split hi hm h0 h1 hd (splitPath_free hl hq (Chip.retire_path hi.1 4 f.stall.toNat) _ _ _),
    State.ended_retired hi.1 _ _ _, rfl, ?_, ?_, State.ended_sameRegs hi.1 _ _ _ fun _ => ⟨rfl, rfl, rfl⟩⟩
  · rw [Chip.path?, Here.past, hE]
    simp [splitFree, Here.groupPast, mget_mset_other _ _ hne, hpath, Here.jumped]
  · rw [Chip.path?, Here.past, hE]
    simp [splitFree]

/-- A path that splits onto its stack. -/
theorem brp_splits_stack {s : State} {h : Here} {f : BpF} (hi : s.mayIssue h { Uses.none with ps := [f.p.toNat] })
    (hm : f.mode = 3) (h0 : h.pr f.p.toNat &&& h.mask ≠ 0) (h1 : h.pr f.p.toNat &&& h.mask ≠ h.mask)
    (hd : h.path.pc + 2 * f.off.signExtend 64 ≠ h.path.pc + 4) (hq : h.path.level = .normal → h.grp.freePath = none)
    (hn : h.path.sides.length < 16) :
    ∃ t, exec (.brp f) s = .next t ∧ s.retired t h 0 ∧ s.keepsBut t h [] [] [] ∧
      t.chip.path? h.g h.p = some ((h.past 4 f.stall.toNat s.clk).pushSplit
        (splitSides h (h.path.pc + 4) (h.path.pc + 2 * f.off.signExtend 64) (h.pr f.p.toNat &&& h.mask))) := by
  obtain ⟨hp, hk⟩ := State.ended_moves hi.1 4 f.stall.toNat
    (fg := fun x => { x with paths := mmod x.paths h.p (Path.pushSplit
      (splitSides h (h.path.pc + 4) (h.path.pc + 2 * f.off.signExtend 64) (h.pr f.p.toNat &&& h.mask))) })
    (fun _ => ⟨rfl, rfl, rfl⟩) fun _ => rfl
  exact ⟨_, exec_brp_split hi hm h0 h1 hd (splitPath_stack hq hn _ _ _), State.ended_retired hi.1 _ _ _, hk, hp⟩

/-- A path that falls through and splits onto its stack stands where its lower side does. -/
theorem Here.pushSplit_past (h : Here) (sides : Side × Side) (stall now : Nat) :
    (h.past 4 stall now).pushSplit sides =
      { (h.jumped sides.1.pc stall now).setSides (sides.2 :: h.path.sides) with mask := sides.1.mask } := by
  unfold Path.pushSplit Path.setSides Path.sides Here.past Here.jumped
  cases h.path.level <;> rfl

/-! ## Events of sides and holds (R22, R276) -/

theorem exec_pathHoldExempt {s : State} {g p : Nat} {x : Path} {t : Nat} (hx : s.chip.path? g p = some x)
    (ht : x.heldSince = some t) (hc : t + 4096 ≤ s.clk) :
    exec (.pathHoldExempt g p) s =
      .next { s with chip := s.chip.modPath g p fun x => { x with exempt := true, heldSince := none } } := by
  refine runEvent_next (t := { s.tx with chip := s.chip.modPath g p fun x => { x with exempt := true, heldSince := none } }) ?_
  simp [hx, ht, hc]

theorem exec_sideReleaseSwap {s : State} {g p : Nat} {x : Path} (hx : s.chip.path? g p = some x) (hc : x.runSince + 4096 ≤ s.clk)
    (hp : x.parked s.clk = false) (hs : (takeLowest x.sides).isSome) :
    exec (.sideReleaseSwap g p) s = .next { s with chip := s.chip.modPath g p fun x => x.releaseSwap s.clk } := by
  refine runEvent_next (t := { s.tx with chip := s.chip.modPath g p fun x => x.releaseSwap s.clk }) ?_
  simp [hx, hc, hp, hs]

/-- A change of one path leaves its group's registers. -/
theorem State.sameRegs_modPath (s : State) (g p : Nat) (f : Path → Path) :
    s.sameRegs { s with chip := s.chip.modPath g p f } g := by
  unfold State.sameRegs State.vreg State.sreg State.preg
  simp only [Chip.modPath, Chip.group_modGroup_same]
  cases s.chip.group? g <;> exact ⟨fun _ _ => rfl, fun _ => rfl, fun _ => rfl⟩

theorem exec_pathHoldStop {s : State} {g p : Nat} {h : Here} {a : TrapArea} (hm : s.plainMemory) (hh : s.chip.here? g p = some h)
    (ha : (s.chip.ctx h.ctx).area = some a) (hl : h.path.level ≠ .supervisor) (hr : h.path.holdReq = true)
    (hd : h.path.dbgHeld = false) (hw : h.path.wait = none) (hb : h.path.blocked = none) (hc : h.path.readyAt ≤ s.clk) :
    ∃ t, exec (.pathHoldStop g p) s = .next t ∧
      t.chip.path? g p = some (h.stopped (BitVec.ofNat 32 causeHold) ((s.chip.pathLoads g p).take 8)) := by
  obtain ⟨u, hu, hp⟩ := holdStop_run (t := s.tx) hm hh ha hl causeHold 0 3
  refine ⟨s.commit u, runEvent_next ?_, hp⟩
  obtain ⟨-, -, hg, hpath, -⟩ := Chip.here_eq hh
  have hx : s.chip.path? g p = some h.path := by simp [Chip.path?, hg, hpath]
  simp [hx, hr, hd, hw, hb, hc, hu]

/-- Settles O13: a split takes the free entry or the stack as `splitPath` does; each event of sides and holds by its own law. -/
theorem splitsAndSides : Obligations.SplitsAndSides := by
  refine ⟨?_, fun s g p x hx => ⟨?_, ?_, ?_⟩⟩
  · intro s h f m rest fall dest hi hm h0 h1 hd
    refine ⟨fun q hl hq => brp_splits_free hi hm h0 h1 hd hl hq, ?_⟩
    intro hq hn low high
    obtain ⟨t, ht, hr, hk, hp⟩ := brp_splits_stack hi hm h0 h1 hd hq hn
    have hsides : splitSides h fall dest m = (⟨low.1, low.2, none⟩, ⟨high.1, high.2, none⟩) := by
      simp only [splitSides, low, high, rest]
      split <;> rfl
    refine ⟨t, ht, hr, hk, hp.trans ?_⟩
    rw [Here.pushSplit_past]
    exact congrArg (fun sides : Side × Side => some { (h.jumped sides.1.pc f.stall.toNat s.clk).setSides (sides.2 :: h.path.sides) with
      mask := sides.1.mask }) hsides
  · exact fun t ht hc => exec_pathHoldExempt hx ht hc
  · intro y r hc hp hs
    refine ⟨_, exec_sideReleaseSwap hx hc hp (by simp [hs]), rfl, State.sameRegs_modPath s g p _, ?_⟩
    rw [Chip.path?_modPath, hx]
    simp [Path.releaseSwap, hs]
  · intro h a hm hh ha hl hr hd hw hb hc
    obtain ⟨-, -, hg, hpath, -⟩ := Chip.here_eq hh
    obtain rfl : x = h.path := by
      simpa [Chip.path?, hg, hpath] using hx.symm
    obtain ⟨t, ht, hp⟩ := exec_pathHoldStop hm hh ha hl hr hd hw hb hc
    exact ⟨t, _, ht, hp, rfl, rfl, rfl, rfl, rfl, rfl, rfl⟩

end Sys2Proof.Machine
end

section
/-! REGSET, its grant and its deadlock (O40). -/

namespace Sys2Proof.Machine

/-! ## What retirement leaves alone -/

theorem Chip.slot_inc_modGroup (c : Chip) (g k : Nat) (f : Group → Group) : ((c.modGroup g f).slot k).inc = (c.slot k).inc := by
  unfold Chip.modGroup
  split
  · by_cases hk : k = g
    · subst hk
      simp [Chip.setGroup]
    · simp [Chip.setGroup, Chip.slot_setSlot, hk]
  · rfl

theorem Chip.retire_agent (c : Chip) (h : Here) (len stall now k : Nat) : (c.retire h len stall now).agent k = c.agent k := by
  simp only [Chip.agent, Chip.retire, Chip.modPath, Chip.slot_inc_modGroup]
  rfl

theorem Chip.retire_core (c : Chip) (h : Here) (len stall now k : Nat) : (c.retire h len stall now).core k = c.core k := by
  simp [Chip.core, Chip.retire, Chip.modPath, Chip.modTeam]

theorem Chip.retire_memq (c : Chip) (h : Here) (len stall now : Nat) : (c.retire h len stall now).memq = c.memq := by
  simp [Chip.retire, Chip.modPath, Chip.modTeam]

/-- Retirement changes no other slot's group, and no group's allocation. -/
theorem Chip.retire_alloc {c : Chip} {h : Here} (hg : c.group? h.g = some h.grp) (len stall now k : Nat) :
    ((c.retire h len stall now).group? k).map Group.alloc = (c.group? k).map Group.alloc := by
  by_cases hk : k = h.g
  · subst hk
    rw [Chip.retire_group hg, hg]
    rfl
  · simp only [Chip.group?, Chip.retire_slot_other _ _ _ _ _ hk]

theorem Chip.retire_regPending_vector (c : Chip) (h : Here) (len stall now g r : Nat) (m : BitVec 32) :
    (c.retire h len stall now).regPending g m .vector r = c.regPending g m .vector r := by
  simp [Chip.regPending, Chip.opPending, Chip.retire_agent, Chip.retire_core, Chip.retire_memq]

theorem Chip.retire_blocksUsed {c : Chip} {h : Here} (hg : c.group? h.g = some h.grp) (len stall now core part : Nat) :
    (c.retire h len stall now).blocksUsed core part = c.blocksUsed core part := by
  unfold Chip.blocksUsed
  congr 1
  funext n k
  have ha := Chip.retire_alloc hg len stall now k
  cases h1 : (c.retire h len stall now).group? k <;> cases h2 : c.group? k <;> simp_all

/-- With its acting path as it stood before it retired, a chip has every path it had. -/
theorem Chip.unretire_path {s : State} {h : Here} (ha : s.acts h) (len stall g p : Nat) :
    ((s.chip.retire h len stall s.clk).modPath h.g h.p fun _ => h.path).path? g p = s.chip.path? g p := by
  obtain ⟨hg, hpath, -⟩ := State.acts_eq ha
  by_cases hk : g = h.g
  · subst hk
    rw [Chip.path?, Chip.path?, Chip.modPath, Chip.group_modGroup_same, Chip.retire_group hg, hg]
    by_cases hq : p = h.p
    · subst hq
      simp [Here.groupPast, hpath]
    · simp [Here.groupPast, mget_mmod_other _ _ hq]
  · simp [Chip.path?, Chip.group?, Chip.modPath, Chip.slot_modGroup_other _ _ hk, Chip.retire_slot_other _ _ _ _ _ hk]

theorem Chip.unretire_growersOf {s : State} {h : Here} (ha : s.acts h) (len stall core part : Nat) :
    ((s.chip.retire h len stall s.clk).modPath h.g h.p fun _ => h.path).growersOf core part = s.chip.growersOf core part := by
  have hc : ((s.chip.retire h len stall s.clk).modPath h.g h.p fun _ => h.path).core core = s.chip.core core := by
    rw [← Chip.retire_core s.chip h len stall s.clk core]
    simp [Chip.core, Chip.modPath]
  simp only [Chip.growersOf, hc, Chip.unretire_path ha]

/-! ## REGSET (R18, R274, R396, R397) -/

/-- A scalar result in a group without results still to be read is a write. -/
theorem Chip.land_setS {c : Chip} {g now r : Nat} {x : Group} {m : BitVec 32} {v : Word} (hg : c.group? g = some x) (hz : x.hazards = []) :
    (c.modGroup g fun x => x.landS now r m v) = c.modGroup g fun x => x.setS r v := by
  simp [Chip.modGroup, hg, Group.landS_quiet hz]

section
variable {s : State} {h : Here} {f : RegsetF}

/-- The registers that a REGSET names. -/
abbrev regsetUses (f : RegsetF) : Uses :=
  { Uses.none with ss := if f.imm = 1 then [] else [f.sa.toNat], sd := [f.sd.toNat], ps := guardPs f.g }

/-- The count that a REGSET asks for. -/
abbrev regsetCount (h : Here) (f : RegsetF) : Nat := if f.imm = 1 then f.n.toNat else (h.s f.sa.toNat).toNat

/-- Whether the first of some growers, where there is one, is the acting path. -/
def Here.isGrower (h : Here) (first : Option (Nat × Nat × Nat × Nat)) : Bool :=
  match first with
  | none => true
  | some e => e.1 = h.g && e.2.1 = h.p

/-- A REGSET that may issue and asks for a count that a group can hold. -/
structure State.mayRegset (s : State) (h : Here) (f : RegsetF) : Prop where
  issues : s.mayIssue h (regsetUses f)
  lanes : h.lanes f.g ≠ 0
  blocks : regsetCount h f % 8 = 0
  low : 8 ≤ regsetCount h f
  high : regsetCount h f ≤ 128

/-- A growth by the acting path is next: no earlier grower waits, and the blocks are free (R396). -/
def Here.growsNext (h : Here) (c : Chip) (n : Nat) : Prop :=
  (∀ e, (c.growersOf h.core (slotPart h.g)).head? = some e → e.1 = h.g ∧ e.2.1 = h.p) ∧
    c.blocksUsed h.core (slotPart h.g) + (n - h.grp.alloc) / 8 ≤ 128

theorem Here.growsNext_iff {c : Chip} {n : Nat} :
    (h.isGrower (c.growersOf h.core (slotPart h.g)).head? &&
      decide (c.blocksUsed h.core (slotPart h.g) + (n - h.grp.alloc) / 8 ≤ 128)) = true ↔ h.growsNext c n := by
  rw [Bool.and_eq_true, decide_eq_true_iff, Here.growsNext]
  cases (c.growersOf h.core (slotPart h.g)).head? <;> simp [Here.isGrower]

/-- A shrink drops the registers above the count and what is still to be read of them. -/
def Group.shrunk (n : Nat) (x : Group) : Group :=
  { x with alloc := n
           v := x.v.filter fun e => e.1 / 32 < n
           hazards := x.hazards.filter fun z => z.file ≠ .vector || z.idx < n }

/-- An instruction that may issue and whose body, on the chip after retirement, leaves the chip `c` and changes nothing else. -/
theorem exec_issued {u : Uses} {i : Instr} {n len stall : Nat} {body : Here → Act Unit} {c : Chip}
    (hx : exec i s = runZha n (issue len stall u body) s) (hi : s.mayIssue h u)
    (hb : body h { s.tx with chip := s.chip.retire h len stall s.clk } = .ok ((), { s.tx with chip := c })) :
    exec i s = .next { s with chip := c } :=
  hx.trans (runZha_next ((issue_next hi len stall body).trans hb))

/-- The checks of a valid REGSET's count. -/
theorem regsetCount_valid (hm : s.mayRegset h f) :
    (decide (regsetCount h f % 8 ≠ 0) || decide (regsetCount h f < 8) || decide (regsetCount h f > 128)) = false := by
  simp [hm.blocks, hm.low, hm.high]

/-- The answer of a REGSET whose group, past it, has changed by `fg`. -/
theorem regset_land (hm : s.mayRegset h f) {d : Chip} (hd : d.slots = (s.chip.retire h 8 f.stall.toNat s.clk).slots)
    {fg : Group → Group} (hf : ∀ x : Group, x.hazards = [] → (fg x).hazards = []) (n : Nat) :
    ((d.modGroup h.g fg).modGroup h.g fun x => x.landS s.clk f.sd.toNat h.mask (BitVec.ofNat 32 n)) =
      d.modGroup h.g fun x => (fg x).setS f.sd.toNat (BitVec.ofNat 32 n) := by
  obtain ⟨ha, -, -, -, hz⟩ := hm.issues
  have hg : d.group? h.g = some (h.groupPast 8 f.stall.toNat s.clk) := by
    rw [← Chip.retire_group (State.acts_eq ha).1]
    simp only [Chip.group?, Chip.slot, hd]
  rw [Chip.land_setS (x := fg (h.groupPast 8 f.stall.toNat s.clk)) (by simp [hg]) (hf _ (Here.groupPast_hazards hz _ _ _)),
    Chip.modGroup_modGroup]

/-- A shrink with nothing outstanding on the registers that it drops. -/
theorem regset_shrinks (hm : s.mayRegset h f) (hn : regsetCount h f < h.grp.alloc)
    (hq : ∀ k, regsetCount h f ≤ k → k < h.grp.alloc → s.chip.regPending h.g (BitVec.allOnes 32) .vector k = false) :
    exec (.regset f) s = .next (s.onward h (xForm f.stall f.g) fun c => c.modGroup h.g fun x =>
      (x.shrunk (regsetCount h f)).setS f.sd.toNat (BitVec.ofNat 32 (regsetCount h f))) := by
  have hfree : ((List.range (h.grp.alloc - regsetCount h f)).any fun k =>
      (s.chip.retire h 8 f.stall.toNat s.clk).regPending h.g (BitVec.allOnes 32) .vector (regsetCount h f + k)) = false := by
    rw [List.any_eq_false]
    intro k hk
    rw [Chip.retire_regPending_vector, hq _ (Nat.le_add_right _ _) (Nat.add_lt_of_lt_sub' (List.mem_range.mp hk))]
    exact Bool.false_ne_true
  refine (exec_issued (i := .regset f) rfl hm.issues ?_).trans (congrArg (fun c => Host.Outcome.next { s with chip := c })
    (regset_land hm (fg := Group.shrunk (regsetCount h f)) rfl (fun x hx => by simp [Group.shrunk, hx]) (regsetCount h f)))
  simp only [onceIf, hm.lanes, if_false, bind_run, getChip_run]
  rw [regsetCount_valid hm]
  simp only [hn, hfree, if_true, if_false, Bool.false_eq_true, bind_run, modGroup_run, setS_run]
  rfl

/-- The answer of a REGSET that changes no count. -/
theorem regset_gives (hm : s.mayRegset h f)
    (hx : exec (.regset f) s = .next (s.onward h (xForm f.stall f.g) fun c => c.modGroup h.g fun x =>
      x.landS s.clk f.sd.toNat h.mask (BitVec.ofNat 32 h.grp.alloc))) :
    s.scalarGets h (.regset f) (xForm f.stall f.g) f.sd.toNat (BitVec.ofNat 32 h.grp.alloc) := by
  obtain ⟨ha, -, -, -, hz⟩ := hm.issues
  refine State.ended_scalar (fg := fun x => x.setS f.sd.toNat (BitVec.ofNat 32 h.grp.alloc)) ha hz (hx.trans ?_) (fun _ => rfl)
    (fun x _ => (Group.sreg_setS x _ _ _).trans (if_pos rfl)) (fun x r hr => (Group.sreg_setS x _ _ _).trans (if_neg hr))
    (fun _ => rfl) fun _ => rfl
  rw [State.ended, Chip.modTeam_same, State.onward,
    Chip.land_setS (Chip.retire_group (State.acts_eq ha).1 _ _ _) (Here.groupPast_hazards hz _ _ _)]
  rfl

theorem regset_same (hm : s.mayRegset h f) (hn : regsetCount h f = h.grp.alloc) :
    s.scalarGets h (.regset f) (xForm f.stall f.g) f.sd.toNat (BitVec.ofNat 32 h.grp.alloc) := by
  refine regset_gives hm (exec_issued (i := .regset f) rfl hm.issues ?_)
  simp only [onceIf, hm.lanes, if_false, bind_run, getChip_run]
  rw [regsetCount_valid hm]
  simp only [hn, Nat.lt_irrefl, if_true, if_false, Bool.false_eq_true, setS_run]
  rfl

/-- The growers that a growth by the acting path leaves. -/
def Here.leftGrowers (h : Here) (c : Chip) : Chip :=
  c.modCore h.core fun k => { k with growers := k.growers.filter fun e => !(e.1 = h.g && e.2.1 = h.p) }

/-- A growth that is next takes its blocks. -/
theorem regset_grows (hm : s.mayRegset h f) (hn : h.grp.alloc < regsetCount h f) (hr : h.path.refuseGrow = false)
    (hf : h.growsNext s.chip (regsetCount h f)) :
    exec (.regset f) s = .next (s.onward h (xForm f.stall f.g) fun c => (h.leftGrowers c).modGroup h.g fun x =>
      { x with alloc := regsetCount h f }.setS f.sd.toNat (BitVec.ofNat 32 (regsetCount h f))) := by
  refine (exec_issued (i := .regset f) rfl hm.issues ?_).trans (congrArg (fun c => Host.Outcome.next { s with chip := c })
    (regset_land hm (d := h.leftGrowers (s.chip.retire h 8 f.stall.toNat s.clk)) (fg := fun x => { x with alloc := regsetCount h f }) rfl
      (fun x hx => hx) (regsetCount h f)))
  simp only [onceIf, hm.lanes, if_false, bind_run, getChip_run]
  rw [regsetCount_valid hm]
  simp only [Nat.lt_asymm hn, Nat.ne_of_gt hn, hr, if_false, Bool.false_eq_true, Chip.unretire_growersOf hm.issues.1,
    Chip.retire_blocksUsed (State.acts_eq hm.issues.1).1]
  rw [if_pos]
  · rfl
  · exact Here.growsNext_iff.mpr hf

/-- A growth that is not next and does not wait answers the count it has. -/
theorem regset_declines (hm : s.mayRegset h f) (hn : h.grp.alloc < regsetCount h f) (hr : h.path.refuseGrow = false)
    (hf : ¬ h.growsNext s.chip (regsetCount h f)) (hb : f.nb = 1) :
    s.scalarGets h (.regset f) (xForm f.stall f.g) f.sd.toNat (BitVec.ofNat 32 h.grp.alloc) := by
  refine regset_gives hm (exec_issued (i := .regset f) rfl hm.issues ?_)
  simp only [onceIf, hm.lanes, if_false, bind_run, getChip_run]
  rw [regsetCount_valid hm]
  simp only [Nat.lt_asymm hn, Nat.ne_of_gt hn, hr, if_false, Bool.false_eq_true, Chip.unretire_growersOf hm.issues.1,
    Chip.retire_blocksUsed (State.acts_eq hm.issues.1).1, hb, if_true]
  rw [if_neg]
  · rfl
  · exact mt Here.growsNext_iff.mp hf

/-- The chip once a path at its REGSET is as before its issue (R397). -/
def Here.unretired (h : Here) (c : Chip) : Chip :=
  ((c.modTeam h.tid fun t => { t with ret := h.team.ret }).modGroup h.g fun x => { x with hazards := h.grp.hazards }).modPath
    h.g h.p fun _ => h.path

theorem unissue_run (h : Here) (t : Tx) : unissue h t = .ok ((), { t with chip := h.unretired t.chip }) := rfl

theorem Chip.unretired_core (c : Chip) (h : Here) (k : Nat) : (h.unretired c).core k = c.core k := by
  simp [Chip.core, Here.unretired, Chip.modPath, Chip.modTeam]

/-- The group of a path that is as before its issue. -/
theorem Chip.unretired_group {s : State} (ha : s.acts h) (len stall : Nat) :
    ∃ x, (h.unretired (s.chip.retire h len stall s.clk)).group? h.g = some x ∧
      (x.v = h.grp.v ∧ x.s = h.grp.s ∧ x.p = h.grp.p) ∧ mget? x.paths h.p = some h.path := by
  obtain ⟨hg, hpath, -⟩ := State.acts_eq ha
  simp only [Here.unretired, Chip.modPath, Chip.group_modGroup_same, Chip.modTeam_group, Chip.retire_group hg, Option.map_some]
  exact ⟨_, rfl, ⟨rfl, rfl, rfl⟩, by simp [Here.groupPast, hpath]⟩

/-- A core's growers with one more at their end. -/
def Core.grower (e : Nat × Nat × Nat × Nat) (k : Core) : Core := { k with growers := k.growers ++ [e] }

/-- A growth that is not next waits in order. -/
theorem regset_waits (hm : s.mayRegset h f) (hn : h.grp.alloc < regsetCount h f) (hr : h.path.refuseGrow = false)
    (hf : ¬ h.growsNext s.chip (regsetCount h f)) (hb : f.nb = 0)
    (hg : ∀ e ∈ (s.chip.core h.core).growers, (e.1 = h.g && e.2.1 = h.p) = false) :
    exec (.regset f) s = .next (s.onward h (xForm f.stall f.g) fun c =>
      (h.unretired c).modCore h.core (Core.grower (h.g, h.p, h.path.pc.toNat, regsetCount h f))) := by
  refine exec_issued (i := .regset f) rfl hm.issues ?_
  simp only [onceIf, hm.lanes, if_false, bind_run, getChip_run]
  rw [regsetCount_valid hm]
  simp only [Nat.lt_asymm hn, Nat.ne_of_gt hn, hr, if_false, Bool.false_eq_true, Chip.unretire_growersOf hm.issues.1,
    Chip.retire_blocksUsed (State.acts_eq hm.issues.1).1, hb, BitVec.reduceEq]
  rw [if_neg]
  · have hany : ((s.chip.core h.core).growers.any fun e => e.1 = h.g && e.2.1 = h.p && e.2.2.1 = h.path.pc.toNat) = false := by
      rw [List.any_eq_false]
      intro e he
      simp [hg e he]
    have hfilter : ((s.chip.core h.core).growers.filter fun e => !(e.1 = h.g && e.2.1 = h.p)) = (s.chip.core h.core).growers :=
      List.filter_eq_self.mpr fun e he => by simp [hg e he]
    simp only [bind_run, unissue_run, modCore_run, Chip.modCore, Chip.unretired_core, Chip.retire_core, hany, hfilter,
      Bool.false_eq_true, if_false, Core.grower]
    rfl
  · exact mt Here.growsNext_iff.mp hf

/-- What a wait at a REGSET leaves of its group, and where it stands among its core's growers. -/
theorem regset_waits_leaves (ha : s.acts h) (e : Nat × Nat × Nat × Nat) {t : State}
    (ht : t = s.onward h (xForm f.stall f.g) fun c => (h.unretired c).modCore h.core (Core.grower e)) :
    s.sameRegs t h.g ∧ t.mem = s.mem ∧ t.chip.path? h.g h.p = some h.path ∧
      (t.chip.core h.core).growers = (s.chip.core h.core).growers ++ [e] := by
  obtain ⟨hg, -⟩ := State.acts_eq ha
  obtain ⟨x, hx, hregs, hq⟩ := Chip.unretired_group ha 8 f.stall.toNat
  have hx' : t.chip.group? h.g = some x := by
    subst ht
    exact hx
  refine ⟨State.sameRegs_of_group hg hx' hregs, by rw [ht]; rfl, ?_, ?_⟩
  · simp [Chip.path?, hx', hq]
  · rw [ht, State.onward, Chip.core_modCore, if_pos rfl, Chip.unretired_core, Chip.retire_core]
    rfl

/-! ## REGSET_GROWTH_GRANT and REGSET_DEADLOCK (R274) -/

/-- The grant of a partition whose first grower can run its REGSET again is that REGSET. -/
theorem exec_regsetGrowthGrant {o : Nat × Nat} {part : Nat} {e : Nat × Nat × Nat × Nat} (ha : s.acts h) (hact : s.actor = (h.g, h.p))
    (he : (s.chip.growersOf h.core part).head? = some e) (hme : e.1 = h.g ∧ e.2.1 = h.p) (hw : s.noWindow h)
    (hrun : h.team.saveBy = none ∧ h.path.blocked = none ∧ h.path.dbgHeld = false ∧ h.path.heldSince = none) (hc : s.codeHot h 8)
    (hd : decode (s.code h 8) = some (.regset f, [])) :
    exec (.regsetGrowthGrant h.core part) { s with actor := o } = exec (.regset f) s := by
  obtain ⟨hsave, hblk, hdbg, hheld⟩ := hrun
  have hs : ({ { s with actor := o } with actor := (e.1, e.2.1) } : State) = s := by
    rw [hme.1, hme.2, ← hact]
  have hh : here s.tx = .ok (h, s.tx) := here_run ha
  show execRegsetGrowthGrant h.core part { s with actor := o } = execRegset f s
  unfold execRegsetGrowthGrant
  simp only [he, hs, bind_run, hh, fetchInstr_code hw hc hd, hsave, hblk, hdbg, hheld, Option.isNone_none, Bool.not_false, Bool.and_self,
    enabled_true, pure_run, State.commit_tx]

/-- One after another, changes of paths are one change of the chip. -/
theorem each_modPath {α : Type} (g p : α → Nat) (f : Path → Path) (xs : List α) (t : Tx) :
    each xs (fun x => modPath (g x) (p x) f) t = .ok ((), { t with chip := xs.foldl (fun c x => c.modPath (g x) (p x) f) t.chip }) := by
  induction xs generalizing t with
  | nil => rfl
  | cons x r ih => exact ih { t with chip := t.chip.modPath (g x) (p x) f }

end

/-- The growers of a core that its free blocks do not serve. -/
def Chip.tightGrowers (c : Chip) (core : Nat) : List (Nat × Nat × Nat × Nat) :=
  [0, 1, 2, 3].flatMap fun p => (c.growersOf core p).filter fun e =>
    match c.group? e.1 with
    | some x => c.blocksUsed core p + (e.2.2.2 - x.alloc) / 8 > 128
    | none => false

/-- Where all of a core's groups wait on growth and one unit holds it, its growers are refused. -/
theorem exec_regsetDeadlock {s : State} {core tid : Nat} {team : Team} {r : Run} (hg : s.chip.allGrow core = true)
    (ht : s.chip.coreTeams core = [(tid, team)]) (hr : mget? s.chip.runs team.run = some r) (hs : team.saveBy = none)
    (hn : s.chip.tightGrowers core ≠ []) :
    exec (.regsetDeadlock core) s = .next { s with chip := (s.chip.tightGrowers core).foldl (fun c e =>
      c.modPath e.1 e.2.1 fun x => { x with refuseGrow := true }) s.chip } := by
  have hn' : (!(s.chip.tightGrowers core).isEmpty) = true := by simpa using hn
  refine runEvent_next (t := { s.tx with chip := (s.chip.tightGrowers core).foldl (fun c e =>
      c.modPath e.1 e.2.1 fun x => { x with refuseGrow := true }) s.chip }) ?_
  refine (bind_next (getChip_run _)).trans <| (bind_next (x := ()) (u := s.tx) (congrArg (fun b => enabled b s.tx) hg)).trans <|
    (bind_next (x := (tid, team)) (u := s.tx) (by simp [ht])).trans <| (bind_next (x := r) (u := s.tx) (by simp [hr])).trans <|
    (bind_next (x := ()) (u := s.tx) (by simp [hs])).trans ?_
  rw [if_pos (by simp [ht])]
  exact (bind_next (x := ()) (u := s.tx) (congrArg (fun b => enabled b s.tx) hn')).trans
    (each_modPath Prod.fst (fun e : Nat × Nat × Nat × Nat => e.2.1) _ _ _)

/-- Settles O40: each kind of REGSET, its grant and its deadlock by its own law. -/
theorem registerGrowth : Obligations.RegisterGrowth := by
  intro s
  constructor
  case right =>
    intro core tid team r hg ht hr hs tight hn
    exact exec_regsetDeadlock hg ht hr hs hn
  intro h f hl F sd n old part first fits mine set grows hi h8 hlo hhi
  have hm : s.mayRegset h f := ⟨hi, hl, h8, hlo, hhi⟩
  refine ⟨fun hn hq => regset_shrinks hm hn hq, fun hn => regset_same hm hn, ?_, ?_, ?_⟩
  · intro hn hr hfirst hfits
    have hgrow := regset_grows hm hn hr ⟨hfirst, hfits⟩
    refine ⟨hgrow, fun o hw hne hact hsave hblk hdbg hheld hc _ hd => ?_⟩
    obtain ⟨e, he⟩ : ∃ e, (s.chip.growersOf h.core part).head? = some e := Option.isSome_iff_exists.mp (by simpa using hne)
    exact (exec_regsetGrowthGrant hi.1 hact he (hfirst e he) hw ⟨hsave, hblk, hdbg, hheld⟩ hc hd).trans hgrow
  · exact fun hn hr hf hb => regset_declines hm hn hr hf hb
  · intro hn hr hf hb hg
    exact ⟨_, regset_waits hm hn hr hf hb hg, regset_waits_leaves hi.1 _ rfl⟩

end Sys2Proof.Machine
end

section
/-! EXIT and TRET (O39). -/

namespace Sys2Proof.Machine

/-! ## Sides that are not parked -/

theorem mem_mmod {α : Type} {m : Map α} {k : Nat} {f : α → α} : ∀ e ∈ mmod m k f, e ∈ m ∨ ∃ w, (k, w) ∈ m ∧ e = (k, f w) := by
  intro e he
  obtain ⟨⟨j, w⟩, hw, rfl⟩ := List.mem_map.mp he
  by_cases hj : j = k
  · subst hj
    exact .inr ⟨w, hw, if_pos rfl⟩
  · exact .inl (by simpa [hj] using hw)

/-- No side of a path is parked: neither the running one nor an entry of its stacks. -/
def Path.awake (x : Path) : Prop := x.wait = none ∧ ∀ e ∈ x.stack ++ x.hstack ++ x.ustack, e.wait = none

theorem pathParked_nil_iff {g p : Nat} {x : Path} : pathParked g p x = [] ↔ x.awake := by
  have hstack (k : Nat) (l : List Side) : (l.zipIdx.filterMap fun s => s.1.wait.map fun w =>
      (⟨g, p, some (k, s.2), s.1.pc, s.1.mask, w⟩ : Parked)) = [] ↔ ∀ e ∈ l, e.wait = none := by
    rw [List.filterMap_eq_nil_iff, List.forall_mem_zipIdx']
    simp only [Option.map_eq_none_iff]
    exact (List.forall_mem_iff_getElem (p := fun e : Side => e.wait = none)).symm
  unfold pathParked Path.awake
  rw [List.append_eq_nil_iff, List.flatMap_eq_nil_iff]
  simp only [hstack]
  cases x.wait <;> simp [Path.stackAt, or_imp, forall_and]

/-- No side of a group is parked. -/
def Group.awake (x : Group) : Prop := ∀ e ∈ x.paths, e.2.awake

theorem Chip.parkedSides_nil_iff {c : Chip} : c.parkedSides = [] ↔
    ∀ e ∈ c.slots, ∀ x, e.2.group = some x → c.saving x.tid = false → x.awake := by
  unfold Chip.parkedSides
  rw [List.flatMap_eq_nil_iff]
  refine forall₂_congr fun e _ => ?_
  cases e.2.group with
  | none => simp
  | some x =>
    cases hs : c.saving x.tid
    · simp [hs, List.flatMap_eq_nil_iff, pathParked_nil_iff, Group.awake]
    · simp [hs]

/-! ## Changes of a group that wake and park nobody -/

/-- A change of a group that keeps its team, and leaves it without a parked side where it had none. -/
def Group.staysAwake (f : Group → Group) (x : Group) : Prop := (f x).tid = x.tid ∧ (x.awake → (f x).awake)

theorem Chip.modGroup_nobody {c : Chip} (hc : c.parkedSides = []) {g : Nat} {f : Group → Group}
    (hf : ∀ x, c.group? g = some x → Group.staysAwake f x) : (c.modGroup g f).parkedSides = [] := by
  rw [Chip.parkedSides_nil_iff] at hc ⊢
  cases hg : c.group? g with
  | none =>
    simp only [Chip.modGroup, hg]
    exact hc
  | some y =>
    obtain ⟨htid, hawake⟩ := hf y hg
    have hsave (k : Nat) : (c.modGroup g f).saving k = c.saving k := by simp [Chip.saving]
    have hslots : (c.modGroup g f).slots = mset c.slots g { c.slot g with group := some (f y) } := by
      simp [Chip.modGroup, hg, Chip.setGroup, Chip.setSlot]
    intro e he x hx hs
    rw [hsave] at hs
    rw [hslots] at he
    rcases mem_mset e he with h' | h'
    · exact hc e h' x hx hs
    · subst h'
      obtain rfl : f y = x := Option.some.inj hx
      rw [htid] at hs
      unfold Chip.group? Chip.slot mgetD at hg
      cases hm : mget? c.slots g with
      | none => simp [hm, Slot.init] at hg
      | some v =>
        rw [hm] at hg
        exact hawake (hc _ (mget_mem hm) y hg hs)

theorem Path.sides_awake {x : Path} (hx : x.awake) : ∀ b ∈ x.sides, b.wait = none := by
  intro b hb
  unfold Path.sides at hb
  split at hb <;> exact hx.2 b (by simp [hb])

theorem Path.setSides_normal {x : Path} (hl : x.level = .normal) (r : List Side) : x.setSides r = { x with stack := r } := if_pos hl

theorem Path.setSides_awake {x : Path} {r : List Side} (hx : x.awake) (hr : ∀ b ∈ r, b.wait = none) : (x.setSides r).awake := by
  obtain ⟨hw, hs⟩ := hx
  simp only [List.mem_append, or_imp, forall_and] at hs
  unfold Path.setSides Path.awake
  split <;> simp only [List.mem_append, or_imp, forall_and]
  · exact ⟨hw, ⟨hr, hs.1.2⟩, hs.2⟩
  · exact ⟨hw, ⟨hs.1.1, hr⟩, hs.2⟩

/-- A change of one path of a group. -/
theorem Group.staysAwake_mmod {x : Group} {p : Nat} {f : Path → Path} (hf : x.awake → ∀ y, y.awake → (f y).awake) :
    Group.staysAwake (fun x => { x with paths := mmod x.paths p f }) x := by
  refine ⟨rfl, fun hx e he => ?_⟩
  rcases mem_mmod e he with h | ⟨w, hw, rfl⟩
  · exact hx e h
  · exact hf hx w (hx _ hw)

theorem Chip.saving_modTeam (c : Chip) (i k : Nat) {f : Team → Team} (hf : ∀ t, (f t).saveBy = t.saveBy) :
    (c.modTeam i f).saving k = c.saving k := by
  simp only [Chip.saving, Chip.modTeam, mget_mmod]
  by_cases hk : k = i <;> cases mget? c.teams k <;> simp [hk, hf]

theorem Chip.retire_nobody {c : Chip} (hc : c.parkedSides = []) (h : Here) (len stall now : Nat) :
    (c.retire h len stall now).parkedSides = [] := by
  have hteam : (c.modTeam h.tid fun t => { t with ret := t.ret + 1 }).parkedSides = [] := by
    rw [Chip.parkedSides_nil_iff] at hc ⊢
    intro e he x hx hs
    refine hc e he x hx (Eq.trans (Eq.symm (Chip.saving_modTeam c h.tid x.tid ?_)) hs)
    exact fun _ => rfl
  unfold Chip.retire Chip.modPath
  apply Chip.modGroup_nobody
  · apply Chip.modGroup_nobody hteam
    exact fun x _ => ⟨rfl, id⟩
  · refine fun x _ => Group.staysAwake_mmod ?_
    exact fun _ _ hy => hy

/-- With nobody waiting, nothing settles. -/
theorem settle_none {t : Tx} (h : t.chip.parkedSides = []) : settle t = .ok ((), t) := by
  have hk (q : Wait → Bool) : settleKind q t = .ok ((), t) := by simp [settleKind, h]
  unfold settle
  simp only [bind_run, getChip_run, hk]
  exact each_id _ fun _ _ => hk _

/-- A transaction that writes no memory, keeps every team, changes a group by `fg` and parks nobody. -/
structure Tx.movesGroup (t u : Tx) (g : Nat) (fg : Group → Group) : Prop where
  log : u.log = t.log
  teams : u.chip.teams = t.chip.teams
  group : u.chip.group? g = (t.chip.group? g).map fg
  nobody : t.chip.parkedSides = [] → u.chip.parkedSides = []

theorem Tx.movesGroup_trans {t u v : Tx} {g : Nat} {f k : Group → Group} (h : t.movesGroup u g f) (h' : u.movesGroup v g k) :
    t.movesGroup v g fun x => k (f x) := by
  obtain ⟨h1, h2, h3, h4⟩ := h
  obtain ⟨k1, k2, k3, k4⟩ := h'
  refine ⟨k1.trans h1, k2.trans h2, ?_, fun h0 => k4 (h4 h0)⟩
  rw [k3, h3, Option.map_map]
  rfl

theorem Tx.movesGroup_modGroup (t : Tx) (g : Nat) {f : Group → Group} (hf : ∀ x, t.chip.group? g = some x → Group.staysAwake f x) :
    t.movesGroup { t with chip := t.chip.modGroup g f } g f :=
  ⟨rfl, by simp, by simp, fun h0 => Chip.modGroup_nobody h0 hf⟩

theorem noteParked_moves (tid g : Nat) (t : Tx) : ∃ u, noteParked tid t = .ok ((), u) ∧ t.movesGroup u g id := by
  have hstay : t.movesGroup t g id := ⟨rfl, rfl, by simp, id⟩
  unfold noteParked
  simp only [bind_run, getChip_run]
  cases mget? t.chip.teams tid with
  | none => exact ⟨t, rfl, hstay⟩
  | some x =>
    cases t.chip.teamParked tid
    · exact ⟨t, rfl, hstay⟩
    · exact ⟨_, rfl, rfl, rfl, hstay.group, id⟩

/-! ## A path whose lanes have left (R23) -/

theorem takeLow_mem {l r : List Side} {e : Side} (h : takeLow l = some (e, r)) : e ∈ l ∧ ∀ b ∈ r, b ∈ l := by
  induction l generalizing e r with
  | nil => simp [takeLow] at h
  | cons x l ih =>
    unfold takeLow at h
    cases hl : takeLow l with
    | none =>
      simp only [hl, Option.some.injEq, Prod.mk.injEq] at h
      obtain ⟨rfl, rfl⟩ := h
      exact ⟨List.mem_cons_self, fun b hb => List.mem_cons_of_mem _ hb⟩
    | some y =>
      obtain ⟨y, r'⟩ := y
      obtain ⟨hy, hr'⟩ := ih hl
      simp only [hl] at h
      split at h <;> simp only [Option.some.injEq, Prod.mk.injEq] at h <;> obtain ⟨rfl, rfl⟩ := h
      · exact ⟨List.mem_cons_self, fun b hb => List.mem_cons_of_mem _ hb⟩
      · refine ⟨List.mem_cons_of_mem _ hy, fun b hb => ?_⟩
        rcases List.mem_cons.mp hb with rfl | hb
        · exact List.mem_cons_self
        · exact List.mem_cons_of_mem _ (hr' b hb)

/-- A path in which nothing is parked pops a side that is not parked. -/
theorem Path.refill_awake {x y : Path} {now : Nat} (h : x.refill now = some y) (hx : x.awake) : y.awake := by
  unfold Path.refill at h
  split at h
  · rwa [← Option.some.inj h]
  · obtain ⟨⟨e, r⟩, hl, hy⟩ := Option.map_eq_some_iff.mp h
    obtain ⟨he, hr⟩ := takeLow_mem hl
    have hw : e.wait = none := Path.sides_awake hx e he
    have hset := Path.setSides_awake hx fun b hb => Path.sides_awake hx b (hr b hb)
    simp only [hw, Option.isSome_none, Bool.false_eq_true, if_false] at hy
    obtain rfl := hy
    exact ⟨rfl, hset.2⟩

/-- A group in which a path has given way to what it refills with, or left. -/
def Group.refilled (p : Nat) (q : Option Path) (x : Group) : Group :=
  { x with paths := q.elim (merase x.paths p) fun y => mmod x.paths p fun _ => y }

theorem Group.staysAwake_refilled {x : Group} {p now : Nat} {y : Path} {q : Option Path} (hy : mget? x.paths p = some y)
    (hq : y.refill now = q) : Group.staysAwake (Group.refilled p q) x := by
  cases q with
  | none => exact ⟨rfl, fun hx e he => hx e (List.mem_of_mem_filter he)⟩
  | some z => exact Group.staysAwake_mmod fun hx _ _ => Path.refill_awake hq (hx _ (mget_mem hy))

/-- Changes of pending accesses are nothing to a group. -/
theorem each_modOp (k : MemOp → MemOp) (xs : List Nat) (t : Tx) :
    ∃ m, each xs (fun seq => modOp seq k) t = .ok ((), { t with chip := { t.chip with memq := m } }) := by
  induction xs generalizing t with
  | nil => exact ⟨_, rfl⟩
  | cons x r ih => exact ih { t with chip := _ }

theorem freePath_moves {t : Tx} {g p now : Nat} {y : Path} (hy : t.chip.path? g p = some y) (hr : y.refill now = none) :
    ∃ u, freePath g p t = .ok ((), u) ∧ t.movesGroup u g (Group.refilled p none) := by
  obtain ⟨m, hm⟩ := each_modOp (fun o => { o with reported := false }) y.late t
  refine ⟨_, ?_, Tx.movesGroup_trans (u := { t with chip := { t.chip with memq := m } }) (f := id) ⟨rfl, rfl, by simp; rfl, id⟩
    (Tx.movesGroup_modGroup _ g (f := Group.refilled p none) fun x hx => Group.staysAwake_refilled ?_ hr)⟩
  · unfold freePath
    simp only [bind_run, getChip_run, hy]
    simp only [hm, modGroup_run]
    rfl
  · have hx' : t.chip.group? g = some x := hx
    simpa [Chip.path?, hx'] using hy

/-- The team's record once an instruction that leaves the teams alone has retired. -/
theorem State.retired_of_teams {s t : State} {h : Here} {len stall : Nat} (ht : t.chip.teams = (s.chip.retire h len stall s.clk).teams) :
    s.retired t h 0 := by
  rw [State.retired, ht, Chip.retire_teams, mget_mmod_same]
  rfl

/-! ## EXIT (R23, R358) -/

section
variable {s : State} {h : Here} {f : GuardF}

/-- An EXIT that may issue at normal level. -/
structure State.mayExit (s : State) (h : Here) (f : GuardF) : Prop where
  nobody : s.nobodyWaits
  issues : s.mayIssue h { Uses.none with ps := guardPs f.g }
  lanes : h.lanes f.g ≠ 0
  level : h.path.level = .normal

/-- The group whose lanes `gone` of one path have left. -/
def Group.leave (p : Nat) (gone : BitVec 32) (x : Group) : Group :=
  { x with live := x.live &&& ~~~gone, paths := mmod x.paths p fun x => { x with mask := x.mask &&& ~~~gone } }

/-- The acting path past an EXIT, without the lanes that left. -/
def Here.exited (h : Here) (f : GuardF) (now : Nat) : Path :=
  { h.past 8 f.stall.toNat now with mask := h.mask &&& ~~~h.lanes f.g }

/-- A group none of whose lanes live has no open batch. -/
def Group.endBatch (x : Group) : Group := if x.live = 0 then if x.openSet.isEmpty then x else x.closeBatch else x

theorem Group.endBatch_keeps (x : Group) : x.endBatch.v = x.v ∧ x.endBatch.s = x.s ∧ x.endBatch.p = x.p ∧
    x.endBatch.live = x.live ∧ x.endBatch.paths = x.paths ∧ x.endBatch.tid = x.tid := by
  unfold Group.endBatch
  split
  · split <;> exact ⟨rfl, rfl, rfl, rfl, rfl, rfl⟩
  · exact ⟨rfl, rfl, rfl, rfl, rfl, rfl⟩

/-- What EXIT does with the open batch of its group, which stands as `x` once its lanes have left. -/
def endBatch (g : Nat) (x : Option Group) : Act Unit :=
  whenSome x fun x => if x.live = 0 then modGroup g fun x => if x.openSet.isEmpty then x else x.closeBatch else pure ()

theorem endBatch_moves (g : Nat) (t : Tx) :
    ∃ u, endBatch g (t.chip.group? g) t = .ok ((), u) ∧ t.movesGroup u g Group.endBatch := by
  unfold endBatch
  cases hg : t.chip.group? g with
  | none => exact ⟨t, rfl, rfl, rfl, by simp [hg], id⟩
  | some x =>
    rw [whenSome_some]
    by_cases hl : x.live = 0
    · rw [if_pos hl]
      obtain ⟨hlog, hteams, hgroup, hnobody⟩ :=
        Tx.movesGroup_modGroup t g (f := fun x => if x.openSet.isEmpty then x else x.closeBatch) fun y _ => by
          dsimp only [Group.staysAwake]
          split <;> exact ⟨rfl, id⟩
      refine ⟨_, rfl, hlog, hteams, hgroup.trans ?_, hnobody⟩
      rw [hg, Option.map_some, Option.map_some, Group.endBatch, if_pos hl]
    · rw [if_neg hl]
      exact ⟨t, rfl, rfl, rfl, by rw [hg, Option.map_some, Group.endBatch, if_neg hl], id⟩

/-- What EXIT does with its path, which stands as `x` once its lanes have left. -/
def refillPath (g p now : Nat) (x : Path) : Act Unit :=
  match x.refill now with
  | some y => modPath g p fun _ => y
  | none => freePath g p

theorem refillPath_moves {t : Tx} {g p : Nat} {x : Path} (now : Nat) (hx : t.chip.path? g p = some x) :
    ∃ u, refillPath g p now x t = .ok ((), u) ∧ t.movesGroup u g (Group.refilled p (x.refill now)) := by
  unfold refillPath
  cases hr : x.refill now with
  | none => exact freePath_moves hx hr
  | some y =>
    refine ⟨_, rfl, Tx.movesGroup_modGroup t g fun z hz => Group.staysAwake_refilled (q := some y) ?_ hr⟩
    simpa [Chip.path?, hz] using hx

/-- What an EXIT at normal level makes of its group. -/
def Here.exitGroup (h : Here) (f : GuardF) (now : Nat) (x : Group) : Group :=
  (((x.leave h.p (h.lanes f.g)).refilled h.p ((h.exited f now).refill now)).endBatch)

theorem exit_runs (hm : s.mayExit h f) : ∃ u, exec (.exit f) s = .next (s.commit u) ∧
    { s.tx with chip := s.chip.retire h 8 f.stall.toNat s.clk }.movesGroup u h.g (h.exitGroup f s.clk) := by
  obtain ⟨hn, hi, hl, hlev⟩ := hm
  obtain ⟨hg, hpath, -⟩ := State.acts_eq hi.1
  generalize hc : s.chip.retire h 8 f.stall.toNat s.clk = c
  have hcg : c.group? h.g = some (h.groupPast 8 f.stall.toNat s.clk) := hc ▸ Chip.retire_group hg _ _ _
  have hleave : ((c.modGroup h.g fun x => { x with live := x.live &&& ~~~h.lanes f.g }).modPath h.g h.p fun x =>
      { x with mask := x.mask &&& ~~~h.lanes f.g }) = c.modGroup h.g (Group.leave h.p (h.lanes f.g)) := by
    rw [Chip.modPath_eq, Chip.modGroup_modGroup]
    rfl
  have m1 := Tx.movesGroup_modGroup { s.tx with chip := c } h.g (f := Group.leave h.p (h.lanes f.g)) fun x _ =>
    Group.staysAwake_mmod (x := { x with live := x.live &&& ~~~h.lanes f.g }) fun _ _ hy => hy
  have hx : (c.modGroup h.g (Group.leave h.p (h.lanes f.g))).path? h.g h.p = some (h.exited f s.clk) := by
    simp [Chip.path?, hcg, Group.leave, Here.groupPast, hpath]
    rfl
  obtain ⟨t2, e2, m2⟩ := refillPath_moves (t := { s.tx with chip := c.modGroup h.g (Group.leave h.p (h.lanes f.g)) }) s.clk hx
  obtain ⟨t3, e3, m3⟩ := endBatch_moves h.g t2
  obtain ⟨t4, e4, m4⟩ := noteParked_moves h.tid h.g t3
  have m := Tx.movesGroup_trans (Tx.movesGroup_trans (Tx.movesGroup_trans m1 m2) m3) m4
  refine ⟨t4, ?_, m⟩
  have hwait : t4.chip.parkedSides = [] := m.nobody (hc ▸ Chip.retire_nobody hn h 8 f.stall.toNat s.clk)
  refine (show exec (.exit f) s = runZha 8 (issue 8 f.stall.toNat { Uses.none with ps := guardPs f.g } _) s from rfl).trans
    (runZha_next ((issue_next hi _ _ _).trans ?_))
  simp only [onceIf, hl, if_false, hlev, ne_eq, not_true_eq_false, hc]
  refine (bind_next (clock_run _)).trans <| (bind_next (modGroup_run _ _ _)).trans <| (bind_next (modPath_run _ _ _ _)).trans ?_
  rw [show ({ s.tx with chip := c } : Tx).chip = c from rfl, hleave]
  refine (bind_next (getChip_run _)).trans ?_
  rw [show ({ s.tx with chip := c.modGroup h.g (Group.leave h.p (h.lanes f.g)) } : Tx).chip = _ from rfl, hx, whenSome_some]
  exact (bind_next e2).trans <| (bind_next (getChip_run _)).trans <| (bind_next e3).trans <| (bind_next e4).trans (settle_none hwait)

theorem Group.refilled_path {x : Group} {p : Nat} (hp : (mget? x.paths p).isSome) (q : Option Path) :
    mget? (x.refilled p q).paths p = q := by
  obtain ⟨y, hy⟩ := Option.isSome_iff_exists.mp hp
  cases q <;> simp [Group.refilled, hy]

/-- What an EXIT at normal level leaves of its path and group. -/
theorem exit_leaves (hm : s.mayExit h f) : ∃ t, exec (.exit f) s = .next t ∧ t.mem = s.mem ∧ s.sameRegs t h.g ∧ s.retired t h 0 ∧
    (t.chip.group? h.g).map Group.live = some (h.grp.live &&& ~~~h.lanes f.g) ∧
    t.chip.path? h.g h.p = (h.exited f s.clk).refill s.clk := by
  obtain ⟨u, hx, hlog, hteams, hgroup, -⟩ := exit_runs hm
  obtain ⟨hg, hpath, -⟩ := State.acts_eq hm.issues.1
  have hE : u.chip.group? h.g = some (h.exitGroup f s.clk (h.groupPast 8 f.stall.toNat s.clk)) := by
    rw [hgroup]
    exact congrArg (Option.map _) (Chip.retire_group hg 8 f.stall.toNat s.clk)
  obtain ⟨hv, hs, hp, hlive, hpaths, -⟩ := Group.endBatch_keeps
    (((h.groupPast 8 f.stall.toNat s.clk).leave h.p (h.lanes f.g)).refilled h.p ((h.exited f s.clk).refill s.clk))
  refine ⟨_, hx, ?_, State.sameRegs_of_group hg hE ⟨hv, hs, hp⟩, State.retired_of_teams hteams, ?_, ?_⟩
  · rw [State.commit_mem, hlog]
    rfl
  · rw [State.commit_chip, hE]
    exact congrArg some hlive
  · rw [State.commit_chip, Chip.path?, hE]
    exact (congrArg (mget? · h.p) hpaths).trans (Group.refilled_path (by simp [Group.leave, Here.groupPast, hpath]) _)

end

/-! ## TRET (R258 to R260) -/

theorem Chip.retire_groupOps (c : Chip) (h : Here) (len stall now g : Nat) :
    (c.retire h len stall now).groupOps g = c.groupOps g := by
  simp [Chip.groupOps, Chip.retire_memq, Chip.retire_agent]

theorem Chip.retire_framePa (c : Chip) (h : Here) (len stall now : Nat) : (c.retire h len stall now).framePa h = c.framePa h := by
  simp [Chip.framePa, Chip.frameOff, Chip.ctx, Chip.part, Chip.retire, Chip.modPath, Chip.modTeam]

/-- Reads of homes past an instruction, where nothing stands between them and their bytes. -/
theorem homeNat_retired {s : State} (hr : s.plainReads) (h : Here) (len stall pa n : Nat) :
    homeNat pa n { s.tx with chip := s.chip.retire h len stall s.clk } =
      .ok (Memory.nat s.mem pa n, { s.tx with chip := s.chip.retire h len stall s.clk }) := by
  obtain ⟨hpart, -, hlink, -⟩ := hr
  refine homeNat_start ?_ ?_ pa n
  · simpa [Chip.retire, Chip.modPath, Chip.modTeam] using fun a b => hpart (a, b)
  · simpa [Chip.retire, Chip.modPath, Chip.modTeam] using hlink

section
variable {s : State} {h : Here} {f : GuardF} {fr : Frame}

/-- The target of a return: EMU.NEXT after ILLEGAL, else the frame's resume address. -/
def State.returnTo (s : State) (h : Here) (fr : Frame) : Addr :=
  if fr.cause.toNat % 256 = causeIllegal then h.grp.emu.next else BitVec.ofNat 64 (Memory.nat s.mem (s.chip.framePa h + 8) 8)

/-- A TRET that may issue from a handler whose frame holds nothing to issue again, with nothing of its group in the way. -/
structure State.mayReturn (s : State) (h : Here) (f : GuardF) (fr : Frame) : Prop where
  nobody : s.nobodyWaits
  issues : s.mayIssue h { Uses.none with ps := guardPs f.g }
  lanes : h.lanes f.g ≠ 0
  level : h.path.level ≠ .normal
  reads : s.plainReads
  side : h.path.hstack = []
  held : ∀ o ∈ s.chip.groupOps h.g, o.held = true
  frame : (if h.path.level = .supervisor then h.path.supFrame else h.path.userFrame) = some fr
  replays : fr.replays = []
  store : fr.heldStore = none
  target : (s.returnTo h fr).getLsbD 0 = false

/-- A path that has returned to `pc` from its handler. -/
def Path.returned (x : Path) (sup : Prop) [Decidable sup] (fr : Frame) (pc : Addr) : Path :=
  { x with
    level := if sup && fr.nested then .user else .normal
    mask := fr.mask, pc := pc
    hstack := if sup && fr.nested then x.ustack else []
    ustack := []
    supFrame := none
    userFrame := if sup then x.userFrame else none
    dbgHeld := false }

theorem Path.returned_awake {x : Path} (sup : Prop) [Decidable sup] (fr : Frame) (pc : Addr) (hx : x.awake) : (x.returned sup fr pc).awake := by
  obtain ⟨hw, hs⟩ := hx
  simp only [List.mem_append, or_imp, forall_and] at hs
  obtain ⟨⟨hstack, -⟩, hustack⟩ := hs
  refine ⟨hw, ?_⟩
  unfold Path.returned
  cases decide sup && fr.nested
  · simpa using hstack
  · simpa [or_imp, forall_and] using ⟨hstack, hustack⟩

/-- A group whose EMU block a return from ILLEGAL frees for its path (assumption 74). -/
def Group.freeEmu (illegal : Bool) (p : Nat) (x : Group) : Group :=
  if illegal then { x with emu := { x.emu with busy := if x.emu.busy = some p then none else x.emu.busy } } else x

theorem freeEmu_moves (t : Tx) (g p : Nat) (c : Prop) [Decidable c] :
    ∃ u, (if c then modGroup g fun x => { x with emu := { x.emu with busy := if x.emu.busy = some p then none else x.emu.busy } }
      else pure ()) t = .ok ((), u) ∧ t.movesGroup u g (Group.freeEmu (decide c) p) := by
  by_cases hc : c
  · rw [if_pos hc, decide_eq_true hc]
    exact ⟨_, rfl, Tx.movesGroup_modGroup t g fun x _ => ⟨rfl, id⟩⟩
  · rw [if_neg hc, decide_eq_false hc]
    exact ⟨t, rfl, rfl, rfl, by cases t.chip.group? g <;> rfl, id⟩

/-- The group with its acting path back at `pc`. -/
def Here.returnPath (h : Here) (fr : Frame) (pc : Addr) (x : Group) : Group :=
  { x with paths := mmod x.paths h.p fun z => z.returned (h.path.level = Level.supervisor) fr pc }

/-- The group once its acting path has returned to `pc`. -/
def Here.returnGroup (h : Here) (fr : Frame) (pc : Addr) (x : Group) : Group :=
  (h.returnPath fr pc (x.freeEmu (decide (fr.cause.toNat % 256 = causeIllegal)) h.p)).settleHazards (h.path.mask ||| fr.mask)

/-- The end of a return to `pc`: the path at its place again, and whatever its frame held goes on. -/
def returnPart (h : Here) (fr : Frame) (pc : Addr) (discard : Bool) : Act Unit := do
  modGroup h.g (h.returnPath fr pc)
  modGroup h.g fun x => x.settleHazards (h.path.mask ||| fr.mask)
  if fr.cause.toNat % 256 = causeStoreLate then releaseHeld h.g h.p fr discard else pure ()
  reissueAll h.g h.p pc fr.replays
  settle

theorem Here.staysAwake_returnPath (h : Here) (fr : Frame) (pc : Addr) (x : Group) : Group.staysAwake (h.returnPath fr pc) x :=
  Group.staysAwake_mmod fun _ _ hy => Path.returned_awake _ _ _ hy

/-- Where the frame holds nothing, a return is the change of its group. -/
theorem returnPart_moves (hreplays : fr.replays = []) (hstore : fr.heldStore = none) (pc : Addr) (discard : Bool) {t : Tx}
    (ht : t.chip.parkedSides = []) : ∃ u, returnPart h fr pc discard t = .ok ((), u) ∧
      t.movesGroup u h.g fun x => (h.returnPath fr pc x).settleHazards (h.path.mask ||| fr.mask) := by
  have m := Tx.movesGroup_trans (Tx.movesGroup_modGroup t h.g fun x _ => h.staysAwake_returnPath fr pc x)
    (Tx.movesGroup_modGroup { t with chip := t.chip.modGroup h.g (h.returnPath fr pc) } h.g
      (f := fun x => x.settleHazards (h.path.mask ||| fr.mask)) fun x _ => ⟨rfl, id⟩)
  refine ⟨_, ?_, m⟩
  have hwait := m.nobody ht
  have hrel : releaseHeld h.g h.p fr discard = pure () := by simp [releaseHeld, hstore]
  unfold returnPart
  refine (bind_next (modGroup_run _ _ _)).trans <| (bind_next (modGroup_run _ _ _)).trans ?_
  rw [hrel, hreplays]
  split <;> exact settle_none hwait

theorem tret_runs (hm : s.mayReturn h f fr) : ∃ u, exec (.tret f) s = .next (s.commit u) ∧
    { s.tx with chip := s.chip.retire h 8 f.stall.toNat s.clk }.movesGroup u h.g (h.returnGroup fr (s.returnTo h fr)) := by
  obtain ⟨hn, hi, hl, hlev, hr, hside, hheld, hframe, hreplays, hstore, htarget⟩ := hm
  have hread (pa n : Nat) := homeNat_retired hr h 8 f.stall.toNat pa n
  have hops : ((s.chip.retire h 8 f.stall.toNat s.clk).groupOps h.g).all (fun e => e.held) = true := by
    rw [Chip.retire_groupOps]
    exact List.all_eq_true.mpr hheld
  have hpa := Chip.retire_framePa s.chip h 8 f.stall.toNat s.clk
  have hnobody := Chip.retire_nobody hn h 8 f.stall.toNat s.clk
  generalize hc : s.chip.retire h 8 f.stall.toNat s.clk = c at *
  obtain ⟨t1, e1, m1⟩ := freeEmu_moves { s.tx with chip := c } h.g h.p (fr.cause.toNat % 256 = causeIllegal)
  obtain ⟨t2, e2, m2⟩ := returnPart_moves (h := h) hreplays hstore (s.returnTo h fr)
    (decide (bits (Memory.nat s.mem (s.chip.framePa h + 32) 4) 11 1 = 1)) (m1.nobody hnobody)
  have m := Tx.movesGroup_trans m1 m2
  refine ⟨t2, ?_, m⟩
  refine (show exec (.tret f) s = runZha 8 (issue 8 f.stall.toNat { Uses.none with ps := guardPs f.g } _) s from rfl).trans
    (runZha_next ((issue_next hi _ _ _).trans ?_))
  simp only [onceIf, hl, if_false, hlev, hside, List.isEmpty_nil, Bool.not_true, Bool.false_eq_true, hc]
  unfold handlerReturn
  refine (bind_next (getChip_run _)).trans ?_
  simp only [hops, if_true, hframe]
  refine (bind_next (hread _ _)).trans <| (bind_next (hread _ _)).trans ?_
  have hto : s.returnTo h fr = if fr.cause.toNat % 256 = causeIllegal then h.grp.emu.next else
    BitVec.ofNat 64 (Memory.nat s.mem (s.chip.framePa h + 8) 8) := rfl
  simp only [hpa, ← hto, htarget, Bool.false_eq_true, if_false]
  by_cases hill : fr.cause.toNat % 256 = causeIllegal
  · rw [if_pos hill] at e1 ⊢
    exact (bind_next e1).trans e2
  · rw [if_neg hill] at e1 ⊢
    rw [pure_run, Except.ok.injEq, Prod.mk.injEq] at e1
    exact e1.2 ▸ e2

theorem Group.freeEmu_keeps (x : Group) (b : Bool) (p : Nat) : (x.freeEmu b p).v = x.v ∧ (x.freeEmu b p).s = x.s ∧
    (x.freeEmu b p).p = x.p ∧ (x.freeEmu b p).paths = x.paths := by
  cases b <;> exact ⟨rfl, rfl, rfl, rfl⟩

/-- What a TRET leaves of its path and group. -/
theorem tret_leaves (hm : s.mayReturn h f fr) : ∃ t, exec (.tret f) s = .next t ∧ t.mem = s.mem ∧ s.sameRegs t h.g ∧ s.retired t h 0 ∧
    t.chip.path? h.g h.p =
      some ((h.past 8 f.stall.toNat s.clk).returned (h.path.level = Level.supervisor) fr (s.returnTo h fr)) := by
  obtain ⟨u, hx, hlog, hteams, hgroup, -⟩ := tret_runs hm
  obtain ⟨hg, hpath, -⟩ := State.acts_eq hm.issues.1
  have hE : u.chip.group? h.g = some (h.returnGroup fr (s.returnTo h fr) (h.groupPast 8 f.stall.toNat s.clk)) := by
    rw [hgroup]
    exact congrArg (Option.map _) (Chip.retire_group hg 8 f.stall.toNat s.clk)
  obtain ⟨hv, hs, hp, hpaths⟩ := Group.freeEmu_keeps (h.groupPast 8 f.stall.toNat s.clk)
    (decide (fr.cause.toNat % 256 = causeIllegal)) h.p
  refine ⟨_, hx, ?_, State.sameRegs_of_group hg hE ⟨hv, hs, hp⟩, State.retired_of_teams hteams, ?_⟩
  · rw [State.commit_mem, hlog]
    rfl
  · rw [State.commit_chip, Chip.path?, hE, Option.bind_some]
    simp only [Here.returnGroup, Group.settleHazards, Here.returnPath, mget_mmod_same, hpaths]
    simp [Here.groupPast, hpath, Here.past]

end

/-- With lanes left, a path goes on. -/
theorem Here.exited_goes {h : Here} {f : GuardF} (now : Nat) (hm : h.mask &&& ~~~h.lanes f.g ≠ 0) :
    (h.exited f now).refill now = some (h.exited f now) := if_pos hm

/-- Without lanes, a path takes its lowest stacked side. -/
theorem Here.exited_pops {h : Here} {f : GuardF} (now : Nat) (hm : h.lanes f.g = h.mask) :
    (h.exited f now).refill now = (takeLow h.path.sides).map fun e =>
      let y := { (h.exited f now).setSides e.2 with pc := e.1.pc, mask := e.1.mask, wait := e.1.wait, shielded := false, runSince := now }
      if y.wait.isSome then y.releaseSwap now else y := by
  refine if_neg (not_not.mpr ?_)
  show h.mask &&& ~~~h.lanes f.g = 0
  rw [hm]
  simp

/-- Settles O39: EXIT by what its path refills with, TRET by its frame. -/
theorem exitAndReturn : Obligations.ExitAndReturn := by
  intro s h f hn hi hl F past leaves path
  have hexit (hlev : h.path.level = .normal) := exit_leaves ⟨hn, hi, hl, hlev⟩
  have hpath {q : Option Path} (hlev : h.path.level = .normal) (hq : (h.exited f s.clk).refill s.clk = q) : path q := by
    obtain ⟨t, hx, -, -, -, -, hp⟩ := hexit hlev
    exact ⟨t, hx, hp.trans hq⟩
  refine ⟨?_, ?_, ?_, ?_, ?_⟩
  · intro hlev
    obtain ⟨t, hx, hmem, hregs, hret, hlive, -⟩ := hexit hlev
    exact ⟨t, hx, hmem, hregs, hret, hlive⟩
  · exact fun hlev hm => hpath hlev (Here.exited_goes s.clk hm)
  · exact fun hlev hm hs => hpath hlev (by rw [Here.exited_pops s.clk hm, hs]; rfl)
  · intro x r hlev hm hx hw
    refine hpath hlev ?_
    rw [Here.exited_pops s.clk hm, hx, Option.map_some]
    simp only [hw, Option.isSome_none, Bool.false_eq_true, if_false]
    rw [Path.setSides_normal (x := h.exited f s.clk) hlev]
    rfl
  · intro fr hlev hr hside hheld sup illegal hframe hreplays hstore _ target htarget
    have hto : s.returnTo h fr = target := by simp [State.returnTo, target, illegal]
    have hsup : (if h.path.level = .supervisor then h.path.supFrame else h.path.userFrame) = some fr := by simpa [sup] using hframe
    obtain ⟨t, hx, hmem, hregs, hret, hp⟩ := tret_leaves
      ⟨hn, hi, hl, hlev, hr, hside, hheld, hsup, hreplays, hstore, hto ▸ htarget⟩
    refine ⟨t, hx, hmem, hregs, hret, hp.trans ?_⟩
    rw [hto]
    simp only [Path.returned, sup, decide_eq_true_eq]
    rfl

end Sys2Proof.Machine
end

section
/-! Groups, teams and launches complete (O41). -/

namespace Sys2Proof.Machine

/-! ## A completion object that lies over its own page-table entry (R111, R143, R235) -/

/-- Tables whose last entry, at 0x4008, maps virtual 0x200000 to physical 0 as a writable page of 2 MiB, accessed and dirty. -/
def overlaidTables : List (Nat × Nat) := [(0x1000, 0x2001), (0x2000, 0x3001), (0x3000, 0x4001), (0x4008, 0x623)]

/-- A run of 35 teams done, whose completion object holds the entry that maps it, and which publishes what a group knew. -/
def overlaidRun : Run := { placedRun with doneTeams := List.replicate 35 0, cobj := 0x204000, left := [(0, 0)] }

/-- A machine that holds this run and its tables alone. -/
def overlaid : State :=
  { State.reset with
    mem := Memory.writeAll [] (overlaidTables.flatMap fun t => (toLE 8 t.2).zipIdx.map fun b => (t.1 + b.2, b.1))
    chip := { Chip.reset with
      runs := [(1, overlaidRun)]
      ctxs := [(0, { Context.init with state := .active, root := some 0x1000 })] } }

theorem overlaid_plain : overlaid.plain := by
  unfold State.plain State.plainMemory Chip.plainMemory
  decide +kernel

theorem overlaid_wf : overlaid.Inv := by decide +kernel

/-- The leaf of the object's address before it is written. -/
def overlaidLeaf : Leaf := ⟨0x200000, 21, 0, 0x623, 0x4008⟩

theorem overlaid_walk : walk 0 ⟨false, true, false, false⟩ 0x204000 overlaid.tx = .ok (.ok overlaidLeaf, overlaid.tx) := by
  rfl

theorem overlaid_mapped : overlaid.mapped 0 true 0x204000 0x4000 :=
  ⟨overlaidLeaf, overlaid_walk, by decide, by decide⟩

/-- The byte of the next state's memory at an address, where there is a next state. -/
def byteAfter (a : Nat) : Host.Outcome State Fault Refusal → Option Byte
  | .next t => some (Memory.read t.mem a)
  | _ => none

/-- The walk for the release, after the object's write, sets the accessed and dirty bits of the entry within the object. -/
theorem overlaid_byteAfter : byteAfter 0x4009 (exec (.launchComplete 1) overlaid) = some 6 := by
  decide +kernel

/-- Refutes O41: LAUNCH_COMPLETE of `overlaid` writes the object over the entry that maps it, with 35 teams as an entry that is
neither accessed nor dirty, and the walk for the object's release then sets both bits in it. -/
theorem not_completion : ¬ Obligations.Completion := by
  intro hC
  obtain ⟨-, -, hrun⟩ := hC overlaid
  obtain ⟨-, hobj⟩ := hrun 1 overlaidRun overlaid_plain overlaid_wf (by rfl) (by rfl) (by decide +kernel) (by decide +kernel)
    (by decide +kernel) (by decide +kernel) (by decide +kernel)
  obtain ⟨t, ht, -, hbytes, -⟩ := hobj 0x4000 (by decide) (by decide) overlaid_mapped
  have h9 : Memory.read t.mem 0x4009 = 0 := hbytes 9 (by decide)
  have h6 := overlaid_byteAfter
  rw [ht, byteAfter, h9] at h6
  exact absurd h6 (by decide)

end Sys2Proof.Machine
end

section
/-! Words as fields (R48 to R59): each format's fields stand one behind another, so that reading a format back from its word gives
every field, and its operation codes name the instruction. -/

namespace Sys2Proof

/-! ## Words of fields -/

/-- A field of a word: its width and its bits. -/
abbrev Field := (n : Nat) × BitVec n

/-- The word of some fields, the lowest first. -/
def pack : List Field → Nat
  | [] => 0
  | ⟨n, x⟩ :: r => x.toNat + 2 ^ n * pack r

theorem fld_pack_here {n : Nat} (x : BitVec n) (r : List Field) : fld (pack (⟨n, x⟩ :: r)) 0 n = x := by
  apply BitVec.eq_of_toNat_eq
  simp [fld, pack, Nat.mod_eq_of_lt x.isLt]

theorem fld_pack_skip {n lo m : Nat} (x : BitVec n) (r : List Field) (hn : n ≤ lo) :
    fld (pack (⟨n, x⟩ :: r)) lo m = fld (pack r) (lo - n) m := by
  have hd : pack (⟨n, x⟩ :: r) / 2 ^ lo = pack r / 2 ^ (lo - n) := by
    rw [← Nat.add_sub_of_le hn, Nat.pow_add, ← Nat.div_div_eq_div_mul, pack, Nat.add_mul_div_left _ _ (Nat.two_pow_pos n),
      Nat.div_eq_of_lt x.isLt, Nat.zero_add, Nat.add_sub_cancel_left]
  simp only [fld, hd]

/-- A field that holds a number as its bits. -/
theorem fld_mod {w lo n v : Nat} (h : fld w lo n = .ofNat n v) (hv : v < 2 ^ n) : w / 2 ^ lo % 2 ^ n = v := by
  have := congrArg BitVec.toNat h
  simpa only [fld, BitVec.toNat_ofNat, Nat.mod_eq_of_lt hv] using this

/-- A compact word of an operation (R48). -/
def isCompact (w op : Nat) : Prop := fld w 0 1 = .ofNat 1 0 ∧ fld w 1 4 = .ofNat 4 op
/-- A base word, or an X form, of a major (R50). -/
def isBase (w major : Nat) : Prop := fld w 0 1 = .ofNat 1 1 ∧ fld w 1 6 = .ofNat 6 major
/-- A base word of a SALU minor (R54). -/
def isSalu (w minor : Nat) : Prop := isBase w 19 ∧ fld w 26 6 = .ofNat 6 minor
/-- An X form of a major and a minor (R55). -/
def isX (w major minor : Nat) : Prop := isBase w major ∧ fld w 32 8 = .ofNat 8 minor

/-! ## Each format read back from its word -/

theorem Enc.compact_reads {op : Nat} (hop : op < 16) (f : CompactF) :
    isCompact (Enc.compact op f) op ∧ Dec.compact (Enc.compact op f) = f := by
  have h : Enc.compact op f = pack
      [⟨1, .ofNat 1 0⟩, ⟨4, .ofNat 4 op⟩, ⟨5, f.vd⟩, ⟨5, f.vs⟩, ⟨1, f.y⟩] := by
    simp only [Enc.compact, pack, BitVec.toNat_ofNat]
    omega
  simp only [h, isCompact, Dec.compact, fld_pack_skip, fld_pack_here, Nat.reduceLeDiff, Nat.reduceSub, and_self]

theorem Enc.trio_reads {major : Nat} (hmajor : major < 64) (f : TrioF) :
    isBase (Enc.trio major f) major ∧ Dec.trio (Enc.trio major f) = f := by
  have h : Enc.trio major f = pack
      [⟨1, .ofNat 1 1⟩, ⟨6, .ofNat 6 major⟩, ⟨3, f.stall⟩, ⟨7, f.vd⟩, ⟨7, f.va⟩, ⟨7, f.vb⟩, ⟨1, f.bs⟩] := by
    simp only [Enc.trio, Enc.base, pack, BitVec.toNat_ofNat]
    omega
  simp only [h, isBase, Dec.trio, fld_pack_skip, fld_pack_here, Nat.reduceLeDiff, Nat.reduceSub, and_self]

theorem Enc.duoi_reads {major : Nat} (hmajor : major < 64) (f : DuoiF) :
    isBase (Enc.duoi major f) major ∧ Dec.duoi (Enc.duoi major f) = f := by
  have h : Enc.duoi major f = pack
      [⟨1, .ofNat 1 1⟩, ⟨6, .ofNat 6 major⟩, ⟨3, f.stall⟩, ⟨7, f.vd⟩, ⟨7, f.va⟩, ⟨8, f.imm⟩] := by
    simp only [Enc.duoi, Enc.base, pack, BitVec.toNat_ofNat]
    omega
  simp only [h, isBase, Dec.duoi, fld_pack_skip, fld_pack_here, Nat.reduceLeDiff, Nat.reduceSub, and_self]

theorem Enc.movi_reads (f : MoviF) :
    isBase (Enc.movi f) 18 ∧ Dec.movi (Enc.movi f) = f := by
  have h : Enc.movi f = pack
      [⟨1, .ofNat 1 1⟩, ⟨6, .ofNat 6 18⟩, ⟨3, f.stall⟩, ⟨7, f.vd⟩, ⟨15, f.imm⟩] := by
    simp only [Enc.movi, Enc.base, pack, BitVec.toNat_ofNat]
    omega
  simp only [h, isBase, Dec.movi, fld_pack_skip, fld_pack_here, Nat.reduceLeDiff, Nat.reduceSub, and_self]

theorem Enc.ss_reads {minor : Nat} (hminor : minor < 64) (f : SsF) :
    isSalu (Enc.ss minor f) minor ∧ Dec.ss (Enc.ss minor f) = f := by
  have h : Enc.ss minor f = pack
      [⟨1, .ofNat 1 1⟩, ⟨6, .ofNat 6 19⟩, ⟨3, f.stall⟩, ⟨8, f.sd⟩, ⟨8, f.sa⟩, ⟨6, .ofNat 6 minor⟩] := by
    simp only [Enc.ss, Enc.base, pack, BitVec.toNat_ofNat]
    omega
  simp only [h, isSalu, isBase, Dec.ss, fld_pack_skip, fld_pack_here, Nat.reduceLeDiff, Nat.reduceSub, and_self]

theorem Enc.si_reads (f : SiF) :
    isBase (Enc.si f) 20 ∧ Dec.si (Enc.si f) = f := by
  have h : Enc.si f = pack
      [⟨1, .ofNat 1 1⟩, ⟨6, .ofNat 6 20⟩, ⟨3, f.stall⟩, ⟨8, f.sd⟩, ⟨14, f.imm⟩] := by
    simp only [Enc.si, Enc.base, pack, BitVec.toNat_ofNat]
    omega
  simp only [h, isBase, Dec.si, fld_pack_skip, fld_pack_here, Nat.reduceLeDiff, Nat.reduceSub, and_self]

theorem Enc.br_reads {major : Nat} (hmajor : major < 64) (f : BrF) :
    isBase (Enc.br major f) major ∧ Dec.br (Enc.br major f) = f := by
  have h : Enc.br major f = pack
      [⟨1, .ofNat 1 1⟩, ⟨6, .ofNat 6 major⟩, ⟨3, f.stall⟩, ⟨22, f.off⟩] := by
    simp only [Enc.br, Enc.base, pack, BitVec.toNat_ofNat]
    omega
  simp only [h, isBase, Dec.br, fld_pack_skip, fld_pack_here, Nat.reduceLeDiff, Nat.reduceSub, and_self]

theorem Enc.bp_reads (f : BpF) :
    isBase (Enc.bp f) 23 ∧ Dec.bp (Enc.bp f) = f := by
  have h : Enc.bp f = pack
      [⟨1, .ofNat 1 1⟩, ⟨6, .ofNat 6 23⟩, ⟨3, f.stall⟩, ⟨3, f.p⟩, ⟨2, f.mode⟩, ⟨17, f.off⟩] := by
    simp only [Enc.bp, Enc.base, pack, BitVec.toNat_ofNat]
    omega
  simp only [h, isBase, Dec.bp, fld_pack_skip, fld_pack_here, Nat.reduceLeDiff, Nat.reduceSub, and_self]

theorem Enc.mem_reads {major : Nat} (hmajor : major < 64) (f : MemF) :
    isBase (Enc.mem major f) major ∧ Dec.mem (Enc.mem major f) = f := by
  have h : Enc.mem major f = pack
      [⟨1, .ofNat 1 1⟩, ⟨6, .ofNat 6 major⟩, ⟨3, f.stall⟩, ⟨7, f.vt⟩, ⟨8, f.sbase⟩, ⟨7, f.imm⟩] := by
    simp only [Enc.mem, Enc.base, pack, BitVec.toNat_ofNat]
    omega
  simp only [h, isBase, Dec.mem, fld_pack_skip, fld_pack_here, Nat.reduceLeDiff, Nat.reduceSub, and_self]

theorem Enc.gmov_reads (f : GmovF) :
    isBase (Enc.gmov f) 30 ∧ Dec.gmov (Enc.gmov f) = f := by
  have h : Enc.gmov f = pack
      [⟨1, .ofNat 1 1⟩, ⟨6, .ofNat 6 30⟩, ⟨3, f.stall⟩, ⟨8, f.d⟩, ⟨8, f.a⟩, ⟨1, f.dIsS⟩, ⟨1, f.aIsS⟩] := by
    simp only [Enc.gmov, Enc.base, pack, BitVec.toNat_ofNat]
    omega
  simp only [h, isBase, Dec.gmov, fld_pack_skip, fld_pack_here, Nat.reduceLeDiff, Nat.reduceSub, and_self]

theorem Enc.stallF_reads (f : StallF) :
    isBase (Enc.stallF f) 0 ∧ Dec.stallF (Enc.stallF f) = f := by
  have h : Enc.stallF f = pack
      [⟨1, .ofNat 1 1⟩, ⟨6, .ofNat 6 0⟩, ⟨3, f.stall⟩, ⟨8, f.n⟩] := by
    simp only [Enc.stallF, Enc.base, pack, BitVec.toNat_ofNat]
    omega
  simp only [h, isBase, Dec.stallF, fld_pack_skip, fld_pack_here, Nat.reduceLeDiff, Nat.reduceSub, and_self]

theorem Enc.x_reads {major : Nat} (hmajor : major < 64) {minor : Nat} (hminor : minor < 256) (f : XF) :
    isX (Enc.x major minor f) major minor ∧ Dec.x (Enc.x major minor f) = f := by
  have h : Enc.x major minor f = pack
      [⟨1, .ofNat 1 1⟩, ⟨6, .ofNat 6 major⟩, ⟨3, f.stall⟩, ⟨8, f.d⟩, ⟨8, f.a⟩, ⟨4, f.cl⟩, ⟨1, f.imm⟩, ⟨1, .ofNat 1 0⟩,
        ⟨8, .ofNat 8 minor⟩, ⟨1, f.g.ge⟩, ⟨3, f.g.gp⟩, ⟨1, f.g.gn⟩, ⟨8, f.b⟩, ⟨8, f.c⟩, ⟨2, f.rm⟩, ⟨1, f.sat⟩] := by
    simp only [Enc.x, Enc.xb, Enc.base, pack, BitVec.toNat_ofNat]
    omega
  simp only [h, isX, isBase, Dec.x, Dec.guard, fld_pack_skip, fld_pack_here, Nat.reduceLeDiff, Nat.reduceSub, and_self]

theorem Enc.scalar_reads {minor : Nat} (hminor : minor < 256) (f : ScalarF) :
    isX (Enc.scalar minor f) 51 minor ∧ Dec.scalar (Enc.scalar minor f) = f := by
  have h : Enc.scalar minor f = pack
      [⟨1, .ofNat 1 1⟩, ⟨6, .ofNat 6 51⟩, ⟨3, f.stall⟩, ⟨8, f.sd⟩, ⟨8, f.sa⟩, ⟨4, .ofNat 4 0⟩, ⟨1, f.imm⟩, ⟨1, .ofNat 1 0⟩,
        ⟨8, .ofNat 8 minor⟩, ⟨1, f.g.ge⟩, ⟨3, f.g.gp⟩, ⟨1, f.g.gn⟩, ⟨8, f.b⟩, ⟨8, f.c⟩] := by
    simp only [Enc.scalar, Enc.xb, Enc.base, pack, BitVec.toNat_ofNat]
    omega
  simp only [h, isX, isBase, Dec.scalar, Dec.guard, fld_pack_skip, fld_pack_here, Nat.reduceLeDiff, Nat.reduceSub, and_self]

theorem Enc.brX_reads (f : BrXF) :
    isX (Enc.brX f) 51 17 ∧ Dec.brX (Enc.brX f) = f := by
  have h : Enc.brX f = pack
      [⟨1, .ofNat 1 1⟩, ⟨6, .ofNat 6 51⟩, ⟨3, f.stall⟩, ⟨8, f.sb⟩, ⟨8, f.sa⟩, ⟨1, .ofNat 1 0⟩, ⟨1, f.imm⟩, ⟨4, f.cond⟩,
        ⟨8, .ofNat 8 17⟩, ⟨1, f.g.ge⟩, ⟨3, f.g.gp⟩, ⟨1, f.g.gn⟩, ⟨19, f.off⟩] := by
    simp only [Enc.brX, Enc.xb, Enc.base, pack, BitVec.toNat_ofNat]
    omega
  simp only [h, isX, isBase, Dec.brX, Dec.guard, fld_pack_skip, fld_pack_here, Nat.reduceLeDiff, Nat.reduceSub, and_self]

theorem Enc.jmp_reads {minor : Nat} (hminor : minor < 256) (f : JmpF) :
    isX (Enc.jmp minor f) 51 minor ∧ Dec.jmp (Enc.jmp minor f) = f := by
  have h : Enc.jmp minor f = pack
      [⟨1, .ofNat 1 1⟩, ⟨6, .ofNat 6 51⟩, ⟨3, f.stall⟩, ⟨8, .ofNat 8 0⟩, ⟨8, f.sa⟩, ⟨1, f.l⟩, ⟨5, .ofNat 5 0⟩,
        ⟨8, .ofNat 8 minor⟩, ⟨1, f.g.ge⟩, ⟨3, f.g.gp⟩, ⟨1, f.g.gn⟩] := by
    simp only [Enc.jmp, Enc.xb, Enc.base, pack, BitVec.toNat_ofNat]
    omega
  simp only [h, isX, isBase, Dec.jmp, Dec.guard, fld_pack_skip, fld_pack_here, Nat.reduceLeDiff, Nat.reduceSub, and_self]

theorem Enc.srd_reads (f : SrdF) :
    isX (Enc.srd f) 51 20 ∧ Dec.srd (Enc.srd f) = f := by
  have h : Enc.srd f = pack
      [⟨1, .ofNat 1 1⟩, ⟨6, .ofNat 6 51⟩, ⟨3, f.stall⟩, ⟨8, f.d⟩, ⟨9, .ofNat 9 0⟩, ⟨1, f.vd⟩, ⟨4, .ofNat 4 0⟩,
        ⟨8, .ofNat 8 20⟩, ⟨1, f.g.ge⟩, ⟨3, f.g.gp⟩, ⟨1, f.g.gn⟩, ⟨10, f.num⟩] := by
    simp only [Enc.srd, Enc.xb, Enc.base, pack, BitVec.toNat_ofNat]
    omega
  simp only [h, isX, isBase, Dec.srd, Dec.guard, fld_pack_skip, fld_pack_here, Nat.reduceLeDiff, Nat.reduceSub, and_self]

theorem Enc.swr_reads (f : SwrF) :
    isX (Enc.swr f) 51 21 ∧ Dec.swr (Enc.swr f) = f := by
  have h : Enc.swr f = pack
      [⟨1, .ofNat 1 1⟩, ⟨6, .ofNat 6 51⟩, ⟨3, f.stall⟩, ⟨8, .ofNat 8 0⟩, ⟨8, f.sa⟩, ⟨6, .ofNat 6 0⟩, ⟨8, .ofNat 8 21⟩,
        ⟨1, f.g.ge⟩, ⟨3, f.g.gp⟩, ⟨1, f.g.gn⟩, ⟨10, f.num⟩] := by
    simp only [Enc.swr, Enc.xb, Enc.base, pack, BitVec.toNat_ofNat]
    omega
  simp only [h, isX, isBase, Dec.swr, Dec.guard, fld_pack_skip, fld_pack_here, Nat.reduceLeDiff, Nat.reduceSub, and_self]

theorem Enc.memX_reads {minor : Nat} (hminor : minor < 256) (f : MemXF) :
    isX (Enc.memX minor f) 52 minor ∧ Dec.memX (Enc.memX minor f) = f := by
  have h : Enc.memX minor f = pack
      [⟨1, .ofNat 1 1⟩, ⟨6, .ofNat 6 52⟩, ⟨3, f.stall⟩, ⟨8, f.vt⟩, ⟨8, f.sa⟩, ⟨1, f.vi⟩, ⟨1, f.ord⟩, ⟨4, f.ty⟩,
        ⟨8, .ofNat 8 minor⟩, ⟨1, f.g.ge⟩, ⟨3, f.g.gp⟩, ⟨1, f.g.gn⟩, ⟨13, f.off⟩, ⟨1, f.few⟩, ⟨1, f.fec⟩, ⟨1, f.fes⟩,
        ⟨3, f.scope⟩] := by
    simp only [Enc.memX, Enc.xb, Enc.base, pack, BitVec.toNat_ofNat]
    omega
  simp only [h, isX, isBase, Dec.memX, Dec.guard, fld_pack_skip, fld_pack_here, Nat.reduceLeDiff, Nat.reduceSub, and_self]

theorem Enc.atom_reads (f : AtomF) :
    isX (Enc.atom f) 52 5 ∧ Dec.atom (Enc.atom f) = f := by
  have h : Enc.atom f = pack
      [⟨1, .ofNat 1 1⟩, ⟨6, .ofNat 6 52⟩, ⟨3, f.stall⟩, ⟨8, f.vd⟩, ⟨8, f.sa⟩, ⟨3, f.scope⟩, ⟨3, f.op⟩, ⟨8, .ofNat 8 5⟩,
        ⟨1, f.g.ge⟩, ⟨3, f.g.gp⟩, ⟨1, f.g.gn⟩, ⟨8, f.vb⟩, ⟨7, f.vi⟩, ⟨1, .ofNat 1 0⟩, ⟨1, f.w⟩, ⟨2, f.order⟩] := by
    simp only [Enc.atom, Enc.xb, Enc.base, pack, BitVec.toNat_ofNat]
    omega
  simp only [h, isX, isBase, Dec.atom, Dec.guard, fld_pack_skip, fld_pack_here, Nat.reduceLeDiff, Nat.reduceSub, and_self]

theorem Enc.mred_reads (f : MredF) :
    isX (Enc.mred f) 52 6 ∧ Dec.mred (Enc.mred f) = f := by
  have h : Enc.mred f = pack
      [⟨1, .ofNat 1 1⟩, ⟨6, .ofNat 6 52⟩, ⟨3, f.stall⟩, ⟨8, .ofNat 8 0⟩, ⟨8, f.sa⟩, ⟨3, f.scope⟩, ⟨3, f.op⟩, ⟨8, .ofNat 8 6⟩,
        ⟨1, f.g.ge⟩, ⟨3, f.g.gp⟩, ⟨1, f.g.gn⟩, ⟨8, f.vb⟩, ⟨7, f.vi⟩, ⟨2, f.fmt⟩, ⟨2, f.order⟩] := by
    simp only [Enc.mred, Enc.xb, Enc.base, pack, BitVec.toNat_ofNat]
    omega
  simp only [h, isX, isBase, Dec.mred, Dec.guard, fld_pack_skip, fld_pack_here, Nat.reduceLeDiff, Nat.reduceSub, and_self]

theorem Enc.range_reads {minor : Nat} (hminor : minor < 256) (f : RangeF) :
    isX (Enc.range minor f) 52 minor ∧ Dec.range (Enc.range minor f) = f := by
  have h : Enc.range minor f = pack
      [⟨1, .ofNat 1 1⟩, ⟨6, .ofNat 6 52⟩, ⟨3, f.stall⟩, ⟨8, .ofNat 8 0⟩, ⟨8, f.sa⟩, ⟨2, f.op⟩, ⟨4, .ofNat 4 0⟩,
        ⟨8, .ofNat 8 minor⟩, ⟨1, f.g.ge⟩, ⟨3, f.g.gp⟩, ⟨1, f.g.gn⟩, ⟨8, f.sb⟩] := by
    simp only [Enc.range, Enc.xb, Enc.base, pack, BitVec.toNat_ofNat]
    omega
  simp only [h, isX, isBase, Dec.range, Dec.guard, fld_pack_skip, fld_pack_here, Nat.reduceLeDiff, Nat.reduceSub, and_self]

theorem Enc.fence_reads {minor : Nat} (hminor : minor < 256) (f : FenceF) :
    isX (Enc.fence minor f) 53 minor ∧ Dec.fence (Enc.fence minor f) = f := by
  have h : Enc.fence minor f = pack
      [⟨1, .ofNat 1 1⟩, ⟨6, .ofNat 6 53⟩, ⟨3, f.stall⟩, ⟨8, f.sd⟩, ⟨8, f.sa⟩, ⟨3, f.scope⟩, ⟨2, f.kind⟩, ⟨1, .ofNat 1 0⟩,
        ⟨8, .ofNat 8 minor⟩, ⟨1, f.g.ge⟩, ⟨3, f.g.gp⟩, ⟨1, f.g.gn⟩] := by
    simp only [Enc.fence, Enc.xb, Enc.base, pack, BitVec.toNat_ofNat]
    omega
  simp only [h, isX, isBase, Dec.fence, Dec.guard, fld_pack_skip, fld_pack_here, Nat.reduceLeDiff, Nat.reduceSub, and_self]

theorem Enc.bar_reads (f : BarF) :
    isX (Enc.bar f) 53 3 ∧ Dec.bar (Enc.bar f) = f := by
  have h : Enc.bar f = pack
      [⟨1, .ofNat 1 1⟩, ⟨6, .ofNat 6 53⟩, ⟨3, f.stall⟩, ⟨8, f.sd⟩, ⟨8, f.sa⟩, ⟨2, f.mode⟩, ⟨1, f.hs⟩, ⟨1, f.nd⟩,
        ⟨2, .ofNat 2 0⟩, ⟨8, .ofNat 8 3⟩, ⟨1, f.g.ge⟩, ⟨3, f.g.gp⟩, ⟨1, f.g.gn⟩, ⟨12, f.handle⟩] := by
    simp only [Enc.bar, Enc.xb, Enc.base, pack, BitVec.toNat_ofNat]
    omega
  simp only [h, isX, isBase, Dec.bar, Dec.guard, fld_pack_skip, fld_pack_here, Nat.reduceLeDiff, Nat.reduceSub, and_self]

theorem Enc.monw_reads (f : MonwF) :
    isX (Enc.monw f) 53 4 ∧ Dec.monw (Enc.monw f) = f := by
  have h : Enc.monw f = pack
      [⟨1, .ofNat 1 1⟩, ⟨6, .ofNat 6 53⟩, ⟨3, f.stall⟩, ⟨8, f.sd⟩, ⟨8, f.sa⟩, ⟨3, f.scope⟩, ⟨2, f.cmp⟩, ⟨1, f.w⟩,
        ⟨8, .ofNat 8 4⟩, ⟨1, f.g.ge⟩, ⟨3, f.g.gp⟩, ⟨1, f.g.gn⟩, ⟨8, f.sb⟩, ⟨8, f.sc⟩, ⟨1, f.sg⟩] := by
    simp only [Enc.monw, Enc.xb, Enc.base, pack, BitVec.toNat_ofNat]
    omega
  simp only [h, isX, isBase, Dec.monw, Dec.guard, fld_pack_skip, fld_pack_here, Nat.reduceLeDiff, Nat.reduceSub, and_self]

theorem Enc.yield_reads (f : YieldF) :
    isX (Enc.yield f) 53 5 ∧ Dec.yield (Enc.yield f) = f := by
  have h : Enc.yield f = pack
      [⟨1, .ofNat 1 1⟩, ⟨6, .ofNat 6 53⟩, ⟨3, f.stall⟩, ⟨8, f.n⟩, ⟨14, .ofNat 14 0⟩, ⟨8, .ofNat 8 5⟩, ⟨1, f.g.ge⟩,
        ⟨3, f.g.gp⟩, ⟨1, f.g.gn⟩] := by
    simp only [Enc.yield, Enc.xb, Enc.base, pack, BitVec.toNat_ofNat]
    omega
  simp only [h, isX, isBase, Dec.yield, Dec.guard, fld_pack_skip, fld_pack_here, Nat.reduceLeDiff, Nat.reduceSub, and_self]

theorem Enc.edge_reads {minor : Nat} (hminor : minor < 256) (f : EdgeF) :
    isX (Enc.edge minor f) 53 minor ∧ Dec.edge (Enc.edge minor f) = f := by
  have h : Enc.edge minor f = pack
      [⟨1, .ofNat 1 1⟩, ⟨6, .ofNat 6 53⟩, ⟨3, f.stall⟩, ⟨8, f.sd⟩, ⟨8, f.se⟩, ⟨1, f.nb⟩, ⟨5, .ofNat 5 0⟩, ⟨8, .ofNat 8 minor⟩,
        ⟨1, f.g.ge⟩, ⟨3, f.g.gp⟩, ⟨1, f.g.gn⟩, ⟨8, f.sb⟩] := by
    simp only [Enc.edge, Enc.xb, Enc.base, pack, BitVec.toNat_ofNat]
    omega
  simp only [h, isX, isBase, Dec.edge, Dec.guard, fld_pack_skip, fld_pack_here, Nat.reduceLeDiff, Nat.reduceSub, and_self]

theorem Enc.copy_reads (f : CopyF) :
    isX (Enc.copy f) 54 0 ∧ Dec.copy (Enc.copy f) = f := by
  have h : Enc.copy f = pack
      [⟨1, .ofNat 1 1⟩, ⟨6, .ofNat 6 54⟩, ⟨3, f.stall⟩, ⟨8, f.ss⟩, ⟨8, f.sa⟩, ⟨2, f.dir⟩, ⟨1, .ofNat 1 0⟩, ⟨1, f.dg⟩,
        ⟨2, .ofNat 2 0⟩, ⟨8, .ofNat 8 0⟩, ⟨1, f.g.ge⟩, ⟨3, f.g.gp⟩, ⟨1, f.g.gn⟩, ⟨8, f.sr⟩, ⟨8, f.sh⟩] := by
    simp only [Enc.copy, Enc.xb, Enc.base, pack, BitVec.toNat_ofNat]
    omega
  simp only [h, isX, isBase, Dec.copy, Dec.guard, fld_pack_skip, fld_pack_here, Nat.reduceLeDiff, Nat.reduceSub, and_self]

theorem Enc.obj_reads {minor : Nat} (hminor : minor < 256) (f : ObjF) :
    isX (Enc.obj minor f) 54 minor ∧ Dec.obj (Enc.obj minor f) = f := by
  have h : Enc.obj minor f = pack
      [⟨1, .ofNat 1 1⟩, ⟨6, .ofNat 6 54⟩, ⟨3, f.stall⟩, ⟨8, f.sd⟩, ⟨8, f.sa⟩, ⟨6, .ofNat 6 0⟩, ⟨8, .ofNat 8 minor⟩,
        ⟨1, f.g.ge⟩, ⟨3, f.g.gp⟩, ⟨1, f.g.gn⟩] := by
    simp only [Enc.obj, Enc.xb, Enc.base, pack, BitVec.toNat_ofNat]
    omega
  simp only [h, isX, isBase, Dec.obj, Dec.guard, fld_pack_skip, fld_pack_here, Nat.reduceLeDiff, Nat.reduceSub, and_self]

theorem Enc.lease_reads (f : LeaseF) :
    isX (Enc.lease f) 54 3 ∧ Dec.lease (Enc.lease f) = f := by
  have h : Enc.lease f = pack
      [⟨1, .ofNat 1 1⟩, ⟨6, .ofNat 6 54⟩, ⟨3, f.stall⟩, ⟨8, f.sd⟩, ⟨8, .ofNat 8 0⟩, ⟨3, f.cls⟩, ⟨1, f.nb⟩, ⟨2, .ofNat 2 0⟩,
        ⟨8, .ofNat 8 3⟩, ⟨1, f.g.ge⟩, ⟨3, f.g.gp⟩, ⟨1, f.g.gn⟩, ⟨8, f.unit⟩] := by
    simp only [Enc.lease, Enc.xb, Enc.base, pack, BitVec.toNat_ofNat]
    omega
  simp only [h, isX, isBase, Dec.lease, Dec.guard, fld_pack_skip, fld_pack_here, Nat.reduceLeDiff, Nat.reduceSub, and_self]

theorem Enc.lrel_reads (f : LrelF) :
    isX (Enc.lrel f) 54 4 ∧ Dec.lrel (Enc.lrel f) = f := by
  have h : Enc.lrel f = pack
      [⟨1, .ofNat 1 1⟩, ⟨6, .ofNat 6 54⟩, ⟨3, f.stall⟩, ⟨8, .ofNat 8 0⟩, ⟨8, f.sa⟩, ⟨1, f.ret⟩, ⟨5, .ofNat 5 0⟩,
        ⟨8, .ofNat 8 4⟩, ⟨1, f.g.ge⟩, ⟨3, f.g.gp⟩, ⟨1, f.g.gn⟩] := by
    simp only [Enc.lrel, Enc.xb, Enc.base, pack, BitVec.toNat_ofNat]
    omega
  simp only [h, isX, isBase, Dec.lrel, Dec.guard, fld_pack_skip, fld_pack_here, Nat.reduceLeDiff, Nat.reduceSub, and_self]

theorem Enc.scalarPair_reads {major : Nat} (hmajor : major < 64) {minor : Nat} (hminor : minor < 256) (f : ScalarPairF) :
    isX (Enc.scalarPair major minor f) major minor ∧ Dec.scalarPair (Enc.scalarPair major minor f) = f := by
  have h : Enc.scalarPair major minor f = pack
      [⟨1, .ofNat 1 1⟩, ⟨6, .ofNat 6 major⟩, ⟨3, f.stall⟩, ⟨8, f.sd⟩, ⟨8, f.sa⟩, ⟨1, f.map⟩, ⟨5, .ofNat 5 0⟩,
        ⟨8, .ofNat 8 minor⟩, ⟨1, f.g.ge⟩, ⟨3, f.g.gp⟩, ⟨1, f.g.gn⟩] := by
    simp only [Enc.scalarPair, Enc.xb, Enc.base, pack, BitVec.toNat_ofNat]
    omega
  simp only [h, isX, isBase, Dec.scalarPair, Dec.guard, fld_pack_skip, fld_pack_here, Nat.reduceLeDiff, Nat.reduceSub, and_self]

theorem Enc.eng_reads (f : EngF) :
    isX (Enc.eng f) 54 6 ∧ Dec.eng (Enc.eng f) = f := by
  have h : Enc.eng f = pack
      [⟨1, .ofNat 1 1⟩, ⟨6, .ofNat 6 54⟩, ⟨3, f.stall⟩, ⟨8, f.sd⟩, ⟨8, f.sa⟩, ⟨6, .ofNat 6 0⟩, ⟨8, .ofNat 8 6⟩, ⟨1, f.g.ge⟩,
        ⟨3, f.g.gp⟩, ⟨1, f.g.gn⟩, ⟨8, f.sb⟩] := by
    simp only [Enc.eng, Enc.xb, Enc.base, pack, BitVec.toNat_ofNat]
    omega
  simp only [h, isX, isBase, Dec.eng, Dec.guard, fld_pack_skip, fld_pack_here, Nat.reduceLeDiff, Nat.reduceSub, and_self]

theorem Enc.mat_reads {minor : Nat} (hminor : minor < 256) (f : MatF) :
    isX (Enc.mat minor f) 55 minor ∧ Dec.mat (Enc.mat minor f) = f := by
  have h : Enc.mat minor f = pack
      [⟨1, .ofNat 1 1⟩, ⟨6, .ofNat 6 55⟩, ⟨3, f.stall⟩, ⟨8, f.d⟩, ⟨8, f.a⟩, ⟨6, f.mods⟩, ⟨8, .ofNat 8 minor⟩, ⟨1, f.g.ge⟩,
        ⟨3, f.g.gp⟩, ⟨1, f.g.gn⟩, ⟨8, f.b⟩, ⟨8, f.c⟩] := by
    simp only [Enc.mat, Enc.xb, Enc.base, pack, BitVec.toNat_ofNat]
    omega
  simp only [h, isX, isBase, Dec.mat, Dec.guard, fld_pack_skip, fld_pack_here, Nat.reduceLeDiff, Nat.reduceSub, and_self]

theorem Enc.tile_reads {minor : Nat} (hminor : minor < 256) (f : TileF) :
    isX (Enc.tile minor f) 55 minor ∧ Dec.tile (Enc.tile minor f) = f := by
  have h : Enc.tile minor f = pack
      [⟨1, .ofNat 1 1⟩, ⟨6, .ofNat 6 55⟩, ⟨3, f.stall⟩, ⟨4, f.d⟩, ⟨4, .ofNat 4 0⟩, ⟨4, f.a⟩, ⟨10, .ofNat 10 0⟩,
        ⟨8, .ofNat 8 minor⟩, ⟨1, f.g.ge⟩, ⟨3, f.g.gp⟩, ⟨1, f.g.gn⟩] := by
    simp only [Enc.tile, Enc.xb, Enc.base, pack, BitVec.toNat_ofNat]
    omega
  simp only [h, isX, isBase, Dec.tile, Dec.guard, fld_pack_skip, fld_pack_here, Nat.reduceLeDiff, Nat.reduceSub, and_self]

theorem Enc.code_reads {minor : Nat} (hminor : minor < 256) (f : CodeF) :
    isX (Enc.code minor f) 56 minor ∧ Dec.code (Enc.code minor f) = f := by
  have h : Enc.code minor f = pack
      [⟨1, .ofNat 1 1⟩, ⟨6, .ofNat 6 56⟩, ⟨3, f.stall⟩, ⟨22, .ofNat 22 0⟩, ⟨8, .ofNat 8 minor⟩, ⟨1, f.g.ge⟩, ⟨3, f.g.gp⟩,
        ⟨1, f.g.gn⟩, ⟨16, f.code⟩] := by
    simp only [Enc.code, Enc.xb, Enc.base, pack, BitVec.toNat_ofNat]
    omega
  simp only [h, isX, isBase, Dec.code, Dec.guard, fld_pack_skip, fld_pack_here, Nat.reduceLeDiff, Nat.reduceSub, and_self]

theorem Enc.guardF_reads {minor : Nat} (hminor : minor < 256) (f : GuardF) :
    isX (Enc.guardF minor f) 56 minor ∧ Dec.guardF (Enc.guardF minor f) = f := by
  have h : Enc.guardF minor f = pack
      [⟨1, .ofNat 1 1⟩, ⟨6, .ofNat 6 56⟩, ⟨3, f.stall⟩, ⟨22, .ofNat 22 0⟩, ⟨8, .ofNat 8 minor⟩, ⟨1, f.g.ge⟩, ⟨3, f.g.gp⟩,
        ⟨1, f.g.gn⟩] := by
    simp only [Enc.guardF, Enc.xb, Enc.base, pack, BitVec.toNat_ofNat]
    omega
  simp only [h, isX, isBase, Dec.guardF, Dec.guard, fld_pack_skip, fld_pack_here, Nat.reduceLeDiff, Nat.reduceSub, and_self]

theorem Enc.regset_reads (f : RegsetF) :
    isX (Enc.regset f) 56 5 ∧ Dec.regset (Enc.regset f) = f := by
  have h : Enc.regset f = pack
      [⟨1, .ofNat 1 1⟩, ⟨6, .ofNat 6 56⟩, ⟨3, f.stall⟩, ⟨8, f.sd⟩, ⟨8, f.sa⟩, ⟨1, f.imm⟩, ⟨1, f.nb⟩, ⟨4, .ofNat 4 0⟩,
        ⟨8, .ofNat 8 5⟩, ⟨1, f.g.ge⟩, ⟨3, f.g.gp⟩, ⟨1, f.g.gn⟩, ⟨8, f.n⟩] := by
    simp only [Enc.regset, Enc.xb, Enc.base, pack, BitVec.toNat_ofNat]
    omega
  simp only [h, isX, isBase, Dec.regset, Dec.guard, fld_pack_skip, fld_pack_here, Nat.reduceLeDiff, Nat.reduceSub, and_self]

theorem Enc.rchk_reads (f : RchkF) :
    isX (Enc.rchk f) 56 7 ∧ Dec.rchk (Enc.rchk f) = f := by
  have h : Enc.rchk f = pack
      [⟨1, .ofNat 1 1⟩, ⟨6, .ofNat 6 56⟩, ⟨3, f.stall⟩, ⟨8, f.sd⟩, ⟨8, .ofNat 8 0⟩, ⟨2, f.mode⟩, ⟨4, .ofNat 4 0⟩,
        ⟨8, .ofNat 8 7⟩, ⟨1, f.g.ge⟩, ⟨3, f.g.gp⟩, ⟨1, f.g.gn⟩] := by
    simp only [Enc.rchk, Enc.xb, Enc.base, pack, BitVec.toNat_ofNat]
    omega
  simp only [h, isX, isBase, Dec.rchk, Dec.guard, fld_pack_skip, fld_pack_here, Nat.reduceLeDiff, Nat.reduceSub, and_self]

theorem Enc.enq_reads (f : EnqF) :
    isX (Enc.enq f) 56 8 ∧ Dec.enq (Enc.enq f) = f := by
  have h : Enc.enq f = pack
      [⟨1, .ofNat 1 1⟩, ⟨6, .ofNat 6 56⟩, ⟨3, f.stall⟩, ⟨8, f.sd⟩, ⟨8, f.sa⟩, ⟨1, f.nb⟩, ⟨5, .ofNat 5 0⟩, ⟨8, .ofNat 8 8⟩,
        ⟨1, f.g.ge⟩, ⟨3, f.g.gp⟩, ⟨1, f.g.gn⟩, ⟨8, f.sq⟩] := by
    simp only [Enc.enq, Enc.xb, Enc.base, pack, BitVec.toNat_ofNat]
    omega
  simp only [h, isX, isBase, Dec.enq, Dec.guard, fld_pack_skip, fld_pack_here, Nat.reduceLeDiff, Nat.reduceSub, and_self]

theorem Enc.relaunch_reads (f : RelaunchF) :
    isX (Enc.relaunch f) 56 9 ∧ Dec.relaunch (Enc.relaunch f) = f := by
  have h : Enc.relaunch f = pack
      [⟨1, .ofNat 1 1⟩, ⟨6, .ofNat 6 56⟩, ⟨3, f.stall⟩, ⟨8, f.sd⟩, ⟨8, f.sa⟩, ⟨2, f.mode⟩, ⟨4, .ofNat 4 0⟩, ⟨8, .ofNat 8 9⟩,
        ⟨1, f.g.ge⟩, ⟨3, f.g.gp⟩, ⟨1, f.g.gn⟩, ⟨8, f.sb⟩] := by
    simp only [Enc.relaunch, Enc.xb, Enc.base, pack, BitVec.toNat_ofNat]
    omega
  simp only [h, isX, isBase, Dec.relaunch, Dec.guard, fld_pack_skip, fld_pack_here, Nat.reduceLeDiff, Nat.reduceSub, and_self]

theorem Enc.belino_reads {op : Nat} (hop : op < 256) (f : BelinoF) :
    fld (Enc.belino op f) 0 8 = .ofNat 8 op ∧ Dec.belino (Enc.belino op f) = f := by
  have h : Enc.belino op f = pack
      [⟨8, .ofNat 8 op⟩, ⟨4, f.d⟩, ⟨4, f.a⟩, ⟨16, f.imm⟩] := by
    simp only [Enc.belino, pack, BitVec.toNat_ofNat]
    omega
  simp only [h, Dec.belino, fld_pack_skip, fld_pack_here, Nat.reduceLeDiff, Nat.reduceSub, and_self]

theorem Enc.cmd_reads {op : Nat} (hop : op < 256) {sub : Nat} (hsub : sub < 256) (c : Cmd) :
    (fld (Enc.cmd op sub c) 0 8 = .ofNat 8 op ∧ fld (Enc.cmd op sub c) 8 8 = .ofNat 8 sub) ∧ Dec.cmd (Enc.cmd op sub c) = c := by
  have h : Enc.cmd op sub c = pack
      [⟨8, .ofNat 8 op⟩, ⟨8, .ofNat 8 sub⟩, ⟨16, c.tag⟩, ⟨32, c.head⟩, ⟨64, c.a08⟩, ⟨64, c.a10⟩, ⟨64, c.a18⟩, ⟨64, c.a20⟩,
        ⟨64, c.a28⟩, ⟨64, c.a30⟩] := by
    simp only [Enc.cmd, pack, BitVec.toNat_ofNat]
    omega
  simp only [h, Dec.cmd, fld_pack_skip, fld_pack_here, Nat.reduceLeDiff, Nat.reduceSub, and_self]

/-! ## What operation codes name -/

/-- A word that the decoder reads as an instruction of `n` bytes before its field checks. -/
def Names (i : Instr) (n w : Nat) : Prop := candidate w = some i ∧ wordLength w = n ∧ w < 2 ^ (8 * n)

theorem isBase.mods {w major : Nat} (h : isBase w major) (hM : major < 64) : w % 2 = 1 ∧ w / 2 % 64 = major := by
  obtain ⟨h0, h1⟩ := h
  have h0' := fld_mod h0 (by decide)
  rw [Nat.pow_zero, Nat.div_one] at h0'
  exact ⟨h0', fld_mod h1 hM⟩

theorem names_compact {F : Type} {mk : F → Instr} {dec : Nat → F} {f : F} {w op : Nat} (h : isCompact w op ∧ dec w = f)
    (hw : w < 2 ^ (8 * 2)) (hop : op < 16) (hi : ∀ v, Dec.compactOps v op = some (mk (dec v))) : Names (mk f) 2 w := by
  obtain ⟨⟨h0, h1⟩, rfl⟩ := h
  have h0' := fld_mod h0 (by decide)
  have h1' : w / 2 % 16 = op := fld_mod h1 hop
  rw [Nat.pow_zero, Nat.div_one] at h0'
  have h0'' : w % 2 = 0 := h0'
  exact ⟨by simp only [candidate, h0'', if_true, h1', hi], by simp only [wordLength, h0'', if_true], hw⟩

theorem candidate_base {w major : Nat} (h : isBase w major) (hM : major < 48) :
    candidate w = Dec.baseOps w major ∧ wordLength w = 4 := by
  obtain ⟨h0, h1⟩ := h.mods (by omega)
  have h48 : ¬ 48 ≤ major := by omega
  exact ⟨by simp [candidate, h0, h1, h48], by simp [wordLength, h0, h1, h48]⟩

theorem names_base {F : Type} {mk : F → Instr} {dec : Nat → F} {f : F} {w major : Nat} (h : isBase w major ∧ dec w = f)
    (hw : w < 2 ^ (8 * 4)) (hM : major < 48) (hi : ∀ v, Dec.baseOps v major = some (mk (dec v))) : Names (mk f) 4 w := by
  obtain ⟨hb, rfl⟩ := h
  obtain ⟨hc, hl⟩ := candidate_base hb hM
  exact ⟨hc.trans (hi w), hl, hw⟩

theorem names_salu {mk : SsF → Instr} {f : SsF} {minor : Nat} (hm : minor < 64)
    (hi : ∀ v, Dec.saluOps v minor = some (mk (Dec.ss v))) : Names (mk f) 4 (Enc.ss minor f) := by
  obtain ⟨⟨hb, hn⟩, hd⟩ := Enc.ss_reads hm f
  obtain ⟨hc, hl⟩ := candidate_base hb (by decide)
  have hn' : Enc.ss minor f / 2 ^ 26 % 64 = minor := fld_mod hn hm
  refine ⟨hc.trans ?_, hl, Enc.ss_lt hm f⟩
  simp only [Dec.baseOps, hn', hi, hd]

theorem names_x {F : Type} {mk : F → Instr} {dec : Nat → F} {f : F} {w major minor : Nat} (h : isX w major minor ∧ dec w = f)
    (hw : w < 2 ^ (8 * 8)) (hM : 48 ≤ major ∧ major < 64) (hm : minor < 256)
    (hi : ∀ v, v / 2 ^ 32 % 256 = minor → Dec.xOps v major = some (mk (dec v))) : Names (mk f) 8 w := by
  obtain ⟨⟨hb, hn⟩, rfl⟩ := h
  obtain ⟨h0, h1⟩ := hb.mods hM.2
  exact ⟨by simp [candidate, h0, h1, hM.1, hi w (fld_mod hn hm)], by simp [wordLength, h0, h1, hM.1], hw⟩

/-- Every program instruction's word names it. -/
theorem names_enc {i : Instr} {n w : Nat} (hc : Machine.isCommand i = false) (hb : Machine.isBelino i = false)
    (hu : ∀ f, i ≠ .unassignedEncoding f) (h : i.enc = some (n, w)) : Names i n w := by
  cases i
  case movCompact f | addCompact f | subCompact f | mulCompact f | andCompact f | orCompact f | xorCompact f | notCompact f |
    shlCompact f | shrCompact f | minCompact f | maxCompact f | absCompact f | negCompact f | popcCompact f | selCompact f =>
    cases h
    exact names_compact (Enc.compact_reads (by decide) f) (Enc.compact_lt (by decide) f) (by decide) fun _ => rfl
  case stall f =>
    cases h
    exact names_base (Enc.stallF_reads f) (Enc.stallF_lt f) (by decide) fun _ => rfl
  case addBase f | subBase f | mulBase f | fmaBase f | minBase f | maxBase f | andBase f | orBase f | xorBase f | shlBase f |
    shrBase f | selBase f | dotBase f =>
    cases h
    exact names_base (Enc.trio_reads (by decide) f) (Enc.trio_lt (by decide) f) (by decide) fun _ => rfl
  case addi f | andi f | ori f | shli f | shri f =>
    cases h
    exact names_base (Enc.duoi_reads (by decide) f) (Enc.duoi_lt (by decide) f) (by decide) fun _ => rfl
  case moviBase f =>
    cases h
    exact names_base (Enc.movi_reads f) (Enc.movi_lt f) (by decide) fun _ => rfl
  case sli f =>
    cases h
    exact names_base (Enc.si_reads f) (Enc.si_lt f) (by decide) fun _ => rfl
  case bra f | call f =>
    cases h
    exact names_base (Enc.br_reads (by decide) f) (Enc.br_lt (by decide) f) (by decide) fun _ => rfl
  case brp f =>
    cases h
    exact names_base (Enc.bp_reads f) (Enc.bp_lt f) (by decide) fun _ => rfl
  case ldBase f | stBase f | ldsBase f | stsBase f | sldBase f =>
    cases h
    exact names_base (Enc.mem_reads (by decide) f) (Enc.mem_lt (by decide) f) (by decide) fun _ => rfl
  case movGeneral f =>
    cases h
    exact names_base (Enc.gmov_reads f) (Enc.gmov_lt f) (by decide) fun _ => rfl
  case addSalu f | subSalu f | mulSalu f | andSalu f | orSalu f | xorSalu f | shlSalu f | shrSalu f | sraSalu f | minSalu f |
    maxSalu f | movSalu f | notSalu f | negSalu f | mulhiSalu f | clzSalu f | popcSalu f =>
    cases h
    exact names_salu (by decide) fun _ => rfl
  case addX f | subX f | mulX f | mulhiX f | fmaX f | minX f | maxX f | absX f | negX f | andX f | orX f | xorX f | notX f |
    shlX f | shrX f | selX f | movX f | moviX f | dotX f | acs f | popcX f | clzX f | brev f | bfe f | bfi f =>
    cases h
    exact names_x (Enc.x_reads (by decide) (by decide) f) (Enc.x_lt (by decide) (by decide) f) (by decide) (by decide) fun v e =>
      congrArg (Dec.xaluOps v) e
  case cmp f | plop f | pmov f | vote f =>
    cases h
    exact names_x (Enc.x_reads (by decide) (by decide) f) (Enc.x_lt (by decide) (by decide) f) (by decide) (by decide) fun v e =>
      congrArg (Dec.xpredOps v) e
  case shfl f | xred f | lget f | lput f | pack f | unpack f | cvt f | retag f | rcp f | rsq f | exp2 f | log2 f | sin f |
    cos f =>
    cases h
    exact names_x (Enc.x_reads (by decide) (by decide) f) (Enc.x_lt (by decide) (by decide) f) (by decide) (by decide) fun v e =>
      congrArg (Dec.xlaneOps v) e
  case addXscalar f | subXscalar f | mulXscalar f | andXscalar f | orXscalar f | xorXscalar f | shlXscalar f | shrXscalar f |
    sraXscalar f | minXscalar f | maxXscalar f | movXscalar f | notXscalar f | negXscalar f | mulhiXscalar f | clzXscalar f |
    popcXscalar f =>
    cases h
    exact names_x (Enc.scalar_reads (by decide) f) (Enc.scalar_lt (by decide) f) (by decide) (by decide) fun v e =>
      congrArg (Dec.xscalarOps v) e
  case br f =>
    cases h
    exact names_x (Enc.brX_reads f) (Enc.brX_lt f) (by decide) (by decide) fun v e =>
      congrArg (Dec.xscalarOps v) e
  case jmp f | ret f =>
    cases h
    exact names_x (Enc.jmp_reads (by decide) f) (Enc.jmp_lt (by decide) f) (by decide) (by decide) fun v e =>
      congrArg (Dec.xscalarOps v) e
  case srd f =>
    cases h
    exact names_x (Enc.srd_reads f) (Enc.srd_lt f) (by decide) (by decide) fun v e =>
      congrArg (Dec.xscalarOps v) e
  case swr f =>
    cases h
    exact names_x (Enc.swr_reads f) (Enc.swr_lt f) (by decide) (by decide) fun v e =>
      congrArg (Dec.xscalarOps v) e
  case ld f | st f | lds f | sts f | sld f =>
    cases h
    exact names_x (Enc.memX_reads (by decide) f) (Enc.memX_lt (by decide) f) (by decide) (by decide) fun v e =>
      congrArg (Dec.xmemOps v) e
  case atom f =>
    cases h
    exact names_x (Enc.atom_reads f) (Enc.atom_lt f) (by decide) (by decide) fun v e =>
      congrArg (Dec.xmemOps v) e
  case mred f =>
    cases h
    exact names_x (Enc.mred_reads f) (Enc.mred_lt f) (by decide) (by decide) fun v e =>
      congrArg (Dec.xmemOps v) e
  case pf f | cctl f | icinv f | fe f =>
    cases h
    exact names_x (Enc.range_reads (by decide) f) (Enc.range_lt (by decide) f) (by decide) (by decide) fun v e =>
      congrArg (Dec.xmemOps v) e
  case fence f | fbeg f | fwait f =>
    cases h
    exact names_x (Enc.fence_reads (by decide) f) (Enc.fence_lt (by decide) f) (by decide) (by decide) fun v e =>
      congrArg (Dec.xsyncOps v) e
  case bar f =>
    cases h
    exact names_x (Enc.bar_reads f) (Enc.bar_lt f) (by decide) (by decide) fun v e =>
      congrArg (Dec.xsyncOps v) e
  case monw f =>
    cases h
    exact names_x (Enc.monw_reads f) (Enc.monw_lt f) (by decide) (by decide) fun v e =>
      congrArg (Dec.xsyncOps v) e
  case yield f =>
    cases h
    exact names_x (Enc.yield_reads f) (Enc.yield_lt f) (by decide) (by decide) fun v e =>
      congrArg (Dec.xsyncOps v) e
  case epush f | epop f =>
    cases h
    exact names_x (Enc.edge_reads (by decide) f) (Enc.edge_lt (by decide) f) (by decide) (by decide) fun v e =>
      congrArg (Dec.xsyncOps v) e
  case copy f =>
    cases h
    exact names_x (Enc.copy_reads f) (Enc.copy_lt f) (by decide) (by decide) fun v e =>
      congrArg (Dec.xasyncOps v) e
  case cobj f | cpwait f =>
    cases h
    exact names_x (Enc.obj_reads (by decide) f) (Enc.obj_lt (by decide) f) (by decide) (by decide) fun v e =>
      congrArg (Dec.xasyncOps v) e
  case lease f =>
    cases h
    exact names_x (Enc.lease_reads f) (Enc.lease_lt f) (by decide) (by decide) fun v e =>
      congrArg (Dec.xasyncOps v) e
  case lrel f =>
    cases h
    exact names_x (Enc.lrel_reads f) (Enc.lrel_lt f) (by decide) (by decide) fun v e =>
      congrArg (Dec.xasyncOps v) e
  case lstat f | ewait f =>
    cases h
    exact names_x (Enc.scalarPair_reads (by decide) (by decide) f) (Enc.scalarPair_lt (by decide) (by decide) f) (by decide) (by decide) fun v e =>
      congrArg (Dec.xasyncOps v) e
  case eng f =>
    cases h
    exact names_x (Enc.eng_reads f) (Enc.eng_lt f) (by decide) (by decide) fun v e =>
      congrArg (Dec.xasyncOps v) e
  case bld f | mma f | mv f | tdrn f =>
    cases h
    exact names_x (Enc.mat_reads (by decide) f) (Enc.mat_lt (by decide) f) (by decide) (by decide) fun v e =>
      congrArg (Dec.xmatOps v) e
  case mbat f | mwait f | talloc f | tfree f =>
    cases h
    exact names_x (Enc.scalarPair_reads (by decide) (by decide) f) (Enc.scalarPair_lt (by decide) (by decide) f) (by decide) (by decide) fun v e =>
      congrArg (Dec.xmatOps v) e
  case tzero f | tmov f =>
    cases h
    exact names_x (Enc.tile_reads (by decide) f) (Enc.tile_lt (by decide) f) (by decide) (by decide) fun v e =>
      congrArg (Dec.xmatOps v) e
  case trap f | bkpt f | sys f =>
    cases h
    exact names_x (Enc.code_reads (by decide) f) (Enc.code_lt (by decide) f) (by decide) (by decide) fun v e =>
      congrArg (Dec.xsysOps v) e
  case tret f | exit f =>
    cases h
    exact names_x (Enc.guardF_reads (by decide) f) (Enc.guardF_lt (by decide) f) (by decide) (by decide) fun v e =>
      congrArg (Dec.xsysOps v) e
  case regset f =>
    cases h
    exact names_x (Enc.regset_reads f) (Enc.regset_lt f) (by decide) (by decide) fun v e =>
      congrArg (Dec.xsysOps v) e
  case prog f =>
    cases h
    exact names_x (Enc.scalarPair_reads (by decide) (by decide) f) (Enc.scalarPair_lt (by decide) (by decide) f) (by decide) (by decide) fun v e =>
      congrArg (Dec.xsysOps v) e
  case rchk f =>
    cases h
    exact names_x (Enc.rchk_reads f) (Enc.rchk_lt f) (by decide) (by decide) fun v e =>
      congrArg (Dec.xsysOps v) e
  case enq f =>
    cases h
    exact names_x (Enc.enq_reads f) (Enc.enq_lt f) (by decide) (by decide) fun v e =>
      congrArg (Dec.xsysOps v) e
  case relaunch f =>
    cases h
    exact names_x (Enc.relaunch_reads f) (Enc.relaunch_lt f) (by decide) (by decide) fun v e =>
      congrArg (Dec.xsysOps v) e
  case unassignedEncoding f => exact absurd rfl (hu f)
  case partcfg c | partreset c | ctxbind c | ctxfree c | preempt c | qreg c | qstate c | traparea c | savepool c | root c |
    xlinv c | replay c | cancel c | barinit c | barinv c | watchreg c | rtnload c | hold c | resume c | codeinv c | sample c |
    vpsmap c | vpsreq c | vpsquery c | sensclr c | energy c | attest c | resync c | wsdef c | wsnew c | wscommit c | wsdrop c |
    evring c => cases hc
  case unlistedCommand op sub c => cases hc
  case belinoLdi f | belinoMov f | belinoAdd f | belinoSub f | belinoAnd f | belinoOr f | belinoXor f | belinoShl f |
    belinoShr f | belinoMin f | belinoMax f | belinoSel f | belinoCmplt f | belinoCmpeq f | belinoLdc f | belinoLdm f |
    belinoStm f | belinoLoop f | belinoBrf f | belinoDec f | belinoExit f => cases hb
  case belinoBrfZ f => cases hb
  all_goals cases h

/-! ## Bytes of a word -/

theorem leNat_leBytes (n w : Nat) : leNat (leBytes n w) = w % 256 ^ n := by
  induction n generalizing w with
  | zero => simp [leBytes, leNat, Nat.mod_one]
  | succ n ih =>
    rw [leBytes, leNat, ih, Nat.pow_succ', Nat.mod_mul]
    rfl

theorem leBytes_length (n w : Nat) : (leBytes n w).length = n := by
  induction n generalizing w with
  | zero => rfl
  | succ n ih => simp [leBytes, ih]

theorem leBytes_take {k n : Nat} (hk : k ≤ n) (w : Nat) : (leBytes n w).take k = leBytes k w := by
  induction k generalizing n w with
  | zero => rfl
  | succ k ih =>
    obtain ⟨m, rfl⟩ : ∃ m, n = m + 1 := ⟨n - 1, by omega⟩
    simp [leBytes, ih (Nat.le_of_succ_le_succ hk)]

/-! ## The decoder -/

/-- The length of a word rests on its low halfword. -/
theorem wordLength_mod {w n : Nat} (hn : 2 ≤ n) : wordLength (w % 2 ^ (8 * n)) = wordLength w := by
  have h16 : w % 2 ^ (8 * n) % 2 ^ 16 = w % 2 ^ 16 := Nat.mod_mod_of_dvd _ (Nat.pow_dvd_pow 2 (by omega))
  have hlow : ∀ v, wordLength v = wordLength (v % 2 ^ 16) := fun v => by
    unfold wordLength
    rw [show v % 2 ^ 16 % 2 = v % 2 by omega, show v % 2 ^ 16 / 2 % 64 = v / 2 % 64 by omega]
  rw [hlow, h16, ← hlow]

theorem wordLength_cases (w : Nat) : wordLength w = 2 ∨ wordLength w = 4 ∨ wordLength w = 8 := by
  unfold wordLength
  split
  · exact .inl rfl
  · split
    · exact .inr (.inr rfl)
    · exact .inr (.inl rfl)

theorem wordLength_trimWord (w : Nat) : wordLength (trimWord w) = wordLength w := wordLength_mod (Machine.wordLength_two w)

theorem trimWord_lt (w : Nat) : trimWord w < 2 ^ (8 * wordLength (trimWord w)) := by
  rw [wordLength_trimWord]
  exact Nat.mod_lt _ (Nat.two_pow_pos _)

/-- A word no longer than its length is its own trimmed word. -/
theorem trimWord_eq {w : Nat} (hw : w < 2 ^ (8 * wordLength w)) : trimWord w = w := Nat.mod_eq_of_lt hw

/-- The unassigned encoding that stands at a trimmed word keeps every bit of it. -/
theorem unassigned_enc {t : Nat} (ht : t < 2 ^ (8 * wordLength t)) : (unassigned t).enc = some (wordLength t, t) := by
  unfold unassigned Instr.enc
  rcases wordLength_cases t with h | h | h <;> rw [h] at ht <;> simp [h, fld] <;> omega

/-- A word that names a well-formed instruction of just these bits decodes to it. -/
theorem decodeWord_names {i : Instr} {n w : Nat} (h : Names i n w) (hwf : i.wf = true) (he : i.enc = some (n, w)) : decodeWord w = i := by
  obtain ⟨hc, rfl, hw⟩ := h
  simp [decodeWord, trimWord_eq hw, hc, hwf, he]

/-- The decoder drops no bit of a word: what it gives has the trimmed word for its encoding. -/
theorem decodeWord_enc (w : Nat) : (decodeWord w).enc = some (wordLength w, trimWord w) := by
  have hu := unassigned_enc (trimWord_lt w)
  rw [wordLength_trimWord] at hu
  unfold decodeWord
  simp only [wordLength_trimWord]
  cases candidate (trimWord w) with
  | none => exact hu
  | some i =>
    dsimp only
    split
    next hi => exact eq_of_beq (Bool.and_eq_true_iff.mp hi).2
    next => exact hu

theorem decode_leBytes {i : Instr} {n w : Nat} (h : Names i n w) (hwf : i.wf = true) (he : i.enc = some (n, w)) (rest : List Byte) :
    decode (leBytes n w ++ rest) = some (i, rest) := by
  have hi := decodeWord_names h hwf he
  obtain ⟨-, rfl, hw⟩ := h
  have h2 := Machine.wordLength_two w
  have htake : (leBytes (wordLength w) w ++ rest).take 2 = leBytes 2 w := by
    rw [List.take_append_of_le_length (by rwa [leBytes_length]), leBytes_take h2]
  have hlen : wordLength (leNat (leBytes 2 w)) = wordLength w := by
    rw [leNat_leBytes]
    exact wordLength_mod (n := 2) (Nat.le_refl 2)
  have hall : leNat ((leBytes (wordLength w) w ++ rest).take (wordLength w)) = w := by
    rw [List.take_left' (leBytes_length _ _), leNat_leBytes, Nat.mod_eq_of_lt]
    rwa [Nat.pow_mul] at hw
  have hdrop : (leBytes (wordLength w) w ++ rest).drop (wordLength w) = rest := List.drop_left' (leBytes_length _ _)
  have hle : wordLength w ≤ (leBytes (wordLength w) w ++ rest).length := by simp [leBytes_length]
  generalize leBytes (wordLength w) w ++ rest = bs at htake hall hdrop hle
  match bs with
  | b0 :: b1 :: r => simp only [decode, htake, hlen, hle, or_true, if_true, hall, hdrop, hi]
  | [] => exact absurd hle (by simp only [List.length_nil]; omega)
  | [_] => exact absurd hle (by simp only [List.length_cons, List.length_nil]; omega)

/-! ## Belino words and commands -/

/-- The operation code of a Belino word. -/
theorem belino_code {w op : Nat} (h : fld w 0 8 = .ofNat 8 op) (hop : op < 256) : w % 256 = op := by
  have := fld_mod h hop
  rwa [Nat.pow_zero, Nat.div_one] at this

theorem belino_named {mk : BelinoF → Instr} {f : BelinoF} {op : Nat} (hop : op < 256)
    (hi : ∀ v, Dec.belinoOps v op = some (mk (Dec.belino v))) :
    Dec.belinoOps (Enc.belino op f) (Enc.belino op f % 256) = some (mk f) := by
  obtain ⟨h, hd⟩ := Enc.belino_reads hop f
  rw [belino_code h hop, hi, hd]

/-- BRF.z is the word of BRF with d 1. -/
theorem belino_brfZ (f : BelinoF) (hf : f.d = 0) : Enc.belino 18 f + 2 ^ 8 = Enc.belino 18 { f with d := 1 } := by
  simp only [Enc.belino, hf]
  simp
  omega

/-- Every well-formed Belino operation's word names it. -/
theorem belinoOps_enc {i : Instr} {n w : Nat} (hb : Machine.isBelino i = true) (hwf : i.wf = true) (h : i.enc = some (n, w)) :
    n = 4 ∧ Dec.belinoOps w (w % 256) = some i := by
  cases i
  case belinoLdi f | belinoMov f | belinoAdd f | belinoSub f | belinoAnd f | belinoOr f | belinoXor f | belinoShl f |
    belinoShr f | belinoMin f | belinoMax f | belinoSel f | belinoCmplt f | belinoCmpeq f | belinoLdc f | belinoLdm f |
    belinoStm f | belinoLoop f | belinoDec f | belinoExit f =>
    cases h
    exact ⟨rfl, belino_named (by decide) fun _ => rfl⟩
  case belinoBrf f =>
    cases h
    have hd : f.d = 0 := eq_of_beq hwf
    obtain ⟨hc, hr⟩ := Enc.belino_reads (op := 18) (by decide) f
    refine ⟨rfl, ?_⟩
    rw [belino_code hc (by decide)]
    simp [Dec.belinoOps, hr, hd]
  case belinoBrfZ f =>
    cases h
    obtain ⟨d, a, imm⟩ := f
    obtain rfl : d = 0 := eq_of_beq hwf
    obtain ⟨hc, hr⟩ := Enc.belino_reads (op := 18) (by decide) ⟨1, a, imm⟩
    refine ⟨rfl, ?_⟩
    rw [belino_brfZ _ rfl, belino_code hc (by decide)]
    simp only [Dec.belinoOps, hr, if_true]
  all_goals cases hb

theorem cmdOps_enc {op sub : Nat} (hop : op < 256) (hsub : sub < 256) (c : Cmd) {mk : Cmd → Instr}
    (hi : ∀ v, Dec.cmdOps v op sub = mk (Dec.cmd v)) : decodeCommand (Enc.cmd op sub c) = mk c := by
  obtain ⟨⟨h0, h1⟩, hd⟩ := Enc.cmd_reads hop hsub c
  have h1' : Enc.cmd op sub c / 2 ^ 8 % 256 = sub := fld_mod h1 hsub
  rw [decodeCommand, belino_code h0 hop, h1', hi, hd]

/-- Every listed command's words name it. -/
theorem decodeCommand_enc {i : Instr} {n w : Nat} (hc : Machine.isCommand i = true) (h : i.enc = some (n, w)) :
    decodeCommand w = i ∨ ∃ op sub c, i = .unlistedCommand op sub c := by
  cases i
  case partcfg c | partreset c | ctxbind c | ctxfree c | preempt c | qreg c | qstate c | traparea c | savepool c | root c |
    xlinv c | replay c | cancel c | barinit c | barinv c | watchreg c | rtnload c | hold c | resume c | codeinv c | sample c |
    vpsmap c | vpsreq c | vpsquery c | sensclr c | energy c | attest c | resync c | wsdef c | wsnew c | wscommit c | wsdrop c |
    evring c =>
    cases h
    exact .inl (cmdOps_enc (by decide) (by decide) c fun _ => rfl)
  case unlistedCommand op sub c => exact .inr ⟨op, sub, c, rfl⟩
  all_goals cases hc

/-- Settles O57: each kind of instruction by what its word names; the decoder's own check keeps every bit of a word. -/
theorem decodeInvertsEncode : Obligations.DecodeInvertsEncode := by
  refine ⟨fun i n w rest hwf he => ⟨fun hc => decodeCommand_enc hc he, fun hb => ?_, fun hc hb hu => ?_⟩, decodeWord_enc⟩
  · obtain ⟨rfl, hi⟩ := belinoOps_enc hb hwf he
    simp [decodeBelino, hi, hwf, he]
  · exact decode_leBytes (names_enc hc hb hu he) hwf he rest

end Sys2Proof
end

section
/-! A word that the decoder reads otherwise than stated, and the reset state: closed facts that the model evaluates. -/

namespace Sys2Proof

/-- The eighth word is CMP.eq P3, S9, V1 (R346): major 49, minor 0, D 3, CL naming a scalar A, B 1, and every reserved bit 0. -/
theorem decodeWord_cmp :
    decodeWord 0x0000200008240C63 =
      .cmp { stall := 0, d := 3, a := 9, cl := 2, imm := 0, g := ⟨0, 0, 0⟩, b := 1, c := 0, rm := 0, sat := 0 } := by
  decide +kernel

/-- Refutes O56: the word 0x0000200008240C63, which the statement reads as an unassigned encoding, is a CMP. -/
theorem not_decodeWords : ¬ Obligations.DecodeWords := by
  rintro ⟨-, -, -, -, -, -, -, hunassigned, -⟩
  rw [decodeWord_cmp] at hunassigned
  cases hunassigned

end Sys2Proof

namespace Sys2Proof.Machine

/-- Memory with nothing listed is in canonical form. -/
theorem State.reset_inv : State.reset.Inv := ⟨List.Pairwise.nil, fun _ h => absurd h List.not_mem_nil⟩

/-- A partition that nothing has configured reads as PARTCFG's reset column. -/
theorem Chip.reset_part (k : Nat) : Chip.reset.part k = Partition.init := rfl

/-- Settles O59: every table is empty after reset, so that each entry reads as its default. -/
theorem resetState : Obligations.ResetState := by
  refine ⟨State.reset_inv, rfl, fun _ => rfl, fun _ => rfl, fun _ => rfl, fun _ => rfl, rfl, rfl, fun k => ?_⟩
  show (Chip.reset.part k).clmask = 0 ∧ _
  rw [Chip.reset_part]
  exact ⟨rfl, rfl, rfl, rfl, rfl, rfl, rfl, rfl, rfl, rfl, rfl, rfl, rfl⟩

end Sys2Proof.Machine
end

section
/-! Scalar arithmetic (R54, R325, R377, R405): every form is a scalar operation on its sources, or one write of a scalar register. -/

namespace Sys2Proof.Machine

/-- The transaction of an instruction once it has retired. -/
abbrev State.txPast (s : State) (h : Here) (len stall : Nat) : Tx := { s.tx with chip := s.chip.retire h len stall s.clk }

/-- An instruction whose body is one write of a scalar register with a fixed latency. -/
theorem writeS_gets {s : State} {h : Here} {u : Uses} {i : Instr} {n lat d : Nat} {F : Form} {v : Word} {body : Here → Act Unit}
    (hx : exec i s = runZha n (issue F.len F.stall u body) s) (hi : s.mayIssue h u)
    (hb : body h (s.txPast h F.len F.stall) = writeS h lat F.stall d v (s.txPast h F.len F.stall)) : s.scalarGets h i F d v := by
  obtain ⟨ha, -, -, -, hz⟩ := id hi
  have hnext := retire_next hx hi (hb.trans (writeS_run _ _ _ _ _ _))
  refine State.ended_scalar ha hz hnext (fun x => ?_) (fun x hx => by simp [Group.wroteS_sreg hx])
    (fun x r hr => Group.wroteS_other x _ _ _ _ _ _ r hr) (fun x => ?_) fun x => ?_ <;>
    obtain ⟨hv, hp, hq⟩ := Group.wroteS_rest x s.clk lat F.stall d h.mask v
  · exact hv
  · exact hp
  · exact hq

/-- A scalar instruction of two sources completes. -/
theorem salu2_gets {s : State} {h : Here} {i : Instr} {n d a : Nat} {F : Form} {b : ScalarSrc} {op : Word → Word → Word}
    (hx : exec i s = runZha n (salu2 F d a b op) s) (hi : s.mayIssue h ⟨[], [], a :: b.ss, [d], guardPs F.g, []⟩)
    (hl : h.lanes F.g ≠ 0) : s.scalarGets h i F d (op (h.s a) (b.val h)) :=
  scalarGets_of (f := fun h => op (h.s a) (b.val h)) hx hi hl

/-- A scalar instruction of one source completes. -/
theorem salu1_gets {s : State} {h : Here} {i : Instr} {n d a : Nat} {F : Form} {op : Word → Word}
    (hx : exec i s = runZha n (salu1 F d a op) s) (hi : s.mayIssue h ⟨[], [], [a], [d], guardPs F.g, []⟩)
    (hl : h.lanes F.g ≠ 0) : s.scalarGets h i F d (op (h.s a)) :=
  scalarGets_of (f := fun h => op (h.s a)) hx hi hl

/-- Settles O8: SALU and SLI have no guard, and each is a scalar operation on its sources. -/
theorem scalarBase : Obligations.ScalarBase := by
  intro s h hm two one
  have htwo : ∀ {i : SsF → Instr} {op : Word → Word → Word},
      (∀ f, exec (i f) s = runZha 4 (salu2 (baseForm f.stall) f.sd.toNat f.sd.toNat (.reg f.sa.toNat) op) s) → two i op :=
    fun hx f hi => salu2_gets (hx f) hi hm
  have hone : ∀ {i : SsF → Instr} {op : Word → Word},
      (∀ f, exec (i f) s = runZha 4 (salu1 (baseForm f.stall) f.sd.toNat f.sa.toNat op) s) → one i op :=
    fun hx f hi => salu1_gets (hx f) hi hm
  refine ⟨htwo (op := (· + ·)) fun _ => rfl, htwo (op := (· - ·)) fun _ => rfl, htwo (op := (· * ·)) fun _ => rfl,
    htwo (op := (· &&& ·)) fun _ => rfl, htwo (op := (· ||| ·)) fun _ => rfl, htwo (op := (· ^^^ ·)) fun _ => rfl,
    htwo (op := wordShl) fun _ => rfl, htwo (op := wordShr) fun _ => rfl, htwo (op := wordSra) fun _ => rfl,
    htwo (op := wordMin) fun _ => rfl, htwo (op := wordMax) fun _ => rfl, htwo (op := wordMulhi) fun _ => rfl,
    hone (op := id) fun _ => rfl, hone (op := (~~~ ·)) fun _ => rfl, hone (op := (0 - ·)) fun _ => rfl,
    hone (op := wordClz) fun _ => rfl, hone (op := wordPopc) fun _ => rfl,
    fun f hi => scalarGets_of (f := fun _ => f.imm.signExtend 32) rfl hi hm, fun f hd ha hi => ?_, fun f hd ha hi => ?_⟩
  · have hx : exec (.movGeneral f) s = runZha 4 (salu1 (baseForm f.stall) f.d.toNat f.a.toNat id) s := by
      rw [exec, execMovGeneral, if_pos hd, gmovScalar, if_pos ha]
    exact salu1_gets hx hi hm
  · have hx : exec (.movGeneral f) s = runZha 4 (issue 4 f.stall.toNat ⟨[f.a.toNat], [], [], [f.d.toNat], [], []⟩ fun h =>
        writeS h 2 f.stall.toNat f.d.toNat (h.v f.a.toNat (lowLane h.mask)).bits) s := by
      rw [exec, execMovGeneral, if_pos hd, gmovScalar, if_neg (by simp [ha])]
    exact writeS_gets (F := baseForm f.stall) hx hi rfl

theorem scalarB_ss (f : ScalarF) : (scalarB f).ss = if f.imm = 1 then [] else [f.b.toNat] := by
  unfold scalarB
  split <;> rfl

theorem scalarB_val (f : ScalarF) (h : Here) : (scalarB f).val h = if f.imm = 1 then (f.c ++ f.b).signExtend 32 else h.s f.b.toNat := by
  unfold scalarB
  split <;> rfl

/-- Settles O9: XSCALAR minors 0 to 16 are scalar operations on Sa and a register or the immediate. -/
theorem scalarExtended : Obligations.ScalarExtended := by
  intro s h f hl b a two one
  have htwo : ∀ {i : ScalarF → Instr} {op : Word → Word → Word},
      exec (i f) s = runZha 8 (salu2 (xForm f.stall f.g) f.sd.toNat f.sa.toNat (scalarB f) op) s → two i (op a b) := by
    intro i op hx hi
    rw [← scalarB_ss] at hi
    have := salu2_gets hx hi hl
    rwa [scalarB_val] at this
  have hone : ∀ {i : ScalarF → Instr} {op : Word → Word},
      exec (i f) s = runZha 8 (salu1 (xForm f.stall f.g) f.sd.toNat f.sa.toNat op) s → one i (op a) :=
    fun hx hi => salu1_gets hx hi hl
  exact ⟨htwo (op := (· + ·)) rfl, htwo (op := (· - ·)) rfl, htwo (op := (· * ·)) rfl, htwo (op := (· &&& ·)) rfl,
    htwo (op := (· ||| ·)) rfl, htwo (op := (· ^^^ ·)) rfl, htwo (op := wordShl) rfl, htwo (op := wordShr) rfl,
    htwo (op := wordSra) rfl, htwo (op := wordMin) rfl, htwo (op := wordMax) rfl, htwo (op := wordMulhi) rfl, hone (op := id) rfl,
    hone (op := (~~~ ·)) rfl, hone (op := (0 - ·)) rfl, hone (op := wordClz) rfl, hone (op := wordPopc) rfl⟩

end Sys2Proof.Machine
end

section
/-! Trap instructions (R60, R62, R337, R413, R416): each body stops with its trap on the chip after retirement, and `traps_of`
says what the trap does. -/

namespace Sys2Proof.Machine

/-- Once the group has an active lane, an instruction of the whole group acts. -/
theorem onceIf_run {h : Here} {g : Guard} (hl : h.lanes g ≠ 0) (act : Act Unit) (t : Tx) : onceIf h g act t = act t := by
  rw [onceIf, if_neg hl]

/-- An instruction whose body stops with a trap once a lane is active takes that trap. -/
theorem onceIf_traps {s : State} {h : Here} {a : TrapArea} {u : Uses} {g : Guard} {t : TrapInfo} {n stall : Nat}
    {body : Here → Act Unit} {i : Instr} (hx : exec i s = runZha n (issue n stall u fun h => onceIf h g (body h)) s)
    (hi : s.mayIssue h u) (hl : h.lanes g ≠ 0) (hm : s.mayTrap h a t.cause)
    (hb : body h (s.txPast h n stall) = .error (.trap t)) (hr : t.races = []) (hf : t.flags = 0)
    (hc : t.cause ≠ causeIllegal) : s.traps h i a t.cause t.data (trapResume h t n) := by
  refine (traps_of hx ?_ hm hr hf fun e => absurd e hc).1
  rw [issue_next hi, onceIf_run hl, hb]

/-- What does not look at slots and teams finds the chip after retirement as it was. -/
theorem Chip.retire_keeps {α : Type} (f : Chip → α) (hf : ∀ c S T, f { c with slots := S, teams := T } = f c) (c : Chip) (h : Here)
    (len stall now : Nat) : f (c.retire h len stall now) = f c :=
  calc f (c.retire h len stall now)
      = f { c.retire h len stall now with slots := c.slots, teams := c.teams } := (hf _ _ _).symm
    _ = f c := congrArg f (Chip.retire_rest c h len stall now c.slots c.teams)

theorem Chip.retire_ctx (c : Chip) (h : Here) (len stall now ctx : Nat) : (c.retire h len stall now).ctx ctx = c.ctx ctx :=
  Chip.retire_keeps (·.ctx ctx) (fun _ _ _ => rfl) c h len stall now

/-- Where nothing stands between homes and their bytes, an instruction reads them as memory holds them. -/
theorem homeNat_past {s : State} (hpart : ∀ e ∈ s.chip.cores, e.2.partials = []) (hlink : s.chip.link.retraining = none) (h : Here)
    (len stall pa n : Nat) : homeNat pa n (s.txPast h len stall) = .ok (Memory.nat s.mem pa n, s.txPast h len stall) := by
  refine homeNat_start ?_ ?_ pa n
  · rwa [Chip.retire_keeps Chip.cores fun _ _ _ => rfl]
  · rwa [Chip.retire_keeps Chip.link fun _ _ _ => rfl]

/-- Settles O16: the three calls by `onceIf_traps`, the unassigned encoding by `traps_of` with its words in the EMU block. -/
theorem trapInstructions : Obligations.TrapInstructions := by
  intro s h a
  refine ⟨fun f hl hi => ⟨fun hm => ?_, fun hm => ?_, fun hm hdbg => ?_⟩, fun f hm hbusy => ?_⟩
  · exact onceIf_traps (t := ⟨causeUser, f.code.toNat, 0, 0, 0, [], true, 0, 0⟩) rfl hi hl hm rfl rfl rfl
      (by decide : causeUser ≠ causeIllegal)
  · exact onceIf_traps (t := ⟨causePriv, 0x8000 + f.code.toNat % 2 ^ 15, 0, 0, 0, [], false, 0, 0⟩) rfl hi hl hm rfl rfl rfl
      (by decide : causePriv ≠ causeIllegal)
  · refine onceIf_traps (t := ⟨causeBkpt, f.code.toNat, 0, 0, 0, [], false, 0, 0⟩) rfl hi hl hm ?_ rfl rfl
      (by decide : causeBkpt ≠ causeIllegal)
    obtain ⟨-, -, ⟨hpart, -, -, hlink, -⟩, harea, -⟩ := id hm
    have hbit : bits (Memory.nat s.mem (a.pa + 0x20) 4) 0 1 ≠ 1 := by
      simp only [bits]
      omega
    simp only [bind_run, getChip_run, Chip.retire_ctx, harea, homeNat_past hpart hlink, pure_run, hbit, decide_false, Bool.false_eq_true,
      if_false, trap_run]
  · have hb : (do
        let _ ← here
        stop (.trap ⟨causeIllegal, 0, 0, 0, 0, [], false, f.w0, f.w1⟩) : Act Unit) s.tx =
          .error (.trap ⟨causeIllegal, 0, 0, 0, 0, [], false, f.w0, f.w1⟩) := by
      rw [bind_next (here_run hm.1), stop_run]
    exact traps_of (i := .unassignedEncoding f) rfl hb hm rfl rfl fun _ => hbusy

end Sys2Proof.Machine
end

section
/-! SWR, RCHK, PROG and YIELD (R46, R61, R164, R394, R420): each changes only its group and its team. -/

namespace Sys2Proof.Machine

/-- The acting group's slot stands in the chip after retirement, so that a group change that changes nothing adds nothing. -/
theorem Chip.retire_sameGroup (c : Chip) (h : Here) (len stall now : Nat) (ft : Team → Team) :
    ((c.retire h len stall now).modTeam h.tid ft).modGroup h.g (fun x => x) = (c.retire h len stall now).modTeam h.tid ft := by
  rw [← Chip.modTeam_modGroup, Chip.retire, Chip.modPath_eq, Chip.modGroup_modGroup]

/-- An instruction that may issue and whose body changes only its team. -/
theorem team_next {s : State} {h : Here} {u : Uses} {i : Instr} {n len stall : Nat} {body : Here → Act Unit}
    (hx : exec i s = runZha n (issue len stall u body) s) (hi : s.mayIssue h u) (ft : Team → Team)
    (hb : ∀ c : Chip, body h { s.tx with chip := c } = .ok ((), { s.tx with chip := c.modTeam h.tid ft })) :
    exec i s = .next (s.ended h len stall ft fun x => x) := by
  rw [hx, runZha_next ((issue_next hi len stall body).trans (hb _)), State.ended, Chip.retire_sameGroup]

section
variable {s : State} {h : Here}

theorem swr_fpctl {f : SwrF} (hl : h.lanes f.g ≠ 0) (hn : f.num = 0x018)
    (hi : s.mayIssue h { Uses.none with ss := [f.sa.toNat], ps := guardPs f.g }) :
    exec (.swr f) s = .next (s.ended h 8 f.stall.toNat (fun t => { t with
      fpctl := (h.s f.sa.toNat &&& 0x7FF) ||| (if t.raised.1 = s.clk then (t.raised.2.setWidth 32 : Word) <<< (6 : Nat) else 0) })
      fun x => x) := by
  cases f
  subst hn
  exact team_next rfl hi _ fun _ => (onceIf_run hl _ _).trans rfl

theorem swr_emunext {f : SwrF} (hl : h.lanes f.g ≠ 0) (hn : f.num = 0x034)
    (hi : s.mayIssue h { Uses.none with ss := [f.sa.toNat, f.sa.toNat + 1], ps := guardPs f.g }) :
    exec (.swr f) s = .next (s.ended h 8 f.stall.toNat sameTeam fun x =>
      { x with emu := { x.emu with next := h.pair f.sa.toNat } }) := by
  cases f
  subst hn
  exact group_next rfl hi _ fun _ => (onceIf_run hl _ _).trans rfl

/-- The former mode is an interlocked result, which a group without results still to be read takes as a plain write. -/
theorem rchk_swaps {f : RchkF} (hl : h.lanes f.g ≠ 0) (hi : s.mayIssue h { Uses.none with sd := [f.sd.toNat], ps := guardPs f.g }) :
    exec (.rchk f) s = .next (s.ended h 8 f.stall.toNat (fun t => { t with raceMode := f.mode }) fun x =>
      x.setS f.sd.toNat (h.team.raceMode.setWidth 32)) := by
  obtain ⟨ha, -, -, -, hz⟩ := id hi
  have hx := body_next (i := .rchk f) rfl hi (fun t => { t with raceMode := f.mode })
    (fun x => x.landS s.clk f.sd.toNat h.mask (h.team.raceMode.setWidth 32)) fun c => by
      rw [onceIf_run hl, ← Chip.modTeam_modGroup]
      rfl
  rw [hx, State.ended, Chip.land_setS (x := h.groupPast 8 f.stall.toNat s.clk)
    ((Chip.modTeam_group _ _ _ _).trans (Chip.retire_group (State.acts_eq ha).1 _ _ _)) (Here.groupPast_hazards hz _ _ _)]
  rfl

end

/-- Settles O15: SWR by its two numbers; RCHK, PROG and YIELD once the group has an active lane. -/
theorem specialWrites : Obligations.SpecialWrites := fun _ _ =>
  ⟨fun _ hl => ⟨swr_fpctl hl, swr_emunext hl⟩, fun _ hl hi => rchk_swaps hl hi,
    fun _ hl hi => team_next rfl hi _ fun _ => (onceIf_run hl _ _).trans rfl,
    fun _ hl hi => group_next rfl hi _ fun _ => (onceIf_run hl _ _).trans rfl⟩

end Sys2Proof.Machine
end

section
/-! SRD (R44, R61, R261, R406, R407): the value of a number goes to a vector register, a scalar or a pair of scalars. -/

namespace Sys2Proof.Machine

/-! ## Results of the whole group, by destination -/

/-- An instruction whose body is one write of a vector register without flags. -/
theorem writeV_gets {s : State} {h : Here} {u : Uses} {i : Instr} {n lat d : Nat} {F : Form} {body : Here → Act Unit}
    {tag : Nat → BitVec 4} {res : Nat → Nat} {w : Nat → VReg} (hx : exec i s = runZha n (issue F.len F.stall u body) s) (hi : s.mayIssue h u)
    (hb : body h (s.txPast h F.len F.stall) = writeV h lat F.stall d (h.lanes F.g) w (s.txPast h F.len F.stall))
    (hw : ∀ l, w l = ⟨BitVec.ofNat 32 (res l), tag l⟩) : s.lanesGet h i F d tag fun l => (res l, 0) := by
  let fg : Group → Group := fun x => x.wroteV s.clk lat F.stall d (h.lanes F.g) w
  have hsreg : ∀ x, (fg x).s = x.s := fun x => (Group.wroteV_rest x _ _ _ _ _ _).1
  have ⟨hpreg, hpaths⟩ : (∀ x, (fg x).p = x.p) ∧ ∀ x, (fg x).paths = x.paths :=
    forall_and.mp fun x => (Group.wroteV_rest x _ _ _ _ _ _).2
  refine ⟨_, retire_next (fg := fg) hx hi (hb.trans (writeV_run _ _ _ _ _ _ _)), State.ended_path hi.1 _ _ _ _ hpaths,
    fun l hl => ?_, State.ended_keeps hi.1 _ _ _ _ hpaths (fun x r l hl hr => ?_) (fun x r _ => ?_) (fun x r _ => ?_), ?_⟩
  · simp only [State.vreg, State.ended_group hi.1, (State.acts_eq hi.1).1, Option.map_some, Option.getD_some, fg,
      Group.wroteV_vreg _ _ _ _ _ _ _ _ _ hl, true_and, hw]
    rfl
  · exact (Group.wroteV_vreg _ _ _ _ _ _ _ _ _ hl).trans (if_neg fun e => hr (List.mem_singleton.mpr e.1))
  · simp only [Group.sreg, hsreg]
  · simp only [Group.preg, hpreg]
  · rw [flagsOf_none]
    exact State.ended_retired hi.1 _ _ _

/-- A group change of one scalar register and of what is not a register. -/
structure Group.changesS (r : Nat) (fg : Group → Group) : Prop where
  v : ∀ x, (fg x).v = x.v
  p : ∀ x, (fg x).p = x.p
  paths : ∀ x, (fg x).paths = x.paths
  other : ∀ x i, i ≠ r → (fg x).sreg i = x.sreg i

/-- An instruction whose body changes a pair of scalar registers, one after the other. -/
theorem pair_gets {s : State} {h : Here} {u : Uses} {i : Instr} {n len stall d : Nat} {v : Addr} {body : Here → Act Unit}
    {lo hi : Group → Group} (hx : exec i s = runZha n (issue len stall u body) s) (hm : s.mayIssue h u)
    (hb : body h (s.txPast h len stall) = .ok ((), { s.txPast h len stall with
      chip := ((s.txPast h len stall).chip.modGroup h.g lo).modGroup h.g hi }))
    (hlo : Group.changesS d lo) (hhi : Group.changesS (d + 1) hi) (hd : ∀ x : Group, x.hazards = [] → (hi (lo x)).spair d = v) :
    ∃ t, exec i s = .next t ∧ t.chip.path? h.g h.p = some (h.past len stall s.clk) ∧ t.spair h.g d = v ∧
      s.keepsBut t h [] [d, d + 1] [] ∧ s.retired t h 0 := by
  obtain ⟨ha, -, -, -, hz⟩ := id hm
  have hq : ∀ x, (hi (lo x)).paths = x.paths := fun x => (hhi.paths _).trans (hlo.paths x)
  rw [Chip.modGroup_modGroup] at hb
  refine ⟨_, retire_next hx hm hb, State.ended_path ha _ _ _ _ hq, ?_, State.ended_keeps ha _ _ _ _ hq (fun x r l _ _ => ?_)
    (fun x r hn => ?_) (fun x r _ => ?_), State.ended_retired ha _ _ _⟩
  · simp only [State.spair, State.sreg, State.ended_group ha, Option.map_some, Option.getD_some]
    exact hd _ (Here.groupPast_hazards hz _ _ _)
  · simp only [Group.vreg, hhi.v, hlo.v]
  · simp only [List.mem_cons, List.not_mem_nil, or_false, not_or] at hn
    exact (hhi.other _ r hn.2).trans (hlo.other x r hn.1)
  · simp only [Group.preg, hhi.p, hlo.p]

/-! ## Two scalar writes of one instruction -/

/-- A write of a scalar register that no outstanding write stands above. -/
theorem Group.wroteS_free {x : Group} {now lat stall r : Nat} {mask : BitVec 32} {v : Word}
    (hup : x.hazards.any (Hazard.above r (now + lat + 1) mask) = false) (i : Nat) :
    (x.wroteS now lat stall r mask v).sreg i = if i = r then v else x.sreg i := by
  unfold Group.wroteS
  simp only [hup, Bool.false_eq_true, if_false]
  exact Group.sreg_setS x r i v

/-- What a write to a quiet group leaves to be read is in its own register. -/
theorem Group.wroteS_hazards {x : Group} (hz : x.hazards = []) (now lat stall r : Nat) (mask : BitVec 32) (v : Word) :
    ∀ z ∈ (x.wroteS now lat stall r mask v).hazards, z.idx = r := by
  unfold Group.wroteS
  simp only [hz, List.any_nil, Bool.false_eq_true, if_false, Group.superseded, List.map_nil, List.filter_nil, List.append_nil]
  intro z hm
  split at hm
  · simp at hm
  · rw [List.mem_singleton.mp hm]

theorem Group.landS_other (x : Group) (now r : Nat) (mask : BitVec 32) (v : Word) (i : Nat) (hi : i ≠ r) :
    (x.landS now r mask v).sreg i = x.sreg i := by
  unfold Group.landS
  dsimp only
  split
  · rfl
  · exact (Group.sreg_setS x r i v).trans (if_neg hi)

theorem Group.wroteS_changes (now lat stall r : Nat) (mask : BitVec 32) (v : Word) :
    Group.changesS r fun x => x.wroteS now lat stall r mask v := by
  refine ⟨fun x => ?_, fun x => ?_, fun x => ?_, fun x => Group.wroteS_other x now lat stall r mask v⟩ <;>
    obtain ⟨hv, hp, hq⟩ := Group.wroteS_rest x now lat stall r mask v
  · exact hv
  · exact hp
  · exact hq

theorem Group.landS_changes (now r : Nat) (mask : BitVec 32) (v : Word) :
    Group.changesS r fun x => x.landS now r mask v := by
  refine ⟨fun x => ?_, fun x => ?_, fun x => ?_, fun x => Group.landS_other x now r mask v⟩ <;>
    obtain ⟨hv, hp, hq⟩ := Group.landS_rest x now r mask v
  · exact hv
  · exact hp
  · exact hq

theorem addr_halves (v : Addr) : v.extractLsb' 32 32 ++ v.extractLsb' 0 32 = v := by
  rw [BitVec.extractLsb'_append_extractLsb'_eq_extractLsb' (by omega)]
  simp

theorem Group.wroteS_spair {x : Group} (hz : x.hazards = []) (now lat stall r : Nat) (mask : BitVec 32) (v : Addr) :
    ((x.wroteS now lat stall r mask (v.extractLsb' 0 32)).wroteS now lat stall (r + 1) mask (v.extractLsb' 32 32)).spair r = v := by
  have hup : (x.wroteS now lat stall r mask (v.extractLsb' 0 32)).hazards.any (Hazard.above (r + 1) (now + lat + 1) mask) = false := by
    rw [List.any_eq_false]
    intro z hm
    simp [Hazard.above, Group.wroteS_hazards hz _ _ _ _ _ _ z hm]
  rw [Group.spair, Group.wroteS_free hup, if_pos rfl, Group.wroteS_free hup, if_neg (Nat.ne_of_lt r.lt_succ_self), Group.wroteS_sreg hz,
    if_pos rfl, addr_halves]

theorem Group.landS_spair {x : Group} (hz : x.hazards = []) (now r : Nat) (mask : BitVec 32) (v : Addr) :
    ((x.landS now r mask (v.extractLsb' 0 32)).landS now (r + 1) mask (v.extractLsb' 32 32)).spair r = v := by
  rw [Group.landS_quiet hz, Group.landS_quiet (x := x.setS r (v.extractLsb' 0 32)) hz, Group.spair, Group.sreg_setS, if_pos rfl,
    Group.sreg_setS, if_neg (Nat.ne_of_lt r.lt_succ_self), Group.sreg_setS, if_pos rfl, addr_halves]

/-! ## SRD -/

section
variable {s : State} {h : Here} {f : SrdF} {num : Nat}

/-- A number that reads as a value reads it where SRD stands. -/
abbrev State.reads (s : State) (h : Here) (f : SrdF) (num : Nat) (v : Special) : Prop :=
  special h (.srd f) num (s.txPast h 8 f.stall.toNat) = .ok (v, s.txPast h 8 f.stall.toNat)

theorem writePair_run (h : Here) (lat stall r : Nat) (v : Addr) (t : Tx) :
    (do
      writeS h lat stall r (v.extractLsb' 0 32)
      writeS h lat stall (r + 1) (v.extractLsb' 32 32) : Act Unit) t = .ok ((), { t with
        chip := (t.chip.modGroup h.g (Group.wroteS · t.clk lat stall r h.mask (v.extractLsb' 0 32))).modGroup h.g
          (Group.wroteS · t.clk lat stall (r + 1) h.mask (v.extractLsb' 32 32)) }) := rfl

theorem srd_vector {w : Nat → Word} (hl : h.lanes f.g ≠ 0) (hn : f.num.toNat = num) (hr : s.reads h f num (.narrow w)) (hv : f.vd = 1)
    (hi : s.mayIssue h { Uses.none with vd := [f.d.toNat], ps := guardPs f.g }) :
    s.lanesGet h (.srd f) (xForm f.stall f.g) f.d.toNat (fun _ => tagN32) fun l => ((w l).toNat, 0) := by
  subst hn
  cases f
  subst hv
  exact writeV_gets (F := xForm _ _) (lat := 2) (w := fun l => ⟨w l, tagN32⟩) rfl hi
    ((onceIf_run hl _ _).trans ((bind_next hr).trans rfl)) fun l => by rw [BitVec.ofNat_toNat, BitVec.setWidth_eq]

theorem srd_scalar {w : Nat → Word} (hl : h.lanes f.g ≠ 0) (hn : f.num.toNat = num) (hr : s.reads h f num (.narrow w)) (hv : f.vd = 0)
    (hi : s.mayIssue h { Uses.none with sd := [f.d.toNat], ps := guardPs f.g }) :
    s.scalarGets h (.srd f) (xForm f.stall f.g) f.d.toNat (w (lowLane h.mask)) := by
  subst hn
  cases f
  subst hv
  exact writeS_gets (F := xForm _ _) (lat := 2) rfl hi ((onceIf_run hl _ _).trans ((bind_next hr).trans rfl))

/-- The registers of 64 bits other than CLOCK come as two writes, the low half first. -/
theorem srd_pair {v : Addr} (hl : h.lanes f.g ≠ 0) (hn : f.num.toNat = num) (hr : s.reads h f num (.wide v)) (hc : num ≠ 0x010)
    (hv : f.vd = 0) (hi : s.mayIssue h { Uses.none with sd := [f.d.toNat], ps := guardPs f.g }) :
    ∃ t, exec (.srd f) s = .next t ∧ t.chip.path? h.g h.p = some (h.past 8 f.stall.toNat s.clk) ∧ t.spair h.g f.d.toNat = v ∧
      s.keepsBut t h [] [f.d.toNat, f.d.toNat + 1] [] ∧ s.retired t h 0 := by
  subst hn
  cases f
  subst hv
  exact pair_gets rfl hi
    ((onceIf_run hl _ _).trans ((bind_next hr).trans ((congrFun (if_neg hc) _).trans (writePair_run _ _ _ _ _ _))))
    (Group.wroteS_changes _ _ _ _ _ _) (Group.wroteS_changes _ _ _ _ _ _) fun x hz => Group.wroteS_spair hz _ _ _ _ _ _

/-- CLOCK comes as an interlocked pair. -/
theorem srd_clock (hl : h.lanes f.g ≠ 0) (hn : f.num.toNat = 0x010) (hv : f.vd = 0)
    (hi : s.mayIssue h { Uses.none with sd := [f.d.toNat], ps := guardPs f.g }) :
    ∃ t, exec (.srd f) s = .next t ∧ t.chip.path? h.g h.p = some (h.past 8 f.stall.toNat s.clk) ∧
      t.spair h.g f.d.toNat = BitVec.ofNat 64 s.clk ∧ s.keepsBut t h [] [f.d.toNat, f.d.toNat + 1] [] ∧ s.retired t h 0 := by
  have hr : s.reads h f f.num.toNat (.wide (BitVec.ofNat 64 s.clk)) := by
    rw [hn]
    rfl
  cases f
  subst hv
  exact pair_gets rfl hi
    ((onceIf_run hl _ _).trans ((bind_next hr).trans ((congrFun (if_pos hn) _).trans (setPair_run _ _ _ _))))
    (Group.landS_changes _ _ _ _) (Group.landS_changes _ _ _ _) fun x hz => Group.landS_spair hz _ _ _ _

/-- LVLk of a path. -/
theorem reads_level {k : Nat} (hk : k < 8) : s.reads h f (8 + k) (.narrow fun l => lvlWord h k l) := by
  have h1 : ¬ 8 + k ≥ 0x200 := by omega
  have h2 : (decide (0x008 ≤ 8 + k) && decide (8 + k ≤ 0x00F)) = true := by
    simp only [Bool.and_eq_true, decide_eq_true_eq]
    omega
  simp only [State.reads, special, h1, specialUser, h2, if_true, if_false, bind_run, getChip_run, pure_run, Nat.add_sub_cancel_left]

theorem reads_race : s.reads h f 0x040 (.narrow fun _ => h.team.raceMode.setWidth 32) := by
  rw [← BitVec.ofNat_toNat 32 h.team.raceMode]
  rfl

theorem reads_leasest : s.reads h f 0x048 (.narrow fun _ => s.chip.leasest h.grp) := by
  have hc : (s.chip.retire h 8 f.stall.toNat s.clk).leasest h.grp = s.chip.leasest h.grp :=
    Chip.retire_keeps (·.leasest h.grp) (fun _ _ _ => rfl) _ _ _ _ _
  rw [← hc]
  rfl

theorem Chip.retire_frameOff (c : Chip) (h : Here) (len stall now ctx g p level : Nat) :
    (c.retire h len stall now).frameOff ctx g p level = c.frameOff ctx g p level :=
  Chip.retire_keeps (·.frameOff ctx g p level) (fun _ _ _ => rfl) c h len stall now

theorem reads_trapFrame {v : Addr} (hv : trapFrame h (s.txPast h 8 f.stall.toNat) = .ok (v, s.txPast h 8 f.stall.toNat)) :
    s.reads h f 0x022 (.wide v) := by
  have huser : specialUser h 0x022 = (getChip >>= fun _ => trapFrame h >>= fun v => pure (some (.wide v))) := rfl
  have hread : specialUser h 0x022 (s.txPast h 8 f.stall.toNat) = .ok (some (.wide v), s.txPast h 8 f.stall.toNat) := by
    rw [huser, bind_next (getChip_run _), bind_next hv, pure_run]
  exact (bind_next hread).trans rfl

/-- TRAPFRAME is the frame window where the trap area names one, else the frame's place in the area. -/
theorem trapFrame_past {a : TrapArea} (ha : (s.chip.ctx h.ctx).area = some a) (hpart : ∀ e ∈ s.chip.cores, e.2.partials = [])
    (hlink : s.chip.link.retraining = none) (len stall : Nat) : trapFrame h (s.txPast h len stall) =
      .ok (if Memory.nat s.mem (a.pa + 0x28) 8 ≠ 0 then BitVec.ofNat 64 (Memory.nat s.mem (a.pa + 0x28) 8)
        else a.va + BitVec.ofNat 64 (s.chip.frameOff h.ctx h.g h.p (levelCode h.path.level)), s.txPast h len stall) := by
  simp only [trapFrame, frameWindow, bind_run, getChip_run, Chip.retire_ctx, ha, homeNat_past hpart hlink, Chip.retire_frameOff]
  split <;> rfl

/-- A supervisor's number that reads as a value, read at supervisor level. -/
theorem reads_sup {v : Special} (hsup : h.path.level = .supervisor) (hn : num ≥ 0x200)
    (hr : specialSup h num (s.txPast h 8 f.stall.toNat) = .ok (some v, s.txPast h 8 f.stall.toNat)) : s.reads h f num v := by
  rw [State.reads, special, if_pos hn, if_neg (not_not.mpr hsup)]
  exact (bind_next hr).trans rfl

theorem specialSup_area {a : TrapArea} (ha : (s.chip.ctx h.ctx).area = some a) :
    specialSup h 0x200 (s.txPast h 8 f.stall.toNat) = .ok (some (.wide a.va), s.txPast h 8 f.stall.toNat) := by
  simp only [specialSup, bind_run, getChip_run, Chip.retire_ctx, ha, pure_run]

theorem specialSup_frame {fr : Frame} (hf : h.path.supFrame = some fr) :
    specialSup h 0x204 (s.txPast h 8 f.stall.toNat) = .ok (some (.narrow fun _ =>
      BitVec.ofNat 32 ((if fr.nested then 1 else 0) + 2 * min 31 (deferredLate h.grp))), s.txPast h 8 f.stall.toNat) := by
  simp only [specialSup, hf, pure_run]

end

/-- Settles O14: each number by what `special` reads there, each destination by its law. -/
theorem specialReads : Obligations.SpecialReads := by
  intro s h f hl F d toV toS lanes word pair level
  have hlanes : ∀ {num : Nat} {w : Nat → Word}, s.reads h f num (.narrow w) → lanes num w := fun hr hn =>
    ⟨fun ⟨hv, hi⟩ => srd_vector hl hn hr hv hi, fun ⟨hv, hi⟩ => srd_scalar hl hn hr hv hi⟩
  have hpair : ∀ {num : Nat} {v : Addr}, num ≠ 0x010 → s.reads h f num (.wide v) → pair num v := fun hc hr hn ⟨hv, hi⟩ =>
    srd_pair hl hn hr hc hv hi
  have hclock : pair 0x010 (BitVec.ofNat 64 s.clk) := fun hn ⟨hv, hi⟩ => srd_clock hl hn hv hi
  exact ⟨hlanes rfl, hlanes rfl, hlanes rfl, hlanes rfl, hlanes rfl, hlanes rfl, hlanes rfl, hlanes rfl,
    fun k hk => hlanes (reads_level hk), hclock, hlanes rfl, hlanes rfl, hlanes rfl, hlanes rfl, hlanes rfl, hlanes rfl, hlanes rfl,
    hpair (by decide) rfl, hpair (by decide) rfl, hlanes rfl, hlanes rfl, hlanes rfl, hlanes rfl, hlanes rfl, hlanes reads_race,
    hpair (by decide) rfl, hlanes reads_leasest, hlanes rfl,
    fun a ha hpart hlink => hpair (by decide) (reads_trapFrame (trapFrame_past ha hpart hlink _ _)),
    fun hsup a ha => hpair (by decide) (reads_sup hsup (by decide) (specialSup_area ha)),
    fun hsup => hpair (by decide) (reads_sup hsup (by decide) rfl),
    fun hsup fr hf => hlanes (reads_sup hsup (by decide) (specialSup_frame hf))⟩

end Sys2Proof.Machine
end

section
/-! Loads and stores up to the point at which they issue (R52, R115, R258, R368, R404, R409): on the chip after retirement every check
passes, and the access joins the pending ones. -/

namespace Sys2Proof.Machine

/-! ## What retirement leaves as an access finds it -/

theorem Chip.retire_region (c : Chip) (h : Here) (len stall now : Nat) (a : Addr) : (c.retire h len stall now).region a = c.region a :=
  Chip.retire_keeps (·.region a) (fun _ _ _ => rfl) c h len stall now

theorem Chip.retire_hit (c : Chip) (h : Here) (len stall now core run ctx : Nat) (u : Use) (va : Nat) :
    (c.retire h len stall now).hit core run ctx u va = c.hit core run ctx u va :=
  Chip.retire_keeps (·.hit core run ctx u va) (fun _ _ _ => rfl) c h len stall now

theorem Chip.retire_poisoned (c : Chip) (h : Here) (len stall now pa n : Nat) :
    (c.retire h len stall now).poisoned pa n = c.poisoned pa n :=
  Chip.retire_keeps (·.poisoned pa n) (fun _ _ _ => rfl) c h len stall now

theorem Chip.retire_requestRoom (c : Chip) (h : Here) (len stall now core part n : Nat) :
    (c.retire h len stall now).requestRoom core part n = c.requestRoom core part n :=
  Chip.retire_keeps (·.requestRoom core part n) (fun _ _ _ => rfl) c h len stall now

theorem Chip.retire_pathLoads (c : Chip) (h : Here) (len stall now g p : Nat) :
    (c.retire h len stall now).pathLoads g p = c.pathLoads g p := by
  simp only [Chip.pathLoads, Chip.retire_groupOps]

/-! ## The steps of an issue -/

/-- With every pending access placed, no walk of an earlier store is left to do. -/
theorem walkEarlier_placed {t : Tx} (ht : ∀ e ∈ t.chip.memq, ∀ x ∈ e.lanes, x.bound = true) (who : Actor) (seq : Nat) :
    walkEarlier who seq t = .ok ((), t) := by
  have hnone : (t.chip.memq.filter fun e =>
      sameGroup e.who who && e.seq < seq && e.kind = .store && !e.lanes.all LaneAcc.bound) = [] := by
    rw [List.filter_eq_nil_iff]
    intro e he
    simp [List.all_eq_true.mpr (ht e he)]
  simp only [walkEarlier, bind_run, getChip_run, hnone, each_nil, pure_run]

theorem pushOp_run (o : MemOp) (t : Tx) : pushOp o t = .ok (t.chip.seq, { t with chip := t.chip.posted o }) := rfl

theorem blockIf_open {h : Here} (hm : h.team.raceMode ≠ 2) (seq : Nat) : blockIf h seq = pure () := if_neg hm

theorem countMem_unsampled {s : State} {h : Here} {t : Tx} (hu : s.unsampled h) (ht : t.chip.ctxs = s.chip.ctxs) (n : Nat)
    (ls : List (Nat × Addr)) (seq : Option Nat) : countMem h n ls seq t = .ok ((), t) := by
  have hu' : (t.chip.ctx h.ctx).sample = none := by
    rw [Chip.ctx, ht]
    exact hu
  simp only [countMem, bind_run, getChip_run, hu', pure_run]

theorem checkIndices_ok {m : MemForm} {h : Here}
    (hx : ∀ r, m.vi = some r → ∀ l, l < 32 → laneBit (h.lanes m.form.g) l → (indexOf (h.v r l)).isSome) :
    m.checkIndices h = pure () := by
  unfold MemForm.checkIndices
  cases hv : m.vi with
  | none => rfl
  | some r =>
    have hnone : (lanesOf (h.lanes m.form.g)).find? (fun i => (indexOf (h.v r i)).isNone) = none := by
      rw [List.find?_eq_none]
      intro i hm
      obtain ⟨h1, h2⟩ := (mem_lanesOf _ _).mp hm
      simp [Option.isSome_iff_ne_none.mp (hx r hv i h1 h2)]
    simp only [checkIndex, hnone]

theorem checkTyped_ok {m : MemForm} {h : Here}
    (ht : 5 ≤ m.ty → ∀ l, l < 32 → laneBit (h.lanes m.form.g) l → (h.v m.vt l).tag = m.type.tag) :
    m.checkTyped h = pure () := by
  unfold MemForm.checkTyped
  split
  · rfl
  · next hty =>
    have hnone : (lanesOf (h.lanes m.form.g)).find? (fun i => (h.v m.vt i).tag ≠ m.type.tag) = none := by
      rw [List.find?_eq_none]
      intro i hm
      obtain ⟨h1, h2⟩ := (mem_lanesOf _ _).mp hm
      simp [ht (Nat.le_of_not_lt hty) i h1 h2]
    simp only [hnone]

/-- Lanes bound to memory without poison in them. -/
theorem lanePoison_none {c : Chip} {n : Nat} {ls : List (Nat × Addr)} {pa : Nat → Nat}
    (hp : ∀ l ∈ ls, c.poisoned (pa l.1) n = false) :
    (placedLanes ls pa).find? (c.lanePoison n) = none := by
  rw [List.find?_eq_none]
  intro x hx
  obtain ⟨l, hl, rfl⟩ := List.mem_map.mp hx
  simp [Chip.lanePoison, lane0, hp l hl]

section
variable {s : State} {h : Here} {u : Use} {n : Nat} {ls : List (Nat × Addr)} {pa : Nat → Nat}

theorem checkSpaces_past (hr : s.reaches h u n ls pa) (fu : FormUse) (len stall : Nat) :
    checkSpaces h fu n ls (s.txPast h len stall) = .ok ((), s.txPast h len stall) :=
  checkSpaces_global hr.1 (Chip.retire_keeps Chip.ctxs (fun _ _ _ => rfl) ..) (Chip.retire_keeps Chip.cores (fun _ _ _ => rfl) ..)
    (Chip.retire_keeps Chip.link (fun _ _ _ => rfl) ..) rfl rfl (fun l hl => (Chip.retire_region ..).trans (hr.2 l hl).1) fu n

theorem bindLanes_past (hr : s.reaches h u n ls pa) (late : Bool) (len stall : Nat) :
    bindLanes h u late n ls (s.txPast h len stall) = .ok (placedLanes ls pa, s.txPast h len stall) :=
  bindLanes_global hr.1 (Chip.retire_keeps Chip.ctxs (fun _ _ _ => rfl) ..) (Chip.retire_keeps Chip.cores (fun _ _ _ => rfl) ..)
    (Chip.retire_keeps Chip.link (fun _ _ _ => rfl) ..) rfl rfl u late n pa ls fun l hl =>
      have ⟨hregion, _, hhit⟩ := hr.2 l hl
      ⟨(Chip.retire_region ..).trans hregion, (Chip.retire_hit ..).trans hhit⟩

theorem checkAlign_reaches (hr : s.reaches h u n ls pa) : checkAlign n ls = pure () :=
  checkAlign_ok fun l hl =>
    have ⟨_, halign, _⟩ := hr.2 l hl
    halign

end

/-! ## Loads -/

section
variable {s : State} {h : Here} {pa : Nat → Nat} {ls : List (Nat × Addr)}

/-- A load whose lanes pass every check joins the pending accesses. -/
theorem issueLoad_past {o : MemOp} (hw : s.walked) (hu : s.unsampled h) (hm : h.team.raceMode ≠ 2)
    (hr : s.reaches h (Use.load h.user) o.size ls pa) (hp : ∀ l ∈ ls, s.chip.poisoned (pa l.1) o.size = false)
    (hroom : s.hasRoom h { o with lanes := placedLanes ls pa }) (len stall : Nat) :
    issueLoad h o ls (s.txPast h len stall) = .ok ((), { s.tx with
      chip := (s.chip.retire h len stall s.clk).posted { o with lanes := placedLanes ls pa } }) := by
  have hwalk : ∀ e ∈ (s.txPast h len stall).chip.memq, ∀ x ∈ e.lanes, x.bound = true := by
    rw [Chip.retire_memq]
    exact hw
  have hpoison := lanePoison_none (c := s.chip.retire h len stall s.clk) (n := o.size) (ls := ls) (pa := pa) fun l hl =>
    (Chip.retire_poisoned ..).trans (hp l hl)
  have hroom' : (s.chip.retire h len stall s.clk).requestRoom (slotCore h.g) (slotPart h.g)
      { o with lanes := placedLanes ls pa }.lines = true := (Chip.retire_requestRoom ..).trans hroom
  unfold issueLoad
  rw [bind_next (checkSpaces_past hr _ len stall), checkAlign_reaches hr, bind_next (pure_run _ _),
    bind_next (bindLanes_past hr false len stall), bind_next (getChip_run _), bind_next (walkEarlier_placed hwalk _ _),
    bind_next (getChip_run _)]
  simp only [hpoison, ite_self, awaitRequests, bind_run, getChip_run, hroom', if_true, pure_run, pushOp_run, blockIf_open hm]
  exact countMem_unsampled hu (Chip.retire_keeps Chip.ctxs (fun _ _ _ => rfl) ..) _ _ _

theorem awaitReplayRoom_past (h8 : (s.chip.pathLoads h.g h.p).length < 8) (len stall : Nat) :
    awaitReplayRoom h.g h.p (s.txPast h len stall) = .ok ((), s.txPast h len stall) := by
  simp only [awaitReplayRoom, bind_run, getChip_run, Chip.retire_pathLoads, h8, if_true, pure_run]

/-- A load of either kind whose lanes pass every check issues. -/
theorem load_issues {i : Instr} {u : Uses} {g : Guard} {len stall n : Nat} {o : MemOp} {pre : Here → Act Unit} {mk : Here → MemOp}
    {addrs : Here → List (Nat × Addr)}
    (hx : exec i s = runZha n (issue len stall u fun h => onceIf h g (do
      awaitReplayRoom h.g h.p
      pre h
      issueLoad h (mk h) (addrs h))) s)
    (hi : s.mayIssue h u) (hl : h.lanes g ≠ 0) (hpre : pre h = pure ()) (hw : s.walked) (hu : s.unsampled h)
    (hm : h.team.raceMode ≠ 2) (h8 : (s.chip.pathLoads h.g h.p).length < 8) (hr : s.reaches h (Use.load h.user) (mk h).size (addrs h) pa)
    (hp : ∀ l ∈ addrs h, s.chip.poisoned (pa l.1) (mk h).size = false)
    (ho : { mk h with lanes := placedLanes (addrs h) pa } = o) (hroom : s.hasRoom h o) :
    exec i s = .next { s with chip := (s.chip.retire h len stall s.clk).posted o } := by
  subst ho
  refine exec_issued hx hi ((onceIf_run hl _ _).trans ?_)
  rw [bind_next (awaitReplayRoom_past h8 len stall), hpre, bind_next (pure_run _ _)]
  exact issueLoad_past hw hu hm hr hp hroom len stall

end

/-- Settles O17: LD checks its index registers first, SLD has none; then both are one issue. -/
theorem globalLoads : Obligations.GlobalLoads := by
  intro s h pa _ hw hu hm h8 goes wide one
  have hwide : ∀ {i : Instr} {m : MemForm} {n : Nat}, exec i s = runZha n (loadOp i m) s → wide i m :=
    fun hx hix hi hl hr hp hroom => load_issues hx hi hl (checkIndices_ok hix) hw hu hm h8 hr hp rfl hroom
  have hone : ∀ {i : Instr} {m : MemForm} {n : Nat}, exec i s = runZha n (sloadOp i m) s → one i m :=
    fun hx hi hl hr hp hroom => load_issues (pre := fun _ => pure ()) hx hi hl rfl hw hu hm h8 hr hp rfl hroom
  exact ⟨fun f => hwide (n := 4) rfl, fun f => hwide (n := 8) rfl, fun f => hone (n := 4) rfl, fun f => hone (n := 8) rfl⟩

/-! ## Stores -/

theorem MemOp.lines_data (o : MemOp) (xs : List LaneAcc) (f : LaneAcc → Nat) :
    MemOp.lines { o with lanes := xs.map fun x => { x with data := f x } } = MemOp.lines { o with lanes := xs } := by
  simp only [MemOp.lines, List.filter_map, List.flatMap_map]
  rfl

section
variable {s : State} {h : Here} {pa : Nat → Nat} {ls : List (Nat × Addr)}

/-- A release that crosses no multiple of 2^14 publishes the group's clock; any other store publishes nothing. -/
theorem publishIf_run {t : Tx} {g : Nat} {rel : Bool} (hc : rel = true → ((t.chip.slot g).clock + 1).toNat % 2 ^ 14 ≠ 0) :
    publishIf g rel t = .ok ((), { t with chip := t.chip.published g rel }) := by
  cases rel with
  | false => rfl
  | true =>
    simp only [publishIf, publish, if_true, bind_run, getChip_run, hc rfl, decide_false, Bool.false_and, Bool.false_eq_true, if_false,
      modSlot_run, modGroup_run, Bool.or_false, pure_run]
    rfl

theorem Chip.slot_clock_modGroup (c : Chip) (g k : Nat) (f : Group → Group) : ((c.modGroup g f).slot k).clock = (c.slot k).clock := by
  unfold Chip.modGroup
  split
  · by_cases hk : k = g
    · subst hk
      simp [Chip.setGroup]
    · simp [Chip.setGroup, Chip.slot_setSlot, hk]
  · rfl

theorem Chip.retire_clock (c : Chip) (h : Here) (len stall now g : Nat) :
    ((c.retire h len stall now).slot g).clock = (c.slot g).clock := by
  simp only [Chip.retire, Chip.modPath, Chip.slot_clock_modGroup]
  rfl

theorem Chip.published_ctxs (c : Chip) (g : Nat) (rel : Bool) : (c.published g rel).ctxs = c.ctxs := by
  unfold Chip.published
  split
  · simp
  · rfl

/-- A store's data, clock and request-table entries are taken, and it joins the pending accesses. -/
theorem storeQueues_past {o : MemOp} {xs : List LaneAcc} (d : LaneAcc → Nat) (hu : s.unsampled h) (hm : h.team.raceMode ≠ 2)
    (len stall : Nat) (hc : o.rel = true → ((s.chip.slot h.g).clock + 1).toNat % 2 ^ 14 ≠ 0)
    (hroom : s.hasRoom h { o with lanes := xs.map fun x => { x with data := d x } }) :
    (do
      awaitRequests h.g o.size xs o
      publishIf h.g o.rel
      let seq ← pushOp { o with lanes := xs.map fun x => { x with data := d x } }
      blockIf h seq
      countMem h o.size ls (some seq) : Act Unit) (s.txPast h len stall) = .ok ((), { s.tx with
        chip := ((s.chip.retire h len stall s.clk).published h.g o.rel).posted
          { o with lanes := xs.map fun x => { x with data := d x } } }) := by
  have hroom' : (s.chip.retire h len stall s.clk).requestRoom (slotCore h.g) (slotPart h.g) (MemOp.lines { o with lanes := xs }) = true :=
    (Chip.retire_requestRoom ..).trans ((congrArg (s.chip.requestRoom _ _) (MemOp.lines_data o xs d).symm).trans hroom)
  have hpub : o.rel = true → (((s.txPast h len stall).chip.slot h.g).clock + 1).toNat % 2 ^ 14 ≠ 0 := by
    rwa [Chip.retire_clock]
  have hctxs : (((s.chip.retire h len stall s.clk).published h.g o.rel).posted { o with lanes := xs.map fun x =>
      { x with data := d x } }).ctxs = s.chip.ctxs :=
    (Chip.published_ctxs ..).trans (Chip.retire_keeps Chip.ctxs (fun _ _ _ => rfl) ..)
  have hwait : awaitRequests h.g o.size xs o (s.txPast h len stall) = .ok ((), s.txPast h len stall) := by
    simp only [awaitRequests, bind_run, getChip_run, hroom', if_true, pure_run]
  rw [bind_next hwait, bind_next (publishIf_run hpub), bind_next (pushOp_run _ _), blockIf_open hm, bind_next (pure_run _ _)]
  exact countMem_unsampled hu hctxs _ _ _

/-- The lanes of a store with the bytes of its registers. -/
abbrev MemForm.dataLanes (m : MemForm) (h : Here) (pa : Nat → Nat) : List LaneAcc :=
  (placedLanes (m.addrs h) pa).map fun x => { x with data := fromLE (h.grp.laneBytes m.vt m.type.regs m.type.size x.lane) }

/-- A store whose lanes pass every check retires into the store queue. -/
theorem store_issues {i : Instr} {m : MemForm} {n : Nat} (hx : exec i s = runZha n (storeOp i m) s) (hi : s.mayIssue h (m.uses true))
    (hl : h.lanes m.form.g ≠ 0) (hc : m.sync = true → (h.slot.clock + 1).toNat % 2 ^ 14 ≠ 0)
    (hix : m.checkIndices h = pure ()) (hty : m.checkTyped h = pure ()) (hu : s.unsampled h) (hm : h.team.raceMode ≠ 2)
    (hr : s.reaches h (Use.store h.user) m.type.size (m.addrs h) pa) {o : MemOp}
    (ho : { MemOp.at_ h i with kind := .store, size := m.type.size, rel := m.sync, scope := m.scope } = o)
    (hroom : s.hasRoom h { o with lanes := m.dataLanes h pa }) :
    exec i s = .next (s.onward h m.form fun c => (c.published h.g m.sync).posted { o with lanes := m.dataLanes h pa }) := by
  obtain ⟨hg, -, -, -, -, -, -, -, hslot⟩ := Chip.here_eq hi.1
  subst ho
  have hqueue := storeQueues_past (ls := m.addrs h) (fun x => fromLE (h.grp.laneBytes m.vt m.type.regs m.type.size x.lane)) hu hm
    m.form.len m.form.stall (hg ▸ hslot ▸ hc) hroom
  refine exec_issued hx hi ((onceIf_run hl _ _).trans ?_)
  rw [hty, bind_next (pure_run _ _), hix, bind_next (pure_run _ _)]
  refine (bind_next (checkSpaces_past hr _ _ _)).trans ?_
  rw [checkAlign_reaches hr, bind_next (pure_run _ _), bind_next (bindLanes_past hr true _ _)]
  exact hqueue

end

/-- Settles O18: every form of ST is one issue into the store queue. -/
theorem globalStores : Obligations.GlobalStores := by
  intro s h pa _ _ hu hm goes
  have hgo : ∀ {i : Instr} {m : MemForm} {n : Nat}, exec i s = runZha n (storeOp i m) s → goes i m :=
    fun hx hi hl hc hix hty hr hroom => store_issues hx hi hl hc (checkIndices_ok hix) (checkTyped_ok hty) hu hm hr rfl hroom
  exact ⟨fun f => hgo (n := 4) rfl, fun f => hgo (n := 8) rfl⟩

end Sys2Proof.Machine
end

section
/-! A load's data returns (R64, R367, R368, R404): judged at its home with the race mode OFF, read, and written to its registers. -/

namespace Sys2Proof.Machine

/-! ## Walking lists -/

theorem each_map {α β : Type} (f : α → β) (k : β → Act Unit) (xs : List α) : each (xs.map f) k = each xs fun x => k (f x) := by
  induction xs with
  | nil => rfl
  | cons x r ih => simp only [List.map_cons, each_cons, ih]

/-- What every step of a walk keeps, the walk keeps. -/
theorem each_preserves {α : Type} {f : α → Act Unit} {P : Tx → Prop}
    (hf : ∀ x t, P t → ∃ u, f x t = .ok ((), u) ∧ P u) (xs : List α) {t : Tx} (ht : P t) : ∃ u, each xs f t = .ok ((), u) ∧ P u := by
  induction xs generalizing t with
  | nil => exact ⟨t, rfl, ht⟩
  | cons x r ih =>
    obtain ⟨u, hu, hP⟩ := hf x t ht
    rw [each_cons, bind_next hu]
    exact ih hP

/-! ## Judgement at the home -/

theorem filter_space {xs : List LaneAcc} (hx : ∀ x ∈ xs, x.space = .memory) :
    xs.filter (fun x => x.space ≠ .opm) = xs ∧ xs.filter (fun x => x.space = .opm) = [] := by
  constructor
  · exact List.filter_eq_self.mpr fun x hm => by simp [hx x hm]
  · exact List.filter_eq_nil_iff.mpr fun x hm => by simp [hx x hm]

/-- The granules that lanes of an access touch, each once. -/
def MemOp.grans (o : MemOp) (c : Chip) (xs : List LaneAcc) : List Gran := distinct ((lanesGrans c o.size xs).map Prod.snd)

/-- An access as its home judges it. -/
abbrev MemOp.access (o : MemOp) (kind : Nat) (sync write : Bool) : Access := ⟨o.who, kind, sync, o.scope, write⟩

/-- The lanes of an access that share a granule. -/
def granMask (gs : GranLanes) (g : Gran) : Nat := (gs.filter fun x => x.2 = g).foldl (fun n x => n ||| 2 ^ x.1) 0

/-- With the race mode OFF every granule of global lanes is judged ORDERED, and nothing changes. -/
theorem judgeLanes_off {o : MemOp} {kind : Nat} {sync write : Bool} {xs : List LaneAcc} {t : Tx} (hm : o.who.mode = 0)
    (hp : ∀ e ∈ t.chip.cores, e.2.partials = []) (hx : ∀ x ∈ xs, x.space = .memory) :
    judgeLanes o kind sync write xs t = .ok ([(o.access kind sync write, lanesGrans t.chip o.size xs,
      (o.grans t.chip xs).map fun g => (g, ⟨0, false, 0, 0⟩, granMask (lanesGrans t.chip o.size xs) g)),
      (o.access (if write then 11 else kind) sync write, [], [])], t) := by
  obtain ⟨h1, h2⟩ := filter_space hx
  unfold judgeLanes
  rw [bind_next (getChip_run t), h1, h2]
  refine (bind_next (judgeAll_off (a := o.access kind sync write) hm hp _)).trans ?_
  exact bind_next (judgeAll_off (a := o.access (if write then 11 else kind) sync write) hm hp _)

/-- With the race mode OFF an access of global lanes performs at its home on the granules that it touches. -/
theorem atHome_off {o : MemOp} {kind : Nat} {sync write : Bool} {xs : List LaneAcc} {perform : List (Access × Gran) → Act Unit}
    {t : Tx} (hm : o.who.mode = 0) (hp : ∀ e ∈ t.chip.cores, e.2.partials = []) (hx : ∀ x ∈ xs, x.space = .memory) :
    atHome o kind sync write xs perform t = perform ((o.grans t.chip xs).map fun g => (o.access kind sync write, g)) t := by
  have hnil (a : Access) : verdictRecs a [] = [] := rfl
  unfold atHome
  rw [bind_next (judgeLanes_off hm hp hx)]
  simp only [List.flatMap_cons, List.flatMap_nil, verdictRecs_off, hnil, List.append_nil, List.findSome?_cons, List.findSome?_nil,
    raceTrap_off (a := o.access _ _ _) hm, each_nil, bind_run, pure_run, List.map_map, List.map_nil]
  rfl

theorem MemOp.grans_global {o : MemOp} {c : Chip} {xs : List LaneAcc} (hx : ∀ x ∈ xs, x.space = .memory) :
    ∀ g ∈ o.grans c xs, g.core = none := by
  intro g hg
  obtain ⟨e, he, rfl⟩ := List.mem_map.mp (distinct_sub hg)
  obtain ⟨x, hm, he⟩ := List.mem_flatMap.mp he
  rw [laneGrans, hx x hm] at he
  obtain ⟨k, -, rfl⟩ := List.mem_map.mp he
  rfl

/-! ## Changes of slots alone -/

/-- A transaction that writes no memory and changes slots alone, not the registers of a group, and parks nobody. -/
structure Tx.keepsRegs (t u : Tx) (g : Nat) : Prop where
  rest : u = { t with chip := { t.chip with slots := u.chip.slots } }
  regs : (u.chip.group? g).map (fun x => (x.v, x.s, x.p)) = (t.chip.group? g).map fun x => (x.v, x.s, x.p)
  nobody : t.chip.parkedSides = [] → u.chip.parkedSides = []

theorem Tx.keepsRegs_refl (t : Tx) (g : Nat) : t.keepsRegs t g := ⟨rfl, rfl, id⟩

theorem Tx.keepsRegs_trans {t u v : Tx} {g : Nat} (h : t.keepsRegs u g) (h' : u.keepsRegs v g) : t.keepsRegs v g := by
  obtain ⟨e1, r1, n1⟩ := h
  obtain ⟨e2, r2, n2⟩ := h'
  exact ⟨by rw [e2, e1], r2.trans r1, fun h0 => n2 (n1 h0)⟩

theorem Chip.modGroup_slots (c : Chip) (g : Nat) (f : Group → Group) : c.modGroup g f = { c with slots := (c.modGroup g f).slots } := by
  unfold Chip.modGroup
  split <;> rfl

theorem Tx.keepsRegs_modGroup (t : Tx) (g : Nat) {f : Group → Group} (hr : Group.regsStay f) (hs : ∀ x, Group.staysAwake f x) :
    t.keepsRegs { t with chip := t.chip.modGroup g f } g := by
  refine ⟨congrArg (fun c => { t with chip := c }) (Chip.modGroup_slots t.chip g f), ?_,
    fun h0 => Chip.modGroup_nobody h0 fun x _ => hs x⟩
  simp only [Chip.group_modGroup_same, Option.map_map]
  congr 1
  funext x
  obtain ⟨hv, hsr, hp⟩ := hr x
  simp [hv, hsr, hp]

/-- Two groups with the same paths, team and predicates. -/
def Group.sameBody (x y : Group) : Prop := y.paths = x.paths ∧ y.tid = x.tid ∧ y.p = x.p

theorem Group.staysAwake_sameBody {f : Group → Group} {x : Group} (h : x.sameBody (f x)) : Group.staysAwake f x := by
  obtain ⟨hp, ht, -⟩ := h
  refine ⟨ht, fun hx e he => hx e ?_⟩
  rwa [← hp]

/-- What a read leaves in its group's checker changes no register. -/
theorem rememberLoad_keeps (who : Actor) (g : Gran) (t : Tx) : ∃ u, rememberLoad who g t = .ok ((), u) ∧ t.keepsRegs u who.slot := by
  unfold rememberLoad
  simp only [bind_run, getChip_run]
  split
  · cases hr : t.chip.findRec g with
    | none => exact ⟨t, rfl, Tx.keepsRegs_refl t _⟩
    | some r =>
      have hsame (x : Group) {b : Bool} {l : List (Option SyncRec)} : ∃ l', (if b then x else { x with acqLoads := l }) =
          { x with acqLoads := l' } := by
        cases b
        · exact ⟨l, rfl⟩
        · exact ⟨x.acqLoads, rfl⟩
      refine ⟨_, rfl, Tx.keepsRegs_modGroup t _ (fun x => ?_) fun x => Group.staysAwake_sameBody ?_⟩
      · obtain ⟨l, hl⟩ := hsame x
        rw [hl]
        exact ⟨rfl, rfl, rfl⟩
      · obtain ⟨l, hl⟩ := hsame x
        rw [hl]
        exact ⟨rfl, rfl, rfl⟩
  · exact ⟨t, rfl, Tx.keepsRegs_refl t _⟩

/-- A path whose check has returned changes no register and stays as awake as it was. -/
theorem unblock_keeps (who : Actor) (seq : Nat) (t : Tx) : ∃ u, unblock who seq t = .ok ((), u) ∧ t.keepsRegs u who.slot := by
  unfold unblock
  simp only [bind_run, getChip_run]
  split
  · refine ⟨_, rfl, Tx.keepsRegs_modGroup t _ (fun x => ⟨rfl, rfl, rfl⟩) fun x => ⟨rfl, fun hx e he => ?_⟩⟩
    obtain ⟨y, hy, rfl⟩ := List.mem_map.mp he
    dsimp only
    split
    · exact hx y hy
    · exact hx y hy
  · exact ⟨t, rfl, Tx.keepsRegs_refl t _⟩

/-- A plain load learns nothing but what an acquire may merge later. -/
theorem readLearns_keeps {o : MemOp} (ha : o.acq = false) (gs : List Gran) (t : Tx) :
    ∃ u, readLearns o gs t = .ok ((), u) ∧ t.keepsRegs u o.who.slot := by
  have hg : readLearns o gs = each gs (rememberLoad o.who) := by
    rw [readLearns, ha]
    rfl
  rw [hg]
  refine each_preserves (P := fun u => t.keepsRegs u o.who.slot) (fun g v hv => ?_) gs (Tx.keepsRegs_refl t _)
  obtain ⟨u, hu, hk⟩ := rememberLoad_keeps o.who g v
  exact ⟨u, hu, Tx.keepsRegs_trans hv hk⟩

/-- Where no run is traced, no read is recorded. -/
theorem traceLane_untraced {t : Tx} (ht : ∀ e ∈ t.chip.runs, e.2.traced = false) {x : LaneAcc} (hx : x.space = .memory)
    (tid n : Nat) : traceLane tid n x t = .ok ((), t) := by
  have hno : t.chip.teamTraced tid = false := by
    unfold Chip.teamTraced
    split
    · next r hr =>
      obtain ⟨y, -, hy⟩ := Option.bind_eq_some_iff.mp hr
      exact ht _ (mget_mem hy)
    · rfl
  simp only [traceLane, hx, traceRead, bind_run, getChip_run, hno, Bool.false_and, Bool.false_eq_true, if_false, pure_run]

/-! ## Loaded bytes in registers (R367) -/

/-- A register's bytes of what a lane has loaded, zero-extended. -/
def loadedWord (bs : List Byte) (k : Nat) : Word := BitVec.ofNat 32 (fromLE ((bs.drop (4 * k)).take 4))

theorem Group.landV_vreg (x : Group) (r i : Nat) (v : VReg) (r' l : Nat) (hi : i < 32) (hl : l < 32) :
    (x.landV r i v).vreg r' l = if r' = r ∧ l = i then v else x.vreg r' l :=
  Group.vreg_setV (x.superseded .vector r (BitVec.ofNat 32 (2 ^ i))) r i v r' l hi hl

theorem Group.setLane_succ (x : Group) (vt n : Nat) (tag : BitVec 4) (i : Nat) (bs : List Byte) :
    x.setLane vt (n + 1) tag i bs = (x.setLane vt n tag i bs).landV (vt + n) i ⟨loadedWord bs n, tag⟩ := by
  simp only [Group.setLane, List.range_succ, List.foldl_append, List.foldl_cons, List.foldl_nil]
  rfl

/-- A lane's registers take the loaded bytes in order, and no other register changes. -/
theorem Group.setLane_vreg (x : Group) (vt n : Nat) (tag : BitVec 4) (i : Nat) (bs : List Byte) (r l : Nat) (hi : i < 32) (hl : l < 32) :
    (x.setLane vt n tag i bs).vreg r l = if l = i ∧ vt ≤ r ∧ r < vt + n then ⟨loadedWord bs (r - vt), tag⟩ else x.vreg r l := by
  induction n with
  | zero => exact (if_neg (by omega)).symm
  | succ n ih =>
    rw [Group.setLane_succ, Group.landV_vreg _ _ _ _ _ _ hi hl, ih]
    by_cases hr : r = vt + n
    · subst hr
      simp only [true_and, Nat.le_add_right, Nat.lt_succ_self, Nat.add_sub_cancel_left, Nat.lt_irrefl, and_false, if_false,
        ← Nat.add_assoc, and_true]
    · have : (r < vt + (n + 1)) ↔ r < vt + n := by omega
      simp only [hr, false_and, if_false, this]

theorem Group.setLane_keeps (x : Group) (vt n : Nat) (tag : BitVec 4) (i : Nat) (bs : List Byte) :
    x.sameBody (x.setLane vt n tag i bs) ∧ (x.setLane vt n tag i bs).s = x.s := by
  induction n with
  | zero => exact ⟨⟨rfl, rfl, rfl⟩, rfl⟩
  | succ n ih =>
    rw [Group.setLane_succ]
    exact ih

/-- The lanes of a load, one after the other. -/
def Group.setLanes (x : Group) (vt n : Nat) (tag : BitVec 4) (bs : List (Nat × List Byte)) : Group :=
  bs.foldl (fun x b => x.setLane vt n tag b.1 b.2) x

theorem Group.setLanes_keeps (x : Group) (vt n : Nat) (tag : BitVec 4) (bs : List (Nat × List Byte)) :
    x.sameBody (x.setLanes vt n tag bs) ∧ (x.setLanes vt n tag bs).s = x.s := by
  induction bs generalizing x with
  | nil => exact ⟨⟨rfl, rfl, rfl⟩, rfl⟩
  | cons b r ih =>
    obtain ⟨⟨p1, t1, q1⟩, s1⟩ := Group.setLane_keeps x vt n tag b.1 b.2
    obtain ⟨⟨p2, t2, q2⟩, s2⟩ := ih (x.setLane vt n tag b.1 b.2)
    exact ⟨⟨p2.trans p1, t2.trans t1, q2.trans q1⟩, s2.trans s1⟩

theorem Group.setLanes_other {vt n : Nat} {tag : BitVec 4} {bs : List (Nat × List Byte)} (hb : ∀ b ∈ bs, b.1 < 32) (x : Group)
    {r l : Nat} (hl : l < 32) (ho : r < vt ∨ vt + n ≤ r ∨ l ∉ bs.map Prod.fst) : (x.setLanes vt n tag bs).vreg r l = x.vreg r l := by
  induction bs generalizing x with
  | nil => rfl
  | cons b bs ih =>
    simp only [List.map_cons, List.mem_cons, not_or] at ho
    refine (ih (fun e he => hb e (List.mem_cons_of_mem _ he)) (x.setLane vt n tag b.1 b.2) (by tauto)).trans ?_
    rw [Group.setLane_vreg _ _ _ _ _ _ _ _ (hb b List.mem_cons_self) hl, if_neg]
    omega

theorem Group.setLanes_vreg {vt n : Nat} {tag : BitVec 4} {bs : List (Nat × List Byte)} (hb : ∀ b ∈ bs, b.1 < 32)
    (hd : (bs.map Prod.fst).Nodup) (x : Group) {b : Nat × List Byte} (hm : b ∈ bs) {k : Nat} (hk : k < n) :
    (x.setLanes vt n tag bs).vreg (vt + k) b.1 = ⟨loadedWord b.2 k, tag⟩ := by
  induction bs generalizing x with
  | nil => simp at hm
  | cons a bs ih =>
    rw [List.map_cons, List.nodup_cons] at hd
    have hb' : ∀ e ∈ bs, e.1 < 32 := fun e he => hb e (List.mem_cons_of_mem _ he)
    rcases List.mem_cons.mp hm with rfl | hm'
    · have hlt := hb b List.mem_cons_self
      refine (Group.setLanes_other hb' (x.setLane vt n tag b.1 b.2) hlt (.inr (.inr hd.1))).trans ?_
      rw [Group.setLane_vreg _ _ _ _ _ _ _ _ hlt hlt, if_pos ⟨rfl, by omega, by omega⟩, Nat.add_sub_cancel_left]
    · exact ih hb' hd.2 (x.setLane vt n tag a.1 a.2) hm'

/-- The scalar registers of an SLD, low register first. -/
def Group.setScalars (x : Group) (d n : Nat) (bs : List Byte) : Group :=
  (List.range n).foldl (fun x k => x.setS (d + k) (loadedWord bs k)) x

theorem Group.setScalars_succ (x : Group) (d n : Nat) (bs : List Byte) :
    x.setScalars d (n + 1) bs = (x.setScalars d n bs).setS (d + n) (loadedWord bs n) := by
  simp only [Group.setScalars, List.range_succ, List.foldl_append, List.foldl_cons, List.foldl_nil]

theorem Group.setScalars_sreg (x : Group) (d n : Nat) (bs : List Byte) (r : Nat) :
    (x.setScalars d n bs).sreg r = if d ≤ r ∧ r < d + n then loadedWord bs (r - d) else x.sreg r := by
  induction n with
  | zero => exact (if_neg (by omega)).symm
  | succ n ih =>
    rw [Group.setScalars_succ, Group.sreg_setS, ih]
    by_cases hr : r = d + n
    · subst hr
      simp only [if_true, Nat.le_add_right, Nat.add_sub_cancel_left, ← Nat.add_assoc, Nat.lt_succ_self, true_and]
    · have : (r < d + (n + 1)) ↔ r < d + n := by omega
      simp only [hr, if_false, this]

theorem Group.setScalars_keeps (x : Group) (d n : Nat) (bs : List Byte) :
    x.sameBody (x.setScalars d n bs) ∧ (x.setScalars d n bs).v = x.v := by
  induction n with
  | zero => exact ⟨⟨rfl, rfl, rfl⟩, rfl⟩
  | succ n ih =>
    rw [Group.setScalars_succ]
    exact ih

/-! ## LOAD_DATA_RETURN -/

/-- What the lanes of an access find in memory. -/
def State.loaded (s : State) (o : MemOp) : List (Nat × List Byte) :=
  o.lanes.map fun x => (x.lane, (List.range o.size).map fun i => Memory.read s.mem (x.pa + i))

theorem loadedWord_range (m : List Host.Cell) (pa n k : Nat) :
    loadedWord ((List.range n).map fun i => Memory.read m (pa + i)) k =
      BitVec.ofNat 32 (Memory.nat m (pa + 4 * k) (min 4 (n - 4 * k))) := by
  unfold loadedWord Memory.nat
  congr 2
  apply List.ext_getElem
  · simp
  · intro i h1 h2
    simp [Nat.add_assoc]

section
variable {s : State} {seq : Nat} {o : MemOp}

theorem readyOp_run {kinds : MemKind → Bool} (hr : s.ready seq o o.kind) (hk : kinds o.kind = true) :
    readyOp seq kinds s.tx = .ok (o, s.tx) := by
  obtain ⟨-, -, hw, hop, -, hheld, hmay, -⟩ := hr
  unfold readyOp
  simp only [bind_run, getChip_run, State.tx_chip, hop, someOr_some, pure_run, walkEarlier_placed (t := s.tx) hw, hk, hheld, hmay,
    Bool.not_false, Bool.and_self, enabled_true]

theorem readLanes_run (hp : ∀ e ∈ s.chip.cores, e.2.partials = []) (hl : s.chip.link.retraining = none)
    (hx : ∀ x ∈ o.lanes, x.space = .memory) :
    mapAct o.lanes (fun x => do return (x.lane, ← readLane o.who.core o.size x)) s.tx = .ok (s.loaded o, s.tx) := by
  refine mapAct_id _ fun x hm => ?_
  simp only [readLane, bind_run, getChip_run, hx x hm, homeRead_plain (t := s.tx) hp hl, pure_run]
  rfl

/-- The transaction of a read that has left its marks. -/
def State.txMarked (s : State) (marks : Map (BitVec 64)) : Tx := { s.tx with chip := { s.chip with marks := marks } }

/-- The transaction once a load's data has reached its registers, before its group learns of it. -/
def Tx.loadedAt (t : Tx) (o : MemOp) (seq : Nat) (bs : List (Nat × List Byte)) : Tx :=
  { t with chip := Chip.modGroup { t.chip with memq := t.chip.dropped seq } o.who.slot fun x => x.takeLoad o bs }

/-- A returning load whose group is still there leaves the pending accesses and writes its registers. -/
theorem loadTake_run {t : Tx} (hthere : t.chip.stillThere o.who = true) (bs : List (Nat × List Byte)) (k : Act Unit) :
    (do
      dropOp seq
      if (← getChip).stillThere o.who then modGroup o.who.slot fun x => x.takeLoad o bs else pure ()
      k : Act Unit) t = k (t.loadedAt o seq bs) := by
  have hstill : Chip.stillThere { t.chip with memq := t.chip.memq.filter fun e => e.seq ≠ seq } o.who = true := hthere
  simp only [dropOp, bind_run, modChip_run, getChip_run, hstill, if_true, modGroup_run]
  rfl

/-- What follows the write of the registers changes nothing but slots, and no register. -/
theorem loadTail_keeps {t : Tx} (gs : List Gran) (ha : o.acq = false) (ht : ∀ e ∈ t.chip.runs, e.2.traced = false)
    (hx : ∀ x ∈ o.lanes, x.space = .memory) (hn : t.chip.parkedSides = []) :
    ∃ u, (do
      readLearns o gs
      each o.lanes (traceLane o.who.tid o.size)
      unblock o.who seq
      settle : Act Unit) t = .ok ((), u) ∧ t.keepsRegs u o.who.slot := by
  obtain ⟨u, hu, hk⟩ := readLearns_keeps ha gs t
  have hruns : ∀ e ∈ u.chip.runs, e.2.traced = false := by
    rw [hk.rest]
    exact ht
  obtain ⟨v, hv, hk'⟩ := unblock_keeps o.who seq u
  have hall := Tx.keepsRegs_trans hk hk'
  refine ⟨v, ?_, hall⟩
  rw [bind_next hu, bind_next (each_id _ fun x hm => traceLane_untraced hruns (hx x hm) _ _), bind_next hv]
  exact settle_none (hall.nobody hn)

/-- A ready load returns: its registers take the bytes of memory, its number is gone, and the rest is the checker's. -/
theorem loadReturn_run (hr : s.ready seq o o.kind) (hk : o.kind = .load ∨ o.kind = .sload) (hm : o.who.mode = 0)
    (hthere : s.chip.stillThere o.who = true) (hpois : ∀ x ∈ o.lanes, s.chip.poisoned x.pa o.size = false)
    (hbody : ∀ x : Group, x.sameBody (x.takeLoad o (s.loaded o))) :
    ∃ marks u, exec (.loadDataReturn seq) s = .next (s.commit u) ∧
      Tx.keepsRegs ((s.txMarked marks).loadedAt o seq (s.loaded o)) u o.who.slot := by
  obtain ⟨⟨hn, hpart, -, htr, hlink, -⟩, -, -, -, -, -, -, ha, hlanes, -⟩ := id hr
  have hx : ∀ x ∈ o.lanes, x.space = .memory := fun x hm => (hlanes x hm).1
  have hheld : (o.lanes.any (s.chip.opmHeld o.size)) = false := by
    rw [List.any_eq_false]
    intro x hm
    simp [Chip.opmHeld, hx x hm]
  have hpoison : o.lanes.find? (s.chip.lanePoison o.size) = none := by
    rw [List.find?_eq_none]
    intro x hm
    simp [Chip.lanePoison, hpois x hm]
  have hkinds : (decide (o.kind = .load) || decide (o.kind = .sload)) = true := by simpa using hk
  obtain ⟨marks, hmarks, -⟩ := markReads_run (o.access 0 false false) (o.grans s.chip o.lanes) (MemOp.grans_global hx) s.tx
  obtain ⟨u, hu, hkeep⟩ := loadTail_keeps (seq := seq) (t := (s.txMarked marks).loadedAt o seq (s.loaded o))
    (o.grans s.chip o.lanes) ha (by rw [Tx.loadedAt, Chip.modGroup_slots]; exact htr) hx
    (Chip.modGroup_nobody (c := { s.chip with marks := marks, memq := s.chip.dropped seq }) hn fun x _ =>
      Group.staysAwake_sameBody (hbody x))
  refine ⟨marks, u, runEvent_next (body := loadReturn seq) ?_, hkeep⟩
  unfold loadReturn
  rw [bind_next (readyOp_run hr hkinds), bind_next (getChip_run _)]
  simp only [State.tx_chip, hheld, Bool.not_false, enabled_true, hpoison, ha, Bool.false_eq_true, if_false]
  rw [bind_next (pure_run _ _), atHome_off hm hpart hx, bind_next (readLanes_run hpart hlink hx), each_map, List.map_map]
  refine (bind_next hmarks).trans ?_
  rw [show (Prod.snd ∘ fun g : Gran => (o.access 0 false false, g)) = id from rfl, List.map_id]
  exact (loadTake_run (t := s.txMarked marks) hthere _ _).trans hu

end

/-! ## The registers after the event -/

/-- The registers of a group after a commit are those that it had when the event stopped writing them. -/
theorem Tx.keepsRegs_commit {t u : Tx} {g : Nat} {x : Group} (hk : t.keepsRegs u g) (hx : t.chip.group? g = some x) (s : State) :
    (∀ r l, (s.commit u).vreg g r l = x.vreg r l) ∧ (∀ r, (s.commit u).sreg g r = x.sreg r) ∧
      ∀ r, (s.commit u).preg g r = x.preg r := by
  have hr := hk.regs
  rw [hx, Option.map_some, Option.map_eq_some_iff] at hr
  obtain ⟨y, hy, he⟩ := hr
  simp only [Prod.mk.injEq] at he
  obtain ⟨hv, hsr, hp⟩ := he
  exact ⟨fun r l => by simp [State.vreg, hy, Group.vreg, hv], fun r => by simp [State.sreg, hy, Group.sreg, hsr],
    fun r => by simp [State.preg, hy, Group.preg, hp]⟩

section
variable {s : State} {seq : Nat} {o : MemOp}

/-- What the return of a load leaves, whatever its registers. -/
structure State.returned (s t : State) (seq : Nat) (o : MemOp) (y : Group) : Prop where
  mem : t.mem = s.mem
  memq : t.chip.memq = s.chip.dropped seq
  rest : homeOnly s.chip t.chip
  vreg : ∀ r l, t.vreg o.who.slot r l = y.vreg r l
  sreg : ∀ r, t.sreg o.who.slot r = y.sreg r
  preg : ∀ r, t.preg o.who.slot r = y.preg r

/-- A ready load ends with its group's registers as the loaded bytes make them. -/
theorem loadReturn_next (hr : s.ready seq o o.kind) (hk : o.kind = .load ∨ o.kind = .sload) (hm : o.who.mode = 0)
    (hthere : s.chip.stillThere o.who = true) (hpois : ∀ x ∈ o.lanes, s.chip.poisoned x.pa o.size = false)
    (hbody : ∀ x : Group, x.sameBody (x.takeLoad o (s.loaded o))) {x : Group} (hx : s.chip.group? o.who.slot = some x) :
    ∃ t, exec (.loadDataReturn seq) s = .next t ∧ s.returned t seq o (x.takeLoad o (s.loaded o)) := by
  obtain ⟨marks, u, hu, hk⟩ := loadReturn_run hr hk hm hthere hpois hbody
  have hgrp : ((s.txMarked marks).loadedAt o seq (s.loaded o)).chip.group? o.who.slot = some (x.takeLoad o (s.loaded o)) :=
    (Chip.group_modGroup_same _ _ _).trans (congrArg (Option.map _) hx)
  obtain ⟨hv, hsr, hp⟩ := Tx.keepsRegs_commit hk hgrp s
  refine ⟨_, hu, ?_, ?_, ?_, hv, hsr, hp⟩
  · rw [State.commit, hk.rest]
    rfl
  · rw [State.commit_chip, hk.rest, Tx.loadedAt, Chip.modGroup_slots]
    rfl
  · rw [homeOnly, State.commit_chip, hk.rest, Tx.loadedAt, Chip.modGroup_slots]
    rfl

theorem load_returns (hr : s.ready seq o .load) (hm : o.who.mode = 0) (hthere : s.chip.stillThere o.who = true)
    (hpois : ∀ x ∈ o.lanes, s.chip.poisoned x.pa o.size = false) {x : Group} (hx : s.chip.group? o.who.slot = some x) :
    ∃ t, exec (.loadDataReturn seq) s = .next t ∧ s.returned t seq o (x.setLanes o.dst o.regs o.tag (s.loaded o)) := by
  obtain ⟨-, -, -, -, hkind, -⟩ := id hr
  have htake (y : Group) : y.takeLoad o (s.loaded o) = y.setLanes o.dst o.regs o.tag (s.loaded o) := if_pos hkind
  rw [← htake]
  exact loadReturn_next (hkind ▸ hr) (.inl hkind) hm hthere hpois (fun y => htake y ▸ (Group.setLanes_keeps y _ _ _ _).1) hx

theorem sload_returns (hr : s.ready seq o .sload) (hm : o.who.mode = 0) (hthere : s.chip.stillThere o.who = true)
    (hpois : ∀ x ∈ o.lanes, s.chip.poisoned x.pa o.size = false) {a : LaneAcc} (ha : o.lanes = [a]) {x : Group}
    (hx : s.chip.group? o.who.slot = some x) : ∃ t, exec (.loadDataReturn seq) s = .next t ∧
      s.returned t seq o (x.setScalars o.dst o.regs ((List.range o.size).map fun i => Memory.read s.mem (a.pa + i))) := by
  obtain ⟨-, -, -, -, hkind, -⟩ := id hr
  have htake (y : Group) : y.takeLoad o (s.loaded o) =
      y.setScalars o.dst o.regs ((List.range o.size).map fun i => Memory.read s.mem (a.pa + i)) := by
    rw [Group.takeLoad, if_neg (by simp [hkind]), State.loaded, ha]
    rfl
  rw [← htake]
  exact loadReturn_next (hkind ▸ hr) (.inr hkind) hm hthere hpois (fun y => htake y ▸ (Group.setScalars_keeps y _ _ _).1) hx

end

/-- Settles O22: LD and SLD return by their own laws, and each register's bytes are a range of memory. -/
theorem loadReturns : Obligations.LoadReturns := by
  intro s seq o g word hthere hm hpois
  obtain ⟨x, hx⟩ : ∃ x, s.chip.group? g = some x := by
    have h := hthere
    rw [Chip.stillThere, Bool.and_eq_true] at h
    exact Option.isSome_iff_exists.mp h.2
  have hold : (∀ r l, s.vreg g r l = x.vreg r l) ∧ (∀ r, s.sreg g r = x.sreg r) ∧ ∀ r, s.preg g r = x.preg r :=
    ⟨fun r l => by simp [State.vreg, hx], fun r => by simp [State.sreg, hx], fun r => by simp [State.preg, hx]⟩
  obtain ⟨hv, hsr, hp⟩ := hold
  constructor
  · intro hr
    obtain ⟨t, ht, h⟩ := load_returns hr hm hthere hpois hx
    obtain ⟨-, -, -, -, -, -, -, -, hlanes, hnodup⟩ := hr
    have hlt : ∀ b ∈ s.loaded o, b.1 < 32 := by
      intro b hb
      obtain ⟨a, ha, rfl⟩ := List.mem_map.mp hb
      obtain ⟨-, -, hlt⟩ := hlanes a ha
      exact hlt
    have hfst : (s.loaded o).map Prod.fst = o.lanes.map LaneAcc.lane := by
      simp [State.loaded]
    obtain ⟨⟨-, -, hpk⟩, hsk⟩ := Group.setLanes_keeps x o.dst o.regs o.tag (s.loaded o)
    refine ⟨t, ht, h.mem, h.memq, h.rest, fun a ha k hk => ?_, fun r l hl ho => ?_, fun r => ?_, fun r => ?_⟩
    · rw [h.vreg, Group.setLanes_vreg hlt (hfst ▸ hnodup) x (List.mem_map_of_mem ha) hk, loadedWord_range]
    · rw [h.vreg, hv, Group.setLanes_other hlt x hl (hfst ▸ ho)]
    · rw [h.sreg, hsr, Group.sreg, hsk, Group.sreg]
    · rw [h.preg, hp, Group.preg, hpk, Group.preg]
  · intro hr a ha
    obtain ⟨t, ht, h⟩ := sload_returns hr hm hthere hpois ha hx
    obtain ⟨⟨-, -, hpk⟩, hvk⟩ := Group.setScalars_keeps x o.dst o.regs
      ((List.range o.size).map fun i => Memory.read s.mem (a.pa + i))
    refine ⟨t, ht, h.mem, h.memq, h.rest, fun k hk => ?_, fun r ho => ?_, fun r l => ?_, fun r => ?_⟩
    · rw [h.sreg, Group.setScalars_sreg, if_pos ⟨by omega, by omega⟩, Nat.add_sub_cancel_left, loadedWord_range]
    · rw [h.sreg, hsr, Group.setScalars_sreg, if_neg (by omega)]
    · rw [h.vreg, hv, Group.vreg, hvk, Group.vreg]
    · rw [h.preg, hp, Group.preg, hpk, Group.preg]

end Sys2Proof.Machine
end

section
/-! Contributions of an MRED combine in L1, partials leave it for memory, and lines with marks leave L2 (O24). -/

namespace Sys2Proof.Machine

/-! ## Judgement of an MRED, which recalls no partial (R117) -/

/-- With the race mode OFF every granule of an MRED is judged ORDERED, whatever partials the cores hold. -/
theorem judgeAll_mred {a : Access} (hm : a.who.mode = 0) (hk : a.kind = 5) (gs : GranLanes) (t : Tx) :
    judgeAll a gs t = .ok ((distinct (gs.map Prod.snd)).map fun g => (g, ⟨0, false, 0, 0⟩, granMask gs g), t) := by
  unfold judgeAll
  refine mapAct_id _ fun g _ => ?_
  have hj : judge a g t = .ok (⟨0, false, 0, 0⟩, t) := by simp [judge, hm]
  simp only [hk, ne_eq, not_true_eq_false, decide_false, Bool.false_and, Bool.false_eq_true, if_false, bind_run, pure_run, hj]
  rfl

/-- With the race mode OFF an MRED on global lanes performs on the granules that it touches. -/
theorem atHome_mred {o : MemOp} {sync write : Bool} {xs : List LaneAcc} {perform : List (Access × Gran) → Act Unit} {t : Tx}
    (hm : o.who.mode = 0) (hx : ∀ x ∈ xs, x.space = .memory) :
    atHome o 5 sync write xs perform t = perform ((o.grans t.chip xs).map fun g => (o.access 5 sync write, g)) t := by
  obtain ⟨hglobal, hopm⟩ := filter_space hx
  have hjudge : judgeLanes o 5 sync write xs t = .ok ([(o.access 5 sync write, lanesGrans t.chip o.size xs,
      (o.grans t.chip xs).map fun g => (g, ⟨0, false, 0, 0⟩, granMask (lanesGrans t.chip o.size xs) g)),
      (o.access (if write then 11 else 5) sync write, [], [])], t) := by
    unfold judgeLanes
    rw [bind_next (getChip_run t), hglobal, hopm]
    exact bind_next (judgeAll_mred (a := o.access 5 sync write) hm rfl _ t)
  have hnil (a : Access) : verdictRecs a [] = [] := rfl
  unfold atHome
  rw [bind_next hjudge]
  simp only [List.flatMap_cons, List.flatMap_nil, verdictRecs_off, hnil, List.append_nil, List.findSome?_cons, List.findSome?_nil,
    raceTrap_off (a := o.access _ _ _) hm, each_nil, bind_run, pure_run, List.map_map, List.map_nil]
  rfl

/-! ## Sync records of global granules -/

/-- A transaction with other sync records of global granules, other lost bits, and other numbers given out. -/
def Tx.withRecords (t : Tx) (n : Nat) (recs : List SyncRec) (lost : List Nat) : Tx :=
  { t with chip := { t.chip with seq := n, recs := recs, lost := lost } }

theorem putRecord_global {g : Gran} (hg : g.core = none) (r : SyncRec) (t : Tx) :
    ∃ n recs lost, putRecord g r t = .ok ((), t.withRecords n recs lost) := by
  unfold putRecord
  simp only [bind_run, getChip_run]
  generalize t.chip.recsOver g _ = old
  cases old with
  | none => exact ⟨_, _, _, by simp only [setGranRecs, hg, modChip_run]; rfl⟩
  | some _ => exact ⟨_, _, _, by simp only [setGranRecs, setGranLost, hg, bind_run, modChip_run]; rfl⟩

theorem useStamp_run (t : Tx) :
    useStamp t = .ok (t.chip.seq, t.withRecords (t.chip.seq + 1) t.chip.recs t.chip.lost) := rfl

theorem releaseRecord_global {g : Gran} (hg : g.core = none) (who : Actor) (published : BitVec 16) (scope : Nat) (merge : Bool)
    (t : Tx) : ∃ n recs lost, releaseRecord g who published scope merge t = .ok ((), t.withRecords n recs lost) := by
  unfold releaseRecord
  split
  · exact ⟨t.chip.seq, t.chip.recs, t.chip.lost, rfl⟩
  · rw [bind_next (useStamp_run t), bind_next (getChip_run _)]
    obtain ⟨n, recs, lost, hu⟩ := putRecord_global hg _ (t.withRecords (t.chip.seq + 1) t.chip.recs t.chip.lost)
    exact ⟨n, recs, lost, hu⟩

/-- The records that an MRED leaves on global granules change no other part of the chip. -/
theorem rmwRecords_global (o : MemOp) {gs : List Gran} (hg : ∀ g ∈ gs, g.core = none) (t : Tx) :
    ∃ n recs lost, each gs (rmwRecord o) t = .ok ((), t.withRecords n recs lost) := by
  induction gs generalizing t with
  | nil => exact ⟨t.chip.seq, t.chip.recs, t.chip.lost, rfl⟩
  | cons g r ih =>
    obtain ⟨n, recs, lost, hu⟩ : ∃ n recs lost, rmwRecord o g t = .ok ((), t.withRecords n recs lost) := by
      unfold rmwRecord
      split <;> exact releaseRecord_global (hg g List.mem_cons_self) _ _ _ _ t
    obtain ⟨n', recs', lost', hv⟩ := ih (fun x hx => hg x (List.mem_cons_of_mem _ hx)) (t.withRecords n recs lost)
    exact ⟨n', recs', lost', (bind_next hu).trans hv⟩

/-! ## A contribution in L1 (R92, R116) -/

/-- The partial of a word as a contribution finds it: its own, or one at the operation's identity. -/
def Core.partialAt (k : Core) (o : MemOp) (x : LaneAcc) : Partial :=
  (mget? k.partials x.pa).getD ⟨o.op, o.fmt, redStart o.op o.fmt, []⟩

/-- A partial once a lane has contributed to it. -/
def Partial.take (p : Partial) (o : MemOp) (x : LaneAcc) : Partial :=
  { p with value := redCombine o.op o.fmt p.value x.data, who := p.who ++ [(o.who, o.scope)] }

/-- A core once a lane of an MRED has combined in its L1. -/
def Core.contributed (k : Core) (o : MemOp) (x : LaneAcc) : Core :=
  { k with partials := mset k.partials x.pa ((k.partialAt o x).take o x) }

/-- A contribution to a line that L1 can take, and whose partials are of its operation and format, sends nothing home. -/
theorem combinePartial_room {core : Nat} {o : MemOp} {x : LaneAcc} {t : Tx}
    (hsame : ∀ e ∈ (t.chip.core core).partials, e.1 / 128 = x.pa / 128 → e.2.op = o.op ∧ e.2.fmt = o.fmt)
    (hroom : (t.chip.core core).takesLine (x.pa / 128) = true) :
    combinePartial core o x t = .ok ((), { t with chip := t.chip.modCore core fun k => k.contributed o x }) := by
  have hclash : ((t.chip.core core).partials.any fun e => e.1 / 128 = x.pa / 128 && e.1 < x.pa + o.size &&
      x.pa < e.1 + redWidth e.2.fmt && (e.2.op ≠ o.op || e.2.fmt ≠ o.fmt)) = false := by
    rw [List.any_eq_false]
    intro e he
    by_cases hline : e.1 / 128 = x.pa / 128
    · obtain ⟨hop, hfmt⟩ := hsame e he hline
      simp [hop, hfmt]
    · simp [hline]
  have hmake : makeRoom core (x.pa / 128) t = .ok ((), t) := by
    simp only [makeRoom, bind_run, getChip_run, hroom, if_true, pure_run]
  unfold combinePartial
  rw [bind_next (getChip_run t)]
  simp only [hclash, Bool.false_eq_true, if_false]
  exact (bind_next hmake).trans (modCore_run _ _ t)

/-! ## MRED_COMBINE -/

/-- The pending accesses with one of them changed. -/
def Chip.opChanged (c : Chip) (seq : Nat) (f : MemOp → MemOp) : List MemOp := c.memq.map fun e => if e.seq = seq then f e else e

theorem Chip.op?_opChanged {c : Chip} {seq : Nat} {f : MemOp → MemOp} (hf : ∀ e, (f e).seq = e.seq) :
    (c.opChanged seq f).find? (fun e => e.seq = seq) = (c.op? seq).map f := by
  have hkey : ((fun e : MemOp => decide (e.seq = seq)) ∘ fun e => if e.seq = seq then f e else e) =
      fun e => decide (e.seq = seq) := by
    funext e
    by_cases h : e.seq = seq <;> simp [h, hf]
  rw [Chip.opChanged, List.find?_map, hkey, Chip.op?]
  cases h : c.memq.find? fun e => e.seq = seq with
  | none => rfl
  | some e =>
    have hseq : e.seq = seq := by simpa using List.find?_some h
    simp [hseq]

theorem Chip.dropped_opChanged {c : Chip} {seq : Nat} {f : MemOp → MemOp} (hf : ∀ e, (f e).seq = e.seq) :
    (c.opChanged seq f).filter (fun e => e.seq ≠ seq) = c.dropped seq := by
  unfold Chip.opChanged Chip.dropped
  induction c.memq with
  | nil => rfl
  | cons e r ih => by_cases h : e.seq = seq <;> simpa [h, hf] using ih

/-- Two states in which a group has the same registers. -/
theorem State.sameRegs_of_regs {s t : State} {g : Nat}
    (h : (t.chip.group? g).map (fun x => (x.v, x.s, x.p)) = (s.chip.group? g).map fun x => (x.v, x.s, x.p)) : s.sameRegs t g := by
  cases hx : s.chip.group? g with
  | none =>
    have hy : t.chip.group? g = none := by simpa [hx] using h
    exact ⟨fun r l => by simp [State.vreg, hx, hy], fun r => by simp [State.sreg, hx, hy], fun r => by simp [State.preg, hx, hy]⟩
  | some x =>
    rw [hx, Option.map_some, Option.map_eq_some_iff] at h
    obtain ⟨y, hy, he⟩ := h
    simp only [Prod.mk.injEq] at he
    exact State.sameRegs_of_group hx hy he

/-- An access with these lanes left. -/
def MemOp.withLanes (rest : List LaneAcc) (o : MemOp) : MemOp := { o with lanes := rest }

/-- The transaction of an MRED once a lane has combined and left its access. -/
def Tx.combined (t : Tx) (seq : Nat) (o : MemOp) (x : LaneAcc) (rest : List LaneAcc) : Tx :=
  { t with chip := { t.chip.modCore o.who.core fun k => k.contributed o x with
      memq := t.chip.opChanged seq (MemOp.withLanes rest) } }

/-- A lane of a pending MRED, with the race mode OFF, may perform now: on a line that its core's L1 can take, whose partials are of
its operation and format. -/
structure State.mayContribute (s : State) (seq : Nat) (o : MemOp) (x : LaneAcc) : Prop where
  pending : s.chip.op? seq = some o
  kind : o.kind = .mred
  held : o.held = false
  mode : o.who.mode = 0
  may : s.chip.mayPerform o = true
  walked : s.walked
  lane : o.lanes.find? (fun l => l.lane = x.lane) = some x
  memory : x.space = .memory
  alike : ∀ e ∈ (s.chip.core o.who.core).partials, e.1 / 128 = x.pa / 128 → e.2.op = o.op ∧ e.2.fmt = o.fmt
  room : (s.chip.core o.who.core).takesLine (x.pa / 128) = true

section
variable {s : State} {seq : Nat} {o : MemOp} {x : LaneAcc}

theorem readyOp_mred (h : s.mayContribute seq o x) : readyOp seq (fun k => k = .mred) s.tx = .ok (o, s.tx) := by
  unfold readyOp
  simp only [bind_run, getChip_run, State.tx_chip, h.pending, someOr_some, pure_run, walkEarlier_placed (t := s.tx) h.walked, h.kind,
    h.held, h.may, decide_true, Bool.not_false, Bool.and_self, enabled_true]

/-- An MRED's lane performs: its contribution in L1, its records, its access without it, and its path's wait. -/
theorem mredCombine_run (h : s.mayContribute seq o x) {rest : List LaneAcc} (hrest : rest = o.lanes.filter fun l => l ≠ x) :
    ∃ n recs lost u, ((s.tx.combined seq o x rest).withRecords n recs lost).keepsRegs u o.who.slot ∧
      mredCombine seq x.lane s.tx = (if rest.isEmpty then dropOp seq else pure ()) u := by
  have hglobal : ∀ y ∈ [x], y.space = .memory := by simpa using h.memory
  have hleft : (o.lanes.filter fun l => !([x].contains l)) = rest := by
    rw [hrest]
    exact List.filter_congr fun l _ => by simp
  have hone : (if o.who.mode = 2 then o.lanes else [x]) = [x] := if_neg (by simp [h.mode])
  have hpartial : each [x] (combinePartial o.who.core o) s.tx =
      .ok ((), { s.tx with chip := s.chip.modCore o.who.core fun k => k.contributed o x }) :=
    bind_next (combinePartial_room (t := s.tx) h.alike h.room)
  obtain ⟨n, recs, lost, hr⟩ := rmwRecords_global o (MemOp.grans_global (o := o) (c := s.chip) hglobal)
    { s.tx with chip := s.chip.modCore o.who.core fun k => k.contributed o x }
  obtain ⟨u, hu, hkeep⟩ := unblock_keeps o.who seq ((s.tx.combined seq o x rest).withRecords n recs lost)
  refine ⟨n, recs, lost, u, hkeep, ?_⟩
  unfold mredCombine
  rw [bind_next (readyOp_mred h)]
  simp only [h.lane, someOr_some]
  rw [bind_next (pure_run x s.tx)]
  simp only [hone, hleft]
  rw [atHome_mred h.mode hglobal, each_map, bind_next hpartial]
  exact (bind_next hr).trans ((bind_next (modChip_run _ _)).trans (bind_next hu))

/-- What a transaction that goes on from a combined lane leaves: memory and registers as they were, the contribution in its
partial, and the access without the lane. -/
theorem Tx.combined_leaves {rest : List LaneAcc} {n : Nat} {recs : List SyncRec} {lost : List Nat} {u : Tx}
    (hk : ((s.tx.combined seq o x rest).withRecords n recs lost).keepsRegs u o.who.slot) :
    (s.commit u).mem = s.mem ∧ s.sameRegs (s.commit u) o.who.slot ∧
      (u.chip.core o.who.core).partials = ((s.chip.core o.who.core).contributed o x).partials ∧
      u.chip.memq = s.chip.opChanged seq (MemOp.withLanes rest) := by
  obtain ⟨hu, hregs, -⟩ := hk
  refine ⟨?_, State.sameRegs_of_regs hregs, ?_, ?_⟩
  · rw [State.commit, hu]
    rfl
  · have hcore : (s.chip.modCore o.who.core fun k => k.contributed o x).core o.who.core =
        (s.chip.core o.who.core).contributed o x := by rw [Chip.core_modCore, if_pos rfl]
    rw [hu]
    exact congrArg Core.partials hcore
  · rw [hu]
    rfl

/-- MRED_COMBINE of a lane that L1 can take (R92, R116): memory and registers stay, the contribution is in its partial, and the
access goes on with its other lanes or is gone. -/
theorem exec_mredCombine (h : s.mayContribute seq o x) {rest : List LaneAcc} (hrest : rest = o.lanes.filter fun l => l ≠ x) :
    ∃ t, exec (.mredCombine seq x.lane) s = .next t ∧ t.mem = s.mem ∧ s.sameRegs t o.who.slot ∧
      (t.chip.core o.who.core).partials = ((s.chip.core o.who.core).contributed o x).partials ∧
      (rest ≠ [] → t.chip.op? seq = some { o with lanes := rest }) ∧ (rest = [] → t.chip.memq = s.chip.dropped seq) := by
  obtain ⟨n, recs, lost, u, hk, hrun⟩ := mredCombine_run h hrest
  obtain ⟨hmemory, hregs, hpart, hmemq⟩ := Tx.combined_leaves hk
  cases rest with
  | nil =>
    refine ⟨s.commit { u with chip := { u.chip with memq := u.chip.memq.filter fun e => e.seq ≠ seq } }, runEvent_next hrun,
      hmemory, hregs, hpart, fun hne => absurd rfl hne, fun _ => ?_⟩
    exact (congrArg (List.filter fun e => e.seq ≠ seq) hmemq).trans (Chip.dropped_opChanged (f := MemOp.withLanes []) fun _ => rfl)
  | cons y r =>
    refine ⟨s.commit u, runEvent_next hrun, hmemory, hregs, hpart, fun _ => ?_, fun hnil => absurd hnil (List.cons_ne_nil y r)⟩
    have hfind := Chip.op?_opChanged (c := s.chip) (seq := seq) (f := MemOp.withLanes (y :: r)) fun _ => rfl
    rw [h.pending, ← hmemq] at hfind
    exact hfind

end

/-! ## Partials that leave a core (R117) -/

/-- A chip whose chosen cores hold no partial of a line. -/
def Chip.withoutPartials (c : Chip) (on : Nat → Bool) (line : Nat) : Chip :=
  { c with cores := c.cores.map fun k => (k.1,
      if on k.1 then { k.2 with partials := k.2.partials.filter fun e => e.1 / 128 ≠ line } else k.2) }

theorem Chip.partialsOf_withoutPartials (c : Chip) (on : Nat → Bool) (line : Nat) :
    (c.withoutPartials on line).partialsOf on line = [] := by
  simp only [Chip.partialsOf, Chip.withoutPartials, List.flatMap_map, List.flatMap_eq_nil_iff]
  intro k _
  by_cases h : on k.1 = true
  · simp [h]
  · simp [h]

/-- A transaction whose homes keep other things of granules: marks, lost bits and the runs of COMBINED marks. -/
def Tx.withMarks (t : Tx) (marks : Map (BitVec 64)) (lost : List Nat) (combined : Map Nat) : Tx :=
  { t with chip := { t.chip with marks := marks, lost := lost, combined := combined } }

/-- What combined contributions leave on a granule of their line: a mark, no lost bit, and the run of a COMBINED mark. -/
def combineMark (ps : List (Nat × Nat × Partial)) (g : Nat) : Act Unit :=
  let who := ps.flatMap fun e => if e.2.1 / 32 = g then e.2.2.who else []
  if who.isEmpty then pure ()
  else do
    setMark g (combinedMark who)
    modChip fun c => { c with lost := c.lost.filter fun x => x ≠ g
                              combined := match oneRun who with
                                | some r => mset c.combined g r
                                | none => merase c.combined g }

theorem combineMarks_run (ps : List (Nat × Nat × Partial)) (gs : List Nat) (t : Tx) :
    ∃ marks lost combined, each gs (combineMark ps) t = .ok ((), t.withMarks marks lost combined) := by
  induction gs generalizing t with
  | nil => exact ⟨t.chip.marks, t.chip.lost, t.chip.combined, rfl⟩
  | cons g r ih =>
    obtain ⟨marks, lost, combined, hu⟩ :
        ∃ marks lost combined, combineMark ps g t = .ok ((), t.withMarks marks lost combined) := by
      unfold combineMark
      split
      · exact ⟨t.chip.marks, t.chip.lost, t.chip.combined, rfl⟩
      · exact ⟨_, _, _, rfl⟩
    obtain ⟨marks', lost', combined', hv⟩ := ih (t.withMarks marks lost combined)
    exact ⟨marks', lost', combined', (bind_next hu).trans hv⟩

/-- A partial combines into the word at its address. -/
def combineHome (e : Nat × Nat × Partial) : Act Unit := do
  let w := redWidth e.2.2.fmt
  let old ← readNat e.2.1 w
  writeNat e.2.1 w (redCombine e.2.2.op e.2.2.fmt old e.2.2.value)
  noteMonitors e.2.1 w
  watchTile (e.2.1 / 4096)
  each e.2.2.who fun a => filterTile a.1.run a.1.team (e.2.1 / 4096)

/-- The recall of a line of which the chosen cores hold partials: they leave the cores, then combine, then mark their granules. -/
theorem recallFrom_held {t : Tx} {on : Nat → Bool} {line : Nat} {e : Nat × Nat × Partial} {r : List (Nat × Nat × Partial)}
    (hps : t.chip.partialsOf on line = e :: r) (hcut : t.chip.cutOff (line * 128) 128 = false) :
    recallFrom on line t = (each (e :: r) combineHome >>= fun _ => each (granulesOf (line * 128) 128) (combineMark (e :: r)))
      { t with chip := t.chip.withoutPartials on line } := by
  have hcut' : (t.chip.withoutPartials on line).cutOff (line * 128) 128 = false := hcut
  unfold recallFrom
  rw [bind_next (getChip_run t), hps]
  refine (bind_next (modChip_run _ t)).trans ((bind_next (getChip_run _)).trans ?_)
  change (each (if (t.chip.withoutPartials on line).cutOff (line * 128) 128 then [] else e :: r) combineHome >>= fun _ =>
    each (granulesOf (line * 128) 128) (combineMark (e :: r))) _ = _
  rw [hcut']
  rfl

/-- What a partial makes of the word at its address. -/
def Tx.combinedWord (t : Tx) (pa : Nat) (p : Partial) : Nat :=
  redCombine p.op p.fmt (fromLE ((List.range (redWidth p.fmt)).map fun i => t.byte (pa + i))) p.value

/-- A transaction in which a partial has combined into its word. -/
def Tx.withWord (t : Tx) (pa : Nat) (p : Partial) : Tx :=
  { t with log := blockLog pa (toLE (redWidth p.fmt) (t.combinedWord pa p)) ++ t.log }

/-- Where no watch set, trace or monitor looks on, a partial changes its word and nothing else. -/
theorem combineHome_run {t : Tx} (hwatch : ∀ e ∈ t.chip.ctxs, e.2.watch = []) (htrace : ∀ e ∈ t.chip.runs, e.2.traced = false)
    (hmons : ∀ m ∈ t.chip.mons, m.test = none) (core pa : Nat) (p : Partial) :
    combineHome (core, pa, p) t = .ok ((), t.withWord pa p) := by
  have hmon := noteMonitors_none (t := t.withWord pa p) hmons pa (redWidth p.fmt)
  have htile := watchTile_none (t := t.withWord pa p) hwatch (pa / 4096)
  have hfilters : each p.who (fun a => filterTile a.1.run a.1.team (pa / 4096)) (t.withWord pa p) = .ok ((), t.withWord pa p) :=
    each_id _ fun a _ => filterTile_none (t := t.withWord pa p) htrace _ _ _
  have hold : readNat pa (redWidth p.fmt) t = .ok (fromLE ((List.range (redWidth p.fmt)).map fun i => t.byte (pa + i)), t) := rfl
  have hnew : writeNat pa (redWidth p.fmt) (t.combinedWord pa p) t = .ok ((), t.withWord pa p) := rfl
  unfold combineHome
  exact (bind_next hold).trans ((bind_next hnew).trans ((bind_next hmon).trans ((bind_next htile).trans hfilters)))

/-! ## L1_LINE_EVICT -/

theorem fromLE_toLE (n v : Nat) : fromLE (toLE n v) = v % 2 ^ (8 * n) := by
  induction n generalizing v with
  | zero => simp [toLE, fromLE, Nat.mod_one]
  | succ n ih =>
    have hpow : 2 ^ (8 * (n + 1)) = 256 * 2 ^ (8 * n) := by
      rw [Nat.mul_succ, Nat.pow_add, Nat.mul_comm]
    rw [toLE, fromLE, ih, BitVec.toNat_ofNat, hpow, Nat.mod_mul]

/-- A number that has been written reads as its low bytes. -/
theorem Memory.nat_block {m : List Host.Cell} (hw : Memory.wf m) (a n v : Nat) :
    Memory.nat (Memory.writeAll m (blockLog a (toLE n v))) a n = v % 2 ^ (8 * n) := by
  have hlen : (toLE n v).length = n := toLE_length n v
  have hbytes := Memory.read_field hw a (toLE n v) (off := 0) (n := n) (by omega)
  rw [Nat.add_zero, List.drop_zero, List.take_of_length_le hlen.le] at hbytes
  rw [Memory.nat, hbytes, fromLE_toLE]

/-- A transaction in which a core's one partial of a line has gone home. -/
def Tx.sentHome (t : Tx) (core line pa : Nat) (p : Partial) : Tx :=
  Tx.withWord { t with chip := t.chip.withoutPartials (fun k => k = core) line } pa p

/-- L1_LINE_EVICT of a core's one partial of a line (R117): the partial leaves the core and combines into its word. -/
theorem exec_l1LineEvict {s : State} {core line pa : Nat} {p : Partial} (hn : s.nobodyWaits)
    (hwatch : ∀ e ∈ s.chip.ctxs, e.2.watch = []) (htrace : ∀ e ∈ s.chip.runs, e.2.traced = false)
    (hlink : s.chip.link.down = false) (hmons : ∀ m ∈ s.chip.mons, m.test = none)
    (hps : s.chip.partialsOf (fun k => k = core) line = [(core, pa, p)]) :
    ∃ marks lost combined, exec (.l1LineEvict core line) s =
      .next (s.commit ((s.tx.sentHome core line pa p).withMarks marks lost combined)) := by
  have hcut : s.chip.cutOff (line * 128) 128 = false := by simp [Chip.cutOff, hlink]
  let bare : Tx := { s.tx with chip := s.chip.withoutPartials (fun k => k = core) line }
  have hhome : each [(core, pa, p)] combineHome bare = .ok ((), s.tx.sentHome core line pa p) :=
    bind_next (combineHome_run (t := bare) hwatch htrace hmons core pa p)
  obtain ⟨marks, lost, combined, hmarks⟩ :=
    combineMarks_run [(core, pa, p)] (granulesOf (line * 128) 128) (s.tx.sentHome core line pa p)
  have hrecall : recallFrom (fun k => k = core) line s.tx =
      .ok ((), (s.tx.sentHome core line pa p).withMarks marks lost combined) :=
    (recallFrom_held (t := s.tx) hps hcut).trans ((bind_next hhome).trans hmarks)
  refine ⟨marks, lost, combined, runEvent_next ?_⟩
  exact (bind_next hrecall).trans (settle_none (t := (s.tx.sentHome core line pa p).withMarks marks lost combined) hn)

/-! ## L2_LINE_EVICT -/

/-- A line without marks leaves L2 with nothing to do. -/
theorem exec_l2LineEvict_unmarked {s : State} {line : Nat} (h : ∀ e ∈ s.chip.marks, e.1 / 4 ≠ line) :
    exec (.l2LineEvict line) s = .next s := by
  have hnone : (s.chip.marks.filter fun e => e.1 / 4 = line) = [] := List.filter_eq_nil_iff.mpr fun e he => by simp [h e he]
  refine runEvent_next (body := foldLine line) (t := s.tx) ?_
  unfold foldLine
  simp only [bind_run, getChip_run, State.tx_chip, hnone, List.isEmpty_nil, if_true, pure_run]

/-- A marked line that leaves L2 under no summary table comes back with SUMMARY marks (R305). -/
theorem exec_l2LineEvict_uncovered {s : State} {line : Nat} (hsum : s.chip.summaryAt (line / 32) = none)
    (h : ∃ e ∈ s.chip.marks, e.1 / 4 = line) :
    exec (.l2LineEvict line) s = .next { s with chip := { s.chip with
      marks := [0, 1, 2, 3].foldl (fun m i => mset m (line * 4 + i) markSummary) s.chip.marks } } := by
  obtain ⟨e, he, hline⟩ := h
  have hsome : ¬(s.chip.marks.filter fun e => e.1 / 4 = line).isEmpty = true := by
    rw [List.isEmpty_iff, List.filter_eq_nil_iff]
    exact fun hnone => hnone e he (by simp [hline])
  refine runEvent_next (body := foldLine line) (t := { s.tx with chip := { s.chip with
    marks := [0, 1, 2, 3].foldl (fun m i => mset m (line * 4 + i) markSummary) s.chip.marks } }) ?_
  unfold foldLine
  rw [bind_next (getChip_run s.tx)]
  simp only [State.tx_chip, hsum]
  exact congrFun (if_neg hsome) s.tx

/-- Settles O24: a contribution, a partial and a line with marks each by its own law; the word that a partial leaves is the block
that its combine has written. -/
theorem partialsCombine : Obligations.PartialsCombine := by
  intro s
  refine ⟨?_, ?_, fun line hsum => ⟨exec_l2LineEvict_unmarked, exec_l2LineEvict_uncovered hsum⟩⟩
  · intro seq o x core at_ p hop hkind hheld _ hm hmay hw hx hmem hsame hroom
    exact exec_mredCombine ⟨hop, hkind, hheld, hm, hmay, hw, hx, hmem, hsame, hroom⟩ rfl
  · intro core line pa p hinv hn hwatch htrace hlink hmons hps w
    obtain ⟨marks, lost, combined, ht⟩ := exec_l1LineEvict hn hwatch htrace hlink hmons hps
    let v := redCombine p.op p.fmt (Memory.nat s.mem pa w) p.value
    have hmem : (s.commit ((s.tx.sentHome core line pa p).withMarks marks lost combined)).mem =
        Memory.writeAll s.mem (blockLog pa (toLE w v)) :=
      congrArg (Memory.writeAll s.mem) (List.append_nil _)
    refine ⟨_, ht, Chip.partialsOf_withoutPartials s.chip (fun k => k = core) line, rfl, rfl, ?_, fun a ha => ?_⟩
    · rw [hmem]
      exact Memory.nat_block hinv pa w v
    · rw [hmem]
      exact Memory.read_block_other s.mem (by rwa [toLE_length])

end Sys2Proof.Machine
end

section
/-! Hints, instruction caches and full bits (O21): what PF, CCTL, ICINV and FE leave changed. -/

namespace Sys2Proof.Machine

/-! ## Ranges of hints (R110, R390) -/

section
variable {s : State} {h : Here} {f : RangeF} {pa : Nat → Nat} {u : Use}

/-- The bytes that a hint names: at most 1 MiB. -/
abbrev hintLength (h : Here) (f : RangeF) : Nat := min (h.s f.sb.toNat).toNat (2 ^ 20)

abbrev hintUses (f : RangeF) : Uses := { Uses.none with ss := [f.sa.toNat, f.sa.toNat + 1, f.sb.toNat], ps := guardPs f.g }

/-- The lines of a hint's range, as its pages translate. -/
abbrev hintLines (h : Here) (f : RangeF) (pa : Nat → Nat) : List Nat :=
  (segments (h.pair f.sa.toNat).toNat (hintLength h f)).flatMap fun p => linesOf (pa p.1) p.2

/-- A hint that may issue, on a global range whose pages its core translates at once. -/
structure State.mayHint (s : State) (h : Here) (f : RangeF) (u : Use) (pa : Nat → Nat) : Prop where
  window : s.noWindow h
  lanes : h.lanes f.g ≠ 0
  issues : s.mayIssue h (hintUses f)
  global : s.chip.region (h.pair f.sa.toNat) = .global
  hits : ∀ p ∈ segments (h.pair f.sa.toNat).toNat (hintLength h f), s.chip.hit h.core h.runId h.ctx u p.1 = some (pa p.1)

/-- The pages of a range that a core translates at once, after retirement as before. -/
theorem hintPieces_past (hm : s.mayHint h f u pa) (len stall : Nat) :
    hintPieces h u (h.pair f.sa.toNat).toNat (hintLength h f) (s.txPast h len stall) =
      .ok (piecesOf (h.pair f.sa.toNat).toNat (hintLength h f) pa, s.txPast h len stall) := by
  refine (bind_next (mapAct_id (g := fun p => some (pa p.1, p.2)) _ fun p hp => ?_)).trans ?_
  · exact bind_next (translate_hit ((Chip.retire_hit ..).trans (hm.hits p hp)))
  · simp [piecesOf, List.filterMap_map, pure_run]

theorem flatMap_piecesOf (va n : Nat) (pa : Nat → Nat) :
    ((piecesOf va n pa).flatMap fun p => linesOf p.1 p.2) = (segments va n).flatMap fun p => linesOf (pa p.1) p.2 :=
  List.flatMap_map ..

/-- A hint's address checks pass: an empty range changes nothing, another does what its body does. -/
theorem hint_next {i : Instr} {body : Here → Nat → Nat → Act Unit} {k : Chip → Chip} (hx : exec i s = runZha 8 (hintOp f body) s)
    (hm : s.mayHint h f u pa) (hempty : hintLength h f = 0 → ∀ c, k c = c)
    (hbody : hintLength h f ≠ 0 → body h (h.pair f.sa.toNat).toNat (hintLength h f) (s.txPast h 8 f.stall.toNat) =
      .ok ((), { s.tx with chip := k (s.chip.retire h 8 f.stall.toNat s.clk) })) :
    exec i s = .next (s.onward h (xForm f.stall f.g) k) := by
  have hregion : (s.txPast h 8 f.stall.toNat).chip.region (h.pair f.sa.toNat) = .global := (Chip.retire_region ..).trans hm.global
  have hframe : frameWindow h.ctx (s.txPast h 8 f.stall.toNat) = .ok (0, s.txPast h 8 f.stall.toNat) :=
    frameWindow_none hm.window (Chip.retire_keeps Chip.ctxs (fun _ _ _ => rfl) ..) (Chip.retire_keeps Chip.cores (fun _ _ _ => rfl) ..)
      (Chip.retire_keeps Chip.link (fun _ _ _ => rfl) ..) rfl rfl
  unfold hintOp at hx
  refine exec_issued hx hm.issues ((onceIf_run hm.lanes _ _).trans ?_)
  rw [bind_next (getChip_run _), hregion]
  simp only [bind_run, hframe, meetsWindow_zero, Bool.false_eq_true, if_false]
  by_cases hn : hintLength h f = 0
  · rw [if_pos hn, pure_run, hempty hn]
    rfl
  · rw [if_neg hn, hbody hn]
    rfl

end

/-! ## PF, CCTL and ICINV -/

section
variable {s : State} {h : Here} {f : RangeF} {pa : Nat → Nat}

/-- PF leaves nothing but the path behind it. -/
theorem exec_pf (hm : s.mayHint h f (Use.load h.user) pa) : exec (.pf f) s = .next (s.onward h (xForm f.stall f.g) id) :=
  hint_next rfl hm (fun _ _ => rfl) fun _ => bind_next (hintPieces_past hm 8 f.stall.toNat)

/-- What a cache control does to the lines of its range. -/
def cctlLines (h : Here) (op : Nat) (lines : List Nat) : Act Unit :=
  match op with
  | 0 => each lines (recallFrom fun k => k = h.core)
  | 1 => each lines foldLine
  | _ => modChip fun c => { c with lowpri := distinct (lines ++ c.lowpri) }

/-- A cache control whose operation keeps every slot and team ends with it, as nobody waits. -/
theorem exec_cctl {k : Chip → Chip} (hn : s.nobodyWaits) (hm : s.mayHint h f ⟨false, false, false, h.user⟩ pa)
    (hempty : hintLength h f = 0 → ∀ c, k c = c) (hk : ∀ c, (k c).parkedSides = c.parkedSides)
    (hlines : cctlLines h f.op.toNat (distinct (hintLines h f pa)) (s.txPast h 8 f.stall.toNat) =
      .ok ((), { s.tx with chip := k (s.chip.retire h 8 f.stall.toNat s.clk) })) :
    exec (.cctl f) s = .next (s.onward h (xForm f.stall f.g) k) := by
  refine hint_next rfl hm hempty fun _ => (bind_next (hintPieces_past hm 8 f.stall.toNat)).trans ?_
  rw [flatMap_piecesOf]
  have hnobody := (hk _).trans (Chip.retire_nobody hn h 8 f.stall.toNat s.clk)
  refine Eq.trans ?_ ((bind_next (f := fun _ => settle) hlines).trans (settle_none hnobody))
  generalize f.op.toNat = op
  match op with
  | 0 => rfl
  | 1 => rfl
  | _ + 2 => rfl

/-- A line that no mark names leaves L2 without a trace. -/
theorem foldLine_unmarked {t : Tx} {line : Nat} (h : ∀ e ∈ t.chip.marks, e.1 / 4 ≠ line) : foldLine line t = .ok ((), t) := by
  have hnone : (t.chip.marks.filter fun e => e.1 / 4 = line) = [] := by
    rw [List.filter_eq_nil_iff]
    simpa using h
  simp only [foldLine, bind_run, getChip_run, hnone, List.isEmpty_nil, if_true, pure_run]

/-- ICINV behind the group's last store drops the lines of its range from its core's instruction cache. -/
theorem exec_icinv (hm : s.mayHint h f ⟨false, false, false, h.user⟩ pa) (hn : hintLength h f ≠ 0)
    (hloads : ∀ o ∈ s.chip.groupOps h.g, o.kind = .load ∨ o.kind = .sload) :
    exec (.icinv f) s = .next (s.onward h (xForm f.stall f.g) fun c => c.modCore h.core fun k =>
      { k with icache := k.icache.filter fun e => !(hintLines h f pa).contains e.1 }) := by
  refine hint_next rfl hm (fun h0 => absurd h0 hn) fun _ => ?_
  have hall : ((s.chip.groupOps h.g).all fun e => e.kind = .load || e.kind = .sload) = true := by simpa using hloads
  have hstores : awaitStores h.g (s.txPast h 8 f.stall.toNat) = .ok ((), s.txPast h 8 f.stall.toNat) := by
    simp only [awaitStores, bind_run, getChip_run, Chip.retire_groupOps, hall, if_true, pure_run]
  refine (bind_next hstores).trans ((bind_next (hintPieces_past hm 8 f.stall.toNat)).trans ?_)
  rw [flatMap_piecesOf]
  rfl

end

/-! ## FE (R362) -/

/-- Nothing acquiring of the group is outstanding. -/
theorem awaitAcquire_past {s : State} {h : Here} (ha : ∀ e ∈ s.chip.groupOps h.g, e.acq = false) (len stall : Nat) :
    awaitAcquire h.g (s.txPast h len stall) = .ok ((), s.txPast h len stall) := by
  have hnone : (s.txPast h len stall).chip.acquirePending h.g = false := by
    rw [Chip.acquirePending, Chip.retire_groupOps]
    simpa using ha
  unfold awaitAcquire
  rw [bind_next (getChip_run _), hnone]
  rfl

/-- FE sets or clears the full bits of an aligned range inside the team's scratch. -/
theorem exec_fe {s : State} {h : Here} {f : RangeF} (hi : s.mayIssue h { Uses.none with ss := [f.sa.toNat, f.sb.toNat], ps := guardPs f.g })
    (hl : h.lanes f.g ≠ 0) (ho : (h.s f.sa.toNat).toNat % 16 = 0) (hsize : (h.s f.sb.toNat).toNat % 16 = 0)
    (hne : (h.s f.sb.toNat).toNat ≠ 0) (hin : (h.s f.sa.toNat).toNat + (h.s f.sb.toNat).toNat ≤ h.team.scrSize)
    (ha : ∀ e ∈ s.chip.groupOps h.g, e.acq = false) :
    exec (.fe f) s = .next (s.onward h (xForm f.stall f.g) fun c => c.modCore h.core fun k =>
      k.markFull (fullGrans (h.team.scrLo + (h.s f.sa.toNat).toNat) (h.s f.sb.toNat).toNat) (f.op = 1)) := by
  refine exec_issued rfl hi ((onceIf_run hl _ _).trans ?_)
  simp only [ho, hsize, ne_eq, not_true_eq_false, decide_false, Bool.or_self, Bool.false_eq_true, if_false, hne, not_lt.mpr hin]
  exact bind_next (awaitAcquire_past ha 8 f.stall.toNat)

/-- Settles O21: each kind of hint by its own law, and FE. -/
theorem hintInstructions : Obligations.HintInstructions := by
  intro s h f pa hplain hw hl F sa a n lines finds touch
  obtain ⟨hn, hpart, -⟩ := id hplain
  have hmay : ∀ {u}, finds u → s.mayHint h f u pa := fun ⟨hi, hg, hp⟩ => ⟨hw, hl, hi, hg, hp⟩
  have hcores : (s.txPast h 8 f.stall.toNat).chip.cores = s.chip.cores := Chip.retire_keeps Chip.cores (fun _ _ _ => rfl) ..
  have hmarks : (s.txPast h 8 f.stall.toNat).chip.marks = s.chip.marks := Chip.retire_keeps Chip.marks (fun _ _ _ => rfl) ..
  refine ⟨fun hf => exec_pf (hmay hf), fun hf hop => ?_, fun hf hop hnone => ?_, fun hf hop hne => ?_,
    fun hf hne hloads => exec_icinv (hmay hf) hne hloads,
    fun hi ho hsize hne hin ha => exec_fe hi hl ho hsize hne hin ha⟩
  · refine exec_cctl hn (hmay hf) (fun _ _ => rfl) (fun _ => rfl) ?_
    rw [hop]
    exact each_id _ fun line _ => recallFrom_none (hcores ▸ hpart) _ line
  · refine exec_cctl hn (hmay hf) (fun _ _ => rfl) (fun _ => rfl) ?_
    rw [hop]
    refine each_id _ fun line hline => foldLine_unmarked ?_
    rw [hmarks]
    exact fun e he heq => hnone e he (heq ▸ distinct_sub hline)
  · refine exec_cctl hn (hmay hf) (fun h0 => absurd h0 hne) (fun _ => rfl) ?_
    rw [hop]
    rfl

end Sys2Proof.Machine
end

section
/-! Stores and ATOMs perform at their homes (O23): their bytes, what the homes keep of the granules, and the access gone. -/

namespace Sys2Proof.Machine

/-! ## Blocks written one after another -/

theorem Memory.writeAll_append (m : List Host.Cell) (xs ys : List (Nat × Byte)) :
    Memory.writeAll m (xs ++ ys) = Memory.writeAll (Memory.writeAll m ys) xs := List.foldr_append ..

/-- Memory once lanes of `n` bytes each have been written, one after another. -/
def Memory.stored (m : List Host.Cell) (n : Nat) (xs : List LaneAcc) : List Host.Cell :=
  xs.foldl (fun m x => Memory.writeAll m (blockLog x.pa (toLE n x.data))) m

theorem Memory.stored_other {n a : Nat} {xs : List LaneAcc} (h : ∀ x ∈ xs, a < x.pa ∨ x.pa + n ≤ a) (m : List Host.Cell) :
    Memory.read (Memory.stored m n xs) a = Memory.read m a := by
  induction xs generalizing m with
  | nil => rfl
  | cons x r ih =>
    refine (ih (fun y hy => h y (List.mem_cons_of_mem _ hy)) _).trans (Memory.read_block_other m ?_)
    rw [toLE_length]
    exact h x List.mem_cons_self

theorem Memory.nat_congr {m m' : List Host.Cell} {a n : Nat} (h : ∀ i, i < n → Memory.read m (a + i) = Memory.read m' (a + i)) :
    Memory.nat m a n = Memory.nat m' a n :=
  congrArg fromLE (List.map_congr_left fun i hi => h i (List.mem_range.mp hi))

/-- A lane that shares no byte with another reads as its data. -/
theorem Memory.stored_lane {n : Nat} {x : LaneAcc} {xs : List LaneAcc} (hx : x ∈ xs)
    (hd : ∀ y ∈ xs, x = y ∨ x.pa + n ≤ y.pa ∨ y.pa + n ≤ x.pa) {m : List Host.Cell} (hm : Memory.wf m) :
    Memory.nat (Memory.stored m n xs) x.pa n = x.data % 2 ^ (8 * n) := by
  induction xs generalizing m with
  | nil => simp at hx
  | cons y r ih =>
    have hd' : ∀ z ∈ r, x = z ∨ x.pa + n ≤ z.pa ∨ z.pa + n ≤ x.pa := fun z hz => hd z (List.mem_cons_of_mem _ hz)
    by_cases hr : x ∈ r
    · exact ih hr hd' (Memory.writeAll_wf hm _)
    · obtain rfl : x = y := (List.mem_cons.mp hx).resolve_right hr
      refine (Memory.nat_congr fun i hi => Memory.stored_other (xs := r) (fun z hz => ?_) _).trans
        (Memory.nat_block hm x.pa n x.data)
      have hne : x ≠ z := fun e => hr (e ▸ hz)
      have := (hd' z hz).resolve_left hne
      omega

/-! ## What homes keep of granules -/

/-- Two chips that differ in what homes keep of granules, and in the numbers given out. -/
def Chip.homeNotes (c d : Chip) : Prop :=
  { d with seq := c.seq, marks := c.marks, poison := c.poison, lost := c.lost, recs := c.recs } = c

theorem Chip.homeNotes_refl (c : Chip) : c.homeNotes c := rfl

theorem Chip.homeNotes_trans {c d e : Chip} (h : c.homeNotes d) (h' : d.homeNotes e) : c.homeNotes e :=
  Eq.trans (congrArg (fun x : Chip => { x with seq := c.seq, marks := c.marks, poison := c.poison, lost := c.lost, recs := c.recs }) h') h

/-- What does not look at granules finds both chips the same. -/
theorem Chip.homeNotes_keeps {α : Type} (f : Chip → α)
    (hf : ∀ c n ms ps ls rs, f { c with seq := n, marks := ms, poison := ps, lost := ls, recs := rs } = f c) {c d : Chip}
    (h : c.homeNotes d) : f d = f c :=
  Eq.trans (Eq.symm (hf d c.seq c.marks c.poison c.lost c.recs)) (congrArg f h)

theorem Chip.homeNotes_plain {c d : Chip} (h : c.homeNotes d) (hc : c.plainMemory) : d.plainMemory :=
  (Chip.homeNotes_keeps Chip.plainMemory (fun _ _ _ _ _ _ => rfl) h).mpr hc

theorem homeOnly_of_notes {c d : Chip} (h : c.homeNotes d) : homeOnly c d :=
  Eq.trans (congrArg (fun x : Chip => { x with slots := c.slots, memq := c.memq }) (show _ = c from h)) rfl

theorem homeOnly_runs {c d : Chip} (h : homeOnly c d) : d.runs = c.runs := by
  unfold homeOnly at h
  have hruns := congrArg Chip.runs h
  exact hruns

theorem homeOnly_trans {c d e : Chip} (h : homeOnly c d) (h' : homeOnly d e) : homeOnly c e :=
  Eq.trans (congrArg (fun x : Chip => { x with
    slots := c.slots, memq := c.memq, seq := c.seq, marks := c.marks, poison := c.poison, lost := c.lost, recs := c.recs }) h') h

/-- Steps that change only what homes keep of granules compose. -/
theorem each_notes {α : Type} {f : α → Act Unit} {xs : List α}
    (hf : ∀ x ∈ xs, ∀ t, ∃ d, f x t = .ok ((), { t with chip := d }) ∧ t.chip.homeNotes d) (t : Tx) :
    ∃ d, each xs f t = .ok ((), { t with chip := d }) ∧ t.chip.homeNotes d := by
  induction xs generalizing t with
  | nil => exact ⟨t.chip, rfl, Chip.homeNotes_refl _⟩
  | cons x r ih =>
    obtain ⟨d, hd, hn⟩ := hf x List.mem_cons_self t
    obtain ⟨e, he, hn'⟩ := ih (fun y hy => hf y (List.mem_cons_of_mem _ hy)) { t with chip := d }
    exact ⟨e, (bind_next hd).trans he, Chip.homeNotes_trans hn hn'⟩

theorem releaseRecord_notes {g : Gran} (hg : g.core = none) (who : Actor) (published : BitVec 16) (scope : Nat) (merge : Bool)
    (t : Tx) : ∃ d, releaseRecord g who published scope merge t = .ok ((), { t with chip := d }) ∧ t.chip.homeNotes d := by
  obtain ⟨n, recs, lost, hu⟩ := releaseRecord_global hg who published scope merge t
  exact ⟨_, hu, rfl⟩

theorem rmwRecord_notes (o : MemOp) {g : Gran} (hg : g.core = none) (t : Tx) :
    ∃ d, rmwRecord o g t = .ok ((), { t with chip := d }) ∧ t.chip.homeNotes d := by
  unfold rmwRecord
  split <;> exact releaseRecord_notes hg _ _ _ _ t

/-- A write of a global granule leaves a mark, no lost bit, and perhaps other sync records. -/
theorem markWrite_notes (a : Access) {g : Gran} (hg : g.core = none) (after : Nat) (t : Tx) :
    ∃ d, markWrite a g after t = .ok ((), { t with chip := d }) ∧ t.chip.homeNotes d := by
  let c : Chip := { t.chip with
    marks := mset t.chip.marks g.idx (writeMark a.who (if a.sync then a.scope else 0))
    lost := t.chip.lost.filter fun x => x ≠ g.idx }
  have hc : t.chip.homeNotes c := rfl
  obtain ⟨d, hd, hn⟩ : ∃ d, (if a.sync then pure ()
      else if after ≠ 0 then releaseRecord g a.who (a.who.clock - 1) after false
      else do
        match (← getChip).recordAt g with
        | some r => if r.agent ≠ a.who.agent then dropRecord g else pure ()
        | none => pure () : Act Unit) { t with chip := c } = .ok ((), { t with chip := d }) ∧ c.homeNotes d := by
    split
    · exact ⟨c, rfl, rfl⟩
    split
    · exact releaseRecord_notes hg _ _ _ _ { t with chip := c }
    rw [bind_next (getChip_run _)]
    cases c.recordAt g with
    | none => exact ⟨c, rfl, rfl⟩
    | some r =>
      dsimp only
      split
      · unfold dropRecord
        rw [bind_next (getChip_run _)]
        simp only [setGranRecs, hg]
        split
        · exact ⟨_, rfl, rfl⟩
        · exact ⟨c, rfl, rfl⟩
      · exact ⟨c, rfl, rfl⟩
  refine ⟨d, Eq.trans ?_ hd, Chip.homeNotes_trans hc hn⟩
  unfold markWrite setGranMark clearGranLost
  rw [hg]
  rfl

/-! ## Writes of lanes -/

theorem homeWrite_notes {t : Tx} (h : t.chip.plainMemory) (pa : Nat) (bs : List Byte) (by_ : Option (Nat × Word)) :
    ∃ d, homeWrite pa bs by_ t = .ok ((), { t with chip := d, log := blockLog pa bs ++ t.log }) ∧ t.chip.homeNotes d :=
  ⟨_, homeWrite_plain h pa bs by_, rfl⟩

/-- The lanes of a store in plain memory, one after another. -/
theorem writeLanes_run (who : Actor) {n : Nat} {xs : List LaneAcc} (hx : ∀ x ∈ xs, x.space = .memory) {t : Tx}
    (h : t.chip.plainMemory) : ∃ d log, each xs (fun x => writeLane who tagRAW (toLE n x.data) x) t =
      .ok ((), { t with chip := d, log := log }) ∧ t.chip.homeNotes d ∧
        ∀ m, Memory.writeAll m log = Memory.stored (Memory.writeAll m t.log) n xs := by
  induction xs generalizing t with
  | nil => exact ⟨t.chip, t.log, rfl, Chip.homeNotes_refl _, fun _ => rfl⟩
  | cons x r ih =>
    obtain ⟨d, hd, hn⟩ := homeWrite_notes h x.pa (toLE n x.data) (some (who.run, who.team))
    obtain ⟨e, log, he, hn', hlog⟩ := ih (fun y hy => hx y (List.mem_cons_of_mem _ hy))
      (t := { t with chip := d, log := blockLog x.pa (toLE n x.data) ++ t.log }) (Chip.homeNotes_plain hn h)
    have hlane : writeLane who tagRAW (toLE n x.data) x t =
        .ok ((), { t with chip := d, log := blockLog x.pa (toLE n x.data) ++ t.log }) := by
      rw [writeLane, hx x List.mem_cons_self]
      exact hd
    refine ⟨e, log, (bind_next hlane).trans he, Chip.homeNotes_trans hn hn', fun m => ?_⟩
    rw [hlog, Memory.writeAll_append]
    rfl

/-! ## STORE_PERFORM -/

/-- What follows a conditional step follows it in either case. -/
theorem ite_then_run (c : Prop) [Decidable c] (a k : Act Unit) (t : Tx) :
    (if c then a >>= fun _ => k else k) t = ((if c then a else pure ()) >>= fun _ => k) t := by
  split <;> rfl

section
variable {s : State} {seq : Nat} {o : MemOp}

/-- Lanes that are all placed need no walk. -/
theorem placeLanes_bound (hb : ∀ x ∈ o.lanes, x.bound = true) (t : Tx) : placeLanes o t = .ok (o.lanes, t) := by
  have h := mapAct_id (f := fun x : LaneAcc => if x.bound then pure x
    else do
      match ← translate o.who.core o.who.run o.who.ctx (Use.store o.who.user) x.va.toNat with
      | .ok pa => return { x with pa := pa, bound := true }
      | .error _ => return x) (g := id) (t := t) o.lanes fun x hx => by rw [if_pos (hb x hx)]; rfl
  rwa [List.map_id] at h

/-- Global lanes reach nothing that a matrix operation holds. -/
theorem opmHeld_memory {c : Chip} (n : Nat) {xs : List LaneAcc} (hx : ∀ x ∈ xs, x.space = .memory) :
    xs.any (c.opmHeld n) = false := by
  rw [List.any_eq_false]
  intro x hm
  simp [Chip.opmHeld, hx x hm]

theorem residuals_memory {c : Chip} (n : Nat) {xs : List LaneAcc} (hx : ∀ x ∈ xs, x.space = .memory) (t : Tx) :
    each xs (fun x => do enabled !(← residualHolds (opmCore x.pa) (fun _ => true) (c.opmScratch n x))) t = .ok ((), t) := by
  refine each_id _ fun x hm => ?_
  have hnone : c.opmScratch n x = [] := by simp [Chip.opmScratch, hx x hm]
  rw [hnone]
  rfl

/-- What follows an access's effects: it is gone, its path may issue again, and the waits are looked at. -/
def endAccess (who : Actor) (seq : Nat) : Act Unit := do
  dropOp seq
  unblock who seq
  settle

theorem endAccess_run {t : Tx} (hn : t.chip.parkedSides = []) : ∃ u, endAccess o.who seq t = .ok ((), u) ∧
    Tx.keepsRegs { t with chip := { t.chip with memq := t.chip.dropped seq } } u o.who.slot := by
  obtain ⟨u, hu, hk⟩ := unblock_keeps o.who seq { t with chip := { t.chip with memq := t.chip.dropped seq } }
  exact ⟨u, (bind_next (modChip_run _ t)).trans ((bind_next hu).trans (settle_none (hk.nobody hn))), hk⟩

/-- What an access leaves at the end of its event: `c` is the chip before it was dropped, `m` the memory. -/
structure State.performed (s t : State) (seq : Nat) (c : Chip) (m : List Host.Cell) (g : Nat) : Prop where
  mem : t.mem = m
  memq : t.chip.memq = s.chip.dropped seq
  rest : homeOnly s.chip t.chip
  regs : (t.chip.group? g).map (fun x => (x.v, x.s, x.p)) = (c.group? g).map fun x => (x.v, x.s, x.p)

theorem State.performed_of_end {t u : Tx} {g : Nat} (hc : homeOnly s.chip t.chip) (hq : t.chip.memq = s.chip.memq)
    (hu : Tx.keepsRegs { t with chip := { t.chip with memq := t.chip.dropped seq } } u g) :
    s.performed (s.commit u) seq t.chip (Memory.writeAll s.mem t.log) g := by
  obtain ⟨hrest, hregs, -⟩ := hu
  refine ⟨?_, ?_, ?_, hregs⟩
  · rw [State.commit, hrest]
  · rw [State.commit_chip, hrest]
    exact congrArg (List.filter fun e => e.seq ≠ seq) hq
  · rw [State.commit_chip, hrest]
    exact hc

/-- A ready store performs: its lanes stand in memory, one after another, and its group's registers are as they were. -/
theorem store_performs (hr : s.ready seq o .store) (hm : o.who.mode = 0) : ∃ t, exec (.storePerform seq) s = .next t ∧
    s.performed t seq s.chip (Memory.stored s.mem o.size o.lanes) o.who.slot := by
  obtain ⟨⟨hn, hplain⟩, -, -, -, hkind, -, -, -, hlanes, -⟩ := id hr
  have hx : ∀ x ∈ o.lanes, x.space = .memory := fun x hm => (hlanes x hm).1
  have hbound : ∀ x ∈ o.lanes, x.bound = true := fun x hm => (hlanes x hm).2.1
  have hall : o.lanes.all LaneAcc.bound = true := List.all_eq_true.mpr hbound
  have hglobal := MemOp.grans_global (o := o) (c := s.chip) hx
  let kind := if o.rel then 3 else 1
  let gs := (o.grans s.chip o.lanes).map fun g => (o.access kind o.rel true, g)
  obtain ⟨c1, log, hwrite, hn1, hlog⟩ := writeLanes_run o.who (n := o.size) hx (t := s.tx) hplain
  let c2 : Chip := { c1 with poison := c1.poison.filter fun g => !(List.range 32).all fun i =>
    ((o.lanes.filter fun x => x.space = .memory).map fun x => (x.pa, o.size)).any fun w => w.1 ≤ g * 32 + i && g * 32 + i < w.1 + w.2 }
  have hn2 : c1.homeNotes c2 := rfl
  obtain ⟨c3, hmarks, hn3⟩ := each_notes (f := fun g : Access × Gran => markWrite g.1 g.2 o.relScope) (xs := gs)
    (fun g hg u => by
      obtain ⟨g, hmem, rfl⟩ := List.mem_map.mp hg
      exact markWrite_notes _ (hglobal g hmem) _ u) { s.tx with chip := c2, log := log }
  obtain ⟨c4, hrecs, hn4⟩ : ∃ d, (if o.rel then each gs fun g => releaseRecord g.2 o.who o.who.clock (max o.scope o.relScope) false
      else pure () : Act Unit) { s.tx with chip := c3, log := log } = .ok ((), { s.tx with chip := d, log := log }) ∧ c3.homeNotes d := by
    split
    · exact each_notes (fun g hg u => by
        obtain ⟨g, hmem, rfl⟩ := List.mem_map.mp hg
        exact releaseRecord_notes (hglobal g hmem) _ _ _ _ u) { s.tx with chip := c3, log := log }
    · exact ⟨c3, rfl, rfl⟩
  have hnotes : s.chip.homeNotes c4 := Chip.homeNotes_trans hn1 (Chip.homeNotes_trans hn2 (Chip.homeNotes_trans hn3 hn4))
  have hnobody : c4.parkedSides = [] := (Chip.homeNotes_keeps Chip.parkedSides (fun _ _ _ _ _ _ => rfl) hnotes).trans hn
  obtain ⟨u, hu, hk⟩ := endAccess_run (o := o) (seq := seq) (t := { s.tx with chip := c4, log := log }) hnobody
  have hp := State.performed_of_end (homeOnly_of_notes hnotes) (Chip.homeNotes_keeps Chip.memq (fun _ _ _ _ _ _ => rfl) hnotes) hk
  refine ⟨s.commit u, runEvent_next (body := storePerform seq) ?_, ?_⟩
  · unfold storePerform
    rw [bind_next (readyOp_run (hkind ▸ hr) (by simp [hkind])), bind_next (placeLanes_bound hbound s.tx), bind_next (getChip_run _)]
    simp only [State.tx_chip, hall, opmHeld_memory o.size hx, Bool.not_false, Bool.and_self, enabled_true]
    rw [bind_next (pure_run _ _)]
    refine (bind_next (residuals_memory o.size hx s.tx)).trans ?_
    rw [atHome_off hm hplain.1 hx, bind_next hwrite]
    refine (bind_next (modChip_run _ _)).trans ((bind_next hmarks).trans ?_)
    exact (ite_then_run _ _ (endAccess o.who seq) _).trans ((bind_next hrecs).trans hu)
  · refine ⟨hp.mem.trans (hlog s.mem), hp.memq, hp.rest, hp.regs.trans ?_⟩
    exact congrArg _ (Chip.homeNotes_keeps (·.group? o.who.slot) (fun _ _ _ _ _ _ => rfl) hnotes)

end

/-! ## Words of a number's bytes -/

theorem toLE_drop (n v j : Nat) : (toLE n v).drop j = toLE (n - j) (v / 256 ^ j) := by
  induction j generalizing n v with
  | zero => simp
  | succ j ih =>
    cases n with
    | zero => simp [toLE]
    | succ n =>
      rw [toLE, List.drop_succ_cons, ih, Nat.succ_sub_succ, Nat.div_div_eq_div_mul, ← Nat.pow_succ']

theorem toLE_take (n v j : Nat) : (toLE n v).take j = toLE (min j n) v := by
  induction j generalizing n v with
  | zero => simp [toLE]
  | succ j ih =>
    cases n with
    | zero => simp [toLE]
    | succ n => rw [toLE, List.take_succ_cons, ih, Nat.succ_min_succ, toLE]

/-- A register of a number's bytes is a word of the number. -/
theorem loadedWord_toLE {n v : Nat} (hv : v < 2 ^ (8 * n)) (k : Nat) : loadedWord (toLE n v) k = BitVec.ofNat 32 (v / 2 ^ (32 * k)) := by
  have hpow : 256 ^ (4 * k) = 2 ^ (32 * k) := by
    rw [show 256 = 2 ^ 8 from rfl, ← Nat.pow_mul, ← Nat.mul_assoc]
  rw [loadedWord, toLE_drop, toLE_take, fromLE_toLE, hpow]
  by_cases hk : 4 ≤ n - 4 * k
  · rw [Nat.min_eq_left hk]
    exact BitVec.eq_of_toNat_eq (by simp)
  · rw [Nat.min_eq_right (by omega), Nat.mod_eq_of_lt]
    rw [Nat.div_lt_iff_lt_mul (Nat.two_pow_pos _), ← Nat.pow_add]
    exact Nat.lt_of_lt_of_le hv (Nat.pow_le_pow_right (by decide) (by omega))

theorem fromLE_lt (bs : List Byte) : fromLE bs < 2 ^ (8 * bs.length) := by
  induction bs with
  | nil => exact Nat.one_pos
  | cons b r ih =>
    rw [fromLE, List.length_cons, Nat.mul_succ, Nat.pow_add]
    have := b.isLt
    omega

theorem Memory.nat_lt (m : List Host.Cell) (a n : Nat) : Memory.nat m a n < 2 ^ (8 * n) := by
  have h := fromLE_lt ((List.range n).map fun i => Memory.read m (a + i))
  rwa [List.length_map, List.length_range] at h

/-! ## ATOM_HOME_PERFORM -/

theorem Chip.stillThere_modGroup (c : Chip) (g : Nat) (f : Group → Group) (who : Actor) :
    (c.modGroup g f).stillThere who = c.stillThere who := by
  have hsome : ((c.modGroup g f).group? who.slot).isSome = (c.group? who.slot).isSome := by
    by_cases h : who.slot = g
    · rw [h, Chip.group_modGroup_same, Option.isSome_map]
    · simp only [Chip.group?, Chip.slot_modGroup_other _ _ h]
  rw [Chip.stillThere, Chip.stillThere, Chip.agent_modGroup, hsome]

theorem rememberLoad_stillThere {who : Actor} {g : Gran} {t u : Tx} (hu : rememberLoad who g t = .ok ((), u)) (w : Actor) :
    u.chip.stillThere w = t.chip.stillThere w := by
  unfold rememberLoad at hu
  rw [bind_next (getChip_run t)] at hu
  split at hu
  · cases hr : t.chip.findRec g with
    | none =>
      rw [hr] at hu
      obtain rfl : t = u := by simpa using hu
      rfl
    | some r =>
      rw [hr, whenSome_some, modGroup_run] at hu
      obtain rfl := (Prod.mk.inj (Except.ok.inj hu)).2
      exact Chip.stillThere_modGroup _ _ _ _
  · obtain rfl : t = u := by simpa using hu
    rfl

section
variable {s : State} {seq : Nat} {o : MemOp}

/-- A read that does not acquire leaves its group where it is, with its registers. -/
theorem readLearns_stays (ha : o.acq = false) (gs : List Gran) (t : Tx) :
    ∃ u, readLearns o gs t = .ok ((), u) ∧ t.keepsRegs u o.who.slot ∧ u.chip.stillThere o.who = t.chip.stillThere o.who := by
  have hg : readLearns o gs = each gs (rememberLoad o.who) := by
    rw [readLearns, ha]
    rfl
  rw [hg]
  refine each_preserves (P := fun u => t.keepsRegs u o.who.slot ∧ u.chip.stillThere o.who = t.chip.stillThere o.who)
    (fun g v hv => ?_) gs ⟨Tx.keepsRegs_refl t _, rfl⟩
  obtain ⟨u, hu, hk⟩ := rememberLoad_keeps o.who g v
  exact ⟨u, hu, Tx.keepsRegs_trans hv.1 hk, (rememberLoad_stillThere hu _).trans hv.2⟩

theorem homeOnly_of_keeps {t u : Tx} {g : Nat} (h : t.keepsRegs u g) : homeOnly t.chip u.chip := by
  rw [homeOnly, h.rest]

theorem homeOnly_modGroup (c : Chip) (g : Nat) (f : Group → Group) : homeOnly c (c.modGroup g f) := by
  rw [homeOnly, Chip.modGroup_slots]

theorem teamTraced_none {c : Chip} (h : ∀ e ∈ c.runs, e.2.traced = false) (tid : Nat) : c.teamTraced tid = false := by
  unfold Chip.teamTraced
  split
  · next r hr =>
    obtain ⟨y, -, hy⟩ := Option.bind_eq_some_iff.mp hr
    exact h _ (mget_mem hy)
  · rfl

theorem traceRead_untraced {t : Tx} {tid : Nat} (h : t.chip.teamTraced tid = false) (pa n : Nat) : traceRead tid pa n t = .ok ((), t) := by
  simp only [traceRead, bind_run, getChip_run, h, Bool.false_and, Bool.false_eq_true, if_false, pure_run]

/-- What an ATOM makes of the value at its place. -/
abbrev MemOp.atomValue (o : MemOp) (x : LaneAcc) (old : Nat) : Nat :=
  atomCombine o.op (o.size = 8) (BitVec.ofNat 4 (x.data / 2 ^ 64)) old (x.data % 2 ^ 64) x.cmp

/-- The chip once an ATOM's lane has returned its prior value. -/
def Chip.atomReturned (c : Chip) (o : MemOp) (x : LaneAcc) (old : Nat) : Chip :=
  c.modGroup o.who.slot fun y => y.setLane o.dst o.regs (BitVec.ofNat 4 (x.data / 2 ^ 64)) x.lane (toLE o.size old)

/-- The lane of an ATOM in plain memory: its prior value, and its operation's result in its place. -/
theorem atomLane_run (hplain : s.chip.plainMemory) (x : LaneAcc) : ∃ d,
    mapAct [x] (fun x => do
      let old ← homeNat x.pa o.size
      let tag := BitVec.ofNat 4 (x.data / 2 ^ 64)
      homeWrite x.pa (toLE o.size (atomCombine o.op (o.size = 8) tag old (x.data % 2 ^ 64) x.cmp)) (some (o.who.run, o.who.team))
      return (x.lane, tag, toLE o.size old)) s.tx =
    .ok ([(x.lane, BitVec.ofNat 4 (x.data / 2 ^ 64), toLE o.size (Memory.nat s.mem x.pa o.size))],
      { s.tx with chip := d, log := blockLog x.pa (toLE o.size (o.atomValue x (Memory.nat s.mem x.pa o.size))) ++ [] }) ∧
    s.chip.homeNotes d := by
  obtain ⟨d, hd, hn⟩ := homeWrite_notes (t := s.tx) hplain x.pa
    (toLE o.size (o.atomValue x (Memory.nat s.mem x.pa o.size))) (some (o.who.run, o.who.team))
  refine ⟨d, ?_, hn⟩
  have hold := homeNat_start (s := s) (c := s.chip) hplain.1 hplain.2.2.2.1 x.pa o.size
  exact bind_next ((bind_next hold).trans (bind_next hd))

/-- A ready ATOM of one lane performs: its result stands in memory, and its registers hold the prior value. -/
theorem atom_performs (hr : s.ready seq o .atom) (hm : o.who.mode = 0) {x : LaneAcc} (hone : o.lanes = [x])
    (hthere : s.chip.stillThere o.who = true) (hpois : s.chip.poisoned x.pa o.size = false) :
    ∃ (t : State) (c : Chip), exec (.atomHomePerform seq) s = .next t ∧ (c.group? o.who.slot).isSome ∧
      s.performed t seq (c.atomReturned o x (Memory.nat s.mem x.pa o.size))
        (Memory.writeAll s.mem (blockLog x.pa (toLE o.size (o.atomValue x (Memory.nat s.mem x.pa o.size))))) o.who.slot := by
  obtain ⟨⟨hn, hplain⟩, -, -, -, hkind, -, -, ha, hlanes, -⟩ := id hr
  have hx : ∀ x ∈ o.lanes, x.space = .memory := fun x hm => (hlanes x hm).1
  have hglobal := MemOp.grans_global (o := o) (c := s.chip) hx
  have hpoison : o.lanes.find? (s.chip.lanePoison o.size) = none := by
    rw [hone]
    simp [Chip.lanePoison, hpois]
  let old := Memory.nat s.mem x.pa o.size
  let log := blockLog x.pa (toLE o.size (o.atomValue x old)) ++ []
  let gs := (o.grans s.chip o.lanes).map fun g => (o.access 4 true true, g)
  obtain ⟨c1, hwrite, hn1⟩ := atomLane_run (s := s) (o := o) hplain x
  obtain ⟨c2, hmarks, hn2⟩ := each_notes (f := fun g : Access × Gran => markWrite g.1 g.2 0) (xs := gs)
    (fun g hg u => by
      obtain ⟨g, hmem, rfl⟩ := List.mem_map.mp hg
      exact markWrite_notes _ (hglobal g hmem) _ u) { s.tx with chip := c1, log := log }
  have hn12 : s.chip.homeNotes c2 := Chip.homeNotes_trans hn1 hn2
  obtain ⟨t3, hlearn, hk3, hstill3⟩ := readLearns_stays ha (gs.map Prod.snd) { s.tx with chip := c2, log := log }
  obtain ⟨c4, hrecs, hn4⟩ := each_notes (f := fun g : Access × Gran => rmwRecord o g.2) (xs := gs)
    (fun g hg u => by
      obtain ⟨g, hmem, rfl⟩ := List.mem_map.mp hg
      exact rmwRecord_notes o (hglobal g hmem) u) t3
  have hthere4 : c4.stillThere o.who = true := by
    rw [Chip.homeNotes_keeps (·.stillThere o.who) (fun _ _ _ _ _ _ => rfl) hn4, hstill3]
    exact (Chip.homeNotes_keeps (·.stillThere o.who) (fun _ _ _ _ _ _ => rfl) hn12).trans hthere
  let t5 : Tx := { t3 with chip := c4.atomReturned o x old }
  have hlog : t3.log = log := congrArg Tx.log hk3.rest
  have honly3 : homeOnly s.chip t3.chip := homeOnly_trans (homeOnly_of_notes hn12) (homeOnly_of_keeps hk3)
  have honly : homeOnly s.chip t5.chip := homeOnly_trans (homeOnly_trans honly3 (homeOnly_of_notes hn4))
    (homeOnly_modGroup _ _ _)
  have hmemq : t5.chip.memq = s.chip.memq :=
    calc t5.chip.memq
        = c4.memq := Chip.modGroup_memq ..
      _ = t3.chip.memq := Chip.homeNotes_keeps Chip.memq (fun _ _ _ _ _ _ => rfl) hn4
      _ = c2.memq := congrArg (fun t : Tx => t.chip.memq) hk3.rest
      _ = s.chip.memq := Chip.homeNotes_keeps Chip.memq (fun _ _ _ _ _ _ => rfl) hn12
  have hnobody3 : t3.chip.parkedSides = [] :=
    hk3.nobody ((Chip.homeNotes_keeps Chip.parkedSides (fun _ _ _ _ _ _ => rfl) hn12).trans hn)
  have hnobody : t5.chip.parkedSides = [] :=
    Chip.modGroup_nobody ((Chip.homeNotes_keeps Chip.parkedSides (fun _ _ _ _ _ _ => rfl) hn4).trans hnobody3) fun y _ =>
      Group.staysAwake_sameBody (Group.setLane_keeps y _ _ _ _ _).1
  have hruns : t5.chip.runs = s.chip.runs := homeOnly_runs honly
  have htraced := teamTraced_none (c := t5.chip) (by rw [hruns]; exact hplain.2.2.1) o.who.tid
  obtain ⟨u, hu, hk⟩ := endAccess_run (o := o) (seq := seq) hnobody
  have hp := State.performed_of_end honly hmemq hk
  rw [show t5.log = log from hlog, show log = _ from List.append_nil _] at hp
  refine ⟨s.commit u, c4, runEvent_next (body := atomPerform seq) ?_, (Bool.and_eq_true _ _ ▸ hthere4).2, hp⟩
  unfold atomPerform
  rw [bind_next (readyOp_run (hkind ▸ hr) (by simp [hkind])), bind_next (getChip_run _)]
  simp only [State.tx_chip, hpoison]
  rw [atHome_off hm hplain.1 hx]
  rw [← hone] at hwrite
  refine (bind_next hwrite).trans ((bind_next hmarks).trans ((bind_next hlearn).trans ((bind_next hrecs).trans ?_)))
  rw [bind_next (getChip_run _)]
  simp only [hthere4, if_true]
  refine (bind_next (modGroup_run _ _ _)).trans ((bind_next (each_id (t := t5) _ fun y hy => ?_)).trans
    ((bind_next (x := ()) (u := t5) ?_).trans hu))
  · exact traceRead_untraced htraced _ _
  · simp only [traceNonreplay, bind_run, getChip_run, htraced, Bool.false_eq_true, if_false, pure_run]

end

/-- Settles O23: a store's lanes stand in memory as `Memory.stored` writes them; an ATOM's result is one block. -/
theorem storesPerform : Obligations.StoresPerform := by
  intro s seq o hm
  refine ⟨fun hr => ?_, fun x hone hr hthere hrel hpois => ?_⟩
  · obtain ⟨t, ht, h⟩ := store_performs hr hm
    obtain ⟨-, hinv, -⟩ := hr
    refine ⟨t, ht, h.memq, h.rest, State.sameRegs_of_regs h.regs, fun x hx hd => ?_, fun a ha => ?_⟩
    · rw [h.mem]
      exact Memory.stored_lane hx hd hinv
    · rw [h.mem]
      exact Memory.stored_other ha s.mem
  · intro old tag
    obtain ⟨t, c, ht, hc, h⟩ := atom_performs hr hm hone hthere hpois
    obtain ⟨-, hinv, -, -, -, -, -, -, hlanes, -⟩ := hr
    obtain ⟨-, -, hlane⟩ := hlanes x (hone ▸ List.mem_cons_self)
    refine ⟨t, ht, h.memq, h.rest, ?_, fun a ha => ?_, fun k hk => ?_⟩
    · rw [h.mem]
      exact Memory.nat_block hinv _ _ _
    · rw [h.mem]
      exact Memory.read_block_other s.mem (by rwa [toLE_length])
    · obtain ⟨y, hy⟩ := Option.isSome_iff_exists.mp hc
      have hreg := h.regs
      rw [Chip.atomReturned, Chip.group_modGroup_same, hy, Option.map_some, Option.map_some, Option.map_eq_some_iff] at hreg
      obtain ⟨z, hz, he⟩ := hreg
      have hv : t.vreg o.who.slot (o.dst + k) x.lane = z.vreg (o.dst + k) x.lane := by simp [State.vreg, hz]
      rw [hv, Group.vreg, (Prod.mk.inj he).1]
      refine (Group.setLane_vreg y _ _ _ _ _ (o.dst + k) x.lane hlane hlane).trans ?_
      rw [if_pos ⟨rfl, by omega, by omega⟩, Nat.add_sub_cancel_left, loadedWord_toLE (Memory.nat_lt _ _ _)]

end Sys2Proof.Machine
end

section
/-! Scratch (O20): LDS and STS perform as they issue, between steps that touch only marks, records and checkers. -/

namespace Sys2Proof.Machine

variable {α β : Type}

/-! ## What the steps of a scratch access leave -/

/-- What a scratch access may not change of a group but its registers. -/
def Group.scene (x : Group) : Map VReg × Map Word × Map Word × Map Path × Nat := (x.v, x.s, x.p, x.paths, x.tid)

/-- Two chips that differ in one group and one core at most, as far as teams, contexts, slots, cores and parked sides go. -/
structure Chip.within (c d : Chip) (g core : Nat) : Prop where
  teams : d.teams = c.teams
  ctxs : d.ctxs = c.ctxs
  slots : ∀ i, i ≠ g → d.slot i = c.slot i
  cores : ∀ k, k ≠ core → d.core k = c.core k
  nobody : c.parkedSides = [] → d.parkedSides = []

/-- Two such chips whose group has the same registers, paths and clock, and whose core has the same scratch bytes and full bits. -/
structure Chip.staysAt (c d : Chip) (g core : Nat) : Prop where
  within : c.within d g core
  scene : (d.group? g).map Group.scene = (c.group? g).map Group.scene
  clock : (d.slot g).clock = (c.slot g).clock
  scratch : (d.core core).scratch = (c.core core).scratch
  full : (d.core core).full = (c.core core).full

section
variable {c d e : Chip} {g core : Nat}

theorem Chip.within_trans (h : c.within d g core) (h' : d.within e g core) : c.within e g core where
  teams := h'.teams.trans h.teams
  ctxs := h'.ctxs.trans h.ctxs
  slots i hi := (h'.slots i hi).trans (h.slots i hi)
  cores k hk := (h'.cores k hk).trans (h.cores k hk)
  nobody := h'.nobody ∘ h.nobody

theorem Chip.staysAt_refl (c : Chip) (g core : Nat) : c.staysAt c g core :=
  ⟨⟨rfl, rfl, fun _ _ => rfl, fun _ _ => rfl, id⟩, rfl, rfl, rfl, rfl⟩

theorem Chip.staysAt_trans (h : c.staysAt d g core) (h' : d.staysAt e g core) : c.staysAt e g core :=
  ⟨Chip.within_trans h.within h'.within, h'.scene.trans h.scene, h'.clock.trans h.clock, h'.scratch.trans h.scratch,
    h'.full.trans h.full⟩

/-- A change of the group that parks nobody. -/
theorem Chip.within_modGroup (c : Chip) (g core : Nat) {f : Group → Group} (hf : ∀ x, Group.staysAwake f x) :
    c.within (c.modGroup g f) g core where
  teams := Chip.modGroup_teams ..
  ctxs := Chip.modGroup_ctxs ..
  slots _ hi := Chip.slot_modGroup_other _ _ hi
  cores i _ := congrArg (fun m => mgetD m Core.init i) (Chip.modGroup_cores ..)
  nobody hn := Chip.modGroup_nobody hn fun x _ => hf x

theorem Chip.core_modGroup (c : Chip) (g k : Nat) (f : Group → Group) : (c.modGroup g f).core k = c.core k :=
  congrArg (fun m => mgetD m Core.init k) (Chip.modGroup_cores ..)

theorem Chip.staysAt_modGroup (c : Chip) (g core : Nat) {f : Group → Group} (hf : ∀ x, (f x).scene = x.scene) :
    c.staysAt (c.modGroup g f) g core := by
  have hsame (x : Group) : x.sameBody (f x) := by
    have hx := hf x
    simp only [Group.scene, Prod.mk.injEq] at hx
    obtain ⟨-, -, hp, hpaths, htid⟩ := hx
    exact ⟨hpaths, htid, hp⟩
  refine ⟨Chip.within_modGroup c g core fun x => Group.staysAwake_sameBody (hsame x), ?_, Chip.slot_clock_modGroup .., ?_, ?_⟩
  · rw [Chip.group_modGroup_same, Option.map_map]
    exact congrArg (fun f => (c.group? g).map f) (funext hf)
  · rw [Chip.core_modGroup]
  · rw [Chip.core_modGroup]

/-- A change of the core. -/
theorem Chip.within_modCore (c : Chip) (g core : Nat) (f : Core → Core) : c.within (c.modCore core f) g core where
  teams := rfl
  ctxs := rfl
  slots _ _ := rfl
  cores _ hk := (Chip.core_modCore ..).trans (if_neg hk)
  nobody := id

theorem Chip.core_modCore_same (c : Chip) (k : Nat) (f : Core → Core) : (c.modCore k f).core k = f (c.core k) :=
  (Chip.core_modCore ..).trans (if_pos rfl)

theorem Chip.staysAt_modCore (c : Chip) (g core : Nat) {f : Core → Core} (hs : ∀ k, (f k).scratch = k.scratch)
    (hf : ∀ k, (f k).full = k.full) : c.staysAt (c.modCore core f) g core := by
  refine ⟨Chip.within_modCore c g core f, rfl, rfl, ?_, ?_⟩
  · rw [Chip.core_modCore_same, hs]
  · rw [Chip.core_modCore_same, hf]

/-- What an acquire passes on goes to pending accesses and operations. -/
theorem Chip.staysAt_passOn (c : Chip) (g : Nat) (who : Actor) (seq : Nat) (f : Actor → Actor) :
    c.staysAt (c.passOn who seq f) g who.core := by
  have hcore (k : Nat) : ∃ order, (c.passOn who seq f).core k = { c.core k with order := order } ∧
      (k ≠ who.core → order = (c.core k).order) := by
    unfold Chip.core Chip.passOn
    simp only [mgetD, mget_mmod]
    by_cases hk : k = who.core
    · rw [if_pos hk, hk]
      cases mget? c.cores who.core with
      | none => exact ⟨_, rfl, fun h => absurd rfl h⟩
      | some x => exact ⟨_, rfl, fun h => absurd rfl h⟩
    · rw [if_neg hk]
      exact ⟨_, rfl, fun _ => rfl⟩
  refine ⟨⟨rfl, rfl, fun _ _ => rfl, fun k hk => ?_, id⟩, rfl, rfl, ?_, ?_⟩
  · obtain ⟨order, h, ho⟩ := hcore k
    rw [h, ho hk]
  · obtain ⟨order, h, -⟩ := hcore who.core
    rw [h]
  · obtain ⟨order, h, -⟩ := hcore who.core
    rw [h]

end

/-! ## Steps that stay -/

/-- A step of a transaction that always goes on, writes no memory, and stays at a group and a core. -/
def stepStays (g core : Nat) (a : Act α) : Prop := ∀ t : Tx, ∃ x c, a t = .ok (x, { t with chip := c }) ∧ t.chip.staysAt c g core

section
variable {g core : Nat}

theorem stepStays_pure (x : α) : stepStays g core (pure x : Act α) := fun t => ⟨x, t.chip, rfl, Chip.staysAt_refl ..⟩

theorem stepStays_bind {a : Act α} {f : α → Act β} (ha : stepStays g core a) (hf : ∀ x, stepStays g core (f x)) :
    stepStays g core (a >>= f) := by
  intro t
  obtain ⟨x, c, h, hc⟩ := ha t
  obtain ⟨y, d, h', hd⟩ := hf x { t with chip := c }
  exact ⟨y, d, (bind_next h).trans h', Chip.staysAt_trans hc hd⟩

theorem stepStays_getChip {f : Chip → Act β} (hf : ∀ c, stepStays g core (f c)) : stepStays g core (getChip >>= f) :=
  stepStays_bind (fun t => ⟨t.chip, t.chip, rfl, Chip.staysAt_refl ..⟩) hf

theorem stepStays_ite {p : Prop} [Decidable p] {a b : Act α} (ha : p → stepStays g core a) (hb : ¬ p → stepStays g core b) :
    stepStays g core (if p then a else b) := by
  split
  · next h => exact ha h
  · next h => exact hb h

theorem stepStays_each {f : α → Act Unit} (xs : List α) (hf : ∀ x ∈ xs, stepStays g core (f x)) : stepStays g core (each xs f) := by
  induction xs with
  | nil => exact stepStays_pure ()
  | cons x r ih => exact stepStays_bind (hf x List.mem_cons_self) fun _ => ih fun y hy => hf y (List.mem_cons_of_mem _ hy)

theorem stepStays_whenSome {o : Option α} {f : α → Act Unit} (hf : ∀ x, stepStays g core (f x)) :
    stepStays g core (whenSome o f) := by
  cases o with
  | none => exact stepStays_pure ()
  | some x => exact hf x

theorem stepStays_modGroup {f : Group → Group} (hf : ∀ x, (f x).scene = x.scene) : stepStays g core (modGroup g f) :=
  fun t => ⟨(), _, rfl, Chip.staysAt_modGroup t.chip g core hf⟩

theorem stepStays_modCore {f : Core → Core} (hs : ∀ k, (f k).scratch = k.scratch) (hf : ∀ k, (f k).full = k.full) :
    stepStays g core (modCore core f) := fun t => ⟨(), _, rfl, Chip.staysAt_modCore t.chip g core hs hf⟩

/-! ## Marks and sync records of scratch granules (R157, R160) -/

variable {w : Gran}

theorem setGranRecs_stays (hw : w.core = some core) (rs : List SyncRec) : stepStays g core (setGranRecs w rs) := by
  rw [setGranRecs, hw]
  exact stepStays_modCore (fun _ => rfl) fun _ => rfl

theorem setGranLost_stays (hw : w.core = some core) (i : Nat) : stepStays g core (setGranLost w i) := by
  rw [setGranLost, hw]
  exact stepStays_modCore (fun _ => rfl) fun _ => rfl

theorem clearGranLost_stays (hw : w.core = some core) : stepStays g core (clearGranLost w) := by
  rw [clearGranLost, hw]
  exact stepStays_modCore (fun _ => rfl) fun _ => rfl

theorem setGranMark_stays (hw : w.core = some core) (m : BitVec 64) : stepStays g core (setGranMark w m) := by
  rw [setGranMark, hw]
  exact stepStays_modCore (fun _ => rfl) fun _ => rfl

theorem granMark_stays (hw : w.core = some core) : stepStays g core (granMark w) := by
  rw [granMark, hw]
  exact stepStays_getChip fun c => stepStays_pure _

theorem useStamp_stays : stepStays g core useStamp :=
  fun _ => ⟨_, _, rfl, ⟨⟨rfl, rfl, fun _ _ => rfl, fun _ _ => rfl, id⟩, rfl, rfl, rfl, rfl⟩⟩

theorem putRecord_stays (hw : w.core = some core) (r : SyncRec) : stepStays g core (putRecord w r) := by
  refine stepStays_getChip fun c => stepStays_getChip fun d => ?_
  split
  · exact setGranRecs_stays hw _
  · exact stepStays_bind (setGranRecs_stays hw _) fun _ => setGranLost_stays hw _

theorem dropRecord_stays (hw : w.core = some core) : stepStays g core (dropRecord w) :=
  stepStays_getChip fun _ => stepStays_ite (fun _ => setGranRecs_stays hw _) fun _ => stepStays_pure ()

theorem releaseRecord_stays (hw : w.core = some core) (who : Actor) (published : BitVec 16) (scope : Nat) (merge : Bool) :
    stepStays g core (releaseRecord w who published scope merge) :=
  stepStays_ite (fun _ => stepStays_pure ()) fun _ => stepStays_bind useStamp_stays fun _ => stepStays_getChip fun _ => putRecord_stays hw _

theorem markRead_stays (hw : w.core = some core) (a : Access) : stepStays g core (markRead a w) :=
  stepStays_getChip fun _ => stepStays_bind (granMark_stays hw) fun _ => setGranMark_stays hw _

theorem markWrite_stays (hw : w.core = some core) (a : Access) (after : Nat) : stepStays g core (markWrite a w after) := by
  refine stepStays_bind (setGranMark_stays hw _) fun _ => stepStays_bind (clearGranLost_stays hw) fun _ => ?_
  refine stepStays_ite (fun _ => stepStays_pure ()) fun _ => stepStays_ite (fun _ => releaseRecord_stays hw _ _ _ _) fun _ => ?_
  refine stepStays_getChip fun c => ?_
  split
  · exact stepStays_ite (fun _ => dropRecord_stays hw) fun _ => stepStays_pure ()
  · exact stepStays_pure ()

/-! ## What a read teaches its group (R138, R158) -/

theorem learnAgent_stays (agent : BitVec 20) (clk : BitVec 16) : stepStays g core (learnAgent g agent clk) :=
  stepStays_getChip fun _ => stepStays_whenSome fun _ => stepStays_modGroup fun _ => rfl

theorem learnFills_stays (grans : List Nat) : stepStays g core (learnFills g core grans) :=
  stepStays_getChip fun _ => stepStays_each _ fun e _ => learnAgent_stays e.1 e.2

theorem rememberLoad_stays {who : Actor} (hg : who.slot = g) : stepStays g core (rememberLoad who w) := by
  subst hg
  refine stepStays_getChip fun c => stepStays_ite (fun _ => stepStays_whenSome fun r => stepStays_modGroup fun x => ?_)
    fun _ => stepStays_pure ()
  dsimp only
  split <;> rfl

theorem acquireGran_stays (hw : w.core = some core) {who : Actor} (hg : who.slot = g) (hc : who.core = core) (scope seq : Nat) :
    stepStays g core (acquireGran w who scope seq) := by
  subst hg hc
  refine stepStays_getChip fun c => stepStays_ite (fun _ => stepStays_pure ()) fun _ => ?_
  refine stepStays_bind (stepStays_modGroup fun _ => rfl) fun _ => stepStays_bind (stepStays_modGroup fun _ => rfl) fun _ => ?_
  refine stepStays_bind (fun t => ⟨(), _, rfl, Chip.staysAt_passOn t.chip _ who seq _⟩) fun _ => ?_
  split
  · exact stepStays_pure ()
  · exact stepStays_bind useStamp_stays fun _ => setGranRecs_stays hw _

end

/-- The granules of a scratch access are its core's. -/
theorem scrLaneGrans_core {h : Here} {n : Nat} {ls : List (Nat × Addr)} :
    ∀ w ∈ distinct ((scrLaneGrans h n ls).map Prod.snd), w.core = some h.core := by
  intro w hw
  obtain ⟨e, he, rfl⟩ := List.mem_map.mp (distinct_sub hw)
  obtain ⟨l, -, he⟩ := List.mem_flatMap.mp he
  obtain ⟨k, -, rfl⟩ := List.mem_map.mp he
  rfl


/-! ## Scratch bytes and full bits -/

theorem Core.byte_setBytes (k : Core) (a : Nat) (bs : List Byte) (x : Nat) :
    (k.setBytes a bs).byte x = if a ≤ x ∧ x < a + bs.length then bs.getD (x - a) 0 else k.byte x := by
  unfold Core.byte Core.setBytes
  dsimp only
  induction bs using List.reverseRecOn with
  | nil => rw [if_neg (by simp)]; rfl
  | append_singleton r b ih =>
    rw [List.zipIdx_append, List.foldl_append, List.zipIdx_singleton, List.foldl_cons, List.foldl_nil, mgetD_mput, ih, List.length_append,
      List.length_singleton, Nat.zero_add]
    by_cases hx : x = a + r.length
    · rw [if_pos hx, if_pos (by omega), hx, Nat.add_sub_cancel_left]
      simp
    · rw [if_neg hx]
      by_cases hin : a ≤ x ∧ x < a + r.length
      · rw [if_pos hin, if_pos (by omega), List.getD_append _ _ _ _ (by omega)]
      · rw [if_neg hin, if_neg (by omega)]

/-- Scratch bytes written one block after the other. -/
def Core.setBlocks (k : Core) (xs : List (Nat × List Byte)) : Core := xs.foldl (fun k x => k.setBytes x.1 x.2) k

theorem Core.setBlocks_full (k : Core) (xs : List (Nat × List Byte)) : (k.setBlocks xs).full = k.full := by
  induction xs generalizing k with
  | nil => rfl
  | cons x r ih => exact ih (k.setBytes x.1 x.2)

theorem Core.setBlocks_other {xs : List (Nat × List Byte)} {a : Nat} (h : ∀ x ∈ xs, a < x.1 ∨ x.1 + x.2.length ≤ a) (k : Core) :
    (k.setBlocks xs).byte a = k.byte a := by
  induction xs generalizing k with
  | nil => rfl
  | cons x r ih =>
    refine (ih (fun y hy => h y (List.mem_cons_of_mem _ hy)) (k.setBytes x.1 x.2)).trans ?_
    rw [Core.byte_setBytes, if_neg]
    have := h x List.mem_cons_self
    omega

/-- Behind a block that no later one meets, its bytes stand. -/
theorem Core.setBlocks_last (k : Core) (xs ys : List (Nat × List Byte)) (x : Nat × List Byte)
    (h : ∀ y ∈ ys, x.1 + x.2.length ≤ y.1 ∨ y.1 + y.2.length ≤ x.1) {j : Nat} (hj : j < x.2.length) :
    (k.setBlocks (xs ++ x :: ys)).byte (x.1 + j) = x.2.getD j 0 := by
  rw [Core.setBlocks, List.foldl_append, List.foldl_cons]
  refine (Core.setBlocks_other (fun y hy => ?_) _).trans ?_
  · have := h y hy
    omega
  · rw [Core.byte_setBytes, if_pos (by omega), Nat.add_sub_cancel_left]

theorem Core.isFull_markFull (k : Core) (gs : List Nat) (v : Bool) (g : Nat) :
    (k.markFull gs v).isFull g = if gs.contains g then v else k.isFull g := by
  unfold Core.markFull Core.isFull Core.setFull
  dsimp only
  induction gs using List.reverseRecOn with
  | nil => rfl
  | append_singleton r w ih =>
    rw [List.foldl_append, List.foldl_cons, List.foldl_nil, mgetD_mput, ih]
    by_cases hg : g = w <;> simp [hg]

theorem Core.isFull_of_full {k k' : Core} (h : k'.full = k.full) (g : Nat) : k'.isFull g = k.isFull g :=
  congrArg (fun m => mgetD m false g) h

theorem Core.byte_of_scratch {k k' : Core} (h : k'.scratch = k.scratch) (a : Nat) : k'.byte a = k.byte a :=
  congrArg (fun m => mgetD m 0 a) h

theorem Core.bytes_of_scratch {k k' : Core} (h : k'.scratch = k.scratch) (a n : Nat) : k'.bytes a n = k.bytes a n :=
  List.map_congr_left fun i _ => Core.byte_of_scratch h (a + i)

/-! ## Lanes of a scratch access -/

theorem lanesOf_pairwise (m : BitVec 32) : (lanesOf m).Pairwise (· < ·) := List.Pairwise.filter _ List.pairwise_lt_range

section
variable {m : MemForm} {h : Here}

theorem MemForm.scrAddrs_lanes : (m.scrAddrs h).map Prod.fst = lanesOf (h.lanes m.form.g) := by simp [MemForm.scrAddrs, Function.comp_def]

theorem MemForm.scrAddrs_nodup : ((m.scrAddrs h).map Prod.fst).Nodup := by
  rw [MemForm.scrAddrs_lanes]
  exact (lanesOf_pairwise _).imp Nat.ne_of_lt

theorem MemForm.scrAddrs_pairwise : (m.scrAddrs h).Pairwise fun a b => a.1 < b.1 :=
  List.pairwise_map.mp (MemForm.scrAddrs_lanes ▸ lanesOf_pairwise _)

theorem MemForm.scrAddrs_lt {l : Nat × Addr} (hl : l ∈ m.scrAddrs h) : l.1 < 32 := by
  have hm : l.1 ∈ lanesOf (h.lanes m.form.g) := MemForm.scrAddrs_lanes ▸ List.mem_map_of_mem hl
  exact ((mem_lanesOf _ _).mp hm).1

end

theorem memType_size (ty : Nat) : 0 < (memType ty).size ∧ (memType ty).size ≤ 4 * (memType ty).regs := by
  unfold memType
  split <;> decide

/-- A lane stores as many bytes as its type has. -/
theorem Group.laneBytes_length (x : Group) (vt ty i : Nat) :
    (x.laneBytes vt (memType ty).regs (memType ty).size i).length = (memType ty).size := by
  have hlen : (((List.range (memType ty).regs).flatMap fun k => toLE 4 (x.vreg (vt + k) i).bits.toNat)).length = 4 * (memType ty).regs := by
    simp [List.length_flatMap, toLE_length, Nat.mul_comm]
  rw [Group.laneBytes, List.length_take, hlen, Nat.min_eq_left (memType_size ty).2]

/-- Two places aligned to their size are the same place or disjoint. -/
theorem aligned_disjoint {a b n : Nat} (ha : a % n = 0) (hb : b % n = 0) (hne : a ≠ b) : a + n ≤ b ∨ b + n ≤ a := by
  obtain ⟨i, rfl⟩ := Nat.dvd_of_mod_eq_zero ha
  obtain ⟨j, rfl⟩ := Nat.dvd_of_mod_eq_zero hb
  rcases Nat.lt_trichotomy i j with h | h | h
  · left
    calc n * i + n = n * (i + 1) := by ring
      _ ≤ n * j := Nat.mul_le_mul_left n h
  · exact absurd (congrArg _ h) hne
  · right
    calc n * j + n = n * (j + 1) := by ring
      _ ≤ n * i := Nat.mul_le_mul_left n h

/-! ## Checks and waits -/

section
variable {s : State} {h : Here} {m : MemForm}

/-- A scratch access, of a group without pending accesses, whose lanes are in bounds and aligned (R102, R370). -/
structure State.mayScratch (s : State) (h : Here) (m : MemForm) : Prop where
  plain : s.plain
  unsampled : s.unsampled h
  alone : s.chip.groupOps h.g = []
  unraced : h.team.raceMode = 0
  lanes : h.lanes m.form.g ≠ 0
  indices : ∀ r, m.vi = some r → ∀ l, l < 32 → laneBit (h.lanes m.form.g) l → (indexOf (h.v r l)).isSome
  places : ∀ l ∈ m.scrAddrs h, l.2.toNat + m.type.size ≤ h.team.scrSize ∧ l.2.toNat % m.type.size = 0

theorem checkScratch_ok (hm : s.mayScratch h m) : checkScratch h m.type.size (m.scrAddrs h) = pure () :=
  checkLanes_none (fun l hl => by simpa using (hm.places l hl).1) _ _

theorem awaitOwnOpm_past (ho : s.chip.groupOps h.g = []) (n : Nat) (ls : List (Nat × Addr)) (len stall : Nat) :
    awaitOwnOpm h n ls (s.txPast h len stall) = .ok ((), s.txPast h len stall) := by
  unfold awaitOwnOpm
  rw [bind_next (getChip_run _), Chip.retire_groupOps, ho]
  rfl

theorem awaitAccesses_past (ho : s.chip.groupOps h.g = []) (len stall : Nat) :
    awaitAccesses h.g (s.txPast h len stall) = .ok ((), s.txPast h len stall) := by
  unfold awaitAccesses
  rw [bind_next (getChip_run _), Chip.retire_groupOps, ho]
  rfl

theorem checkAccess_past (hm : s.mayScratch h m) {a : Access} (ha : a.who.mode = h.team.raceMode) (gs : GranLanes) (len stall : Nat) :
    checkAccess a gs (s.txPast h len stall) = .ok ((), s.txPast h len stall) := by
  obtain ⟨-, hpart, -⟩ := hm.plain
  refine checkAccess_off (ha.trans hm.unraced) ?_ gs
  rwa [Chip.retire_keeps Chip.cores fun _ _ _ => rfl]

end


/-! ## LDS (R370) -/

/-- What follows either of two steps. -/
theorem ite_bind_run (p : Prop) [Decidable p] (a b k : Act Unit) (t : Tx) :
    (if p then a >>= fun _ => k else b >>= fun _ => k) t = ((if p then a else b) >>= fun _ => k) t := by
  split <;> rfl

/-- A wait that is over. -/
theorem ite_skip_run {p : Bool} (hp : p = false) (a k : Act Unit) (t : Tx) : (if p then a else k) t = k t := by
  rw [hp]
  rfl

/-- A core's granules marked full or empty, where an access does so. -/
def Chip.refilled (c : Chip) (core : Nat) (grans : List Nat) (p v : Bool) : Chip :=
  if p then c.modCore core fun k => k.markFull grans v else c

theorem refill_run (core : Nat) (grans : List Nat) (p v : Bool) (t : Tx) :
    (if p then modCore core fun k => k.markFull grans v else pure ()) t = .ok ((), { t with chip := t.chip.refilled core grans p v }) := by
  cases p <;> rfl

section
variable (c : Chip) (g core : Nat) (grans : List Nat) (p v : Bool)

theorem Chip.refilled_within : c.within (c.refilled core grans p v) g core := by
  cases p
  · exact (Chip.staysAt_refl c g core).within
  · exact (Chip.within_modCore c g core fun k => k.markFull grans v :)

theorem Chip.refilled_group (g : Nat) : (c.refilled core grans p v).group? g = c.group? g := by cases p <;> rfl

theorem Chip.refilled_scratch : ((c.refilled core grans p v).core core).scratch = (c.core core).scratch := by
  cases p
  · rfl
  · rw [Chip.refilled, if_pos rfl, Chip.core_modCore_same]
    rfl

theorem Chip.refilled_isFull (w : Nat) : ((c.refilled core grans p v).core core).isFull w =
    if p && grans.contains w then v else (c.core core).isFull w := by
  cases p
  · rfl
  · rw [Chip.refilled, if_pos rfl, Chip.core_modCore_same, Core.isFull_markFull, Bool.true_and]

end

section
variable {s : State} {h : Here} {m : MemForm}

/-- The bytes that the lanes of a load find. -/
abbrev MemForm.scrLoaded (m : MemForm) (s : State) (h : Here) : List (Nat × List Byte) :=
  (m.scrAddrs h).map fun l => (l.1, (s.chip.core h.core).bytes (h.team.scrLo + l.2.toNat) m.type.size)

theorem MemForm.scrLoaded_lt : ∀ b ∈ m.scrLoaded s h, b.1 < 32 := by
  intro b hb
  obtain ⟨l, hl, rfl⟩ := List.mem_map.mp hb
  exact MemForm.scrAddrs_lt hl

/-- The chip that an LDS leaves: its group's registers hold the loaded bytes, and its granules are empty where FEC says so. -/
structure State.scratchLoaded (s : State) (h : Here) (m : MemForm) (d : Chip) : Prop where
  within : (s.chip.retire h m.form.len m.form.stall s.clk).within d h.g h.core
  scene : ∃ x : Group, x.scene = (h.groupPast m.form.len m.form.stall s.clk).scene ∧
    (d.group? h.g).map Group.scene = some (x.setLanes m.vt m.type.regs m.type.tag (m.scrLoaded s h)).scene
  scratch : (d.core h.core).scratch = (s.chip.core h.core).scratch
  full : ∀ w, (d.core h.core).isFull w =
    if m.fec && (scrFullGrans h m.type.size (m.scrAddrs h)).contains w then false else (s.chip.core h.core).isFull w

theorem lds_performs (hm : s.mayScratch h m) (hi : s.mayIssue h (m.uses false))
    (hf : m.few = true → ∀ w ∈ scrFullGrans h m.type.size (m.scrAddrs h), (s.chip.core h.core).isFull w) :
    ∃ c, ldsOp m s.tx = .ok ((), { s.tx with chip := c }) ∧ s.scratchLoaded h m c := by
  have hfew : (m.few && !(scrFullGrans h m.type.size (m.scrAddrs h)).all (s.chip.core h.core).isFull) = false := by
    cases hw : m.few with
    | false => rfl
    | true => simpa using hf hw
  let n := m.type.size
  let ls := m.scrAddrs h
  let full := scrFullGrans h n ls
  let c0 := s.chip.retire h m.form.len m.form.stall s.clk
  let a : Access := ⟨if m.few then c0.filled h.actor h.core full else h.actor, if m.few then 10 else if m.sync then 2 else 0,
    m.few || m.sync, if m.sync then max m.scope (if m.few then 2 else 0) else 2, false⟩
  have hmode : a.who.mode = h.team.raceMode := by
    show (if m.few then c0.filled h.actor h.core full else h.actor).mode = _
    split <;> rfl
  let grans := distinct ((scrLaneGrans h n ls).map Prod.snd)
  obtain ⟨_, c1, hmarks, h1⟩ := stepStays_each (g := h.g) (f := markRead a) grans
    (fun w hw => markRead_stays (scrLaneGrans_core w hw) a) { s.tx with chip := c0 }
  let c2 := c1.modGroup h.g fun x => ls.foldl (fun x l =>
    x.setLane m.vt m.type.regs m.type.tag l.1 ((s.chip.core h.core).bytes (h.team.scrLo + l.2.toNat) n)) x
  obtain ⟨_, c3, hlearn, h3⟩ := stepStays_ite (g := h.g) (core := h.core) (p := m.few = true) (fun _ => learnFills_stays full)
    (fun _ => stepStays_pure ()) { s.tx with chip := c2 }
  let c4 := c3.refilled h.core full m.fec false
  obtain ⟨_, c5, hteach, h5⟩ := stepStays_ite (g := h.g) (core := h.core) (p := a.sync = true)
    (fun _ => stepStays_each grans fun w hw => acquireGran_stays (who := h.actor) (scrLaneGrans_core w hw) rfl rfl a.scope c0.seq)
    (fun _ => stepStays_each grans fun w _ => rememberLoad_stays (w := w) (who := h.actor) rfl) { s.tx with chip := c4 }
  have hfold : c2 = c1.modGroup h.g fun x => x.setLanes m.vt m.type.regs m.type.tag (m.scrLoaded s h) := by
    simp only [Group.setLanes, List.foldl_map]
    rfl
  have hawake (x : Group) : Group.staysAwake (fun x => x.setLanes m.vt m.type.regs m.type.tag (m.scrLoaded s h)) x :=
    Group.staysAwake_sameBody (Group.setLanes_keeps x _ _ _ _).1
  have hall : c0.within c5 h.g h.core := Chip.within_trans h1.within (Chip.within_trans
    (hfold ▸ Chip.within_modGroup c1 h.g h.core hawake) (Chip.within_trans h3.within
      (Chip.within_trans (Chip.refilled_within ..) h5.within)))
  refine ⟨c5, ?_, ?_⟩
  · unfold ldsOp
    rw [issue_next hi, onceIf_run hm.lanes, checkIndices_ok hm.indices, bind_next (pure_run _ _), checkScratch_ok hm,
      bind_next (pure_run _ _), checkAlign_ok (fun l hl => (hm.places l hl).2), bind_next (pure_run _ _),
      bind_next (awaitAcquire_past (by simp [hm.alone]) _ _),
      bind_next (awaitOwnOpm_past hm.alone _ _ _ _), bind_next (getChip_run _), Chip.retire_core, hfew]
    refine (bind_next (checkAccess_past hm hmode (scrLaneGrans h n ls) _ _)).trans ((bind_next hmarks).trans ?_)
    refine (bind_next (modGroup_run _ _ _)).trans ?_
    refine (ite_then_run _ _ _ _).trans ((bind_next hlearn).trans ?_)
    refine (ite_then_run _ _ _ _).trans ((bind_next (refill_run _ _ _ _ _)).trans ?_)
    refine (ite_bind_run _ _ _ _ _).trans ((bind_next hteach).trans ?_)
    exact countMem_unsampled hm.unsampled (hall.ctxs.trans (Chip.retire_keeps Chip.ctxs (fun _ _ _ => rfl) ..)) _ _ _
  · refine ⟨hall, ?_, ?_, fun w => ?_⟩
    · obtain ⟨hg, -⟩ := State.acts_eq hi.1
      have hs1 := h1.scene
      rw [show (c0.group? h.g) = _ from Chip.retire_group hg _ _ _, Option.map_some, Option.map_eq_some_iff] at hs1
      obtain ⟨x, hx, hscene⟩ := hs1
      refine ⟨x, hscene, ?_⟩
      rw [h5.scene, Chip.refilled_group, h3.scene, hfold, Chip.group_modGroup_same, hx]
      rfl
    · rw [h5.scratch, Chip.refilled_scratch, h3.scratch, Chip.core_modGroup, h1.scratch, Chip.retire_core]
    · rw [Core.isFull_of_full h5.full, Chip.refilled_isFull, Core.isFull_of_full h3.full, Chip.core_modGroup, Core.isFull_of_full h1.full,
        Chip.retire_core]

end

/-- An LDS may issue: a FEW read finds its granules full (R104). -/
abbrev State.mayLoadScratch (s : State) (h : Here) (m : MemForm) : Prop :=
  s.mayIssue h (m.uses false) ∧ (m.few = true → ∀ w ∈ scrFullGrans h m.type.size (m.scrAddrs h), (s.chip.core h.core).isFull w)

section
variable {s : State} {h : Here} {m : MemForm} {d : Chip}

theorem State.scratchLoaded_passes (ha : s.acts h) (hd : s.scratchLoaded h m d) : s.passes { s with chip := d } h m.form m.regs [] := by
  obtain ⟨hg, hp, -⟩ := State.acts_eq ha
  obtain ⟨x, hx, hscene⟩ := hd.scene
  obtain ⟨y, hy, hyx⟩ := Option.map_eq_some_iff.mp hscene
  simp only [Group.scene, Prod.mk.injEq] at hx hyx
  obtain ⟨xv, xs, xp, xpaths, -⟩ := hx
  obtain ⟨yv, ys, yp, ypaths, -⟩ := hyx
  obtain ⟨⟨kpaths, -, kp⟩, ks⟩ := Group.setLanes_keeps x m.vt m.type.regs m.type.tag (m.scrLoaded s h)
  refine ⟨⟨?_, State.retired_of_teams hd.within.teams, rfl, rfl, rfl, fun g hne => ?_, fun r l hl hr => ?_, fun r _ => ?_,
    fun r => ?_⟩, rfl⟩
  · rw [Chip.path?, hy, Option.bind_some, ypaths, kpaths, xpaths, Here.groupPast, mget_mmod, if_pos rfl, hp]
    rfl
  · exact (hd.within.slots g hne).trans (Chip.retire_slot_other _ _ _ _ _ hne)
  · have hout : r < m.vt ∨ m.vt + m.type.regs ≤ r := by
      by_contra hin
      exact hr (List.mem_map.mpr ⟨r - m.vt, List.mem_range.mpr (by omega), by omega⟩)
    have hset := Group.setLanes_other (tag := m.type.tag) (MemForm.scrLoaded_lt (s := s) (h := h) (m := m)) x hl
      (hout.elim .inl fun h => .inr (.inl h))
    simp only [State.vreg, hy, hg, Option.map_some, Option.getD_some]
    rw [Group.vreg, yv]
    refine hset.trans ?_
    rw [Group.vreg, xv]
    rfl
  · simp only [State.sreg, hy, hg, Option.map_some, Option.getD_some]
    rw [Group.sreg, ys, ks, xs]
    rfl
  · simp only [State.preg, hy, hg, Option.map_some, Option.getD_some]
    rw [Group.preg, yp, kp, xp]
    rfl

/-- Every lane of a load has its bytes, and every other lane what it had. -/
theorem State.scratchLoaded_vreg (ha : s.acts h) (hd : s.scratchLoaded h m d) {k l : Nat} (hk : k < m.type.regs) (hl : l < 32) :
    State.vreg { s with chip := d } h.g (m.vt + k) l = match (m.scrAddrs h).find? fun x => x.1 = l with
      | some x => ⟨loadedWord ((s.chip.core h.core).bytes (h.team.scrLo + x.2.toNat) m.type.size) k, m.type.tag⟩
      | none => s.vreg h.g (m.vt + k) l := by
  obtain ⟨hg, -⟩ := State.acts_eq ha
  obtain ⟨x, hx, hscene⟩ := hd.scene
  obtain ⟨y, hy, hyx⟩ := Option.map_eq_some_iff.mp hscene
  simp only [Group.scene, Prod.mk.injEq] at hx hyx
  obtain ⟨xv, -⟩ := hx
  obtain ⟨yv, -⟩ := hyx
  have hfst : (m.scrLoaded s h).map Prod.fst = (m.scrAddrs h).map Prod.fst := by simp [Function.comp_def]
  have hv : State.vreg { s with chip := d } h.g (m.vt + k) l =
      (x.setLanes m.vt m.type.regs m.type.tag (m.scrLoaded s h)).vreg (m.vt + k) l := by
    simp only [State.vreg, hy, Option.map_some, Option.getD_some]
    rw [Group.vreg, yv, Group.vreg]
  rw [hv]
  cases hfind : (m.scrAddrs h).find? fun x => x.1 = l with
  | some z =>
    have hz : z.1 = l := by simpa using List.find?_some hfind
    subst hz
    have hmem : (z.1, (s.chip.core h.core).bytes (h.team.scrLo + z.2.toNat) m.type.size) ∈ m.scrLoaded s h :=
      List.mem_map_of_mem (List.mem_of_find?_eq_some hfind)
    exact Group.setLanes_vreg MemForm.scrLoaded_lt (hfst ▸ MemForm.scrAddrs_nodup) x hmem hk
  | none =>
    have hout : l ∉ (m.scrLoaded s h).map Prod.fst := by
      rw [hfst]
      intro hin
      obtain ⟨z, hz, rfl⟩ := List.mem_map.mp hin
      simpa using List.find?_eq_none.mp hfind z hz
    rw [Group.setLanes_other MemForm.scrLoaded_lt x hl (.inr (.inr hout)), State.vreg, hg, Group.vreg, xv]
    rfl

end

/-! ## FEW_FILL_OBTAINED (R104) -/

/-- A FEW read that has waited runs as its own issue would. -/
theorem exec_fewFillObtained {s : State} {h : Here} {f : MemXF} (ha : s.acts h) (hactor : s.actor = (h.g, h.p))
    (hsave : h.team.saveBy = none) (hwait : h.path.wait = none) (hblocked : h.path.blocked = none) (hdbg : h.path.dbgHeld = false)
    (hheld : h.path.heldSince = none) (hready : h.path.readyAt ≤ s.clk) (hyield : h.path.yieldUntil ≤ s.clk) (hfew : f.few = 1)
    (hw : s.noWindow h) (hc : s.codeHot h 8) (hd : decode (s.code h 8) = some (.lds f, [])) (o : Nat × Nat) :
    exec (.fewFillObtained h.g h.p) { s with actor := o } = exec (.lds f) s := by
  have hs : { ({ s with actor := o } : State) with actor := (h.g, h.p) } = s := by
    rw [← hactor]
  have hhere : here s.tx = .ok (h, s.tx) := here_run ha
  have hfetch : (do fetchInstr (← here)) s.tx = .ok (.lds f, s.tx) := (bind_next hhere).trans (fetchInstr_code hw hc hd)
  have hopen : (do
      let h ← here
      enabled (h.team.saveBy.isNone && h.path.wait.isNone && h.path.blocked.isNone && !h.path.dbgHeld && h.path.heldSince.isNone &&
        h.path.readyAt ≤ s.clk && h.path.yieldUntil ≤ s.clk)) s.tx = .ok ((), s.tx) := by
    rw [bind_next hhere]
    simp [hsave, hwait, hblocked, hdbg, hheld, hready, hyield]
  show execFewFillObtained h.g h.p { s with actor := o } = execLds f s
  unfold execFewFillObtained
  simp only [hs, hfetch, hfew, if_true, hopen, State.commit_tx]
  rfl

/-! ## STS (R411) -/

/-- A change of a slot that leaves its group parks nobody. -/
theorem Chip.setSlot_nobody {c : Chip} (hc : c.parkedSides = []) {g : Nat} {v : Slot} (hv : v.group = c.group? g) :
    (c.setSlot g v).parkedSides = [] := by
  rw [Chip.parkedSides_nil_iff] at hc ⊢
  intro e he x hx hs
  rcases mem_mset e he with h | rfl
  · exact hc e h x hx hs
  · rw [hv, Chip.group?, Chip.slot, mgetD] at hx
    cases hm : mget? c.slots g with
    | none =>
      rw [hm] at hx
      simp [Slot.init] at hx
    | some w =>
      rw [hm] at hx
      exact hc _ (mget_mem hm) x hx hs

theorem Chip.published_within (c : Chip) (g core : Nat) (rel : Bool) : c.within (c.published g rel) g core := by
  cases rel with
  | false => exact (Chip.staysAt_refl c g core).within
  | true =>
    refine Chip.within_trans (d := c.setSlot g { c.slot g with clock := (c.slot g).clock + 1 })
      ⟨rfl, rfl, fun i hi => ?_, fun _ _ => rfl, ?_⟩
      (Chip.within_modGroup _ g core fun x => ⟨rfl, id⟩)
    · exact (Chip.slot_setSlot ..).trans (if_neg hi)
    · exact fun hn => Chip.setSlot_nobody hn rfl

theorem Chip.published_scene (c : Chip) (g : Nat) (rel : Bool) :
    ((c.published g rel).group? g).map Group.scene = (c.group? g).map Group.scene := by
  cases rel with
  | false => rfl
  | true =>
    simp only [Chip.published, if_true, Chip.group_modGroup_same, Option.map_map]
    rw [Chip.group?, Chip.slot_setSlot_same]
    rfl

theorem Chip.published_core (c : Chip) (g k : Nat) (rel : Bool) : (c.published g rel).core k = c.core k := by
  cases rel with
  | false => rfl
  | true => exact Chip.core_modGroup ..

section
variable {s : State} {h : Here} {m : MemForm}

theorem Chip.retire_matHolds (c : Chip) (h : Here) (len stall now core : Nat) (mine : Actor → Bool) (a n : Nat) :
    (c.retire h len stall now).matHolds core mine a n = c.matHolds core mine a n := by
  have hteam (i : Nat) : (mget? (c.retire h len stall now).teams i).map Team.scrLo = (mget? c.teams i).map Team.scrLo := by
    rw [Chip.retire_teams, mget_mmod]
    split
    · next hi =>
      rw [hi, Option.map_map]
      rfl
    · rfl
  unfold Chip.matHolds
  rw [Chip.retire_core]
  refine congrArg _ (funext fun o => ?_)
  have ho := hteam o.2.who.tid
  congr 1
  cases h1 : mget? c.teams o.2.who.tid <;> cases h2 : mget? (c.retire h len stall now).teams o.2.who.tid <;>
    simp_all

/-- No unstarted drain of a core is left to read scratch bytes as residual. -/
theorem residualHolds_past (hd : ∀ e ∈ (s.chip.core h.core).order, e.2.kind = .tdrn → e.2.startAt = none → e.2.status ≠ none)
    (mine : Actor → Bool) (rs : List (Nat × Nat)) (len stall : Nat) :
    residualHolds h.core mine rs (s.txPast h len stall) = .ok (false, s.txPast h len stall) := by
  have hnone : ((s.txPast h len stall).chip.core h.core).order.filter (fun o =>
      mine o.2.who && o.2.kind = .tdrn && o.2.status.isNone && o.2.startAt.isNone) = [] := by
    rw [Chip.retire_core, List.filter_eq_nil_iff]
    intro e he hc
    simp only [Bool.and_eq_true, decide_eq_true_eq, Option.isNone_iff_eq_none] at hc
    obtain ⟨⟨⟨-, hkind⟩, hstatus⟩, hstart⟩ := hc
    exact hd e he hkind hstart hstatus
  unfold residualHolds
  split
  · rfl
  · rw [bind_next (getChip_run _), hnone]
    rfl

/-- The blocks that the lanes of a store write. -/
abbrev MemForm.scrStored (m : MemForm) (h : Here) : List (Nat × List Byte) :=
  (m.scrAddrs h).map fun l => (h.team.scrLo + l.2.toNat, h.grp.laneBytes m.vt m.type.regs m.type.size l.1)

/-- An STS may issue: its tags fit, its clock crosses no multiple of 2^14, and no matrix operation holds its places (R139, R197). -/
structure State.mayStoreScratch (s : State) (h : Here) (m : MemForm) : Prop where
  issues : s.mayIssue h (m.uses true)
  clock : m.sync = true → (h.slot.clock + 1).toNat % 2 ^ 14 ≠ 0
  tags : 5 ≤ m.ty → ∀ l, l < 32 → laneBit (h.lanes m.form.g) l → (h.v m.vt l).tag = m.type.tag
  free : ∀ l ∈ m.scrAddrs h,
    s.chip.matHolds h.core (fun w => w.slot = h.g && w.agent = h.agent) (h.team.scrLo + l.2.toNat) m.type.size = false
  drained : ∀ e ∈ (s.chip.core h.core).order, e.2.kind = .tdrn → e.2.startAt = none → e.2.status ≠ none

/-- The chip that an STS leaves: its lanes' blocks stand in scratch, and its granules are full where FES says so. -/
structure State.scratchStored (s : State) (h : Here) (m : MemForm) (d : Chip) : Prop where
  within : (s.chip.retire h m.form.len m.form.stall s.clk).within d h.g h.core
  scene : (d.group? h.g).map Group.scene = some (h.groupPast m.form.len m.form.stall s.clk).scene
  scratch : (d.core h.core).scratch = ((s.chip.core h.core).setBlocks (m.scrStored h)).scratch
  full : ∀ w, (d.core h.core).isFull w =
    if m.fes && (scrFullGrans h m.type.size (m.scrAddrs h)).contains w then true else (s.chip.core h.core).isFull w

theorem sts_performs (hm : s.mayScratch h m) (hs : s.mayStoreScratch h m) :
    ∃ c, stsOp m s.tx = .ok ((), { s.tx with chip := c }) ∧ s.scratchStored h m c := by
  let n := m.type.size
  let ls := m.scrAddrs h
  let full := scrFullGrans h n ls
  let own := fun w : Actor => decide (w.slot = h.g) && decide (w.agent = h.agent)
  let at_ := ls.map fun l => (h.team.scrLo + l.2.toNat, n)
  let c0 := s.chip.retire h m.form.len m.form.stall s.clk
  let a : Access := ⟨h.actor, if m.sync then 3 else 1, m.sync, m.scope, true⟩
  let grans := distinct ((scrLaneGrans h n ls).map Prod.snd)
  obtain ⟨hacts, -⟩ := hs.issues
  obtain ⟨hgrp, -⟩ := State.acts_eq hacts
  obtain ⟨hg, -, -, -, -, -, -, -, hslot⟩ := Chip.here_eq hacts
  have hfree : (at_.any fun r => c0.matHolds h.core own r.1 r.2) = false := by
    rw [List.any_eq_false]
    intro r hr
    obtain ⟨l, hl, rfl⟩ := List.mem_map.mp hr
    rw [Chip.retire_matHolds, hs.free l hl]
    exact Bool.false_ne_true
  have hwait : (if m.sync then awaitAccesses h.g else pure ()) (s.txPast h m.form.len m.form.stall) =
      .ok ((), s.txPast h m.form.len m.form.stall) := by
    rw [ite_run, awaitAccesses_past hm.alone, pure_run, ite_self]
  let c1 := c0.modCore h.core fun k => ls.foldl (fun k l =>
    k.setBytes (h.team.scrLo + l.2.toNat) (h.grp.laneBytes m.vt m.type.regs n l.1)) k
  have hfold : c1 = c0.modCore h.core fun k => k.setBlocks (m.scrStored h) := by
    simp only [Core.setBlocks, List.foldl_map]
    rfl
  obtain ⟨_, c2, hmarks, h2⟩ := stepStays_each (g := h.g) (f := fun w => markWrite a w h.grp.relScope) grans
    (fun w hw => markWrite_stays (scrLaneGrans_core w hw) a _) { s.tx with chip := c1 }
  obtain ⟨_, c3, hrel, h3⟩ := stepStays_ite (g := h.g) (core := h.core) (p := m.sync = true)
    (fun _ => stepStays_each grans fun w hw => releaseRecord_stays (scrLaneGrans_core w hw) h.actor h.slot.clock
      (max m.scope h.grp.relScope) false) (fun _ => stepStays_pure ()) { s.tx with chip := c2 }
  let c4 := c3.published h.g m.sync
  let c5 := c4.refilled h.core full m.fes true
  have hclock : (c3.slot h.g).clock = h.slot.clock := by
    rw [h3.clock, h2.clock, hslot, hg]
    exact Chip.retire_clock ..
  have hall : c0.within c5 h.g h.core :=
    Chip.within_trans (d := c1) (Chip.within_modCore ..) (Chip.within_trans h2.within (Chip.within_trans h3.within
      (Chip.within_trans (d := c4) (Chip.published_within ..) (Chip.refilled_within ..))))
  have hcount : countMem h n ls none { s.tx with chip := c5 } = .ok ((), { s.tx with chip := c5 }) :=
    countMem_unsampled hm.unsampled (hall.ctxs.trans (Chip.retire_keeps Chip.ctxs (fun _ _ _ => rfl) ..)) _ _ _
  have hnobody : c5.parkedSides = [] := by
    obtain ⟨hn, -⟩ := hm.plain
    exact hall.nobody (Chip.retire_nobody hn _ _ _ _)
  refine ⟨c5, ?_, ?_⟩
  · unfold stsOp
    rw [issue_next hs.issues, onceIf_run hm.lanes, checkTyped_ok hs.tags, bind_next (pure_run _ _), checkIndices_ok hm.indices,
      bind_next (pure_run _ _), checkScratch_ok hm, bind_next (pure_run _ _), checkAlign_ok (fun l hl => (hm.places l hl).2),
      bind_next (pure_run _ _), bind_next (awaitAcquire_past (by simp [hm.alone]) _ _), bind_next (awaitOwnOpm_past hm.alone _ _ _ _),
      bind_next (getChip_run _)]
    refine (ite_skip_run hfree _ _ _).trans ((bind_next (residualHolds_past hs.drained own at_ _ _)).trans ?_)
    refine (ite_skip_run rfl _ _ _).trans ((ite_then_run _ _ _ _).trans ((bind_next hwait).trans ?_))
    refine (bind_next (checkAccess_past hm rfl (scrLaneGrans h n ls) _ _)).trans ((bind_next (modCore_run _ _ _)).trans ?_)
    refine (bind_next hmarks).trans ((ite_then_run _ _ _ _).trans ((bind_next hrel).trans ?_))
    refine (bind_next (publishIf_run fun hsync => ?_)).trans ?_
    · rw [hclock]
      exact hs.clock hsync
    exact (ite_then_run _ _ _ _).trans ((bind_next (refill_run _ _ _ _ _)).trans ((bind_next hcount).trans (settle_none hnobody)))
  · refine ⟨hall, ?_, ?_, fun w => ?_⟩
    · rw [Chip.refilled_group, Chip.published_scene, h3.scene, h2.scene]
      exact congrArg (Option.map _) (Chip.retire_group hgrp _ _ _)
    · rw [Chip.refilled_scratch, Chip.published_core, h3.scratch, h2.scratch, hfold, Chip.core_modCore_same, Chip.retire_core]
    · rw [Chip.refilled_isFull, Chip.published_core, Core.isFull_of_full h3.full, Core.isFull_of_full h2.full, hfold,
        Chip.core_modCore_same, Core.isFull_of_full (Core.setBlocks_full ..), Chip.retire_core]

end

section
variable {s : State} {h : Here} {m : MemForm} {d : Chip}

/-- Of lanes that store to the same place the highest stands. -/
theorem State.scratchStored_byte (hm : s.mayScratch h m) (hd : s.scratchStored h m d) {l : Nat × Addr} (hl : l ∈ m.scrAddrs h)
    (hlast : ∀ l' ∈ m.scrAddrs h, l.1 < l'.1 → l'.2 ≠ l.2) {j : Nat} (hj : j < m.type.size) :
    (d.core h.core).byte (h.team.scrLo + l.2.toNat + j) = (h.grp.laneBytes m.vt m.type.regs m.type.size l.1).getD j 0 := by
  obtain ⟨xs, ys, hsplit⟩ := List.append_of_mem hl
  have hlater : ∀ l' ∈ ys, l.1 < l'.1 := by
    have hpair := MemForm.scrAddrs_pairwise (m := m) (h := h)
    rw [hsplit, List.pairwise_append, List.pairwise_cons] at hpair
    obtain ⟨-, ⟨hys, -⟩, -⟩ := hpair
    exact hys
  have hmem {l' : Nat × Addr} (h' : l' ∈ ys) : l' ∈ m.scrAddrs h := by
    rw [hsplit]
    exact List.mem_append_right _ (List.mem_cons_of_mem _ h')
  rw [Core.byte_of_scratch hd.scratch, MemForm.scrStored, hsplit, List.map_append, List.map_cons]
  refine Core.setBlocks_last _ _ _ (h.team.scrLo + l.2.toNat, _) (fun b hb => ?_) (by rwa [MemForm.type, Group.laneBytes_length])
  obtain ⟨l', h', rfl⟩ := List.mem_map.mp hb
  have hne : l.2.toNat ≠ l'.2.toNat := fun he => hlast l' (hmem h') (hlater l' h') (BitVec.eq_of_toNat_eq he).symm
  have hapart := aligned_disjoint (hm.places l hl).2 (hm.places l' (hmem h')).2 hne
  simp only [MemForm.type, Group.laneBytes_length] at hapart ⊢
  omega

theorem State.scratchStored_other (hd : s.scratchStored h m d) {a : Nat}
    (ha : ∀ l ∈ m.scrAddrs h, a < h.team.scrLo + l.2.toNat ∨ h.team.scrLo + l.2.toNat + m.type.size ≤ a) :
    (d.core h.core).byte a = (s.chip.core h.core).byte a := by
  rw [Core.byte_of_scratch hd.scratch]
  refine Core.setBlocks_other (fun b hb => ?_) _
  obtain ⟨l, hl, rfl⟩ := List.mem_map.mp hb
  have hout := ha l hl
  simp only [MemForm.type, Group.laneBytes_length] at hout ⊢
  exact hout

/-- The path has passed the store, and its group keeps its registers. -/
theorem State.scratchStored_path (ha : s.acts h) (hd : s.scratchStored h m d) :
    d.path? h.g h.p = some (h.past m.form.len m.form.stall s.clk) ∧ s.sameRegs { s with chip := d } h.g := by
  obtain ⟨hg, hp, -⟩ := State.acts_eq ha
  obtain ⟨y, hy, hyx⟩ := Option.map_eq_some_iff.mp hd.scene
  simp only [Group.scene, Prod.mk.injEq] at hyx
  obtain ⟨yv, ys, yp, ypaths, -⟩ := hyx
  refine ⟨?_, State.sameRegs_of_group hg hy ⟨yv, ys, yp⟩⟩
  rw [Chip.path?, hy, Option.bind_some, ypaths, Here.groupPast, mget_mmod, if_pos rfl, hp]
  rfl

end

/-- Settles O20: a load and a store by what they leave, and the FEW read that has waited as a load. -/
theorem scratchAccess : Obligations.ScratchAccess := by
  intro s h m hplain hu halone hrace hl n ls at_ core full hix hplace loads stores
  have hm : s.mayScratch h m := ⟨hplain, hu, halone, hrace, hl, hix, hplace⟩
  have hempty : ∀ p b : Bool, (if p then false else b) = (b && !p) := by decide
  have hfill : ∀ p b : Bool, (if p then true else b) = (b || p) := by decide
  have hload : ∀ {out : Host.Outcome State Fault Refusal} {len : Nat}, out = runZha len (ldsOp m) s → loads out := by
    intro out len hout hi hf
    obtain ⟨d, hd, h'⟩ := lds_performs hm hi hf
    obtain ⟨hacts, -⟩ := hi
    refine ⟨{ s with chip := d }, hout.trans (runZha_next hd), State.scratchLoaded_passes hacts h', h'.scratch, fun k hk => ?_,
      fun w => ?_, fun k l hk hl => ?_⟩
    · exact (h'.within.cores k hk).trans (Chip.retire_core ..)
    · exact (h'.full w).trans (hempty _ _)
    · exact State.scratchLoaded_vreg hacts h' hk hl
  have hstore : ∀ {out : Host.Outcome State Fault Refusal} {len : Nat}, out = runZha len (stsOp m) s → stores out := by
    intro out len hout hi hclk htag hfree hdrain
    obtain ⟨d, hd, h'⟩ := sts_performs hm ⟨hi, hclk, htag, hfree, hdrain⟩
    obtain ⟨hacts, -⟩ := hi
    obtain ⟨hpath, hregs⟩ := State.scratchStored_path hacts h'
    refine ⟨{ s with chip := d }, hout.trans (runZha_next hd), hpath, hregs, rfl, State.retired_of_teams h'.within.teams, fun k hk => ?_,
      fun w => ?_, fun l hl hlast j hj => State.scratchStored_byte hm h' hl hlast hj, fun a ha => State.scratchStored_other h' ha⟩
    · exact (h'.within.cores k hk).trans (Chip.retire_core ..)
    · exact (h'.full w).trans (hfill _ _)
  refine ⟨fun f hf => ⟨hload (len := 4) (hf ▸ rfl), hstore (len := 4) (hf ▸ rfl)⟩,
    fun f hf => ⟨hload (len := 8) (hf ▸ rfl), hstore (len := 8) (hf ▸ rfl), ?_⟩⟩
  intro o hactor hsave hwait hblocked hdbg hheld hready hyield hfew hw hc _ hd hi hfull
  obtain ⟨hacts, -⟩ := id hi
  have hrun := exec_fewFillObtained hacts hactor hsave hwait hblocked hdbg hheld hready hyield hfew hw hc hd o
  exact hload (len := 8) (hrun.trans (hf ▸ rfl)) hi hfull

end Sys2Proof.Machine
end

section
/-! The uncorrectable error of a team (O42): a state in which the event that kills it is not enabled. The obligation speaks of
every state, also of one whose slot table lists a slot twice; there a wait that nobody sees stands behind the slot's first entry. -/

namespace Sys2Proof.Machine

/-- The deciding read of a parked MONW at address 0, whose comparison with 0 holds, under the race mode TRAP. -/
def monwAtZero : Wait := .monw 0 0 false 0 false 0 none 4 7 2

/-- A group of a team whose only path stands at supervisor level. -/
def supervisedGroup (tid : Nat) (w : Option Wait) : Group :=
  { Group.start placedRun tid 0 0 with
    paths := [(0, { Path.start 0 (BitVec.allOnes 32) 0 with level := .supervisor, wait := w })] }

/-- A store to the register window of slot 0 that has not performed (R100). -/
def windowStore : MemOp :=
  { seq := 0, kind := .store, lanes := [lane0 0 0 .opm 0 true], size := 4, dst := 0, regs := 0, tag := 0, acq := false, rel := false,
    scope := 0, op := 0, fmt := 0, relScope := 0, again := 0, held := false, reported := false, faultVa := 0,
    exited := false, w0 := 0, w1 := 0
    who := { slot := 0, path := 0, pc := 0, agent := 0, run := 1, tid := 1, team := 0, index := 0, ctx := 0, core := 0, clock := 0,
             chk := Checker.init, mode := 0, mask := 0, user := false } }

/-- Two teams of one run, both being saved. Slot 0 stands twice in its table: its first entry holds team 1, behind it is one of
team 2, and both wait on the same MONW. Slot 1 holds a group of team 2 that runs, and its directory a resident group of another
run, which has written the location. -/
def slotTwice : State :=
  { State.reset with chip := { Chip.reset with
      slots := [(0, { Slot.init with group := some (supervisedGroup 1 (some monwAtZero)) }),
                (0, { Slot.init with group := some (supervisedGroup 2 (some monwAtZero)) }),
                (1, { Slot.init with group := some (supervisedGroup 2 none), dir := [(0, ⟨7, 0, 0, 0, .resident⟩)] })]
      teams := [(1, { placedTeam with saveBy := some 0 }), (2, { placedTeam with num := 1, slots := [], saveBy := some 0 })]
      runs := [(1, placedRun)]
      marks := [(0, mkMark 1 0 0 0 0 0 0 0)]
      memq := [windowStore] } }

/-- Nobody waits there, as the waits of a team that is being saved do not count, and an error in slot 1 kills team 2. -/
theorem slotTwice_kills :
    slotTwice.nobodyWaits ∧ slotTwice.chip.link.retraining = none ∧ slotTwice.chip.eccTeam (.group 1) = some 2 ∧
      mget? slotTwice.chip.teams 2 = some { placedTeam with num := 1, slots := [], saveBy := some 0 } ∧
      mget? slotTwice.chip.runs 1 = some placedRun ∧ placedRun.idem = false ∧ slotTwice.chip.opmAgainst 2 = false := by
  decide +kernel

/-- The event is not enabled. Once team 2 is gone, the hidden side of slot 0 counts as waiting; its deciding read runs as team 1,
whose path waits likewise, and is a RACE, so that the double fault of a path at supervisor level is to kill team 1; but an
on-chip access against that team has not performed. -/
theorem slotTwice_stays : ∀ t, exec (.eccUncorrectable (.group 1)) slotTwice = .next t → (mget? t.chip.teams 2).isSome := by
  have hrun : (match exec (.eccUncorrectable (.group 1)) slotTwice with
      | .next t => (mget? t.chip.teams 2).isSome
      | _ => true) = true := by decide +kernel
  intro t ht
  rw [ht] at hrun
  exact hrun

/-- Refutes O42: with slot 0 listed twice, the error that is to kill team 2 leaves it in its place. -/
theorem not_agingAndErrors : ¬ Obligations.AgingAndErrors := by
  unfold Obligations.AgingAndErrors
  rintro ⟨-, -, -, -, -, -, hkill, -⟩
  obtain ⟨hn, hlink, hteam, hx, hr, hidem, hopm⟩ := slotTwice_kills
  obtain ⟨t, ht, hgone, -⟩ := hkill slotTwice (.group 1) 2 _ placedRun hn hlink hteam hx hr hidem hopm
  have hstays := slotTwice_stays t ht
  rw [hgone] at hstays
  exact Bool.false_ne_true hstays

end Sys2Proof.Machine
end

section
/-! Changes of one slot, and the one side that waits: what an instruction or an event leaves of the acting path, of the clock, and
of the sides that are parked. Nothing here supposes that a table lists a key once. -/

namespace Sys2Proof.Machine

/-! ## Changes of one slot -/

/-- A transaction that writes no memory, keeps every team, and of the slots changes at most one: its group by `f` and its clock
by `n`. -/
structure Tx.turnsSlot (t u : Tx) (g : Nat) (f : Group → Group) (n : BitVec 16) : Prop where
  rest : u = { t with chip := u.chip }
  teams : u.chip.teams = t.chip.teams
  slots : u.chip.slots = t.chip.slots ∨ u.chip.slots = mset t.chip.slots g (u.chip.slot g)
  group : u.chip.group? g = (t.chip.group? g).map f
  clock : (u.chip.slot g).clock = (t.chip.slot g).clock + n

section
variable {t u v : Tx} {g : Nat} {f f' : Group → Group} {n n' : BitVec 16}

theorem Tx.turnsSlot_trans (h : t.turnsSlot u g f n) (h' : u.turnsSlot v g f' n') : t.turnsSlot v g (fun x => f' (f x)) (n + n') where
  rest := by rw [h'.rest, h.rest]
  teams := h'.teams.trans h.teams
  slots := by
    rcases h.slots with e | e <;> rcases h'.slots with e' | e'
    · exact .inl (e'.trans e)
    · exact .inr (by rw [e', e])
    · have hslot : v.chip.slot g = u.chip.slot g := by simp only [Chip.slot, e']
      exact .inr (by rw [e', hslot, ← e])
    · exact .inr (e'.trans (by rw [e, mset_mset]))
  group := by
    rw [h'.group, h.group, Option.map_map]
    rfl
  clock := by rw [h'.clock, h.clock, BitVec.add_assoc]

/-- The same change, said otherwise. -/
theorem Tx.turnsSlot_as (h : t.turnsSlot u g f n) (hf : ∀ x, f x = f' x) (hn : n = n') : t.turnsSlot u g f' n' := by
  rwa [← funext hf, ← hn]

/-- A change of the chip in which slots and teams stay. -/
theorem Tx.turnsSlot_of_slots {d : Chip} (hs : d.slots = t.chip.slots) (ht : d.teams = t.chip.teams) (g : Nat) :
    t.turnsSlot { t with chip := d } g id 0 where
  rest := rfl
  teams := ht
  slots := .inl hs
  group := by simp only [Chip.group?, Chip.slot, hs, Option.map_id, id]
  clock := by simp [Chip.slot, hs]

theorem Tx.turnsSlot_modGroup (t : Tx) (g : Nat) (f : Group → Group) :
    t.turnsSlot { t with chip := t.chip.modGroup g f } g f 0 where
  rest := rfl
  teams := Chip.modGroup_teams ..
  slots := by
    unfold Chip.modGroup
    split
    · exact .inr (congrArg (mset t.chip.slots g) (Chip.slot_setSlot_same ..).symm)
    · exact .inl rfl
  group := Chip.group_modGroup_same ..
  clock := (Chip.slot_clock_modGroup ..).trans (BitVec.add_zero _).symm

theorem Tx.turnsSlot_clock (t : Tx) (g : Nat) (n : BitVec 16) :
    t.turnsSlot { t with chip := t.chip.setSlot g { t.chip.slot g with clock := (t.chip.slot g).clock + n } } g id n where
  rest := rfl
  teams := rfl
  slots := .inr (congrArg (mset t.chip.slots g) (Chip.slot_setSlot_same ..).symm)
  group := (congrArg Slot.group (Chip.slot_setSlot_same ..)).trans (Option.map_id_apply (x := t.chip.group? g)).symm
  clock := congrArg Slot.clock (Chip.slot_setSlot_same ..)

theorem Tx.turnsSlot_other (h : t.turnsSlot u g f n) {i : Nat} (hi : i ≠ g) : u.chip.slot i = t.chip.slot i := by
  rcases h.slots with e | e
  · simp only [Chip.slot, e]
  · rw [Chip.slot, e, mgetD, mget_mset_other _ _ hi]
    rfl

theorem Tx.turnsSlot_clk (h : t.turnsSlot u g f n) : u.clk = t.clk := by
  rw [h.rest]

/-- What the change of a slot commits is its chip. -/
theorem Tx.turnsSlot_commit {s : State} (h : s.tx.turnsSlot u g f n) : s.commit u = { s with chip := u.chip } := by
  rw [h.rest]
  rfl

end

/-- A published clock that crosses no multiple of 2^14 (R152). -/
theorem publish_turns {t : Tx} {g : Nat} (hc : ((t.chip.slot g).clock + 1).toNat % 2 ^ 14 ≠ 0) :
    ∃ u, publish g t = .ok ((t.chip.slot g).clock, u) ∧ t.turnsSlot u g (fun x => { x with relScope := 0 }) 1 := by
  refine ⟨_, ?_, Tx.turnsSlot_trans (Tx.turnsSlot_clock t g 1)
    (Tx.turnsSlot_modGroup _ g fun x => { x with relScope := 0 })⟩
  simp only [publish, bind_run, getChip_run, hc, decide_false, Bool.false_and, Bool.false_eq_true, if_false, modSlot_run, modGroup_run,
    Bool.or_false, pure_run]

/-! ## The acting path after a change of its slot -/

section
variable {s : State} {h : Here} {F : Form} {u : Tx} {f : Group → Group} {n : BitVec 16}

theorem State.txPast_commit (hu : (s.txPast h F.len F.stall).turnsSlot u h.g f n) : s.commit u = { s with chip := u.chip } := by
  rw [hu.rest]
  rfl

theorem State.txPast_group (ha : s.acts h) (hu : (s.txPast h F.len F.stall).turnsSlot u h.g f n) :
    u.chip.group? h.g = some (f (h.groupPast F.len F.stall s.clk)) :=
  hu.group.trans (congrArg (Option.map f) (Chip.retire_group (State.acts_eq ha).1 ..))

theorem State.txPast_clock (ha : s.acts h) (hu : (s.txPast h F.len F.stall).turnsSlot u h.g f n) :
    (u.chip.slot h.g).clock = h.slot.clock + n := by
  obtain ⟨hg, -, -, -, -, -, -, -, hslot⟩ := Chip.here_eq ha
  rw [hu.clock, Chip.retire_clock, hslot, hg]

/-- An instruction that leaves the paths of its group alone passes. -/
theorem State.passes_of_turn {sd : List Nat} (ha : s.acts h) (hu : (s.txPast h F.len F.stall).turnsSlot u h.g f n)
    (hpaths : ∀ x, (f x).paths = x.paths) (hv : ∀ x, (f x).v = x.v) (hp : ∀ x, (f x).p = x.p)
    (hs : ∀ x r, r ∉ sd → (f x).sreg r = x.sreg r) : s.passes (s.commit u) h F [] sd := by
  obtain ⟨hg, hpath, -⟩ := State.acts_eq ha
  have hgroup := State.txPast_group ha hu
  rw [State.txPast_commit hu]
  refine ⟨⟨?_, State.retired_of_teams hu.teams, rfl, rfl, rfl, fun i hi => ?_, fun r l _ _ => ?_, fun r hr => ?_, fun r => ?_⟩, rfl⟩
  · rw [Chip.path?, hgroup, Option.bind_some, hpaths, Here.groupPast, mget_mmod_same, hpath]
    rfl
  · exact (Tx.turnsSlot_other hu hi).trans (Chip.retire_slot_other _ _ _ _ _ hi)
  · simp only [State.vreg, hgroup, hg, Option.map_some, Option.getD_some, Group.vreg, hv]
    rfl
  · simp only [State.sreg, hgroup, hg, Option.map_some, Option.getD_some, hs _ r hr]
    rfl
  · simp only [State.preg, hgroup, hg, Option.map_some, Option.getD_some, Group.preg, hp]
    rfl

/-- The acting path's group once the path has parked. -/
def Here.parkedGroup (h : Here) (w : Wait) (now : Nat) (x : Group) : Group :=
  { x with paths := mmod x.paths h.p fun y => ({ y with wait := some w, pc := h.path.pc } : Path).releaseSwap now }

/-- Without a side that could take over, a release swap changes nothing (R22). -/
theorem Path.releaseSwap_lone {y : Path} (hy : y.sides = []) (now : Nat) : y.releaseSwap now = y := by
  rw [Path.releaseSwap, hy, takeLowest]

theorem noteParked_turns (tid g : Nat) (t : Tx) : ∃ u, noteParked tid t = .ok ((), u) ∧ t.turnsSlot u g id 0 := by
  unfold noteParked
  rw [bind_next (getChip_run t)]
  cases mget? t.chip.teams tid with
  | none => exact ⟨t, rfl, Tx.turnsSlot_of_slots rfl rfl g⟩
  | some x =>
    cases t.chip.teamParked tid
    · exact ⟨t, rfl, Tx.turnsSlot_of_slots rfl rfl g⟩
    · exact ⟨_, rfl, Tx.turnsSlot_of_slots (d := t.chip.modCluster _ _) rfl rfl g⟩

theorem parkOn_turns (h : Here) (w : Wait) (t : Tx) :
    ∃ u, parkOn h w t = .ok ((), u) ∧ t.turnsSlot u h.g (h.parkedGroup w t.clk) 0 := by
  obtain ⟨u, hu, hturn⟩ := noteParked_turns h.tid h.g { t with chip := t.chip.modGroup h.g (h.parkedGroup w t.clk) }
  exact ⟨u, hu, Tx.turnsSlot_trans (Tx.turnsSlot_modGroup t h.g (h.parkedGroup w t.clk)) hturn⟩

/-- An instruction that changes no register and ends with its path, which has no stacked side, parked. -/
theorem State.parks_of_turn {k : Group → Group} {w : Wait} (ha : s.acts h) (hside : h.path.sides = [])
    (hu : (s.txPast h F.len F.stall).turnsSlot u h.g (fun x => h.parkedGroup w s.clk (k x)) n)
    (hk : ∀ x, (k x).paths = x.paths ∧ (k x).v = x.v ∧ (k x).s = x.s ∧ (k x).p = x.p) : s.parks (s.commit u) h F w := by
  obtain ⟨hg, hpath, -⟩ := State.acts_eq ha
  have hgroup := State.txPast_group ha hu
  obtain ⟨hpaths, hv, hs, hp⟩ := hk (h.groupPast F.len F.stall s.clk)
  rw [State.txPast_commit hu]
  refine ⟨?_, ⟨fun r l => ?_, fun r => ?_, fun r => ?_⟩, rfl, State.retired_of_teams hu.teams⟩
  · rw [Chip.path?, hgroup, Option.bind_some, Here.parkedGroup, hpaths, Here.groupPast, mget_mmod_same, mget_mmod_same, hpath]
    exact congrArg some (Path.releaseSwap_lone (y := { h.path with wait := some w, readyAt := s.clk + 1 + F.stall }) hside s.clk)
  · simp only [State.vreg, hgroup, hg, Option.map_some, Option.getD_some, Here.parkedGroup, Group.vreg, hv]
    rfl
  · simp only [State.sreg, hgroup, hg, Option.map_some, Option.getD_some, Here.parkedGroup, Group.sreg, hs]
    rfl
  · simp only [State.preg, hgroup, hg, Option.map_some, Option.getD_some, Here.parkedGroup, Group.preg, hp]
    rfl

end

end Sys2Proof.Machine
end

section
/-! The one side that waits: what a change of its slot does to the sides that are parked, and how the wait ends when it settles. -/

namespace Sys2Proof.Machine

/-! ## Parked sides by slot -/

/-- The parked sides that a slot with a group stands for. -/
def Chip.sidesAt (c : Chip) (g : Nat) : Option Group → List Parked
  | some x => if c.saving x.tid then [] else x.paths.flatMap fun e => pathParked g e.1 e.2
  | none => []

theorem Chip.parkedSides_eq (c : Chip) : c.parkedSides = c.slots.flatMap fun e => c.sidesAt e.1 e.2.group := rfl

theorem Chip.mem_sidesAt {c : Chip} {g : Nat} {x : Group} {j : Parked} :
    j ∈ c.sidesAt g (some x) ↔ c.saving x.tid = false ∧ ∃ e ∈ x.paths, j ∈ pathParked g e.1 e.2 := by
  unfold Chip.sidesAt
  cases hs : c.saving x.tid <;> simp [hs]

theorem Chip.sidesAt_congr {c d : Chip} (h : d.teams = c.teams) (g : Nat) (o : Option Group) : d.sidesAt g o = c.sidesAt g o := by
  unfold Chip.sidesAt Chip.saving
  rw [h]

/-- A side of the group that a slot shows is parked. -/
theorem Chip.mem_parkedSides {c : Chip} {g : Nat} {j : Parked} (h : j ∈ c.sidesAt g (c.group? g)) : j ∈ c.parkedSides := by
  cases hm : mget? c.slots g with
  | none =>
    rw [Chip.group?, Chip.slot, mgetD, hm] at h
    exact absurd h List.not_mem_nil
  | some v =>
    rw [Chip.group?, Chip.slot, mgetD, hm] at h
    exact List.mem_flatMap.mpr ⟨_, mget_mem hm, h⟩

/-- An entry that adds nothing takes the place of none or of one that added nothing. -/
theorem flatMap_mset {α β : Type} {F : Nat × α → List β} {m : Map α} {k : Nat} {v : α} (hv : F (k, v) = [])
    (hm : ∀ w, mget? m k = some w → F (k, w) = []) : (mset m k v).flatMap F = m.flatMap F := by
  induction m with
  | nil => simp [mset, hv]
  | cons e r ih =>
    obtain ⟨j, w⟩ := e
    rcases Nat.lt_trichotomy k j with h | rfl | h
    · simp [mset, h, hv]
    · simp [mset, hv, hm w (if_pos rfl)]
    · have hj : j ≠ k := Nat.ne_of_lt h
      have hr : ∀ w, mget? r k = some w → F (k, w) = [] := fun w hw => hm w ((if_neg hj).trans hw)
      simp [mset, Nat.not_lt_of_gt h, Ne.symm hj, ih hr]

section
variable {t u : Tx} {g : Nat} {f : Group → Group} {n : BitVec 16}

/-- A change of one slot parks no side that the slot's group did not have parked. -/
theorem Tx.turnsSlot_parked (h : t.turnsSlot u g f n)
    (hf : ∀ x, ∀ j ∈ t.chip.sidesAt g (some (f x)), j ∈ t.chip.sidesAt g (some x)) :
    ∀ j ∈ u.chip.parkedSides, j ∈ t.chip.parkedSides := by
  intro j hj
  rw [Chip.parkedSides_eq] at hj
  obtain ⟨e, he, hj⟩ := List.mem_flatMap.mp hj
  rw [Chip.sidesAt_congr h.teams] at hj
  have hold : e ∈ t.chip.slots → j ∈ t.chip.parkedSides := fun he => List.mem_flatMap.mpr ⟨e, he, hj⟩
  rcases h.slots with hs | hs <;> rw [hs] at he
  · exact hold he
  · rcases mem_mset e he with he | rfl
    · exact hold he
    · have hgroup : (u.chip.slot g).group = (t.chip.group? g).map f := h.group
      refine Chip.mem_parkedSides (g := g) ?_
      rw [hgroup] at hj
      cases hg : t.chip.group? g with
      | none =>
        rw [hg] at hj
        exact hj
      | some x =>
        rw [hg] at hj
        exact hf x j hj

/-- A change of a slot whose group has nothing parked, before or after, parks nobody and wakes nobody. -/
theorem Tx.turnsSlot_sameParked (h : t.turnsSlot u g f n) (hg : t.chip.sidesAt g (t.chip.group? g) = [])
    (hf : t.chip.sidesAt g ((t.chip.group? g).map f) = []) : u.chip.parkedSides = t.chip.parkedSides := by
  have hsides : (fun e : Nat × Slot => u.chip.sidesAt e.1 e.2.group) = fun e => t.chip.sidesAt e.1 e.2.group :=
    funext fun e => Chip.sidesAt_congr h.teams e.1 e.2.group
  rw [Chip.parkedSides_eq, Chip.parkedSides_eq, hsides]
  rcases h.slots with hs | hs <;> rw [hs]
  refine flatMap_mset ?_ fun w hw => ?_
  · exact (congrArg (t.chip.sidesAt g) h.group).trans hf
  · rw [Chip.group?, Chip.slot, mgetD, hw] at hg
    exact hg

/-- A group's sides are parked by its team and its paths. -/
theorem Chip.sidesAt_sameBody {c : Chip} {x y : Group} (hp : y.paths = x.paths) (ht : y.tid = x.tid) (g : Nat) :
    c.sidesAt g (some y) = c.sidesAt g (some x) := by
  simp only [Chip.sidesAt, hp, ht]

end

/-! ## One side that waits -/

/-- No side is parked but `k`; it is one of its slot's group, or else that group counts for nothing (R269) and `k` is parked once,
behind it. -/
structure Chip.waitsAlone (c : Chip) (k : Parked) : Prop where
  only : ∀ j ∈ c.parkedSides, j = k
  shown : k ∈ c.sidesAt k.g (c.group? k.g) ∨ c.parkedSides = [k] ∧ c.sidesAt k.g (c.group? k.g) = []

/-- The running side of a path is the one side that waits. -/
structure Chip.runsAlone (c : Chip) (k : Parked) (q : Path) : Prop where
  alone : c.waitsAlone k
  side : k.side = none
  path : c.path? k.g k.p = some q
  wait : q.wait = some k.wait
  pc : q.pc = k.pc
  mask : q.mask = k.mask

section
variable {t u : Tx} {k : Parked} {q : Path} {f : Group → Group} {n : BitVec 16}

theorem State.waits_alone {s : State} (h : s.waits k q) : s.chip.runsAlone k q := by
  obtain ⟨hone, hside, hpath, hwait, hpc, hmask⟩ := h
  have honly : ∀ j ∈ s.chip.parkedSides, j = k := fun j hj => List.mem_singleton.mp (hone ▸ hj)
  refine ⟨⟨honly, ?_⟩, hside, hpath, hwait, hpc, hmask⟩
  rcases List.eq_nil_or_concat (s.chip.sidesAt k.g (s.chip.group? k.g)) with hnil | ⟨l, j, hl⟩
  · exact .inr ⟨hone, hnil⟩
  · have hj : j ∈ s.chip.sidesAt k.g (s.chip.group? k.g) := by simp [hl]
    exact .inl (honly j (Chip.mem_parkedSides hj) ▸ hj)

/-- A change of its slot that keeps the group's team and paths leaves it the one side that waits. -/
theorem Tx.turnsSlot_alone (h : t.turnsSlot u k.g f n) (hp : ∀ x, (f x).paths = x.paths) (ht : ∀ x, (f x).tid = x.tid)
    (hw : t.chip.runsAlone k q) : u.chip.runsAlone k q := by
  obtain ⟨⟨honly, hshown⟩, hside, hpath, hwait, hpc, hmask⟩ := hw
  have hbody (x : Group) : t.chip.sidesAt k.g (some (f x)) = t.chip.sidesAt k.g (some x) := Chip.sidesAt_sameBody (hp x) (ht x) k.g
  have hmap : t.chip.sidesAt k.g ((t.chip.group? k.g).map f) = t.chip.sidesAt k.g (t.chip.group? k.g) := by
    cases t.chip.group? k.g with
    | none => rfl
    | some x => exact hbody x
  have hsides : u.chip.sidesAt k.g (u.chip.group? k.g) = t.chip.sidesAt k.g (t.chip.group? k.g) := by
    rw [Chip.sidesAt_congr h.teams, h.group, hmap]
  refine ⟨⟨fun j hj => honly j (Tx.turnsSlot_parked h (fun x j hj => hbody x ▸ hj) j hj), ?_⟩, hside, ?_, hwait, hpc, hmask⟩
  · rw [hsides]
    exact hshown.imp_right fun ⟨hone, hnil⟩ => ⟨(Tx.turnsSlot_sameParked h hnil (hmap.trans hnil)).trans hone, hnil⟩
  · rw [Chip.path?, h.group, ← hpath, Chip.path?]
    cases t.chip.group? k.g with
    | none => rfl
    | some x => exact congrArg (mget? · k.p) (hp x)

/-! ## Resuming (R22) -/

theorem Chip.refind_running {c : Chip} (hw : c.runsAlone k q) : c.refind k = some k := by
  obtain ⟨-, hside, hpath, hwait, hpc, hmask⟩ := hw
  have hk : (⟨k.g, k.p, none, q.pc, q.mask, k.wait⟩ : Parked) = k := by rw [hpc, hmask, ← hside]
  simp [Chip.refind, hpath, pathParked, hwait, hk]

/-- The group of a running side that has resumed, with its results. -/
def Parked.resumed (k : Parked) (rs : List (Nat × Word)) (now : Nat) (x : Group) : Group :=
  let y := rs.foldl (fun x r => x.landS now r.1 k.mask r.2) x
  { y with paths := mmod y.paths k.p fun z => { z with wait := none, pc := z.pc + 8 } }

theorem resume_turns (hw : t.chip.runsAlone k q) (rs : List (Nat × Word)) :
    ∃ u, resume k rs t = .ok ((), u) ∧ t.turnsSlot u k.g (k.resumed rs t.clk) 0 := by
  refine ⟨_, ?_, Tx.turnsSlot_modGroup t k.g (k.resumed rs t.clk)⟩
  simp only [resume, bind_run, clock_run, getChip_run, Chip.refind_running hw, whenSome_some, modGroup_run, modPath_run, Chip.modPath_eq,
    Chip.modGroup_modGroup, hw.side, Path.unpark]
  rfl

/-- A side that has resumed without results is not parked any more, and nobody has parked. -/
theorem Parked.resumed_sides {c : Chip} (now : Nat) (x : Group) :
    ∀ j ∈ c.sidesAt k.g (some (k.resumed [] now x)), j ∈ c.sidesAt k.g (some x) := by
  have hpath (p : Nat) (z : Path) : ∀ j ∈ pathParked k.g p { z with wait := none, pc := z.pc + 8 }, j ∈ pathParked k.g p z := by
    intro j hj
    exact List.mem_append_right _ hj
  intro j hj
  obtain ⟨hsave, e, he, hj⟩ := Chip.mem_sidesAt.mp hj
  refine Chip.mem_sidesAt.mpr ⟨hsave, ?_⟩
  have hmod : e ∈ mmod x.paths k.p fun z => { z with wait := none, pc := z.pc + 8 } := he
  rcases mem_mmod e hmod with he | ⟨z, hz, rfl⟩
  · exact ⟨e, he, hj⟩
  · exact ⟨_, hz, hpath k.p z j hj⟩

/-- Once the one side that waits has resumed, nothing of it is found again where its group counts. -/
theorem Chip.refind_resumed {now : Nat} (hw : t.chip.runsAlone k q) (hk : k ∈ t.chip.sidesAt k.g (t.chip.group? k.g))
    (h : t.turnsSlot u k.g (k.resumed [] now) n) : u.chip.refind k = none := by
  obtain ⟨⟨honly, -⟩, hside, hpath, -⟩ := hw
  obtain ⟨x, hx, hq⟩ := Option.bind_eq_some_iff.mp hpath
  have hpath' : u.chip.path? k.g k.p = some { q with wait := none, pc := q.pc + 8 } := by
    rw [Chip.path?, h.group, hx]
    simp [Parked.resumed, hq]
  rw [hx] at hk
  obtain ⟨hsave, -⟩ := Chip.mem_sidesAt.mp hk
  have hnone : ∀ j ∈ pathParked k.g k.p { q with wait := none, pc := q.pc + 8 }, False := by
    intro j hj
    have hstack : j ∈ [0, 1, 2].flatMap fun i => (q.stackAt i).zipIdx.filterMap fun s =>
        s.1.wait.map fun w => (⟨k.g, k.p, some (i, s.2), s.1.pc, s.1.mask, w⟩ : Parked) := hj
    have hold : j ∈ t.chip.sidesAt k.g (t.chip.group? k.g) := by
      rw [hx]
      exact Chip.mem_sidesAt.mpr ⟨hsave, _, mget_mem hq, List.mem_append_right _ hstack⟩
    obtain ⟨i, -, hi⟩ := List.mem_flatMap.mp hstack
    obtain ⟨s, -, hs⟩ := List.mem_filterMap.mp hi
    obtain ⟨w, -, hj⟩ := Option.map_eq_some_iff.mp hs
    have hsome : j.side = some (i, s.2) := by rw [← hj]
    rw [honly j (Chip.mem_parkedSides hold), hside] at hsome
    simp at hsome
  rw [Chip.refind, hpath']
  exact List.find?_eq_none.mpr fun j hj => (hnone j hj).elim

/-! ## Settling -/

/-- A wait that the first round of settling looks at and no later one (R135, R198, R216). -/
def Wait.settlesFirst (w : Wait) : Prop := w.isLrel = false ∧ w.isLease = false ∧ w.isMonw = false

/-- The one side that waits settles once: where it is listed again, nothing is left to settle. -/
theorem settle_alone (hw : t.chip.waitsAlone k) (hk : k.wait.settlesFirst) (hu : settleSide k t = .ok ((), u))
    (honly : ∀ j ∈ u.chip.parkedSides, j = k) (hagain : t.chip.parkedSides ≠ [k] → settleSide k u = .ok ((), u)) :
    settle t = .ok ((), u) := by
  obtain ⟨hlrel, hlease, hmonw⟩ := hk
  have hall : t.chip.parkedSides.filter (fun j => !j.wait.isLrel) = t.chip.parkedSides :=
    List.filter_eq_self.mpr fun j hj => by simp [hw.only j hj, hlrel]
  have hmem : k ∈ t.chip.parkedSides := by
    rcases hw.shown with h | ⟨h, -⟩
    · exact Chip.mem_parkedSides h
    · simp [h]
  have hfirst : settleKind (fun w => !w.isLrel) t = .ok ((), u) := by
    unfold settleKind
    rw [bind_next (getChip_run t), hall]
    have hone := hw.only
    cases hl : t.chip.parkedSides with
    | nil => simp [hl] at hmem
    | cons j r =>
      rw [hl] at hone hagain
      rw [each_cons, hone j List.mem_cons_self, bind_next hu]
      refine each_id r fun i hi => ?_
      rw [hone i (List.mem_cons_of_mem _ hi)]
      refine hagain fun he => ?_
      rw [(List.cons.inj he).2] at hi
      exact List.not_mem_nil hi
  have hlater (p : Wait → Bool) (hp : p k.wait = false) : settleKind p u = .ok ((), u) := by
    have hnil : u.chip.parkedSides.filter (fun j => p j.wait) = [] :=
      List.filter_eq_nil_iff.mpr fun j hj => by simp [honly j hj, hp]
    unfold settleKind
    rw [bind_next (getChip_run u), hnil]
    rfl
  unfold settle
  rw [bind_next (getChip_run t), bind_next hfirst, bind_next (hlater _ hlrel), bind_next (hlater _ hlease)]
  exact each_id _ fun _ _ => hlater _ hmonw

/-- The path and the registers of a running side that has resumed without results. -/
theorem State.resumes_of_turn {s : State} {v : Tx} (hw : s.waits k q) (h : s.tx.turnsSlot v k.g f n)
    (hf : ∀ x, (f x).paths = mmod x.paths k.p fun z => { z with wait := none, pc := z.pc + 8 })
    (hr : ∀ x, (f x).v = x.v ∧ (f x).s = x.s ∧ (f x).p = x.p) : s.resumes (s.commit v) k q [] := by
  obtain ⟨-, -, hpath, -⟩ := hw
  obtain ⟨x, hx, hq⟩ := Option.bind_eq_some_iff.mp hpath
  obtain ⟨hv, hs, hp⟩ := hr x
  have hgroup : v.chip.group? k.g = some (f x) := h.group.trans (congrArg (Option.map f) hx)
  refine ⟨?_, fun r l => ?_, fun r _ => ?_, fun r => ?_⟩
  · rw [State.commit_chip, Chip.path?, hgroup, Option.bind_some, hf, mget_mmod_same, hq]
    rfl
  · simp only [State.vreg, State.commit_chip, hgroup, hx, Option.map_some, Option.getD_some, Group.vreg, hv]
  · simp only [State.sreg, State.commit_chip, hgroup, hx, Option.map_some, Option.getD_some, Group.sreg, hs]
  · simp only [State.preg, State.commit_chip, hgroup, hx, Option.map_some, Option.getD_some, Group.preg, hp]

end

end Sys2Proof.Machine
end

section
/-! Fences (O27): what a fence's start and its completion leave in the group's slot, then the instructions and the event. -/

namespace Sys2Proof.Machine

/-! ## Steps that run alike -/

theorem runZha_congr {a b : Act Unit} {s : State} {len : Nat} (h : a s.tx = b s.tx) : runZha len a s = runZha len b s := by
  unfold runZha
  rw [h]

theorem runEvent_congr {a b : Act Unit} {s : State} (h : a s.tx = b s.tx) : runEvent a s = runEvent b s := by
  unfold runEvent
  rw [h]

/-! ## The completion of a fence (R152, R157, R158) -/

/-- The scope that a completed fence of a kind leaves over the stores that follow. -/
def Group.scopeAfter (x : Group) (kind scope : Nat) : Nat := if kind = 0 then (if scope < 2 then 0 else scope) else x.relScope

/-- A change of a group by the completion of a fence, which beside the scope concerns its checker alone. -/
def Group.endsFence (kind scope : Nat) (f : Group → Group) : Prop :=
  ∀ x, f x = { x with relScope := x.scopeAfter kind scope, chk := (f x).chk, acqLoads := (f x).acqLoads }

/-- Of a clock, what a completed fence of a kind adds. -/
def fenceTick (kind : Nat) : BitVec 16 := if kind = 0 then 1 else 0

/-- The merges of a fence concern the checker alone. -/
theorem fenceMerge_turns (g scope : Nat) (t : Tx) : ∃ u f, (do
      let c ← getChip
      whenSome (c.groupActor g) fun who => do
        modChecker g fun k => c.fenceMerge who scope 4 ((c.group? g).elim [] Group.acqLoads) k
        modGroup g fun x => { x with acqLoads := [] } : Act Unit) t = .ok ((), u) ∧
    t.turnsSlot u g f 0 ∧ ∀ x, f x = { x with chk := (f x).chk, acqLoads := (f x).acqLoads } := by
  rw [bind_next (getChip_run t)]
  cases t.chip.groupActor g with
  | none => exact ⟨t, id, rfl, Tx.turnsSlot_of_slots rfl rfl g, fun _ => rfl⟩
  | some who =>
    exact ⟨_, _, rfl, Tx.turnsSlot_trans (Tx.turnsSlot_modGroup t g fun x => { x with chk := _ })
      (Tx.turnsSlot_modGroup _ g fun x => { x with acqLoads := [] }), fun _ => rfl⟩

/-- An .ar fence publishes the clock, and its scope stands over the stores that follow. -/
theorem fenceScope_turns {t : Tx} {g kind : Nat} (scope : Nat) (hc : kind = 0 → ((t.chip.slot g).clock + 1).toNat % 2 ^ 14 ≠ 0) :
    ∃ u, (if kind = 0 then do
        let _ ← publish g
        modGroup g fun x => { x with relScope := if scope < 2 then 0 else scope }
      else pure () : Act Unit) t = .ok ((), u) ∧
    t.turnsSlot u g (fun x => { x with relScope := x.scopeAfter kind scope }) (fenceTick kind) := by
  by_cases hk : kind = 0
  · obtain ⟨u, hu, hpub⟩ := publish_turns (hc hk)
    refine ⟨_, ?_, Tx.turnsSlot_as (Tx.turnsSlot_trans hpub
      (Tx.turnsSlot_modGroup u g fun x => { x with relScope := if scope < 2 then 0 else scope })) (fun x => ?_) ?_⟩
    · rw [if_pos hk]
      exact (bind_next hu).trans (modGroup_run _ _ _)
    · rw [Group.scopeAfter, if_pos hk]
    · simp [fenceTick, hk]
  · refine ⟨t, ?_, Tx.turnsSlot_as (Tx.turnsSlot_of_slots rfl rfl g) (fun x => ?_) (if_neg hk).symm⟩
    · rw [if_neg hk]
      rfl
    · rw [Group.scopeAfter, if_neg hk]
      rfl

theorem fenceDone_turns {t : Tx} {g kind : Nat} (scope : Nat) (hc : kind = 0 → ((t.chip.slot g).clock + 1).toNat % 2 ^ 14 ≠ 0) :
    ∃ u f, fenceDone g kind scope t = .ok ((), u) ∧ t.turnsSlot u g f (fenceTick kind) ∧ Group.endsFence kind scope f := by
  obtain ⟨u, hu, hscope⟩ := fenceScope_turns scope hc
  obtain ⟨v, f, hv, hmerge, hf⟩ := fenceMerge_turns g scope u
  refine ⟨v, fun x => f { x with relScope := x.scopeAfter kind scope }, ?_,
    Tx.turnsSlot_as (Tx.turnsSlot_trans hscope hmerge) (fun _ => rfl) (BitVec.add_zero _), fun x => hf _⟩
  refine Eq.trans ?_ ((bind_next (f := fun _ => _) hu).trans hv)
  unfold fenceDone
  split
  · rw [bind_assoc]
  · rfl

/-! ## The start of a fence (R135, R360) -/

/-- A change of a group by the start of a fence that covers `cov`: with nothing to cover it completes. -/
def Group.beginsFence (serial kind scope : Nat) (cov : List Nat) (f : Group → Group) : Prop :=
  ∀ x, f x = { x with
    relScope := if cov = [] then x.scopeAfter kind scope else x.relScope
    fences := if cov = [] then x.fences else x.fences ++ [⟨serial, kind, scope, cov⟩]
    chk := (f x).chk, acqLoads := (f x).acqLoads }

/-- Of a clock, what the start of a fence adds. -/
def coverTick (kind : Nat) (cov : List Nat) : BitVec 16 := if cov = [] then fenceTick kind else 0

theorem beginFence_turns {t : Tx} {h : Here} {kind : Nat} {cov : List Nat} (serial scope : Nat)
    (hcov : t.chip.fenceCovers h.g kind = cov) (hc : cov = [] → kind = 0 → ((t.chip.slot h.g).clock + 1).toNat % 2 ^ 14 ≠ 0) :
    ∃ u f, beginFence h serial kind scope t = .ok (cov.isEmpty, u) ∧ t.turnsSlot u h.g f (coverTick kind cov) ∧
      Group.beginsFence serial kind scope cov f := by
  cases cov with
  | nil =>
    obtain ⟨u, f, hu, hturn, hf⟩ := fenceDone_turns scope (hc rfl)
    refine ⟨u, f, ?_, hturn, hf⟩
    unfold beginFence
    rw [bind_next (getChip_run t), hcov]
    exact bind_next hu
  | cons n r =>
    refine ⟨_, _, ?_, Tx.turnsSlot_modGroup t h.g fun x => { x with fences := x.fences ++ [⟨serial, kind, scope, n :: r⟩] },
      fun x => rfl⟩
    unfold beginFence
    rw [bind_next (getChip_run t), hcov]
    rfl

/-! ## The instructions -/

theorem Chip.fenceCovers_congr {c d : Chip} {g : Nat} (hq : d.memq = c.memq) (ha : d.agent g = c.agent g) (kind : Nat) :
    d.fenceCovers g kind = c.fenceCovers g kind := by
  unfold Chip.fenceCovers Chip.groupOps
  rw [hq, ha]

section
variable {s : State} {h : Here} {f : FenceF}

/-- The transaction of a fence instruction that has its place among its group's fences: it waits for none any more. -/
def State.txFence (s : State) (h : Here) (f : FenceF) : Tx :=
  { s.txPast h 8 f.stall.toNat with
    chip := (s.chip.retire h 8 f.stall.toNat s.clk).modGroup h.g fun x => { x with fenceGate := merase x.fenceGate h.p } }

theorem unlessFull_open (hfull : h.fenceFull = none) (go : Act Unit) :
    unlessFull h go (s.txPast h 8 f.stall.toNat) = go (s.txFence h f) := by
  unfold unlessFull
  rw [hfull]
  rfl

/-- A fence instruction that has lanes and its place among the group's fences: it covers `cov`, and where that is nothing its clock
may be raised. -/
structure State.mayFence (s : State) (h : Here) (f : FenceF) (cov : List Nat) : Prop where
  acts : s.acts h
  quiet : h.grp.hazards = []
  lanes : h.lanes f.g ≠ 0
  place : h.fenceFull = none
  covers : s.chip.fenceCovers h.g f.kind.toNat = cov
  clock : cov = [] → f.kind = 0 → (h.slot.clock + 1).toNat % 2 ^ 14 ≠ 0

/-- What the start of a fence leaves of its group's fences, of the scope of the stores that follow, and of the clock. -/
def State.fenceLeft (t : State) (h : Here) (f : FenceF) (cov : List Nat) (fs : List Fence) : Prop :=
  ∃ x, t.chip.group? h.g = some x ∧ x.fences = fs ∧
    (cov = [] → x.relScope = (if f.kind = 0 then (if f.scope.toNat < 2 then 0 else f.scope.toNat) else h.grp.relScope)) ∧
    (t.chip.slot h.g).clock = (if cov = [] ∧ f.kind = 0 then h.slot.clock + 1 else h.slot.clock)

variable {cov : List Nat} {u : Tx} {k : Group → Group}

/-- A fence starts on a chip that differs from the one after retirement in one slot and in what is not a slot. -/
theorem beginFence_past (hm : s.mayFence h f cov) {t : Tx} (ht : (s.txPast h 8 f.stall.toNat).turnsSlot t h.g k 0)
    (hq : t.chip.memq = s.chip.memq) (ha : t.chip.agent h.g = s.chip.agent h.g) (serial : Nat) :
    ∃ u b, beginFence h serial f.kind.toNat f.scope.toNat t = .ok (cov.isEmpty, u) ∧
      (s.txPast h 8 f.stall.toNat).turnsSlot u h.g (fun x => b (k x)) (coverTick f.kind.toNat cov) ∧
      Group.beginsFence serial f.kind.toNat f.scope.toNat cov b := by
  have hclock : (t.chip.slot h.g).clock = h.slot.clock :=
    (State.txPast_clock (F := xForm f.stall f.g) hm.acts ht).trans (BitVec.add_zero _)
  obtain ⟨u, b, hu, hturn, hb⟩ := beginFence_turns (t := t) (h := h) (kind := f.kind.toNat) serial f.scope.toNat
    ((Chip.fenceCovers_congr hq ha _).trans hm.covers) fun hc hk => by
      rw [hclock]
      exact hm.clock hc (BitVec.eq_of_toNat_eq hk)
  exact ⟨u, b, hu, Tx.turnsSlot_as (Tx.turnsSlot_trans ht hturn) (fun _ => rfl) (BitVec.zero_add _), hb⟩

theorem State.fenceLeft_of_turn (ha : s.acts h)
    (hu : (s.txPast h 8 f.stall.toNat).turnsSlot u h.g k (coverTick f.kind.toNat cov)) {fs : List Fence}
    (hf : (k (h.groupPast 8 f.stall.toNat s.clk)).fences = fs)
    (hr : cov = [] → (k (h.groupPast 8 f.stall.toNat s.clk)).relScope = h.grp.scopeAfter f.kind.toNat f.scope.toNat) :
    (s.commit u).fenceLeft h f cov fs := by
  have hkind : f.kind.toNat = 0 ↔ f.kind = 0 := ⟨fun e => BitVec.eq_of_toNat_eq e, fun e => by rw [e]; rfl⟩
  refine ⟨_, State.txPast_group (F := xForm f.stall f.g) ha hu, hf, fun hc => ?_, ?_⟩
  · refine (hr hc).trans ?_
    rw [Group.scopeAfter]
    simp only [hkind]
  · rw [State.commit_chip, State.txPast_clock (F := xForm f.stall f.g) ha hu, coverTick, fenceTick]
    by_cases hc : cov = []
    · simp only [hc, hkind, if_true, true_and]
      split
      · rfl
      · exact BitVec.add_zero _
    · simp only [hc, if_false, false_and]
      exact BitVec.add_zero _

/-- A FENCE's serial is a stamp, which no other fence has. -/
def State.txStamped (s : State) (h : Here) (f : FenceF) : Tx :=
  { s.txFence h f with chip := { (s.txFence h f).chip with seq := s.chip.seq + 1 } }

theorem State.txStamped_turns (s : State) (h : Here) (f : FenceF) : (s.txFence h f).turnsSlot (s.txStamped h f) h.g id 0 :=
  Tx.turnsSlot_of_slots (d := { (s.txFence h f).chip with seq := s.chip.seq + 1 }) rfl rfl h.g

theorem Chip.retire_seq (c : Chip) (h : Here) (len stall now : Nat) : (c.retire h len stall now).seq = c.seq :=
  Chip.retire_keeps Chip.seq (fun _ _ _ => rfl) c h len stall now

theorem innerSerial_past : innerSerial (s.txFence h f) = .ok (65536 + s.chip.seq, s.txStamped h f) := by
  have hseq : (s.txFence h f).chip.seq = s.chip.seq := (Chip.modGroup_seq ..).trans (Chip.retire_seq ..)
  unfold State.txStamped
  rw [← hseq]
  rfl

theorem State.txFence_turns (s : State) (h : Here) (f : FenceF) : (s.txPast h 8 f.stall.toNat).turnsSlot (s.txFence h f) h.g
    (fun x => { x with fenceGate := merase x.fenceGate h.p }) 0 := Tx.turnsSlot_modGroup ..

theorem State.txFence_memq (s : State) (h : Here) (f : FenceF) : (s.txFence h f).chip.memq = s.chip.memq :=
  (Chip.modGroup_memq ..).trans (Chip.retire_memq ..)

theorem State.txFence_agent (s : State) (h : Here) (f : FenceF) (g : Nat) : (s.txFence h f).chip.agent g = s.chip.agent g :=
  (Chip.agent_modGroup ..).trans (Chip.retire_agent ..)

/-- A FENCE that may issue starts its fence on the chip after retirement; what is left to run is to park, unless the fence is done. -/
theorem fence_starts (hi : s.mayIssue h { Uses.none with ps := guardPs f.g }) (hm : s.mayFence h f cov) :
    ∃ u b, exec (.fence f) s = runZha 8 (fun _ => (if cov.isEmpty then pure () else parkOn h (.fence (65536 + s.chip.seq)) : Act Unit) u) s ∧
      (s.txPast h 8 f.stall.toNat).turnsSlot u h.g (fun x => b { x with fenceGate := merase x.fenceGate h.p })
        (coverTick f.kind.toNat cov) ∧ u.clk = s.clk ∧ Group.beginsFence (65536 + s.chip.seq) f.kind.toNat f.scope.toNat cov b := by
  have ht : (s.txPast h 8 f.stall.toNat).turnsSlot (s.txStamped h f) h.g (fun x => { x with fenceGate := merase x.fenceGate h.p }) 0 :=
    Tx.turnsSlot_as (Tx.turnsSlot_trans (State.txFence_turns s h f) (State.txStamped_turns s h f)) (fun _ => rfl) (BitVec.add_zero _)
  obtain ⟨u, b, hu, hturn, hb⟩ := beginFence_past hm ht (State.txFence_memq s h f) (State.txFence_agent s h f h.g) (65536 + s.chip.seq)
  refine ⟨u, b, runZha_congr ?_, hturn, Tx.turnsSlot_clk hturn, hb⟩
  rw [issue_next hi, onceIf_run hm.lanes, unlessFull_open hm.place, bind_next innerSerial_past, bind_next hu]

/-- A FENCE that covers nothing is done. -/
theorem fence_passes (hi : s.mayIssue h { Uses.none with ps := guardPs f.g }) (hm : s.mayFence h f []) :
    ∃ t, exec (.fence f) s = .next t ∧ s.passes t h (xForm f.stall f.g) [] [] ∧ t.fenceLeft h f [] h.grp.fences := by
  obtain ⟨u, b, hx, hturn, -, hb⟩ := fence_starts hi hm
  refine ⟨s.commit u, hx, State.passes_of_turn hm.acts hturn (fun x => ?_) (fun x => ?_) (fun x => ?_) (fun x r _ => ?_),
    State.fenceLeft_of_turn hm.acts hturn ?_ fun _ => ?_⟩ <;> rw [hb] <;> rfl

/-- A FENCE that covers something parks until its fence completes. -/
theorem fence_parks (hi : s.mayIssue h { Uses.none with ps := guardPs f.g }) (hm : s.mayFence h f cov) (hc : cov ≠ [])
    (hside : h.path.sides = []) : ∃ t, exec (.fence f) s = .next t ∧
      s.parks t h (xForm f.stall f.g) (.fence (65536 + s.chip.seq)) ∧
      t.fenceLeft h f cov (h.grp.fences ++ [⟨65536 + s.chip.seq, f.kind.toNat, f.scope.toNat, cov⟩]) := by
  obtain ⟨u, b, hx, hturn, hclk, hb⟩ := fence_starts hi hm
  obtain ⟨v, hv, hpark⟩ := parkOn_turns h (.fence (65536 + s.chip.seq)) u
  rw [hclk] at hpark
  have hall := Tx.turnsSlot_as (Tx.turnsSlot_trans hturn hpark) (fun _ => rfl) (BitVec.add_zero _)
  rw [if_neg (by simpa using hc)] at hx
  refine ⟨s.commit v, hx.trans (runZha_next hv), State.parks_of_turn hm.acts hside hall fun x => ?_,
    State.fenceLeft_of_turn hm.acts hall ?_ fun h0 => absurd h0 hc⟩
  · rw [hb]
    exact ⟨rfl, rfl, rfl, rfl⟩
  · rw [hb, Here.parkedGroup, if_neg hc]
    rfl

/-- The serial that the group's next FBEG takes, and its token (R137). -/
abbrev Here.nextSerial (h : Here) : Nat := (h.grp.fenceSerial + 1) % 65536
abbrev Here.nextToken (h : Here) (f : FenceF) : Word := fenceToken h.nextSerial f.scope.toNat f.kind.toNat

/-- The acting path's group once an FBEG has taken the next serial. -/
def Here.numbersFence (h : Here) (x : Group) : Group :=
  { x with fenceGate := merase x.fenceGate h.p, fenceSerial := h.nextSerial }

/-- The transaction of an FBEG that has done so. -/
def State.txNumbered (s : State) (h : Here) (f : FenceF) : Tx :=
  { s.txFence h f with chip := (s.txFence h f).chip.modGroup h.g fun x => { x with fenceSerial := h.nextSerial } }

theorem State.txNumbered_turns (s : State) (h : Here) (f : FenceF) :
    (s.txPast h 8 f.stall.toNat).turnsSlot (s.txNumbered h f) h.g h.numbersFence 0 :=
  Tx.turnsSlot_as (Tx.turnsSlot_trans (State.txFence_turns s h f) (Tx.turnsSlot_modGroup _ h.g fun x =>
    { x with fenceSerial := h.nextSerial })) (fun _ => rfl) (BitVec.add_zero _)

/-- An FBEG answers its token, and a fence that covers something stays outstanding. -/
theorem fbeg_passes (hi : s.mayIssue h { Uses.none with sd := [f.sd.toNat], ps := guardPs f.g }) (hm : s.mayFence h f cov) :
    ∃ t, exec (.fbeg f) s = .next t ∧ s.passes t h (xForm f.stall f.g) [] [f.sd.toNat] ∧
      t.sreg h.g f.sd.toNat = h.nextToken f ∧
      t.fenceLeft h f cov (if cov = [] then h.grp.fences
        else h.grp.fences ++ [⟨h.nextSerial, f.kind.toNat, f.scope.toNat, cov⟩]) := by
  obtain ⟨u, b, hu, hturn, hb⟩ := beginFence_past hm (State.txNumbered_turns s h f)
    ((Chip.modGroup_memq ..).trans (State.txFence_memq s h f)) ((Chip.agent_modGroup ..).trans (State.txFence_agent s h f h.g)) h.nextSerial
  have hclk : u.clk = s.clk := Tx.turnsSlot_clk hturn
  have hland := Tx.turnsSlot_as (Tx.turnsSlot_trans hturn
    (Tx.turnsSlot_modGroup u h.g fun x => x.landS s.clk f.sd.toNat h.mask (h.nextToken f))) (fun _ => rfl) (BitVec.add_zero _)
  have hquiet : (b (h.numbersFence (h.groupPast 8 f.stall.toNat s.clk))).hazards = [] := by
    rw [hb]
    exact Here.groupPast_hazards hm.quiet 8 f.stall.toNat s.clk
  have hchanges := Group.landS_changes s.clk f.sd.toNat h.mask (h.nextToken f)
  refine ⟨_, (runZha_next (t := { u with chip := u.chip.modGroup h.g _ }) ?_ : exec (.fbeg f) s = _),
    State.passes_of_turn hm.acts hland (fun x => ?_) (fun x => ?_) (fun x => ?_) (fun x r hr => ?_), ?_,
    State.fenceLeft_of_turn hm.acts hland ?_ fun hc => ?_⟩
  · rw [issue_next hi, onceIf_run hm.lanes, unlessFull_open hm.place, bind_next (modGroup_run _ _ _)]
    refine (bind_next hu).trans ?_
    rw [setS_run, hclk]
  · rw [hchanges.paths, hb]
    rfl
  · rw [hchanges.v, hb]
    rfl
  · rw [hchanges.p, hb]
    rfl
  · rw [hchanges.other _ r (by simpa using hr), hb]
    rfl
  · rw [State.sreg, State.commit_chip, State.txPast_group (F := xForm f.stall f.g) hm.acts hland]
    exact (congrArg (Group.sreg · f.sd.toNat) (Group.landS_quiet hquiet ..)).trans ((Group.sreg_setS ..).trans (if_pos rfl))
  · rw [Group.landS_quiet hquiet, Group.setS_fences, hb]
    rfl
  · subst hc
    rw [Group.landS_quiet hquiet, Group.setS_relScope, hb]
    rfl

/-- An FWAIT whose token names no outstanding fence goes on. -/
theorem fwait_passes (hi : s.mayIssue h { Uses.none with ss := [f.sa.toNat], ps := guardPs f.g }) (hl : h.lanes f.g ≠ 0)
    (hnone : (h.grp.fences.find? fun x => x.serial < 65536 && fenceToken x.serial x.scope x.kind = h.s f.sa.toNat) = none) :
    exec (.fwait f) s = .next (s.onward h (xForm f.stall f.g) id) := by
  refine exec_issued (i := .fwait f) rfl hi ((onceIf_run hl _ _).trans ?_)
  dsimp only
  rw [hnone]
  rfl

/-- An FWAIT whose token names an outstanding fence parks until it completes. -/
theorem fwait_parks {x : Fence} (hi : s.mayIssue h { Uses.none with ss := [f.sa.toNat], ps := guardPs f.g }) (hl : h.lanes f.g ≠ 0)
    (hx : (h.grp.fences.find? fun x => x.serial < 65536 && fenceToken x.serial x.scope x.kind = h.s f.sa.toNat) = some x)
    (hside : h.path.sides = []) : ∃ t, exec (.fwait f) s = .next t ∧ s.parks t h (xForm f.stall f.g) (.fence x.serial) := by
  obtain ⟨u, hu, hpark⟩ := parkOn_turns h (.fence x.serial) (s.txPast h 8 f.stall.toNat)
  refine ⟨s.commit u, runZha_next ?_, State.parks_of_turn (k := id) hi.1 hside hpark fun _ => ⟨rfl, rfl, rfl, rfl⟩⟩
  rw [issue_next hi, onceIf_run hl]
  dsimp only
  rw [hx]
  exact hu

end

/-! ## FENCE_COMPLETE (R135) -/

/-- A group without the fences of a serial. -/
def Group.dropFence (serial : Nat) (x : Group) : Group := { x with fences := x.fences.filter fun z => z.serial ≠ serial }

section
variable {s : State} {g : Nat} {x : Group} {y : Fence}

/-- An outstanding fence whose accesses have performed, and a clock that may be raised once. -/
structure State.fenceReady (s : State) (g : Nat) (x : Group) (y : Fence) : Prop where
  group : s.chip.group? g = some x
  found : x.fences.find? (fun z => z.serial = y.serial) = some y
  done : ∀ n ∈ y.covers, (∀ o ∈ s.chip.memq, o.seq ≠ n) ∧ s.chip.inReplay g n = false
  clock : y.kind = 0 → ((s.chip.slot g).clock + 1).toNat % 2 ^ 14 ≠ 0

/-- A fence that is ready completes, and what waits settles. -/
theorem fenceComplete_settles (hr : s.fenceReady g x y) : ∃ u f,
    exec (.fenceComplete g y.serial) s = runEvent (fun _ => settle u) s ∧
    s.tx.turnsSlot u g (fun z => (f z).dropFence y.serial) (fenceTick y.kind) ∧ Group.endsFence y.kind y.scope f := by
  obtain ⟨hg, hfound, hdone, hclock⟩ := hr
  obtain ⟨u, f, hu, hturn, hf⟩ := fenceDone_turns (t := s.tx) y.scope hclock
  have hopen : (!y.covers.any fun n => s.chip.memq.any (fun o => o.seq = n) || s.chip.inReplay g n) = true := by
    rw [Bool.not_eq_true', List.any_eq_false]
    intro n hn
    obtain ⟨hq, hreplay⟩ := hdone n hn
    rw [hreplay, Bool.or_false, Bool.not_eq_true, List.any_eq_false]
    exact fun o ho => by simpa using hq o ho
  refine ⟨{ u with chip := u.chip.modGroup g (Group.dropFence y.serial) }, f, ?_,
    Tx.turnsSlot_as (Tx.turnsSlot_trans hturn (Tx.turnsSlot_modGroup u g (Group.dropFence y.serial))) (fun _ => rfl) (BitVec.add_zero _), hf⟩
  refine runEvent_congr ((bind_next (getChip_run _)).trans ?_)
  rw [State.tx_chip, hg, someOr_some, bind_next (pure_run _ _), hfound, someOr_some, bind_next (pure_run _ _), hopen, enabled_true,
    bind_next (pure_run _ _)]
  exact (bind_next hu).trans (bind_next (modGroup_run _ _ _))

/-- What the completion of a fence leaves, whoever resumes. -/
theorem fenceComplete_ends {u : Tx} {f k : Group → Group} {n : BitVec 16} (hr : s.fenceReady g x y)
    (hturn : s.tx.turnsSlot u g (fun z => k ((f z).dropFence y.serial)) n) (hn : n = fenceTick y.kind)
    (hf : Group.endsFence y.kind y.scope f) (hk : ∀ z, (k z).fences = z.fences) : (s.commit u).mem = s.mem ∧
    ((s.commit u).chip.group? g).map Group.fences = some (x.fences.filter fun z => z.serial ≠ y.serial) ∧
    ((s.commit u).chip.slot g).clock = (if y.kind = 0 then (s.chip.slot g).clock + 1 else (s.chip.slot g).clock) := by
  refine ⟨?_, ?_, ?_⟩
  · rw [Tx.turnsSlot_commit hturn]
  · rw [State.commit_chip, hturn.group, State.tx_chip, hr.group, Option.map_some, Option.map_some, hk, Group.dropFence, hf]
  · rw [State.commit_chip, hturn.clock, hn, fenceTick]
    split
    · rfl
    · exact BitVec.add_zero _

/-- With nobody waiting, the completion of a fence is all there is. -/
theorem fenceComplete_nobody (hr : s.fenceReady g x y) (hn : s.nobodyWaits) : ∃ u f,
    exec (.fenceComplete g y.serial) s = .next (s.commit u) ∧
    s.tx.turnsSlot u g (fun z => (f z).dropFence y.serial) (fenceTick y.kind) ∧ Group.endsFence y.kind y.scope f := by
  obtain ⟨u, f, hx, hturn, hf⟩ := fenceComplete_settles hr
  have hnone : u.chip.parkedSides = [] := by
    refine List.eq_nil_iff_forall_not_mem.mpr fun j hj => ?_
    have hj' := Tx.turnsSlot_parked hturn (fun z j hj => by
      rwa [Chip.sidesAt_sameBody (x := z)] at hj <;> rw [Group.dropFence, hf]) j hj
    rw [State.tx_chip, hn] at hj'
    exact List.not_mem_nil hj'
  exact ⟨u, f, hx.trans (runEvent_next (settle_none hnone)), hturn, hf⟩

/-- A side that waits for no fence still outstanding resumes. -/
theorem settleSide_fence {t : Tx} {k : Parked} {n : Nat} {z : Group} (hk : k.wait = .fence n) (hz : t.chip.group? k.g = some z)
    (hgone : ∀ f ∈ z.fences, f.serial ≠ n) : settleSide k t = resume k [] t := by
  have hany : z.fences.any (fun f => f.serial = n) = false := by
    rw [List.any_eq_false]
    exact fun f hf => by simpa using hgone f hf
  unfold settleSide
  rw [bind_next (getChip_run t), hz, whenSome_some, hk]
  simp only [hany, Bool.false_eq_true, if_false]

theorem resume_gone {t : Tx} {k : Parked} (h : t.chip.refind k = none) (rs : List (Nat × Word)) : resume k rs t = .ok ((), t) := by
  unfold resume
  rw [bind_next (clock_run t), bind_next (getChip_run t), h]
  rfl

/-- The completion of a fence that one side waits for ends the wait. -/
theorem fenceComplete_wakes {k : Parked} {q : Path} (hr : s.fenceReady g x y) (hw : s.waits k q) (hg : k.g = g)
    (hk : k.wait = .fence y.serial) : ∃ u f, exec (.fenceComplete g y.serial) s = .next (s.commit u) ∧
    s.tx.turnsSlot u g (fun z => k.resumed [] s.clk ((f z).dropFence y.serial)) (fenceTick y.kind) ∧
    Group.endsFence y.kind y.scope f := by
  subst hg
  obtain ⟨u, f, hx, hturn, hf⟩ := fenceComplete_settles hr
  have halone : u.chip.runsAlone k q := Tx.turnsSlot_alone hturn (fun z => by rw [Group.dropFence, hf])
    (fun z => by rw [Group.dropFence, hf]) (State.waits_alone hw)
  have hclk : u.clk = s.clk := Tx.turnsSlot_clk hturn
  obtain ⟨v, hv, hres⟩ := resume_turns halone []
  rw [hclk] at hres
  have hug : u.chip.group? k.g = some ((f x).dropFence y.serial) := hturn.group.trans (congrArg (Option.map _) hr.group)
  have hvg : v.chip.group? k.g = some (k.resumed [] s.clk ((f x).dropFence y.serial)) :=
    hres.group.trans (congrArg (Option.map _) hug)
  have hgone : ∀ z ∈ ((f x).dropFence y.serial).fences, z.serial ≠ y.serial := fun z hz => by
    simpa using (List.mem_filter.mp hz).2
  have honly : ∀ j ∈ v.chip.parkedSides, j = k := fun j hj =>
    halone.alone.only j (Tx.turnsSlot_parked hres (fun z => Parked.resumed_sides s.clk z) j hj)
  have hagain : u.chip.parkedSides ≠ [k] → settleSide k v = .ok ((), v) := fun hmore => by
    have hshown := halone.alone.shown.resolve_right fun h => hmore h.1
    exact (settleSide_fence hk hvg hgone).trans (resume_gone (Chip.refind_resumed halone hshown hres) [])
  have hsettle : settle u = .ok ((), v) :=
    settle_alone halone.alone (by rw [hk]; exact ⟨rfl, rfl, rfl⟩) ((settleSide_fence hk hug hgone).trans hv) honly hagain
  exact ⟨v, f, hx.trans (runEvent_next hsettle), Tx.turnsSlot_as (Tx.turnsSlot_trans hturn hres) (fun _ => rfl) (BitVec.add_zero _), hf⟩

end

/-- Settles O27: FENCE and FBEG start a fence, which covers something or is done; FWAIT looks for its token; the completion settles
what waits for it. -/
theorem fences : Obligations.Fences := by
  intro s h f hl F cov ar clean left
  have hmay {u : Uses} (hi : s.mayIssue h u) (hfull : h.fenceFull = none) (hclean : clean) : s.mayFence h f cov := by
    obtain ⟨ha, -, -, -, hz⟩ := hi
    exact ⟨ha, hz, hl, hfull, rfl, hclean⟩
  refine ⟨fun hi hfull hclean => ⟨fun hc => ?_, fun hc hside => ?_⟩, fun hi hfull hclean => ?_,
    fun hi => ⟨fun hnone => ?_, fun x hx hside => ?_⟩, fun g x y hg hfound hdone hclock => ?_⟩
  · have hm := hmay hi hfull hclean
    rw [hc] at hm
    obtain ⟨t, hx, hpass, hleft⟩ := fence_passes hi hm
    rw [← hc] at hleft
    exact ⟨t, hx, hpass, hleft⟩
  · exact fence_parks hi (hmay hi hfull hclean) hc hside
  · exact fbeg_passes hi (hmay hi hfull hclean)
  · exact fwait_passes hi hl hnone
  · exact fwait_parks hi hl hx hside
  have hr : s.fenceReady g x y := ⟨hg, hfound, hdone, hclock⟩
  refine ⟨fun hn => ?_, fun k q hw hk hwait => ?_⟩
  · obtain ⟨u, f, hx, hturn, hf⟩ := fenceComplete_nobody hr hn
    exact ⟨_, hx, fenceComplete_ends (k := id) hr hturn rfl hf fun _ => rfl⟩
  · obtain ⟨u, f, hx, hturn, hf⟩ := fenceComplete_wakes hr hw hk hwait
    refine ⟨_, ⟨hx, fenceComplete_ends hr hturn rfl hf fun _ => rfl⟩, ?_⟩
    subst hk
    refine State.resumes_of_turn hw hturn (fun z => ?_) fun z => ?_
    · rw [Parked.resumed, List.foldl_nil, Group.dropFence, hf]
    · rw [Parked.resumed, List.foldl_nil, Group.dropFence, hf]
      exact ⟨rfl, rfl, rfl⟩

end Sys2Proof.Machine
end

section
/-! The release of a barrier (O29): a state in which the status of a wait that ends stands below a write of another path. -/

namespace Sys2Proof.Machine

/-- A path with the one lane `p`. -/
def oneLanePath (p : Nat) (w : Option Wait) : Path := { Path.start 0 (BitVec.ofNat 32 (2 ^ p)) 0 with wait := w }

/-- A group whose path 0 waits in BAR for its status in S1. Path 1 has written 7 to S1 by an instruction whose result
completes at clk 4 (R63, R65). -/
def statusBelow : Group :=
  { Group.start placedRun 1 0 0 with
    paths := [(0, oneLanePath 0 (some (.bar 0 (some 1)))), (1, oneLanePath 1 none)]
    s := [(1, 7)]
    hazards := [⟨.scalar, 1, 2, 3, 4, [(0, ⟨0, 0⟩)]⟩]
    arrivals := [⟨0, false, false, 2, 0, []⟩] }

/-- The phase of the team barrier of team 0 in run 1, in which its one group has arrived. -/
def teamPhaseArrived : BarPhase := ⟨0, 1, 2, 0, [(0, 0)], []⟩

/-- The side of path 0 that waits. -/
def waitingSide : Parked := ⟨0, 0, none, 0, 1, .bar 0 (some 1)⟩

/-- A machine with this team of one group alone, at clk 0. -/
def barrierReady : State :=
  { State.reset with chip := { Chip.reset with
      slots := [(0, { Slot.init with group := some statusBelow })]
      teams := [(1, placedTeam)]
      runs := [(1, placedRun)]
      bars := [(4, teamPhaseArrived)] } }

theorem barrierReady_waits : barrierReady.waits waitingSide (oneLanePath 0 (some (.bar 0 (some 1)))) := by
  unfold State.waits
  decide +kernel

/-- The release ends the wait, and S1 reads as 7: path 1's write completes later than the status and so applies above it (R39). -/
theorem barrierReady_status : ∀ t, exec (.barrierRelease 4) barrierReady = .next t → t.sreg 0 1 = 7 := by
  have hrun : (match exec (.barrierRelease 4) barrierReady with
      | .next t => some (t.sreg 0 1)
      | _ => none) = some 7 := by decide +kernel
  intro t ht
  rw [ht] at hrun
  exact Option.some.inj hrun

/-- Refutes O29: in `barrierReady` the scalar register of a wait that a release ends does not read as 0, as a fixed-latency
write of another path to it is outstanding. -/
theorem not_barriers : ¬ Obligations.Barriers := by
  unfold Obligations.Barriers
  intro hB
  obtain ⟨-, -, hrelease⟩ := hB barrierReady
  obtain ⟨-, hends⟩ := hrelease 4 teamPhaseArrived placedRun (by rfl) (by decide +kernel) (by rfl)
  obtain ⟨t, ht, -, -, -, hzero, -⟩ := hends waitingSide (oneLanePath 0 (some (.bar 0 (some 1)))) statusBelow 1 placedTeam
    ⟨0, false, false, 2, 0, []⟩ 1 (by rfl) barrierReady_waits (by rfl) (by decide +kernel) (by rfl) (by rfl) (by rfl) (by rfl)
    (by decide +kernel)
  have hseven := barrierReady_status t ht
  rw [show t.sreg 0 1 = 0 from hzero] at hseven
  exact absurd hseven (by decide)

end Sys2Proof.Machine
end

section
/-! ATOM and MRED up to the point at which they issue (R115, R332, R333, R379, R380): the checks of operand tags and index registers
pass, and the access joins the pending ones as a store does. -/

namespace Sys2Proof.Machine

theorem lanesOf_find_none {lanes : BitVec 32} {bad : Nat → Bool} (hb : ∀ l, l < 32 → laneBit lanes l → bad l = false) :
    (lanesOf lanes).find? bad = none := by
  rw [List.find?_eq_none]
  intro l hl
  obtain ⟨h1, h2⟩ := (mem_lanesOf _ _).mp hl
  simp [hb l h1 h2]

theorem checkTags_ok {lanes : BitVec 32} {ok : Nat → Bool} (ht : ∀ l, l < 32 → laneBit lanes l → ok l = true) :
    checkTags lanes ok = pure () := by
  have hnone := lanesOf_find_none (lanes := lanes) (bad := fun i => !ok i) fun l h1 h2 => congrArg not (ht l h1 h2)
  simp only [checkTags, hnone]

theorem checkIndex_ok {h : Here} {vi : Nat} {lanes : BitVec 32}
    (hx : ∀ l, l < 32 → laneBit lanes l → (indexOf (h.v vi l)).isSome) : checkIndex h vi lanes = pure () := by
  have hnone := lanesOf_find_none (bad := fun i => (indexOf (h.v vi i)).isNone) fun l h1 h2 =>
    Option.isNone_eq_false_iff.mpr (hx l h1 h2)
  simp only [checkIndex, hnone]

theorem Group.laneTagged_iff {x : Group} {r regs i : Nat} {p : BitVec 4 → Bool} :
    x.laneTagged r regs i p = true ↔ ∀ k, k < regs → p (x.vreg (r + k) i).tag = true := by
  simp [Group.laneTagged]

section
variable {s : State} {h : Here} {pa : Nat → Nat} {ls : List (Nat × Addr)} {u : Use} {n : Nat}

/-- Lanes that the core translates at once pass the checks of their places and stand bound to memory for what follows. -/
theorem placed_past {k : List LaneAcc → Act Unit} (hr : s.reaches h u n ls pa) (fu : FormUse) (late : Bool) (len stall : Nat) :
    (do
      checkSpaces h fu n ls
      checkAlign n ls
      let xs ← bindLanes h u late n ls
      k xs : Act Unit) (s.txPast h len stall) = k (placedLanes ls pa) (s.txPast h len stall) := by
  rw [bind_next (checkSpaces_past hr _ _ _), checkAlign_reaches hr, bind_next (pure_run _ _), bind_next (bindLanes_past hr late _ _)]

end

/-- The room that an access asks for depends on its lanes and size alone, and not on the lanes' comparison values. -/
theorem awaitRequests_cmp (g n : Nat) (xs : List LaneAcc) (cmp : LaneAcc → Nat) (o o' : MemOp) :
    awaitRequests g n (xs.map fun x => { x with cmp := cmp x }) o = awaitRequests g n xs o' := by
  have hlines : MemOp.lines { o with lanes := xs.map fun x => { x with cmp := cmp x }, size := n } =
      MemOp.lines { o' with lanes := xs, size := n } := by
    simp only [MemOp.lines, List.filter_map, List.flatMap_map]
    rfl
  simp only [awaitRequests, hlines]

/-- An access whose lanes take comparison values beside their data issues as a store does. -/
theorem comparedQueues_past {s : State} {h : Here} {ls : List (Nat × Addr)} {o : MemOp} {xs : List LaneAcc} (d cmp : Nat → Nat)
    (o' : MemOp) (hu : s.unsampled h) (hm : h.team.raceMode ≠ 2) (len stall : Nat)
    (hc : o.rel = true → ((s.chip.slot h.g).clock + 1).toNat % 2 ^ 14 ≠ 0)
    (hroom : s.hasRoom h { o with lanes := xs.map fun x => { x with data := d x.lane, cmp := cmp x.lane } }) :
    (do
      awaitRequests h.g o.size xs o'
      publishIf h.g o.rel
      let seq ← pushOp { o with lanes := xs.map fun x => { x with data := d x.lane, cmp := cmp x.lane } }
      blockIf h seq
      countMem h o.size ls (some seq) : Act Unit) (s.txPast h len stall) = .ok ((), { s.tx with
        chip := ((s.chip.retire h len stall s.clk).published h.g o.rel).posted
          { o with lanes := xs.map fun x => { x with data := d x.lane, cmp := cmp x.lane } } }) := by
  have hlanes : (xs.map fun x => { x with data := d x.lane, cmp := cmp x.lane }) =
      (xs.map fun x => { x with cmp := cmp x.lane }).map fun x => { x with data := d x.lane } := by
    rw [List.map_map]
    rfl
  rw [hlanes] at hroom ⊢
  rw [← awaitRequests_cmp h.g o.size xs (fun x => cmp x.lane) o o']
  exact storeQueues_past (fun x => d x.lane) hu hm len stall hc hroom

/-- The operand tags that an ATOM checks in a lane: its data registers carry one tag that the operation takes, and CAS's
comparison registers carry it too (R332). -/
theorem atomTags_ok {h : Here} {op vb vd regs l : Nat} {cas wide : Bool} (ho : atomTag op wide (h.v vb l).tag = true)
    (hk : ∀ k, k < regs → (h.v (vb + k) l).tag = (h.v vb l).tag ∧ (cas = true → (h.v (vd + k) l).tag = (h.v vb l).tag)) :
    (atomTag op wide (h.v vb l).tag && h.grp.laneTagged vb regs l (fun x => x = (h.v vb l).tag) &&
      (!cas || h.grp.laneTagged vd regs l fun x => x = (h.v vb l).tag)) = true := by
  have hb : h.grp.laneTagged vb regs l (fun x => x = (h.v vb l).tag) = true :=
    Group.laneTagged_iff.mpr fun k hlt => decide_eq_true (hk k hlt).1
  have hd : (!cas || h.grp.laneTagged vd regs l fun x => x = (h.v vb l).tag) = true := by
    cases cas with
    | false => rfl
    | true => exact (Bool.false_or _).trans (Group.laneTagged_iff.mpr fun k hlt => decide_eq_true ((hk k hlt).2 rfl))
  rw [ho, hb, hd]
  rfl

/-- Settles O19: the checks of tags and index registers pass, and what is left of ATOM and of MRED is one issue of an access that
takes its data at issue, as a store's is. -/
theorem reductions : Obligations.Reductions := by
  intro s h pa _ _ hu hm
  constructor
  · intro f regs span vb vd ls hi hl h8 hc hlane hr hp op hroom
    obtain ⟨hg, -, -, -, -, -, -, -, hslot⟩ := Chip.here_eq hi.1
    have htags := checkTags_ok fun l h1 h2 => atomTags_ok (cas := decide (f.op = 7)) (hlane l h1 h2).2.1 fun k hk => by
      simpa using (hlane l h1 h2).2.2 k hk
    have hindex := checkIndex_ok fun l h1 h2 => (hlane l h1 h2).1
    have hpoison := lanePoison_none (c := s.chip.retire h 8 f.stall.toNat s.clk) (n := 4 * regs) (ls := ls) (pa := pa) fun l hl =>
      (Chip.retire_poisoned ..).trans (hp l hl)
    have hx : exec (.atom f) s = runZha 8 (atomOp f) s := rfl
    unfold atomOp at hx
    refine exec_issued hx hi ((onceIf_run hl _ _).trans ?_)
    dsimp only
    rw [htags, bind_next (pure_run _ _), hindex, bind_next (pure_run _ _), bind_next (awaitReplayRoom_past h8 _ _), placed_past hr,
      bind_next (getChip_run _), hpoison]
    exact comparedQueues_past (o := { op with lanes := [] }) (ls := ls)
      (fun l => h.grp.laneNat vb regs l + (h.v vb l).tag.toNat * 2 ^ 64) (h.grp.laneNat vd regs) _ hu hm _ _ (hg ▸ hslot ▸ hc) hroom
  · intro f regs vb ls hi hl hc hlane hr op hroom
    obtain ⟨hg, -, -, -, -, -, -, -, hslot⟩ := Chip.here_eq hi.1
    have htags := checkTags_ok fun l h1 h2 => Group.laneTagged_iff.mpr (hlane l h1 h2).2
    have hindex := checkIndex_ok fun l h1 h2 => (hlane l h1 h2).1
    have hx : exec (.mred f) s = runZha 8 (mredOp f) s := rfl
    unfold mredOp at hx
    refine exec_issued hx hi ((onceIf_run hl _ _).trans ?_)
    dsimp only
    rw [htags, bind_next (pure_run _ _), hindex, bind_next (pure_run _ _), placed_past hr]
    exact storeQueues_past (o := { op with lanes := [] }) (ls := ls) (fun x => h.grp.laneNat vb regs x.lane) hu hm _ _
      (hg ▸ hslot ▸ hc) hroom

end Sys2Proof.Machine
end

section
/-! The TVL link (R160, R297, R298): companion accesses perform at their homes, and the link's failures, retraining and end. -/

namespace Sys2Proof.Machine

theorem mget_foldl_mset {α : Type} (v : α) (ks : List Nat) (m : Map α) (k : Nat) :
    mget? (ks.foldl (fun m i => mset m i v) m) k = if k ∈ ks then some v else mget? m k := by
  induction ks generalizing m with
  | nil => rfl
  | cons i r ih =>
    rw [List.foldl_cons, ih, mget_mset]
    by_cases hr : k ∈ r <;> by_cases hi : k = i <;> simp [hr, hi]

theorem each_setMark (v : BitVec 64) (gs : List Nat) (t : Tx) : each gs (fun g => setMark g v) t =
    .ok ((), { t with chip := { t.chip with marks := gs.foldl (fun m g => mset m g v) t.chip.marks } }) := by
  induction gs generalizing t with
  | nil => rfl
  | cons g r ih =>
    exact (bind_next (modChip_run _ _)).trans (ih _)

theorem Memory.stores_block {s t : State} (hw : s.Inv) {pa : Nat} {bs : List Byte}
    (ht : t.mem = Memory.writeAll s.mem (blockLog pa bs)) :
    s.stores t pa bs := by
  refine ⟨fun i hi => ?_, fun a ha => ?_⟩
  · rw [ht, Memory.read_block hw pa bs hi, List.getD_eq_getElem _ _ hi]
  · rw [ht, Memory.read_block_other _ ha]

theorem Link.up_iff {l : Link} : l.up = true ↔ l.retraining = none ∧ l.down = false := by
  simp [Link.up]

theorem hostEvent_dropped {t : Tx} (h : t.chip.evring = none) (kind part ctx cluster d0 d1 : Nat) :
    hostEvent kind part ctx cluster d0 d1 t = .ok ((), { t with chip := { t.chip with evDropped := satInc t.chip.evDropped } }) := by
  simp only [hostEvent, bind_run, getChip_run, h, modChip_run]

theorem eventData_run (t : Tx) : eventData t = .ok ((Config.freeWord t.free).toNat, { t with free := t.free + 1 }) := rfl

section
variable {s : State}

/-- The chip with its link in another state. -/
abbrev Chip.withLink (c : Chip) (l : Link) : Chip := { c with link := l }

/-- What a companion's write leaves of the chip: its granules' marks CLEAR, no sync record of them, and the failures counted anew. -/
def Chip.companionWrote (c : Chip) (addr n : Nat) : Chip :=
  { c.written addr n with
    link := { c.link with fails := 0 }
    recs := c.recs.filter fun r => !(granulesOf addr n).contains r.gran
    marks := (granulesOf addr n).foldl (fun m g => mset m g markClear) c.marks }

theorem exec_tvlCompanionWrite (hs : s.plain) {addr : Nat} {bytes : List Byte} (ha : addr + bytes.length ≤ 2 ^ 52) :
    exec (.tvlCompanionWrite addr bytes) s =
      .next (s.commit { s.tx with chip := s.chip.companionWrote addr bytes.length, log := blockLog addr bytes ++ [] }) := by
  obtain ⟨hn, hp⟩ := hs
  have hup : s.chip.link.up = true := Link.up_iff.mpr ⟨hp.2.2.2.1, hp.2.2.2.2.1⟩
  refine runEvent_next ?_
  rw [bind_next (getChip_run _), State.tx_chip, hup, decide_eq_true ha, Bool.and_self, enabled_true, bind_next (pure_run _ _),
    bind_next (homeWrite_plain (t := s.tx) hp addr bytes none), bind_next (modChip_run _ _), bind_next (each_setMark ..)]
  exact settle_none (t := { s.tx with chip := s.chip.companionWrote addr bytes.length, log := _ }) hn

theorem exec_tvlCompanionRead (hs : s.plain) {addr n : Nat} (ha : addr + n ≤ 2 ^ 52) :
    exec (.tvlCompanionRead addr n) s = .next { s with chip := s.chip.withLink { s.chip.link with fails := 0 } } := by
  obtain ⟨hn, hp⟩ := hs
  have hup : s.chip.link.up = true := Link.up_iff.mpr ⟨hp.2.2.2.1, hp.2.2.2.2.1⟩
  refine runEvent_next (t := { s.tx with chip := s.chip.withLink { s.chip.link with fails := 0 } }) ?_
  rw [bind_next (getChip_run _), State.tx_chip, hup, decide_eq_true ha, Bool.and_self, enabled_true, bind_next (pure_run _ _),
    bind_next (recallRange_none (t := s.tx) hp.1 addr n), bind_next (modChip_run _ _)]
  exact settle_none (t := { s.tx with chip := s.chip.withLink { s.chip.link with fails := 0 } }) hn

/-- The link after a flit that fails: the ninth failure in a row retrains it. -/
def Link.failed (l : Link) (now : Nat) : Link :=
  if 8 ≤ l.fails then { l with fails := 0, retraining := some now, retrains := satInc l.retrains }
  else { l with fails := l.fails + 1 }

theorem exec_tvlFlitCrcFail (hup : s.chip.link.up = true) :
    exec .tvlFlitCrcFail s = .next { s with chip := s.chip.withLink (s.chip.link.failed s.clk) } := by
  refine runEvent_next (t := { s.tx with chip := s.chip.withLink (s.chip.link.failed s.clk) }) ?_
  rw [bind_next (clock_run _), bind_next (getChip_run _), State.tx_chip, hup, enabled_true, bind_next (pure_run _ _)]
  rfl

theorem exec_tvlFlitCrcFail_down (hup : s.chip.link.up = false) : exec .tvlFlitCrcFail s = .next s := by
  refine runEvent_waits ?_
  rw [bind_next (clock_run _), bind_next (getChip_run _), State.tx_chip, hup, enabled_false, bind_stop (notReady_run _)]

theorem exec_tvlRetrainComplete {t0 : Nat} (ht : s.chip.link.retraining = some t0) (hn : s.nobodyWaits) (hc : s.clk ≤ t0 + 6000000) :
    exec .tvlRetrainComplete s = .next { s with chip := s.chip.withLink { s.chip.link with retraining := none } } := by
  refine runEvent_next (t := { s.tx with chip := s.chip.withLink { s.chip.link with retraining := none } }) ?_
  rw [bind_next (clock_run _), bind_next (getChip_run _), State.tx_chip, ht, someOr_some, bind_next (pure_run _ _),
    retrainBound, State.tx_clk, decide_eq_true hc, enabled_true, bind_next (pure_run _ _), bind_next (modChip_run _ _)]
  exact settle_none (t := { s.tx with chip := s.chip.withLink { s.chip.link with retraining := none } }) hn

/-- The link goes down where no pending access is on companion memory: no path traps. -/
theorem exec_tvlLinkdown {t0 : Nat} (ht : s.chip.link.retraining = some t0) (hn : s.nobodyWaits) (hc : t0 + 6000000 ≤ s.clk)
    (hring : s.chip.evring = none)
    (hq : ∀ o ∈ s.chip.memq, ∀ x ∈ o.lanes, x.space = .memory → s.chip.tiered x.pa o.size = false) :
    exec .tvlLinkdown s = .next { s with free := s.free + 2, chip := { s.chip with
      link := { s.chip.link with retraining := none, down := true }, evDropped := satInc s.chip.evDropped } } := by
  let cut : Tx := { s.tx with chip := s.chip.withLink { s.chip.link with retraining := none, down := true } }
  let told : Tx := { cut with chip := { cut.chip with evDropped := satInc s.chip.evDropped }, free := s.free + 2 }
  have hnone : ∀ o ∈ s.chip.memq, o.lanes.find? (fun x => x.space = .memory && s.chip.tiered x.pa o.size) = none := by
    intro o ho
    rw [List.find?_eq_none]
    intro x hx
    simpa using hq o ho x hx
  have hloads : each (s.chip.memq.filter fun o => o.kind = .load || o.kind = .sload || o.kind = .atom) (fun o =>
      whenSome (o.lanes.find? fun x => x.space = .memory && s.chip.tiered x.pa o.size) fun x => poisonAccess o x) cut =
        .ok ((), cut) :=
    each_id _ fun o ho => by rw [hnone o (List.mem_of_mem_filter ho), whenSome_none, pure_run]
  refine runEvent_next (t := told) ?_
  rw [bind_next (clock_run _), bind_next (getChip_run _), State.tx_chip, ht, someOr_some, bind_next (pure_run _ _),
    retrainBound, State.tx_clk, decide_eq_true hc, enabled_true, bind_next (pure_run _ _), bind_next (modChip_run _ _)]
  refine (bind_next hloads).trans ?_
  rw [bind_next (eventData_run _), bind_next (eventData_run _), bind_next (hostEvent_dropped (t := { cut with free := _ }) hring ..)]
  exact settle_none (t := told) hn

end

end Sys2Proof.Machine
end

section
/-! Package reset (R314): the images in order up to one that fails, and what configuration software declares. -/

namespace Sys2Proof.Machine

theorem measure_below (images : List FirmwareImage) (k j : Nat) (mr : Map (BitVec 256)) (hj : j < k) :
    mgetD (measure k images mr).1 0 j = mgetD mr 0 j := by
  induction images generalizing k mr with
  | nil => rfl
  | cons i r ih =>
    rw [measure]
    split
    · rw [ih (k + 1) _ (by omega), mgetD_mput, if_neg (by omega)]
    · rfl

/-- A register that starts at 0 is extended once, with the digest of the image at its place, where every image up to it is good. -/
theorem measure_at (images : List FirmwareImage) (k j : Nat) (mr : Map (BitVec 256)) (hz : ∀ n, k ≤ n → mgetD mr 0 n = 0) :
    mgetD (measure k images mr).1 0 (k + j) =
      ((images[j]?).map fun i => if (images.take (j + 1)).all FirmwareImage.valid then extendMr 0 i.digest else 0).getD 0 := by
  induction images generalizing k j mr with
  | nil => exact hz _ (by omega)
  | cons i r ih =>
    rw [measure]
    cases hv : i.valid with
    | false =>
      rw [if_neg Bool.false_ne_true, hz _ (by omega)]
      cases (i :: r)[j]? <;> simp [hv]
    | true =>
      rw [if_pos rfl]
      cases j with
      | zero =>
        rw [add_zero, measure_below _ (k + 1) k _ (Nat.lt_succ_self k), mgetD_mput, if_pos rfl, hz k (Nat.le_refl k)]
        simp [hv]
      | succ j =>
        rw [show k + (j + 1) = k + 1 + j by omega, ih (k + 1) j _ fun n hn => by
          rw [mgetD_mput, if_neg (by omega), hz n (by omega)]]
        simp [hv]

/-- The stage that fails is the place, counted from 1, of the first image that is not good. -/
theorem measure_stage (images : List FirmwareImage) (k : Nat) (mr : Map (BitVec 256)) :
    (measure k images mr).2 =
      if images.all FirmwareImage.valid then 0 else k + 1 + (images.takeWhile FirmwareImage.valid).length := by
  induction images generalizing k mr with
  | nil => rfl
  | cons i r ih =>
    rw [measure]
    cases hv : i.valid with
    | false => simp [hv]
    | true =>
      rw [if_pos rfl, ih, List.all_cons, hv, Bool.true_and, List.takeWhile_cons_of_pos hv, List.length_cons]
      split
      · rfl
      · omega

/-- Whether the first images are good. -/
def goodTo (images : List FirmwareImage) (n : Nat) : Bool := (images.take n).all FirmwareImage.valid

/-- The first of four images that is not good, by what R314 tests in order. -/
theorem measure_four {images : List FirmwareImage} (h4 : images.length = 4) (mr : Map (BitVec 256)) : (measure 0 images mr).2 =
    if goodTo images 4 then 0 else if goodTo images 3 then 4 else if goodTo images 2 then 3
    else if goodTo images 1 then 2 else 1 := by
  obtain ⟨a, b, c, d, rfl⟩ := List.length_eq_four.mp h4
  rw [measure_stage]
  cases ha : a.valid <;> cases hb : b.valid <;> cases hc : c.valid <;> cases hd : d.valid <;> simp [goodTo, ha, hb, hc, hd]

theorem exec_packageReset {s : State} {images : List FirmwareImage} (h4 : images.length = 4) : exec (.packageReset images) s =
    .next { s with clk := 0, free := s.free + 2, chip := { Chip.reset with
      mr := (measure 0 images []).1, stage := (measure 0 images []).2
      hypRing := some ((Config.freeWord s.free).toNat % 2 ^ 46 * 64)
      mboxWin := some ((Config.freeWord (s.free + 1)).toNat % 2 ^ 40 * 2 ^ 16, 65536) } } :=
  if_neg (not_not.mpr h4)

theorem exec_configDeclare {s : State} {k : Nat} {v : BitVec 256} (h4 : 4 ≤ k) (h7 : k ≤ 7) (hm : s.chip.mrLocked = false) :
    exec (.configDeclare k v) s = .next { s with chip := { s.chip with mr := mput 0 s.chip.mr k v } } := by
  refine runEvent_next (t := { s.tx with chip := { s.chip with mr := mput 0 s.chip.mr k v } }) ?_
  rw [bind_next (getChip_run _), State.tx_chip, hm, decide_eq_true h4, decide_eq_true h7, Bool.not_false, Bool.and_self,
    Bool.and_self, enabled_true, bind_next (pure_run _ _)]
  rfl

theorem exec_configDeclare_locked {s : State} (k : Nat) (v : BitVec 256) (hm : s.chip.mrLocked = true) :
    exec (.configDeclare k v) s = .next s := by
  refine runEvent_waits ?_
  rw [bind_next (getChip_run _), State.tx_chip, hm, Bool.not_true, Bool.and_false, enabled_false, bind_stop (notReady_run _)]

end Sys2Proof.Machine
end

section
/-! Power and sensors (R177, R309 to R312): a cluster's P-state, a cap, and a sensor that a test fails. -/

namespace Sys2Proof.Machine

/-- An arbiter without requests grants nothing. -/
theorem arbitrate_none {t : Tx} {cl : Nat} (h : (t.chip.cluster cl).reqs = []) :
    ∃ c, arbitrate cl t = .ok ((), { t with chip := c }) ∧ ∀ k, c.cluster k = t.chip.cluster k := by
  refine ⟨t.chip.modCluster cl fun k =>
    { k with reqs := k.reqs.filter fun x => !([] : List Cq).contains x, grants := k.grants ++ [] }, ?_, fun k => ?_⟩
  · unfold arbitrate
    rw [bind_next (getChip_run _), h]
    exact (bind_next (modCluster_run _ _ _)).trans rfl
  · rw [Chip.cluster_modCluster]
    split
    · next hk =>
      subst hk
      cases hc : t.chip.cluster k
      rw [hc] at h
      simp_all
    · rfl

theorem Cluster.over_iff {k : Cluster} : k.over = true ↔ k.budget < k.used ∨ k.share < k.sideUsed := by
  simp [Cluster.over]

/-- A cluster that runs at an entry of its partition's map: its budget and share, and since when it exceeds them. -/
def Cluster.atEntry (k : Cluster) (n : Nat) (e : VpsEntry) (now : Nat) : Cluster :=
  { k with vps := n, budget := e.budget, share := e.share
           overSince := if e.budget < k.used ∨ e.share < k.sideUsed then some (k.overSince.getD now) else none }

theorem exec_clusterVpsChange {s : State} {cl part : Nat} {e : VpsEntry} (hp : s.chip.partOf cl = some part)
    (he : (s.chip.part part).vps[s.chip.vpsEntry (s.chip.part part) cl]? = some e) (hr : (s.chip.cluster cl).reqs = []) :
    ∃ t, exec (.clusterVpsChange cl) s = .next t ∧ t.mem = s.mem ∧
      t.chip.cluster cl = (s.chip.cluster cl).atEntry (s.chip.vpsEntry (s.chip.part part) cl) e s.clk ∧
      ∀ j, j ≠ cl → t.chip.cluster j = s.chip.cluster j := by
  let n := s.chip.vpsEntry (s.chip.part part) cl
  let d := s.chip.modCluster cl fun k =>
    let k := { k with vps := n, budget := e.budget, share := e.share }
    { k with overSince := if k.over then some (k.overSince.getD s.clk) else none }
  have hat : d.cluster cl = (s.chip.cluster cl).atEntry n e s.clk := by
    rw [Chip.cluster_modCluster, if_pos rfl]
    refine congrArg (fun o => { s.chip.cluster cl with vps := n, budget := e.budget, share := e.share, overSince := o }) ?_
    exact if_congr Cluster.over_iff rfl rfl
  obtain ⟨c, hc, hsame⟩ := arbitrate_none (t := { s.tx with chip := d }) (cl := cl) (hat ▸ hr)
  refine ⟨s.commit { s.tx with chip := c }, runEvent_next ?_, rfl, (hsame cl).trans hat, fun j hj => (hsame j).trans ?_⟩
  · rw [bind_next (getChip_run _), bind_next (clock_run _), State.tx_chip, hp, someOr_some, bind_next (pure_run _ _), he, someOr_some,
      bind_next (pure_run _ _), bind_next (modCluster_run _ _ _)]
    exact hc
  · exact (Chip.cluster_modCluster ..).trans (if_neg hj)

/-- Two transactions have written the same bytes, and the clusters stand alike. -/
def Tx.sameClusters (t u : Tx) : Prop := u.log = t.log ∧ u.chip.clusters = t.chip.clusters

theorem endRetention_clusters (tid : Nat) (t : Tx) : ∃ u, endRetention tid t = .ok ((), u) ∧ t.sameClusters u := by
  unfold endRetention
  rw [bind_next (getChip_run _)]
  refine each_preserves (P := t.sameClusters) (fun x u hu => ?_) _ ⟨rfl, rfl⟩
  rw [bind_next (modChip_run _ _), ite_run]
  split
  · exact ⟨_, modCore_run _ _ _, hu⟩
  · exact ⟨_, pure_run _ _, hu⟩

/-- What a cap reclaims is no cluster's. -/
theorem reclaim_clusters (us : List (Nat × UnitState)) (t : Tx) : ∃ u, each us (fun u => do
    if (← freeValue).getLsbD 0 then whenSome u.2.retained endRetention else pure ()) t = .ok ((), u) ∧ t.sameClusters u := by
  refine each_preserves (P := t.sameClusters) (fun x u hu => ?_) _ ⟨rfl, rfl⟩
  rw [bind_next (freeValue_run _), ite_run]
  split
  · cases x.2.retained with
    | none => exact ⟨_, pure_run _ _, hu⟩
    | some tid =>
      obtain ⟨v, hv, hlog, hclusters⟩ := endRetention_clusters tid { u with free := u.free + 1 }
      exact ⟨v, hv, hlog.trans hu.1, hclusters.trans hu.2⟩
  · exact ⟨_, pure_run _ _, hu⟩

section
variable {s : State} {cl entry : Nat}

/-- The chip with a cap on a cluster. -/
def Chip.capped (c : Chip) (cl entry : Nat) : Chip := c.modCluster cl fun k => { k with cap := entry }

/-- The retained MX units of a cluster that a cap may reclaim. -/
def Chip.retainedOn (c : Chip) (cl : Nat) : List (Nat × UnitState) :=
  c.units.filter fun u => u.1 / 8 < 1000 && coreCluster (u.1 / 8) = cl && u.2.retained.isSome

theorem exec_powerCapChange (hc : cl < 40) (he : entry < 8) : exec (.powerCapChange cl entry) s = runEvent (fun _ =>
    (if entry = 0 then pure () else each (s.chip.retainedOn cl) fun u => do
      if (← freeValue).getLsbD 0 then whenSome u.2.retained endRetention else pure () : Act Unit)
        { s.tx with chip := s.chip.capped cl entry }) s := by
  refine runEvent_congr ?_
  rw [decide_eq_true hc, decide_eq_true he, Bool.and_self, enabled_true, bind_next (pure_run _ _), bind_next (modCluster_run _ _ _),
    bind_next (getChip_run _)]
  rfl

theorem powerCapChange_caps (hc : cl < 40) (he : entry < 8) :
    ∃ t, exec (.powerCapChange cl entry) s = .next t ∧ t.mem = s.mem ∧ (t.chip.cluster cl).cap = entry := by
  have hcap : ((s.chip.capped cl entry).cluster cl).cap = entry := by rw [Chip.capped, Chip.cluster_modCluster, if_pos rfl]
  rw [exec_powerCapChange hc he]
  by_cases h0 : entry = 0
  · exact ⟨_, runEvent_next (congrFun (if_pos h0) _), rfl, hcap⟩
  · obtain ⟨u, hu, hlog, hclusters⟩ := reclaim_clusters (s.chip.retainedOn cl) { s.tx with chip := s.chip.capped cl entry }
    refine ⟨s.commit u, runEvent_next ((congrFun (if_neg h0) _).trans hu), ?_, ?_⟩
    · exact congrArg (Memory.writeAll s.mem) hlog
    · rw [State.commit_chip, Chip.cluster, hclusters]
      exact hcap

theorem powerCapChange_nothing (hc : cl < 40) (he : entry < 8) (h0 : entry = 0 ∨ ∀ u ∈ s.chip.units, u.2.retained = none) :
    exec (.powerCapChange cl entry) s = .next { s with chip := s.chip.capped cl entry } := by
  rw [exec_powerCapChange hc he]
  refine runEvent_next (t := { s.tx with chip := s.chip.capped cl entry }) ?_
  rcases h0 with h0 | hu
  · exact congrFun (if_pos h0) _
  · have hnone : s.chip.retainedOn cl = [] := List.filter_eq_nil_iff.mpr fun u hm => by simp [hu u hm]
    rw [hnone, each_nil, ite_self]
    rfl

end

section
variable {s : State} {domain k : Nat}

/-- The chip with a sensor voted out, and the HEALTH event that no ring takes where too few are good. -/
def Chip.sensorOut (c : Chip) (domain k : Nat) : Chip :=
  let d := { c with sensors := c.sensors ++ [(domain, k)] }
  if d.fewSensors domain then { d with evDropped := satInc d.evDropped } else d

/-- A chip in which too few sensors of a domain are good counts an event that no ring takes. -/
theorem sensorEvent_run {t : Tx} {d : Chip} (hring : d.evring = none) (part ctx cluster d0 d1 : Nat) :
    (if d.fewSensors domain then hostEvent evHealth part ctx cluster d0 d1 else pure () : Act Unit) { t with chip := d } =
      .ok ((), { t with chip := if d.fewSensors domain then { d with evDropped := satInc d.evDropped } else d }) := by
  rw [ite_run]
  split
  · exact hostEvent_dropped hring ..
  · rfl

theorem sensor_enabled (hk : ∃ ks ∈ sensorKinds domain, k ∈ ks) (hv : s.chip.votedOut domain k = false) :
    (((sensorKinds domain).any fun ks => ks.contains k) && !s.chip.votedOut domain k) = true := by
  obtain ⟨ks, h1, h2⟩ := hk
  rw [hv, Bool.not_false, Bool.and_true, List.any_eq_true]
  exact ⟨ks, h1, List.contains_iff_mem.mpr h2⟩

theorem exec_sensorVoteOut (hk : ∃ ks ∈ sensorKinds domain, k ∈ ks) (hv : s.chip.votedOut domain k = false)
    (hring : s.chip.evring = none) (ht : s.chip.voteOut domain k s.clk = true) :
    exec (.sensorVoteOut domain k) s = .next { s with chip := s.chip.sensorOut domain k } := by
  refine runEvent_next (t := { s.tx with chip := s.chip.sensorOut domain k }) ?_
  rw [bind_next (getChip_run _), bind_next (clock_run _), State.tx_chip, State.tx_clk, sensor_enabled hk hv, ht, Bool.and_self,
    enabled_true, bind_next (pure_run _ _), bind_next (modChip_run _ _), bind_next (getChip_run _)]
  exact sensorEvent_run (t := s.tx) (d := { s.chip with sensors := s.chip.sensors ++ [(domain, k)] }) hring ..

theorem exec_sensorVoteOut_passes (ht : s.chip.voteOut domain k s.clk = false) : exec (.sensorVoteOut domain k) s = .next s := by
  refine runEvent_waits ?_
  rw [bind_next (getChip_run _), bind_next (clock_run _), State.tx_chip, State.tx_clk, ht, Bool.and_false, enabled_false,
    bind_stop (notReady_run _)]

end

end Sys2Proof.Machine
end

section
/-! Spares (R317, R318): a channel group, a signal box and a mailbox that fail, and a core that fails in an idle package. -/

namespace Sys2Proof.Machine

/-! ## Channel groups -/

theorem poisonGrans_unsharded {t : Tx} (h : t.chip.wsets = []) (gs : List Nat) : poisonGrans gs t = .ok ((), { t with chip :=
    { t.chip with poison := t.chip.poison ++ gs.filter fun g => !t.chip.poison.contains g } }) := by
  refine (bind_next (modChip_run _ _)).trans (each_id _ fun g _ => ?_)
  rw [bind_next (getChip_run _)]
  simp only [Chip.shardsAt, h, List.zipIdx_nil, List.flatMap_nil, each_nil, pure_run]

theorem exec_channelGroupSpare {s : State} {group base len : Nat} (hg : group < 128)
    (hfree : mget? s.chip.spareGroups (group / 16) = none)
    (hw : s.chip.wsets = []) (hp : ∃ p ∈ s.chip.parts, p.2.resetting = true ∧ group ∈ p.2.groups) :
    exec (.channelGroupSpare group base len) s = .next { s with chip := { s.chip with
      spareGroups := mset s.chip.spareGroups (group / 16) group
      poison := s.chip.poison ++ (s.chip.granulesIn group base len).filter fun g => !s.chip.poison.contains g } } := by
  have howner : (s.chip.parts.any fun p => p.2.resetting && p.2.groups.contains group) = true := by
    obtain ⟨p, hmem, hr, hgroup⟩ := hp
    exact List.any_eq_true.mpr ⟨p, hmem, by rw [hr, List.contains_iff_mem.mpr hgroup, Bool.and_self]⟩
  let moved : Tx := { s.tx with chip := { s.chip with spareGroups := mset s.chip.spareGroups (group / 16) group } }
  refine runEvent_next (t := { moved with chip := { moved.chip with
    poison := s.chip.poison ++ (s.chip.granulesIn group base len).filter fun g => !s.chip.poison.contains g } }) ?_
  rw [bind_next (getChip_run _), State.tx_chip, decide_eq_true hg, hfree, Option.isNone_none, howner, Bool.and_self, Bool.and_self,
    enabled_true, bind_next (pure_run _ _), bind_next (modChip_run _ _)]
  exact poisonGrans_unsharded (t := moved) hw _

/-! ## Signal boxes and mailboxes -/

/-- A cluster whose box has failed. -/
def Cluster.boxFailed (k : Cluster) : Cluster := { k with box := { k.box with failed := true, phase := none } }

theorem failBox_idle {t : Tx} {cl : Nat} (h : (t.chip.cluster cl).box.phase = none) :
    failBox cl t = .ok ((), { t with chip := t.chip.modCluster cl Cluster.boxFailed }) := by
  unfold failBox
  rw [bind_next (getChip_run _), h, Option.isSome_none]
  exact bind_next (modCluster_run _ _ _)

/-- No box of a chip runs a phase. -/
def Chip.boxesIdle (c : Chip) : Prop := ∀ k, (c.cluster k).box.phase = none

theorem Chip.boxesIdle_boxFailed {c : Chip} (h : c.boxesIdle) (cl : Nat) : (c.modCluster cl Cluster.boxFailed).boxesIdle := by
  intro k
  rw [Chip.cluster_modCluster]
  split
  · rfl
  · exact h k

/-- The boxes of some clusters fail: those, and the ones that had failed, have failed. -/
structure Tx.failsBoxes (t u : Tx) (ks : List Nat) : Prop where
  log : u.log = t.log
  dies : u.chip.dies = t.chip.dies
  evring : u.chip.evring = t.chip.evring
  failed : ∀ k, k ∈ ks ∨ (t.chip.cluster k).box.failed = true → (u.chip.cluster k).box.failed = true

theorem failBoxes_run (bad : Cluster → Bool) (es : List (Nat × Cluster)) {t : Tx} (h : t.chip.boxesIdle) :
    ∃ u, each es (fun k => if bad k.2 then failBox k.1 else pure ()) t = .ok ((), u) ∧
      t.failsBoxes u ((es.filter fun e => bad e.2).map Prod.fst) := by
  induction es generalizing t with
  | nil => exact ⟨t, rfl, rfl, rfl, rfl, fun k hk => hk.resolve_left (by simp)⟩
  | cons e r ih =>
    cases hb : bad e.2 with
    | false =>
      obtain ⟨u, hu, hf⟩ := ih h
      refine ⟨u, ?_, by rwa [List.filter_cons_of_neg (by simp [hb])]⟩
      rw [each_cons, hb]
      exact (bind_next (pure_run _ _)).trans hu
    | true =>
      obtain ⟨u, hu, hlog, hdies, hring, hfailed⟩ := ih (t := { t with chip := t.chip.modCluster e.1 Cluster.boxFailed })
        (Chip.boxesIdle_boxFailed h e.1)
      refine ⟨u, ?_, hlog, hdies, hring, fun k hk => hfailed k ?_⟩
      · rw [each_cons, hb]
        exact (bind_next (failBox_idle (h e.1))).trans hu
      · simp only [List.filter_cons, hb, if_true, List.map_cons, List.mem_cons] at hk
        rw [Chip.cluster_modCluster]
        by_cases he : k = e.1
        · exact .inr (by rw [if_pos he]; rfl)
        · rw [if_neg he]
          exact hk.imp_left fun hmem => hmem.resolve_left he

section
variable {s : State} {unit : Nat}

theorem exec_signalBoxFail_box (hring : s.chip.evring = none) (hp : s.chip.boxesIdle) (hu : unit < 40)
    (hf : (s.chip.cluster unit).box.failed = false) : ∃ t, exec (.signalBoxFail false unit) s = .next t ∧ s.mem = t.mem ∧
      t.chip.cluster unit = { s.chip.cluster unit with box := { (s.chip.cluster unit).box with failed := true } } := by
  let d := s.chip.modCluster unit Cluster.boxFailed
  refine ⟨s.commit { s.tx with chip := { d with evDropped := satInc d.evDropped } }, runEvent_next ?_, rfl, ?_⟩
  · rw [bind_next (getChip_run _), State.tx_chip, if_neg Bool.false_ne_true, decide_eq_true hu, hf, Bool.not_false, Bool.and_self,
      enabled_true, bind_next (pure_run _ _), bind_next (failBox_idle (t := s.tx) (hp unit))]
    exact hostEvent_dropped (t := { s.tx with chip := d }) hring ..
  · refine (Chip.cluster_modCluster s.chip unit unit Cluster.boxFailed).trans ((if_pos rfl).trans ?_)
    rw [Cluster.boxFailed, ← hp unit]

/-- Whether a box has a routine with a window in a die's mailbox. -/
def Cluster.windowOn (die : Nat) (k : Cluster) : Bool := k.box.routines.any fun r => r.2.mlog2 ≠ 0 && r.2.mdie = die

/-- A cluster whose box has such a window is listed. -/
theorem Chip.listed_windowOn {c : Chip} {k die : Nat} (h : (c.cluster k).windowOn die = true) :
    k ∈ (c.clusters.filter fun e => e.2.windowOn die).map Prod.fst := by
  unfold Chip.cluster mgetD at h
  cases hm : mget? c.clusters k with
  | none =>
    rw [hm] at h
    exact absurd h Bool.false_ne_true
  | some x =>
    rw [hm] at h
    exact List.mem_map.mpr ⟨(k, x), List.mem_filter.mpr ⟨mget_mem hm, h⟩, rfl⟩

theorem exec_signalBoxFail_mailbox (hring : s.chip.evring = none) (hp : s.chip.boxesIdle) (hu : unit < 4)
    (hf : (s.chip.die unit).mboxFailed = false) : ∃ t, exec (.signalBoxFail true unit) s = .next t ∧ t.mem = s.mem ∧
      (t.chip.die unit).mboxFailed = true ∧ ∀ e ∈ s.chip.clusters,
        (s.chip.cluster e.1).windowOn unit = true → (t.chip.cluster e.1).box.failed = true := by
  let c := s.chip.modDie unit fun d => { d with mboxFailed := true }
  obtain ⟨u, hboxes, hlog, hdies, hring', hfailed⟩ :=
    failBoxes_run (Cluster.windowOn unit) s.chip.clusters (t := { s.tx with chip := c }) hp
  refine ⟨s.commit { u with chip := { u.chip with evDropped := satInc u.chip.evDropped }, free := u.free + 2 }, runEvent_next ?_,
    congrArg (Memory.writeAll s.mem) hlog, ?_, fun e he hw => hfailed e.1 (.inl ?_)⟩
  · rw [bind_next (getChip_run _), State.tx_chip, if_pos rfl, decide_eq_true hu, hf, Bool.not_false, Bool.and_self, enabled_true,
      bind_next (pure_run _ _)]
    unfold failMailbox
    rw [bind_next (modDie_run _ _ _), bind_next (getChip_run _)]
    refine (bind_next hboxes).trans ?_
    rw [bind_next (eventData_run _), bind_next (eventData_run _)]
    exact hostEvent_dropped (t := { u with free := u.free + 1 + 1 }) (hring'.trans hring) ..
  · have hdie : u.chip.die unit = c.die unit := congrArg (mgetD · Die.init unit) hdies
    rw [State.commit_chip]
    refine (congrArg Die.mboxFailed hdie).trans ?_
    rw [Chip.die_modDie, if_pos rfl]
  · exact Chip.listed_windowOn hw

end
end Sys2Proof.Machine
end

section
/-! A core that fails in an idle package (R308, R317): its partition drains and resets, and a spare takes its place or its cluster
leaves. -/

namespace Sys2Proof.Machine

/-! ## An idle package -/

/-- No team stands in a package, no lease or mark is left, no core holds a partial, and nothing waits or takes an event. -/
structure Chip.idle (c : Chip) : Prop where
  nobody : c.parkedSides = []
  teams : c.teams = []
  leases : c.leases = []
  marks : c.marks = []
  partials : ∀ e ∈ c.cores, e.2.partials = []
  evring : c.evring = none

/-- What an idle package shows itself by. -/
def Chip.idleFields (c : Chip) : Map Slot × Map Team × Map Lease × Map (BitVec 64) × Map Core × Option (Nat × Bool × Word) :=
  (c.slots, c.teams, c.leases, c.marks, c.cores, c.evring)

theorem Chip.idle_of_fields {c d : Chip} (h : c.idle) (hd : d.idleFields = c.idleFields) : d.idle := by
  obtain ⟨h1, h2, h3, h4, h5, h6⟩ := h
  simp only [Chip.idleFields, Prod.mk.injEq] at hd
  obtain ⟨k1, k2, k3, k4, k5, k6⟩ := hd
  refine ⟨?_, k2.trans h2, k3.trans h3, k4.trans h4, k5 ▸ h5, k6.trans h6⟩
  unfold Chip.parkedSides Chip.saving at h1 ⊢
  rw [k1, k2]
  exact h1

/-- What a step of such a package leaves: nothing written, the package as idle as it was, its partitions as `fp` and its dies as
`fd` say. -/
structure Tx.idlesTo (t u : Tx) (fp : Nat → Partition → Partition) (fd : Nat → Die → Die) : Prop where
  log : u.log = t.log
  fields : u.chip.idleFields = t.chip.idleFields
  part : ∀ i, u.chip.part i = fp i (t.chip.part i)
  die : ∀ i, u.chip.die i = fd i (t.chip.die i)

/-- A change of the entry of one key, if there is one. -/
def onKey {α : Type} (k : Option Nat) (f : α → α) (i : Nat) (x : α) : α := if k = some i then f x else x

section
variable {t u v : Tx} {fp gp : Nat → Partition → Partition} {fd gd : Nat → Die → Die}

theorem Tx.idlesTo_trans (h : t.idlesTo u fp fd) (h' : u.idlesTo v gp gd) :
    t.idlesTo v (fun i p => gp i (fp i p)) (fun i d => gd i (fd i d)) := by
  obtain ⟨h1, h2, h3, h4⟩ := h
  obtain ⟨k1, k2, k3, k4⟩ := h'
  exact ⟨k1.trans h1, k2.trans h2, fun i => by rw [k3, h3], fun i => by rw [k4, h4]⟩

/-- A step that leaves the partitions and dies of an idle package too. -/
abbrev Tx.idles (t u : Tx) : Prop := t.idlesTo u (fun _ p => p) fun _ d => d

theorem pushHooks_idle (hook subject : Nat) (ks : List Nat) (t : Tx) :
    ∃ u, each ks (fun k => pushHook k hook subject) t = .ok ((), u) ∧ t.idles u :=
  each_preserves (P := t.idles) (fun _ _ hu =>
    ⟨_, modCluster_run _ _ _, Tx.idlesTo_trans hu ⟨rfl, rfl, fun _ => rfl, fun _ => rfl⟩⟩) ks ⟨rfl, rfl, fun _ => rfl, fun _ => rfl⟩

theorem Tx.idlesTo_modPart (t : Tx) (k : Nat) (f : Partition → Partition) :
    t.idlesTo { t with chip := t.chip.modPart k f } (onKey (some k) f) fun _ d => d :=
  ⟨rfl, rfl, fun i => by
    rw [Chip.part_modPart, onKey]
    by_cases hi : i = k <;> simp [hi, Ne.symm], fun _ => rfl⟩

theorem Tx.idlesTo_modDie (t : Tx) (k : Nat) (f : Die → Die) :
    t.idlesTo { t with chip := t.chip.modDie k f } (fun _ p => p) (onKey (some k) f) :=
  ⟨rfl, rfl, fun _ => rfl, fun i => by
    rw [Chip.die_modDie, onKey]
    by_cases hi : i = k <;> simp [hi, Ne.symm]⟩

/-! ## The drain and the reset of an idle partition (R308) -/

/-- A chip in which a partition starts to drain: it resets, and its active contexts stop. -/
def Chip.draining (c : Chip) (part : Nat) : Chip :=
  let d := c.modPart part fun p => { p with resetting := true }
  { d with ctxs := d.ctxs.map fun x =>
      (x.1, if x.2.part = part && x.2.state = .active then { x.2 with state := .stopped } else x.2) }

theorem Tx.idlesTo_draining (t : Tx) (part : Nat) :
    t.idlesTo { t with chip := t.chip.draining part } (onKey (some part) fun p => { p with resetting := true }) fun _ d => d := by
  obtain ⟨-, -, hpart, -⟩ := Tx.idlesTo_modPart t part fun p => { p with resetting := true }
  exact ⟨rfl, rfl, hpart, fun _ => rfl⟩

theorem drainPartition_idle (hi : t.chip.idle) (part : Nat) : ∃ u, drainPartition part t = .ok ((), u) ∧
    t.idlesTo u (onKey (some part) fun p => { p with resetting := true }) fun _ d => d := by
  have hd := Tx.idlesTo_draining t part
  obtain ⟨hnobody, hteams, hleases, -, -, -⟩ := Chip.idle_of_fields hi hd.fields
  have hrevoke : each ((t.chip.draining part).leases.filter fun l =>
      l.2.partOf (t.chip.draining part) = part && l.2.state ≠ .revoked) (fun l => revokeLease l.1)
      { t with chip := t.chip.draining part } = .ok ((), { t with chip := t.chip.draining part }) := by
    rw [hleases]
    rfl
  have hunits : each ((t.chip.draining part).residentUnits fun _ r _ => r.part = part) (fun u => drainOut part u.1 u.2)
      { t with chip := t.chip.draining part } = .ok ((), { t with chip := t.chip.draining part }) := by
    rw [Chip.residentUnits, hteams]
    rfl
  refine ⟨{ t with chip := t.chip.draining part }, ?_, hd⟩
  unfold drainPartition
  rw [bind_next (modPart_run _ _ _), bind_next (modChip_run _ _), bind_next (getChip_run _)]
  exact (bind_next hrevoke).trans ((bind_next (settle_none hnobody)).trans hunits)

/-- A chip whose homes have forgotten a partition's monitors and sync records, and whose contexts of that partition run again. -/
def Chip.refreshed (c : Chip) (part : Nat) : Chip := Chip.restartPhases { c with
  mons := c.mons.filter fun m => !c.ownsGran (c.part part) (m.pa / 32)
  recs := c.recs.filter fun r => !c.ownsGran (c.part part) r.gran
  ctxs := c.ctxs.map fun x => (x.1, if x.2.part = part then
    { x.2 with state := if x.2.state = .stopped then .active else x.2.state
               watch := x.2.watch.map fun w => (w.1, { w.2 with stale := true }) } else x.2) } part

theorem finishReset_idle (hi : t.chip.idle) {part : Nat} (hr : (t.chip.part part).resetting = true) :
    ∃ u, finishReset part t = .ok ((), u) ∧ t.idlesTo u (onKey (some part) fun p => { p with resetting := false }) fun _ d => d := by
  obtain ⟨-, hteams, -, hmarks, hpartials, -⟩ := hi
  have hlines : (t.chip.cores.flatMap fun k => k.2.partials.map fun e => e.1 / 128) = [] := by
    rw [List.flatMap_eq_nil_iff]
    intro e he
    rw [hpartials e he, List.map_nil]
  have hstays : (!(t.chip.part part).resetting || !(t.chip.partTeams part).isEmpty) = false := by
    rw [Chip.partTeams, hteams, hr]
    rfl
  obtain ⟨u, hu, hhooks⟩ := pushHooks_idle 1 0 (t.chip.part part).clusters
    { t with chip := (t.chip.refreshed part).modPart part fun p => { p with resetting := false } }
  have hfresh : t.idles { t with chip := t.chip.refreshed part } := ⟨rfl, rfl, fun _ => rfl, fun _ => rfl⟩
  refine ⟨u, ?_, Tx.idlesTo_trans (Tx.idlesTo_trans hfresh (Tx.idlesTo_modPart _ part _)) hhooks⟩
  unfold finishReset
  rw [bind_next (getChip_run _)]
  simp only [hstays, hlines, Bool.false_eq_true, if_false, distinct, each_nil]
  rw [bind_next (pure_run _ _), bind_next (getChip_run _), hmarks]
  refine (bind_next (pure_run _ _)).trans ?_
  rw [bind_next (modChip_run _ _), bind_next (modPart_run _ _ _)]
  exact hu

/-! ## CORE_TEST_FAIL -/

/-- With no partition named, none changes. -/
theorem Tx.idlesTo_none (t : Tx) (f : Partition → Partition) : t.idlesTo t (onKey none f) fun _ d => d :=
  ⟨rfl, rfl, fun _ => rfl, fun _ => rfl⟩

theorem drainOwner_idle (hi : t.chip.idle) {c : Chip} (hc : ∀ p, (c.part p).resetting = false) (owner : Option Nat) : ∃ u,
    (whenSome owner fun part => if (c.part part).resetting then pure () else drainPartition part) t = .ok ((), u) ∧
      t.idlesTo u (onKey owner fun p => { p with resetting := true }) fun _ d => d := by
  cases owner with
  | none => exact ⟨t, rfl, Tx.idlesTo_none t _⟩
  | some part =>
    rw [whenSome_some, hc part]
    exact drainPartition_idle hi part

/-- A partition without one of its clusters. -/
def Partition.without (cl : Nat) (p : Partition) : Partition := { p with clmask := p.clmask &&& ~~~(BitVec.ofNat 40 (2 ^ cl)) }

theorem applyClusters_idle (t : Tx) (part : Nat) (f : Partition → Partition) : ∃ u,
    applyClusters part (f (t.chip.part part)) t = .ok ((), u) ∧ t.idlesTo u (onKey (some part) f) fun _ d => d := by
  let c := t.chip.modPart part f
  let d : Chip := { c with runs := c.runs.map fun r =>
    (r.1, if r.2.part = part && r.2.live then r.2.reranged (f (t.chip.part part)) else r.2) }
  obtain ⟨u, hu, hhooks⟩ := pushHooks_idle 1 0 (f (t.chip.part part)).clusters { t with chip := d }
  have hd : Tx.idles { t with chip := c } { t with chip := d } := ⟨rfl, rfl, fun _ => rfl, fun _ => rfl⟩
  exact ⟨u, (bind_next (modPart_run _ _ _)).trans ((bind_next (modChip_run _ _)).trans hu),
    Tx.idlesTo_trans (Tx.idlesTo_trans (Tx.idlesTo_modPart t part f) hd) hhooks⟩

theorem leaveOwner_idle (t : Tx) (owner : Option Nat) (cl : Nat) : ∃ u,
    (whenSome owner fun part => do
      let p := (← getChip).part part
      applyClusters part { p with clmask := p.clmask &&& ~~~(BitVec.ofNat 40 (2 ^ cl)) }) t = .ok ((), u) ∧
      t.idlesTo u (onKey owner (Partition.without cl)) fun _ d => d := by
  cases owner with
  | none => exact ⟨t, rfl, Tx.idlesTo_none t _⟩
  | some part =>
    rw [whenSome_some, bind_next (getChip_run _)]
    exact applyClusters_idle t part (Partition.without cl)

theorem endReset_idle (hi : t.chip.idle) {owner : Option Nat} (hr : ∀ part, owner = some part → (t.chip.part part).resetting = true) :
    ∃ u, (do whenSome owner finishReset; settle : Act Unit) t = .ok ((), u) ∧
      t.idlesTo u (onKey owner fun p => { p with resetting := false }) fun _ d => d := by
  obtain ⟨u, hu, hd⟩ : ∃ u, whenSome owner finishReset t = .ok ((), u) ∧
      t.idlesTo u (onKey owner fun p => { p with resetting := false }) fun _ d => d := by
    cases owner with
    | none => exact ⟨t, rfl, Tx.idlesTo_none t _⟩
    | some part => exact finishReset_idle hi (hr part rfl)
  exact ⟨u, (bind_next hu).trans (settle_none (Chip.idle_of_fields hi hd.fields).nobody), hd⟩

/-- A HEALTH or SPARE event that no ring takes. -/
theorem Tx.idles_dropped (t : Tx) (n : Nat) :
    t.idles { t with chip := { t.chip with evDropped := satInc t.chip.evDropped }, free := n } :=
  ⟨rfl, rfl, fun _ => rfl, fun _ => rfl⟩

end

/-- A partition after the drain, the change `f` and the end of its reset. -/
def Partition.throughReset (f : Partition → Partition) (p : Partition) : Partition :=
  { f { p with resetting := true } with resetting := false }

section
variable {s : State} {core : Nat}

theorem onKey_throughReset (o : Option Nat) (f : Partition → Partition) (i : Nat) (p : Partition) :
    onKey o (fun p => { p with resetting := false }) i (onKey o f i (onKey o (fun p => { p with resetting := true }) i p)) =
      onKey o (Partition.throughReset f) i p := by
  unfold onKey
  split <;> rfl

/-- After the drain, and a change of the owner that leaves it in its reset, the reset ends. -/
theorem resetEnds_idle {r t u : Tx} {owner : Option Nat} {f : Partition → Partition} {fd : Nat → Die → Die} (hi : r.chip.idle)
    (hdrain : r.idlesTo t (onKey owner fun p => { p with resetting := true }) fun _ d => d) (hmid : t.idlesTo u (onKey owner f) fd)
    (hf : ∀ p, (f p).resetting = p.resetting) : ∃ v, (do whenSome owner finishReset; settle : Act Unit) u = .ok ((), v) ∧
      r.idlesTo v (onKey owner (Partition.throughReset f)) fd := by
  obtain ⟨hlog, hfields, hpart, hdie⟩ := Tx.idlesTo_trans hdrain hmid
  obtain ⟨v, hv, hend⟩ := endReset_idle (Chip.idle_of_fields hi hfields) (owner := owner) fun part ho => by
    rw [hpart]
    simp only [onKey, if_pos ho, hf]
  refine ⟨v, hv, hend.log.trans hlog, hend.fields.trans hfields, fun i => ?_, fun i => (hend.die i).trans (hdie i)⟩
  rw [hend.part, hpart, onKey_throughReset]

theorem exec_coreTestFail (hi : s.chip.idle) (hc : core < 320) (hparts : ∀ p, (s.chip.part p).resetting = false) :
    ∃ u, exec (.coreTestFail core) s = .next (s.commit u) ∧ (
      if (s.chip.die (coreDie core)).spares.length < 4 then
        s.tx.idlesTo u (onKey (s.chip.partOf (coreCluster core)) (Partition.throughReset id))
          (onKey (some (coreDie core)) fun d => { d with spares := d.spares ++ [core] })
      else s.tx.idlesTo u (onKey (s.chip.partOf (coreCluster core)) (Partition.throughReset (Partition.without (coreCluster core))))
        fun _ d => d) := by
  have hteams : s.chip.coreTeams core = [] := by rw [Chip.coreTeams, hi.teams]; rfl
  obtain ⟨t, ht, hdrain⟩ := drainOwner_idle (t := s.tx) hi hparts (s.chip.partOf (coreCluster core))
  have hidle := Chip.idle_of_fields hi hdrain.fields
  split
  · next hroom =>
    let moved : Tx := { t with chip := t.chip.modDie (coreDie core) fun d => { d with spares := d.spares ++ [core] } }
    have hmid := Tx.idlesTo_trans (Tx.idlesTo_modDie t (coreDie core) fun d => { d with spares := d.spares ++ [core] })
      (Tx.idles_dropped moved (t.free + 1 + 1))
    obtain ⟨v, hv, hend⟩ := resetEnds_idle hi hdrain (f := id)
      ⟨hmid.log, hmid.fields, fun i => (hmid.part i).trans (by simp [onKey]), hmid.die⟩ fun _ => rfl
    refine ⟨v, runEvent_next ?_, hend⟩
    rw [decide_eq_true hc, enabled_true, bind_next (pure_run _ _), bind_next (getChip_run _), State.tx_chip, hteams, each_nil,
      bind_next (pure_run _ _), bind_next (getChip_run _)]
    refine (bind_next ht).trans ((congrFun (if_pos hroom) _).trans ?_)
    rw [bind_next (modDie_run _ _ _), bind_next (eventData_run _), bind_next (eventData_run _)]
    exact (bind_next (hostEvent_dropped (t := { moved with free := t.free + 1 + 1 }) hidle.evring ..)).trans hv
  · next hroom =>
    obtain ⟨w, hw, hleave⟩ := leaveOwner_idle t (s.chip.partOf (coreCluster core)) (coreCluster core)
    have hmid := Tx.idlesTo_trans hleave (Tx.idles_dropped w w.free)
    obtain ⟨v, hv, hend⟩ := resetEnds_idle hi hdrain hmid fun _ => rfl
    refine ⟨v, runEvent_next ?_, hend⟩
    rw [decide_eq_true hc, enabled_true, bind_next (pure_run _ _), bind_next (getChip_run _), State.tx_chip, hteams, each_nil,
      bind_next (pure_run _ _), bind_next (getChip_run _)]
    refine (bind_next ht).trans ((congrFun (if_neg hroom) _).trans ((bind_next hw).trans ?_))
    exact (bind_next (hostEvent_dropped (Chip.idle_of_fields hidle hleave.fields).evring ..)).trans hv

end

end Sys2Proof.Machine
end

section
/-! The package's events together (O54). -/

namespace Sys2Proof.Machine

section
variable {s : State}

/-- What a companion's write leaves in memory, the link, the marks and the sync records. -/
theorem tvlCompanionWrite_performs (hw : s.Inv) (hs : s.plain) {addr : Nat} {bytes : List Byte} (ha : addr + bytes.length ≤ 2 ^ 52) :
    ∃ t, exec (.tvlCompanionWrite addr bytes) s = .next t ∧ s.stores t addr bytes ∧ t.chip.link = { s.chip.link with fails := 0 } ∧
      (∀ g, mget? t.chip.marks g = if g ∈ granulesOf addr bytes.length then some markClear else mget? s.chip.marks g) ∧
      t.chip.recs = s.chip.recs.filter fun r => !(granulesOf addr bytes.length).contains r.gran :=
  ⟨_, exec_tvlCompanionWrite hs ha, Memory.stores_block hw (congrArg (Memory.writeAll s.mem) (List.append_nil _)), rfl,
    mget_foldl_mset markClear _ _, rfl⟩

/-- What a reset with four images leaves: the registers of those up to one that fails, and its stage. -/
theorem packageReset_measures {images : List FirmwareImage} (h4 : images.length = 4) :
    ∃ mr ring window, exec (.packageReset images) s = .next { s with clk := 0, free := s.free + 2, chip := { Chip.reset with
        mr := mr, stage := (measure 0 images []).2, hypRing := some ring, mboxWin := some (window, 65536) } } ∧
      ring % 64 = 0 ∧ window % 65536 = 0 ∧ ∀ k, mgetD mr 0 k =
        ((images[k]?).map fun i => if goodTo images (k + 1) then extendMr 0 i.digest else 0).getD 0 := by
  refine ⟨_, _, _, exec_packageReset h4, Nat.mul_mod_left .., Nat.mul_mod_left .., fun k => ?_⟩
  have hat := measure_at images 0 k [] fun _ _ => rfl
  rwa [Nat.zero_add] at hat

/-- What a core that fails leaves of memory, the partitions and its die. -/
theorem coreTestFail_replaces {core : Nat} (hi : s.chip.idle) (hc : core < 320) (hparts : ∀ p, (s.chip.part p).resetting = false) :
    ∃ t, exec (.coreTestFail core) s = .next t ∧ t.mem = s.mem ∧ (∀ p, (t.chip.part p).resetting = false) ∧
      (t.chip.die (coreDie core)).spares = (if (s.chip.die (coreDie core)).spares.length < 4 then
        (s.chip.die (coreDie core)).spares ++ [core] else (s.chip.die (coreDie core)).spares) ∧
      (4 ≤ (s.chip.die (coreDie core)).spares.length → ∀ p, s.chip.partOf (coreCluster core) = some p →
        (t.chip.part p).clmask = (s.chip.part p).clmask &&& ~~~(BitVec.ofNat 40 (2 ^ coreCluster core))) := by
  have hreset (o : Option Nat) (f : Partition → Partition) (i : Nat) :
      (onKey o (Partition.throughReset f) i (s.chip.part i)).resetting = false := by
    unfold onKey
    split
    · rfl
    · exact hparts i
  obtain ⟨u, hu, hends⟩ := exec_coreTestFail hi hc hparts
  refine ⟨s.commit u, hu, ?_⟩
  split at hends
  · next hroom =>
    obtain ⟨hlog, -, hpart, hdie⟩ := hends
    refine ⟨congrArg (Memory.writeAll s.mem) hlog, fun p => (congrArg _ (hpart p)).trans (hreset ..), ?_, fun h4 => by omega⟩
    rw [if_pos hroom]
    exact (congrArg Die.spares (hdie _)).trans (by rw [onKey, if_pos rfl]; rfl)
  · next hroom =>
    obtain ⟨hlog, -, hpart, hdie⟩ := hends
    refine ⟨congrArg (Memory.writeAll s.mem) hlog, fun p => (congrArg _ (hpart p)).trans (hreset ..), ?_, fun _ p hp => ?_⟩
    · rw [if_neg hroom]
      exact congrArg Die.spares (hdie _)
    · exact (congrArg Partition.clmask (hpart p)).trans (by rw [onKey, if_pos hp]; rfl)

end

/-- Settles O54: each kind of event by its own law. -/
theorem packageEvents : Obligations.PackageEvents := by
  intro s hinv link linked
  refine ⟨fun hs addr => ⟨fun bytes ha => tvlCompanionWrite_performs hinv hs ha, fun n ha => exec_tvlCompanionRead hs ha⟩,
    exec_tvlFlitCrcFail, exec_tvlFlitCrcFail_down,
    fun t0 ht hn => ⟨exec_tvlRetrainComplete ht hn, exec_tvlLinkdown ht hn⟩, ?_,
    fun k v h4 h7 => ⟨exec_configDeclare h4 h7, exec_configDeclare_locked k v⟩,
    fun cl part e hp he hr => exec_clusterVpsChange hp he hr,
    fun cl entry hc he => ⟨powerCapChange_caps hc he, powerCapChange_nothing hc he⟩,
    fun domain k hk hv hring => ⟨exec_sensorVoteOut hk hv hring, exec_sensorVoteOut_passes⟩, ?_,
    fun group base len hg hfree hw hp => exec_channelGroupSpare hg hfree hw hp,
    fun unit hring hp => ⟨exec_signalBoxFail_box hring hp, exec_signalBoxFail_mailbox hring hp⟩⟩
  · intro images h4 good failed
    obtain ⟨mr, ring, window, hx, hring, hwindow, hmr⟩ := packageReset_measures (s := s) h4
    rw [measure_four h4] at hx
    refine ⟨mr, ring, window, hx, hring, hwindow, fun k => (hmr k).trans ?_⟩
    cases images[k]? <;> rfl
  · intro core hc ⟨hn, hp⟩ hring hteams hleases hmarks hparts
    refine coreTestFail_replaces ⟨hn, hteams, hleases, hmarks, hp.1, hring⟩ hc fun p => ?_
    unfold Chip.part mgetD
    cases hm : mget? s.chip.parts p with
    | none => rfl
    | some x => exact hparts _ (mget_mem hm)

end Sys2Proof.Machine
end

section
/-! The end of a lease's wake (O32): a state in which a stacked side resumes with the running one. The obligation speaks of every
state, also of one whose slot table lists a slot twice; there the side that waits is looked at again once it has resumed. -/

namespace Sys2Proof.Machine

/-- The wait of a LEASE for lease 1. -/
def leaseWait : Wait := .lease 1 0

/-- A path that waits for lease 1, with sides on its stack. -/
def sleeperPath (sides : List Side) : Path :=
  { Path.start 0 (BitVec.allOnes 32) 0 with wait := some leaseWait, stack := sides }

/-- A group of a team with that path alone. -/
def sleeperGroup (tid : Nat) (sides : List Side) : Group := { Group.start placedRun tid 0 0 with paths := [(0, sleeperPath sides)] }

/-- A stacked side that waits at the same instruction with the same lanes. -/
def stackedSleeper : Side := ⟨0, BitVec.allOnes 32, some leaseWait⟩

/-- A lease of class 2 whose wake is over. -/
def wokenLease : Lease :=
  { cls := 2, place := 0, qidx := 0, serial := 1, tid := 1, slot := 0, index := 0, lslot := 0, ctx := 0, want := 0, since := 0
    aged := false, state := .waking, unit := 0, grantAt := 0, heldAt := 0, wakeAt := 0, revokeAt := 0, opser := 0 }

/-- Slot 0 stands twice in its table: its first entry holds a group of team 1, which is being saved, behind it is one of team 2. The
paths of both wait for lease 1, and the first has a stacked side that does so too. -/
def wakeTwice : State :=
  { State.reset with chip := { Chip.reset with
      slots := [(0, { Slot.init with group := some (sleeperGroup 1 [stackedSleeper]) }),
                (0, { Slot.init with group := some (sleeperGroup 2 []) })]
      teams := [(1, { placedTeam with saveBy := some 0 }), (2, placedTeam)]
      runs := [(1, placedRun)]
      leases := [(1, wokenLease)] } }

/-- One side waits there: as the waits of a team that is being saved do not count, it is listed by the second entry alone, but it
stands as the running side of the first. -/
theorem wakeTwice_waits : wakeTwice.waits ⟨0, 0, none, 0, BitVec.allOnes 32, leaseWait⟩ (sleeperPath [stackedSleeper]) := by
  unfold State.waits
  decide +kernel

/-- The running side resumes at the first look, the stacked one, which is found in its place, at the second. -/
theorem wakeTwice_stack : ∀ t, exec (.leaseWakeComplete (queueKey 2 0) 0) wakeTwice = .next t →
    (t.chip.path? 0 0).map Path.stack = some [⟨8, BitVec.allOnes 32, none⟩] := by
  have hrun : (match exec (.leaseWakeComplete (queueKey 2 0) 0) wakeTwice with
      | .next t => (t.chip.path? 0 0).map Path.stack
      | _ => none) = some [⟨8, BitVec.allOnes 32, none⟩] := by decide +kernel
  intro t ht
  rw [ht] at hrun
  exact hrun

/-- Refutes O32: with slot 0 listed twice, the end of a lease's wake changes the stack of the path whose running side resumes. -/
theorem not_leaseEvents : ¬ Obligations.LeaseEvents := by
  unfold Obligations.LeaseEvents
  intro hE
  obtain ⟨-, hwake, -⟩ := hE wakeTwice (queueKey 2 0) 0 1 wokenLease (by decide +kernel) (by rfl)
  obtain ⟨-, hends⟩ := hwake (by rfl) (by decide)
  obtain ⟨t, ht, ⟨hpath, -⟩, -⟩ := hends _ _ 0 wakeTwice_waits (by rfl)
  have hstack := wakeTwice_stack t ht
  rw [hpath] at hstack
  exact absurd hstack (by decide)

end Sys2Proof.Machine
end

section
/-! The current arbiter and the voltage islands (R183, R184, R187): what the arbiter's pass gives, NOTICE for a cluster over its budget,
and the islands of a pair of cores. -/

namespace Sys2Proof.Machine

/-! ## The arbiter's pass (R184) -/

section
variable {t : Tx} {cl : Nat}

/-- A request of an ENG operation or of a copy: its grant is all that the arbiter does for it. -/
def Cq.plain (r : Cq) : Prop := (∃ id, r.owner = .eng id) ∨ ∃ id, r.owner = .copy id

/-- A cluster once its arbiter has granted some of its requests. -/
def Cluster.granting (k : Cluster) (won : List Cq) : Cluster :=
  { k with reqs := k.reqs.filter fun x => !won.contains x, grants := k.grants ++ won }

/-- The arbiter grants what its pass gives. -/
theorem arbitrate_run {won : List Cq}
    (hw : cqPass (t.chip.cluster cl).budget (t.chip.cluster cl).share (sortBy cqBefore (t.chip.cluster cl).reqs)
      (t.chip.cluster cl).used (t.chip.cluster cl).sideUsed false false = won) (hp : ∀ r ∈ won, r.plain) :
    arbitrate cl t = .ok ((), { t with chip := t.chip.modCluster cl fun k => k.granting won }) := by
  unfold arbitrate
  rw [bind_next (getChip_run t), hw]
  refine (bind_next (modCluster_run _ _ _)).trans (each_id won fun r hr => ?_)
  rcases hp r hr with ⟨id, ho⟩ | ⟨id, ho⟩ <;> rw [ho] <;> rfl

/-- Without requests it grants nothing. -/
theorem arbitrate_idle (h : (t.chip.cluster cl).reqs = []) :
    arbitrate cl t = .ok ((), { t with chip := t.chip.modCluster cl fun k => k.granting [] }) :=
  arbitrate_run (by rw [h]; rfl) fun _ hr => absurd hr List.not_mem_nil

/-- A request that stands alone is granted where it fits. -/
theorem arbitrate_fits {r : Cq} (h : (t.chip.cluster cl).reqs = [r]) (hr : r.plain)
    (hb : (t.chip.cluster cl).used + r.need ≤ (t.chip.cluster cl).budget)
    (hs : r.siding = true → (t.chip.cluster cl).sideUsed + r.need ≤ (t.chip.cluster cl).share) :
    arbitrate cl t = .ok ((), { t with chip := t.chip.modCluster cl fun k => k.granting [r] }) := by
  refine arbitrate_run ?_ fun x hx => List.mem_singleton.mp hx ▸ hr
  have hlack : (r.siding && decide ((t.chip.cluster cl).sideUsed + r.need > (t.chip.cluster cl).share)) = false := by
    cases hside : r.siding
    · rfl
    · simpa using hs hside
  have hsort : sortBy cqBefore (t.chip.cluster cl).reqs = [r] := by rw [h]; rfl
  rw [hsort]
  simp [cqPass, hlack, Nat.not_lt_of_ge hb]

end

theorem Cluster.granting_none {k : Cluster} (h : k.reqs = []) : k.granting [] = k := by
  cases k
  simp_all [Cluster.granting]

theorem Cluster.granting_one {k : Cluster} {r : Cq} (h : k.reqs = [r]) : k.granting [r] = { k with reqs := [], grants := k.grants ++ [r] } := by
  simp [Cluster.granting, h]

/-! ## NOTICE (R185) -/

/-- A lease in NOTICE with its 2000 clk of grace. -/
def Lease.noticed (l : Lease) (now : Nat) : Lease := if l.state = .held then { l with state := .notice, revokeAt := now + 2000 } else l

theorem Lease.noticed_held {l : Lease} (h : l.state = .held) (now : Nat) :
    l.noticed now = { l with state := .notice, revokeAt := now + 2000 } := if_pos h

/-- NOTICE on a lease that no pair of MX units takes with it. -/
theorem giveNotice_run {t : Tx} {uid : Nat} (hg : t.chip.leaseGroup uid = [uid]) :
    giveNotice uid t = .ok ((), { t with chip := { t.chip with leases := mmod t.chip.leases uid fun x => x.noticed t.clk } }) := by
  unfold giveNotice
  rw [bind_next (clock_run t), bind_next (getChip_run t), hg]
  rfl

/-! ## The events -/

/-- An event that leaves the chip `c` and changes nothing else. -/
theorem event_next {s : State} {i : Instr} {body : Act Unit} {c : Chip} (hx : exec i s = runEvent body s)
    (hb : body s.tx = .ok ((), { s.tx with chip := c })) : exec i s = .next { s with chip := c } :=
  hx.trans (runEvent_next hb)

section
variable {s : State} {cl : Nat}

/-- CQ_GRANT on a request that stands alone and fits. -/
theorem exec_cqGrant {r : Cq} (hn : s.nobodyWaits) (h : (s.chip.cluster cl).reqs = [r]) (hr : r.plain)
    (hb : (s.chip.cluster cl).used + r.need ≤ (s.chip.cluster cl).budget)
    (hs : r.siding = true → (s.chip.cluster cl).sideUsed + r.need ≤ (s.chip.cluster cl).share) :
    exec (.cqGrant cl) s = .next { s with chip := s.chip.modCluster cl fun k => k.granting [r] } :=
  event_next rfl ((bind_next (arbitrate_fits (t := s.tx) h hr hb hs)).trans
    (settle_none (t := { s.tx with chip := s.chip.modCluster cl fun k => k.granting [r] }) hn))

/-- CQ_REQUEST_AGED on a request that has waited 65536 clk. -/
theorem exec_cqRequestAged {req : Nat} {r : Cq} (h : (s.chip.cluster cl).reqs[req]? = some r) (hage : r.since + 65536 ≤ s.clk) :
    exec (.cqRequestAged cl req) s =
      .next { s with chip := s.chip.modCluster cl fun k => { k with reqs := k.reqs.set req { r with aged := true } } } := by
  refine event_next rfl ?_
  rw [bind_next (getChip_run _), State.tx_chip, h, someOr_some, bind_next (pure_run _ _), bind_next (clock_run _), State.tx_clk,
    decide_eq_true hage, enabled_true, bind_next (pure_run _ _)]
  rfl

/-- CQ_OVER_BUDGET where one lease of the cluster is held. -/
theorem exec_cqOverBudget {since uid : Nat} {l : Lease} (hs : (s.chip.cluster cl).overSince = some since)
    (ho : (s.chip.cluster cl).over = true) (hage : since + 4096 ≤ s.clk)
    (hheld : (s.chip.leases.filter fun l => l.2.cluster = cl && l.2.state = .held) = [(uid, l)]) (hg : s.chip.leaseGroup uid = [uid]) :
    exec (.cqOverBudget cl) s =
      .next { s with chip := { s.chip with leases := mmod s.chip.leases uid fun x => x.noticed s.clk } } := by
  refine event_next rfl ?_
  rw [bind_next (getChip_run _), State.tx_chip, hs, someOr_some, bind_next (pure_run _ _), bind_next (clock_run _), State.tx_clk, ho,
    decide_eq_true hage, Bool.and_self, enabled_true, bind_next (pure_run _ _), hheld]
  exact giveNotice_run (t := s.tx) hg

/-- A cluster whose budget and share have been set at a clk. -/
def Cluster.budgeted (k : Cluster) (budget share now : Nat) : Cluster :=
  { k with budget := budget, share := share
           overSince := if k.used > budget || k.sideUsed > share then some (k.overSince.getD now) else none }

/-- CQ_BUDGET_CHANGE where nothing is asked for. -/
theorem exec_cqBudgetChange (budget share : Nat) (h : (s.chip.cluster cl).reqs = []) :
    exec (.cqBudgetChange cl budget share) s = .next { s with
      chip := (s.chip.modCluster cl fun k => k.budgeted budget share s.clk).modCluster cl fun k => k.granting [] } := by
  refine event_next rfl ?_
  rw [bind_next (clock_run _), bind_next (modCluster_run _ _ _)]
  refine arbitrate_idle (t := { s.tx with chip := s.chip.modCluster cl fun k => k.budgeted budget share s.clk }) ?_
  rw [Chip.cluster_modCluster, if_pos rfl]
  exact h

/-! ## Islands (R187) -/

variable {core : Nat}

/-- Both cores of a pair on an island, or off it. -/
def Chip.islands (c : Chip) (core : Nat) (v : Bool) : Chip :=
  (c.modCore core fun k => { k with island := v }).modCore (neighbour core) fun k => { k with island := v }

theorem exec_islandEnter (hi : (s.chip.core core).island = false)
    (hmv : (s.chip.core core).runsMv = true ∨ (s.chip.core (neighbour core)).runsMv = true) :
    exec (.islandEnter core) s = .next { s with chip := s.chip.islands core true } := by
  have hon : (!(s.chip.core core).island && ((s.chip.core core).runsMv || (s.chip.core (neighbour core)).runsMv)) = true := by
    simpa [hi] using hmv
  refine event_next rfl ?_
  rw [bind_next (getChip_run _), State.tx_chip, hon, enabled_true, bind_next (pure_run _ _)]
  rfl

/-- No MV runs on a core, and its last one ended 256 clk ago. -/
def Core.mvOver (k : Core) (now : Nat) : Prop := k.runsMv = false ∧ ∀ t, k.mvEnd = some t → t + 256 ≤ now

theorem Core.mvOver_test {k : Core} {now : Nat} (h : k.mvOver now) : (!k.runsMv && (match k.mvEnd with
    | some t => decide (t + 256 ≤ now)
    | none => true)) = true := by
  obtain ⟨hrun, hend⟩ := h
  rw [hrun]
  cases hmv : k.mvEnd with
  | none => rfl
  | some t => exact decide_eq_true (hend t hmv)

theorem exec_islandExit (hi : (s.chip.core core).island = true) (hc : (s.chip.core core).mvOver s.clk)
    (hn : (s.chip.core (neighbour core)).mvOver s.clk) :
    exec (.islandExit core) s = .next { s with chip := s.chip.islands core false } := by
  refine event_next rfl ((bind_next (getChip_run _)).trans ((bind_next (clock_run _)).trans ?_))
  refine (bind_next (t := s.tx) (u := s.tx) (x := ()) (congrFun (congrArg enabled (a₂ := true) ?_) _)).trans rfl
  rw [Bool.and_eq_true, Bool.and_eq_true]
  exact ⟨⟨hi, Core.mvOver_test hc⟩, Core.mvOver_test hn⟩

end

/-- Settles O33: each event by its own law. -/
theorem current : Obligations.Current := by
  intro s
  refine ⟨?_, fun cl req r => exec_cqRequestAged, ?_, ?_, ?_⟩
  · intro cl r id k hn hreq howner hb hs
    refine ⟨_, exec_cqGrant hn hreq (howner.imp (⟨id, ·⟩) (⟨id, ·⟩)) hb hs, rfl, rfl, ?_⟩
    exact (Chip.cluster_modCluster ..).trans ((if_pos rfl).trans (Cluster.granting_one hreq))
  · intro cl since uid l hs ho hage hheld hg hl
    have hmem : (uid, l) ∈ s.chip.leases.filter fun l => l.2.cluster = cl && l.2.state = .held := by simp [hheld]
    have hstate : l.state = .held := by
      obtain ⟨-, hfound⟩ := List.mem_filter.mp hmem
      simp_all
    refine ⟨_, exec_cqOverBudget hs ho hage hheld hg, rfl, rfl, ?_⟩
    exact (mget_mmod_same s.chip.leases uid fun x => x.noticed s.clk).trans
      ((congrArg (Option.map _) hl).trans (congrArg some (Lease.noticed_held hstate s.clk)))
  · intro cl budget share hreq
    have hset := Cluster.granting_none (k := (s.chip.cluster cl).budgeted budget share s.clk) hreq
    have hat : ((s.chip.modCluster cl fun k => k.budgeted budget share s.clk).modCluster cl fun k => k.granting []).cluster cl =
        (s.chip.cluster cl).budgeted budget share s.clk := by
      rw [Chip.cluster_modCluster, if_pos rfl, Chip.cluster_modCluster, if_pos rfl, hset]
    exact ⟨_, exec_cqBudgetChange budget share hreq, rfl, rfl, congrArg Cluster.budget hat, congrArg Cluster.share hat,
      (congrArg Cluster.grants hat :)⟩
  · intro core pair over'
    exact ⟨exec_islandEnter, exec_islandExit⟩

end Sys2Proof.Machine
end

section
/-! LEASE, LREL and LSTAT (R171 to R175, R179): a lease enters its queue and ends, and what its group and its unit keep of it. -/

namespace Sys2Proof.Machine

/-! ## Answers of the whole group -/

/-- An instruction whose body is one interlocked write of a scalar register. -/
theorem setS_gets {s : State} {h : Here} {u : Uses} {i : Instr} {n d : Nat} {F : Form} {v : Word} {body : Here → Act Unit}
    (hx : exec i s = runZha n (issue F.len F.stall u body) s) (hi : s.mayIssue h u)
    (hb : body h (s.txPast h F.len F.stall) = setS h d v (s.txPast h F.len F.stall)) : s.scalarGets h i F d v := by
  obtain ⟨ha, -, -, -, hz⟩ := id hi
  have hland := Group.landS_changes s.clk d h.mask v
  refine State.ended_scalar ha hz (retire_next hx hi (hb.trans (setS_run _ _ _ _))) hland.v (fun x hx => ?_) hland.other hland.p
    hland.paths
  rw [Group.landS_quiet hx, Group.sreg_setS, if_pos rfl]

/-! ## Parking -/

/-- A path that parks changes slots and signal boxes alone. -/
theorem parkOn_rest {h : Here} {w : Wait} {t u : Tx} (hu : parkOn h w t = .ok ((), u)) :
    { u.chip with slots := t.chip.slots, clusters := t.chip.clusters } = t.chip := by
  have hmod (d : Chip) (hd : { d with slots := t.chip.slots, clusters := t.chip.clusters } = t.chip) (v : Tx)
      (hv : noteParked h.tid { t with chip := d } = .ok ((), v)) :
      { v.chip with slots := t.chip.slots, clusters := t.chip.clusters } = t.chip := by
    unfold noteParked at hv
    rw [bind_next (getChip_run _)] at hv
    cases hx : mget? d.teams h.tid with
    | none =>
      rw [hx] at hv
      cases hv
      exact hd
    | some x =>
      rw [hx] at hv
      cases hp : d.teamParked h.tid <;> simp only [hp, Bool.false_eq_true, if_true, if_false] at hv <;> cases hv <;> exact hd
  refine hmod (t.chip.modPath h.g h.p fun x => ({ x with wait := some w, pc := h.path.pc } : Path).releaseSwap t.clk) ?_ u hu
  rw [Chip.modPath, Chip.modGroup_slots]

section
variable {s : State} {h : Here} {F : Form} {u : Tx} {k : Group → Group} {n : BitVec 16}

/-- The acting path, without a stacked side, has parked. -/
theorem State.path_of_park {w : Wait} (ha : s.acts h) (hside : h.path.sides = [])
    (hu : (s.txPast h F.len F.stall).turnsSlot u h.g (fun x => h.parkedGroup w s.clk (k x)) n) (hk : ∀ x, (k x).paths = x.paths) :
    u.chip.path? h.g h.p = some { h.path with wait := some w, readyAt := s.clk + 1 + F.stall } := by
  obtain ⟨-, hpath, -⟩ := State.acts_eq ha
  rw [Chip.path?, State.txPast_group ha hu, Option.bind_some, Here.parkedGroup, hk, Here.groupPast, mget_mmod_same, mget_mmod_same, hpath]
  exact congrArg some (Path.releaseSwap_lone (y := { h.path with wait := some w, readyAt := s.clk + 1 + F.stall }) hside s.clk)

end

/-! ## LEASE (R171, R172, R175) -/

/-- The lease that a group asks of a class queue at an entry. -/
def Chip.asked (c : Chip) (h : Here) (cls want slot q now : Nat) : Lease :=
  { cls := cls, place := queuePlace cls h.core, qidx := q, serial := mgetD c.leaseSerial 0 (queueKey cls (queuePlace cls h.core)) + 1
    tid := h.tid, slot := h.g, index := h.grp.index, lslot := slot, ctx := h.ctx, want := want, since := now, aged := false
    state := .queued, unit := 0, grantAt := 0, heldAt := 0, wakeAt := 0, revokeAt := 0, opser := 0 }

/-- The chip with a lease in its queue and in its group's slot. -/
def Chip.entering (c : Chip) (l : Lease) : Chip :=
  { c with leases := mset c.leases c.leaseNext l, leaseNext := c.leaseNext + 1
           leaseSerial := mset c.leaseSerial (queueKey l.cls l.place) l.serial }

/-- A group with a lease in one of its slots. -/
def Group.takesLease (slot uid : Nat) (x : Group) : Group := { x with leases := mset x.leases slot uid }

section
variable {s : State} {h : Here} {f : LeaseF} {slot q : Nat}

/-- The lease of a LEASE, at an entry of its queue. -/
abbrev State.asked (s : State) (h : Here) (f : LeaseF) (slot q : Nat) : Lease := s.chip.asked h f.cls.toNat f.unit.toNat slot q s.clk

/-- A LEASE that issues, finds a free slot of its group, and is no second one for MX. -/
structure State.mayLease (s : State) (h : Here) (f : LeaseF) (slot : Nat) : Prop where
  issues : s.mayIssue h { Uses.none with sd := [f.sd.toNat], ps := guardPs f.g }
  lanes : h.lanes f.g ≠ 0
  one : f.cls.toNat = 0 → s.chip.mxLease h.tid = none
  slot : h.grp.freeLease = some slot

/-- The transaction of a LEASE that has entered its queue, with its handle as its answer. -/
def State.txLeased (s : State) (h : Here) (f : LeaseF) (slot q : Nat) : Tx :=
  let l := s.asked h f slot q
  let c := ((s.chip.retire h 8 f.stall.toNat s.clk).entering l).modGroup h.g (Group.takesLease slot s.chip.leaseNext)
  { s.tx with chip := c.modGroup h.g fun x => x.landS s.clk f.sd.toNat h.mask l.handle }

theorem Chip.retire_leases (c : Chip) (h : Here) (len stall now : Nat) : (c.retire h len stall now).leases = c.leases :=
  Chip.retire_keeps Chip.leases (fun _ _ _ => rfl) c h len stall now

theorem Chip.retire_mxLease (c : Chip) (h : Here) (len stall now tid : Nat) :
    (c.retire h len stall now).mxLease tid = c.mxLease tid :=
  Chip.retire_keeps (·.mxLease tid) (fun _ _ _ => rfl) c h len stall now

theorem Chip.retire_freeEntry (c : Chip) (h : Here) (len stall now cls place : Nat) :
    (c.retire h len stall now).freeEntry cls place = c.freeEntry cls place :=
  Chip.retire_keeps (·.freeEntry cls place) (fun _ _ _ => rfl) c h len stall now

/-- It is no second lease for MX. -/
theorem lease_fresh (hm : s.mayLease h f slot) :
    (if f.cls.toNat = 0 then (s.chip.retire h 8 f.stall.toNat s.clk).mxLease h.tid else none) = none := by
  split
  · next h0 => exact (Chip.retire_mxLease ..).trans (hm.one h0)
  · rfl

/-- A LEASE enters the lowest free entry of its queue; what is left to run is to park, unless it has .nb. -/
theorem lease_enters (hm : s.mayLease h f slot) (hq : s.chip.freeEntry f.cls.toNat (queuePlace f.cls.toNat h.core) = some q) :
    exec (.lease f) s = runZha 8 (fun _ =>
      (if f.nb = 1 then pure () else parkOn h (.lease s.chip.leaseNext f.sd.toNat) : Act Unit) (s.txLeased h f slot q)) s := by
  refine runZha_congr ?_
  have hserial : (s.chip.retire h 8 f.stall.toNat s.clk).asked h f.cls.toNat f.unit.toNat slot q s.clk = s.asked h f slot q :=
    Chip.retire_keeps (·.asked h f.cls.toNat f.unit.toNat slot q s.clk) (fun _ _ _ => rfl) ..
  have hnext : (s.chip.retire h 8 f.stall.toNat s.clk).leaseNext = s.chip.leaseNext :=
    Chip.retire_keeps Chip.leaseNext (fun _ _ _ => rfl) ..
  rw [issue_next hm.issues, onceIf_run hm.lanes, bind_next (getChip_run _)]
  dsimp only
  rw [lease_fresh hm, hm.slot, Chip.retire_freeEntry, hq]
  unfold State.txLeased
  rw [← hserial, ← hnext]
  rfl

/-- What it leaves of its group. -/
theorem State.txLeased_turns (s : State) (h : Here) (f : LeaseF) (slot q : Nat) :
    (s.txPast h 8 f.stall.toNat).turnsSlot (s.txLeased h f slot q) h.g
      (fun x => (x.takesLease slot s.chip.leaseNext).landS s.clk f.sd.toNat h.mask (s.asked h f slot q).handle) 0 := by
  refine Tx.turnsSlot_as (Tx.turnsSlot_trans (Tx.turnsSlot_trans
    (Tx.turnsSlot_of_slots (d := (s.chip.retire h 8 f.stall.toNat s.clk).entering (s.asked h f slot q)) rfl rfl h.g)
    (Tx.turnsSlot_modGroup _ h.g (Group.takesLease slot s.chip.leaseNext)))
    (Tx.turnsSlot_modGroup _ h.g fun x => x.landS s.clk f.sd.toNat h.mask (s.asked h f slot q).handle)) (fun _ => rfl) rfl

/-- A lease stands in its queue and in its group's slot, and register `d` holds its handle. -/
structure State.leased (s t : State) (h : Here) (d slot : Nat) (l : Lease) : Prop where
  answer : t.sreg h.g d = l.handle
  leases : t.chip.leases = mset s.chip.leases s.chip.leaseNext l
  next : t.chip.leaseNext = s.chip.leaseNext + 1
  serial : t.chip.leaseSerial = mset s.chip.leaseSerial (queueKey l.cls l.place) l.serial
  held : (t.chip.group? h.g).map Group.leases = some (mset h.grp.leases slot s.chip.leaseNext)

/-- What a LEASE leaves, whatever becomes of its path. -/
theorem State.leased_of_turn {u : Tx} {k : Group → Group} {n : BitVec 16} (hm : s.mayLease h f slot)
    (hu : (s.txPast h 8 f.stall.toNat).turnsSlot u h.g
      (fun x => k ((x.takesLease slot s.chip.leaseNext).landS s.clk f.sd.toNat h.mask (s.asked h f slot q).handle)) n)
    (hrest : { u.chip with slots := (s.txLeased h f slot q).chip.slots, clusters := (s.txLeased h f slot q).chip.clusters } =
      (s.txLeased h f slot q).chip)
    (hk : ∀ x, (k x).s = x.s ∧ (k x).leases = x.leases) :
    s.leased (s.commit u) h f.sd.toNat slot (s.asked h f slot q) := by
  obtain ⟨ha, -, -, -, hz⟩ := hm.issues
  have hquiet : (Group.takesLease slot s.chip.leaseNext (h.groupPast 8 f.stall.toNat s.clk)).hazards = [] :=
    Here.groupPast_hazards hz 8 f.stall.toNat s.clk
  have hgroup := (State.txPast_group (F := xForm f.stall f.g) ha hu).trans (congrArg (fun x => some (k x))
    (Group.landS_quiet hquiet s.clk f.sd.toNat h.mask (s.asked h f slot q).handle))
  obtain ⟨hs, hl⟩ := hk ((Group.takesLease slot s.chip.leaseNext (h.groupPast 8 f.stall.toNat s.clk)).setS f.sd.toNat
    (s.asked h f slot q).handle)
  have hkeeps {α : Type} (g : Chip → α) (hg : ∀ c S K, g { c with slots := S, clusters := K } = g c) :
      g u.chip = g ((s.chip.retire h 8 f.stall.toNat s.clk).entering (s.asked h f slot q)) := by
    rw [← hg u.chip, hrest]
    unfold State.txLeased
    dsimp only
    rw [Chip.modGroup_modGroup, Chip.modGroup_slots]
    exact hg _ _ ((s.chip.retire h 8 f.stall.toNat s.clk).entering (s.asked h f slot q)).clusters
  refine ⟨?_, ?_, ?_, ?_, ?_⟩
  · rw [State.sreg, State.commit_chip, hgroup]
    simp only [Option.map_some, Option.getD_some, Group.sreg, hs]
    exact (Group.sreg_setS ..).trans (if_pos rfl)
  · exact (hkeeps Chip.leases fun _ _ _ => rfl).trans
      (Chip.retire_keeps (fun c => mset c.leases c.leaseNext _) (fun _ _ _ => rfl) ..)
  · exact (hkeeps Chip.leaseNext fun _ _ _ => rfl).trans (Chip.retire_keeps (fun c => c.leaseNext + 1) (fun _ _ _ => rfl) ..)
  · exact (hkeeps Chip.leaseSerial fun _ _ _ => rfl).trans
      (Chip.retire_keeps (fun c => mset c.leaseSerial _ _) (fun _ _ _ => rfl) ..)
  · rw [State.commit_chip, hgroup, Option.map_some, hl]
    rfl

theorem lease_passes (hm : s.mayLease h f slot) (hq : s.chip.freeEntry f.cls.toNat (queuePlace f.cls.toNat h.core) = some q)
    (hnb : f.nb = 1) : ∃ t, exec (.lease f) s = .next t ∧ s.passes t h (xForm f.stall f.g) [] [f.sd.toNat] ∧
      s.leased t h f.sd.toNat slot (s.asked h f slot q) := by
  have hturn := State.txLeased_turns s h f slot q
  have hland := Group.landS_changes s.clk f.sd.toNat h.mask (s.asked h f slot q).handle
  refine ⟨_, (lease_enters hm hq).trans (runZha_next ?_),
    State.passes_of_turn (F := xForm f.stall f.g) hm.issues.1 hturn (fun x => hland.paths _) (fun x => hland.v _) (fun x => hland.p _)
      fun x r hr => hland.other _ r (by simpa using hr),
    State.leased_of_turn (k := id) hm hturn rfl fun _ => ⟨rfl, rfl⟩⟩
  rw [if_pos hnb]
  rfl

theorem lease_parks (hm : s.mayLease h f slot) (hq : s.chip.freeEntry f.cls.toNat (queuePlace f.cls.toNat h.core) = some q)
    (hnb : f.nb = 0) (hside : h.path.sides = []) : ∃ t, exec (.lease f) s = .next t ∧ t.mem = s.mem ∧
      s.leased t h f.sd.toNat slot (s.asked h f slot q) ∧ t.chip.path? h.g h.p =
        some { h.path with wait := some (.lease s.chip.leaseNext f.sd.toNat), readyAt := s.clk + 1 + f.stall.toNat } := by
  obtain ⟨u, hu, hpark⟩ := parkOn_turns h (.lease s.chip.leaseNext f.sd.toNat) (s.txLeased h f slot q)
  have hall := Tx.turnsSlot_trans (State.txLeased_turns s h f slot q) hpark
  have hland := Group.landS_changes s.clk f.sd.toNat h.mask (s.asked h f slot q).handle
  refine ⟨s.commit u, (lease_enters hm hq).trans (runZha_next ?_), ?_,
    State.leased_of_turn hm hall (parkOn_rest hu) fun _ => ⟨rfl, rfl⟩,
    State.path_of_park (F := xForm f.stall f.g) hm.issues.1 hside hall fun x => hland.paths _⟩
  · rw [if_neg (by rw [hnb]; decide)]
    exact hu
  · rw [State.txPast_commit (F := xForm f.stall f.g) hall]

theorem lease_full (hm : s.mayLease h f slot) (hq : s.chip.freeEntry f.cls.toNat (queuePlace f.cls.toNat h.core) = none)
    (hnb : f.nb = 1) : s.scalarGets h (.lease f) (xForm f.stall f.g) f.sd.toNat 0xFFFFFFFF := by
  refine setS_gets rfl hm.issues ?_
  refine (onceIf_run hm.lanes _ _).trans ((bind_next (getChip_run _)).trans ?_)
  show (match (if f.cls.toNat = 0 then (s.chip.retire h 8 f.stall.toNat s.clk).mxLease h.tid else none) with
    | some (uid, l) => _
    | none => _ : Act Unit) _ = _
  rw [lease_fresh hm, hm.slot, Chip.retire_freeEntry, hq, if_pos hnb]

end

/-! ## The end of a lease (R171, R175) -/

/-- A group that holds a lease without it. -/
def Lease.leaves (l : Lease) (uid : Nat) (x : Group) : Group :=
  if x.tid = l.tid then { x with leases := x.leases.filter fun e => e.2 ≠ uid } else x

theorem Lease.leaves_scene (l : Lease) (uid : Nat) (x : Group) : (l.leaves uid x).scene = x.scene := by
  unfold Lease.leaves
  split <;> rfl

/-- Chips that differ in arbiters, leases and units alone. -/
theorem Chip.staysAt_units (c : Chip) (k : Map Cluster) (l : Map Lease) (u : Map UnitState) (g core : Nat) :
    c.staysAt { c with clusters := k, leases := l, units := u } g core :=
  ⟨⟨rfl, rfl, fun _ _ => rfl, fun _ _ => rfl, id⟩, rfl, rfl, rfl, rfl⟩

/-- A chip whose registers, paths and parked sides stay leaves every group its registers and paths. -/
theorem Chip.staysAt_scene {c d : Chip} {g core : Nat} (h : c.staysAt d g core) (i : Nat) :
    (d.group? i).map Group.scene = (c.group? i).map Group.scene := by
  by_cases hi : i = g
  · rw [hi]
    exact h.scene
  · simp only [Chip.group?, h.within.slots i hi]

/-- What the end of a lease leaves: its registers, paths and parked sides, no record of it, and a unit that it held free. -/
structure Chip.endsLease (c d : Chip) (uid : Nat) (l : Lease) (ret : Bool) : Prop where
  stays : c.staysAt d l.slot l.place
  gone : mget? d.leases uid = none
  unit : l.state = .held → d.unit l.cls l.place l.unit = ⟨none, if ret && l.cls = 0 then some l.tid else none, false⟩

/-- A unit that returns to its queue. -/
theorem freeUnit_run (cls place unit g : Nat) (ret : Option Nat) (warm : Bool) (t : Tx) : ∃ c,
    freeUnit cls place unit ret warm t = .ok ((), { t with chip := c }) ∧ t.chip.staysAt c g place ∧
      c.leases = t.chip.leases ∧ c.unit cls place unit = ⟨none, ret, warm⟩ := by
  have hunit : (t.chip.setUnit cls place unit ⟨none, ret, warm⟩).unit cls place unit = ⟨none, ret, warm⟩ :=
    (mgetD_mput ..).trans (if_pos rfl)
  have hstay := Chip.staysAt_units t.chip t.chip.clusters t.chip.leases
    (mput UnitState.init t.chip.units (unitKey cls place unit) ⟨none, ret, warm⟩) g place
  unfold freeUnit
  rw [bind_next (modChip_run _ _), ite_run]
  split
  · exact ⟨_, rfl, Chip.staysAt_trans hstay (Chip.staysAt_modCore _ _ _ (fun _ => rfl) fun _ => rfl), rfl, hunit⟩
  · exact ⟨_, rfl, hstay, rfl, hunit⟩

/-- The chip without the record of a lease. -/
def Chip.lostLease (c : Chip) (uid : Nat) (l : Lease) : Chip :=
  let d := (c.modCluster l.cluster fun k =>
    let k := { k with reqs := k.reqs.filter fun x => x.owner ≠ CqOwner.lease uid
                      grants := k.grants.filter fun x => x.owner ≠ CqOwner.lease uid }
    { k with overSince := if k.over then k.overSince else none }).modGroup l.slot (l.leaves uid)
  { d with leases := merase d.leases uid }

theorem Chip.lostLease_stays (c : Chip) (uid : Nat) (l : Lease) : c.staysAt (c.lostLease uid l) l.slot l.place :=
  Chip.staysAt_trans (Chip.staysAt_trans (Chip.staysAt_units c _ c.leases c.units _ _)
    (Chip.staysAt_modGroup _ l.slot l.place (l.leaves_scene uid))) (Chip.staysAt_units _ _ _ _ _ _)

theorem Chip.lostLease_gone (c : Chip) (uid : Nat) (l : Lease) : mget? (c.lostLease uid l).leases uid = none :=
  mget_merase_same ..

theorem endLease_ends {t : Tx} {uid : Nat} {l : Lease} (hl : mget? t.chip.leases uid = some l)
    (hs : l.state = .queued ∨ l.state = .held) (ret : Bool) :
    ∃ c, endLease uid ret t = .ok ((), { t with chip := c }) ∧ t.chip.endsLease c uid l ret := by
  have hstays := Chip.lostLease_stays t.chip uid l
  have hgone := Chip.lostLease_gone t.chip uid l
  have hlive : ¬ l.state = .revoked := by
    rcases hs with h | h <;> rw [h] <;> decide
  unfold endLease
  rw [bind_next (getChip_run _), hl, whenSome_some, if_neg hlive]
  rcases hs with h | h <;> rw [h]
  · exact ⟨t.chip.lostLease uid l, rfl, hstays, hgone, fun h' => by rw [h] at h'; cases h'⟩
  · obtain ⟨c, hfree, hstay, hleases, hunit⟩ := freeUnit_run l.cls l.place l.unit l.slot
      (if ret && l.cls = 0 then some l.tid else none) false { t with chip := t.chip.lostLease uid l }
    exact ⟨c, hfree, Chip.staysAt_trans hstays hstay, (congrArg (mget? · uid) hleases).trans hgone, fun _ => hunit⟩

/-! ## LREL and LSTAT (R174, R175) -/

section
variable {s : State} {h : Here}

theorem Chip.retire_leaseBy (c : Chip) (h : Here) (len stall now tid : Nat) (w : Word) :
    (c.retire h len stall now).leaseBy tid w = c.leaseBy tid w :=
  Chip.retire_keeps (·.leaseBy tid w) (fun _ _ _ => rfl) ..

theorem lrel_stale {f : LrelF} (hi : s.mayIssue h { Uses.none with ss := [f.sa.toNat], ps := guardPs f.g }) (hl : h.lanes f.g ≠ 0)
    (hb : s.chip.leaseBy h.tid (h.s f.sa.toNat) = none) : exec (.lrel f) s = .next (s.onward h (xForm f.stall f.g) id) := by
  refine exec_issued (i := .lrel f) rfl hi ((onceIf_run hl _ _).trans ((bind_next (getChip_run _)).trans ?_))
  rw [Chip.retire_leaseBy, hb]
  rfl

/-- What a step behind the issue that keeps registers and paths leaves: the acting path stands behind its instruction, and
every register is as it was. -/
theorem Chip.staysAt_past {c : Chip} {g core len stall : Nat} (ha : s.acts h) (hc : (s.chip.retire h len stall s.clk).staysAt c g core) :
    c.path? h.g h.p = some (h.past len stall s.clk) ∧ ∀ i, s.sameRegs (s.commit { s.tx with chip := c }) i := by
  obtain ⟨hgroup, -, -⟩ := State.acts_eq ha
  refine ⟨?_, fun i => State.sameRegs_of_regs ?_⟩
  · have hscene := Chip.staysAt_scene hc h.g
    rw [Chip.retire_group hgroup, Option.map_some, Option.map_eq_some_iff] at hscene
    obtain ⟨x, hx, he⟩ := hscene
    simp only [Group.scene, Prod.mk.injEq] at he
    obtain ⟨-, -, -, hpaths, -⟩ := he
    rw [← Chip.retire_path ha len stall, Chip.path?, Chip.path?, hx, Chip.retire_group hgroup, Option.bind_some, Option.bind_some,
      hpaths]
  · have hregs := congrArg (Option.map fun r => (r.1, r.2.1, r.2.2.1)) (Chip.staysAt_scene hc i)
    rw [Option.map_map, Option.map_map] at hregs
    refine hregs.trans ?_
    by_cases hi : i = h.g
    · rw [hi, Chip.retire_group hgroup, hgroup]
      rfl
    · rw [Chip.group?, Chip.retire_slot_other _ _ _ _ _ hi]
      rfl

theorem lrel_ends {f : LrelF} {uid : Nat} {l : Lease} (hi : s.mayIssue h { Uses.none with ss := [f.sa.toNat], ps := guardPs f.g })
    (hl : h.lanes f.g ≠ 0) (hb : s.chip.leaseBy h.tid (h.s f.sa.toNat) = some (uid, l)) (hm : mget? s.chip.leases uid = some l)
    (hn : s.nobodyWaits) (hs : l.state = .queued ∨ l.state = .held ∧ s.chip.leaseDrained uid = true) :
    ∃ t, exec (.lrel f) s = .next t ∧ t.mem = s.mem ∧ t.chip.path? h.g h.p = some (h.past 8 f.stall.toNat s.clk) ∧
      (∀ g, s.sameRegs t g) ∧ s.retired t h 0 ∧ mget? t.chip.leases uid = none ∧
      (l.state = .held → t.chip.unit l.cls l.place l.unit =
        ⟨none, if f.ret = 1 ∧ l.cls = 0 then some l.tid else none, false⟩) := by
  have hm' : mget? (s.chip.retire h 8 f.stall.toNat s.clk).leases uid = some l := by
    rw [Chip.retire_leases]
    exact hm
  obtain ⟨c, hend, hc⟩ := endLease_ends (t := s.txPast h 8 f.stall.toNat) hm' (hs.imp_right And.left) (f.ret = 1)
  have hnobody : c.parkedSides = [] := hc.stays.within.nobody (Chip.retire_nobody hn ..)
  obtain ⟨hpath, hregs⟩ := Chip.staysAt_past hi.1 hc.stays
  have hdone : (l.state = .queued || l.state = .revoked || (s.chip.retire h 8 f.stall.toNat s.clk).leaseDrained uid) = true := by
    have hdrained : (s.chip.retire h 8 f.stall.toNat s.clk).leaseDrained uid = s.chip.leaseDrained uid :=
      Chip.retire_keeps (·.leaseDrained uid) (fun _ _ _ => rfl) ..
    rcases hs with h' | ⟨-, hd⟩
    · simp [h']
    · simp [hdrained, hd]
  refine ⟨s.commit { s.tx with chip := c }, (runZha_next ((issue_next hi 8 f.stall.toNat _).trans ?_)), rfl, hpath, hregs,
    State.retired_of_teams hc.stays.within.teams, hc.gone, fun h' => (hc.unit h').trans ?_⟩
  · refine (onceIf_run hl _ _).trans ((bind_next (getChip_run _)).trans ?_)
    rw [Chip.retire_leaseBy, hb, whenSome_some]
    dsimp only
    rw [if_pos hdone, bind_next hend]
    exact settle_none hnobody
  · by_cases hr : f.ret = 1 <;> simp [hr]

theorem lstat_answers {f : ScalarPairF} (hl : h.lanes f.g ≠ 0)
    (hi : s.mayIssue h { Uses.none with ss := [f.sa.toNat], sd := [f.sd.toNat], ps := guardPs f.g }) :
    s.scalarGets h (.lstat f) (xForm f.stall f.g) f.sd.toNat (match s.chip.leaseBy h.tid (h.s f.sa.toNat) with
      | some (_, l) => s.chip.leaseWord s.clk l
      | none => 0) := by
  refine setS_gets rfl hi ((onceIf_run hl _ _).trans ((bind_next (getChip_run _)).trans ?_))
  rw [bind_next (clock_run _)]
  dsimp only [State.txPast, xForm]
  rw [Chip.retire_leaseBy]
  cases s.chip.leaseBy h.tid (h.s f.sa.toNat) with
  | none => rfl
  | some e =>
    have hword : (s.chip.retire h 8 f.stall.toNat s.clk).leaseWord s.clk e.2 = s.chip.leaseWord s.clk e.2 :=
      Chip.retire_keeps (·.leaseWord s.clk e.2) (fun _ _ _ => rfl) ..
    dsimp only
    rw [← hword]
    rfl

end

/-- Settles O31: a lease enters its queue and its group's slot, ends with its unit free, and is read by its word. -/
theorem leases : Obligations.Leases := by
  unfold Obligations.Leases
  refine fun s h => ⟨fun f slot hl => ?_, fun f hl => ?_, fun f hl hi => lstat_answers hl hi⟩
  · intro F cls place sd key hi hone hslot
    have hm : s.mayLease h f slot := ⟨hi, hl, hone, hslot⟩
    refine ⟨fun q hq => ?_, lease_full hm⟩
    intro l queued
    refine ⟨fun hnb => ?_, fun hnb hside => ?_⟩
    · obtain ⟨t, hx, hp, ha, hleases, hnext, hserial, hheld⟩ := lease_passes hm hq hnb
      exact ⟨t, hx, hp, ha, hleases, hnext, hserial, hheld⟩
    · obtain ⟨t, hx, hmem, ⟨ha, hleases, hnext, hserial, hheld⟩, hpath⟩ := lease_parks hm hq hnb hside
      exact ⟨t, hx, hmem, ⟨ha, hleases, hnext, hserial, hheld⟩, hpath⟩
  · intro F hi
    exact ⟨lrel_stale hi hl, fun uid l hb hm hn hs => lrel_ends hi hl hb hm hn hs⟩

end Sys2Proof.Machine
end

section
/-! ENG, EWAIT and the operations of DIGEST engines (R179 to R183, O34). -/

namespace Sys2Proof.Machine

/-! ## ENG (R179, R180, R186) -/

theorem peekRead_run (who : Actor) (va n : Nat) (t : Tx) : ∃ o, peekRead who va n t = .ok (o, t) := by
  unfold peekRead
  split
  · exact ⟨_, rfl⟩
  · split
    · exact ⟨_, rfl⟩
    · exact ⟨_, rfl⟩

section
variable {s : State} {h : Here}

/-- Without a frame window no range of an engine meets it. -/
theorem offWindow_past (hw : s.noWindow h) (len stall : Nat) (rs : List (Nat × Nat)) :
    offWindow h rs (s.txPast h len stall) = .ok ((), s.txPast h len stall) := by
  have hwin : frameWindow h.ctx (s.txPast h len stall) = .ok (0, s.txPast h len stall) :=
    frameWindow_none hw (Chip.retire_keeps Chip.ctxs (fun _ _ _ => rfl) ..) (Chip.retire_keeps Chip.cores (fun _ _ _ => rfl) ..)
      (Chip.retire_keeps Chip.link (fun _ _ _ => rfl) ..) rfl rfl
  have hnone : (rs.find? fun r => meetsWindow 0 r.1 r.2) = none := List.find?_eq_none.mpr fun r _ => by simp [meetsWindow_zero]
  unfold offWindow
  rw [bind_next hwin, hnone]
  rfl

/-- A lease in HELD or NOTICE is not gone, and not still to come. -/
theorem LeaseState.usable {x : LeaseState} (h : x = .held ∨ x = .notice) :
    ¬ x = .revoked ∧ ¬ (x = .queued || x = .waking) = true := by
  rcases h with h | h <;> simp [h]

theorem checkHandle_held {uid : Nat} {l : Lease} {w : Word} {len stall : Nat} (hb : s.chip.leaseBy h.tid w = some (uid, l))
    (hl : l.state = .held ∨ l.state = .notice) :
    checkHandle h w (s.txPast h len stall) = .ok ((uid, l), s.txPast h len stall) := by
  have hb' : (s.txPast h len stall).chip.leaseBy h.tid w = some (uid, l) :=
    (Chip.retire_keeps (·.leaseBy h.tid w) (fun _ _ _ => rfl) ..).trans hb
  obtain ⟨hlive, hawake⟩ := LeaseState.usable hl
  unfold checkHandle
  rw [bind_next (getChip_run _), hb']
  dsimp only
  rw [if_neg hlive, if_neg hawake]
  rfl

/-- An ENG that issues with a lease that is its group's, of an engine's class, and with room for one more operation. -/
structure State.mayEng (s : State) (h : Here) (f : EngF) (uid : Nat) (l : Lease) : Prop where
  lanes : h.lanes f.g ≠ 0
  issues : s.mayIssue h
    { Uses.none with ss := [f.sa.toNat, f.sb.toNat, f.sb.toNat + 1], sd := [f.sd.toNat], ps := guardPs f.g }
  lease : s.chip.leaseBy h.tid (h.s f.sa.toNat) = some (uid, l)
  ready : l.state = .held ∨ l.state = .notice
  engine : l.cls ≠ 0
  room : (s.chip.leaseOps uid).length < 8
  window : s.noWindow h

/-- The operation that an ENG queues. -/
def Chip.engQueued (c : Chip) (h : Here) (f : EngF) (uid : Nat) (l : Lease) : EngOp :=
  { lease := uid, cls := l.cls, token := l.token l.opser, after := c.seq, desc := h.pair f.sb.toNat, who := h.actor, started := false
    startAt := 0, parked := none, status := none, out := [], outStatus := 0, feed := false }

/-- The chip with that operation queued under its lease's next token. -/
def Chip.withEng (c : Chip) (h : Here) (f : EngF) (uid : Nat) (l : Lease) : Chip :=
  { c with engops := mset c.engops c.engNext (c.engQueued h f uid l)
           engNext := c.engNext + 1
           leases := mmod c.leases uid fun x => { x with opser := x.opser + 1 } }

theorem eng_queues {f : EngF} {uid : Nat} {l : Lease} (hm : s.mayEng h f uid l) :
    exec (.eng f) s = .next (s.onward h (xForm f.stall f.g) fun c =>
      (c.withEng h f uid l).modGroup h.g fun x => x.setS f.sd.toNat (l.token l.opser)) := by
  obtain ⟨hgroup, -, -⟩ := State.acts_eq hm.issues.1
  have hroom : ¬ ((s.chip.retire h 8 f.stall.toNat s.clk).leaseOps uid).length ≥ 8 := by
    rw [Chip.retire_keeps (·.leaseOps uid) fun _ _ _ => rfl]
    exact Nat.not_le.mpr hm.room
  have hpast := Chip.retire_group hgroup 8 f.stall.toNat s.clk
  have hquiet := Here.groupPast_hazards hm.issues.2.2.2.2 8 f.stall.toNat s.clk
  obtain ⟨o, ho⟩ := peekRead_run h.actor (h.pair f.sb.toNat).toNat 64 (s.txPast h 8 f.stall.toNat)
  have hwindow (o : Option (List Byte)) :
      (whenSome o fun b => if (EngDesc.of b).fits l.cls then offWindow h ((EngDesc.of b).ranges l.cls) else pure ())
        (s.txPast h 8 f.stall.toNat) = .ok ((), s.txPast h 8 f.stall.toNat) := by
    cases o with
    | none => rfl
    | some b =>
      rw [whenSome_some, ite_run]
      split
      · exact offWindow_past hm.window ..
      · rfl
  refine exec_issued (i := .eng f) rfl hm.issues ((onceIf_run hm.lanes _ _).trans ?_)
  rw [bind_next (checkHandle_held hm.lease hm.ready)]
  dsimp only
  rw [bind_next (offWindow_past hm.window ..), bind_next ho, bind_next (hwindow o), bind_next (getChip_run _)]
  dsimp only
  rw [if_neg hroom, if_neg hm.engine]
  exact congrArg (fun c => Except.ok ((), { s.tx with chip := c })) (Chip.land_setS
    (c := (s.chip.retire h 8 f.stall.toNat s.clk).withEng h f uid l) (g := h.g) (now := s.clk) (r := f.sd.toNat)
    (x := h.groupPast 8 f.stall.toNat s.clk) (m := h.mask) (v := l.token l.opser) hpast hquiet)

end

/-! ## EWAIT (R180, R138) -/

/-- A group with another state of its checker. -/
def Group.checks (k : Checker → Checker) (x : Group) : Group := { x with chk := k x.chk }

theorem modChecker_run (g : Nat) (k : Checker → Checker) (t : Tx) :
    modChecker g k t = .ok ((), { t with chip := t.chip.modGroup g (Group.checks k) }) := rfl

/-- What a group learns of another agent stands in its checker alone. -/
theorem learnEng_run (g tid : Nat) (tok : Word) (st : Nat) (t : Tx) :
    ∃ (u : Tx) (k : Checker → Checker), learnEng g tid tok st t = .ok ((), u) ∧ t.turnsSlot u g (Group.checks k) 0 := by
  have hstay : t.turnsSlot t g (Group.checks id) 0 := Tx.turnsSlot_of_slots rfl rfl g
  unfold learnEng
  rw [ite_run]
  split
  · rw [bind_next (getChip_run _)]
    cases t.chip.tokenOp tid tok with
    | none => exact ⟨t, id, rfl, hstay⟩
    | some o =>
      rw [whenSome_some]
      unfold learnActor
      rw [bind_next (getChip_run _)]
      cases (t.chip.group? g).bind fun x => x.paths.head?.bind fun e => t.chip.actorOf g e.1 with
      | none => exact ⟨t, id, rfl, hstay⟩
      | some who =>
        rw [whenSome_some, modChecker_run]
        exact ⟨_, _, rfl, Tx.turnsSlot_modGroup t g _⟩
  · exact ⟨t, id, rfl, hstay⟩

section
variable {s : State} {h : Here} {f : ScalarPairF}

theorem Chip.retire_ewaitStatus (c : Chip) (h : Here) (len stall now tid : Nat) (tok : Word) :
    (c.retire h len stall now).ewaitStatus tid tok = c.ewaitStatus tid tok :=
  Chip.retire_keeps (·.ewaitStatus tid tok) (fun _ _ _ => rfl) ..

/-- An EWAIT on a finished operation answers its status, and its group learns what the operation's agent did. -/
theorem ewait_answers {st : Nat} (hl : h.lanes f.g ≠ 0)
    (hi : s.mayIssue h { Uses.none with ss := [f.sa.toNat], sd := [f.sd.toNat], ps := guardPs f.g })
    (hs : s.chip.ewaitStatus h.tid (h.s f.sa.toNat) = some st) :
    ∃ t, exec (.ewait f) s = .next t ∧ s.passes t h (xForm f.stall f.g) [] [f.sd.toNat] ∧
      t.sreg h.g f.sd.toNat = BitVec.ofNat 32 st := by
  obtain ⟨ha, -, -, -, hz⟩ := id hi
  obtain ⟨u, k, hu, hturn⟩ := learnEng_run h.g h.tid (h.s f.sa.toNat) st (s.txPast h 8 f.stall.toNat)
  have hall := Tx.turnsSlot_trans hturn (Tx.turnsSlot_modGroup u h.g fun x => x.landS s.clk f.sd.toNat h.mask (BitVec.ofNat 32 st))
  have hland := Group.landS_changes s.clk f.sd.toNat h.mask (BitVec.ofNat 32 st)
  have hquiet : (Group.checks k (h.groupPast 8 f.stall.toNat s.clk)).hazards = [] := Here.groupPast_hazards hz 8 f.stall.toNat s.clk
  have hclk : u.clk = s.clk := by rw [hturn.rest]; rfl
  refine ⟨_, runZha_next ((issue_next hi 8 f.stall.toNat _).trans ((onceIf_run hl _ _).trans
      ((bind_next (getChip_run _)).trans ?_))),
    State.passes_of_turn (F := xForm f.stall f.g) ha hall (fun x => hland.paths _) (fun x => hland.v _) (fun x => hland.p _)
      fun x r hr => hland.other _ r (by simpa using hr), ?_⟩
  · rw [Chip.retire_ewaitStatus, hs]
    refine (bind_next hu).trans ?_
    rw [setS_run, hclk]
  · have hgroup := (State.txPast_group (F := xForm f.stall f.g) ha hall).trans (congrArg some (Group.landS_quiet hquiet ..))
    rw [State.sreg, State.commit_chip, hgroup]
    exact (Group.sreg_setS ..).trans (if_pos rfl)

theorem ewait_parks (hl : h.lanes f.g ≠ 0)
    (hi : s.mayIssue h { Uses.none with ss := [f.sa.toNat], sd := [f.sd.toNat], ps := guardPs f.g })
    (hs : s.chip.ewaitStatus h.tid (h.s f.sa.toNat) = none) (hside : h.path.sides = []) :
    ∃ t, exec (.ewait f) s = .next t ∧ s.parks t h (xForm f.stall f.g) (.ewait (h.s f.sa.toNat) f.sd.toNat) := by
  obtain ⟨u, hu, hpark⟩ := parkOn_turns h (.ewait (h.s f.sa.toNat) f.sd.toNat) (s.txPast h 8 f.stall.toNat)
  refine ⟨s.commit u, runZha_next ((issue_next hi 8 f.stall.toNat _).trans ((onceIf_run hl _ _).trans
      ((bind_next (getChip_run _)).trans ?_))),
    State.parks_of_turn (k := id) hi.1 hside hpark fun _ => ⟨rfl, rfl, rfl, rfl⟩⟩
  rw [Chip.retire_ewaitStatus, hs]
  exact hu

end
end Sys2Proof.Machine
end

section
/-! Asynchronous reads and placements (R114, R138) where memory is plain, the race mode is OFF and pages translate at once. -/

namespace Sys2Proof.Machine

variable {α β : Type}

/-! ## The steps of an asynchronous operation -/

/-- A part of an asynchronous operation answers and goes on. -/
def asyncYields (a : Async α) (t : Tx) (x : α) (u : Tx) : Prop := a.run t = .ok (.ok x, u)

theorem asyncYields_pure (x : α) (t : Tx) : asyncYields (pure x) t x t := rfl

theorem asyncYields_bind {a : Async α} {f : α → Async β} {t u v : Tx} {x : α} {y : β} (ha : asyncYields a t x u)
    (hf : asyncYields (f x) u y v) : asyncYields (a >>= f) t y v := (bind_next ha).trans hf

theorem asyncYields_act {a : Act α} {t u : Tx} {x : α} (h : a t = .ok (x, u)) : asyncYields (inAct a) t x u := by
  show (StateT.map Except.ok a) t = _
  unfold StateT.map
  rw [h]
  rfl

/-- A list of one operand. -/
theorem asyncYields_mapM_one {f : α → Async β} {x : α} {y : β} {t u : Tx} (h : asyncYields (f x) t y u) :
    asyncYields ([x].mapM f) t [y] u := asyncYields_bind h rfl

/-! ## Reads and placements -/

/-- A transaction in which a state's marks and arbiters have changed, and its log is empty. -/
def State.txNoted (s : State) (marks : Map (BitVec 64)) (clusters : Map Cluster) : Tx :=
  { s.tx with chip := { s.chip with marks := marks, clusters := clusters } }

section
variable {s : State} {who : Actor} {M : Map (BitVec 64)} {K : Map Cluster} {u : Use} {va n : Nat} {pa : Nat → Nat}

theorem bindSegments_hits {f : Nat → Act (Except Nat Nat)} {t : Tx} (xs : List (Nat × Nat))
    (h : ∀ p ∈ xs, f p.1 t = .ok (.ok (pa p.1), t)) : bindSegments f xs t = .ok (.ok (xs.map fun p => (pa p.1, p.2)), t) := by
  induction xs with
  | nil => rfl
  | cons p r ih =>
    refine (bind_next (h p List.mem_cons_self)).trans ?_
    exact bind_next (ih fun q hq => h q (List.mem_cons_of_mem _ hq))

theorem frameWindow_calm (hc : s.calm who) : frameWindow who.ctx (s.txNoted M K) = .ok (0, s.txNoted M K) := by
  obtain ⟨⟨-, hpart, -, -, hlink, -⟩, -, hzero⟩ := hc
  unfold frameWindow
  rw [bind_next (getChip_run _)]
  show (match (s.chip.ctx who.ctx).area with
    | some a => homeNat (a.pa + 0x28) 8
    | none => pure 0) (s.txNoted M K) = _
  cases ha : (s.chip.ctx who.ctx).area with
  | none => rfl
  | some a =>
    dsimp only
    rw [homeNat_plain (t := s.txNoted M K) hpart hlink]
    exact congrArg (fun n => Except.ok (n, s.txNoted M K)) (hzero a ha)

theorem asyncBind_run (hc : s.calm who) (hs : s.spans who u va n pa) :
    asyncYields (asyncBind who u va n) (s.txNoted M K) (piecesOf va n pa) (s.txNoted M K) := by
  have hdown : s.chip.link.down = false := hc.1.2.2.2.2.2.1
  have hbind : bindRange who.core who.run who.ctx u va n (s.txNoted M K) = .ok (.ok (piecesOf va n pa), s.txNoted M K) :=
    bindSegments_hits _ fun p hp => translate_hit (hs.2 p hp).1
  refine asyncYields_bind (asyncYields_act (frameWindow_calm hc)) ?_
  rw [meetsWindow_zero]
  refine asyncYields_bind (asyncYields_act hbind) ?_
  refine asyncYields_bind (asyncYields_act (getChip_run _)) ?_
  have hcut : (u.write && (s.txNoted M K).chip.link.down &&
      (piecesOf va n pa).any fun p => (s.txNoted M K).chip.tiered p.1 p.2) = false := by
    rw [show (s.txNoted M K).chip.link.down = false from hdown, Bool.and_false, Bool.false_and]
  rw [hcut]
  exact asyncYields_pure _ _

theorem asyncPlace_run {bs : List Byte} (hc : s.calm who) (hs : s.spans who (Use.store who.user) va bs.length pa) :
    asyncYields (asyncPlace who va bs) (s.txNoted M K) (cutBytes (piecesOf va bs.length pa) bs) (s.txNoted M K) :=
  asyncYields_bind (asyncBind_run hc hs) (asyncYields_pure _ _)

/-- The granules of ranges of global memory are of no core's scratch. -/
theorem globGrans_global {xs : List α} {at_ len : α → Nat} :
    ∀ g ∈ distinct ((xs.flatMap fun x => globGrans 0 (at_ x) (len x)).map Prod.snd), g.core = none := by
  intro g hg
  obtain ⟨e, he, rfl⟩ := List.mem_map.mp (distinct_sub hg)
  obtain ⟨x, -, he⟩ := List.mem_flatMap.mp he
  obtain ⟨k, -, rfl⟩ := List.mem_map.mp he
  rfl

/-- The pieces of a range hold their bytes: nothing that is read changes but marks. -/
theorem readPhys_run {ps : List (Nat × Nat)} (hc : s.calm who) (hp : ∀ p ∈ ps, s.chip.poisoned p.1 p.2 = false) (kind : Nat) :
    ∃ M', asyncYields (readPhys who kind ps) (s.txNoted M K) (s.bytesAt ps) (s.txNoted M' K) := by
  obtain ⟨⟨-, hpart, -, htraced, hlink, -, -⟩, hmode, -⟩ := hc
  have hpoison : piecesPoisoned ps (s.txNoted M K) = .ok (false, s.txNoted M K) := by
    have hnone : (ps.any fun p => (s.txNoted M K).chip.poisoned p.1 p.2) = false := by
      rw [List.any_eq_false]
      exact fun p h => Bool.eq_false_iff.mp (hp p h)
    unfold piecesPoisoned
    rw [bind_next (getChip_run _), hnone]
    rfl
  have hcheck : checkAsync ⟨who, kind, false, 0, false⟩ (pieceGrans ps) (s.txNoted M K) = .ok (false, s.txNoted M K) := by
    unfold checkAsync
    rw [bind_next (judgeAll_off (t := s.txNoted M K) hmode hpart _), verdictRecs_off, raceTrap_off hmode]
    rfl
  obtain ⟨M', hmarks, -⟩ := markReads_run ⟨who, kind, false, 0, false⟩ _ (globGrans_global (xs := ps)) (s.txNoted M K)
  have htrace : each ps (fun p => traceRead who.tid p.1 p.2) (s.txNoted M' K) = .ok ((), s.txNoted M' K) :=
    each_id ps fun p _ => traceRead_untraced (t := s.txNoted M' K) (teamTraced_none htraced _) ..
  have hread : readPieces ps (s.txNoted M' K) = .ok (s.bytesAt ps, s.txNoted M' K) := by
    unfold readPieces
    rw [bind_next (mapAct_id (g := fun p => (List.range p.2).map fun i => Memory.read s.mem (p.1 + i)) ps fun p _ =>
      homeRead_plain (t := s.txNoted M' K) hpart hlink p.1 p.2)]
    rw [State.bytesAt, List.flatMap_def]
    rfl
  refine ⟨M', asyncYields_bind (asyncYields_act hpoison) ?_⟩
  refine asyncYields_bind (asyncYields_act hcheck) (asyncYields_act ?_)
  exact (bind_next hmarks).trans ((bind_next htrace).trans hread)

theorem asyncRead_run (hc : s.calm who) (hs : s.spans who (Use.load who.user) va n pa) (kind : Nat) :
    ∃ M', asyncYields (asyncRead who kind va n) (s.txNoted M K) (s.bytesAt (piecesOf va n pa)) (s.txNoted M' K) := by
  have hclean (p : Nat × Nat) (hp : p ∈ piecesOf va n pa) : s.chip.poisoned p.1 p.2 = false := by
    obtain ⟨q, hq, rfl⟩ := List.mem_map.mp hp
    exact (hs.2 q hq).2
  obtain ⟨M', hread⟩ := readPhys_run (M := M) (K := K) hc hclean kind
  exact ⟨M', asyncYields_bind (asyncBind_run hc hs) hread⟩

end

end Sys2Proof.Machine
end

section
/-! ENG_OP_START and ENG_OP_COMPLETE (R180 to R183). -/

namespace Sys2Proof.Machine

/-! ## Current for an operation's start (R183, R184) -/

theorem Chip.modCluster_modCluster (c : Chip) (k : Nat) (f g : Cluster → Cluster) :
    (c.modCluster k f).modCluster k g = c.modCluster k fun x => g (f x) := by
  have hk : (c.modCluster k f).cluster k = f (c.cluster k) := by rw [Chip.cluster_modCluster, if_pos rfl]
  unfold Chip.modCluster at hk ⊢
  rw [hk]
  exact congrArg (fun m => { c with clusters := m }) (mset_mset ..)

theorem Chip.modCluster_congr {c : Chip} {k : Nat} {f g : Cluster → Cluster} (h : f (c.cluster k) = g (c.cluster k)) :
    c.modCluster k f = c.modCluster k g := by
  unfold Chip.modCluster
  rw [h]

/-- The cluster once an owner has asked for current: unless it holds some or has asked already, or needs none, it waits. -/
def Cluster.asking (k : Cluster) (o : CqOwner) (need : Nat) (siding : Bool) (prio now : Nat) : Cluster :=
  if k.holds o || k.reqs.any fun x => x.owner = o then k
  else if need = 0 then { k with grants := k.grants ++ [⟨o, 0, siding, prio, now, false⟩] }
  else { k with reqs := k.reqs ++ [⟨o, need, siding, prio, now, false⟩] }

theorem askCq_run (cl : Nat) (o : CqOwner) (need : Nat) (siding : Bool) (prio : Nat) (t : Tx) : askCq cl o need siding prio t =
    .ok ((), { t with chip := t.chip.modCluster cl fun k => k.asking o need siding prio t.clk }) := rfl

theorem Cluster.asking_free {k : Cluster} {o : CqOwner} {need : Nat} {siding : Bool} (h : k.roomFor o need siding) (prio now : Nat) :
    k.asking o need siding prio now = { k with reqs := [⟨o, need, siding, prio, now, false⟩] } := by
  obtain ⟨hreqs, hholds, hneed, -, -⟩ := h
  simp [Cluster.asking, hholds, hreqs, hneed]

/-- An operation whose current fits, with nobody before it, is granted it and goes on. -/
theorem withCurrent_granted {t : Tx} {cl need prio : Nat} {o : CqOwner} {siding : Bool} {go : Act Unit}
    (hr : (t.chip.cluster cl).roomFor o need siding) (ho : Cq.plain ⟨o, need, siding, prio, t.clk, false⟩) :
    withCurrent cl o need siding prio go t =
      go { t with chip := t.chip.modCluster cl fun k => k.taking o need siding prio t.clk } := by
  obtain ⟨-, -, -, hfit, hside⟩ := id hr
  have hasks := Cluster.asking_free hr prio t.clk
  have hask : (t.chip.modCluster cl fun k => k.asking o need siding prio t.clk).cluster cl =
      { t.chip.cluster cl with reqs := [⟨o, need, siding, prio, t.clk, false⟩] } := by
    rw [Chip.cluster_modCluster, if_pos rfl, hasks]
  have harb := arbitrate_fits (t := { t with chip := t.chip.modCluster cl fun k => k.asking o need siding prio t.clk }) (cl := cl)
    (r := ⟨o, need, siding, prio, t.clk, false⟩) (by rw [hask]) ho (by rw [hask]; exact hfit) (by rw [hask]; exact hside)
  have htaking : (t.chip.modCluster cl fun k => k.asking o need siding prio t.clk).modCluster cl
      (fun k => k.granting [⟨o, need, siding, prio, t.clk, false⟩]) = t.chip.modCluster cl fun k => k.taking o need siding prio t.clk := by
    rw [Chip.modCluster_modCluster]
    refine Chip.modCluster_congr ?_
    rw [hasks, Cluster.granting_one rfl]
    rfl
  have hheld : ((t.chip.modCluster cl fun k => k.taking o need siding prio t.clk).cluster cl).holds o = true := by
    rw [Chip.cluster_modCluster, if_pos rfl]
    simp [Cluster.holds, Cluster.taking]
  unfold withCurrent
  rw [bind_next (askCq_run ..), bind_next harb, htaking, bind_next (getChip_run _), if_pos hheld]

/-! ## Digests (R181, R182) -/

theorem shaRound_length (h : List (BitVec 32)) (kw : BitVec 32) : (shaRound h kw).length = h.length := by
  unfold shaRound
  split <;> rfl

theorem shaBlock_length {h : List (BitVec 32)} (hl : h.length = 8) (block : List Byte) : (shaBlock h block).length = 8 := by
  have hfold (ws : List (BitVec 32)) : (ws.foldl shaRound h).length = 8 := by
    induction ws generalizing h with
    | nil => exact hl
    | cons w r ih => exact ih ((shaRound_length h w).trans hl)
  unfold shaBlock
  rw [List.length_zipWith, hfold, hl, Nat.min_self]

theorem shaBlocks_length {h : List (BitVec 32)} (hl : h.length = 8) (n : Nat) (m : List Byte) : (shaBlocks n h m).length = 8 := by
  induction n generalizing h m with
  | zero => exact hl
  | succ n ih => exact ih (shaBlock_length hl _) _

theorem sha256_length (m : List Byte) : (sha256 m).length = 32 := by
  unfold sha256
  simp [List.length_flatMap, toLE_length, shaBlocks_length (h := shaH) rfl]

/-- What a DIGEST operation answers, and the length that its descriptor gives it. -/
abbrev EngDesc.digest (d : EngDesc) (src : List Byte) : List Byte := if d.op = 0 then sha256 src else toLE 8 (crc64 src).toNat

theorem EngDesc.digest_length (d : EngDesc) (src : List Byte) : (d.digest src).length = if d.op = 0 then 32 else 8 := by
  split
  · exact sha256_length _
  · exact toLE_length ..

/-! ## ENG_OP_START -/

section
variable {s : State} {op : Nat} {o : EngOp} {d : EngDesc} {dpa pa ta : Nat → Nat}

/-- A DIGEST operation whose descriptor `d` and ranges are its core's to translate. -/
structure State.digests (s : State) (o : EngOp) (d : EngDesc) (dpa pa ta : Nat → Nat) : Prop where
  cls : o.cls = 2
  calm : s.calm o.who
  aligned : o.desc.toNat % 64 = 0
  desc : s.spans o.who (Use.load o.who.user) o.desc.toNat 64 dpa
  reads : d = EngDesc.of (s.bytesAt (piecesOf o.desc.toNat 64 dpa))
  fits : d.fits 2 = true
  source : s.spans o.who (Use.load o.who.user) d.src d.count pa
  target : s.spans o.who (Use.store o.who.user) d.dst (if d.op = 0 then 32 else 8) ta

/-- The bytes that it will write, by physical address. -/
abbrev State.digestWrites (s : State) (d : EngDesc) (pa ta : Nat → Nat) : List (Nat × List Byte) :=
  cutBytes (piecesOf d.dst (if d.op = 0 then 32 else 8) ta) (d.digest (s.bytesAt (piecesOf d.src d.count pa)))

theorem engPlan_digest (hd : s.digests o d dpa pa ta) (M : Map (BitVec 64)) (K : Map Cluster) :
    ∃ M', asyncYields (engPlan o) (s.txNoted M K) (s.digestWrites d pa ta, 0) (s.txNoted M' K) := by
  obtain ⟨M1, hdesc⟩ := asyncRead_run (M := M) (K := K) hd.calm hd.desc 8
  obtain ⟨M2, hsrc⟩ := asyncRead_run (M := M1) (K := K) hd.calm hd.source 8
  have hplace : asyncYields (asyncPlace o.who d.dst (d.digest (s.bytesAt (piecesOf d.src d.count pa)))) (s.txNoted M2 K)
      (s.digestWrites d pa ta) (s.txNoted M2 K) := by
    have hlen := EngDesc.digest_length d (s.bytesAt (piecesOf d.src d.count pa))
    unfold State.digestWrites
    rw [← hlen]
    exact asyncPlace_run hd.calm (hlen ▸ hd.target)
  have hva : (o.desc.toNat % 64 ≠ 0 || !(s.txNoted M K).chip.globalRange o.desc.toNat 64) = false := by
    rw [hd.aligned, show (s.txNoted M K).chip.globalRange o.desc.toNat 64 = true from hd.desc.1]
    rfl
  have hfits : (!d.fits o.cls || !(d.ranges o.cls).all fun r => (s.txNoted M K).chip.globalRange r.1 r.2) = false := by
    have hsrc : (s.txNoted M K).chip.globalRange d.src d.count = true := hd.source.1
    have hdst : (s.txNoted M K).chip.globalRange d.dst (if d.op = 0 then 32 else 8) = true := hd.target.1
    rw [hd.cls, hd.fits]
    simp [EngDesc.ranges, hsrc, hdst]
  unfold engPlan
  refine ⟨M2, asyncYields_bind (asyncYields_act (getChip_run _)) ?_⟩
  dsimp only
  rw [hva]
  refine asyncYields_bind hdesc ?_
  rw [← hd.reads, hfits, hd.cls]
  refine asyncYields_bind (asyncYields_bind hsrc (asyncYields_pure _ _)) ?_
  exact asyncYields_bind (asyncYields_mapM_one hplace) (by rw [List.flatten_singleton]; exact asyncYields_pure _ _)

/-- The chip with the 16 CQ of an operation granted. -/
abbrev State.engGranted (s : State) (op : Nat) (o : EngOp) : Chip :=
  s.chip.modCluster (coreCluster o.who.core) fun k => k.taking (.eng op) 16 true (s.chip.ctxPrio o.who.ctx) s.clk

/-- The operation once it has read its source. -/
abbrev State.engStarted (s : State) (d : EngDesc) (pa ta : Nat → Nat) (x : EngOp) : EngOp :=
  { x with started := true, startAt := s.clk, out := s.digestWrites d pa ta, outStatus := 0 }

theorem engOpStart_digests (hd : s.digests o d dpa pa ta) (ho : mget? s.chip.engops op = some o) (ht : s.chip.engTurn op o = true)
    (hr : (s.chip.cluster (coreCluster o.who.core)).roomFor (.eng op) 16 true) :
    ∃ t, exec (.engOpStart op) s = .next t ∧ t.mem = s.mem ∧ t.chip.slots = s.chip.slots ∧
      mget? t.chip.engops op = some (s.engStarted d pa ta o) := by
  obtain ⟨M', hplan⟩ := engPlan_digest hd s.chip.marks (s.engGranted op o).clusters
  refine ⟨_, event_next (c := { s.engGranted op o with
      marks := M', engops := mmod s.chip.engops op (s.engStarted d pa ta) }) rfl ?_, rfl, rfl, ?_⟩
  · rw [bind_next (getChip_run _), bind_next (clock_run _), State.tx_chip, State.tx_clk, ho, someOr_some, bind_next (pure_run _ _), ht,
      enabled_true, bind_next (pure_run _ _)]
    refine (bind_next ((withCurrent_granted (t := s.tx) hr (.inl ⟨op, rfl⟩)).trans (bind_next hplan))).trans ?_
    exact settle_none (t := { s.tx with chip := { s.engGranted op o with
      marks := M', engops := mmod s.chip.engops op (s.engStarted d pa ta) } }) hd.calm.1.1
  · exact (mget_mmod_same ..).trans (congrArg (Option.map _) ho)

end

/-! ## ENG_OP_COMPLETE -/

/-- Two chips that differ in arbiters, units and cores alone. -/
def Chip.passesUnits (c d : Chip) : Prop := { d with clusters := c.clusters, units := c.units, cores := c.cores } = c

theorem Chip.passesUnits_trans {c d e : Chip} (h : c.passesUnits d) (h' : d.passesUnits e) : c.passesUnits e :=
  Eq.trans (congrArg (fun x : Chip => { x with clusters := c.clusters, units := c.units, cores := c.cores }) h') h

/-- What does not look at them finds both chips the same. -/
theorem Chip.passesUnits_keeps {α : Type} (f : Chip → α) (hf : ∀ c k u x, f { c with clusters := k, units := u, cores := x } = f c)
    {c d : Chip} (h : c.passesUnits d) : f d = f c :=
  Eq.trans (Eq.symm (hf d c.clusters c.units c.cores)) (congrArg f h)

/-- A step that always goes on, writes no memory, and changes arbiters, units and cores alone. -/
def stepUnits (a : Act Unit) : Prop := ∀ t, ∃ d, a t = .ok ((), { t with chip := d }) ∧ t.chip.passesUnits d

theorem stepUnits_pure : stepUnits (pure ()) := fun t => ⟨t.chip, rfl, rfl⟩

theorem stepUnits_bind {a b : Act Unit} (ha : stepUnits a) (hb : stepUnits b) : stepUnits (a >>= fun _ => b) := by
  intro t
  obtain ⟨c, h, hc⟩ := ha t
  obtain ⟨d, h', hd⟩ := hb { t with chip := c }
  exact ⟨d, (bind_next h).trans h', Chip.passesUnits_trans hc hd⟩

theorem stepUnits_getChip {f : Chip → Act Unit} (h : ∀ c, stepUnits (f c)) : stepUnits (getChip >>= f) := fun t => h t.chip t

theorem stepUnits_ite {p : Prop} [Decidable p] {a b : Act Unit} (ha : stepUnits a) (hb : stepUnits b) :
    stepUnits (if p then a else b) := by
  split
  · exact ha
  · exact hb

theorem stepUnits_each {α : Type} {f : α → Act Unit} (hf : ∀ x, stepUnits (f x)) (xs : List α) : stepUnits (each xs f) := by
  induction xs with
  | nil => exact stepUnits_pure
  | cons x r ih => exact stepUnits_bind (hf x) ih

theorem dropCq_units (cl : Nat) (o : CqOwner) : stepUnits (dropCq cl o) := fun _ => ⟨_, rfl, rfl⟩

theorem freeUnit_units (cls place unit : Nat) (ret : Option Nat) (warm : Bool) : stepUnits (freeUnit cls place unit ret warm) :=
  stepUnits_bind (fun _ => ⟨_, rfl, rfl⟩) (stepUnits_ite (fun _ => ⟨_, rfl, rfl⟩) stepUnits_pure)

theorem releaseIfIdle_units (cls place unit uid : Nat) : stepUnits (releaseIfIdle cls place unit uid) :=
  stepUnits_getChip fun _ => stepUnits_ite (stepUnits_bind (dropCq_units _ _) (freeUnit_units _ _ _ _ _)) stepUnits_pure

/-- The chip in which an operation has a status. -/
def Chip.engEnded (c : Chip) (op st : Nat) : Chip :=
  { c with engops := mmod c.engops op fun o => { o with status := some st, parked := none } }

/-- Once an operation has ended with a status, its entry says so, and its current and its lease's idle units pass on. -/
theorem finishEng_ends {t : Tx} {op st : Nat} {o : EngOp} (ho : mget? t.chip.engops op = some o) :
    ∃ d, finishEng op st t = .ok ((), { t with chip := d }) ∧ d.slots = t.chip.slots ∧ d.teams = t.chip.teams ∧
      mget? d.engops op = some { o with status := some st, parked := none } := by
  obtain ⟨d, hd, hpass⟩ := stepUnits_bind (dropCq_units (coreCluster o.who.core) (.eng op))
    (stepUnits_each (releaseIfIdle_units o.cls (coreCluster o.who.core) · o.lease) (List.range (classUnits o.cls)))
    { t with chip := t.chip.engEnded op st }
  refine ⟨d, ?_, (Chip.passesUnits_keeps Chip.slots (fun _ _ _ _ => rfl) hpass).trans rfl,
    (Chip.passesUnits_keeps Chip.teams (fun _ _ _ _ => rfl) hpass).trans rfl, ?_⟩
  · unfold finishEng
    rw [bind_next (getChip_run _), ho]
    exact hd
  · rw [Chip.passesUnits_keeps Chip.engops (fun _ _ _ _ => rfl) hpass, Chip.engEnded, mget_mmod_same, ho]
    rfl

theorem Chip.parkedSides_congr {c d : Chip} (hs : d.slots = c.slots) (ht : d.teams = c.teams) : d.parkedSides = c.parkedSides := by
  rw [Chip.parkedSides_eq, Chip.parkedSides_eq, hs]
  exact congrArg (c.slots.flatMap ·) (funext fun e => Chip.sidesAt_congr ht e.1 e.2.group)

section
variable {s : State} {who : Actor} {kind pa : Nat} {bs : List Byte}

/-- One block that an operation writes: its bytes, and what homes keep of their granules. -/
theorem performWrites_block (hs : s.plainMemory) : ∃ d, performWrites who kind [(pa, bs)] s.tx =
    .ok ((), { s.tx with chip := d, log := blockLog pa bs }) ∧ s.chip.homeNotes d := by
  obtain ⟨c, hwrite, hc⟩ := homeWrite_notes (t := s.tx) hs pa bs (some (who.run, who.team))
  obtain ⟨d, hmarks, hd⟩ := each_notes
    (fun g hg t => markWrite_notes ⟨who, kind, false, 0, true⟩ (globGrans_global (xs := [(pa, bs)]) g hg) 0 t)
    { s.tx with chip := c, log := blockLog pa bs }
  refine ⟨d, ?_, Chip.homeNotes_trans hc hd⟩
  rw [show blockLog pa bs ++ s.tx.log = blockLog pa bs from List.append_nil _] at hwrite
  have hland : landEng who [(pa, bs)] s.tx = .ok ((), { s.tx with chip := c, log := blockLog pa bs }) := (bind_next hwrite).trans rfl
  exact (bind_next hland).trans hmarks

theorem judgeWrites_off (hs : s.plainMemory) (hm : who.mode = 0) (out : List (Nat × List Byte)) :
    judgeWrites who kind out s.tx = .ok (false, s.tx) := by
  unfold judgeWrites checkAsync
  rw [bind_next (judgeAll_off (t := s.tx) hm hs.1 _), verdictRecs_off, raceTrap_off hm]
  rfl

end

/-- At its end the one block that an operation holds stands in memory, and its status is set. -/
theorem engOpComplete_block {s : State} {op pa : Nat} {o : EngOp} {bs : List Byte} (ho : mget? s.chip.engops op = some o)
    (hstart : o.started = true) (hstatus : o.status = none) (hfeed : o.feed = false) (hm : o.who.mode = 0) (hs : s.plain)
    (hw : s.Inv) (hout : o.out = [(pa, bs)]) :
    ∃ t, exec (.engOpComplete op) s = .next t ∧ t.chip.slots = s.chip.slots ∧
      mget? t.chip.engops op = some { o with status := some o.outStatus, parked := none } ∧ s.stores t pa bs := by
  obtain ⟨hn, hplain⟩ := hs
  obtain ⟨c, hwrites, hc⟩ := performWrites_block (who := o.who) (kind := 9) (pa := pa) (bs := bs) hplain
  have hslots : c.slots = s.chip.slots := Chip.homeNotes_keeps Chip.slots (fun _ _ _ _ _ _ => rfl) hc
  have hteams : c.teams = s.chip.teams := Chip.homeNotes_keeps Chip.teams (fun _ _ _ _ _ _ => rfl) hc
  have ho' : mget? c.engops op = some o :=
    (congrArg (mget? · op) (Chip.homeNotes_keeps Chip.engops (fun _ _ _ _ _ _ => rfl) hc)).trans ho
  obtain ⟨d, hend, hdslots, hdteams, hdone⟩ :=
    finishEng_ends (t := { s.tx with chip := c, log := blockLog pa bs }) (st := o.outStatus) ho'
  have hcut : (o.out.any fun p => s.chip.cutOff p.1 p.2.length) = false := by
    simp [Chip.cutOff, hplain.2.2.2.2.1]
  have hnobody : d.parkedSides = [] := by
    rw [Chip.parkedSides_congr (hdslots.trans hslots) (hdteams.trans hteams)]
    exact hn
  refine ⟨_, (runEvent_next (t := { s.tx with chip := d, log := blockLog pa bs }) ?_), hdslots.trans hslots, hdone,
    Memory.stores_block hw rfl⟩
  rw [bind_next (getChip_run _), State.tx_chip, ho, someOr_some, bind_next (pure_run _ _)]
  rw [hstart, hstatus, hfeed]
  refine (bind_next (u := s.tx) rfl).trans ((bind_next (getChip_run _)).trans ?_)
  rw [if_neg (show ¬ (o.out.any fun p => s.tx.chip.cutOff p.1 p.2.length) = true from Bool.eq_false_iff.mp hcut)]
  refine (bind_next (judgeWrites_off hplain hm o.out)).trans ?_
  rw [hout]
  exact (bind_next hwrites).trans ((bind_next hend).trans (settle_none hnobody))

/-- Settles O34: ENG by its exact chip, EWAIT by its answer or its parking, a DIGEST operation from its start to its end. -/
theorem engines : Obligations.Engines := by
  unfold Obligations.Engines
  refine fun s => ⟨fun h f uid l hl => ?_, fun h f hl => ?_, fun op o dpa pa ta ho hcls ht hc hr ha hdesc => ?_, ?_⟩
  · intro sb hi hb hready hengine hroom hw
    exact eng_queues ⟨hl, hi, hb, hready, hengine, hroom, hw⟩
  · intro F tok hi
    exact ⟨fun st hs => ewait_answers hl hi hs, fun hs hside => ewait_parks hl hi hs hside⟩
  · intro d n hf hsrc hdst src
    exact engOpStart_digests ⟨hcls, hc, ha, hdesc, rfl, hf, hsrc, hdst⟩ ho ht hr
  · intro op pa o bs ho hstart hstatus hfeed hm hs hw hout
    exact engOpComplete_block ho hstart hstatus hfeed hm hs hw hout

end Sys2Proof.Machine
end

section
/-! Matrix instructions enter the engine order (R186, R194 to R205, O36). -/

namespace Sys2Proof.Machine

/-! ## The checks of a matrix instruction -/

section
variable {s : State} {h : Here}

theorem checkMx_past (hm : s.holdsMx h) (len stall : Nat) : checkMx h (s.txPast h len stall) = .ok ((), s.txPast h len stall) := by
  obtain ⟨uid, l, hl, hs⟩ := hm
  have hl' : (s.txPast h len stall).chip.mxLease h.tid = some (uid, l) :=
    (Chip.retire_keeps (·.mxLease h.tid) (fun _ _ _ => rfl) ..).trans hl
  obtain ⟨hlive, hawake⟩ := LeaseState.usable hs
  unfold checkMx
  rw [bind_next (getChip_run _), hl']
  dsimp only
  rw [if_neg hlive, if_neg hawake]
  rfl

/-- A check that some forms make, and that passes. -/
theorem checked_next {β : Type} {p : Prop} [Decidable p] {a : Act Unit} {k : Unit → Act β} {t : Tx} (ha : p → a t = .ok ((), t)) :
    (if p then a >>= k else k ()) t = k () t := by
  split
  · next hp => exact bind_next (ha hp)
  · rfl

theorem checkRecord_fits {units : Nat} {raw : BitVec 64} {ok : BitVec 4 → Bool} (hf : recordFits units raw ok) :
    checkRecord units raw ok = pure () := by
  obtain ⟨htop, hlen, htag, hok, hend⟩ := hf
  have hlong : ¬ (raw.getLsbD 63 || (OpRec.of raw).len = 0) = true := by rw [htop]; simpa using hlen
  have htagged : ¬ ((OpRec.of raw).tag = 15 || !ok (OpRec.of raw).tag) = true := by rw [hok]; simpa using htag
  unfold checkRecord
  rw [if_neg hlong, if_neg htagged, if_neg (Nat.not_lt.mpr hend)]

theorem physTile_some {k tile : Nat} (ht : h.team.tiles[k]? = some tile) : physTile h k = pure tile := by
  rw [physTile, ht]

theorem checkIds_tagged {ad : Bool} {c : Nat} {mask : BitVec 32}
    (ht : ad = true → ∀ i, i < 32 → mask.getLsbD i → (h.v c i).tag = tagI32 ∨ (h.v c i).tag = tagN32) :
    checkIds h ad c mask = pure () := by
  unfold checkIds
  cases ad with
  | false => rfl
  | true =>
    have hnone := lanesOf_find_none (lanes := mask) (bad := fun i => (h.v c i).tag ≠ tagI32 && (h.v c i).tag ≠ tagN32)
      fun i hi hb => by rcases ht rfl i hi hb with e | e <;> simp [e]
    rw [hnone]
    rfl

/-- An operation joins an engine order with room for it. -/
theorem acceptMat_run {t : Tx} (hr : ((t.chip.core h.core).order.filter fun e => e.2.status.isNone).length < 32) (o : MatOp) :
    acceptMat h o t = .ok ((), { t with chip := t.chip.accepting h.core h.g o }) := by
  unfold acceptMat
  rw [bind_next (getChip_run _)]
  dsimp only
  rw [if_neg (Nat.not_le.mpr hr)]
  rfl

theorem acceptMat_past (hr : s.orderRoom h) (len stall : Nat) (o : MatOp) : acceptMat h o (s.txPast h len stall) =
    .ok ((), { s.tx with chip := (s.chip.retire h len stall s.clk).accepting h.core h.g o }) :=
  acceptMat_run (by rw [show (s.txPast h len stall).chip.core h.core = s.chip.core h.core from Chip.retire_core ..]; exact hr) o

end

/-! ## BLD, MMA, MV (R194, R195, R201) -/

section
variable {s : State} {h : Here} {f : MatF}

theorem bld_accepted (hr : s.orderRoom h)
    (hi : s.mayIssue h { Uses.none with ss := [f.a.toNat, f.a.toNat + 1], ps := guardPs f.g }) (hm : s.holdsMx h)
    (hl : h.lanes f.g ≠ 0) (hf : recordFits h.team.scrUnits (h.pair f.a.toNat) (loadTag f.mods))
    (hfit : loadFits f.mods (OpRec.of (h.pair f.a.toNat)) = true) :
    exec (.bld f) s = .next (s.onward h (xForm f.stall f.g) fun c => c.accepting h.core h.g
      { MatOp.init .bld h s.chip.seq f.mods h.mask with rcd := h.pair f.a.toNat, bslot := f.d.toNat % 4 }) := by
  refine exec_issued (i := .bld f) rfl hi ((onceIf_run hl _ _).trans ((bind_next (checkMx_past hm 8 f.stall.toNat)).trans ?_))
  rw [checkRecord_fits hf, hfit, if_pos rfl]
  refine (bind_next (pure_run _ _)).trans ((bind_next (getChip_run _)).trans ?_)
  rw [show (s.txPast h 8 f.stall.toNat).chip.seq = s.chip.seq from Chip.retire_seq ..]
  exact acceptMat_past hr ..

/-- The operation that an MMA puts into the order. -/
abbrev mmaQueued (s : State) (h : Here) (f : MatF) (tile : Nat) : MatOp :=
  { MatOp.init .mma h s.chip.seq f.mods (h.lanes f.g) with
    rcd := h.pair f.a.toNat, tile := tile, bslot := bits f.mods.toNat 4 2, desc := if f.mods.getLsbD 3 then h.pair f.b.toNat else 0
    ids := if f.mods.getLsbD 3 then idsOf h f.c.toNat else [], seqP := h.grp.mmaP }

theorem mma_accepted {tile : Nat} (hr : s.orderRoom h) (ht : h.team.tiles[f.d.toNat]? = some tile)
    (hi : s.mayIssue h { Uses.none with
      ss := [f.a.toNat, f.a.toNat + 1] ++ (if f.mods.getLsbD 3 then [f.b.toNat, f.b.toNat + 1] else [])
      vs := if f.mods.getLsbD 3 then [f.c.toNat] else [], ps := guardPs f.g })
    (hm : s.holdsMx h) (hf : recordFits h.team.scrUnits (h.pair f.a.toNat) mmaTag)
    (hids : f.mods.getLsbD 3 = true → ∀ i, i < 32 → (h.lanes f.g).getLsbD i →
      (h.v f.c.toNat i).tag = tagI32 ∨ (h.v f.c.toNat i).tag = tagN32)
    (hw : f.mods.getLsbD 3 = true → s.noWindow h) :
    exec (.mma f) s = .next (s.onward h (xForm f.stall f.g) fun x =>
      let y := x.accepting h.core h.g (mmaQueued s h f tile)
      if f.mods.getLsbD 2 then y.modGroup h.g fun g => { g with mmaP := g.mmaP + 1 } else y) := by
  refine exec_issued (i := .mma f) rfl hi ((bind_next (checkMx_past hm 8 f.stall.toNat)).trans ?_)
  rw [checkRecord_fits hf, physTile_some ht, checkIds_tagged hids]
  refine (bind_next (pure_run _ _)).trans ((bind_next (pure_run _ _)).trans ((bind_next (pure_run _ _)).trans ?_))
  refine (checked_next fun had => offWindow_past (hw had) 8 f.stall.toNat _).trans ((bind_next (getChip_run _)).trans ?_)
  rw [show (s.txPast h 8 f.stall.toNat).chip.seq = s.chip.seq from Chip.retire_seq ..]
  refine (bind_next (acceptMat_past hr 8 f.stall.toNat _)).trans ?_
  dsimp only
  rw [ite_run]
  split <;> rfl

theorem mv_accepted {tile : Nat} (hr : s.orderRoom h) (ht : h.team.tiles[f.d.toNat]? = some tile)
    (hi : s.mayIssue h { Uses.none with
      ss := [f.a.toNat, f.a.toNat + 1, f.b.toNat], vs := if f.mods.getLsbD 3 then [f.c.toNat] else [], ps := guardPs f.g })
    (hm : s.holdsMx h)
    (hids : f.mods.getLsbD 3 = true → ∀ i, i < 32 → (h.lanes f.g).getLsbD i →
      (h.v f.c.toNat i).tag = tagI32 ∨ (h.v f.c.toNat i).tag = tagN32)
    (hw : s.noWindow h) :
    exec (.mv f) s = .next (s.onward h (xForm f.stall f.g) fun c => c.accepting h.core h.g
      { MatOp.init .mv h s.chip.seq f.mods (h.lanes f.g) with
        tile := tile, bslot := bits f.mods.toNat 4 2, desc := h.pair f.a.toNat, sb := h.s f.b.toNat
        ids := if f.mods.getLsbD 3 then idsOf h f.c.toNat else [] }) := by
  refine exec_issued (i := .mv f) rfl hi ((bind_next (checkMx_past hm 8 f.stall.toNat)).trans ?_)
  rw [physTile_some ht, checkIds_tagged hids]
  refine (bind_next (pure_run _ _)).trans ((bind_next (pure_run _ _)).trans ?_)
  refine (bind_next (offWindow_past hw ..)).trans ((bind_next (getChip_run _)).trans ?_)
  rw [show (s.txPast h 8 f.stall.toNat).chip.seq = s.chip.seq from Chip.retire_seq ..]
  exact acceptMat_past hr ..

end

/-! ## TZERO, TMOV and the memory form of TDRN (R204, R205) -/

section
variable {s : State} {h : Here} {tile : Nat}

theorem tzero_accepted {f : TileF} (hr : s.orderRoom h) (hi : s.mayIssue h { Uses.none with ps := guardPs f.g })
    (ht : h.team.tiles[f.d.toNat]? = some tile) :
    exec (.tzero f) s = .next (s.onward h (xForm f.stall f.g) fun c =>
      c.accepting h.core h.g { MatOp.init .tzero h s.chip.seq 0 (h.lanes f.g) with tile := tile }) := by
  refine exec_issued (i := .tzero f) rfl hi ?_
  rw [physTile_some ht]
  refine (bind_next (pure_run _ _)).trans ((bind_next (getChip_run _)).trans ?_)
  rw [show (s.txPast h 8 f.stall.toNat).chip.seq = s.chip.seq from Chip.retire_seq ..]
  exact acceptMat_past hr ..

theorem tmov_accepted {f : TileF} {src : Nat} (hr : s.orderRoom h) (hi : s.mayIssue h { Uses.none with ps := guardPs f.g })
    (ht : h.team.tiles[f.d.toNat]? = some tile) (hsrc : h.team.tiles[f.a.toNat]? = some src) :
    exec (.tmov f) s = .next (s.onward h (xForm f.stall f.g) fun c =>
      c.accepting h.core h.g { MatOp.init .tmov h s.chip.seq 0 (h.lanes f.g) with tile := tile, tile2 := src }) := by
  refine exec_issued (i := .tmov f) rfl hi ?_
  rw [physTile_some ht, physTile_some hsrc]
  refine (bind_next (pure_run _ _)).trans ((bind_next (pure_run _ _)).trans ((bind_next (getChip_run _)).trans ?_))
  rw [show (s.txPast h 8 f.stall.toNat).chip.seq = s.chip.seq from Chip.retire_seq ..]
  exact acceptMat_past hr ..

theorem tdrn_accepted {f : MatF} (hr : s.orderRoom h) (ht : h.team.tiles[f.d.toNat]? = some tile) (hform : f.mods.getLsbD 0 = false)
    (hi : s.mayIssue h { Uses.none with
      ss := [f.b.toNat, f.b.toNat + 1] ++ [f.a.toNat, f.a.toNat + 1], ps := guardPs f.g })
    (hf : recordFits h.team.scrUnits (h.pair f.a.toNat) drainTag) (hrows : (OpRec.of (h.pair f.a.toNat)).rows = 32)
    (hlen : (OpRec.of (h.pair f.a.toNat)).len = 8 * tagBytes (OpRec.of (h.pair f.a.toNat)).tag) (hw : s.noWindow h) :
    exec (.tdrn f) s = .next (s.onward h (xForm f.stall f.g) fun c => c.accepting h.core h.g
      { MatOp.init .tdrn h s.chip.seq f.mods (h.lanes f.g) with
        tile := tile, desc := h.pair f.b.toNat, rcd := h.pair f.a.toNat, dtag := (OpRec.of (h.pair f.a.toNat)).tag.toNat }) := by
  have hmem : ¬ f.mods.getLsbD 0 = true := Bool.eq_false_iff.mp hform
  have hi' : s.mayIssue h { Uses.none with
      ss := [f.b.toNat, f.b.toNat + 1] ++ (if f.mods.getLsbD 0 then [] else [f.a.toNat, f.a.toNat + 1]), ps := guardPs f.g } := by
    rwa [if_neg hmem]
  have hfit : (decide ((OpRec.of (h.pair f.a.toNat)).rows = 32) &&
      decide ((OpRec.of (h.pair f.a.toNat)).len = 8 * tagBytes (OpRec.of (h.pair f.a.toNat)).tag)) = true := by
    rw [hrows, hlen, decide_eq_true rfl, decide_eq_true rfl, Bool.and_self]
  refine exec_issued (i := .tdrn f) rfl hi' ?_
  rw [physTile_some ht]
  refine (bind_next (pure_run _ _)).trans ((bind_next (offWindow_past hw ..)).trans ((bind_next (getChip_run _)).trans ?_))
  dsimp only
  rw [if_neg hmem, checkRecord_fits hf]
  refine (bind_next (pure_run _ _)).trans ?_
  rw [if_pos hfit, show (s.txPast h 8 f.stall.toNat).chip.seq = s.chip.seq from Chip.retire_seq ..]
  exact acceptMat_past hr ..

end

/-! ## The register form of TDRN (R204) -/

theorem lanesGrans_global {c : Chip} {n : Nat} {xs : List LaneAcc} (hx : ∀ x ∈ xs, x.space = .memory) :
    ∀ g ∈ distinct ((lanesGrans c n xs).map Prod.snd), g.core = none := by
  intro g hg
  obtain ⟨e, he, rfl⟩ := List.mem_map.mp (distinct_sub hg)
  obtain ⟨x, hm, he⟩ := List.mem_flatMap.mp he
  rw [laneGrans, hx x hm] at he
  obtain ⟨k, -, rfl⟩ := List.mem_map.mp he
  rfl

theorem Chip.retire_usesPending_vd (c : Chip) (h : Here) (len stall now g : Nat) (m : BitVec 32) (regs : List Nat) :
    (c.retire h len stall now).usesPending g m { Uses.none with vd := regs } = c.usesPending g m { Uses.none with vd := regs } := by
  simp [Chip.usesPending, Uses.none, Chip.retire_regPending_vector]

theorem placedLanes_memory (ls : List (Nat × Addr)) (pa : Nat → Nat) : ∀ x ∈ placedLanes ls pa, x.space = .memory := by
  intro x hx
  obtain ⟨l, -, rfl⟩ := List.mem_map.mp hx
  rfl

/-- A chip with other marks. -/
def Chip.withMarks (c : Chip) (marks : Map (BitVec 64)) : Chip := { c with marks := marks }

section
variable {s : State} {h : Here}

/-- Global lanes that the core translates at once: nothing changes but marks. -/
theorem globalRead_past {n : Nat} {ls : List (Nat × Addr)} {pa : Nat → Nat} (hc : s.calm h.actor)
    (hr : s.reaches h (Use.load h.user) n ls pa) (hp : ∀ l ∈ ls, s.chip.poisoned (pa l.1) n = false) (fu : FormUse) (len stall : Nat) :
    ∃ marks, globalRead h fu (Use.load h.user) n ⟨h.actor, 0, false, 0, false⟩ ls (s.txPast h len stall) =
      .ok (placedLanes ls pa, { s.tx with chip := (s.chip.retire h len stall s.clk).withMarks marks }) := by
  obtain ⟨⟨-, hpart, -⟩, hmode, -⟩ := hc
  have hpart' : ∀ e ∈ (s.txPast h len stall).chip.cores, e.2.partials = [] := by
    rwa [Chip.retire_keeps Chip.cores fun _ _ _ => rfl]
  have hclean : (placedLanes ls pa).find? ((s.txPast h len stall).chip.lanePoison n) = none := by
    refine lanePoison_none fun l hl => ?_
    exact (Chip.retire_keeps (·.poisoned (pa l.1) n) (fun _ _ _ => rfl) ..).trans (hp l hl)
  obtain ⟨marks, hmarks, -⟩ := markReads_run ⟨h.actor, 0, false, 0, false⟩ _
    (lanesGrans_global (c := (s.txPast h len stall).chip) (n := n) (placedLanes_memory ls pa)) (s.txPast h len stall)
  refine ⟨marks, ?_⟩
  unfold globalRead
  rw [bind_next (checkSpaces_past hr fu len stall), checkAlign_reaches hr, bind_next (pure_run _ _),
    bind_next (bindLanes_past hr false len stall), bind_next (getChip_run _)]
  refine (bind_next (checkAccess_off hmode hpart' _)).trans ?_
  rw [hclean]
  exact (bind_next hmarks).trans rfl

/-- The DTAG of a descriptor that the core translates at once. -/
theorem readDtag_past {pa : Nat} {va : Addr} {dt : BitVec 4} (hc : s.calm h.actor) (halign : va.toNat % 64 = 0)
    (hr : s.reaches h (Use.load h.user) 4 [(0, va + 4)] fun _ => pa) (hp : s.chip.poisoned pa 4 = false)
    (hdt : dt = BitVec.ofNat 4 (bits (Memory.nat s.mem pa 4) 2 4)) (hok : drainTag dt = true) (len stall : Nat) :
    ∃ marks, readDtag h va (s.txPast h len stall) =
      .ok (dt, { s.tx with chip := (s.chip.retire h len stall s.clk).withMarks marks }) := by
  obtain ⟨marks, hread⟩ := globalRead_past hc hr (fun _ _ => hp) ⟨false, false, false, false⟩ len stall
  obtain ⟨⟨-, hpart, -, htraced, hlink, -⟩, -, -⟩ := hc
  let t : Tx := { s.tx with chip := (s.chip.retire h len stall s.clk).withMarks marks }
  have hpart' : ∀ e ∈ t.chip.cores, e.2.partials = [] := by
    rwa [show t.chip.cores = s.chip.cores from Chip.retire_keeps Chip.cores (fun _ _ _ => rfl) ..]
  have htraced' : ∀ e ∈ t.chip.runs, e.2.traced = false := by
    rwa [show t.chip.runs = s.chip.runs from Chip.retire_keeps Chip.runs (fun _ _ _ => rfl) ..]
  have hlink' : t.chip.link.retraining = none := by
    rwa [show t.chip.link = s.chip.link from Chip.retire_keeps Chip.link (fun _ _ _ => rfl) ..]
  have htrace : each (placedLanes [(0, va + 4)] fun _ => pa) (traceLane h.tid 4) t = .ok ((), t) :=
    each_id _ fun x hx => traceLane_untraced htraced' (placedLanes_memory _ _ x hx) ..
  have hbytes : readLane h.core 4 (lane0 0 (va + 4) .memory pa true) t =
      .ok ((List.range 4).map fun i => Memory.read s.mem (pa + i), t) :=
    homeRead_plain hpart' hlink' pa 4
  have hmap : mapAct (placedLanes [(0, va + 4)] fun _ => pa) (fun x => readLane h.core 4 x) t =
      .ok ([(List.range 4).map fun i => Memory.read s.mem (pa + i)], t) := (bind_next hbytes).trans rfl
  have hlow : ∀ l ∈ [((0 : Nat), va)], decide (l.2.toNat % 64 ≠ 0) = false := fun l hl => by
    rw [List.mem_singleton.mp hl]
    exact decide_eq_false (not_not.mpr halign)
  refine ⟨marks, ?_⟩
  unfold readDtag
  rw [checkLanes_none (bad := fun a => decide (a.toNat % 64 ≠ 0)) hlow, bind_next (pure_run _ _)]
  refine (bind_next hread).trans ((bind_next htrace).trans ((bind_next hmap).trans ?_))
  have hword : BitVec.ofNat 4 (bits (fromLE [(List.range 4).map fun i => Memory.read s.mem (pa + i)].flatten) 2 4) = dt := hdt.symm
  dsimp only
  rw [hword, if_pos hok]
  rfl

end

/-- A core's order with one more operation. -/
def Chip.ordering (c : Chip) (core : Nat) (o : MatOp) : Chip :=
  c.modCore core fun k => { k with orderNext := k.orderNext + 1, order := mset k.order (k.orderNext + 1) o }

/-- A group's open set with one more operation. -/
def Group.opens (key : Nat) (x : Group) : Group := { x with openSet := x.openSet ++ [key] }

theorem Chip.accepting_eq (c : Chip) (core g : Nat) (o : MatOp) :
    c.accepting core g o = (c.ordering core o).modGroup g (Group.opens ((c.core core).orderNext + 1)) := rfl

/-- A drain to registers that may issue, whose descriptor at `pa` gives the tag `dt`. -/
structure State.mayDrain (s : State) (h : Here) (f : MatF) (tile pa : Nat) (dt : BitVec 4) : Prop where
  room : s.orderRoom h
  tile : h.team.tiles[f.d.toNat]? = some tile
  form : f.mods.getLsbD 0 = true
  issues : s.mayIssue h { Uses.none with ss := [f.b.toNat, f.b.toNat + 1] ++ [], ps := guardPs f.g }
  calm : s.calm h.actor
  aligned : (h.pair f.b.toNat).toNat % 64 = 0
  reaches : s.reaches h (Use.load h.user) 4 [(0, h.pair f.b.toNat + 4)] fun _ => pa
  clean : s.chip.poisoned pa 4 = false
  dtag : dt = BitVec.ofNat 4 (bits (Memory.nat s.mem pa 4) 2 4)
  drains : drainTag dt = true
  fits : f.a.toNat + drainRegs dt ≤ h.grp.alloc
  idle : s.chip.usesPending h.g (h.lanes f.g)
    { Uses.none with vd := (List.range (drainRegs dt)).map fun q => f.a.toNat + q } = false

section
variable {s : State} {h : Here} {f : MatF} {tile pa : Nat} {dt : BitVec 4}

/-- The operation that it puts into the order. -/
abbrev drainQueued (s : State) (h : Here) (f : MatF) (tile : Nat) (dt : BitVec 4) : MatOp :=
  { MatOp.init .tdrn h s.chip.seq f.mods (h.lanes f.g) with
    tile := tile, desc := h.pair f.b.toNat, vd := f.a.toNat, dtag := dt.toNat }

theorem exec_tdrn_registers (hm : s.mayDrain h f tile pa dt) : ∃ marks, exec (.tdrn f) s = .next { s with
    chip := ((s.chip.retire h 8 f.stall.toNat s.clk).withMarks marks).accepting h.core h.g (drainQueued s h f tile dt) } := by
  obtain ⟨marks, hread⟩ := readDtag_past hm.calm hm.aligned hm.reaches hm.clean hm.dtag hm.drains 8 f.stall.toNat
  have hi : s.mayIssue h { Uses.none with
      ss := [f.b.toNat, f.b.toNat + 1] ++ (if f.mods.getLsbD 0 then [] else [f.a.toNat, f.a.toNat + 1]), ps := guardPs f.g } := by
    rw [if_pos hm.form]
    exact hm.issues
  have hroom : ((((s.chip.retire h 8 f.stall.toNat s.clk).withMarks marks).core h.core).order.filter fun e =>
      e.2.status.isNone).length < 32 := by
    rw [show ((s.chip.retire h 8 f.stall.toNat s.clk).withMarks marks).core h.core = s.chip.core h.core from Chip.retire_core ..]
    exact hm.room
  refine ⟨marks, exec_issued (i := .tdrn f) rfl hi ?_⟩
  rw [physTile_some hm.tile]
  refine (bind_next (pure_run _ _)).trans ((bind_next (offWindow_past hm.reaches.1 8 f.stall.toNat _)).trans
    ((bind_next (getChip_run _)).trans ?_))
  dsimp only
  rw [if_pos hm.form]
  refine (bind_next hread).trans ?_
  rw [if_neg (Nat.not_lt.mpr hm.fits), Chip.retire_usesPending_vd, hm.idle, if_neg Bool.false_ne_true,
    show (s.txPast h 8 f.stall.toNat).chip.seq = s.chip.seq from Chip.retire_seq ..]
  exact acceptMat_run (t := { s.tx with chip := (s.chip.retire h 8 f.stall.toNat s.clk).withMarks marks }) hroom _

/-- A drain to registers is accepted with the tag of its descriptor. -/
theorem tdrn_accepted_registers (hm : s.mayDrain h f tile pa dt) :
    ∃ t, exec (.tdrn f) s = .next t ∧ s.passes t h (xForm f.stall f.g) [] [] ∧
      (t.chip.core h.core).order = mset (s.chip.core h.core).order ((s.chip.core h.core).orderNext + 1) (drainQueued s h f tile dt) ∧
      (t.chip.group? h.g).map Group.openSet = some (h.grp.openSet ++ [(s.chip.core h.core).orderNext + 1]) := by
  obtain ⟨marks, hx⟩ := exec_tdrn_registers hm
  have hcore : ((s.chip.retire h 8 f.stall.toNat s.clk).withMarks marks).core h.core = s.chip.core h.core := Chip.retire_core ..
  have hturn := Tx.turnsSlot_trans
    (Tx.turnsSlot_of_slots (t := s.txPast h 8 f.stall.toNat)
      (d := ((s.chip.retire h 8 f.stall.toNat s.clk).withMarks marks).ordering h.core (drainQueued s h f tile dt)) rfl rfl h.g)
    (Tx.turnsSlot_modGroup _ h.g (Group.opens ((((s.chip.retire h 8 f.stall.toNat s.clk).withMarks marks).core h.core).orderNext + 1)))
  have hgroup := State.txPast_group (F := xForm f.stall f.g) hm.issues.1 hturn
  have hpass := State.passes_of_turn (F := xForm f.stall f.g) (sd := []) hm.issues.1 hturn (fun _ => rfl) (fun _ => rfl) (fun _ => rfl)
    fun _ _ _ => rfl
  refine ⟨_, hx, hpass, ?_, ?_⟩
  · rw [Chip.accepting_eq, Chip.core_modGroup, Chip.ordering, Chip.core_modCore_same, hcore]
  · refine (congrArg (Option.map Group.openSet) hgroup).trans ?_
    rw [hcore]
    rfl

end

end Sys2Proof.Machine
end

section
/-! Batches of matrix operations and the tiles of a team (R191, R198). -/

namespace Sys2Proof.Machine

section
variable {s : State} {h : Here} {f : ScalarPairF}

/-! ## Writes of scalar registers as an instruction ends -/

/-- Behind the issue, a register of the acting group that a chip still shows takes a value at once. -/
theorem Chip.land_setS_past {c : Chip} {k : Group → Group} {len stall : Nat} {u : Uses} (hi : s.mayIssue h u)
    (hc : c.group? h.g = some (k (h.groupPast len stall s.clk))) (hk : ∀ x, (k x).hazards = x.hazards) (r : Nat) (v : Word) :
    (c.modGroup h.g fun x => x.landS s.clk r h.mask v) = c.modGroup h.g fun x => x.setS r v :=
  Chip.land_setS hc ((hk _).trans (Here.groupPast_hazards hi.2.2.2.2 len stall s.clk))

theorem Chip.retire_group_past {u : Uses} (hi : s.mayIssue h u) (len stall : Nat) :
    (s.chip.retire h len stall s.clk).group? h.g = some (h.groupPast len stall s.clk) :=
  Chip.retire_group (State.acts_eq hi.1).1 ..

/-! ## MBAT and MWAIT (R198) -/

theorem mbat_closes (hl : h.lanes f.g ≠ 0) (hi : s.mayIssue h { Uses.none with sd := [f.sd.toNat], ps := guardPs f.g }) :
    exec (.mbat f) s = .next (s.onward h (xForm f.stall f.g) fun c => c.modGroup h.g fun x =>
      x.closeBatch.setS f.sd.toNat (BitVec.ofNat 32 h.grp.batchNo)) := by
  have hgroup : ((s.chip.retire h 8 f.stall.toNat s.clk).modGroup h.g Group.closeBatch).group? h.g =
      some (h.groupPast 8 f.stall.toNat s.clk).closeBatch := by
    rw [Chip.group_modGroup_same, Chip.retire_group_past hi, Option.map_some]
  refine exec_issued (i := .mbat f) rfl hi ((onceIf_run hl _ _).trans ((bind_next (modGroup_run _ _ _)).trans ?_))
  refine (setS_run _ _ _ _).trans (congrArg (fun c => Except.ok ((), { s.tx with chip := c })) ?_)
  exact (Chip.land_setS_past hi hgroup (fun _ => rfl) _ _).trans (Chip.modGroup_modGroup ..)

theorem Chip.retire_mwaitStatus (c : Chip) (h : Here) (len stall now core : Nat) (x : Group) (n : Nat) :
    (c.retire h len stall now).mwaitStatus core x n = c.mwaitStatus core x n :=
  Chip.retire_keeps (·.mwaitStatus core x n) (fun _ _ _ => rfl) ..

theorem mwait_answers {st : Nat} (hl : h.lanes f.g ≠ 0)
    (hi : s.mayIssue h { Uses.none with ss := [f.sa.toNat], sd := [f.sd.toNat], ps := guardPs f.g })
    (hs : s.chip.mwaitStatus h.core h.grp (h.s f.sa.toNat).toNat = some st) :
    s.scalarGets h (.mwait f) (xForm f.stall f.g) f.sd.toNat (BitVec.ofNat 32 st) := by
  refine setS_gets rfl hi ((onceIf_run hl _ _).trans ((bind_next (getChip_run _)).trans ?_))
  dsimp only [State.txPast, xForm]
  rw [Chip.retire_mwaitStatus, hs]

theorem mwait_parks (hl : h.lanes f.g ≠ 0)
    (hi : s.mayIssue h { Uses.none with ss := [f.sa.toNat], sd := [f.sd.toNat], ps := guardPs f.g })
    (hs : s.chip.mwaitStatus h.core h.grp (h.s f.sa.toNat).toNat = none) (hside : h.path.sides = []) :
    ∃ t, exec (.mwait f) s = .next t ∧ s.parks t h (xForm f.stall f.g) (.mwait (h.s f.sa.toNat).toNat f.sd.toNat) := by
  obtain ⟨u, hu, hpark⟩ := parkOn_turns h (.mwait (h.s f.sa.toNat).toNat f.sd.toNat) (s.txPast h 8 f.stall.toNat)
  refine ⟨s.commit u, runZha_next ((issue_next hi 8 f.stall.toNat _).trans ((onceIf_run hl _ _).trans
      ((bind_next (getChip_run _)).trans ?_))),
    State.parks_of_turn (k := id) hi.1 hside hpark fun _ => ⟨rfl, rfl, rfl, rfl⟩⟩
  rw [Chip.retire_mwaitStatus, hs]
  exact hu

/-! ## TALLOC (R191) -/

theorem talloc_maps (hl : h.lanes f.g ≠ 0) (hmap : f.map = 1)
    (hi : s.mayIssue h { Uses.none with sd := [f.sd.toNat, f.sd.toNat + 1], ps := guardPs f.g }) :
    exec (.talloc f) s = .next (s.onward h (xForm f.stall f.g) fun c =>
      c.modGroup h.g fun x => x.setPair f.sd.toNat (tileMap h.team.tiles)) := by
  have hi' : s.mayIssue h { Uses.none with
      ss := if f.map = 1 then [] else [f.sa.toNat]
      sd := if f.map = 1 then [f.sd.toNat, f.sd.toNat + 1] else [f.sd.toNat], ps := guardPs f.g } := by
    rw [if_pos hmap, if_pos hmap]
    exact hi
  have hpast := Chip.retire_group_past hi 8 f.stall.toNat
  have hlow (v : Word) : ((s.chip.retire h 8 f.stall.toNat s.clk).modGroup h.g fun x => x.setS f.sd.toNat v).group? h.g =
      some ((h.groupPast 8 f.stall.toNat s.clk).setS f.sd.toNat v) := by
    rw [Chip.group_modGroup_same, hpast, Option.map_some]
  refine exec_issued (i := .talloc f) rfl hi' ((onceIf_run hl _ _).trans ?_)
  rw [if_pos hmap, setPair_run]
  refine congrArg (fun c => Except.ok ((), { s.tx with chip := c })) ?_
  dsimp only [State.tx_clk]
  rw [Chip.land_setS_past (k := id) hi hpast fun _ => rfl, Chip.land_setS_past (k := (·.setS f.sd.toNat _)) hi (hlow _) fun _ => rfl]
  exact Chip.modGroup_modGroup ..

theorem Chip.retire_freeTiles (c : Chip) (h : Here) (len stall now core : Nat) :
    (c.retire h len stall now).freeTiles core = c.freeTiles core := by
  unfold Chip.freeTiles Chip.coreTeams
  rw [Chip.retire_teams]
  have hall (i : Nat) : (((mmod c.teams h.tid fun t => { t with ret := t.ret + 1 }).filter fun t => t.2.core = core).all fun t =>
      !t.2.tiles.contains i) = (c.teams.filter fun t => t.2.core = core).all fun t => !t.2.tiles.contains i := by
    rw [List.all_filter, List.all_filter, mmod, List.all_map]
    refine congrArg c.teams.all (funext fun e => ?_)
    by_cases he : e.1 = h.tid <;> simp [he]
  simp only [hall]

/-- Physical tiles of a core, zeroed, go to a team. -/
def Chip.givesTiles (c : Chip) (core tid : Nat) (more : List Nat) : Chip :=
  (c.modCore core fun k => { k with tiles := k.tiles.filter fun e => !more.contains (e.1 / 4096) }).modTeam tid fun t =>
    { t with tiles := t.tiles ++ more }

theorem talloc_takes (hl : h.lanes f.g ≠ 0) (hmap : f.map = 0)
    (hi : s.mayIssue h { Uses.none with ss := [f.sa.toNat], sd := [f.sd.toNat], ps := guardPs f.g }) {more : List Nat}
    (hmore : more = (s.chip.freeTiles h.core).take (min (h.s f.sa.toNat).toNat 16 - h.team.tiles.length)) :
    exec (.talloc f) s = .next (s.onward h (xForm f.stall f.g) fun c =>
      (c.givesTiles h.core h.tid more).modGroup h.g fun x =>
        x.setS f.sd.toNat (BitVec.ofNat 32 (h.team.tiles.length + more.length))) := by
  have hform : ¬ f.map = 1 := by rw [hmap]; decide
  have hi' : s.mayIssue h { Uses.none with
      ss := if f.map = 1 then [] else [f.sa.toNat]
      sd := if f.map = 1 then [f.sd.toNat, f.sd.toNat + 1] else [f.sd.toNat], ps := guardPs f.g } := by
    rw [if_neg hform, if_neg hform]
    exact hi
  subst hmore
  refine exec_issued (i := .talloc f) rfl hi' ((onceIf_run hl _ _).trans ?_)
  rw [if_neg hform, bind_next (getChip_run _)]
  dsimp only
  rw [Chip.retire_freeTiles]
  exact congrArg (fun c => Except.ok ((), { s.tx with chip := c })) (Chip.land_setS_past (k := id)
    (c := (s.chip.retire h 8 f.stall.toNat s.clk).givesTiles h.core h.tid _) hi (Chip.retire_group_past hi 8 f.stall.toNat)
    (fun _ => rfl) ..)

/-! ## TFREE (R191) -/

theorem tfree_keeps (hl : h.lanes f.g ≠ 0) (hi : s.mayIssue h { Uses.none with ss := [f.sa.toNat], ps := guardPs f.g })
    (hn : h.team.tiles.length ≤ (h.s f.sa.toNat).toNat) : exec (.tfree f) s = .next (s.onward h (xForm f.stall f.g) id) := by
  refine exec_issued (i := .tfree f) rfl hi ((onceIf_run hl _ _).trans ?_)
  rw [if_pos hn]
  rfl

theorem tfree_frees (hl : h.lanes f.g ≠ 0) (hi : s.mayIssue h { Uses.none with ss := [f.sa.toNat], ps := guardPs f.g })
    (hn : (h.s f.sa.toNat).toNat < h.team.tiles.length)
    (hfree : ∀ e ∈ (s.chip.core h.core).order, e.2.status = none →
      e.2.tile ∉ h.team.tiles.drop (h.s f.sa.toNat).toNat ∧ e.2.tile2 ∉ h.team.tiles.drop (h.s f.sa.toNat).toNat) :
    exec (.tfree f) s = .next (s.onward h (xForm f.stall f.g) fun c =>
      c.modTeam h.tid fun t => { t with tiles := t.tiles.take (h.s f.sa.toNat).toNat }) := by
  have hidle : ((s.chip.core h.core).order.any fun o => o.2.status.isNone &&
      ((h.team.tiles.drop (h.s f.sa.toNat).toNat).contains o.2.tile ||
        (h.team.tiles.drop (h.s f.sa.toNat).toNat).contains o.2.tile2)) = false := by
    rw [List.any_eq_false]
    intro e he
    cases hs : e.2.status with
    | some st => simp
    | none =>
      obtain ⟨htile, htile2⟩ := hfree e he hs
      simp [htile, htile2]
  refine exec_issued (i := .tfree f) rfl hi ((onceIf_run hl _ _).trans ?_)
  rw [if_neg (Nat.not_le.mpr hn), bind_next (getChip_run _)]
  dsimp only
  rw [Chip.retire_core, hidle]
  rfl

end

/-- Settles O36: each instruction's acceptance by its exact chip, and the batches and tiles of a team. -/
theorem matrixIssue : Obligations.MatrixIssue := by
  unfold Obligations.MatrixIssue
  intro s h op accepts
  refine ⟨fun f hr => ?_, fun f tile hr hi ht => ?_, fun f hl => ?_⟩
  · intro F mask a b c ad ids tagged
    refine ⟨fun hi hm hl hf hfit => bld_accepted hr hi hm hl hf hfit, fun tile ht => ⟨?_, ?_, ?_, ?_⟩⟩
    · exact fun hi hm hf hids hw => mma_accepted hr ht hi hm hf hids hw
    · exact fun hi hm hids hw => mv_accepted hr ht hi hm hids hw
    · exact fun hform hi hf hrows hlen hw => tdrn_accepted hr ht hform hi hf hrows hlen hw
    · intro pa hform hi hc halign hreach hp dt regs hok hfit hidle
      exact tdrn_accepted_registers ⟨hr, ht, hform, hi, hc, halign, hreach, hp, rfl, hok, hfit, hidle⟩
  · exact ⟨tzero_accepted hr hi ht, fun src hsrc => tmov_accepted hr hi ht hsrc⟩
  · intro F sa sd tiles
    refine ⟨mbat_closes hl, fun hi => ⟨fun st => mwait_answers hl hi, mwait_parks hl hi⟩, fun hmap hi => talloc_maps hl hmap hi,
      fun hmap hi => ?_, fun hi => ⟨tfree_keeps hl hi, tfree_frees hl hi⟩⟩
    intro more
    exact talloc_takes hl hmap hi rfl

end Sys2Proof.Machine
end

section
/-! Waits whose results go to a scalar register (O28, O30): states in which such a result stands below a write of another path. -/

namespace Sys2Proof.Machine

/-- The group of `statusBelow`, whose path 0 waits otherwise. Path 1 has written 7 to S1 by an instruction whose result completes
at clk 4. -/
def resultBelow (w : Wait) : Group :=
  { statusBelow with paths := [(0, oneLanePath 0 (some w)), (1, oneLanePath 1 none)], arrivals := [] }

/-- The side of path 0 that waits there. -/
def resultSide (w : Wait) : Parked := ⟨0, 0, none, 0, 1, w⟩

/-- The acting path of that group in slot 0. -/
def resultHere (w : Wait) : Here :=
  ⟨0, 0, { Slot.init with group := some (resultBelow w) }, resultBelow w, oneLanePath 0 (some w), 1, placedTeam, 1, placedRun⟩

/-- A machine with this group alone at clk 2, a page of 2 MiB at VA 0 in its core's translation cache. -/
def resultWaits (w : Wait) : State :=
  { State.reset with
    clk := 2
    chip := { Chip.reset with
      slots := [(0, { Slot.init with group := some (resultBelow w) })]
      teams := [(1, placedTeam)]
      runs := [(1, placedRun)]
      cores := [(0, { Core.init with tlb := [⟨0, 0, 21, 0x200000, 0x673⟩] })] } }

/-- A MONW for the value 5 at an address that holds 0, whose timeout has expired at clk 2; its status goes to S1. -/
def expiredMonw : Wait := .monw 0x1000 0x201000 false 0 false 5 (some 2) 1 7 0

theorem expiredMonw_waits :
    (resultWaits expiredMonw).waits (resultSide expiredMonw) (oneLanePath 0 (some expiredMonw)) ∧ (resultWaits expiredMonw).plainReads := by
  unfold State.waits State.plainReads
  decide +kernel

/-- The timeout ends the wait, and S1 reads as 7: path 1's write completes later than the status and so applies above it (R39). -/
theorem expiredMonw_status : ∀ t, exec (.monwTimeout 0 0) (resultWaits expiredMonw) = .next t → t.sreg 0 1 = 7 := by
  have hrun : (match exec (.monwTimeout 0 0) (resultWaits expiredMonw) with
      | .next t => some (t.sreg 0 1)
      | _ => none) = some 7 := by decide +kernel
  intro t ht
  rw [ht] at hrun
  exact Option.some.inj hrun

/-- Refutes O28: the status of a MONW whose timeout has expired does not read as 1, as a fixed-latency write of another path to its
register is outstanding. -/
theorem not_monitors : ¬ Obligations.Monitors := by
  unfold Obligations.Monitors
  intro hM
  obtain ⟨-, hparked, -⟩ := hM (resultWaits expiredMonw) 0x201000
  obtain ⟨hwaits, hplain⟩ := expiredMonw_waits
  obtain ⟨htimeout, -⟩ := hparked _ _ (resultHere expiredMonw) 0x1000 false false 0 5 1 7 (some 2) hwaits hplain (by rfl) (by rfl)
  obtain ⟨t, ht, -, -, hstatus⟩ := htimeout 2 rfl (Nat.le_refl 2)
  have hmiss : ¬ monCompare 0 false false (Memory.nat (resultWaits expiredMonw).mem 0x201000 4) 5 = true := by decide +kernel
  have hone : t.sreg 0 1 = 1 := hstatus.trans (if_neg hmiss)
  rw [expiredMonw_status t ht] at hone
  exact absurd hone (by decide)

/-- A push of the value 9 to the edge at 0x1000; its status goes to S1. -/
def waitingPush : Wait := .epush 0x1000 9 1

/-- The header of an empty edge of two slots. -/
def emptyEdge : EdgeHdr := ⟨2, 2, 0, 0, 0, false, false⟩

/-- That edge at 0x1000, at whose header the push is the first to be parked. -/
def pushReady : State :=
  let s := resultWaits waitingPush
  { s with
    mem := Memory.writeAll [] (emptyEdge.bytes.zipIdx.map fun b => (0x201000 + b.2, b.1))
    chip := { s.chip with mons := [⟨0, 0, 0x201000, false, 0, none, false⟩] } }

/-- The actor of the push. -/
def pushActor : Actor := { (resultHere waitingPush).actor with pc := 0, mask := 1 }

theorem pushReady_waits : pushReady.waits (resultSide waitingPush) (oneLanePath 0 (some waitingPush)) := by
  unfold State.waits
  decide +kernel

theorem pushReady_edge : pushReady.edgeAt pushActor true 0x1000 0x201000 emptyEdge ∧
    pushReady.edgeSlot pushActor (Use.store true) 0x1000 0x201000 0 0x201040 ∧
    pushReady.chip.firstAtEdge (resultSide waitingPush) true 0x201000 = true := by
  have hwindow : ∀ a, (pushReady.chip.ctx pushActor.ctx).area = some a → Memory.nat pushReady.mem (a.pa + 0x28) 8 = 0 :=
    fun a ha => by cases ha
  have hat : pushReady.plainMemory ∧ pushReady.Inv ∧ pushActor.mode = 0 ∧ pushReady.chip.region 0x1000 = .global ∧
      pushReady.chip.hit pushActor.core pushActor.run pushActor.ctx (Use.rmw true) 0x1000 = some 0x201000 ∧
      EdgeHdr.of ((List.range 64).map fun i => Memory.read pushReady.mem (0x201000 + i)) = emptyEdge ∧ emptyEdge.bad = false := by
    unfold State.plainMemory Chip.plainMemory
    decide +kernel
  obtain ⟨hplain, hinv, hmode, hregion, hhit, hhdr, hgood⟩ := hat
  refine ⟨⟨hplain, hinv, hmode, hwindow, hregion, rfl, hhit, hhdr, hgood⟩, ?_⟩
  unfold State.edgeSlot
  decide +kernel

/-- The retry pushes, and S1 reads as 7: path 1's write completes later than the status and so applies above it (R39). -/
theorem pushReady_status : ∀ t, exec (.edgeParkRetry 0 0) pushReady = .next t → t.sreg 0 1 = 7 := by
  have hrun : (match exec (.edgeParkRetry 0 0) pushReady with
      | .next t => some (t.sreg 0 1)
      | _ => none) = some 7 := by decide +kernel
  intro t ht
  rw [ht] at hrun
  exact Option.some.inj hrun

/-- Refutes O30: the status of a parked push whose retry completes it does not read as 0, as a fixed-latency write of another path
to its register is outstanding. -/
theorem not_edges : ¬ Obligations.Edges := by
  unfold Obligations.Edges
  intro hE
  obtain ⟨-, hretry⟩ := hE pushReady 0x201000 0x201040 emptyEdge
  obtain ⟨hedge, hslot, hfirst⟩ := pushReady_edge
  obtain ⟨hpush, -⟩ := hretry _ _ (resultHere waitingPush) 0x1000 pushActor pushReady_waits (by rfl) (by rfl) rfl hedge
    (by decide +kernel)
  obtain ⟨t, ht, -, hzero, -⟩ := hpush 9 1 rfl hfirst rfl (by decide) hslot (by decide +kernel)
  have hseven := pushReady_status t ht
  rw [show t.sreg 0 1 = 0 from hzero] at hseven
  exact absurd hseven (by decide)

end Sys2Proof.Machine
end

section
/-! COBJ (O35) where a team's scratch stands on another core than its group's slot. -/

namespace Sys2Proof.Machine

/-- A team with a unit of scratch, its record on core 1 while its group has slot 0, of core 0. S12:S13 name an object at scratch
0x100, where core 0 holds 1. -/
def strayTeam : State :=
  let c := (Chip.reset.withTeam 0).modGroup 0 fun x => { x with s := [(12, 0x100), (13, 0x1000000)] }
  { State.reset with
    chip := (c.modTeam 1 fun t => { t with core := 1, scrUnits := 1 }).modCore 0 fun k => k.setBytes 0x100 [1] }

/-- COBJ of the object that S12:S13 name. -/
def objectAt12 : ObjF := ⟨0, 0, 12, ⟨0, 0, 0⟩⟩

/-- It meets what O35 asks of a COBJ. -/
theorem strayTeam_issues : ∃ h ∈ strayTeam.chip.here? 0 0,
    h.lanes objectAt12.g ≠ 0 ∧ strayTeam.nobodyWaits ∧ strayTeam.plainMemory ∧ h.team.raceMode = 0 ∧
      strayTeam.chip.groupOps h.g = [] ∧ objScratch (h.pair 12) = some 0x100 ∧ 0x100 + 16 ≤ h.team.scrSize ∧
      strayTeam.mayIssue h { Uses.none with ss := [12, 13], ps := guardPs objectAt12.g } ∧ h.core = 0 ∧ h.team.scrLo = 0 := by
  unfold State.plainMemory Chip.plainMemory
  decide +kernel

/-- The zeros go to the scratch of the team's core, and core 0 keeps its byte. -/
theorem strayTeam_keeps : ∀ t, exec (.cobj objectAt12) strayTeam = .next t → (t.chip.core 0).byte 0x100 = 1 := by
  have hrun : (match exec (.cobj objectAt12) strayTeam with
      | .next t => some ((t.chip.core 0).byte 0x100)
      | _ => none) = some 1 := by decide +kernel
  intro t ht
  rw [ht] at hrun
  exact Option.some.inj hrun

/-- Refutes O35: COBJ zeroes the object in the scratch of the core that the team's record names, and no premise says that the
acting group's slot is of that core. -/
theorem not_copies : ¬ Obligations.Copies := by
  unfold Obligations.Copies
  intro hC
  obtain ⟨-, hobject, -⟩ := hC strayTeam
  obtain ⟨h, -, hlanes, hnobody, hplain, hmode, halone, hobj, hsize, hissue, hcore, hlo⟩ := strayTeam_issues
  obtain ⟨hcobj, -⟩ := hobject h objectAt12 0x100 hlanes ⟨hnobody, hplain⟩ hmode halone hobj rfl hsize
  obtain ⟨t, ht, -, hzero, -⟩ := hcobj hissue
  rw [hcore, hlo] at hzero
  have hfirst : (t.chip.core 0).byte 0x100 = 0 := congrArg (·.getD 0 0) hzero
  rw [strayTeam_keeps t ht] at hfirst
  exact absurd hfirst (by decide)

end Sys2Proof.Machine
end
